-- ==== Sys2Proof/Word.lean ====
section
/-! DEFINITION. Trits, tryte and word values (00_scope.md R5, R6; 01_values.md R12, R13): the plainest arithmetic
of balanced ternary strings, held as bounded integers. -/

namespace Sys2Proof

/-- One balanced ternary digit (00_scope.md, "Trits, trytes and words"). -/
inductive Trit where
  | neg
  | zero
  | pos
deriving DecidableEq, Repr, Inhabited

/-- The digit's value, -1, 0 or +1. -/
def Trit.val : Trit → Int
  | .neg => -1
  | .zero => 0
  | .pos => 1

/-- The trit that is the sign of an integer. -/
def Trit.sign (v : Int) : Trit :=
  if v < 0 then .neg else if v = 0 then .zero else .pos

/-- The trit of the other sign. -/
def Trit.flip : Trit → Trit
  | .neg => .pos
  | .zero => .zero
  | .pos => .neg

/-- M of R13: the largest magnitude of n trits, (3^n - 1)/2. -/
def maxMag (n : Nat) : Nat := (3 ^ n - 1) / 2

/-- R13: the value reduced into the balanced range of n trits. -/
def wrapInt (n : Nat) (v : Int) : Int :=
  (v + maxMag n) % (3 ^ n : Nat) - maxMag n

/-- The value with its n low trits dropped (01_values.md, after R15): the integer nearest to v / 3^n. -/
def dropInt (n : Nat) (v : Int) : Int :=
  (v + maxMag n) / (3 ^ n : Nat)

/-- Trit i of the balanced expansion of an integer, as an integer in -1..1 (R5, R12). -/
def tritAt (v : Int) (i : Nat) : Int := wrapInt 1 (dropInt i v)

theorem two_maxMag (n : Nat) : 2 * maxMag n + 1 = 3 ^ n := by
  have h : 3 ^ n % 2 = 1 := by
    induction n with
    | zero => rfl
    | succ k ih => rw [Nat.pow_succ, Nat.mul_mod, ih]
  have hp : 0 < 3 ^ n := Nat.pow_pos (by decide)
  unfold maxMag
  generalize 3 ^ n = m at h hp
  omega

theorem wrapInt_range (n : Nat) (v : Int) :
    -(maxMag n : Int) ≤ wrapInt n v ∧ wrapInt n v ≤ maxMag n := by
  have h2 := two_maxMag n
  have hp : 0 < 3 ^ n := Nat.pow_pos (by decide)
  unfold wrapInt
  generalize 3 ^ n = m at *
  have h0 := Int.emod_nonneg (v + maxMag n) (b := (m : Int)) (by omega)
  have h1 := Int.emod_lt_of_pos (v + maxMag n) (b := (m : Int)) (by omega)
  omega

/-- A string of n trits as the balanced integer it stands for (R6, R12): every integer of magnitude at most
(3^n - 1)/2 is one string, and the other way round. -/
structure Trits (n : Nat) where
  val : Int
  ok : -(maxMag n : Int) ≤ val ∧ val ≤ maxMag n
deriving DecidableEq, Repr

/-- R13: the low n trits of an integer. -/
def Trits.ofInt (n : Nat) (v : Int) : Trits n := ⟨wrapInt n v, wrapInt_range n v⟩

/-- Trit i of a string, as an integer. -/
def Trits.trit {n : Nat} (x : Trits n) (i : Nat) : Int := tritAt x.val i

/-- A tryte is 9 trits, a word 27, a TF81 value 81. -/
abbrev Tryte := Trits 9
abbrev Word := Trits 27
abbrev Triple := Trits 81
/-- One byte of the binary side (R10). -/
abbrev Byte := BitVec 8

def Word.ofInt (v : Int) : Word := Trits.ofInt 27 v
def Tryte.ofInt (v : Int) : Tryte := Trits.ofInt 9 v

/-- The all-zero string. -/
def Trits.zero (n : Nat) : Trits n := Trits.ofInt n 0

end Sys2Proof
end

