-- ==== Sys2Proof/Syntax.lean ====
section
/-! DEFINITION. The instructions of XTI as data, one constructor per row of spec/opcode_table.json: 174 words or
forms of words (04_instruction_words.md and the chapters it names), and 69 events of the device's other agents
(95_what_each_step_holds.md). -/

namespace Sys2Proof

/-! ## Names of the device's parts, used by the events -/

/-- A core: die 0..3, cluster 0..26 of the die, core 0..8 of the cluster (05_registers.md R120). -/
structure CoreRef where
  die : Nat
  cluster : Nat
  core : Nat
deriving DecidableEq, Repr, Inhabited

/-- An issue slot 0..2 of a core (R57). -/
structure SlotRef where
  core : CoreRef
  slot : Nat
deriving DecidableEq, Repr, Inhabited

/-- A group: its workgroup's number in the model and its hardware group index (R56). -/
structure GroupRef where
  wg : Nat
  hw : Nat
deriving DecidableEq, Repr, Inhabited

/-- A line of last-level storage by its home die, tier and first slot line: a packed line, a coded block of `budget` slot
lines (R44, R288), or with `bytes` the 160 bytes of a slot line as a binary window holds them (R52, R225). -/
structure LineKey where
  coded : Bool
  die : Nat
  lpddr : Bool
  slot : Nat
  budget : Nat
  bytes : Bool := false
deriving DecidableEq, Repr, Inhabited

/-- A host access of a byte window (27_host_and_package.md R435). -/
inductive HostAccess where
  | read (n : Nat)
  | write (bytes : List Byte)
deriving DecidableEq, Repr, Inhabited

/-- A register of a thread or, for s, of its group (05_registers.md R112). -/
inductive RegName where
  | g (n : Nat)
  | h (n : Nat)
  | k (n : Nat)
  | s (n : Nat)
deriving DecidableEq, Repr, Inhabited

/-- Where a soft error strikes (10_memories.md R240). `corrected` is a corrected or refetched error, by the
storage instance of counter kind 9; `tlb` drops an entry of a core's TLB or its cluster's, to be refetched; the others are
uncorrectable. -/
inductive SoftError where
  | corrected (die storage : Nat)
  | tlb (core : CoreRef) (shared : Bool) (entry : Nat)
  | register (g : GroupRef) (lane : Nat) (reg : RegName)
  | scratchpad (word : Nat)
  | chip (word : Nat)
  | l1 (core : CoreRef) (ctx : Nat) (line : Int) (word : Nat)
  | lastLevel (die : Nat) (line : LineKey) (third : Nat)
  | walkerState (die : Nat)
deriving DecidableEq, Repr, Inhabited

/-! ## Operands -/

/-- Element types of var (R91, Table 3). -/
inductive Ty where
  | w
  | t
  | f27
  | f9
  | f81
deriving DecidableEq, Repr, Inhabited

/-- A g field of a fixed-latency word under the h map (R86, R89). -/
inductive Reg where
  | g (n : Fin 81)
  | h (n : Fin 9)
deriving DecidableEq, Repr, Inhabited

/-- A second source by the b mode (R87). -/
inductive Src where
  | g (n : Fin 81)
  | h (n : Fin 9)
  | s (n : Fin 27)
  | imm (v : Trits 4)
deriving DecidableEq, Repr

/-- A b operand that is a scalar register or an immediate. -/
inductive SImm where
  | s (n : Fin 27)
  | imm (v : Trits 4)
deriving DecidableEq, Repr

/-- The predicate fields k and ks (R90). -/
inductive Pred where
  | always
  | pos (k : Fin 9)
  | neg (k : Fin 9)
deriving DecidableEq, Repr, Inhabited

/-- op.T gd, a, b. -/
structure Op3 where
  ty : Ty
  d : Reg
  a : Reg
  b : Src
  p : Pred
deriving DecidableEq, Repr

/-- op.T gd, a. -/
structure Op2 where
  ty : Ty
  d : Reg
  a : Reg
  p : Pred
deriving DecidableEq, Repr

/-- op gd, a, b without a type. -/
structure Op0 where
  d : Reg
  a : Reg
  b : Src
  p : Pred
deriving DecidableEq, Repr

/-- mov.T gd, b. -/
structure MovArgs where
  ty : Ty
  d : Reg
  b : Src
  p : Pred
deriving DecidableEq, Repr

/-- movi.T sd, b. -/
structure MoviArgs where
  ty : Ty
  sd : Fin 27
  b : Src
  p : Pred
deriving DecidableEq, Repr

/-- lea gd, a, b with scale 3^n. -/
structure LeaArgs where
  scale : Fin 5
  d : Reg
  a : Reg
  b : Src
  p : Pred
deriving DecidableEq, Repr

/-- op.T kd, a, b. -/
structure CmpArgs where
  ty : Ty
  kd : Fin 9
  a : Reg
  b : Src
  p : Pred
deriving DecidableEq, Repr

/-- PSET sub-operations (R145, Table 5). -/
inductive PsetFn where
  | copy
  | tmin
  | tmax
  | tprd
  | tcns
  | tsum3
  | neg
deriving DecidableEq, Repr, Inhabited

/-- PSET's second source: a predicate register or an immediate. -/
inductive PSrc where
  | k (n : Fin 9)
  | imm (v : Trits 4)
deriving DecidableEq, Repr

/-- pset kd, fn, ka, kb. `ka` is absent for copy and neg, whose a field is unused. -/
structure PsetArgs where
  fn : PsetFn
  kd : Fin 9
  ka : Option (Fin 9)
  b : PSrc
  p : Pred
deriving DecidableEq, Repr

/-- CVTW sub-operations (R146, Table 6). -/
inductive CvtwKind where
  | widen
  | wrap
  | sat
deriving DecidableEq, Repr, Inhabited

structure CvtwArgs where
  kind : CvtwKind
  d : Reg
  a : Reg
  b : Src
  p : Pred
deriving DecidableEq, Repr

/-- tidx and tjoin: the k register in var receives the range trit (R148). -/
structure IdxArgs where
  kn : Fin 9
  d : Fin 81
  a : Fin 81
  b : Src
  p : Pred
deriving DecidableEq, Repr

/-- Shuffles: the k register in var receives the validity trit (R183). -/
structure ShflArgs where
  kn : Fin 9
  d : Reg
  a : Reg
  b : Src
  p : Pred
deriving DecidableEq, Repr

structure XpermArgs where
  kn : Fin 9
  d : Reg
  a : Reg
  b : SImm
  p : Pred
deriving DecidableEq, Repr

structure BcstArgs where
  ty : Ty
  d : Reg
  a : Reg
  b : SImm
  p : Pred
deriving DecidableEq, Repr

/-- fcvt.T gd, a, S: `ty` is the destination type (R162). -/
structure FcvtArgs where
  ty : Ty
  src : Ty
  d : Reg
  a : Reg
  p : Pred
deriving DecidableEq, Repr

/-- FTOI modes (R163, Table 6). -/
inductive RoundMode where
  | nearest
  | floor
  | ceil
  | zero
deriving DecidableEq, Repr, Inhabited

structure FtoiArgs where
  ty : Ty
  mode : RoundMode
  d : Reg
  a : Reg
  p : Pred
deriving DecidableEq, Repr

/-- BCVT formats (R168, Table 8). -/
inductive BinFmt where
  | bf16n
  | bf16
  | fp32
  | fp64
deriving DecidableEq, Repr, Inhabited

structure BcvtArgs where
  dirIn : Bool
  fmt : BinFmt
  d : Reg
  a : Reg
  p : Pred
deriving DecidableEq, Repr

/-- A long-latency float word (R166): one operand. -/
structure FlongArgs where
  ty : Ty
  d : Fin 81
  a : Fin 81
  p : Pred
  w : Fin 9
deriving DecidableEq, Repr

/-- fdiv.T gd, a, b -> wn. -/
structure FdivArgs where
  ty : Ty
  d : Fin 81
  a : Fin 81
  b : Src
  p : Pred
  w : Fin 9
deriving DecidableEq, Repr

/-- br, call (R97). -/
structure BranchArgs where
  hint : Trit
  off : Trits 12
deriving DecidableEq, Repr

structure BrpArgs where
  hint : Trit
  p : Pred
  off : Trits 12
deriving DecidableEq, Repr

structure B3Args where
  hint : Trit
  p : Pred
  offm : Trits 6
  offp : Trits 6
deriving DecidableEq, Repr

structure CalliArgs where
  d : Reg
  a : Reg
  b : Src
  p : Pred
deriving DecidableEq, Repr

structure RetArgs where
  a : Reg
  p : Pred
deriving DecidableEq, Repr

structure JmpiArgs where
  a : Reg
  b : Src
  p : Pred
deriving DecidableEq, Repr

structure LoopArgs where
  hint : Trit
  d : Reg
  imm : Trits 4
  p : Pred
deriving DecidableEq, Repr

/-- VOTE sub-operations (R187). -/
inductive VoteFn where
  | all
  | any
  | maj
deriving DecidableEq, Repr, Inhabited

structure VoteArgs where
  fn : VoteFn
  kd : Fin 9
  a : Reg
  p : Pred
deriving DecidableEq, Repr

/-- REDU and SCAN operations (R188). -/
inductive RedOp where
  | min
  | add
  | max
deriving DecidableEq, Repr, Inhabited

structure ReduArgs where
  ty : Ty
  fn : RedOp
  d : Reg
  a : Reg
  p : Pred
deriving DecidableEq, Repr

structure ScanArgs where
  ty : Ty
  fn : RedOp
  exclusive : Bool
  d : Reg
  a : Reg
  p : Pred
deriving DecidableEq, Repr

structure RngArgs where
  d : Reg
  p : Pred
deriving DecidableEq, Repr

structure SreadArgs where
  d : Reg
  num : Fin 15
  p : Pred
deriving DecidableEq, Repr

structure SreadKArgs where
  d : Reg
  k : Fin 9
  p : Pred
deriving DecidableEq, Repr

structure SwriteArgs where
  num : Fin 15
  a : Reg
  p : Pred
deriving DecidableEq, Repr

structure SwriteKArgs where
  kd : Fin 9
  a : Reg
  p : Pred
deriving DecidableEq, Repr

/-- mload sd, sa, descriptor (R210). -/
structure MloadArgs where
  sd : Fin 27
  sa : Fin 27
  desc : Trits 4
deriving DecidableEq, Repr

/-- mloadp sd, sa, descriptor, p; `planes` is p - 1. -/
structure MloadpArgs where
  planes : Fin 9
  sd : Fin 27
  sa : Fin 27
  desc : Trits 4
deriving DecidableEq, Repr

structure MpassArgs where
  tile : Fin 27
  a : Reg
  sb : Fin 27
  p : Pred
deriving DecidableEq, Repr

structure MrdArgs where
  d : Fin 81
  tile : Fin 27
  b : SImm
  p : Pred
  w : Fin 9
deriving DecidableEq, Repr

structure MwrArgs where
  tile : Fin 27
  a : Reg
  b : SImm
  p : Pred
deriving DecidableEq, Repr

structure MstoreArgs where
  sd : Fin 27
  tile : Fin 27
  fmt : Fin 27
deriving DecidableEq, Repr

/-- When an MSTAT completes (R216). -/
inductive MstatWhen where
  | done
  | now
  | consumed
deriving DecidableEq, Repr, Inhabited

structure MstatArgs where
  when_ : MstatWhen
  d : Fin 81
  item : Fin 3
  p : Pred
  w : Fin 9
deriving DecidableEq, Repr

/-- The address spaces of the access map (R267, Table 3). -/
inductive Space where
  | virt
  | scr
  | priv
  | clu
  | chip
deriving DecidableEq, Repr, Inhabited

/-- Scope codes (R268, Table 5). -/
inductive Scope where
  | thread
  | group
  | wgrp
  | cluster
  | die
  | pair
  | pkg
  | sys
deriving DecidableEq, Repr, Inhabited

/-- A strong qualifier (R268, Table 4): `order` is + acquire, 0 relaxed, - release. -/
structure Qual where
  remote : Bool
  order : Trit
  scope : Scope
deriving DecidableEq, Repr

/-- The weak and the strong form of an access. -/
inductive AccForm where
  | weak (off : Trits 4)
  | strong (q : Qual)
deriving DecidableEq, Repr

/-- Access width wd (R267). -/
inductive Width where
  | w
  | t
  | f81
deriving DecidableEq, Repr, Inhabited

/-- LD and ST, weak and strong. -/
structure MemArgs where
  space : Space
  wd : Width
  form : AccForm
  d : Fin 81
  a : Fin 81
  p : Pred
  w : Fin 9
deriving DecidableEq, Repr

/-- LDU and STU. -/
structure UniArgs where
  space : Space
  wd : Width
  form : AccForm
  sd : Fin 27
  sa : Fin 27
  p : Pred
  w : Fin 9
deriving DecidableEq, Repr

/-- Atomic operations (R269). -/
inductive AtomOp where
  | add
  | exch
  | min
  | max
  | tmin
  | tmax
deriving DecidableEq, Repr, Inhabited

/-- Orders of an atomic (R269, Table 7). -/
inductive MemOrder where
  | rlx
  | acq
  | rel
  | acqrel
deriving DecidableEq, Repr, Inhabited

/-- ATOM, ATOMR and CAS; `tryte` is type .t. CAS has operation `add`, code 0. -/
structure AtomArgs where
  space : Space
  op : AtomOp
  tryte : Bool
  order : MemOrder
  scope : Scope
  d : Fin 81
  a : Fin 81
  p : Pred
  w : Fin 9
deriving DecidableEq, Repr

/-- Fence kinds (R281, Table 8). -/
inductive FenceKind where
  | acq
  | rel
  | acqrel
  | sc
deriving DecidableEq, Repr, Inhabited

structure FenceArgs where
  kind : FenceKind
  scope : Scope
deriving DecidableEq, Repr

structure WaitmArgs where
  sd : Fin 27
  sa : Fin 27
  space : Space
  timeout : Trits 4
deriving DecidableEq, Repr

/-- A per-lane address ga, b: CWB, CINV, PREF, ICINV. -/
structure LineArgs where
  a : Reg
  b : Src
  p : Pred
deriving DecidableEq, Repr

/-- A copy or spawn request sa -> wn. -/
structure CopyArgs where
  sa : Fin 27
  w : Fin 9
deriving DecidableEq, Repr

structure CpylArgs where
  sa : Fin 27
  set : Fin 3
  w : Fin 9
deriving DecidableEq, Repr

structure SpawnArgs where
  sd : Fin 27
  sa : Fin 27
  w : Fin 9
deriving DecidableEq, Repr

/-- bari sa, sd, space and bara sd, sa, space. -/
structure BarArgs where
  sd : Fin 27
  sa : Fin 27
  space : Space
deriving DecidableEq, Repr

structure BarSArgs where
  sa : Fin 27
  space : Space
deriving DecidableEq, Repr

structure BarwArgs where
  sa : Fin 27
  sb : Fin 27
  space : Space
deriving DecidableEq, Repr

structure MbrxArgs where
  d : Reg
  b : SImm
deriving DecidableEq, Repr

structure MbtxArgs where
  kd : Fin 9
  a : Reg
  b : SImm
deriving DecidableEq, Repr

/-- op sd, sa. -/
structure SdSa where
  sd : Fin 27
  sa : Fin 27
deriving DecidableEq, Repr

structure RstatArgs where
  sd : Fin 27
  sa : Fin 27
  item : Fin 3
deriving DecidableEq, Repr

/-- rqrd gd, sa, item and rqwr gd, sa, item. -/
structure RqArgs where
  d : Reg
  sa : Fin 27
  item : Fin 14
deriving DecidableEq, Repr

structure TabArgs where
  kd : Fin 9
  a : Reg
  b : Src
deriving DecidableEq, Repr

structure ShpsetArgs where
  kd : Fin 9
  a : Fin 81
  b : Src
deriving DecidableEq, Repr

/-- ratset, winset, cntsel: op sd, sa, b. -/
structure SdSaB where
  sd : Fin 27
  sa : Fin 27
  b : SImm
deriving DecidableEq, Repr

structure CntrdArgs where
  d : Reg
  sa : Fin 27
deriving DecidableEq, Repr

/-! ## Instructions and events -/

/-- One constructor per row of spec/opcode_table.json. -/
inductive Instr where
  -- 06_integer_instructions.md
  | lit (p : Trits 22)
  | mov (x : MovArgs)
  | movi (x : MoviArgs)
  | lea (x : LeaArgs)
  | add (x : Op3)
  | sub (x : Op3)
  | adds (x : Op3)
  | subs (x : Op3)
  | neg (x : Op2)
  | abs (x : Op2)
  | sgn (x : Op2)
  | mul (x : Op3)
  | mulh (x : Op3)
  | mad (x : Op3)
  | divn (x : Op3)
  | divz (x : Op3)
  | divf (x : Op3)
  | remn (x : Op3)
  | remz (x : Op3)
  | remf (x : Op3)
  | min (x : Op3)
  | max (x : Op3)
  | clamp (x : Op3)
  | tmin (x : Op3)
  | tmax (x : Op3)
  | tsum3 (x : Op3)
  | tprd (x : Op3)
  | tcns (x : Op3)
  | shl (x : Op3)
  | shr (x : Op3)
  | rot (x : Op3)
  | ext (x : Op0)
  | ins (x : Op0)
  | cnt (x : Op3)
  | lead (x : Op2)
  | cmp (x : CmpArgs)
  | tst (x : CmpArgs)
  | sel3 (x : Op3)
  | pset (x : PsetArgs)
  | cvtw (x : CvtwArgs)
  | pack3 (x : Op0)
  | unpk3 (x : Op0)
  | splat (x : Op0)
  | tidx (x : IdxArgs)
  | tjoin (x : IdxArgs)
  -- 07_float_instructions.md
  | fadd (x : Op3)
  | fsub (x : Op3)
  | fmul (x : Op3)
  | fma (x : Op3)
  | fmin (x : Op3)
  | fmax (x : Op3)
  | fabs (x : Op2)
  | fneg (x : Op2)
  | fcmp (x : CmpArgs)
  | fcls (x : Op2)
  | fscl (x : Op3)
  | fexn (x : Op2)
  | ftrn (x : Op2)
  | fflr (x : Op2)
  | fcel (x : Op2)
  | fcvt (x : FcvtArgs)
  | ftoi (x : FtoiArgs)
  | itof (x : Op3)
  | fdot (x : Op0)
  | fdiv (x : FdivArgs)
  | fsqt (x : FlongArgs)
  | frcp (x : FlongArgs)
  | frsq (x : FlongArgs)
  | fex3 (x : FlongArgs)
  | flg3 (x : FlongArgs)
  | fexe (x : FlongArgs)
  | flge (x : FlongArgs)
  | fsin (x : FlongArgs)
  | fcos (x : FlongArgs)
  | ftnh (x : FlongArgs)
  | bcvt (x : BcvtArgs)
  -- 08_control_and_lane_instructions.md
  | br (x : BranchArgs)
  | brp (x : BrpArgs)
  | b3 (x : B3Args)
  | call (x : BranchArgs)
  | calli (x : CalliArgs)
  | ret (x : RetArgs)
  | jmpi (x : JmpiArgs)
  | loop (x : LoopArgs)
  | endrun (mask : Trits 9)
  | yield (mask : Trits 9)
  | reform
  | exit (p : Pred)
  | nop
  | shfl (x : ShflArgs)
  | shfld (x : ShflArgs)
  | shflt (x : ShflArgs)
  | xperm (x : XpermArgs)
  | bcst (x : BcstArgs)
  | vote (x : VoteArgs)
  | redu (x : ReduArgs)
  | scan (x : ScanArgs)
  | rng (x : RngArgs)
  | sread (x : SreadArgs)
  | sreadPredicate (x : SreadKArgs)
  | swrite (x : SwriteArgs)
  | swritePredicate (x : SwriteKArgs)
  -- 09_matrix_unit.md
  | mload (x : MloadArgs)
  | mloadp (x : MloadpArgs)
  | mact (sa : Fin 27)
  | mpass (x : MpassArgs)
  | mzero (tile : Fin 27)
  | mrd (x : MrdArgs)
  | mwr (x : MwrArgs)
  | mstoreKeep (x : MstoreArgs)
  | mstoreZero (x : MstoreArgs)
  | mstat (x : MstatArgs)
  -- 12_memory_instructions.md
  | ld (x : MemArgs)
  | ldStrong (x : MemArgs)
  | st (x : MemArgs)
  | stStrong (x : MemArgs)
  | ldu (x : UniArgs)
  | stu (x : UniArgs)
  | atom (x : AtomArgs)
  | atomr (x : AtomArgs)
  | cas (x : AtomArgs)
  | fence (x : FenceArgs)
  | waitm (x : WaitmArgs)
  | cwb (x : LineArgs)
  | cwbAll
  | cinv (x : LineArgs)
  | cinvAll
  | pref (x : LineArgs)
  | prefLlc (x : LineArgs)
  -- 15_async_instructions.md
  | cpy (x : CopyArgs)
  | cpys (x : CopyArgs)
  | cpyf (x : CopyArgs)
  | cpyl (x : CpylArgs)
  | cpylFlush (x : CpylArgs)
  | spawn (x : SpawnArgs)
  | spawnCoresident (x : SpawnArgs)
  | bari (x : BarArgs)
  | bar (x : BarSArgs)
  | bara (x : BarArgs)
  | barw (x : BarwArgs)
  | mbrx (x : MbrxArgs)
  | mbtxReply (x : MbtxArgs)
  | mbtxBind (x : MbtxArgs)
  | mbtxUnbind (x : MbtxArgs)
  | evpost (sa : Fin 27)
  | rwalk (x : SdSa)
  | rstat (x : RstatArgs)
  -- 16_traps_and_preemption.md
  | trap (code : Trits 4)
  | resume
  | rqrd (x : RqArgs)
  | rqwr (x : RqArgs)
  | rqdrop (sa : Fin 27)
  | dfpopRead (d : Reg)
  | dfpopRetry (d : Reg)
  | dfpopSkip (d : Reg)
  | halt (timeout : Trits 4)
  | preempt (x : SdSa)
  | ctxsv (x : SdSa)
  | ctxld (x : SdSa)
  | divsetQuery (x : SdSa)
  | divsetRelease (x : SdSa)
  -- 17_compute_tables.md
  | fmtset (x : TabArgs)
  | shpset (x : ShpsetArgs)
  | xpset (x : TabArgs)
  -- 18_system_tables.md
  | ratset (x : SdSaB)
  | winset (x : SdSaB)
  | tlbinv (sa : Fin 27) (sb : Fin 27)
  | tlbinvCtx (sb : Fin 27)
  | tlbfl
  | icinv (x : LineArgs)
  | icinvAll
  -- 19_counters.md
  | cntrd (x : CntrdArgs)
  | cntclr (x : SdSa)
  | cntsel (x : SdSaB)
  -- events of the other agents
  | runStart (sl : SlotRef)
  | stalledWordIssue (sl : SlotRef)
  | memoryReadComplete (g : GroupRef) (n : Nat)
  | memoryWriteComplete (g : GroupRef) (n : Nat)
  | longFloatComplete (g : GroupRef) (n : Nat)
  | matrixReadComplete (g : GroupRef) (n : Nat)
  | mstatComplete (g : GroupRef) (n : Nat)
  | engineIssueComplete (g : GroupRef) (n : Nat)
  | reformFiling (g : GroupRef)
  | binAgeLimit (core : CoreRef) (bin : Nat)
  | monitorRecheck (g : GroupRef)
  | waitmTimeout (g : GroupRef)
  | haltWake (g : GroupRef)
  | pageWalk (wg : Nat) (addr : Int)
  | lineFill (wg : Nat) (addr : Int)
  | codedBlockFill (wg : Nat) (addr : Int)
  | l1Eviction (core : CoreRef) (ctx : Nat) (line : Int)
  | llcEviction (die : Nat) (line : LineKey)
  | windowStoreRefusal (n : Nat)
  | impreciseFaultRecord (n : Nat)
  | softError (e : SoftError)
  | matrixTurnGrant (cluster : Nat) (queue : GroupRef)
  | matrixLoadComplete (cluster : Nat)
  | matrixPassComplete (cluster : Nat)
  | mstoreComplete (cluster : Nat) (queue : GroupRef)
  | consumedEvent (cluster : Nat) (queue : GroupRef)
  | copyStart (copy : Nat)
  | copySliceFault (copy slice : Nat)
  | copySliceSteal (copy slice : Nat) (thief : Nat)
  | copyComplete (copy : Nat)
  | placement (die cluster : Nat)
  | spawnSteal (die cluster : Nat)
  | workgroupGone (wg : Nat)
  | walkerNodeStart (die : Nat)
  | kernelNodeEnqueue (walker : Nat)
  | loopIteration (walker : Nat)
  | waitNodeRead (walker : Nat)
  | nodeCompletion (walker : Nat)
  | eventRingPost (ctx : Nat)
  | ringPostRetry (ctx : Nat)
  | ringTimeThreshold (ctx : Nat)
  | consumerIndexWrite (ctx : Nat) (value : Int)
  | mailboxDoorbellWrite (box slot : Nat) (value : Int)
  | replyAreaFree (box : Nat)
  | hostRegisterWrite (bar off : Nat) (bytes : List Byte)
  | attestationRequest
  | quoteReady
  | hostBinaryWindowAccess (off : Nat) (acc : HostAccess)
  | hostRawPackedAccess (off : Nat) (acc : HostAccess)
  | xgLinkTransfer (link : Nat)
  | xgTransferComplete (link : Nat)
  | xgRetry (link : Nat)
  | ucieFlitRetry (die peer : Nat)
  | preemptMarkArrival (wg : Nat)
  | preemptDeadline (wg : Nat)
  | workgroupSave (wg : Nat)
  | preemptMarkRemoval (mark : Nat)
  | workgroupResume (wg : Nat)
  | divertedArrival (core : CoreRef)
  | licenceReview (core : CoreRef)
  | licenceRotation (core : CoreRef)
  | timeCountTick
  | powerOnBoot
  | deviceReset
  | dieFatalError (die : Nat)
  | temperatureTrip (die : Nat)
  | clockThrottle (island ninths : Nat)
  | heldWordCompletion (sl : SlotRef)
  | lastLevelCopyUpdate (n : Nat)
deriving DecidableEq, Repr

/-- A turn of the schedule: the group running on an issue slot issues its next word, or another agent takes an event,
or a slice of a running copy moves its next piece (the model's own; log 1). -/
inductive Turn where
  | word (sl : SlotRef)
  | event (i : Instr)
  | slice (copy n : Nat)
deriving DecidableEq, Repr

/-- Whether a constructor is an event of an agent other than an issue slot: it has no instruction word. -/
def Instr.isEvent (i : Instr) : Bool :=
  match i with
  | .runStart .. | .stalledWordIssue .. | .memoryReadComplete .. | .memoryWriteComplete .. | .longFloatComplete ..
  | .matrixReadComplete .. | .mstatComplete .. | .engineIssueComplete .. | .reformFiling .. | .binAgeLimit ..
  | .monitorRecheck .. | .waitmTimeout .. | .haltWake .. | .pageWalk .. | .lineFill .. | .codedBlockFill ..
  | .l1Eviction .. | .llcEviction .. | .windowStoreRefusal .. | .impreciseFaultRecord .. | .softError ..
  | .matrixTurnGrant .. | .matrixLoadComplete .. | .matrixPassComplete .. | .mstoreComplete .. | .consumedEvent ..
  | .copyStart .. | .copySliceFault .. | .copySliceSteal .. | .copyComplete .. | .placement .. | .spawnSteal ..
  | .workgroupGone .. | .walkerNodeStart .. | .kernelNodeEnqueue .. | .loopIteration .. | .waitNodeRead ..
  | .nodeCompletion .. | .eventRingPost .. | .ringPostRetry .. | .ringTimeThreshold .. | .consumerIndexWrite ..
  | .mailboxDoorbellWrite .. | .replyAreaFree .. | .hostRegisterWrite .. | .attestationRequest | .quoteReady
  | .hostBinaryWindowAccess .. | .hostRawPackedAccess .. | .xgLinkTransfer .. | .xgTransferComplete .. | .xgRetry ..
  | .ucieFlitRetry .. | .preemptMarkArrival .. | .preemptDeadline .. | .workgroupSave .. | .preemptMarkRemoval ..
  | .workgroupResume .. | .divertedArrival .. | .licenceReview .. | .licenceRotation .. | .timeCountTick
  | .powerOnBoot | .deviceReset | .dieFatalError .. | .temperatureTrip .. | .clockThrottle ..
  | .heldWordCompletion .. | .lastLevelCopyUpdate .. => true
  | _ => false

end Sys2Proof
end

