-- ==== Sys2Proof/Config.lean ====
section
/-! DEFINITION. What one implementation fixes and the spec leaves open, as opaque constants: no statement can rest on
their values. Each names the rule that leaves it open; the log entries are in notes/assumptions. -/

namespace Sys2Proof.Config

/-- R166: which of the two bracketing TF81 values a transcendental function of an operand code returns: true is the
one of larger magnitude. Repeatable, so a function of the function's opcode and the operand. -/
opaque bracketAway : Int → Int → Bool

/-- The free value of number n, as a choice among `k` of 0..k-1 (log 2). -/
opaque freeNat : Nat → Nat → Nat

/-- The free value of number n, as an integer (log 2). -/
opaque freeInt : Nat → Int

/-- The free value of number n, as a truth value (log 2). -/
opaque freeBool : Nat → Bool

/-- Which agent moves next when the agenda holds no turn: a function of the number of turns taken (log 1). -/
opaque turn : Nat → Option Turn

/-- R226: what a DRAM byte never written since power-on holds, by its key (log 3). -/
opaque powerOnByte : Nat → Byte

/-- The slice of a last-level cache that a line's storage falls in (R225: a hash that is not architectural). -/
opaque slice : Nat → Nat

/-- R226: whether a slot with a byte never written fails with cause 14 (else 15), by the key of its first byte (log 3). -/
opaque powerOnUnused : Nat → Bool

/-- R121: how far a die's reading of the time count is ahead, at most 9 (log 11). -/
opaque dieSkew : Nat → Nat

/-- R319: whether the partition record at an address keeps a core for urgent work; the record's format is not given
(log 13). -/
opaque reserved : Int → Nat → Bool

/-- R228, R441: the bytes that the firmware of a die leaves in its HBM4E at boot, by their places (log 18). -/
opaque bootBytes : Nat → List (Nat × BitVec 8)

/-- R441: whether the firmware signature of a die verifies at boot (log 18). -/
opaque bootOk : Nat → Bool

/-- R441: byte i of the SHA-256 digest of the firmware image (log 18). -/
opaque digest : Nat → Byte

/-- R413, R441: the numbers that the firmware image supplies: the world map, the errata mask and the steward's region and
kernel (log 18). -/
opaque firmware : Nat → Int

/-- R442: byte i of the signature of 128 bytes by the package's identity key: r in bytes 0..31, s in 32..63 (log 18). -/
opaque signature : List Byte → Nat → Byte

end Sys2Proof.Config
end

