-- ==== Sys2Proof/Machine/Num.lean ====
section
/-! DEFINITION. Floating values and their formats (01_values.md R16 to R31, 02_narrow_and_packed.md R33 to R41), the one
rounding rule R25, and exact integer routines: trit length, roots, quotients. -/

namespace Sys2Proof.Machine

/-! ## Exact integers -/

/-- The least k ≥ n with x ≤ 3^k, within `fuel` steps. -/
def upPow : Nat → Nat → Nat → Nat
  | 0, n, _ => n
  | fuel + 1, n, x => if x ≤ 3 ^ n then n else upPow fuel (n + 1) x

/-- The number of trits of an integer: the least n with |v| ≤ (3^n − 1)/2. The start is below log3 of 2|v| + 1, and
short of it by at most three for each 100,000 bits or part of them. -/
def tritLen (v : Int) : Nat :=
  let x := 2 * v.natAbs + 1
  upPow (4 + Nat.log2 x / 100000) (Nat.log2 x * 63092 / 100000) x

/-- The position of the leading nonzero trit, -1 for 0 (R142). -/
def leadPos (v : Int) : Int := (tritLen v : Int) - 1

/-- 3^e for an exponent that may be negative: 1 then. -/
def pow3 (e : Int) : Int := (3 : Int) ^ e.toNat

/-- Newton's iteration for the integer square root, from above. -/
def isqrtLoop : Nat → Nat → Nat → Nat
  | 0, _, x => x
  | fuel + 1, n, x =>
    let y := (x + n / x) / 2
    if y < x then isqrtLoop fuel n y else x

/-- ⌊√n⌋. -/
def isqrt (n : Nat) : Nat :=
  if n = 0 then 0 else isqrtLoop (Nat.log2 n + 2) n (2 ^ (Nat.log2 n / 2 + 1))

/-- ⌈√n⌉. -/
def csqrt (n : Nat) : Nat :=
  let s := isqrt n
  if s * s = n then s else s + 1

/-- The integer nearest to p/q, a half toward zero, for q > 0. -/
def divNearest (p q : Int) : Int :=
  if p < 0 then -((-2 * p + q - 1) / (2 * q)) else (2 * p + q - 1) / (2 * q)

/-- The positive integer nearest to √(p/q), a half toward zero, for q > 0. -/
def sqrtNearest (p q : Nat) : Nat := (csqrt ((4 * p + q - 1) / q)) / 2

/-! ## Flags -/

/-- The six flags of sr.fs (R122, Table 4). -/
structure Flags where
  invalid : Bool := false
  overflow : Bool := false
  underflow : Bool := false
  divzero : Bool := false
  saturate : Bool := false
  inexact : Bool := false
deriving DecidableEq, Repr, Inhabited

def Flags.none : Flags := {}

/-- R123: flags are only ever set by an operation. -/
def Flags.or (a b : Flags) : Flags :=
  { invalid := a.invalid || b.invalid, overflow := a.overflow || b.overflow,
    underflow := a.underflow || b.underflow, divzero := a.divzero || b.divzero,
    saturate := a.saturate || b.saturate, inexact := a.inexact || b.inexact }

/-! ## Formats -/

/-- R33: what out-of-range results and special codes do. -/
inductive Policy where
  | saturate
  | infnan
  | scale
deriving DecidableEq, Repr, Inhabited

/-- A format-table entry (R33). -/
structure Fmt where
  w : Nat
  q : Nat
  o : Int
  policy : Policy
deriving DecidableEq, Repr, Inhabited

/-- R36, Table 2. -/
def fixedFmt : Nat → Option Fmt
  | 0 => some ⟨9, 0, 0, .saturate⟩
  | 1 => some ⟨9, 3, 0, .saturate⟩
  | 2 => some ⟨3, 0, 0, .saturate⟩
  | 3 => some ⟨3, 1, 0, .saturate⟩
  | 4 => some ⟨2, 0, 0, .saturate⟩
  | 5 => some ⟨4, 0, 0, .saturate⟩
  | 6 => some ⟨27, 5, 0, .infnan⟩
  | 7 => some ⟨81, 8, 0, .infnan⟩
  | 8 => some ⟨9, 5, 0, .scale⟩
  | _ => none

def tf9 : Fmt := ⟨9, 3, 0, .saturate⟩
def tf27 : Fmt := ⟨27, 5, 0, .infnan⟩
def tf81 : Fmt := ⟨81, 8, 0, .infnan⟩
def sc9 : Fmt := ⟨9, 5, 0, .scale⟩

/-- R33: the legal combinations of a programmable entry; width 81 is entry 7's alone. -/
def Fmt.legal (f : Fmt) : Bool :=
  ((1 ≤ f.w && f.w ≤ 9) || f.w == 27) && f.q ≤ min (f.w - 1) 8 && f.o.natAbs ≤ 121 &&
  match f.policy with
  | .saturate => true
  | .infnan => f.w == 27 && 2 ≤ f.q
  | .scale => f.w == 9 && 1 ≤ f.q && f.q ≤ 6

/-- Significand trits. -/
def Fmt.n (f : Fmt) : Nat := f.w - f.q
/-- R38: the least and the largest finite exponent. -/
def Fmt.emin (f : Fmt) : Int := if f.q = 0 then f.o + f.w - 1 else f.o - maxMag f.q
def Fmt.etop (f : Fmt) : Int :=
  if f.q = 0 then f.o + f.w - 1
  else f.o + maxMag f.q - (if f.policy = .infnan then 1 else 0)

/-- The weight exponent of the lowest significand trit at the least exponent: nothing of a value below it is kept. -/
def Fmt.floorPos (f : Fmt) : Int := f.emin - (f.n - 1)

/-- A floating value: finite m·3^e exactly, an infinity, or NaN (R20, R21). -/
inductive FVal where
  | fin (m e : Int)
  | inf (neg : Bool)
  | nan
deriving DecidableEq, Repr, Inhabited

def FVal.zero : FVal := .fin 0 0

/-- The value of a code of w trits (R16, R20, R21, R34, R39). -/
def Fmt.decode (f : Fmt) (code : Int) : FVal :=
  if f.q = 0 then .fin code f.o
  else
    let sig := wrapInt f.n code
    let fe := dropInt f.n code
    if f.policy = .infnan ∧ fe = maxMag f.q then
      if sig = 3 ^ (f.n - 1) then .inf false
      else if sig = -(3 ^ (f.n - 1)) then .inf true
      else .nan
    else if f.policy = .scale ∧ sig ≠ 0 ∧ tritAt sig (f.n - 1) ≠ 1 then .nan
    else .fin sig (fe + f.o - (f.n - 1))

/-- The code of significand `sig` at exponent e. -/
def Fmt.pack (f : Fmt) (sig e : Int) : Int :=
  if f.q = 0 then sig else (e - f.o) * 3 ^ f.n + sig

/-- R22, R39: the canonical special codes. -/
def Fmt.nanCode (f : Fmt) : Int :=
  match f.policy with
  | .saturate => 0
  | .infnan => maxMag f.q * 3 ^ f.n
  | .scale => -(maxMag f.w)
def Fmt.infCode (f : Fmt) (neg : Bool) : Int :=
  maxMag f.q * 3 ^ f.n + (if neg then -1 else 1) * 3 ^ (f.n - 1)

/-- The largest finite magnitude with a sign (R26, R40). -/
def Fmt.topCode (f : Fmt) (neg : Bool) : Int :=
  f.pack ((if neg then -1 else 1) * maxMag f.n) f.etop

/-- R25, R26, R27, R40 for an exact m·3^e ≠ 0; `sticky` says that the exact value's tail goes on below m. -/
def Fmt.roundFin (f : Fmt) (m e : Int) (sticky : Bool) : Int × Flags :=
  let lead := leadPos m + e
  let ex := max lead f.emin
  if f.policy = .scale ∧ m < 0 then (f.nanCode, { invalid := true })
  else if lead > f.etop then
    match f.policy with
    | .infnan => (f.infCode (m < 0), { overflow := true, inexact := true })
    | _ => (f.topCode (m < 0), { saturate := true, inexact := true })
  else if f.policy = .scale ∧ lead < f.emin then (0, { underflow := true, inexact := true })
  else
    let c := ex - (f.n - 1)
    let drop := (c - e).toNat
    let sig := if e ≥ c then m * pow3 (e - c) else dropInt drop m
    let inexact := sticky || (decide (e < c) && wrapInt drop m != 0)
    if sig = 0 then (0, { underflow := true, inexact := inexact })
    else (f.pack sig ex,
      { inexact := inexact, underflow := inexact && ex == f.emin && tritAt sig (f.n - 1) == 0 })

/-- The code of a value in a format, with the flags it raises (R25 to R28, R38, R40). -/
def Fmt.round (f : Fmt) (v : FVal) (sticky : Bool) : Int × Flags :=
  match v with
  | .fin m e => if m = 0 then (0, {}) else f.roundFin m e sticky
  | .inf neg =>
    match f.policy with
    | .infnan => (f.infCode neg, {})
    | .saturate => (f.topCode neg, { saturate := true })
    | .scale => if neg then (f.nanCode, { invalid := true }) else (f.topCode false, { saturate := true })
  | .nan =>
    match f.policy with
    | .infnan => (f.nanCode, {})
    | _ => (f.nanCode, { invalid := true })

/-- The code of a value without its flags. -/
def Fmt.code (f : Fmt) (v : FVal) : Int := (f.round v false).1

/-! ## Exact arithmetic of values -/

/-- Two finite values over one exponent. -/
def alignFin (m1 e1 m2 e2 : Int) : Int × Int × Int :=
  let e := min e1 e2
  (m1 * pow3 (e1 - e), m2 * pow3 (e2 - e), e)

def FVal.neg : FVal → FVal
  | .fin m e => .fin (-m) e
  | .inf n => .inf (!n)
  | .nan => .nan

def FVal.isNan : FVal → Bool
  | .nan => true
  | _ => false

def FVal.isZero : FVal → Bool
  | .fin m _ => m == 0
  | _ => false

def FVal.isNeg : FVal → Bool
  | .fin m _ => decide (m < 0)
  | .inf n => n
  | .nan => false

/-- The exact sum, and whether it is invalid (R155). -/
def FVal.add (a b : FVal) : FVal × Bool :=
  match a, b with
  | .nan, _ => (.nan, false)
  | _, .nan => (.nan, false)
  | .inf x, .inf y => if x = y then (.inf x, false) else (.nan, true)
  | .inf x, .fin _ _ => (.inf x, false)
  | .fin _ _, .inf y => (.inf y, false)
  | .fin m1 e1, .fin m2 e2 =>
    if m1 = 0 then (.fin m2 e2, false) else if m2 = 0 then (.fin m1 e1, false) else
    let (x, y, e) := alignFin m1 e1 m2 e2
    (.fin (x + y) e, false)

/-- The exact product, and whether it is invalid (0 × Inf). -/
def FVal.mul (a b : FVal) : FVal × Bool :=
  match a, b with
  | .nan, _ => (.nan, false)
  | _, .nan => (.nan, false)
  | .inf x, .inf y => (.inf (x != y), false)
  | .inf x, .fin m _ => if m = 0 then (.nan, true) else (.inf (x != decide (m < 0)), false)
  | .fin m _, .inf y => if m = 0 then (.nan, true) else (.inf (decide (m < 0) != y), false)
  | .fin m1 e1, .fin m2 e2 => (.fin (m1 * m2) (e1 + e2), false)

/-- R157, R159: the sign of a − b for values that are not NaN, infinities at the ends of the order. -/
def FVal.cmp (a b : FVal) : Int :=
  match a, b with
  | .inf x, .inf y => if x = y then 0 else if x then -1 else 1
  | .inf x, _ => if x then -1 else 1
  | _, .inf y => if y then 1 else -1
  | .fin m1 e1, .fin m2 e2 =>
    -- a position test first, so that no great power is formed for far exponents
    let (x, y, _) := alignFin m1 e1 m2 e2
    (x - y).sign
  | _, _ => 0

/-- R157: the smaller or the larger of two values; a NaN gives NaN. -/
def FVal.minmax (big : Bool) (a b : FVal) : FVal :=
  if a.isNan || b.isNan then .nan
  else
    let c := a.cmp b
    if big then (if c < 0 then b else a) else (if c ≤ 0 then a else b)

/-- The integral value of m·3^e by a rounding mode (R161, R163). -/
def integral (mode : RoundMode) (m e : Int) : Int :=
  if e ≥ 0 then m * pow3 e
  else
    let k := (-e).toNat
    match mode with
    | .nearest => dropInt k m
    | .floor => m / (3 ^ k : Nat)
    | .ceil => -((-m) / (3 ^ k : Nat))
    | .zero => if m < 0 then -((-m) / (3 ^ k : Nat)) else m / (3 ^ k : Nat)

/-! ## Binary bit patterns (R30, R31) -/

/-- A binary interchange format: exponent bits and fraction bits. -/
structure BinKind where
  eb : Nat
  fb : Nat
deriving DecidableEq, Repr

def bf16K : BinKind := ⟨8, 7⟩
def fp32K : BinKind := ⟨8, 23⟩
def fp64K : BinKind := ⟨11, 52⟩
def BinKind.bits (k : BinKind) : Nat := 1 + k.eb + k.fb
def BinKind.bias (k : BinKind) : Int := 2 ^ (k.eb - 1) - 1

/-- A binary value: sign and p·2^x, an infinity, or NaN. -/
inductive BVal where
  | fin (p : Int) (x : Int)
  | inf (neg : Bool)
  | nan
deriving DecidableEq, Repr

/-- The value of a bit pattern. -/
def BinKind.decode (k : BinKind) (pat : Nat) : BVal :=
  let frac := pat % 2 ^ k.fb
  let ex := pat / 2 ^ k.fb % 2 ^ k.eb
  let neg := pat / 2 ^ (k.fb + k.eb) % 2 == 1
  let sg : Int := if neg then -1 else 1
  if ex = 2 ^ k.eb - 1 then (if frac = 0 then .inf neg else .nan)
  else if ex = 0 then .fin (sg * frac) (1 - k.bias - k.fb)
  else .fin (sg * (2 ^ k.fb + frac)) ((ex : Int) - k.bias - k.fb)

/-- R25 of a rational p/q: X is cut at the lowest weight the format can keep, ties toward zero, and the rest of the
rounding truncates further (R29). -/
def Fmt.roundRat (f : Fmt) (p q : Int) : Int × Flags :=
  if p = 0 then (0, {}) else
  let k := f.floorPos
  let (p', q') := if k < 0 then (p * pow3 (-k), q) else (p, q * pow3 k)
  let m := divNearest p' q'
  if m = 0 then
    (match f.policy with
      | .scale => if p < 0 then (f.nanCode, { invalid := true }) else (0, { underflow := true, inexact := true })
      | _ => (0, { underflow := true, inexact := true }))
  else f.roundFin m k (decide (p' ≠ m * q'))

/-- R30: a binary value by R25 into a ternary format. -/
def Fmt.roundBin (f : Fmt) (b : BVal) : Int × Flags :=
  match b with
  | .nan => f.round .nan false
  | .inf n => f.round (.inf n) false
  | .fin p x => if x ≥ 0 then f.round (.fin (p * 2 ^ x.toNat) 0) false else f.roundRat p (2 ^ (-x).toNat)

/-- The position of the leading bit of p/q > 0, for p, q > 0: the x with 2^x ≤ p/q < 2^(x+1). -/
def log2Rat (p q : Nat) : Int :=
  let d : Int := (Nat.log2 p : Int) - Nat.log2 q
  -- d − 1 ≤ log2 (p/q) < d + 1
  let ge : Bool := if d ≥ 0 then decide (q * 2 ^ d.toNat ≤ p) else decide (q ≤ p * 2 ^ (-d).toNat)
  if ge then d else d - 1

/-- The integer nearest to p/q, ties to even, for q > 0. -/
def divEven (p q : Nat) : Nat :=
  let a := p / q
  let r := p % q
  if 2 * r < q then a else if 2 * r > q then a + 1 else if a % 2 = 0 then a else a + 1

/-- R31: the bit pattern of a ternary value rounded to nearest even, whether it differs from the value, whether the
binary value is subnormal or zero, and whether its rounded magnitude exceeds the maximum (the pattern is then that
of the infinity). -/
def BinKind.round (k : BinKind) (v : FVal) : Nat × Bool × Bool × Bool :=
  let signBit (neg : Bool) : Nat := if neg then 2 ^ (k.eb + k.fb) else 0
  let infPat (neg : Bool) : Nat := signBit neg + (2 ^ k.eb - 1) * 2 ^ k.fb
  match v with
  | .nan => ((2 ^ k.eb - 1) * 2 ^ k.fb + 2 ^ (k.fb - 1), false, false, false)
  | .inf n => (infPat n, false, false, false)
  | .fin m e =>
    if m = 0 then (0, false, true, false)
    else
      let neg := decide (m < 0)
      let p := if e ≥ 0 then m.natAbs * 3 ^ e.toNat else m.natAbs
      let q := if e ≥ 0 then 1 else 3 ^ (-e).toNat
      let x := max (log2Rat p q) (1 - k.bias)
      -- the significand in units of 2^(x − fb)
      let u := x - k.fb
      let p' := if u ≥ 0 then p else p * 2 ^ (-u).toNat
      let q' := if u ≥ 0 then q * 2 ^ u.toNat else q
      let s := divEven p' q'
      let inexact := decide (s * q' ≠ p')
      -- biased exponent and fraction: a carry out of the significand goes up by itself
      let pat := if s < 2 ^ k.fb then s else (x + k.bias - 1).toNat * 2 ^ k.fb + s
      if pat ≥ (2 ^ k.eb - 1) * 2 ^ k.fb then (infPat neg, true, false, true)
      else (signBit neg + pat, inexact, decide (pat < 2 ^ k.fb), false)

end Sys2Proof.Machine
end

