-- ==== Sys2Proof/Machine/Func.lean ====
section
/-! DEFINITION. Division, roots and the functions of 07_float_instructions.md (R166, R167): exact rational cases by R25,
the others by interval arithmetic on integers at a scale 3^k, refined until the rounding is decided. -/

namespace Sys2Proof.Machine

/-! ## Fixed-point approximations -/

/-- v / 3^k within err / 3^k; k is kept beside it. -/
structure Fx where
  v : Int
  err : Nat
deriving DecidableEq, Repr

/-- m·3^e at scale 3^k. -/
def fxOf (k : Nat) (m e : Int) : Fx :=
  let p := e + k
  if p ≥ 0 then ⟨m * pow3 p, 0⟩ else ⟨Int.tdiv m (pow3 (-p)), 1⟩

def Fx.mul (k : Nat) (a b : Fx) : Fx :=
  ⟨Int.tdiv (a.v * b.v) (3 ^ k),
    1 + (a.err * (b.v.natAbs + b.err) + b.err * (a.v.natAbs + a.err)) / 3 ^ k + 1⟩

/-- a / b for b bounded away from 0 by its error. -/
def Fx.div (k : Nat) (a b : Fx) : Fx :=
  let q := Int.tdiv (a.v * 3 ^ k) b.v
  ⟨q, 2 + (a.err * 3 ^ k + (q.natAbs + 1) * b.err) / (b.v.natAbs - b.err)⟩

/-- Terms r^i / i! from term i on; answers the sum and the number of terms. -/
def expLoop (r s : Int) : Nat → Nat → Int → Int → Nat → Int × Nat
  | 0, _, _, acc, n => (acc, n)
  | fuel + 1, i, t, acc, n =>
    let t' := Int.tdiv (t * r) (s * i)
    if t' = 0 then (acc, n + 1) else expLoop r s fuel (i + 1) t' (acc + t') (n + 1)

/-- e^r for |r| ≤ 1. -/
def fxExp (k : Nat) (r : Fx) : Fx :=
  let s : Int := 3 ^ k
  let (v, n) := expLoop r.v s (2 * k + 40) 1 s s 0
  ⟨v, 2 * n + 8 + 3 * r.err⟩

/-- Terms of sine (from i = 2) or cosine (from i = 1): each divides by i·(i + 1). -/
def trigLoop (r s : Int) : Nat → Nat → Int → Int → Nat → Int × Nat
  | 0, _, _, acc, n => (acc, n)
  | fuel + 1, i, t, acc, n =>
    let t' := -(Int.tdiv (t * r * r) (s * s * (i * (i + 1))))
    if t' = 0 then (acc, n + 1) else trigLoop r s fuel (i + 2) t' (acc + t') (n + 1)

def fxSin (k : Nat) (r : Fx) : Fx :=
  let (v, n) := trigLoop r.v (3 ^ k) (2 * k + 40) 2 r.v r.v 0
  ⟨v, 3 * n + 8 + 2 * r.err⟩

def fxCos (k : Nat) (r : Fx) : Fx :=
  let s : Int := 3 ^ k
  let (v, n) := trigLoop r.v s (2 * k + 40) 1 s s 0
  ⟨v, 3 * n + 8 + 2 * r.err⟩

/-- Odd-power series Σ ±(p/q)^(2i+1)/(2i+1): `sg` 1 is atanh, -1 is atan; |p/q| ≤ 1/2. -/
def oddLoop (sg p2 q2 : Int) : Nat → Nat → Int → Int → Nat → Int × Nat
  | 0, _, _, acc, n => (acc, n)
  | fuel + 1, i, t, acc, n =>
    if t = 0 then (acc, n) else
    oddLoop sg p2 q2 fuel (i + 2) (sg * Int.tdiv (t * p2) q2) (acc + Int.tdiv t i) (n + 1)

def fxOdd (k : Nat) (sg p q : Int) : Fx :=
  let t := Int.tdiv (p * 3 ^ k) q
  let (v, n) := oddLoop sg (p * p) (q * q) (2 * k + 40) 1 t 0 0
  ⟨v, 3 * n + 5⟩

/-- ln 3 = 2 atanh (1/2). -/
def fxLn3 (k : Nat) : Fx :=
  let a := fxOdd k 1 1 2
  ⟨2 * a.v, 2 * a.err⟩

/-- π/2 = 8 atan (1/5) − 2 atan (1/239). -/
def fxHalfPi (k : Nat) : Fx :=
  let a := fxOdd k (-1) 1 5
  let b := fxOdd k (-1) 1 239
  ⟨8 * a.v - 2 * b.v, 8 * a.err + 2 * b.err⟩

/-- ln of m·3^e > 0 less its power of three: 2 atanh ((a − 1)/(a + 1)), a = m/3^lead in (1/2, 3/2). -/
def fxLnMant (k : Nat) (m : Int) : Fx :=
  let s := pow3 (leadPos m)
  let a := fxOdd k 1 (m - s) (m + s)
  ⟨2 * a.v, 2 * a.err⟩

/-! ## From an interval to a code -/

/-- An enclosure of a function's value: v·3^x within err·3^x. -/
structure Enc where
  v : Int
  err : Nat
  x : Int
deriving DecidableEq, Repr

/-- The next code of larger magnitude in a format with significand and exponent field, as significand and position. -/
def succMag (n : Nat) (sig c : Int) : Int × Int :=
  let sg : Int := if sig < 0 then -1 else 1
  if sig.natAbs = maxMag n then (sg * ((3 ^ (n - 1) + 1) / 2), c + 1) else (sig + sg, c)

def predMag (n : Nat) (cmin sig c : Int) : Int × Int :=
  let sg : Int := if sig < 0 then -1 else 1
  if 2 * sig.natAbs = 3 ^ (n - 1) + 1 ∧ c > cmin then (sg * maxMag n, c - 1) else (sig - sg, c)

/-- R166: one of the two TF81 values that bracket a value whose nearest is `near`. `beyond` says that the value lies
farther from 0 than `near`. -/
def bracket (f : Fmt) (op code near : Int) (neg beyond : Bool) : Int × Flags :=
  let sg : Int := if neg then -1 else 1
  let away := Config.bracketAway op code
  let pick : Int × Int := match f.decode near with
    | .fin 0 _ => if away then (sg, f.floorPos) else (0, 0)
    | .fin s c =>
      if beyond then (if away then succMag f.n s c else (s, c))
      else (if away then (s, c) else predMag f.n f.floorPos s c)
    | _ => (0, 0)
  if pick.1 = 0 then (0, { underflow := true, inexact := true })
  else
    let (code', fl) := f.roundFin pick.1 pick.2 true
    -- the largest finite value has no finite value above it, and R26 decides overflow by L alone
    if fl.overflow then (near, { inexact := true }) else (code', fl)

/-- The rounding an enclosure decides, or nothing. TF81 takes a bracketing value, the others R25. -/
def Enc.decide? (f : Fmt) (op code : Int) (z : Enc) : Option (Int × Flags) :=
  let lo := z.v - z.err
  let hi := z.v + z.err
  if (lo < 0 ∧ hi > 0) ∨ lo = 0 ∨ hi = 0 then none
  else
    let a := f.roundFin lo z.x true
    let b := f.roundFin hi z.x true
    if a ≠ b then none
    else if f ≠ tf81 then some a
    else match f.decode a.1 with
      | .fin s c =>
        let neg := decide (hi < 0)
        let cmpA := FVal.cmp (.fin lo z.x) (.fin s c)
        let cmpB := FVal.cmp (.fin hi z.x) (.fin s c)
        if cmpA ≥ 0 ∧ cmpB ≥ 0 then some (bracket f op code a.1 neg (!neg))
        else if cmpA ≤ 0 ∧ cmpB ≤ 0 then some (bracket f op code a.1 neg neg)
        else none
      | _ => some a

/-- Refines an enclosure until it decides; none where the precision that the fuel allows does not (log 9). -/
def refine (f : Fmt) (op code : Int) (g : Nat → Enc) : Nat → Nat → Option (Int × Flags)
  | 0, _ => none
  | fuel + 1, k =>
    match (g k).decide? f op code with
    | some r => some r
    | none => refine f op code g fuel (2 * k)

def transc (f : Fmt) (op code : Int) (g : Nat → Enc) (fuel : Nat) : Option (Int × Flags) := refine f op code g fuel (f.n + 20)

/-! ## The functions (R166, R167): none where the fuel does not decide the rounding -/

/-- e^(m·3^e) for a position of the leading trit below 10. -/
def encExp (m e : Int) (k : Nat) : Enc :=
  let x := fxOf k m e
  let l := fxLn3 k
  let n := divNearest x.v l.v
  let r : Fx := ⟨x.v - n * l.v, x.err + n.natAbs * l.err⟩
  let y := fxExp k r
  ⟨y.v, y.err, n - k⟩

/-- 3^(m·3^e), likewise. -/
def encExp3 (m e : Int) (k : Nat) : Enc :=
  let n := integral .nearest m e
  let x := fxOf k m e
  let fr : Fx := ⟨x.v - n * 3 ^ k, x.err⟩
  let y := fxExp k (Fx.mul k fr (fxLn3 k))
  ⟨y.v, y.err, n - k⟩

/-- A result too large or too small for every format of the device: R26 or an underflow to 0. -/
def hugeExp (f : Fmt) (op code : Int) (neg : Bool) : Int × Flags :=
  if neg then
    (if f = tf81 then bracket f op code 0 false true else (0, { underflow := true, inexact := true }))
  else f.roundFin 1 (f.etop + 1) true

def fnExp (f : Fmt) (op code : Int) (base3 : Bool) (v : FVal) (fuel : Nat) : Option (Int × Flags) :=
  match v with
  | .nan => some (f.round .nan false)
  | .inf neg => some (if neg then (0, {}) else f.round (.inf false) false)
  | .fin m e =>
    if m = 0 then some (f.round (.fin 1 0) false)
    else if leadPos m + e ≥ 10 then some (hugeExp f op code (m < 0))
    else if base3 && (e ≥ 0 || wrapInt (-e).toNat m == 0) then some (f.round (.fin 1 (integral .nearest m e)) false)
    else transc f op code (if base3 then encExp3 m e else encExp m e) fuel

/-- Logarithms: base 3 or e. -/
def encLog (m e : Int) (base3 : Bool) (k : Nat) : Enc :=
  let lead := leadPos m + e
  let l := fxLnMant k m
  let l3 := fxLn3 k
  if base3 then
    let d := Fx.div k l l3
    ⟨lead * 3 ^ k + d.v, d.err, -k⟩
  else ⟨lead * l3.v + l.v, lead.natAbs * l3.err + l.err, -k⟩

def fnLog (f : Fmt) (op code : Int) (base3 : Bool) (v : FVal) (fuel : Nat) : Option (Int × Flags) :=
  match v with
  | .nan => some (f.round .nan false)
  | .inf neg => some (if neg then (f.nanCode, { invalid := true }) else f.round (.inf false) false)
  | .fin m e =>
    if m = 0 then some (f.round (.inf true) false)
    else if m < 0 then some (f.nanCode, { invalid := true })
    else if m = pow3 (leadPos m) ∧ (base3 ∨ leadPos m + e = 0) then some (f.round (.fin (leadPos m + e) 0) false)
    else transc f op code (encLog m e base3) fuel

/-- sin (quarter 0) or cos (quarter 1) of m·3^e, the argument reduced exactly by π/2. -/
def encTrig (m e : Int) (quarter : Int) (k : Nat) : Enc :=
  let k2 := k + (leadPos m + e).toNat + 6
  let x := fxOf k2 m e
  let h := fxHalfPi k2
  let n := divNearest x.v h.v
  let r : Fx := ⟨x.v - n * h.v, x.err + n.natAbs * h.err⟩
  let j := (n + quarter) % 4
  let y := if j % 2 = 0 then fxSin k2 r else fxCos k2 r
  ⟨if j ≥ 2 then -y.v else y.v, y.err, -k2⟩

def fnTrig (f : Fmt) (op code : Int) (cos : Bool) (v : FVal) (fuel : Nat) : Option (Int × Flags) :=
  match v with
  | .nan => some (f.round .nan false)
  | .inf _ => some (f.nanCode, { invalid := true })
  | .fin m e =>
    if m = 0 then some (f.round (.fin (if cos then 1 else 0) 0) false)
    else transc f op code (encTrig m e (if cos then 1 else 0)) fuel

/-- tanh of m·3^e with position below 10: (1 − E)/(1 + E) with E = e^(−2|x|). -/
def encTanh (m e : Int) (k : Nat) : Enc :=
  let z := encExp (-2 * m.natAbs) e k
  let s := (-(z.x + k)).toNat
  let y : Fx := ⟨Int.tdiv z.v (3 ^ s), z.err / 3 ^ s + 2⟩
  let d := Fx.div k ⟨3 ^ k - y.v, y.err⟩ ⟨3 ^ k + y.v, y.err⟩
  ⟨if m < 0 then -d.v else d.v, d.err, -k⟩

def fnTanh (f : Fmt) (op code : Int) (v : FVal) (fuel : Nat) : Option (Int × Flags) :=
  match v with
  | .nan => some (f.round .nan false)
  | .inf neg => some (f.round (.fin (if neg then -1 else 1) 0) false)
  | .fin m e =>
    if m = 0 then some (0, {})
    else if leadPos m + e ≥ 10 then
      let one := f.code (.fin (if m < 0 then -1 else 1) 0)
      some (if f = tf81 then bracket f op code one (m < 0) false else (one, { inexact := true }))
    else transc f op code (encTanh m e) fuel

/-- √A. -/
def fnSqrt (f : Fmt) (v : FVal) : Int × Flags :=
  match v with
  | .nan => f.round .nan false
  | .inf neg => if neg then (f.nanCode, { invalid := true }) else f.round (.inf false) false
  | .fin m e =>
    if m = 0 then (0, {})
    else if m < 0 then (f.nanCode, { invalid := true })
    else
      let k := f.floorPos
      let s := e - 2 * k
      let p := if s ≥ 0 then m.natAbs * 3 ^ s.toNat else m.natAbs
      let q := if s ≥ 0 then 1 else 3 ^ (-s).toNat
      let r := sqrtNearest p q
      if r = 0 then (0, { underflow := true, inexact := true })
      else f.roundFin r k (decide (r * r * q ≠ p))

/-- 1/√A. -/
def fnRsqrt (f : Fmt) (v : FVal) : Int × Flags :=
  match v with
  | .nan => f.round .nan false
  | .inf neg => if neg then (f.nanCode, { invalid := true }) else (0, {})
  | .fin m e =>
    if m = 0 then f.round (.inf false) false
    else if m < 0 then (f.nanCode, { invalid := true })
    else
      let k := f.floorPos
      let s := -(e + 2 * k)
      let p := if s ≥ 0 then 3 ^ s.toNat else 1
      let q := if s ≥ 0 then m.natAbs else m.natAbs * 3 ^ (-s).toNat
      let r := sqrtNearest p q
      if r = 0 then (0, { underflow := true, inexact := true })
      else f.roundFin r k (decide (r * r * q ≠ p))

/-- A/B (R167): `recip` is FRCP, whose 1/0 is +Inf for every zero. -/
def fnDiv (f : Fmt) (a b : FVal) : Int × Flags :=
  match a, b with
  | .nan, _ => f.round .nan false
  | _, .nan => f.round .nan false
  | .inf _, .inf _ => (f.nanCode, { invalid := true })
  | .inf x, .fin m _ =>
    -- a zero carries no sign: Inf/0 keeps the sign of the Inf
    f.round (.inf (x != decide (m < 0))) false
  | .fin _ _, .inf _ => (0, {})
  | .fin m1 e1, .fin m2 e2 =>
    if m2 = 0 then
      if m1 = 0 then (f.nanCode, { invalid := true })
      else
        let (c, fl) := f.round (.inf (m1 < 0)) false
        (c, { fl with divzero := true })
    else
      let sg : Int := if m2 < 0 then -1 else 1
      let e := e1 - e2
      if e ≥ 0 then f.roundRat (sg * m1 * pow3 e) m2.natAbs
      else f.roundRat (sg * m1) (m2.natAbs * pow3 (-e))

end Sys2Proof.Machine
end

