-- ==== Sys2Proof/WellFormed.lean ====
section
/-! DEFINITION. The static checks of step 4 of R100 that the shape of an `Instr` does not already make: accepted
types (R91), accepted b modes (R87), the reach of the h map (R89), TF81 register numbers (R19, R168) and register
spans. Allocation, LIT, privilege and mode are checked when the word issues. -/

namespace Sys2Proof

/-- A named run temporary. -/
def Reg.isH : Reg → Bool
  | .g _ => false
  | .h _ => true

def Src.isH : Src → Bool
  | .h _ => true
  | _ => false

def Src.isS : Src → Bool
  | .s _ => true
  | _ => false

/-- R19: a TF81 triple starts at a register number that is a multiple of 3. -/
def Reg.tripleOk : Reg → Bool
  | .g n => n.val % 3 == 0
  | .h _ => false

/-- R153: an .f81 form accepts no s register, and a g source is a triple. -/
def Src.tripleOk : Src → Bool
  | .g n => n.val % 3 == 0
  | .h _ => false
  | .s _ => false
  | .imm _ => true

/-- R89: t22 governs one source, so a and b cannot both name run temporaries. -/
def oneH (a : Reg) (b : Src) : Bool := !(a.isH && b.isH)

/-- The g and s spans of R86, inside the widest allocation. -/
def spanG (n : Fin 81) (len : Nat) : Bool := n.val + len ≤ 81
def spanS (n : Fin 27) (len : Nat) : Bool := n.val + len ≤ 27

def Ty.isWT (t : Ty) : Bool := t == .w || t == .t
def Ty.isF (t : Ty) : Bool := t == .f9 || t == .f27 || t == .f81

/-- The integer forms of three registers (06_integer_instructions.md, Table 1). -/
def Op3.okInt (x : Op3) : Bool := x.ty.isWT && oneH x.a x.b
def Op2.okInt (x : Op2) : Bool := x.ty.isWT
def Op0.ok (x : Op0) : Bool := oneH x.a x.b
def CmpArgs.okInt (x : CmpArgs) : Bool := x.ty.isWT && oneH x.a x.b

/-- The float forms of three registers (07_float_instructions.md, Table 1; R153). -/
def Op3.okFloat (x : Op3) : Bool :=
  x.ty.isF && oneH x.a x.b && (x.ty != .f81 || (x.d.tripleOk && x.a.tripleOk && x.b.tripleOk))
def Op2.okFloat (x : Op2) : Bool := x.ty.isF && (x.ty != .f81 || (x.d.tripleOk && x.a.tripleOk))
def CmpArgs.okFloat (x : CmpArgs) : Bool :=
  x.ty.isF && oneH x.a x.b && (x.ty != .f81 || (x.a.tripleOk && x.b.tripleOk))
def FlongArgs.ok (x : FlongArgs) : Bool := x.ty.isF && (x.ty != .f81 || (x.d.val % 3 == 0 && x.a.val % 3 == 0))
def FdivArgs.ok (x : FdivArgs) : Bool :=
  x.ty.isF && !x.b.isH && (x.ty != .f81 || (x.d.val % 3 == 0 && x.a.val % 3 == 0 && x.b.tripleOk))

def MovArgs.ok (x : MovArgs) : Bool := x.ty != .f81 || (x.d.tripleOk && x.b.tripleOk)
def MoviArgs.ok (x : MoviArgs) : Bool := x.ty.isWT
def LeaArgs.ok (x : LeaArgs) : Bool := oneH x.a x.b
def CvtwArgs.ok (x : CvtwArgs) : Bool := oneH x.a x.b

/-- R145: copy and neg leave a unused. -/
def PsetArgs.ok (x : PsetArgs) : Bool :=
  match x.fn with
  | .copy => x.ka.isNone
  | .neg => x.ka.isNone
  | _ => x.ka.isSome

/-- R149, R89: TIDX writes d..d+4 and takes no run temporary. -/
def IdxArgs.okTidx (x : IdxArgs) : Bool := spanG x.d 5 && !x.b.isH
/-- R150, R89: TJOIN reads a..a+4 and takes no run temporary. -/
def IdxArgs.okTjoin (x : IdxArgs) : Bool := spanG x.a 5 && !x.b.isH

/-- A g register of a word that the h map does not reach, on a triple when `tri`, inside a span of `len`. -/
def Reg.plainSpan (r : Reg) (tri : Bool) (len : Nat) : Bool :=
  match r with
  | .g n => (!tri || n.val % 3 == 0) && spanG n len
  | .h _ => false

/-- R162, Table 5: the registers FCVT names. -/
def FcvtArgs.ok (x : FcvtArgs) : Bool :=
  match x.src, x.ty with
  | .f9, .f9 => true
  | .f27, .f27 => true
  | .f81, .f81 => x.d.tripleOk && x.a.tripleOk
  | .f9, .f27 => x.d.plainSpan false 3 && !x.a.isH
  | .f27, .f9 => x.a.plainSpan false 3 && !x.d.isH
  | .f9, .f81 => x.d.plainSpan true 9 && !x.a.isH
  | .f81, .f9 => x.a.plainSpan true 9 && !x.d.isH
  | .f27, .f81 => x.d.plainSpan true 3 && !x.a.isH
  | .f81, .f27 => x.a.plainSpan true 3 && !x.d.isH
  | _, _ => false

def FtoiArgs.ok (x : FtoiArgs) : Bool := x.ty.isF && (x.ty != .f81 || (x.d.tripleOk && x.a.tripleOk))
/-- R168: fp64 names triples, and takes no run temporary. -/
def BcvtArgs.ok (x : BcvtArgs) : Bool := x.fmt != .fp64 || (x.d.tripleOk && x.a.tripleOk)

def ShflArgs.ok (x : ShflArgs) : Bool := oneH x.a x.b
def BcstArgs.ok (x : BcstArgs) : Bool :=
  x.ty == .w || (x.ty == .f81 && x.d.tripleOk && x.a.tripleOk)
def ReduArgs.ok (x : ReduArgs) : Bool := x.ty != .f81 || (x.d.tripleOk && x.a.tripleOk)
def ScanArgs.ok (x : ScanArgs) : Bool := x.ty != .f81 || (x.d.tripleOk && x.a.tripleOk)

/-- R267: the private space has no strong form. -/
def AccForm.okSpace (f : AccForm) (s : Space) : Bool :=
  match f with
  | .weak _ => true
  | .strong _ => s != .priv

/-- R268: the qualifiers a load accepts, and those a store accepts. -/
def Qual.okLoad (q : Qual) : Bool := q.order != .neg && (!q.remote || q.order == .pos)
def Qual.okStore (q : Qual) : Bool := q.order != .pos && !q.remote
def AccForm.okLoad (f : AccForm) : Bool :=
  match f with
  | .weak _ => true
  | .strong q => q.okLoad
def AccForm.okStore (f : AccForm) : Bool :=
  match f with
  | .weak _ => true
  | .strong q => q.okStore
def AccForm.isStrong : AccForm → Bool
  | .weak _ => false
  | .strong _ => true

def MemArgs.ok (x : MemArgs) (strong load : Bool) : Bool :=
  x.form.isStrong == strong && x.form.okSpace x.space && (if load then x.form.okLoad else x.form.okStore) &&
    (x.wd != .f81 || x.d.val % 3 == 0)
def UniArgs.ok (x : UniArgs) (load : Bool) : Bool :=
  x.form.okSpace x.space && (if load then x.form.okLoad else x.form.okStore) && x.wd != .f81
/-- R269: atomics do not reach the private space. -/
def AtomArgs.ok (x : AtomArgs) : Bool := x.space != .priv
/-- R269, R279: CAS has operation 0 and reads g(d + 1). -/
def AtomArgs.okCas (x : AtomArgs) : Bool := x.space != .priv && x.op == .add && spanG x.d 2
/-- R282. -/
def WaitmArgs.ok (x : WaitmArgs) : Bool := x.space != .priv
def LineArgs.ok (x : LineArgs) : Bool := oneH x.a x.b
/-- R339: a barrier object's space is not the private space. -/
def BarArgs.okBari (x : BarArgs) : Bool := x.space != .priv && spanS x.sd 3
def BarArgs.okBara (x : BarArgs) : Bool := x.space != .priv
def BarSArgs.ok (x : BarSArgs) : Bool := x.space != .priv
def BarwArgs.ok (x : BarwArgs) : Bool := x.space != .priv

/-- A selector immediate inside 0..top, or an s register (R446). -/
def SImm.inRange (b : SImm) (top : Int) : Bool :=
  match b with
  | .s _ => true
  | .imm v => decide (0 ≤ v.val) && decide (v.val ≤ top)

/-- A selector immediate that meets a test, or a register (R446). -/
def Src.immIn (b : Src) (p : Int → Bool) : Bool :=
  match b with
  | .imm v => p v.val
  | _ => true

def TabArgs.ok (x : TabArgs) : Bool := oneH x.a x.b
/-- R391, R89: SHPSET reads a..a+5 and takes no run temporary. -/
def ShpsetArgs.ok (x : ShpsetArgs) : Bool := spanG x.a 6 && !x.b.isH

/-- R99: no trit of a mask is −. -/
def maskOk (m : Trits 9) : Bool := (List.range 9).all fun i => m.trit i != -1

def Pred.isSome : Pred → Bool
  | .always => false
  | _ => true

/-- Step 4 of R100, but for what depends on the thread's allocation and on a LIT before the word. -/
def Instr.wellFormed (i : Instr) : Bool :=
  match i with
  | .lit _ => true
  | .mov x => x.ok
  | .movi x => x.ok
  | .lea x => x.ok
  | .add x | .sub x | .adds x | .subs x => x.okInt
  | .neg x | .abs x | .sgn x | .lead x => x.okInt
  | .mul x | .mulh x | .mad x | .divn x | .divz x | .divf x | .remn x | .remz x | .remf x => x.okInt
  | .min x | .max x | .clamp x | .tmin x | .tmax x | .tsum3 x | .tprd x | .tcns x => x.okInt
  | .shl x | .shr x | .rot x | .cnt x => x.okInt
  | .ext x | .ins x | .pack3 x | .unpk3 x | .splat x | .fdot x => x.ok
  | .cmp x | .tst x => x.okInt
  | .sel3 x => x.okInt && x.p.isSome
  | .pset x => x.ok
  | .cvtw x => x.ok
  | .tidx x => x.okTidx
  | .tjoin x => x.okTjoin
  | .fadd x | .fsub x | .fmul x | .fma x | .fmin x | .fmax x | .fscl x | .itof x => x.okFloat
  | .fabs x | .fneg x | .fcls x | .fexn x | .ftrn x | .fflr x | .fcel x => x.okFloat
  | .fcmp x => x.okFloat
  | .fcvt x => x.ok
  | .ftoi x => x.ok
  | .fdiv x => x.ok
  | .fsqt x | .frcp x | .frsq x | .fex3 x | .flg3 x | .fexe x | .flge x | .fsin x | .fcos x | .ftnh x => x.ok
  | .bcvt x => x.ok
  | .br _ | .call _ => true
  | .brp x => x.p.isSome
  | .b3 x => x.p.isSome
  | .calli x => oneH x.a x.b
  | .jmpi x => oneH x.a x.b
  | .ret _ | .loop _ | .reform | .exit _ | .nop => true
  | .endrun m | .yield m => maskOk m
  | .shfl x | .shfld x | .shflt x => x.ok
  | .xperm _ => true
  | .bcst x => x.ok
  | .vote _ => true
  | .redu x => x.ok
  | .scan x => x.ok
  | .rng _ | .sread _ | .sreadPredicate _ | .swrite _ | .swritePredicate _ => true
  | .mload _ | .mloadp _ | .mact _ | .mpass _ | .mzero _ | .mrd _ | .mwr _ | .mstat _ => true
  | .mstoreKeep x | .mstoreZero x => x.fmt.val != 7 && x.fmt.val != 8
  | .ld x => x.ok false true
  | .ldStrong x => x.ok true true
  | .st x => x.ok false false
  | .stStrong x => x.ok true false
  | .ldu x => x.ok true
  | .stu x => x.ok false
  | .atom x | .atomr x => x.ok
  | .cas x => x.okCas
  | .fence _ => true
  | .waitm x => x.ok
  | .cwb x | .cinv x | .pref x | .prefLlc x | .icinv x => x.ok
  | .cwbAll | .cinvAll | .icinvAll => true
  | .cpy _ | .cpys _ | .cpyf _ | .cpyl _ | .cpylFlush _ | .spawn _ | .spawnCoresident _ => true
  | .bari x => x.okBari
  | .bar x => x.ok
  | .bara x => x.okBara
  | .barw x => x.ok
  | .mbrx x => x.b.inRange 26
  | .mbtxReply x | .mbtxBind x | .mbtxUnbind x => x.b.inRange 26
  | .evpost sa => spanS sa 4
  | .rwalk _ | .rstat _ => true
  | .trap _ | .resume | .rqrd _ | .rqwr _ | .rqdrop _ | .dfpopRead _ | .dfpopRetry _ | .dfpopSkip _ | .halt _
  | .preempt _ | .ctxsv _ | .ctxld _ | .divsetQuery _ | .divsetRelease _ => true
  | .fmtset x => x.ok && x.b.immIn fun v => decide (9 ≤ v) && decide (v ≤ 26)
  | .shpset x => x.ok && x.b.immIn fun v => decide (0 ≤ v)
  | .xpset x => x.ok && x.b.immIn fun v => decide (0 ≤ v)
  | .ratset x => spanS x.sa 2
  | .winset x => spanS x.sa 3
  | .tlbinv _ _ | .tlbinvCtx _ | .tlbfl => true
  | .cntrd _ | .cntclr _ => true
  | .cntsel x => x.b.inRange 8
  | .runStart .. | .stalledWordIssue .. | .memoryReadComplete .. | .memoryWriteComplete .. | .longFloatComplete ..
  | .matrixReadComplete .. | .mstatComplete .. | .engineIssueComplete .. | .reformFiling .. | .binAgeLimit ..
  | .monitorRecheck .. | .waitmTimeout .. | .haltWake .. | .pageWalk .. | .lineFill .. | .codedBlockFill ..
  | .l1Eviction .. | .llcEviction .. | .windowStoreRefusal .. | .impreciseFaultRecord .. | .softError ..
  | .matrixTurnGrant .. | .matrixLoadComplete .. | .matrixPassComplete .. | .mstoreComplete .. | .consumedEvent ..
  | .copyStart .. | .copySliceFault .. | .copySliceSteal .. | .copyComplete .. | .placement .. | .spawnSteal ..
  | .workgroupGone .. | .walkerNodeStart .. | .kernelNodeEnqueue .. | .loopIteration .. | .waitNodeRead ..
  | .nodeCompletion .. | .eventRingPost .. | .ringPostRetry .. | .ringTimeThreshold .. | .consumerIndexWrite ..
  | .mailboxDoorbellWrite .. | .replyAreaFree .. | .hostRegisterWrite .. | .attestationRequest | .quoteReady
  | .hostBinaryWindowAccess .. | .hostRawPackedAccess .. | .xgLinkTransfer .. | .xgTransferComplete .. | .xgRetry ..
  | .ucieFlitRetry .. | .preemptMarkArrival .. | .preemptDeadline .. | .workgroupSave .. | .preemptMarkRemoval ..
  | .workgroupResume .. | .divertedArrival .. | .licenceReview .. | .licenceRotation .. | .timeCountTick
  | .powerOnBoot | .deviceReset | .dieFatalError .. | .temperatureTrip .. | .clockThrottle ..
  | .heldWordCompletion .. | .lastLevelCopyUpdate .. => true

end Sys2Proof
end

