-- ==== Sys2Proof/Decode.lean ====
section
/-! DEFINITION. The decoder of instruction words (04_instruction_words.md R84 to R103, and the field tables of each
family's chapter), and after it the encoder. A word is legal exactly when it is the encoding of a well-formed
instruction; for any other word the decoder reports the cause and the detail codes of R100 and R101 that apply. -/

namespace Sys2Proof

/-! ## Fields -/

/-- The fields of the common layout (R84, Table 1), each a balanced integer. -/
structure Fields where
  op : Int
  var : Int
  d : Int
  a : Int
  b : Int
  k : Int
  ks : Int
  w : Int
  wm : Int
  bm : Int
  x : Int
deriving DecidableEq, Repr

/-- R84: the word of a set of fields. -/
def Fields.word (f : Fields) : Int :=
  f.op + 3 ^ 5 * (f.var + 3 ^ 2 * (f.d + 3 ^ 4 * (f.a + 3 ^ 4 * (f.b + 3 ^ 4 * (f.k + 3 ^ 2 * (f.ks + 3 * (f.w +
    3 ^ 2 * (f.wm + 3 * (f.bm + 3 * f.x)))))))))

/-- R84: the fields of a word. -/
def Fields.ofWord (v : Int) : Fields :=
  { op := wrapInt 5 v, var := wrapInt 2 (dropInt 5 v), d := wrapInt 4 (dropInt 7 v),
    a := wrapInt 4 (dropInt 11 v), b := wrapInt 4 (dropInt 15 v), k := wrapInt 2 (dropInt 19 v),
    ks := wrapInt 1 (dropInt 21 v), w := wrapInt 2 (dropInt 22 v), wm := wrapInt 1 (dropInt 24 v),
    bm := wrapInt 1 (dropInt 25 v), x := wrapInt 1 (dropInt 26 v) }

/-- t7–t18 as one 12-trit integer (R97). -/
def Fields.long12 (f : Fields) : Int := f.d + 3 ^ 4 * (f.a + 3 ^ 4 * f.b)
def Fields.off12 (f : Fields) : Trits 12 := Trits.ofInt 12 f.long12
/-- R98: t7–t12 and t13–t18. -/
def Fields.offm6 (f : Fields) : Trits 6 := Trits.ofInt 6 f.long12
def Fields.offp6 (f : Fields) : Trits 6 := Trits.ofInt 6 (dropInt 6 f.long12)
/-- R99: t7–t15. -/
def Fields.mask9 (f : Fields) : Trits 9 := Trits.ofInt 9 f.long12
def Fields.imm (f : Fields) : Trits 4 := Trits.ofInt 4 f.b
/-- R267: the space code 3·t25 + t6. -/
def Fields.spaceCode (f : Fields) : Int := 3 * f.bm + dropInt 1 f.var
/-- R269: the atomic code 9·t25 + 3·t6 + t5. -/
def Fields.atomicCode (f : Fields) : Int := 9 * f.bm + f.var

/-! ## Reading operands -/

/-- A number of a register file of n, or nothing. -/
def finOf (n : Nat) (v : Int) : Option (Fin n) :=
  if h : 0 ≤ v ∧ v.toNat < n then some ⟨v.toNat, h.2⟩ else none

/-- R86: register numbers are encoded n − 40 in 4 trits and n − 4 in 2. -/
def gOf (v : Int) : Option (Fin 81) := finOf 81 (v + 40)
def sOf (v : Int) : Option (Fin 27) := finOf 27 (v + 40)
def kOf (v : Int) : Option (Fin 9) := finOf 9 (v + 40)
def kn2Of (v : Int) : Option (Fin 9) := finOf 9 (v + 4)

/-- R89: t23 of the h map, which governs d, and t22, which governs a source. -/
def Fields.hD (f : Fields) : Int := dropInt 1 f.w
def Fields.hS (f : Fields) : Int := wrapInt 1 f.w

def regNum (isH : Bool) (v : Int) : Option Reg :=
  if isH then (kOf v).map .h else (gOf v).map .g
def regD (f : Fields) : Option Reg := regNum (f.hD = 1) f.d
def regA (f : Fields) : Option Reg := regNum (f.hS = 1) f.a

/-- R87. -/
def srcOf (f : Fields) : Option Src :=
  if f.bm = 1 then
    if f.hS = -1 then (kOf f.b).map .h else (gOf f.b).map .g
  else if f.bm = -1 then (sOf f.b).map .s
  else some (.imm f.imm)
/-- R88: in a long-latency word w is the wait slot, and no field names a run temporary. -/
def longSrcOf (f : Fields) : Option Src :=
  if f.bm = 1 then (gOf f.b).map .g
  else if f.bm = -1 then (sOf f.b).map .s
  else some (.imm f.imm)
def simmOf (f : Fields) : Option SImm :=
  if f.bm = -1 then (sOf f.b).map .s else some (.imm f.imm)
/-- R145, Table 5: copy and neg leave a unused. -/
def psetKaOf (f : Fields) : Option (Option (Fin 9)) :=
  if f.var = 0 ∨ f.var = -3 then some none else (kOf f.a).map some
def psrcOf (f : Fields) : Option PSrc :=
  if f.bm = 1 then (kOf f.b).map .k else some (.imm f.imm)

/-- R90. -/
def predOf (f : Fields) : Option Pred :=
  if f.ks = 1 then (kn2Of f.k).map .pos
  else if f.ks = -1 then (kn2Of f.k).map .neg
  else some .always
def wOf (f : Fields) : Option (Fin 9) := kn2Of f.w
def knOf (f : Fields) : Option (Fin 9) := kn2Of f.var

/-- The first element of a table whose code is v. -/
def ofCode {α : Type} (table : List (Int × α)) (v : Int) : Option α :=
  match table with
  | [] => none
  | (c, x) :: rest => if c = v then some x else ofCode rest v

/-- R91, Table 3. -/
def tyOf (v : Int) : Option Ty := ofCode [(0, .w), (1, .t), (-1, .f27), (2, .f9), (-2, .f81)] v
def tritOf (v : Int) : Option Trit := ofCode [(0, .zero), (1, .pos), (-1, .neg)] v
def psetFnOf (v : Int) : Option PsetFn :=
  ofCode [(0, .copy), (1, .tmin), (-1, .tmax), (2, .tprd), (-2, .tcns), (3, .tsum3), (-3, .neg)] v
def cvtwOf (v : Int) : Option CvtwKind := ofCode [(0, .widen), (1, .wrap), (-1, .sat)] v
def modeOf (v : Int) : Option RoundMode := ofCode [(0, .nearest), (-1, .floor), (1, .ceil), (2, .zero)] v
def binFmtOf (v : Int) : Option BinFmt := ofCode [(1, .bf16n), (2, .bf16), (3, .fp32), (4, .fp64)] v
def voteOf (v : Int) : Option VoteFn := ofCode [(1, .all), (-1, .any), (0, .maj)] v
def redOf (v : Int) : Option RedOp := ofCode [(-1, .min), (0, .add), (1, .max)] v
def whenOf (v : Int) : Option MstatWhen := ofCode [(-1, .done), (0, .now), (1, .consumed)] v
/-- R268, Table 5. -/
def scopeOf (v : Int) : Option Scope :=
  ofCode [(-4, .thread), (-3, .group), (-2, .wgrp), (-1, .cluster), (0, .die), (1, .pair), (2, .pkg), (3, .sys)] v
/-- R281, Table 8. -/
def fenceOf (v : Int) : Option FenceKind := ofCode [(1, .acq), (-1, .rel), (3, .acqrel), (-3, .sc)] v
/-- The space codes v of R269, used by barriers and copies too. -/
def spaceVOf (v : Int) : Option Space := ofCode [(0, .virt), (1, .scr), (2, .clu), (3, .chip)] v
/-- R267, Table 3: the weak forms and the strong ones. -/
def weakSpaceOf (v : Int) : Option Space := ofCode [(0, .virt), (1, .scr), (-1, .priv), (2, .clu), (-2, .chip)] v
def strongSpaceOf (v : Int) : Option Space := ofCode [(3, .virt), (-3, .scr), (4, .clu), (-4, .chip)] v
def widthOf (v : Int) : Option Width := ofCode [(0, .w), (1, .t), (-1, .f81)] v
def atomOpOf (v : Int) : Option AtomOp :=
  ofCode [(0, .add), (1, .exch), (2, .min), (3, .max), (4, .tmin), (5, .tmax)] v
/-- R269, Table 7: type .t and order of tq. -/
def tqOf (v : Int) : Option (Bool × MemOrder) :=
  ofCode [(0, false, .rlx), (1, false, .acq), (-1, false, .rel), (2, false, .acqrel), (3, true, .rlx), (4, true, .acq),
    (-2, true, .rel), (-3, true, .acqrel)] v

/-- R268, Table 4. -/
def qualOf (b : Int) : Option Qual := do
  let sc ← scopeOf (wrapInt 2 b)
  let order ← tritOf (wrapInt 1 (dropInt 2 b))
  let r ← ofCode [(0, false), (1, true)] (dropInt 3 b)
  return ⟨r, order, sc⟩

/-- Space and form of an access map word (R267). -/
def accOf (f : Fields) : Option (Space × AccForm) :=
  match weakSpaceOf f.spaceCode with
  | some s => some (s, .weak f.imm)
  | none => do return (← strongSpaceOf f.spaceCode, .strong (← qualOf f.b))

def op3Of (f : Fields) : Option Op3 := do return ⟨← tyOf f.var, ← regD f, ← regA f, ← srcOf f, ← predOf f⟩
def op2Of (f : Fields) : Option Op2 := do return ⟨← tyOf f.var, ← regD f, ← regA f, ← predOf f⟩
def op0Of (f : Fields) : Option Op0 := do return ⟨← regD f, ← regA f, ← srcOf f, ← predOf f⟩
def cmpOf (f : Fields) : Option CmpArgs := do return ⟨← tyOf f.var, ← kOf f.d, ← regA f, ← srcOf f, ← predOf f⟩
def idxOf (f : Fields) : Option IdxArgs := do return ⟨← knOf f, ← gOf f.d, ← gOf f.a, ← srcOf f, ← predOf f⟩
def shflOf (f : Fields) : Option ShflArgs := do return ⟨← knOf f, ← regD f, ← regA f, ← srcOf f, ← predOf f⟩
def flongOf (f : Fields) : Option FlongArgs := do
  return ⟨← tyOf f.var, ← gOf f.d, ← gOf f.a, ← predOf f, ← wOf f⟩
def memOf (f : Fields) : Option MemArgs := do
  let (s, form) ← accOf f
  return ⟨s, ← widthOf (wrapInt 1 f.var), form, ← gOf f.d, ← gOf f.a, ← predOf f, ← wOf f⟩
def uniOf (f : Fields) : Option UniArgs := do
  let (s, form) ← accOf f
  return ⟨s, ← widthOf (wrapInt 1 f.var), form, ← sOf f.d, ← sOf f.a, ← predOf f, ← wOf f⟩
def atomOf (f : Fields) : Option AtomArgs := do
  let am := f.atomicCode + 12
  let (tryte, order) ← tqOf (dropInt 2 f.b)
  return ⟨← spaceVOf (am.fdiv 6), ← atomOpOf (am.fmod 6), tryte, order, ← scopeOf (wrapInt 2 f.b), ← gOf f.d,
    ← gOf f.a, ← predOf f, ← wOf f⟩
def lineOf (f : Fields) : Option LineArgs := do return ⟨← regA f, ← srcOf f, ← predOf f⟩
def sdsaOf (f : Fields) : Option SdSa := do return ⟨← sOf f.d, ← sOf f.a⟩
def rqOf (f : Fields) : Option RqArgs := do return ⟨← regD f, ← sOf f.a, ← finOf 14 f.b⟩

/-! ## Field use of each opcode -/

/-- What d or a names. `g n` and `s n` are spans of n registers; `s0` is an s field that must name s0. -/
inductive FileUse where
  | none
  | g (n : Nat)
  | s (n : Nat)
  | s0
  | k
  | tile
deriving DecidableEq, Repr

/-- What b is: the accepted b modes, whether + names a k register, and the accepted immediates where the
immediate is a selector (R446). No mode at all means the field is unused. -/
structure BUse where
  modes : List Int := []
  kFile : Bool := false
  sel : Option (List Int) := .none
deriving DecidableEq, Repr

inductive PredUse where
  | no
  | may
  | must
deriving DecidableEq, Repr

inductive WaitUse where
  | fixed
  | long
  | hint
deriving DecidableEq, Repr

inductive Layout where
  | common
  | lit
  | branch
  | mask
  | access
  | atomic
deriving DecidableEq, Repr

/-- One row of the tables of field use. `typed`: var is an element type, and .f81 forms name triples; `tri`: the
g fields name triples; `noH`: the h map reaches no field; `whole`: a whole-L1 form, which needs bm = 0 and ks = 0
under detail 3 (R283, R422). -/
structure OpUse where
  layout : Layout := .common
  vars : List Int := [0]
  typed : Bool := false
  d : FileUse := .none
  a : FileUse := .none
  b : BUse := {}
  pred : PredUse := .no
  wait : WaitUse := .fixed
  tri : Bool := false
  noH : Bool := false
  whole : Bool := false
deriving DecidableEq, Repr

def bAll : BUse := { modes := [1, -1, 0] }
def bSI : BUse := { modes := [-1, 0] }
def bS : BUse := { modes := [-1] }
def bImm : BUse := { modes := [0] }
def bSel (l : List Int) : BUse := { modes := [0], sel := some l }
def bSISel (l : List Int) : BUse := { modes := [-1, 0], sel := some l }
/-- R215, R446: the format indexes that MSTORE's selector accepts, as far as the fixed entries settle it: not TF81 and not the
scale SC9. -/
def mstoreFmt (v : Int) : Bool := v != 7 && v != 8
/-- A second operand of any mode whose immediate is a selector (R446). -/
def bAllIn (p : Int → Bool) : BUse := { modes := [1, -1, 0], sel := some (((List.range 81).map fun (i : Nat) => (i : Int) - 40).filter p) }
/-- 0, 1, .., n - 1. -/
def upTo (n : Nat) : List Int := (List.range n).map Int.ofNat
/-- Every code of a k register in var. -/
def kCodes : List Int := [-4, -3, -2, -1, 0, 1, 2, 3, 4]
/-- The b fields of FENCE (R281): a kind and a scope code below +4. -/
def fenceCodes : List Int :=
  [1, -1, 3, -3].flatMap fun kind => [-4, -3, -2, -1, 0, 1, 2, 3].map fun sc => 9 * kind + sc
/-- CWB, CINV and ICINV, with their whole forms. -/
def lineUse (f : Fields) : OpUse :=
  if f.var = 1 then { vars := [0, 1], whole := true }
  else { vars := [0, 1], a := .g 1, b := bAll, pred := .may }
/-- R162, Table 5. -/
def fcvtUse (f : Fields) : OpUse :=
  let base : OpUse := { vars := [2, -1, -2], b := bSel [2, -1, -2], pred := .may, d := .g 1, a := .g 1 }
  match tyOf f.b, tyOf f.var with
  | some .f81, some .f81 => { base with tri := true, noH := true }
  | some .f9, some .f27 => { base with d := .g 3, noH := true }
  | some .f27, some .f9 => { base with a := .g 3, noH := true }
  | some .f9, some .f81 => { base with d := .g 9, noH := true }
  | some .f81, some .f9 => { base with a := .g 9, noH := true }
  | some .f27, some .f81 => { base with d := .g 3, noH := true }
  | some .f81, some .f27 => { base with a := .g 3, noH := true }
  | _, _ => base

/-- One assigned opcode: how its fields are used, and how its instruction is read. -/
structure OpRow where
  op : Int
  use : Fields → OpUse
  build : Fields → Option Instr

/-- Rows of the integer family. -/
def rowsInteger : List OpRow := [
  -- LIT
  { op := -107,
    use := fun _ => { layout := .lit },
    build := fun f => some (.lit (Trits.ofInt 22 (dropInt 5 f.word))) },
  -- MOV
  { op := -106,
    use := fun _ => { vars := [0, 1, 2, -1, -2], typed := true, d := .g 1, b := bAll, pred := .may },
    build := fun f => do return .mov ⟨← tyOf f.var, ← regD f, ← srcOf f, ← predOf f⟩ },
  -- MOVI
  { op := -105,
    use := fun _ => { vars := [0, 1], d := .s 1, b := bAll, pred := .may },
    build := fun f => do return .movi ⟨← tyOf f.var, ← sOf f.d, ← srcOf f, ← predOf f⟩ },
  -- LEA
  { op := -104,
    use := fun _ => { vars := [0, 1, 2, 3, 4], d := .g 1, a := .g 1, b := bAll, pred := .may },
    build := fun f => do return .lea ⟨← finOf 5 f.var, ← regD f, ← regA f, ← srcOf f, ← predOf f⟩ },
  -- ADD
  { op := -103,
    use := fun _ => { vars := [0, 1], d := .g 1, a := .g 1, b := bAll, pred := .may },
    build := fun f => (op3Of f).map .add },
  -- SUB
  { op := -102,
    use := fun _ => { vars := [0, 1], d := .g 1, a := .g 1, b := bAll, pred := .may },
    build := fun f => (op3Of f).map .sub },
  -- ADDS
  { op := -101,
    use := fun _ => { vars := [0, 1], d := .g 1, a := .g 1, b := bAll, pred := .may },
    build := fun f => (op3Of f).map .adds },
  -- SUBS
  { op := -100,
    use := fun _ => { vars := [0, 1], d := .g 1, a := .g 1, b := bAll, pred := .may },
    build := fun f => (op3Of f).map .subs },
  -- NEG
  { op := -99,
    use := fun _ => { vars := [0, 1], d := .g 1, a := .g 1, pred := .may },
    build := fun f => (op2Of f).map .neg },
  -- ABS
  { op := -98,
    use := fun _ => { vars := [0, 1], d := .g 1, a := .g 1, pred := .may },
    build := fun f => (op2Of f).map .abs },
  -- SGN
  { op := -97,
    use := fun _ => { vars := [0, 1], d := .g 1, a := .g 1, pred := .may },
    build := fun f => (op2Of f).map .sgn },
  -- MUL
  { op := -96,
    use := fun _ => { vars := [0, 1], d := .g 1, a := .g 1, b := bAll, pred := .may },
    build := fun f => (op3Of f).map .mul },
  -- MULH
  { op := -95,
    use := fun _ => { vars := [0, 1], d := .g 1, a := .g 1, b := bAll, pred := .may },
    build := fun f => (op3Of f).map .mulh },
  -- MAD
  { op := -109,
    use := fun _ => { vars := [0, 1], d := .g 1, a := .g 1, b := bAll, pred := .may },
    build := fun f => (op3Of f).map .mad },
  -- DIVN
  { op := -110,
    use := fun _ => { vars := [0, 1], d := .g 1, a := .g 1, b := bAll, pred := .may },
    build := fun f => (op3Of f).map .divn },
  -- DIVZ
  { op := -111,
    use := fun _ => { vars := [0, 1], d := .g 1, a := .g 1, b := bAll, pred := .may },
    build := fun f => (op3Of f).map .divz },
  -- DIVF
  { op := -112,
    use := fun _ => { vars := [0, 1], d := .g 1, a := .g 1, b := bAll, pred := .may },
    build := fun f => (op3Of f).map .divf },
  -- REMN
  { op := -113,
    use := fun _ => { vars := [0, 1], d := .g 1, a := .g 1, b := bAll, pred := .may },
    build := fun f => (op3Of f).map .remn },
  -- REMZ
  { op := -114,
    use := fun _ => { vars := [0, 1], d := .g 1, a := .g 1, b := bAll, pred := .may },
    build := fun f => (op3Of f).map .remz },
  -- REMF
  { op := -115,
    use := fun _ => { vars := [0, 1], d := .g 1, a := .g 1, b := bAll, pred := .may },
    build := fun f => (op3Of f).map .remf },
  -- MIN
  { op := -116,
    use := fun _ => { vars := [0, 1], d := .g 1, a := .g 1, b := bAll, pred := .may },
    build := fun f => (op3Of f).map .min },
  -- MAX
  { op := -117,
    use := fun _ => { vars := [0, 1], d := .g 1, a := .g 1, b := bAll, pred := .may },
    build := fun f => (op3Of f).map .max },
  -- CLAMP
  { op := -118,
    use := fun _ => { vars := [0, 1], d := .g 1, a := .g 1, b := bAll, pred := .may },
    build := fun f => (op3Of f).map .clamp },
  -- TMIN
  { op := -80,
    use := fun _ => { vars := [0, 1], d := .g 1, a := .g 1, b := bAll, pred := .may },
    build := fun f => (op3Of f).map .tmin },
  -- TMAX
  { op := -79,
    use := fun _ => { vars := [0, 1], d := .g 1, a := .g 1, b := bAll, pred := .may },
    build := fun f => (op3Of f).map .tmax },
  -- TSUM3
  { op := -78,
    use := fun _ => { vars := [0, 1], d := .g 1, a := .g 1, b := bAll, pred := .may },
    build := fun f => (op3Of f).map .tsum3 },
  -- TPRD
  { op := -77,
    use := fun _ => { vars := [0, 1], d := .g 1, a := .g 1, b := bAll, pred := .may },
    build := fun f => (op3Of f).map .tprd },
  -- TCNS
  { op := -76,
    use := fun _ => { vars := [0, 1], d := .g 1, a := .g 1, b := bAll, pred := .may },
    build := fun f => (op3Of f).map .tcns },
  -- SHL
  { op := -75,
    use := fun _ => { vars := [0, 1], d := .g 1, a := .g 1, b := bAll, pred := .may },
    build := fun f => (op3Of f).map .shl },
  -- SHR
  { op := -74,
    use := fun _ => { vars := [0, 1], d := .g 1, a := .g 1, b := bAll, pred := .may },
    build := fun f => (op3Of f).map .shr },
  -- ROT
  { op := -73,
    use := fun _ => { vars := [0, 1], d := .g 1, a := .g 1, b := bAll, pred := .may },
    build := fun f => (op3Of f).map .rot },
  -- EXT
  { op := -72,
    use := fun _ => { vars := [0], d := .g 1, a := .g 1, b := bAll, pred := .may },
    build := fun f => (op0Of f).map .ext },
  -- INS
  { op := -71,
    use := fun _ => { vars := [0], d := .g 1, a := .g 1, b := bAll, pred := .may },
    build := fun f => (op0Of f).map .ins },
  -- CNT
  { op := -70,
    use := fun _ => { vars := [0, 1], d := .g 1, a := .g 1, b := bAll, pred := .may },
    build := fun f => (op3Of f).map .cnt },
  -- LEAD
  { op := -69,
    use := fun _ => { vars := [0, 1], d := .g 1, a := .g 1, pred := .may },
    build := fun f => (op2Of f).map .lead },
  -- CMP
  { op := -68,
    use := fun _ => { vars := [0, 1], d := .k, a := .g 1, b := bAll, pred := .may },
    build := fun f => (cmpOf f).map .cmp },
  -- TST
  { op := -82,
    use := fun _ => { vars := [0, 1], d := .k, a := .g 1, b := bAll, pred := .may },
    build := fun f => (cmpOf f).map .tst },
  -- SEL3
  { op := -83,
    use := fun _ => { vars := [0, 1], d := .g 1, a := .g 1, b := bAll, pred := .must },
    build := fun f => (op3Of f).map .sel3 },
  -- PSET
  { op := -84,
    use := fun f => { vars := [0, 1, -1, 2, -2, 3, -3], d := .k, a := if f.var = 0 ∨ f.var = -3 then .none else .k, b := { modes := [0, 1], kFile := true }, pred := .may },
    build := fun f => do return .pset ⟨← psetFnOf f.var, ← kOf f.d, ← psetKaOf f, ← psrcOf f, ← predOf f⟩ },
  -- CVTW
  { op := -53,
    use := fun _ => { vars := [0, 1, -1], d := .g 1, a := .g 1, b := bAll, pred := .may },
    build := fun f => do return .cvtw ⟨← cvtwOf f.var, ← regD f, ← regA f, ← srcOf f, ← predOf f⟩ },
  -- PACK3
  { op := -52,
    use := fun _ => { vars := [0], d := .g 1, a := .g 1, b := bAll, pred := .may },
    build := fun f => (op0Of f).map .pack3 },
  -- UNPK3
  { op := -51,
    use := fun _ => { vars := [0], d := .g 1, a := .g 1, b := bAll, pred := .may },
    build := fun f => (op0Of f).map .unpk3 },
  -- TIDX
  { op := -50,
    use := fun _ => { vars := kCodes, d := .g 5, a := .g 1, b := bAll, pred := .may, noH := true },
    build := fun f => (idxOf f).map .tidx },
  -- TJOIN
  { op := -49,
    use := fun _ => { vars := kCodes, d := .g 1, a := .g 5, b := bAll, pred := .may, noH := true },
    build := fun f => (idxOf f).map .tjoin },
  -- SPLAT
  { op := -48,
    use := fun _ => { vars := [0], d := .g 1, a := .g 1, b := bAll, pred := .may },
    build := fun f => (op0Of f).map .splat }]

/-- Rows of the float family. -/
def rowsFloat : List OpRow := [
  -- FADD
  { op := -26,
    use := fun _ => { vars := [2, -1, -2], typed := true, d := .g 1, a := .g 1, b := bAll, pred := .may },
    build := fun f => (op3Of f).map .fadd },
  -- FSUB
  { op := -25,
    use := fun _ => { vars := [2, -1, -2], typed := true, d := .g 1, a := .g 1, b := bAll, pred := .may },
    build := fun f => (op3Of f).map .fsub },
  -- FMUL
  { op := -24,
    use := fun _ => { vars := [2, -1, -2], typed := true, d := .g 1, a := .g 1, b := bAll, pred := .may },
    build := fun f => (op3Of f).map .fmul },
  -- FMA
  { op := -23,
    use := fun _ => { vars := [2, -1, -2], typed := true, d := .g 1, a := .g 1, b := bAll, pred := .may },
    build := fun f => (op3Of f).map .fma },
  -- FMIN
  { op := -22,
    use := fun _ => { vars := [2, -1, -2], typed := true, d := .g 1, a := .g 1, b := bAll, pred := .may },
    build := fun f => (op3Of f).map .fmin },
  -- FMAX
  { op := -21,
    use := fun _ => { vars := [2, -1, -2], typed := true, d := .g 1, a := .g 1, b := bAll, pred := .may },
    build := fun f => (op3Of f).map .fmax },
  -- FSCL
  { op := -16,
    use := fun _ => { vars := [2, -1, -2], typed := true, d := .g 1, a := .g 1, b := bAll, pred := .may },
    build := fun f => (op3Of f).map .fscl },
  -- ITOF
  { op := -32,
    use := fun _ => { vars := [2, -1, -2], typed := true, d := .g 1, a := .g 1, b := bAll, pred := .may },
    build := fun f => (op3Of f).map .itof },
  -- FABS
  { op := -20,
    use := fun _ => { vars := [2, -1, -2], typed := true, d := .g 1, a := .g 1, pred := .may },
    build := fun f => (op2Of f).map .fabs },
  -- FNEG
  { op := -19,
    use := fun _ => { vars := [2, -1, -2], typed := true, d := .g 1, a := .g 1, pred := .may },
    build := fun f => (op2Of f).map .fneg },
  -- FCLS
  { op := -17,
    use := fun _ => { vars := [2, -1, -2], typed := true, d := .g 1, a := .g 1, pred := .may },
    build := fun f => (op2Of f).map .fcls },
  -- FEXN
  { op := -15,
    use := fun _ => { vars := [2, -1, -2], typed := true, d := .g 1, a := .g 1, pred := .may },
    build := fun f => (op2Of f).map .fexn },
  -- FTRN
  { op := -14,
    use := fun _ => { vars := [2, -1, -2], typed := true, d := .g 1, a := .g 1, pred := .may },
    build := fun f => (op2Of f).map .ftrn },
  -- FFLR
  { op := -28,
    use := fun _ => { vars := [2, -1, -2], typed := true, d := .g 1, a := .g 1, pred := .may },
    build := fun f => (op2Of f).map .fflr },
  -- FCEL
  { op := -29,
    use := fun _ => { vars := [2, -1, -2], typed := true, d := .g 1, a := .g 1, pred := .may },
    build := fun f => (op2Of f).map .fcel },
  -- FCMP
  { op := -18,
    use := fun _ => { vars := [2, -1, -2], typed := true, d := .k, a := .g 1, b := bAll, pred := .may },
    build := fun f => (cmpOf f).map .fcmp },
  -- FCVT
  { op := -30,
    use := fun f => fcvtUse f,
    build := fun f => do return .fcvt ⟨← tyOf f.var, ← tyOf f.b, ← regD f, ← regA f, ← predOf f⟩ },
  -- FTOI
  { op := -31,
    use := fun _ => { vars := [2, -1, -2], typed := true, d := .g 1, a := .g 1, b := bSel [0, -1, 1, 2], pred := .may },
    build := fun f => do return .ftoi ⟨← tyOf f.var, ← modeOf f.b, ← regD f, ← regA f, ← predOf f⟩ },
  -- FDOT
  { op := -37,
    use := fun _ => { vars := [2], d := .g 1, a := .g 1, b := bAll, pred := .may },
    build := fun f => (op0Of f).map .fdot },
  -- FDIV
  { op := -33,
    use := fun _ => { vars := [2, -1, -2], typed := true, d := .g 1, a := .g 1, b := bAll, pred := .may, wait := .long },
    build := fun f => do return .fdiv ⟨← tyOf f.var, ← gOf f.d, ← gOf f.a, ← longSrcOf f, ← predOf f, ← wOf f⟩ },
  -- FSQT
  { op := -34,
    use := fun _ => { vars := [2, -1, -2], typed := true, d := .g 1, a := .g 1, pred := .may, wait := .long },
    build := fun f => (flongOf f).map .fsqt },
  -- FRCP
  { op := -35,
    use := fun _ => { vars := [2, -1, -2], typed := true, d := .g 1, a := .g 1, pred := .may, wait := .long },
    build := fun f => (flongOf f).map .frcp },
  -- FRSQ
  { op := -36,
    use := fun _ => { vars := [2, -1, -2], typed := true, d := .g 1, a := .g 1, pred := .may, wait := .long },
    build := fun f => (flongOf f).map .frsq },
  -- FEX3
  { op := 39,
    use := fun _ => { vars := [2, -1, -2], typed := true, d := .g 1, a := .g 1, pred := .may, wait := .long },
    build := fun f => (flongOf f).map .fex3 },
  -- FLG3
  { op := 40,
    use := fun _ => { vars := [2, -1, -2], typed := true, d := .g 1, a := .g 1, pred := .may, wait := .long },
    build := fun f => (flongOf f).map .flg3 },
  -- FEXE
  { op := 26,
    use := fun _ => { vars := [2, -1, -2], typed := true, d := .g 1, a := .g 1, pred := .may, wait := .long },
    build := fun f => (flongOf f).map .fexe },
  -- FLGE
  { op := 25,
    use := fun _ => { vars := [2, -1, -2], typed := true, d := .g 1, a := .g 1, pred := .may, wait := .long },
    build := fun f => (flongOf f).map .flge },
  -- FSIN
  { op := 24,
    use := fun _ => { vars := [2, -1, -2], typed := true, d := .g 1, a := .g 1, pred := .may, wait := .long },
    build := fun f => (flongOf f).map .fsin },
  -- FCOS
  { op := 23,
    use := fun _ => { vars := [2, -1, -2], typed := true, d := .g 1, a := .g 1, pred := .may, wait := .long },
    build := fun f => (flongOf f).map .fcos },
  -- FTNH
  { op := 22,
    use := fun _ => { vars := [2, -1, -2], typed := true, d := .g 1, a := .g 1, pred := .may, wait := .long },
    build := fun f => (flongOf f).map .ftnh },
  -- BCVT
  { op := -38,
    use := fun f => { vars := [1, -1], d := .g 1, a := .g 1, b := bSel [1, 2, 3, 4], pred := .may, tri := f.b = 4, noH := f.b = 4 },
    build := fun f => do return .bcvt ⟨f.var = 1, ← binFmtOf f.b, ← regD f, ← regA f, ← predOf f⟩ }]

/-- Rows of the control family. -/
def rowsControl : List OpRow := [
  -- BR
  { op := 1,
    use := fun _ => { layout := .branch },
    build := fun f => do return .br ⟨← tritOf f.wm, f.off12⟩ },
  -- BRP
  { op := 2,
    use := fun _ => { layout := .branch, pred := .must },
    build := fun f => do return .brp ⟨← tritOf f.wm, ← predOf f, f.off12⟩ },
  -- B3
  { op := 3,
    use := fun _ => { layout := .branch, pred := .must },
    build := fun f => do return .b3 ⟨← tritOf f.wm, ← predOf f, f.offm6, f.offp6⟩ },
  -- CALL
  { op := 4,
    use := fun _ => { layout := .branch },
    build := fun f => do return .call ⟨← tritOf f.wm, f.off12⟩ },
  -- CALLI
  { op := 5,
    use := fun _ => { d := .g 1, a := .g 1, b := bAll, pred := .may },
    build := fun f => do return .calli ⟨← regD f, ← regA f, ← srcOf f, ← predOf f⟩ },
  -- RET
  { op := 6,
    use := fun _ => { a := .g 1, pred := .may },
    build := fun f => do return .ret ⟨← regA f, ← predOf f⟩ },
  -- JMPI
  { op := 7,
    use := fun _ => { a := .g 1, b := bAll, pred := .may },
    build := fun f => do return .jmpi ⟨← regA f, ← srcOf f, ← predOf f⟩ },
  -- LOOP
  { op := 11,
    use := fun _ => { d := .g 1, b := bImm, pred := .may, wait := .hint },
    build := fun f => do return .loop ⟨← tritOf f.wm, ← regD f, f.imm, ← predOf f⟩ },
  -- ENDRUN
  { op := 8,
    use := fun _ => { layout := .mask },
    build := fun f => some (.endrun f.mask9) },
  -- YIELD
  { op := 13,
    use := fun _ => { layout := .mask },
    build := fun f => some (.yield f.mask9) },
  -- REFORM
  { op := 9,
    use := fun _ => {},
    build := fun _ => some .reform },
  -- EXIT
  { op := 10,
    use := fun _ => { pred := .may },
    build := fun f => (predOf f).map .exit },
  -- NOP
  { op := 12,
    use := fun _ => {},
    build := fun _ => some .nop },
  -- SHFL
  { op := 28,
    use := fun _ => { vars := kCodes, d := .g 1, a := .g 1, b := bAll, pred := .may },
    build := fun f => (shflOf f).map .shfl },
  -- SHFLD
  { op := 29,
    use := fun _ => { vars := kCodes, d := .g 1, a := .g 1, b := bAll, pred := .may },
    build := fun f => (shflOf f).map .shfld },
  -- SHFLT
  { op := 30,
    use := fun _ => { vars := kCodes, d := .g 1, a := .g 1, b := bAll, pred := .may },
    build := fun f => (shflOf f).map .shflt },
  -- XPERM
  { op := 31,
    use := fun _ => { vars := kCodes, d := .g 1, a := .g 1, b := bSI, pred := .may },
    build := fun f => do return .xperm ⟨← knOf f, ← regD f, ← regA f, ← simmOf f, ← predOf f⟩ },
  -- VOTE
  { op := 32,
    use := fun _ => { vars := [0, 1, -1], d := .k, a := .g 1, pred := .may },
    build := fun f => do return .vote ⟨← voteOf f.var, ← kOf f.d, ← regA f, ← predOf f⟩ },
  -- BCST
  { op := 33,
    use := fun _ => { vars := [0, -2], typed := true, d := .g 1, a := .g 1, b := bSI, pred := .may },
    build := fun f => do return .bcst ⟨← tyOf f.var, ← regD f, ← regA f, ← simmOf f, ← predOf f⟩ },
  -- REDU
  { op := 34,
    use := fun _ => { vars := [0, 1, 2, -1, -2], typed := true, d := .g 1, a := .g 1, b := bSel [-1, 0, 1], pred := .may },
    build := fun f => do return .redu ⟨← tyOf f.var, ← redOf f.b, ← regD f, ← regA f, ← predOf f⟩ },
  -- SCAN
  { op := 35,
    use := fun _ => { vars := [0, 1, 2, -1, -2], typed := true, d := .g 1, a := .g 1, b := bSel [-1, 0, 1, 2, 3, 4], pred := .may },
    build := fun f => do return .scan ⟨← tyOf f.var, ← redOf (wrapInt 1 f.b), dropInt 1 f.b = 1, ← regD f, ← regA f, ← predOf f⟩ },
  -- RNG
  { op := 36,
    use := fun _ => { d := .g 1, pred := .may },
    build := fun f => do return .rng ⟨← regD f, ← predOf f⟩ },
  -- SREAD
  { op := 37,
    use := fun f => if f.var = 1 then { vars := [0, 1], d := .g 1, a := .k, pred := .may } else { vars := [0, 1], d := .g 1, b := bSel (upTo 15), pred := .may },
    build := fun f => if f.var = 1 then do return .sreadPredicate ⟨← regD f, ← kOf f.a, ← predOf f⟩ else do return .sread ⟨← regD f, ← finOf 15 f.b, ← predOf f⟩ },
  -- SWRITE
  { op := 38,
    use := fun f => if f.var = 1 then { vars := [0, 1], d := .k, a := .g 1, pred := .may } else { vars := [0, 1], a := .g 1, b := bSel (upTo 15), pred := .may },
    build := fun f => if f.var = 1 then do return .swritePredicate ⟨← kOf f.d, ← regA f, ← predOf f⟩ else do return .swrite ⟨← finOf 15 f.b, ← regA f, ← predOf f⟩ }]

/-- Rows of the matrix family. -/
def rowsMatrix : List OpRow := [
  -- MLOAD
  { op := 109,
    use := fun _ => { d := .s 1, a := .s 1, b := bImm },
    build := fun f => do return .mload ⟨← sOf f.d, ← sOf f.a, f.imm⟩ },
  -- MLOADP
  { op := 110,
    use := fun _ => { vars := kCodes, d := .s 1, a := .s 1, b := bImm },
    build := fun f => do return .mloadp ⟨← finOf 9 (f.var + 4), ← sOf f.d, ← sOf f.a, f.imm⟩ },
  -- MACT
  { op := 111,
    use := fun _ => { a := .s 1 },
    build := fun f => (sOf f.a).map .mact },
  -- MPASS
  { op := 112,
    use := fun _ => { d := .tile, a := .g 1, b := bS, pred := .may },
    build := fun f => do return .mpass ⟨← sOf f.d, ← regA f, ← sOf f.b, ← predOf f⟩ },
  -- MZERO
  { op := 113,
    use := fun _ => { d := .tile },
    build := fun f => (sOf f.d).map .mzero },
  -- MRD
  { op := 114,
    use := fun _ => { d := .g 1, a := .tile, b := bSI, pred := .may, wait := .long },
    build := fun f => do return .mrd ⟨← gOf f.d, ← sOf f.a, ← simmOf f, ← predOf f, ← wOf f⟩ },
  -- MWR
  { op := 115,
    use := fun _ => { d := .tile, a := .g 1, b := bSI, pred := .may },
    build := fun f => do return .mwr ⟨← sOf f.d, ← regA f, ← simmOf f, ← predOf f⟩ },
  -- MSTORE
  { op := 116,
    use := fun _ => { vars := [0, 1], d := .s 1, a := .tile, b := bSel ((upTo 27).filter mstoreFmt) },
    build := fun f => do let x : MstoreArgs := ⟨← sOf f.d, ← sOf f.a, ← finOf 27 f.b⟩; return if f.var = 1 then .mstoreZero x else .mstoreKeep x },
  -- MSTAT
  { op := 117,
    use := fun _ => { vars := [0, 1, -1], d := .g 1, b := bSel [0, 1, 2], pred := .may, wait := .long },
    build := fun f => do return .mstat ⟨← whenOf f.var, ← gOf f.d, ← finOf 3 f.b, ← predOf f, ← wOf f⟩ }]

/-- Rows of the memory family. -/
def rowsMemory : List OpRow := [
  -- LD
  { op := 55,
    use := fun _ => { layout := .access, d := .g 1, a := .g 1, pred := .may, wait := .long },
    build := fun f => do let x ← memOf f; return if x.form.isStrong then .ldStrong x else .ld x },
  -- ST
  { op := 56,
    use := fun _ => { layout := .access, d := .g 1, a := .g 1, pred := .may, wait := .long },
    build := fun f => do let x ← memOf f; return if x.form.isStrong then .stStrong x else .st x },
  -- LDU
  { op := 57,
    use := fun _ => { layout := .access, d := .s 1, a := .s 1, pred := .may, wait := .long },
    build := fun f => (uniOf f).map .ldu },
  -- STU
  { op := 58,
    use := fun _ => { layout := .access, d := .s 1, a := .s 1, pred := .may, wait := .long },
    build := fun f => (uniOf f).map .stu },
  -- ATOM
  { op := 59,
    use := fun _ => { layout := .atomic, d := .g 1, a := .g 1, pred := .may, wait := .long },
    build := fun f => (atomOf f).map .atom },
  -- ATOMR
  { op := 60,
    use := fun _ => { layout := .atomic, d := .g 1, a := .g 1, pred := .may, wait := .long },
    build := fun f => (atomOf f).map .atomr },
  -- CAS
  { op := 61,
    use := fun _ => { layout := .atomic, d := .g 2, a := .g 1, pred := .may, wait := .long },
    build := fun f => (atomOf f).map .cas },
  -- FENCE
  { op := 62,
    use := fun _ => { b := bSel fenceCodes },
    build := fun f => do return .fence ⟨← fenceOf (dropInt 2 f.b), ← scopeOf (wrapInt 2 f.b)⟩ },
  -- WAITM
  { op := 63,
    use := fun _ => { layout := .access, d := .s 1, a := .s 1 },
    build := fun f => do return .waitm ⟨← sOf f.d, ← sOf f.a, ← weakSpaceOf (f.spaceCode), f.imm⟩ },
  -- CWB
  { op := 64,
    use := fun f => lineUse f,
    build := fun f => if f.var = 1 then some .cwbAll else (lineOf f).map .cwb },
  -- CINV
  { op := 65,
    use := fun f => lineUse f,
    build := fun f => if f.var = 1 then some .cinvAll else (lineOf f).map .cinv },
  -- PREF
  { op := 66,
    use := fun _ => { vars := [0, 1], a := .g 1, b := bAll, pred := .may },
    build := fun f => if f.var = 1 then (lineOf f).map .prefLlc else (lineOf f).map .pref }]

/-- Rows of the async family. -/
def rowsAsync : List OpRow := [
  -- CPY
  { op := 82,
    use := fun _ => { a := .s 1, wait := .long },
    build := fun f => do return .cpy ⟨← sOf f.a, ← wOf f⟩ },
  -- CPYF
  { op := 84,
    use := fun _ => { a := .s 1, wait := .long },
    build := fun f => do return .cpyf ⟨← sOf f.a, ← wOf f⟩ },
  -- CPYS
  { op := 85,
    use := fun _ => { a := .s 1, wait := .long },
    build := fun f => do return .cpys ⟨← sOf f.a, ← wOf f⟩ },
  -- CPYL
  { op := 83,
    use := fun _ => { vars := [0, 1, 2, -1, -2, -3], a := .s 1, wait := .long },
    build := fun f => if f.var < 0 then do return .cpylFlush ⟨← sOf f.a, ← finOf 3 (-1 - f.var), ← wOf f⟩ else do return .cpyl ⟨← sOf f.a, ← finOf 3 f.var, ← wOf f⟩ },
  -- SPAWN
  { op := 86,
    use := fun _ => { vars := [0, 1], d := .s 1, a := .s 1, wait := .long },
    build := fun f => do let x : SpawnArgs := ⟨← sOf f.d, ← sOf f.a, ← wOf f⟩; return if f.var = 1 then .spawnCoresident x else .spawn x },
  -- BARI
  { op := 87,
    use := fun _ => { vars := [0, 1, 2, 3], d := .s 3, a := .s 1 },
    build := fun f => do return .bari ⟨← sOf f.d, ← sOf f.a, ← spaceVOf f.var⟩ },
  -- BAR
  { op := 88,
    use := fun _ => { vars := [0, 1, 2, 3], a := .s 1 },
    build := fun f => do return .bar ⟨← sOf f.a, ← spaceVOf f.var⟩ },
  -- BARA
  { op := 89,
    use := fun _ => { vars := [0, 1, 2, 3], d := .s 1, a := .s 1 },
    build := fun f => do return .bara ⟨← sOf f.d, ← sOf f.a, ← spaceVOf f.var⟩ },
  -- BARW
  { op := 90,
    use := fun _ => { vars := [0, 1, 2, 3], a := .s 1, b := bS },
    build := fun f => do return .barw ⟨← sOf f.a, ← sOf f.b, ← spaceVOf f.var⟩ },
  -- MBRX
  { op := 91,
    use := fun _ => { d := .g 1, b := bSISel (upTo 27) },
    build := fun f => do return .mbrx ⟨← regD f, ← simmOf f⟩ },
  -- MBTX
  { op := 92,
    use := fun _ => { vars := [0, 1, -1], d := .k, a := .g 1, b := bSISel (upTo 27) },
    build := fun f => do let x : MbtxArgs := ⟨← kOf f.d, ← regA f, ← simmOf f⟩; return if f.var = 1 then .mbtxBind x else if f.var = -1 then .mbtxUnbind x else .mbtxReply x },
  -- EVPOST
  { op := 93,
    use := fun _ => { a := .s 4 },
    build := fun f => (sOf f.a).map .evpost },
  -- RWALK
  { op := 94,
    use := fun _ => { d := .s 1, a := .s 1 },
    build := fun f => (sdsaOf f).map .rwalk },
  -- RSTAT
  { op := 80,
    use := fun _ => { d := .s 1, a := .s 1, b := bSel [0, 1, 2] },
    build := fun f => do return .rstat ⟨← sOf f.d, ← sOf f.a, ← finOf 3 f.b⟩ }]

/-- Rows of the trap family. -/
def rowsTrap : List OpRow := [
  -- TRAP
  { op := -1,
    use := fun _ => { b := bImm },
    build := fun f => some (.trap f.imm) },
  -- RESUME
  { op := -2,
    use := fun _ => {},
    build := fun _ => some .resume },
  -- DFPOP
  { op := -3,
    use := fun _ => { vars := [0, 1, -1], d := .g 1 },
    build := fun f => do let d ← regD f; return if f.var = 1 then .dfpopRetry d else if f.var = -1 then .dfpopSkip d else .dfpopRead d },
  -- HALT
  { op := -4,
    use := fun _ => { b := bImm },
    build := fun f => some (.halt f.imm) },
  -- CTXLD
  { op := 107,
    use := fun _ => { d := .s 1, a := .s 1 },
    build := fun f => (sdsaOf f).map .ctxld },
  -- PREEMPT
  { op := 106,
    use := fun _ => { d := .s 1, a := .s 1 },
    build := fun f => (sdsaOf f).map .preempt },
  -- DIVSET
  { op := 105,
    use := fun _ => { vars := [0, -1], d := .s 1, a := .s 1 },
    build := fun f => do let x ← sdsaOf f; return if f.var = -1 then .divsetRelease x else .divsetQuery x },
  -- RQRD
  { op := 118,
    use := fun _ => { d := .g 1, a := .s 1, b := bSel (upTo 14) },
    build := fun f => (rqOf f).map .rqrd },
  -- RQWR
  { op := 119,
    use := fun _ => { d := .g 1, a := .s 1, b := bSel (upTo 14) },
    build := fun f => (rqOf f).map .rqwr },
  -- RQDROP
  { op := 120,
    use := fun _ => { a := .s 1 },
    build := fun f => (sOf f.a).map .rqdrop },
  -- CTXSV
  { op := 121,
    use := fun _ => { d := .s 1, a := .s 1 },
    build := fun f => (sdsaOf f).map .ctxsv }]

/-- Rows of the tables family. -/
def rowsTables : List OpRow := [
  -- FMTSET
  { op := 104,
    use := fun _ => { d := .k, a := .g 1, b := bAllIn (fun v => decide (9 ≤ v) && decide (v ≤ 26)) },
    build := fun f => do return .fmtset ⟨← kOf f.d, ← regA f, ← srcOf f⟩ },
  -- SHPSET
  { op := 103,
    use := fun _ => { d := .k, a := .g 6, b := bAllIn (fun v => decide (0 ≤ v)), noH := true },
    build := fun f => do return .shpset ⟨← kOf f.d, ← gOf f.a, ← srcOf f⟩ },
  -- XPSET
  { op := 102,
    use := fun _ => { d := .k, a := .g 1, b := bAllIn (fun v => decide (0 ≤ v)) },
    build := fun f => do return .xpset ⟨← kOf f.d, ← regA f, ← srcOf f⟩ },
  -- RATSET
  { op := 101,
    use := fun _ => { d := .s 1, a := .s 2, b := bSI },
    build := fun f => do return .ratset ⟨← sOf f.d, ← sOf f.a, ← simmOf f⟩ },
  -- WINSET
  { op := 100,
    use := fun _ => { d := .s 1, a := .s 3, b := bSI },
    build := fun f => do return .winset ⟨← sOf f.d, ← sOf f.a, ← simmOf f⟩ },
  -- TLBINV
  { op := 99,
    use := fun f => { vars := [0, 1], a := if f.var = 1 then .s0 else .s 1, b := bS },
    build := fun f => if f.var = 1 then (sOf f.b).map .tlbinvCtx else do return .tlbinv (← sOf f.a) (← sOf f.b) },
  -- TLBFL
  { op := 98,
    use := fun _ => {},
    build := fun _ => some .tlbfl },
  -- ICINV
  { op := 97,
    use := fun f => lineUse f,
    build := fun f => if f.var = 1 then some .icinvAll else (lineOf f).map .icinv },
  -- CNTRD
  { op := 96,
    use := fun _ => { d := .g 1, a := .s 1 },
    build := fun f => do return .cntrd ⟨← regD f, ← sOf f.a⟩ },
  -- CNTSEL
  { op := 95,
    use := fun _ => { d := .s 1, a := .s 1, b := bSISel (upTo 9) },
    build := fun f => do return .cntsel ⟨← sOf f.d, ← sOf f.a, ← simmOf f⟩ },
  -- CNTCLR
  { op := 108,
    use := fun _ => { d := .s 1, a := .s 1 },
    build := fun f => (sdsaOf f).map .cntclr }]

/-- Table 9 of R102: every assigned opcode. -/
def opRows : List OpRow :=
  rowsInteger ++ rowsFloat ++ rowsControl ++ rowsMatrix ++ rowsMemory ++ rowsAsync ++ rowsTrap ++ rowsTables

/-- The row of an opcode. -/
def findRow (rows : List OpRow) (op : Int) : Option OpRow :=
  match rows with
  | [] => none
  | r :: rest => if r.op = op then some r else findRow rest op

/-! ## Detail codes (R100 step 4, R101, Table 8) -/

/-- A field check: the detail when the condition holds. -/
def flag (n : Nat) (c : Bool) : List Nat := if c then [n] else []

/-- Whether an .f81 form or another word on triples. -/
def OpUse.triples (u : OpUse) (f : Fields) : Bool := u.tri || (u.typed && f.var == -2)

/-- Details of d or a when it names `use`; `isH` when the h map points it at the run temporaries. -/
def fileDetails (use : FileUse) (isH tri : Bool) (v : Int) : List Nat :=
  match use with
  | .none => flag 3 (v ≠ 0)
  | .g _ => if isH then flag 5 (v > -32) else flag 6 (tri && (v + 40) % 3 ≠ 0)
  | .s n => flag 5 (v + 40 + n > 27)
  | .s0 => flag 3 (v ≠ -40)
  | .k => flag 5 (v > -32)
  | .tile => flag 5 (v > -14)

def FileUse.isG : FileUse → Bool
  | .g _ => true
  | _ => false

/-- R162: the triples of FCVT between two types. -/
def fcvtTriples (f : Fields) : List Nat :=
  if f.op ≠ -30 then [] else
  flag 6 ((f.var == -2 && (f.d + 40) % 3 ≠ 0) || (f.b == -2 && (f.a + 40) % 3 ≠ 0))

/-- R90, R144: the predicate fields. -/
def predDetails (p : PredUse) (f : Fields) : List Nat :=
  flag 3 (f.ks = 0 && f.k ≠ 0) ++
  match p with
  | .no => flag 8 (f.ks ≠ 0)
  | .may => []
  | .must => flag 8 (f.ks = 0)

/-- The b field by R87 and R446. -/
def bDetails (u : OpUse) (f : Fields) : List Nat :=
  let tri := u.triples f
  if u.whole then flag 3 (f.b ≠ 0 || f.bm ≠ 0 || f.ks ≠ 0)
  else if u.b.modes.isEmpty then flag 3 (f.b ≠ 0) ++ flag 8 (f.bm ≠ 0)
  else
    flag 8 (!u.b.modes.contains f.bm || (tri && f.bm == -1)) ++
    (match u.b.sel with
      | some l => flag 3 ((f.bm == 0 || u.b.modes == [0]) && !l.contains f.b)
      | none => []) ++
    if !u.b.modes.contains f.bm then []
    else if f.bm = 1 then
      if u.b.kFile then flag 5 (f.b > -32)
      else if f.hS = -1 && !tri && !u.noH then flag 5 (f.b > -32)
      else flag 6 (tri && (f.b + 40) % 3 ≠ 0)
    else flag 5 (f.bm == -1 && f.b > -14)

/-- The wait fields and the h map by R88 and R89. -/
def waitDetails (u : OpUse) (f : Fields) : List Nat :=
  match u.wait with
  | .long => flag 4 (f.wm ≠ 1)
  | w =>
    let reach := !(u.triples f) && !u.noH
    flag 4 (w == .fixed && f.wm ≠ 0) ++ flag 3 (f.hD = -1) ++
      flag 7 ((f.hD = 1 && !(reach && u.d.isG)) || (f.hS = 1 && !(reach && u.a.isG)) ||
        (f.hS = -1 && !(reach && f.bm == 1 && u.b.modes.contains 1 && !u.b.kFile)))

/-- A word of the common layout. -/
def commonDetails (u : OpUse) (f : Fields) : List Nat :=
  let tri := u.triples f
  let h := u.wait != .long && !tri && !u.noH
  flag 3 (!u.vars.contains f.var) ++ fileDetails u.d (h && f.hD == 1) tri f.d ++
    fileDetails u.a (h && f.hS == 1) tri f.a ++ fcvtTriples f ++ bDetails u f ++ predDetails u.pred f ++
    waitDetails u f

/-- R97, R98: BR, BRP, CALL and B3. The 0 of ks is a reserved value in B3. -/
def branchDetails (u : OpUse) (f : Fields) : List Nat :=
  flag 3 (f.var ≠ 0 || f.w ≠ 0 || f.bm ≠ 0 || (f.op == 3 && f.ks == 0)) ++ predDetails u.pred f

/-- R99. -/
def maskDetails (f : Fields) : List Nat :=
  flag 3 (f.var ≠ 0 || dropInt 1 f.b ≠ 0 || f.k ≠ 0 || f.ks ≠ 0 || f.w ≠ 0 || f.wm ≠ 0 || f.bm ≠ 0 ||
    (List.range 9).any fun i => tritAt f.long12 i == -1)

/-- R267, R268, R282: LD, ST, LDU, STU (55 to 58) and WAITM, whose w is an h map that reaches nothing (R89). -/
def accessDetails (u : OpUse) (f : Fields) : List Nat :=
  let wd := wrapInt 1 f.var
  let load := f.op = 55 || f.op = 57
  let okForm : Bool := match accOf f with
    | none => false
    | some (s, form) =>
      if f.op = 63 then !form.isStrong && s != .priv && wd == 0
      else (if load then form.okLoad else form.okStore) && !(wd == -1 && (f.op == 57 || f.op == 58))
  flag 3 (!okForm) ++ fileDetails u.d false (wd == -1) f.d ++ fileDetails u.a false false f.a ++
    predDetails u.pred f ++ flag 4 (if u.wait == .long then f.wm ≠ 1 else f.wm ≠ 0) ++
    (if u.wait == .long then [] else flag 3 (f.hD = -1) ++ flag 7 (f.hD = 1 || f.hS ≠ 0))

/-- R269. -/
def atomicDetails (u : OpUse) (f : Fields) : List Nat :=
  flag 3 ((atomOf { f with d := -40, a := -40, k := 0, ks := 0, w := 0 }).isNone ||
    (f.op == 61 && (f.atomicCode + 12) % 6 ≠ 0)) ++
    predDetails u.pred f ++ flag 4 (f.wm ≠ 1)

/-- One more than the highest g register that a field names. -/
def fieldTop (use : FileUse) (isH tri : Bool) (v : Int) : Nat :=
  match use with
  | .g n => if isH then 0 else (v + 40).toNat + (if tri then 1 else n)
  | _ => 0

/-- R86: one more than the highest g register the word names, for the check against the thread's allocation. -/
def gTopOf (u : OpUse) (f : Fields) : Nat :=
  match u.layout with
  | .lit => 0
  | .branch => 0
  | .mask => 0
  | .access =>
    max (fieldTop u.d false (wrapInt 1 f.var == -1) f.d) (fieldTop u.a false false f.a)
  | .atomic => max (fieldTop u.d false false f.d) (fieldTop u.a false false f.a)
  | .common =>
    let tri := u.triples f
    let h := u.wait != .long && !tri && !u.noH
    let b := if u.b.modes.contains 1 && !u.b.kFile && f.bm == 1 then
        fieldTop (.g 1) (h && f.hS == -1) tri f.b
      else 0
    max (fieldTop u.d (h && f.hD == 1) tri f.d) (max (fieldTop u.a (h && f.hS == 1) tri f.a) b)

/-- R86: one more than the highest tile the word names. -/
def tileTopOf (u : OpUse) (f : Fields) : Nat :=
  max (if u.d = .tile then (f.d + 41).toNat else 0) (if u.a = .tile then (f.a + 41).toNat else 0)

/-- R446: a value immediate narrower than its width that is negative without a LIT: MLOAD, MLOADP, WAITM, HALT, and
the immediate forms of MRD and MWR. -/
def negImmOf (f : Fields) : Bool :=
  f.b < 0 && (f.op == 63 || (f.bm == 0 && [109, 110, 114, 115, -4].contains f.op))

/-- What the decoder reports of a word that is no instruction: the cause of R100, the details of R101 that apply
whatever the group, the g registers and tiles the word names (one more than the highest), whether its value
immediate is out of range when no LIT stands before it. -/
structure Illegal where
  cause : Nat
  details : List Nat
  gTop : Nat := 0
  tileTop : Nat := 0
  negImm : Bool := false
deriving DecidableEq, Repr

/-- Steps 3 and 4 of R100 for a word the encoder never gives. -/
def illegalOf (f : Fields) : Illegal :=
  if f.op = 0 then ⟨2, [if f.word = 0 then 9 else 10], 0, 0, false⟩ else
  match findRow opRows f.op with
  | none => ⟨1, [1], 0, 0, false⟩
  | some r =>
    let u := r.use f
    let body := match u.layout with
      | .common => commonDetails u f
      | .lit => []
      | .branch => branchDetails u f
      | .mask => maskDetails f
      | .access => accessDetails u f
      | .atomic => atomicDetails u f
    ⟨1, flag 2 (u.layout != .lit && f.x ≠ 0) ++ body, gTopOf u f, tileTopOf u f, negImmOf f⟩

/-! ## The encoder -/

def Ty.code : Ty → Int
  | .w => 0
  | .t => 1
  | .f27 => -1
  | .f9 => 2
  | .f81 => -2

def Reg.field : Reg → Int
  | .g n => n.val - 40
  | .h n => n.val - 40

def Src.field : Src → Int
  | .g n => n.val - 40
  | .h n => n.val - 40
  | .s n => n.val - 40
  | .imm v => v.val

def Src.mode : Src → Int
  | .g _ => 1
  | .h _ => 1
  | .s _ => -1
  | .imm _ => 0

def SImm.field : SImm → Int
  | .s n => n.val - 40
  | .imm v => v.val

def SImm.mode : SImm → Int
  | .s _ => -1
  | .imm _ => 0

def PSrc.field : PSrc → Int
  | .k n => n.val - 40
  | .imm v => v.val

def PSrc.mode : PSrc → Int
  | .k _ => 1
  | .imm _ => 0

def Pred.k : Pred → Int
  | .always => 0
  | .pos k => k.val - 4
  | .neg k => k.val - 4

def Pred.ks : Pred → Int
  | .always => 0
  | .pos _ => 1
  | .neg _ => -1

def encG (n : Fin 81) : Int := n.val - 40
def encS (n : Fin 27) : Int := n.val - 40
def encK (n : Fin 9) : Int := n.val - 40
def encW (n : Fin 9) : Int := n.val - 4

/-- R89: the h map. -/
def hMap (d a b : Bool) : Int :=
  3 * (if d then 1 else 0) + (if a then 1 else if b then -1 else 0)

/-- A fixed-latency word of the common layout. -/
def fixF (op var d a b bm w : Int) (p : Pred) : Fields :=
  { op := op, var := var, d := d, a := a, b := b, k := p.k, ks := p.ks, w := w, wm := 0, bm := bm, x := 0 }

/-- A long-latency word of the common layout. -/
def longF (op var d a b bm : Int) (w : Fin 9) (p : Pred) : Fields :=
  { op := op, var := var, d := d, a := a, b := b, k := p.k, ks := p.ks, w := encW w, wm := 1, bm := bm, x := 0 }

/-- A word whose t7–t18 are one integer (R97, R98, R99). -/
def longField (op v hint : Int) (p : Pred) : Fields :=
  { op := op, var := 0, d := wrapInt 4 v, a := wrapInt 4 (dropInt 4 v), b := dropInt 8 v, k := p.k, ks := p.ks,
    w := 0, wm := hint, bm := 0, x := 0 }

def encOp3 (op : Int) (x : Op3) : Fields :=
  fixF op x.ty.code x.d.field x.a.field x.b.field x.b.mode (hMap x.d.isH x.a.isH x.b.isH) x.p
def encOp2 (op : Int) (x : Op2) : Fields :=
  fixF op x.ty.code x.d.field x.a.field 0 0 (hMap x.d.isH x.a.isH false) x.p
def encOp0 (op var : Int) (x : Op0) : Fields :=
  fixF op var x.d.field x.a.field x.b.field x.b.mode (hMap x.d.isH x.a.isH x.b.isH) x.p
def encCmp (op : Int) (x : CmpArgs) : Fields :=
  fixF op x.ty.code (encK x.kd) x.a.field x.b.field x.b.mode (hMap false x.a.isH x.b.isH) x.p
def encIdx (op : Int) (x : IdxArgs) : Fields :=
  fixF op (encW x.kn) (encG x.d) (encG x.a) x.b.field x.b.mode (hMap false false x.b.isH) x.p
def encShfl (op : Int) (x : ShflArgs) : Fields :=
  fixF op (encW x.kn) x.d.field x.a.field x.b.field x.b.mode (hMap x.d.isH x.a.isH x.b.isH) x.p
def encFlong (op : Int) (x : FlongArgs) : Fields := longF op x.ty.code (encG x.d) (encG x.a) 0 0 x.w x.p

def PsetFn.code : PsetFn → Int
  | .copy => 0
  | .tmin => 1
  | .tmax => -1
  | .tprd => 2
  | .tcns => -2
  | .tsum3 => 3
  | .neg => -3

def CvtwKind.code : CvtwKind → Int
  | .widen => 0
  | .wrap => 1
  | .sat => -1

def RoundMode.code : RoundMode → Int
  | .nearest => 0
  | .floor => -1
  | .ceil => 1
  | .zero => 2

def BinFmt.code : BinFmt → Int
  | .bf16n => 1
  | .bf16 => 2
  | .fp32 => 3
  | .fp64 => 4

def VoteFn.code : VoteFn → Int
  | .all => 1
  | .any => -1
  | .maj => 0

def RedOp.code : RedOp → Int
  | .min => -1
  | .add => 0
  | .max => 1

def MstatWhen.code : MstatWhen → Int
  | .done => -1
  | .now => 0
  | .consumed => 1

def Scope.code : Scope → Int
  | .thread => -4
  | .group => -3
  | .wgrp => -2
  | .cluster => -1
  | .die => 0
  | .pair => 1
  | .pkg => 2
  | .sys => 3

def FenceKind.code : FenceKind → Int
  | .acq => 1
  | .rel => -1
  | .acqrel => 3
  | .sc => -3

/-- The codes v of R269; the private space has none and is never well-formed there. -/
def Space.vCode : Space → Int
  | .virt => 0
  | .scr => 1
  | .clu => 2
  | .chip => 3
  | .priv => -1

def Space.weakCode : Space → Int
  | .virt => 0
  | .scr => 1
  | .priv => -1
  | .clu => 2
  | .chip => -2

/-- The private space has no strong form; it takes no code of Table 3 here. -/
def Space.strongCode : Space → Int
  | .virt => 3
  | .scr => -3
  | .clu => 4
  | .chip => -4
  | .priv => 0

def Width.code : Width → Int
  | .w => 0
  | .t => 1
  | .f81 => -1

def AtomOp.code : AtomOp → Int
  | .add => 0
  | .exch => 1
  | .min => 2
  | .max => 3
  | .tmin => 4
  | .tmax => 5

/-- R269, Table 7. -/
def tqCode (tryte : Bool) (o : MemOrder) : Int :=
  match tryte, o with
  | false, .rlx => 0
  | false, .acq => 1
  | false, .rel => -1
  | false, .acqrel => 2
  | true, .rlx => 3
  | true, .acq => 4
  | true, .rel => -2
  | true, .acqrel => -3

/-- R268, Table 4. -/
def Qual.code (q : Qual) : Int := q.scope.code + 9 * q.order.val + 27 * (if q.remote then 1 else 0)

def AccForm.field : AccForm → Int
  | .weak v => v.val
  | .strong q => q.code

def AccForm.spaceCode (form : AccForm) (s : Space) : Int :=
  match form with
  | .weak _ => s.weakCode
  | .strong _ => s.strongCode

/-- A word of the access map (R267). -/
def accF (op : Int) (s : Space) (wd : Width) (form : AccForm) (d a w wm : Int) (p : Pred) : Fields :=
  let c := form.spaceCode s
  { op := op, var := wd.code + 3 * wrapInt 1 c, d := d, a := a, b := form.field, k := p.k, ks := p.ks, w := w,
    wm := wm, bm := dropInt 1 c, x := 0 }
def encMem (op : Int) (x : MemArgs) : Fields := accF op x.space x.wd x.form (encG x.d) (encG x.a) (encW x.w) 1 x.p
def encUni (op : Int) (x : UniArgs) : Fields := accF op x.space x.wd x.form (encS x.sd) (encS x.sa) (encW x.w) 1 x.p
/-- A word of the atomic map (R269). -/
def encAtom (op : Int) (x : AtomArgs) : Fields :=
  let am := 6 * x.space.vCode + x.op.code - 12
  { op := op, var := wrapInt 2 am, d := encG x.d, a := encG x.a, b := x.scope.code + 9 * tqCode x.tryte x.order,
    k := x.p.k, ks := x.p.ks, w := encW x.w, wm := 1, bm := dropInt 2 am, x := 0 }
def encLine (op var : Int) (x : LineArgs) : Fields :=
  fixF op var 0 x.a.field x.b.field x.b.mode (hMap false x.a.isH x.b.isH) x.p
def encSdSa (op var : Int) (x : SdSa) : Fields := fixF op var (encS x.sd) (encS x.sa) 0 0 0 .always
def encTab (op : Int) (x : TabArgs) : Fields :=
  fixF op 0 (encK x.kd) x.a.field x.b.field x.b.mode (hMap false x.a.isH x.b.isH) .always
def encMbtx (op var : Int) (x : MbtxArgs) : Fields :=
  fixF op var (encK x.kd) x.a.field x.b.field x.b.mode (hMap false x.a.isH false) .always

/-- The fields of an instruction's word. An event has no word. -/
def Instr.fields (i : Instr) : Option Fields :=
  match i with
  | .lit p => some (Fields.ofWord (-107 + 3 ^ 5 * p.val))
  | .mov x => some (fixF (-106) x.ty.code x.d.field 0 x.b.field x.b.mode (hMap x.d.isH false x.b.isH) x.p)
  | .movi x => some (fixF (-105) x.ty.code (encS x.sd) 0 x.b.field x.b.mode (hMap false false x.b.isH) x.p)
  | .lea x =>
    some (fixF (-104) x.scale.val x.d.field x.a.field x.b.field x.b.mode (hMap x.d.isH x.a.isH x.b.isH) x.p)
  | .add x => some (encOp3 (-103) x)
  | .sub x => some (encOp3 (-102) x)
  | .adds x => some (encOp3 (-101) x)
  | .subs x => some (encOp3 (-100) x)
  | .neg x => some (encOp2 (-99) x)
  | .abs x => some (encOp2 (-98) x)
  | .sgn x => some (encOp2 (-97) x)
  | .mul x => some (encOp3 (-96) x)
  | .mulh x => some (encOp3 (-95) x)
  | .mad x => some (encOp3 (-109) x)
  | .divn x => some (encOp3 (-110) x)
  | .divz x => some (encOp3 (-111) x)
  | .divf x => some (encOp3 (-112) x)
  | .remn x => some (encOp3 (-113) x)
  | .remz x => some (encOp3 (-114) x)
  | .remf x => some (encOp3 (-115) x)
  | .min x => some (encOp3 (-116) x)
  | .max x => some (encOp3 (-117) x)
  | .clamp x => some (encOp3 (-118) x)
  | .tmin x => some (encOp3 (-80) x)
  | .tmax x => some (encOp3 (-79) x)
  | .tsum3 x => some (encOp3 (-78) x)
  | .tprd x => some (encOp3 (-77) x)
  | .tcns x => some (encOp3 (-76) x)
  | .shl x => some (encOp3 (-75) x)
  | .shr x => some (encOp3 (-74) x)
  | .rot x => some (encOp3 (-73) x)
  | .ext x => some (encOp0 (-72) 0 x)
  | .ins x => some (encOp0 (-71) 0 x)
  | .cnt x => some (encOp3 (-70) x)
  | .lead x => some (encOp2 (-69) x)
  | .cmp x => some (encCmp (-68) x)
  | .tst x => some (encCmp (-82) x)
  | .sel3 x => some (encOp3 (-83) x)
  | .pset x => some (fixF (-84) x.fn.code (encK x.kd) (match x.ka with
      | some k => encK k
      | none => 0) x.b.field x.b.mode 0 x.p)
  | .cvtw x =>
    some (fixF (-53) x.kind.code x.d.field x.a.field x.b.field x.b.mode (hMap x.d.isH x.a.isH x.b.isH) x.p)
  | .pack3 x => some (encOp0 (-52) 0 x)
  | .unpk3 x => some (encOp0 (-51) 0 x)
  | .splat x => some (encOp0 (-48) 0 x)
  | .tidx x => some (encIdx (-50) x)
  | .tjoin x => some (encIdx (-49) x)
  | .fadd x => some (encOp3 (-26) x)
  | .fsub x => some (encOp3 (-25) x)
  | .fmul x => some (encOp3 (-24) x)
  | .fma x => some (encOp3 (-23) x)
  | .fmin x => some (encOp3 (-22) x)
  | .fmax x => some (encOp3 (-21) x)
  | .fabs x => some (encOp2 (-20) x)
  | .fneg x => some (encOp2 (-19) x)
  | .fcmp x => some (encCmp (-18) x)
  | .fcls x => some (encOp2 (-17) x)
  | .fscl x => some (encOp3 (-16) x)
  | .fexn x => some (encOp2 (-15) x)
  | .ftrn x => some (encOp2 (-14) x)
  | .fflr x => some (encOp2 (-28) x)
  | .fcel x => some (encOp2 (-29) x)
  | .fcvt x => some (fixF (-30) x.ty.code x.d.field x.a.field x.src.code 0 (hMap x.d.isH x.a.isH false) x.p)
  | .ftoi x => some (fixF (-31) x.ty.code x.d.field x.a.field x.mode.code 0 (hMap x.d.isH x.a.isH false) x.p)
  | .itof x => some (encOp3 (-32) x)
  | .fdot x => some (encOp0 (-37) 2 x)
  | .fdiv x => some (longF (-33) x.ty.code (encG x.d) (encG x.a) x.b.field x.b.mode x.w x.p)
  | .fsqt x => some (encFlong (-34) x)
  | .frcp x => some (encFlong (-35) x)
  | .frsq x => some (encFlong (-36) x)
  | .fex3 x => some (encFlong 39 x)
  | .flg3 x => some (encFlong 40 x)
  | .fexe x => some (encFlong 26 x)
  | .flge x => some (encFlong 25 x)
  | .fsin x => some (encFlong 24 x)
  | .fcos x => some (encFlong 23 x)
  | .ftnh x => some (encFlong 22 x)
  | .bcvt x => some (fixF (-38) (if x.dirIn then 1 else -1) x.d.field x.a.field x.fmt.code 0
      (hMap x.d.isH x.a.isH false) x.p)
  | .br x => some (longField 1 x.off.val x.hint.val .always)
  | .brp x => some (longField 2 x.off.val x.hint.val x.p)
  | .b3 x => some (longField 3 (x.offm.val + 3 ^ 6 * x.offp.val) x.hint.val x.p)
  | .call x => some (longField 4 x.off.val x.hint.val .always)
  | .calli x => some (fixF 5 0 x.d.field x.a.field x.b.field x.b.mode (hMap x.d.isH x.a.isH x.b.isH) x.p)
  | .ret x => some (fixF 6 0 0 x.a.field 0 0 (hMap false x.a.isH false) x.p)
  | .jmpi x => some (fixF 7 0 0 x.a.field x.b.field x.b.mode (hMap false x.a.isH x.b.isH) x.p)
  | .loop x => some { fixF 11 0 x.d.field 0 x.imm.val 0 (hMap x.d.isH false false) x.p with wm := x.hint.val }
  | .endrun m => some (longField 8 m.val 0 .always)
  | .yield m => some (longField 13 m.val 0 .always)
  | .reform => some (fixF 9 0 0 0 0 0 0 .always)
  | .exit p => some (fixF 10 0 0 0 0 0 0 p)
  | .nop => some (fixF 12 0 0 0 0 0 0 .always)
  | .shfl x => some (encShfl 28 x)
  | .shfld x => some (encShfl 29 x)
  | .shflt x => some (encShfl 30 x)
  | .xperm x => some (fixF 31 (encW x.kn) x.d.field x.a.field x.b.field x.b.mode (hMap x.d.isH x.a.isH false) x.p)
  | .bcst x => some (fixF 33 x.ty.code x.d.field x.a.field x.b.field x.b.mode (hMap x.d.isH x.a.isH false) x.p)
  | .vote x => some (fixF 32 x.fn.code (encK x.kd) x.a.field 0 0 (hMap false x.a.isH false) x.p)
  | .redu x => some (fixF 34 x.ty.code x.d.field x.a.field x.fn.code 0 (hMap x.d.isH x.a.isH false) x.p)
  | .scan x => some (fixF 35 x.ty.code x.d.field x.a.field (x.fn.code + 3 * (if x.exclusive then 1 else 0)) 0
      (hMap x.d.isH x.a.isH false) x.p)
  | .rng x => some (fixF 36 0 x.d.field 0 0 0 (hMap x.d.isH false false) x.p)
  | .sread x => some (fixF 37 0 x.d.field 0 x.num.val 0 (hMap x.d.isH false false) x.p)
  | .sreadPredicate x => some (fixF 37 1 x.d.field (encK x.k) 0 0 (hMap x.d.isH false false) x.p)
  | .swrite x => some (fixF 38 0 0 x.a.field x.num.val 0 (hMap false x.a.isH false) x.p)
  | .swritePredicate x => some (fixF 38 1 (encK x.kd) x.a.field 0 0 (hMap false x.a.isH false) x.p)
  | .mload x => some (fixF 109 0 (encS x.sd) (encS x.sa) x.desc.val 0 0 .always)
  | .mloadp x => some (fixF 110 (x.planes.val - 4) (encS x.sd) (encS x.sa) x.desc.val 0 0 .always)
  | .mact sa => some (fixF 111 0 0 (encS sa) 0 0 0 .always)
  | .mpass x => some (fixF 112 0 (encS x.tile) x.a.field (encS x.sb) (-1) (hMap false x.a.isH false) x.p)
  | .mzero t => some (fixF 113 0 (encS t) 0 0 0 0 .always)
  | .mrd x => some (longF 114 0 (encG x.d) (encS x.tile) x.b.field x.b.mode x.w x.p)
  | .mwr x => some (fixF 115 0 (encS x.tile) x.a.field x.b.field x.b.mode (hMap false x.a.isH false) x.p)
  | .mstoreKeep x => some (fixF 116 0 (encS x.sd) (encS x.tile) x.fmt.val 0 0 .always)
  | .mstoreZero x => some (fixF 116 1 (encS x.sd) (encS x.tile) x.fmt.val 0 0 .always)
  | .mstat x => some (longF 117 x.when_.code (encG x.d) 0 x.item.val 0 x.w x.p)
  | .ld x => some (encMem 55 x)
  | .ldStrong x => some (encMem 55 x)
  | .st x => some (encMem 56 x)
  | .stStrong x => some (encMem 56 x)
  | .ldu x => some (encUni 57 x)
  | .stu x => some (encUni 58 x)
  | .atom x => some (encAtom 59 x)
  | .atomr x => some (encAtom 60 x)
  | .cas x => some (encAtom 61 x)
  | .fence x => some (fixF 62 0 0 0 (x.scope.code + 9 * x.kind.code) 0 0 .always)
  | .waitm x => some (accF 63 x.space .w (.weak x.timeout) (encS x.sd) (encS x.sa) 0 0 .always)
  | .cwb x => some (encLine 64 0 x)
  | .cwbAll => some (fixF 64 1 0 0 0 0 0 .always)
  | .cinv x => some (encLine 65 0 x)
  | .cinvAll => some (fixF 65 1 0 0 0 0 0 .always)
  | .pref x => some (encLine 66 0 x)
  | .prefLlc x => some (encLine 66 1 x)
  | .cpy x => some (longF 82 0 0 (encS x.sa) 0 0 x.w .always)
  | .cpys x => some (longF 85 0 0 (encS x.sa) 0 0 x.w .always)
  | .cpyf x => some (longF 84 0 0 (encS x.sa) 0 0 x.w .always)
  | .cpyl x => some (longF 83 x.set.val 0 (encS x.sa) 0 0 x.w .always)
  | .cpylFlush x => some (longF 83 (-1 - x.set.val) 0 (encS x.sa) 0 0 x.w .always)
  | .spawn x => some (longF 86 0 (encS x.sd) (encS x.sa) 0 0 x.w .always)
  | .spawnCoresident x => some (longF 86 1 (encS x.sd) (encS x.sa) 0 0 x.w .always)
  | .bari x => some (fixF 87 x.space.vCode (encS x.sd) (encS x.sa) 0 0 0 .always)
  | .bar x => some (fixF 88 x.space.vCode 0 (encS x.sa) 0 0 0 .always)
  | .bara x => some (fixF 89 x.space.vCode (encS x.sd) (encS x.sa) 0 0 0 .always)
  | .barw x => some (fixF 90 x.space.vCode 0 (encS x.sa) (encS x.sb) (-1) 0 .always)
  | .mbrx x => some (fixF 91 0 x.d.field 0 x.b.field x.b.mode (hMap x.d.isH false false) .always)
  | .mbtxReply x => some (encMbtx 92 0 x)
  | .mbtxBind x => some (encMbtx 92 1 x)
  | .mbtxUnbind x => some (encMbtx 92 (-1) x)
  | .evpost sa => some (fixF 93 0 0 (encS sa) 0 0 0 .always)
  | .rwalk x => some (encSdSa 94 0 x)
  | .rstat x => some (fixF 80 0 (encS x.sd) (encS x.sa) x.item.val 0 0 .always)
  | .trap c => some (fixF (-1) 0 0 0 c.val 0 0 .always)
  | .resume => some (fixF (-2) 0 0 0 0 0 0 .always)
  | .dfpopRead d => some (fixF (-3) 0 d.field 0 0 0 (hMap d.isH false false) .always)
  | .dfpopRetry d => some (fixF (-3) 1 d.field 0 0 0 (hMap d.isH false false) .always)
  | .dfpopSkip d => some (fixF (-3) (-1) d.field 0 0 0 (hMap d.isH false false) .always)
  | .halt t => some (fixF (-4) 0 0 0 t.val 0 0 .always)
  | .rqrd x => some (fixF 118 0 x.d.field (encS x.sa) x.item.val 0 (hMap x.d.isH false false) .always)
  | .rqwr x => some (fixF 119 0 x.d.field (encS x.sa) x.item.val 0 (hMap x.d.isH false false) .always)
  | .rqdrop sa => some (fixF 120 0 0 (encS sa) 0 0 0 .always)
  | .preempt x => some (encSdSa 106 0 x)
  | .ctxsv x => some (encSdSa 121 0 x)
  | .ctxld x => some (encSdSa 107 0 x)
  | .divsetQuery x => some (encSdSa 105 0 x)
  | .divsetRelease x => some (encSdSa 105 (-1) x)
  | .fmtset x => some (encTab 104 x)
  | .shpset x => some (fixF 103 0 (encK x.kd) (encG x.a) x.b.field x.b.mode (hMap false false x.b.isH) .always)
  | .xpset x => some (encTab 102 x)
  | .ratset x => some (fixF 101 0 (encS x.sd) (encS x.sa) x.b.field x.b.mode 0 .always)
  | .winset x => some (fixF 100 0 (encS x.sd) (encS x.sa) x.b.field x.b.mode 0 .always)
  | .tlbinv sa sb => some (fixF 99 0 0 (encS sa) (encS sb) (-1) 0 .always)
  | .tlbinvCtx sb => some (fixF 99 1 0 (-40) (encS sb) (-1) 0 .always)
  | .tlbfl => some (fixF 98 0 0 0 0 0 0 .always)
  | .icinv x => some (encLine 97 0 x)
  | .icinvAll => some (fixF 97 1 0 0 0 0 0 .always)
  | .cntrd x => some (fixF 96 0 x.d.field (encS x.sa) 0 0 (hMap x.d.isH false false) .always)
  | .cntclr x => some (encSdSa 108 0 x)
  | .cntsel x => some (fixF 95 0 (encS x.sd) (encS x.sa) x.b.field x.b.mode 0 .always)
  | .runStart .. | .stalledWordIssue .. | .memoryReadComplete .. | .memoryWriteComplete .. | .longFloatComplete ..
  | .matrixReadComplete .. | .mstatComplete .. | .engineIssueComplete .. | .reformFiling .. | .binAgeLimit ..
  | .monitorRecheck .. | .waitmTimeout .. | .haltWake .. | .pageWalk .. | .lineFill .. | .codedBlockFill ..
  | .l1Eviction .. | .llcEviction .. | .windowStoreRefusal .. | .impreciseFaultRecord .. | .softError ..
  | .matrixTurnGrant .. | .matrixLoadComplete .. | .matrixPassComplete .. | .mstoreComplete .. | .consumedEvent ..
  | .copyStart .. | .copySliceFault .. | .copySliceSteal .. | .copyComplete .. | .placement .. | .spawnSteal ..
  | .workgroupGone .. | .walkerNodeStart .. | .kernelNodeEnqueue .. | .loopIteration .. | .waitNodeRead ..
  | .nodeCompletion .. | .eventRingPost .. | .ringPostRetry .. | .ringTimeThreshold .. | .consumerIndexWrite ..
  | .mailboxDoorbellWrite .. | .replyAreaFree .. | .hostRegisterWrite .. | .attestationRequest | .quoteReady
  | .hostBinaryWindowAccess .. | .hostRawPackedAccess .. | .xgLinkTransfer .. | .xgTransferComplete .. | .xgRetry ..
  | .ucieFlitRetry .. | .preemptMarkArrival .. | .preemptDeadline .. | .workgroupSave .. | .preemptMarkRemoval ..
  | .workgroupResume .. | .divertedArrival .. | .licenceReview .. | .licenceRotation .. | .timeCountTick
  | .powerOnBoot | .deviceReset | .dieFatalError .. | .temperatureTrip .. | .clockThrottle ..
  | .heldWordCompletion .. | .lastLevelCopyUpdate .. => none

/-- The word of an instruction (R84 to R99), none for an event. -/
def encode (i : Instr) : Option Int := i.fields.map Fields.word

/-! ## The decoder -/

/-- The instruction that a set of fields encodes: the one its opcode's row reads, when it is well-formed and encodes
back to these fields. -/
def decodeFields (f : Fields) : Except Illegal Instr :=
  match findRow opRows f.op with
  | none => .error (illegalOf f)
  | some r =>
    match r.build f with
    | none => .error (illegalOf f)
    | some i => if i.wellFormed && i.fields == some f then .ok i else .error (illegalOf f)

/-- R84, R100 steps 3 and 4: the instruction of a word, or why it is none. -/
def decodeWord (v : Int) : Except Illegal Instr := decodeFields (Fields.ofWord v)

/-- R86: one more than the highest g register an instruction names, and than the highest tile. -/
def Instr.useOf (i : Instr) : Option (OpUse × Fields) := do
  let f ← i.fields
  let r ← findRow opRows f.op
  return (r.use f, f)
def Instr.gTop (i : Instr) : Nat :=
  match i.useOf with
  | some (u, f) => gTopOf u f
  | none => 0
def Instr.tileTop (i : Instr) : Nat :=
  match i.useOf with
  | some (u, f) => tileTopOf u f
  | none => 0

/-! ## Words as bits, for the host's questions -/

/-- Two bits of a word: 0 is the trit 0, 1 is +, 3 is −; 2 is no trit. -/
def tritOfBits (b : Nat) : Option Int :=
  if b = 0 then some 0 else if b = 1 then some 1 else if b = 3 then some (-1) else none

/-- The balanced integer of n trits held two bits each, lowest trit in the lowest bits. -/
def tritsOfBits : Nat → Nat → Option Int
  | 0, _ => some 0
  | n + 1, b => do
    let low ← tritOfBits (b % 4)
    let high ← tritsOfBits n (b / 4)
    return low + 3 * high

/-- The instruction of a word of 27 trits given as bits, two bits a trit; bits above `nbits` are 0. -/
def decodeTableWord (nbits w : Nat) : Option Instr :=
  match tritsOfBits 27 (w % 2 ^ nbits) with
  | none => none
  | some v =>
    match decodeWord v with
    | .ok i => some i
    | .error _ => none

end Sys2Proof
end

