-- ==== Sys2Proof/Machine/Slot.lean ====
section
/-! DEFINITION. The 160-byte DRAM slot of a packed line (02_narrow_and_packed.md R44 to R48): byte codes, metadata,
CRC-64, and the order of validation. A line is its 81 trytes as integers. -/

namespace Sys2Proof.Machine

/-- The trits of a list of values of n trits each, lowest first. -/
def tritsOf (n : Nat) (vs : List Int) : List Int :=
  vs.flatMap fun v => (List.range n).map (tritAt v)

/-- The balanced integer of a list of trits, lowest first. -/
def ofTrits (ts : List Int) : Int := ts.foldr (fun t acc => t + 3 * acc) 0

/-- A list cut into pieces of n, within `fuel` pieces. -/
def chunksOf {α : Type} (n : Nat) : Nat → List α → List (List α)
  | 0, _ => []
  | _ + 1, [] => []
  | fuel + 1, x :: xs => (x :: xs).take n :: chunksOf n fuel ((x :: xs).drop n)

/-- R46: the reflected generator polynomial 0x42F0E1EBA9EA3693. -/
def crcPoly : Nat := 0xC96C5795D7870F42

/-- One bit of the reflected CRC. -/
def crcBits : Nat → Nat → Nat
  | 0, c => c
  | k + 1, c => crcBits k (if c % 2 = 1 then (c / 2).xor crcPoly else c / 2)

/-- R46: the check code of a list of bytes. -/
def crc64 (bytes : List Nat) : Nat :=
  (bytes.foldl (fun c b => crcBits 8 (c.xor b)) (2 ^ 64 - 1)).xor (2 ^ 64 - 1)

/-- A number as n little-endian bytes. -/
def leBytes : Nat → Nat → List Nat
  | 0, _ => []
  | n + 1, v => v % 256 :: leBytes n (v / 256)

/-- The number of little-endian bytes. -/
def ofLeBytes (bs : List Nat) : Nat := bs.foldr (fun b acc => b + 256 * acc) 0

/-- R44: the 146 byte codes of a line. -/
def lineCodes (line : List Int) : List Nat :=
  (chunksOf 5 146 (tritsOf 9 line)).map fun c => (ofTrits c + maxMag c.length).toNat

/-- R44, R48: the slot of a line, written whole. `kind` is the metadata kind of R45. -/
def slotBytes (line : List Int) (kind : Nat) : List Nat :=
  let body := lineCodes line ++ leBytes 6 kind
  body ++ leBytes 8 (crc64 body)

/-- R44: the line of a slot that is valid. -/
def slotLine (slot : List Nat) : List Int :=
  let trits := (slot.take 145).flatMap (fun (c : Nat) => (List.range 5).map (tritAt ((c : Int) - 121))) ++
    (List.range 4).map (tritAt (((slot.getD 145 40 : Nat) : Int) - 40))
  (chunksOf 9 81 trits).map ofTrits

/-- R47: the cause of the first validation failure of a slot, or nothing. -/
def slotFault (slot : List Nat) (kind : Nat) : Option Nat :=
  if (slot.take 145).any (fun c => decide (c > 242)) || decide (slot.getD 145 255 > 80) then some 14
  else if slot.getD 146 255 % 4 ≠ kind then some 14
  else if crc64 (slot.take 152) ≠ ofLeBytes ((slot.drop 152).take 8) then some 15
  else none

end Sys2Proof.Machine
end

