-- ==== Sys2Proof/Machine/Codec.lean ====
section
/-! DEFINITION. The block codec (13_coded_regions.md R287 to R299): the lifting transform, the coefficient order, the
plane-by-plane stream, encoding under a budget and decoding. A block is its 27 TF81 codes, or its 243 trytes. -/

namespace Sys2Proof.Machine

/-- R287, Table 1: a block's shape, by its number of axes. -/
inductive BlockShape where
  | one
  | two
  | three
deriving DecidableEq, Repr, Inhabited

/-- The axes of a shape as (extent, stride of the element index). -/
def BlockShape.axes : BlockShape → List (Nat × Nat)
  | .one => [(27, 1)]
  | .two => [(9, 1), (3, 9)]
  | .three => [(3, 1), (3, 3), (3, 9)]

/-- R292: v with its lowest trit dropped. -/
def trunc3 (v : Int) : Int := dropInt 1 v

/-- The value at a position of a list, 0 beyond it. -/
def at0 (xs : List Int) (i : Nat) : Int := xs.getD i 0

def lift (i j k : Nat) (xs : List Int) : List Int :=
  let b := at0 xs j
  let a := at0 xs i - b
  let c := at0 xs k - b
  ((xs.set i a).set k c).set j (b + trunc3 (a + c))

def unlift (i j k : Nat) (xs : List Int) : List Int :=
  let a := at0 xs i
  let c := at0 xs k
  let b := at0 xs j - trunc3 (a + c)
  ((xs.set j b).set i (a + b)).set k (c + b)

/-- The triples (h, h + s, h + 2s) of a line of length n at stride s, as offsets along the line. -/
def lineTriples (n s : Nat) : List (Nat × Nat × Nat) :=
  (List.range (n / (3 * s))).map fun m =>
    let h := 3 * s * m + (s - 1) / 2
    (h, h + s, h + 2 * s)

/-- The first element of every line along an axis with an element stride, of 27 elements. -/
def lineStarts (n stride : Nat) : List Nat :=
  (List.range 27).filter fun i => i / stride % n == 0

/-- Every triple along one axis at line stride s, as element indexes. -/
def axisTriples (n stride s : Nat) : List (Nat × Nat × Nat) :=
  (lineStarts n stride).flatMap fun b =>
    (lineTriples n s).map fun (i, j, k) => (b + i * stride, b + j * stride, b + k * stride)

def strides (n : Nat) : List Nat := [1, 3, 9].filter (· < n)

/-- R292: the transform's triples in the encoder's order. -/
def encodeTriples (sh : BlockShape) : List (Nat × Nat × Nat) :=
  sh.axes.flatMap fun (n, st) => (strides n).flatMap fun s => axisTriples n st s

def transform (sh : BlockShape) (xs : List Int) : List Int :=
  (encodeTriples sh).foldl (fun acc (i, j, k) => lift i j k acc) xs

/-- R292: unlift inverts lift, so the decoder takes the same triples backwards. -/
def untransform (sh : BlockShape) (xs : List Int) : List Int :=
  (encodeTriples sh).reverse.foldl (fun acc (i, j, k) => unlift i j k acc) xs

/-- R293, Table 4: the key g of position i. -/
def orderKey (sh : BlockShape) (i : Nat) : Nat :=
  let u : Int := (i : Int) - 13
  match sh with
  | .one => if u = 0 then 0 else 3 - (if u % 9 = 0 then 2 else if u % 3 = 0 then 1 else 0)
  | .two =>
    let x : Int := (i % 9 : Nat)
    let y : Int := (i / 9 : Nat)
    (if x = 4 then 0 else if x = 1 ∨ x = 7 then 1 else 2) + (if y = 1 then 0 else 1)
  | .three => ((List.range 3).filter fun j => tritAt u j != 0).length

/-- R293: the positions in coding order. -/
def codeOrder (sh : BlockShape) : List Nat :=
  (List.range 5).flatMap fun g => (List.range 27).filter fun i => orderKey sh i == g

/-- The 27 TF81 codes of 243 trytes, and back (R287). -/
def blockCodes (trytes : List Int) : List Int :=
  (chunksOf 9 27 trytes).map fun t => t.foldr (fun v acc => v + 3 ^ 9 * acc) 0
def blockTrytes (codes : List Int) : List Int :=
  codes.flatMap fun c => (List.range 9).map fun j => wrapInt 9 (dropInt (9 * j) c)

/-- A stream element of the encoder: a trit and the plane that holds it, none for the header. -/
structure STrit where
  v : Int
  plane : Option Nat
deriving DecidableEq, Repr

/-- R294: one plane p of the coefficients `cs`; `sig` are the significant positions. -/
def encodePlane (order : List Nat) (cs : List Int) (sig : List Nat) (p : Nat) : List STrit × List Nat :=
  let t (i : Nat) : STrit := ⟨tritAt (at0 cs i) p, some p⟩
  let old := order.filter (sig.contains ·)
  let rest := order.filter (!sig.contains ·)
  let hit := rest.filter fun i => tritAt (at0 cs i) p != 0
  if hit.isEmpty then (old.map t ++ [⟨0, some p⟩], sig)
  else (old.map t ++ [⟨1, some p⟩] ++ rest.map t, sig ++ hit)

def encodePlanes (order : List Nat) (cs : List Int) : List Nat → List Nat → List STrit
  | [], _ => []
  | p :: ps, sig =>
    let (out, sig') := encodePlane order cs sig p
    out ++ encodePlanes order cs ps sig'

/-- Planes 77 down to 0. -/
def planesDown : List Nat := (List.range 78).reverse

/-- The result of encoding: the slot lines as trytes, whether exact (R295), the highest plane with any cut trit (R305). -/
structure Encoded where
  lines : List (List Int)
  exact : Bool
  cutPlane : Int
deriving DecidableEq, Repr

/-- R291: the common exponent of finite values. -/
def blockExp (vs : List FVal) : Int :=
  vs.foldl (fun acc v => match v with
    | .fin m e => if m = 0 then acc else max acc (leadPos m + e)
    | _ => acc) (-3280)

/-- R291 to R294: the encoding of 27 TF81 codes under budget B. -/
def encodeBlock (sh : BlockShape) (budget : Nat) (codes : List Int) : Encoded :=
  let vs := codes.map tf81.decode
  let ex := blockExp vs
  let cls (v : FVal) : Int := match v with
    | .fin _ _ => 0
    | .inf neg => if neg then -1 else 1
    | .nan => 3
  let special := vs.any fun v => cls v != 0
  -- alignment to weight 3^(E − 75)
  let align (v : FVal) : Int × Bool := match v with
    | .fin m e =>
      let s := e + 75 - ex
      if s ≥ 0 then (m * pow3 s, true) else (dropInt (-s).toNat m, wrapInt (-s).toNat m == 0)
    | _ => (0, true)
  let xs := vs.map align
  let cs := transform sh (xs.map (·.1))
  let header : List Int := [if special then 1 else 0] ++ (List.range 8).map (tritAt ex) ++
    (if special then vs.flatMap fun v => [tritAt (cls v) 0, tritAt (cls v) 1] else [])
  let stream := header.map (fun t => (⟨t, none⟩ : STrit)) ++ encodePlanes (codeOrder sh) cs planesDown []
  let cap := 729 * budget
  let kept := (stream.take cap).map (·.v)
  let cut := stream.drop cap
  let padded := kept ++ List.replicate (cap - kept.length) 0
  { lines := chunksOf 81 budget ((chunksOf 9 (81 * budget) padded).map ofTrits),
    exact := xs.all (·.2) && cut.all fun t => t.v == 0,
    cutPlane := cut.foldl (fun acc t => match t.plane with
      | some p => max acc p
      | none => acc) (-1) }

/-- The decoder's state: the unread stream, the coefficients, the significant positions, and whether a reserved trit
was read. A cut position reads 0. -/
structure DecState where
  rest : List Int
  cs : List Int
  sig : List Nat
  bad : Bool
deriving DecidableEq, Repr

def DecState.take1 (d : DecState) : Int × DecState :=
  match d.rest with
  | [] => (0, d)
  | t :: ts => (t, { d with rest := ts })

/-- Reads one trit at plane p for each listed position; `mark` makes a nonzero one significant. -/
def decodeTrits (p : Nat) (mark : Bool) : List Nat → DecState → DecState
  | [], d => d
  | i :: is, d =>
    let (t, d) := d.take1
    let d := { d with cs := d.cs.set i (at0 d.cs i + t * 3 ^ p), sig := if mark && t != 0 then d.sig ++ [i] else d.sig }
    decodeTrits p mark is d

def decodePlanes (order : List Nat) : List Nat → DecState → DecState
  | [], d => d
  | p :: ps, d =>
    let old := order.filter (d.sig.contains ·)
    let rest := order.filter (!d.sig.contains ·)
    let d := decodeTrits p false old d
    let (g, d) := d.take1
    let d := if g = 1 then decodeTrits p true rest d else if g = 0 then d else { d with bad := true }
    decodePlanes order ps d

/-- R296, R299: the 27 TF81 codes of a stream of 729·B trits, none when the stream is refused (cause 14). -/
def decodeBlock (sh : BlockShape) (trits : List Int) : Option (List Int) :=
  let mode := at0 trits 0
  if mode = -1 then none
  else
    let ex := ofTrits ((trits.drop 1).take 8)
    let map := if mode = 1 then
        (List.range 27).map fun i => at0 trits (9 + 2 * i) + 3 * at0 trits (10 + 2 * i)
      else List.replicate 27 0
    if map.any fun c => c != 0 && c != 1 && c != -1 && c != 3 then none
    else
      let d := decodePlanes (codeOrder sh) planesDown
        ⟨trits.drop (if mode = 1 then 63 else 9), List.replicate 27 0, [], false⟩
      if d.bad then none
      else
        let xs := untransform sh d.cs
        some ((List.range 27).map fun i =>
          let c := at0 map i
          if c = 1 then tf81.infCode false
          else if c = -1 then tf81.infCode true
          else if c = 3 then tf81.nanCode
          else
            let x := at0 xs i
            let (code, fl) := tf81.round (.fin x (ex - 75)) false
            if fl.overflow then tf81.topCode (x < 0) else code)

end Sys2Proof.Machine
end

