-- ==== Sys2Proof/Machine/Map.lean ====
section
/-! DEFINITION. Sparse maps from natural keys in one canonical form: keys strictly rising, no entry equal to the default.
Registers, scratchpads and tables are held so, and so is DRAM (with no default: an unlisted byte holds no value). -/

namespace Sys2Proof.Machine

/-- A sparse map: the entries that differ from the default, keys strictly rising. -/
abbrev SMap (α : Type) := List (Nat × α)

/-- The value at a key, `d` where nothing is listed. -/
def SMap.get {α : Type} (d : α) : SMap α → Nat → α
  | [], _ => d
  | (k, v) :: rest, n => if k = n then v else SMap.get d rest n

/-- The value at a key, or nothing. -/
def SMap.find? {α : Type} : SMap α → Nat → Option α
  | [], _ => none
  | (k, v) :: rest, n => if k = n then some v else SMap.find? rest n

/-- Removes a key. -/
def SMap.erase {α : Type} (m : SMap α) (n : Nat) : SMap α := m.filter fun e => e.1 != n

/-- Lists a value at a key. -/
def SMap.insert {α : Type} : SMap α → Nat → α → SMap α
  | [], n, x => [(n, x)]
  | (k, v) :: rest, n, x =>
    if k = n then (n, x) :: rest
    else if n < k then (n, x) :: (k, v) :: rest
    else (k, v) :: SMap.insert rest n x

/-- Writes a value at a key: the default is not listed. -/
def SMap.set {α : Type} [DecidableEq α] (d : α) (m : SMap α) (n : Nat) (x : α) : SMap α :=
  if x = d then m.erase n else m.insert n x

/-- Drops every key from `lo` to below `hi`: those entries take the default. -/
def SMap.clear {α : Type} (m : SMap α) (lo hi : Nat) : SMap α :=
  m.filter fun e => decide (e.1 < lo) || decide (hi ≤ e.1)

/-- Every key of a map above a bound, rising. -/
def risingFrom {α : Type} : Nat → SMap α → Bool
  | _, [] => true
  | lo, (k, _) :: rest => decide (lo ≤ k) && risingFrom (k + 1) rest

/-- The canonical form: rising keys, and no entry equal to the default. -/
def SMap.wf {α : Type} [DecidableEq α] (d : α) (m : SMap α) : Bool :=
  risingFrom 0 m && m.all fun e => decide (e.2 ≠ d)

end Sys2Proof.Machine
end

