-- ==== Sys2Proof/Machine/State.lean ====
section
/-! DEFINITION. The state of the XG3-729 as plain data: threads and groups (03_execution.md), registers (05), memories
and caches (10, 11, 13), the matrix unit (09), queues, walkers and copies (14, 15), traps, frames and diversion (16),
tables (17, 18), counters (19), and the host's side (27). -/

namespace Sys2Proof.Machine

/-! ## Stops -/

/-- Faults of the whole machine. -/
inductive Fault where
  /-- Raised by no meaning: the spec names no event that stops the whole machine. A die that takes a fatal error stops
  (R444) and the machine goes on. Safe. -/
  | machineStopped
deriving DecidableEq, Repr

/-- Refusals by name. -/
inductive Refusal where
  /-- Raised by an arm of exec for an instruction that has no meaning yet. Safe. -/
  | notModelled (mnemonic : String)
deriving DecidableEq, Repr

/-! ## Threads (R54 to R56, R112) -/

/-- Where a lane stands: never started (R56), exited (R181), ready, held by a call record, or parked (R175). -/
inductive LaneSt where
  | bornExited
  | exited
  | ready
  | held
  | parked
deriving DecidableEq, Repr, Inhabited

/-- A lane and its thread's registers. g0 and k0 are not stored (R113). `bank` is the slot whose register bank holds
the thread's g registers (R114). -/
structure Lane where
  thread : Nat
  st : LaneSt
  pc : Word
  skip : Nat
  g : SMap Word
  h : SMap Word
  k : SMap (Trits 3)
  fs : Flags
  rng : Word
  timeHi : Option Word
  bank : Nat
deriving DecidableEq, Repr

/-! ## Contexts, regions and fault records (R358, R409, R410) -/

/-- The context part of a root block (R410). -/
structure Ctx where
  num : Nat
  rootBlock : Int
  root : Int
  mode : Nat
  first : Nat
  grants : List (Nat × Nat)
deriving DecidableEq, Repr

/-- The items of a region with inheritance applied (R58, R409), as read at a placement or by a walker. `world` is the
effective world (R234), `budgetBlock` the block whose count it shares (R337). -/
structure Region where
  number : Word
  block : Int
  cls : Trit
  world : Trit
  supervisor : Bool
  budget : Nat
  budgetBlock : Int
  handler : Word
  dfq : Int
  attrtab : Int
  comptab : Int
  seed : Word
  deadline : Nat
  frames : Int
  save : Int
  stride : Nat
  partition : Int
  ancestors : List Int
  ctx : Ctx
deriving DecidableEq, Repr

/-- A fault record: its fields, with the workgroup it came from and the kernel node it is charged to by the model's numbers,
and the copy slice or step it parks (the slice's number; the number of slices names a step of R330). -/
structure FaultRec where
  cause : Nat
  inner : Nat
  parked : Bool
  retired : Bool
  pc : Int
  region : Word
  wgIndex : Word
  hw : Nat
  lanes : List Nat
  addr : Int
  laySrc : Int
  layDst : Int
  coord : List Nat
  time : Nat
  wg : Option Nat
  node : Option Nat
  copy : Option (Nat × Nat)
  deferred : Bool
deriving DecidableEq, Repr

/-! ## Places of memory -/

/-- A tryte of a cached line: the last-level line, the tryte in it, and the virtual line of the access with whether
L1 may hold it (R223, R403), and its memory channel (R405). For a coded line, its shape and the attribute entry that its counters belong to (R305). -/
structure LinePlace where
  key : LineKey
  tryte : Nat
  chan : Nat
  ctx : Ctx
  vline : Int
  l1 : Bool
  shape : BlockShape
  tab : Int
  entry : Nat
deriving DecidableEq, Repr

/-- The views of a binary window (R49, Table 11). -/
inductive View where
  | i8
  | u8
  | i16
  | u16
  | bf16
  | i32
  | fp32
  | fp64
deriving DecidableEq, Repr, Inhabited

/-- Where one tryte of an access lies, after every check of R273: a scratchpad (R218 to R221), the read-only descriptor
(R219), chip scratchpad (R222), a cached line, an element of a binary window (the place of its first byte in the line of
bytes that holds it, and the tryte of its ternary image), or a granule that a diversion entry covers (R367), by core and
physical offset. -/
inductive Place where
  | scr (core off : Nat)
  | desc (v : Tryte)
  | chip (die off : Nat)
  | line (p : LinePlace)
  | window (p : LinePlace) (view : View) (tryte : Nat)
  | diverted (wg core off : Nat)
deriving DecidableEq, Repr

/-! ## Long-latency work (R63, R271, R352) -/

/-- One lane's part of an issued long-latency word: the effective predicate trits of its elements, its captured
address and data, its result once known, and the flags it will raise; `landed` are the elements of its destination that a
later fixed-latency write has overwritten (R65). -/
structure PendLane where
  lane : Nat
  pred : Trits 3
  landed : List Nat
  addr : Int
  d0 : Word
  d1 : Word
  d2 : Word
  r0 : Word
  r1 : Word
  r2 : Word
  flags : Flags
  cause : Nat
deriving DecidableEq, Repr

/-- A tryte of a store that has passed its checks and is not yet performed; `off` is its offset from its lane's address. -/
structure StoreElem where
  lane : Nat
  off : Nat
  place : Place
  val : Tryte
deriving DecidableEq, Repr

/-- An element that has passed its checks, with the places of its trytes. -/
structure MemElem where
  lane : Nat
  elem : Nat
  places : List Place
deriving DecidableEq, Repr

/-- An issued and incomplete long-latency word. `slot` is its wait slot, `counted` whether it holds a count of it, `set` its
active set at issue (R376), `performed` whether its access has been made (its results are then captured), `stores` what it has
still to write (a store that has passed its checks fails by a record alone), `todo` the elements of an atomic that are still
to be performed (R274). -/
structure Pending where
  id : Nat
  word : Word
  pc : Word
  payload : Int
  slot : Nat
  counted : Bool
  set : List Nat
  lanes : List PendLane
  performed : Bool
  stores : List StoreElem
  todo : List MemElem
deriving DecidableEq, Repr

/-! ## Runs, waits and handlers -/

/-- An entry of the replay queue (R355, Table 3): PC, word and payload of the word, cause and detail, whether it holds a
count and was performed, its lane set (R376), whether its word had issued and its lanes have moved past it (R375), its lane items, and its record with the
remainder or step that the record parks (R360). -/
structure ReEntry where
  pc : Word
  word : Word
  payload : Int
  cause : Nat
  detail : Nat
  slot : Bool
  perf : Bool
  set : List Nat
  issued : Bool
  past : Bool
  lanes : List PendLane
  rec_ : List Word
  copy : Option (Nat × Nat)
deriving DecidableEq, Repr

/-- A fetched line of the current run: its virtual line and trytes (R60, R422). -/
structure FLine where
  line : Int
  trytes : List Tryte
deriving DecidableEq, Repr

/-- The current run (R60, R68, R93): its active lanes, the words issued, the accumulated payload with the number of
LITs that made it, the lines fetched, the word that holds the group, if one does, and the replay entry being re-issued, if
one is, with whether it is one behind the head (R375). -/
structure Run where
  active : List Nat
  count : Nat
  payload : Int
  lits : Nat
  lines : List FLine
  held : Option Instr
  again : Option ReEntry
  behind : Bool
deriving DecidableEq, Repr

def Run.none : Run := ⟨[], 0, 0, 0, [], .none, .none, false⟩

/-- A monitor wait of WAITM, BAR, BARW or HALT (R61): the word, its address and the value awaited to change, the value
last read, the time it ends by itself, and the cause of a failed re-read (R282). -/
structure Monitor where
  instr : Instr
  pc : Word
  payload : Int
  addr : Int
  token : Int
  last : Word
  deadline : Option Nat
  fault : Option Nat
deriving DecidableEq, Repr

/-- What a group does: at a run boundary, in a run on its slot, waiting off its slot, woken and due to go on, filing
by REFORM (R70), or stopped for a save (R361, R362). -/
inductive Phase where
  | boundary
  | running
  | waiting (m : Monitor)
  | woken (m : Monitor)
  | reforming
  | stopped
deriving DecidableEq, Repr

/-- A call record (R175): the word of the CALLI with its payload, the return point, the lanes still held with their targets,
the lanes of the released subsets, and those of them parked. -/
structure CallRec where
  word : Word
  payload : Int
  ret : Word
  held : List (Nat × Word)
  out : List Nat
  parked : List Nat
deriving DecidableEq, Repr

/-- What an accumulator-busy trap names (R67, R199): the tile as the workgroup numbers it, and the oldest operation in flight on
it by its group's index, the PC of its word and its mnemonic. -/
structure TileUse where
  tile : Nat
  hw : Nat
  pc : Word
  mnemonic : String
deriving DecidableEq, Repr

/-- Handler state (R351): the cause of the trap, the operation that a busy tile's trap names, what the frame's items do not say of each entry (its lane set, fixed at
capture, whether it had issued and its lanes had moved past it, and what its record parks), the call records, active set and place of the run that was
stopped. -/
structure Handler where
  cause : Nat
  busyOn : Option TileUse
  sets : List (List Nat)
  issued : List Bool
  past : List Bool
  copies : List (Option (Nat × Nat))
  calls : List CallRec
  active : List Nat
  boundary : Bool
deriving DecidableEq, Repr

/-- The progress of RESUME (R375): the entries still to re-issue, entry 0, the numbers of those re-issued and not yet
complete, and the active set and place of the run that was stopped. -/
structure Resuming where
  entries : List ReEntry
  head : Option ReEntry
  made : List Nat
  active : List Nat
  boundary : Bool
deriving DecidableEq, Repr

/-- A group (R55), or under width 81 a ganged group of 81 lanes (R78). `hw` is its hardware group index (of its first
hardware group when ganged), `slot` its issue slot, `mask` the slots its next run waits for (R64), `lastStart` the order of
its last run start and `placed` that of its placement (R317), `ceded` that it left its slot's next run to another group (R179), `noRecord` that no record is delivered yet (R353), `cpys` the
number of CPY words issued (R325), `stale` the stale count (R216). -/
structure Group where
  wg : Nat
  hw : Nat
  slot : Nat
  lanes : List Lane
  s : SMap Word
  w : SMap Nat
  pend : List Pending
  calls : List CallRec
  phase : Phase
  run : Run
  mask : List Nat
  lastStart : Nat
  placed : Nat
  ceded : Bool
  handler : Option Handler
  resuming : Option Resuming
  saveFrame : Bool
  noRecord : Bool
  cpys : Nat
  stale : Nat
deriving DecidableEq, Repr

/-! ## Workgroups, kernels and regions -/

/-- A kernel header (R110): loaded data, since its layout in memory is not given (log 8). `regs` counts granules of
nine g registers, `scratch` and `priv` are rounded sizes, `width` is the declared width, 27 when none is declared. -/
structure Kernel where
  entry : Word
  reforming : Bool
  binAge : Nat
  width : Nat
  regs : Nat
  scratch : Nat
  priv : Nat
  tiles : Nat
  checked : Bool
  threads : Nat
deriving DecidableEq, Repr

/-- Where a bank holds the registers of a group (R57, R83, R313): the slot of the bank, and the units of it of 243 words, one
for each granule per thread. -/
structure BankRun where
  slot : Nat
  units : List Nat
deriving DecidableEq, Repr

/-- A bin of the bin unit (R71): its key, its threads in the order filed, and when the oldest was filed. -/
structure Bin where
  wg : Nat
  pc : Word
  threads : List Lane
  since : Nat
deriving DecidableEq, Repr

/-- Workgroup states (R80). A pending workgroup is a number in a batch; a gone one is no longer held. -/
inductive WgSt where
  | resident
  | exiting
  | suspended
deriving DecidableEq, Repr, Inhabited

/-- The progress of a save or resume (R368, R369): none; its groups stopping; its entry taken, and then its image written; its
image back and its arrivals draining; or waiting for its core's resources or for its image to be copied back. -/
inductive SaveSt where
  | none
  | stopping
  | saving
  | written
  | entered
  | restoring
deriving DecidableEq, Repr, Inhabited

/-- A workgroup that has been placed. `index` is sr.wg, `gran` and `grans` its run of granules, `tiles` its tiles in the
unit, `saveIdx` R365, `launch` s1..s26, `node` the kernel node it belongs to, `preqAt` when its mark rose, `entry` its
diversion entry, `forced` whether a group needed a forced save, `ctxsv` whether CTXSV began the save, `banks` the positions of its
registers, by group, `bins` its filed threads while it is suspended (R363), and `img` the address of its image from the save to the
end of the resume. -/
structure Workgroup where
  id : Nat
  st : WgSt
  core : CoreRef
  index : Word
  region : Region
  kernel : Kernel
  gran : Nat
  grans : Nat
  tiles : List Nat
  saveIdx : Nat
  placed : Nat
  launch : List Word
  node : Option Nat
  preq : Bool
  preqAt : Nat
  save : SaveSt
  entry : Option Nat
  forced : Bool
  ctxsv : Bool
  saveAt : Nat
  banks : List BankRun
  bins : List Bin
  img : Option Int
deriving DecidableEq, Repr

/-- A batch of a spawn queue (R311): the region's block, the kernel, the pending sr.wg values first .. first + count − 1,
the launch scalars, the co-resident trit, the node it belongs to, and when it was enqueued. -/
structure Batch where
  region : Region
  kernel : Kernel
  first : Int
  count : Nat
  launch : List Word
  coresident : Bool
  node : Option Nat
  time : Nat
deriving DecidableEq, Repr

/-! ## Caches and translation -/

/-- What is kept of a store's element in an L1 line: the number of its pending word, the record that a refused write-back becomes,
which names its lane and address, and the region of its fault domain (R48, R285). -/
structure StoreNote where
  id : Nat
  record : FaultRec
  region : Region
deriving DecidableEq, Repr

/-- A line of an L1 (R223): tagged by context and virtual line, with the place of its tryte 0, the trytes it holds (a
store does not fill the others) and a dirty mask; the words of it that hold an uncorrectable error (R240); and the store that
wrote each dirty tryte last. -/
structure L1Line where
  ctx : Nat
  line : Int
  home : LinePlace
  trytes : List (Option Tryte)
  dirty : List Bool
  bad : List Nat
  by_ : List (Nat × StoreNote)
deriving DecidableEq, Repr

/-- A line of a last-level cache (R225), or a decoded coded block (R300): its trytes (of a line of bytes its bytes, each as a
number), whether DRAM must be written, which of its lines are held bad (R241), its channel, and for a block its shape and the attribute entry and context it
was accessed under. -/
structure LLine where
  key : LineKey
  trytes : List Tryte
  dirty : Bool
  bad : List Nat
  chan : Nat
  shape : BlockShape
  tab : Int
  entry : Nat
  ctx : Ctx
deriving DecidableEq, Repr

/-- A leaf held by a TLB (R238): the context, the middle page of those it covers, the level, the entry word, and the
physical address it was read from (R237). -/
structure TlbEntry where
  ctx : Nat
  page : Int
  level : Nat
  leaf : Word
  pa : Int
deriving DecidableEq, Repr

/-- A line of an instruction cache (R422). -/
structure ILine where
  ctx : Nat
  line : Int
  trytes : List Tryte
deriving DecidableEq, Repr

/-- A core's copy of an attribute entry (R406), tagged by table address and index. -/
structure AttrCopy where
  tab : Int
  index : Nat
  word : Word
deriving DecidableEq, Repr

/-- A core's copy of a table entry (R385): the block, the first word or tryte offset of the entry, and its words. -/
structure TableCopy where
  block : Int
  ctx : Nat
  offset : Nat
  words : List Word
deriving DecidableEq, Repr

/-- A barrier object that threads or copies of a context have arrived at (R343): the context, the die that they ran on, the space and
the address. Arrivals are due at it in every phase (R339). -/
structure BarUse where
  ctx : Nat
  die : Nat
  space : Space
  addr : Int
deriving DecidableEq, Repr

/-- A write of a table entry under way (R392): the group that holds at its word, the block and context, the tryte offset of the
entry, and its words. -/
structure TabWrite where
  wg : Nat
  hw : Nat
  block : Int
  ctx : Nat
  offset : Nat
  words : List Word
deriving DecidableEq, Repr

/-! ## Diversion (R366 to R370) -/

/-- A diversion entry: its state (− divert, 0 hold), context, granule run, shadow address and workgroup. -/
structure DivEntry where
  st : Trit
  ctx : Nat
  gran : Nat
  grans : Nat
  shadow : Int
  wg : Nat
deriving DecidableEq, Repr

/-- What an arrival does when it is applied (R367): trytes written at a physical offset of the core, for a pending store or
an engine, an atomic's or barrier's new trytes computed from the old ones when applied, a load, or a wait-slot decrement. -/
inductive ArrivalKind where
  | data (off : Nat) (vals : List Tryte) (issuer : Option (Nat × Nat × Nat))
  | atomic (off : Nat) (op : AtomOp) (cas tryte : Bool) (x y : Word) (issuer : Nat × Nat) (pend lane elem : Nat)
  | barrier (off : Nat) (issuer : Nat × Nat)
  | load (off len : Nat) (issuer : Nat × Nat) (pend lane elem : Nat)
  | decrement (hw slot : Nat)
deriving DecidableEq, Repr

/-- An arrival at a core for the diversion entry of a workgroup, from the work of another or the same (`by_`). -/
structure Arrival where
  wg : Nat
  by_ : Nat
  kind : ArrivalKind
deriving DecidableEq, Repr

/-! ## Line-buffer sets (R329) -/

/-- A row held by a line-buffer set: what it is matched by (R399), and its element codes as they were first fetched. -/
structure HeldRow where
  space : Space
  addr : Int
  count : Nat
  stride : Int
  fmt : Fmt
  vals : List Int
deriving DecidableEq, Repr

structure LineSet where
  owner : Option Nat
  rows : List HeldRow
deriving DecidableEq, Repr

/-- A programmable counter (R429). -/
structure ProgCounter where
  sel : Word
  owner : Option Nat
  value : Nat
deriving DecidableEq, Repr

/-- The state of a core beside its workgroups: caches, TLB, copies of entries, bins, diversion, counters, and for the memory
licence (R318) the cycles of its lost-locality events, its licence and starting point, and the cycles they were last set at. -/
structure CoreState where
  l1 : List L1Line
  icache : List ILine
  tlb : List TlbEntry
  attrs : List AttrCopy
  tables : List TableCopy
  victims : List (Nat × Int)
  lost : List Nat
  licence : Nat
  rotation : Nat
  reviewed : Nat
  rotated : Nat
  bins : List Bin
  divs : SMap DivEntry
  hold : List Arrival
  sets : List LineSet
  progs : SMap ProgCounter
deriving DecidableEq, Repr

/-- An empty core (R443). -/
def CoreState.empty : CoreState :=
  { l1 := [], icache := [], tlb := [], attrs := [], tables := [], victims := [], lost := [], licence := 81,
    rotation := 0, reviewed := 0, rotated := 0, bins := [], divs := [], hold := [], sets := [], progs := [] }

/-! ## The matrix unit (09_matrix_unit.md) -/

/-- A descriptor (R191, R208) with the formats its indexes named when it was issued (R193). -/
structure MatDesc where
  wf : Fmt
  af : Fmt
  scaled : Bool
deriving DecidableEq, Repr

/-- A weight plane (R191, R194): tag, descriptor, cells by j·729 + c, block scales by j·729 + c, band scales by v. -/
structure Plane where
  tag : Word
  desc : MatDesc
  cells : SMap Tryte
  blocks : SMap Tryte
  bands : SMap Tryte
deriving DecidableEq, Repr

/-- What a matrix queue entry does (R200). `load` names its image by scratchpad offset, with p of MLOADP; `row` is one
row operation of an MPASS: its third, the lanes that supply a row with their offsets, and the lanes zeroed. -/
inductive MatOp where
  | load (tag : Word) (off : Int) (desc : MatDesc) (planes : Option Nat)
  | act (tag : Word)
  | row (tag : Word) (tile third : Nat) (rows : List (Nat × Int)) (zeroed : List Nat) (depth : Nat)
  | zero (tile : Nat)
  | write (tile row : Nat) (cells : List (Nat × Word))
  | store (tile : Nat) (off : Int) (fmt : Fmt) (zero : Bool)
deriving DecidableEq, Repr

/-- An entry of a matrix queue, in order of acceptance: the number of its word (row operations of one MPASS share it), its
workgroup and group, the PC of its word, whether it has consumed its operands and whether it has been granted. -/
structure MatEntry where
  id : Nat
  wg : Nat
  hw : Nat
  pc : Word
  op : MatOp
  consumed : Bool
  granted : Bool
deriving DecidableEq, Repr

/-- A scratchpad tryte as it was before a write that a queued operation may meet (R205): its core and offset, its value, the
number of the next word at the write, and the copy that wrote it, by lines of 81 trytes, if one did. -/
structure OldTryte where
  core : Nat
  off : Nat
  val : Tryte
  since : Nat
  copy : Option Nat
deriving DecidableEq, Repr

/-- A cluster's matrix unit. `pending` are the tags issued and not yet loaded, with their workgroup; pl1 is empty while its
tag is 0, and `shadowWg` is the workgroup that loaded it; tiles by tile·19683 + row·729 + column; `last` is the queue granted
the last turn (R201), and `olds` what queued operations may still read of overwritten operands (R205). -/
structure MatUnit where
  pl0 : Plane
  pl1 : Plane
  shadowWg : Option Nat
  counter : Word
  pending : List (Word × Nat)
  tiles : SMap Word
  queue : List MatEntry
  last : Nat × Nat
  olds : List OldTryte
deriving DecidableEq, Repr

/-! ## Copies (15_async_instructions.md, R322 to R335) -/

inductive CopyForm where
  | cpy
  | cpys
  | cpyf
  | cpyl (set : Nat) (flush : Bool)
deriving DecidableEq, Repr

/-- A slice waits to begin, runs, is parked by a failure, is to run again with its records read afresh, was skipped, or is
done. -/
inductive SliceSt where
  | waiting
  | running
  | parked
  | retry
  | skipped
  | done
deriving DecidableEq, Repr

/-- A request and its layout records as read, with the source and destination formats (R387, R400). -/
structure CopyView where
  request : List Word
  src : List Word
  dst : List Word
  sf : Option Fmt
  df : Option Fmt
deriving DecidableEq, Repr

/-- A destination element written: its box index, its tryte and trit position, and its code after conversion (R331). -/
structure Wrote where
  idx : Nat
  addr : Int
  pos : Nat
  val : Int
deriving DecidableEq, Repr

/-- One slice of a copy: the group that supplied it, the request offset it named, the engine that performs it, the place it
has come to in its range of the box, the records it reads by after a retry, and the destination trytes that it has read and is
to write in part (R398). -/
structure Slice where
  hw : Nat
  req : Int
  moved : Nat
  st : SliceSt
  engine : Nat
  view : Option CopyView
  olds : List (Int × Tryte)
deriving DecidableEq, Repr

/-- A copy of a workgroup, which is held as it was at issue: `need` slices start it; `waits` are the matrix words of its
trigger (R333). `box` are the box sizes fixed at its start; `stage` counts the steps of R330 (0 data, 1 stamp, 2 check word,
3 barrier), `parked` a step that failed, `reread` that the step is to be made again with the request read afresh (R360). -/
structure Copy where
  id : Nat
  wg : Nat
  engine : Nat
  owner : Workgroup
  form : CopyForm
  seq : Nat
  need : Nat
  slices : List Slice
  pc : Word
  waits : List Nat
  started : Bool
  view : Option CopyView
  box : Option (List Nat)
  wrote : List Wrote
  stage : Nat
  parked : Bool
  reread : Bool
deriving DecidableEq, Repr

/-! ## Faults as records (R358) -/

/-- A deferred-fault queue (R359): its fault domain's queue address and context, its records, oldest first, and the number
ever appended, which places the next record in memory. -/
structure Dfq where
  addr : Int
  ctx : Ctx
  recs : List FaultRec
  appended : Nat
deriving DecidableEq, Repr

/-! ## Walkers, nodes, rings, mailboxes (14_queues.md) -/

/-- A node being executed by a walker: its block, kind, the child it runs (0 none), and how many iterations have run, and for a
loop or a wait the node's words as the walker read them at its start (R409). -/
structure NodeFrame where
  block : Int
  kind : Nat
  child : Int
  iter : Nat
  words : List Int
deriving DecidableEq, Repr

/-- A ready node of a die (R311), with the context it belongs to, and whether an access of its words has failed (R411). -/
structure ReadyNode where
  die : Nat
  block : Int
  ctx : Ctx
  failed : Bool
deriving DecidableEq, Repr

/-- A walker that is busy: the frames from the innermost node outward, the node completed and not yet passed on with its
status, and the kernel node it waits for. -/
structure Walker where
  id : Nat
  die : Nat
  ctx : Ctx
  frames : List NodeFrame
  done : Option Trit
  kernel : Option Nat
deriving DecidableEq, Repr

/-- A kernel node: its region, the batch still to enqueue, the workgroups placed and gone, the faults charged with the
first cause, the status that an early end forces; `ended` once it has completed, until it starts again. -/
structure KNode where
  id : Nat
  walker : Nat
  block : Int
  region : Region
  batch : Option Batch
  placed : Nat
  faults : Nat
  cause : Nat
  status : Option Trit
  gone : Nat
  ended : Bool
deriving DecidableEq, Repr

/-- Who posts a record that waits for its ring (R309): an agent that does not wait for it, a region walker, or a group that holds
at its EVPOST. -/
inductive Poster where
  | agent
  | walker (id : Nat)
  | group (wg hw : Nat)
deriving DecidableEq, Repr

/-- A context's event ring (R309, R310): posts waiting for room in their order with the poster (a group has its place alone: its
EVPOST makes the record), the times of the records not yet signalled, and whether an interrupt is pending. The records and indexes are
in memory. -/
structure Ring where
  ctx : Ctx
  waiting : List (Poster × List Word)
  unsignalled : List Nat
  irq : Bool
deriving DecidableEq, Repr

/-- A mailbox (R308, R346): its binding, the words of its nine slots by slot·27 + word, the posted slots in order, and
its reply area. -/
structure Mailbox where
  bound : Option (Nat × Int)
  words : SMap Word
  posted : List Nat
  reply : SMap Word
deriving DecidableEq, Repr

def Mailbox.empty : Mailbox := ⟨none, [], [], []⟩

/-- A pre-emption mark (R361): the marked region's block, the workgroups still to be saved or gone, the number saved. -/
structure Mark where
  id : Nat
  block : Int
  ctx : Ctx
  waiting : List Nat
  saved : Nat
deriving DecidableEq, Repr

/-! ## Memory in motion -/

/-- Trytes of one line written at one die's last-level copy, on their way to another die's copy (R225, R257). -/
structure CopyUpdate where
  src : Nat
  dst : Nat
  place : LinePlace
  vals : List (Nat × Tryte)
deriving DecidableEq, Repr

/-- Elements a window store could not convert (R51): the record it becomes. -/
structure ShellRefusal where
  record : FaultRec
  region : Region
deriving DecidableEq, Repr

/-- A transfer of an XG link in progress (R440): local and peer offsets and the length. -/
structure XgTransfer where
  link : Nat
  src : Int
  dst : Int
  len : Int
deriving DecidableEq, Repr

/-- The world map set by firmware (R413): worlds of clusters by die·27 + cluster, of mailboxes, and the secure
carve-out of each tier by 2·die + tier, as a range of slot lines. -/
structure WorldMap where
  clusters : SMap Trit
  mailboxes : SMap Trit
  carves : SMap (Nat × Nat)
deriving DecidableEq, Repr

/-- Where uncorrectable soft errors stand (R240): registers by workgroup, group, lane and name (of an s register
the lane says nothing); scratchpad and chip words by word index. -/
structure BadWords where
  regs : List (Nat × Nat × Nat × RegName)
  scr : List Nat
  chip : List Nat
deriving DecidableEq, Repr

/-! ## The whole machine -/

/-- The state of the package. Keys: cores by (die·27 + cluster)·9 + core; clusters by die·27 + cluster; scratchpad
trytes by core·531441 + offset; chip trytes by die·14348907 + offset; DRAM bytes by (2·die + tier)·2^40 + byte;
spawn queues by cluster·3 + class; `polls` the neighbour a cluster's next steal begins with (R316); counters by (kind·4 + die)·512 + instance; window and link words by 3·n + i and
4·n + i; ctlb by cluster; `clocks` the ninths of its nominal clock that an island runs at, and `lags` the ninths of cycles it is behind (R445): a
cluster's island has the cluster's key, the base dies' 108 to 143; llc lines with the die that holds them; `contexts` are the contexts whose roots the device has read, by number, `consumers` the consumer indexes that the host wrote for others (R436), `partitions` the partition records (R319) of the blocks it has read, by context and block, and `unrooted` the records of mailboxes for others, as context, kind and payload (R308). -/
structure State where
  -- the schedule and the model's own counters (logs 1, 2)
  agenda : List Turn
  turns : Nat
  free : Nat
  cur : SlotRef
  stamp : Nat
  nextId : Nat
  -- time
  time : Nat
  -- threads, groups and workgroups
  wgs : List Workgroup
  groups : List Group
  cores : SMap CoreState
  units : SMap MatUnit
  -- memories and caches
  scr : SMap Tryte
  chip : SMap Tryte
  dram : List Host.Cell
  llc : List (Nat × LLine)
  ctlbs : SMap (List TlbEntry)
  copyUpdates : List CopyUpdate
  bad : BadWords
  -- tables held on chip
  windows : SMap Word
  counters : SMap Nat
  world : WorldMap
  errata : List Word
  tabWrites : List TabWrite
  barriers : List BarUse
  -- queues
  kernels : List (Int × Kernel)
  spawns : SMap (List Batch)
  polls : SMap Nat
  ready : List ReadyNode
  walkers : List Walker
  knodes : List KNode
  contexts : SMap Ctx
  consumers : SMap Word
  partitions : List ((Nat × Int) × Int)
  rings : List Ring
  unrooted : List (Nat × Nat × List Int)
  mailboxes : SMap Mailbox
  dfqs : List Dfq
  late : List (FaultRec × Region)
  refusals : List ShellRefusal
  copies : List Copy
  arrivals : List (Nat × Arrival)
  marks : List Mark
  -- the host's side
  dieStatus : List Int
  nonce : SMap Byte
  attest : Word
  quote : List Byte
  sign : List Byte
  links : SMap Word
  transfers : List XgTransfer
  irqs : List Nat
  hostReads : List (Option (List Byte))
  xgOut : List (Nat × Nat × List (Option Byte))
  clocks : SMap Nat
  lags : SMap Nat
deriving DecidableEq, Repr

/-- R191, R192: a unit at reset. The stationary descriptor is T9, T9, unscaled. -/
def MatUnit.reset : MatUnit :=
  let d : MatDesc := ⟨⟨9, 0, 0, .saturate⟩, ⟨9, 0, 0, .saturate⟩, false⟩
  { pl0 := ⟨Word.ofInt 0, d, [], [], []⟩, pl1 := ⟨Word.ofInt 0, d, [], [], []⟩, shadowWg := none,
    counter := Word.ofInt 1, pending := [], tiles := [], queue := [], last := (0, 0), olds := [] }

/-- The package at device reset, before boot (R443, Table 5; 27_host_and_package.md R441): every cache, queue and table
empty, every die booting (R436), DRAM with no byte written (R226; log 3). Values the spec does not state are in log 5. -/
def State.reset : State :=
  { agenda := [], turns := 0, free := 0, cur := ⟨⟨0, 0, 0⟩, 0⟩, stamp := 0, nextId := 0, time := 0,
    wgs := [], groups := [], cores := [], units := [], scr := [], chip := [], dram := [], llc := [], ctlbs := [],
    copyUpdates := [], bad := ⟨[], [], []⟩, windows := [], counters := [], world := ⟨[], [], []⟩,
    errata := [Word.ofInt 0, Word.ofInt 0, Word.ofInt 0], tabWrites := [], barriers := [], kernels := [], spawns := [], polls := [], ready := [], walkers := [],
    knodes := [], contexts := [], consumers := [], partitions := [], rings := [], unrooted := [], mailboxes := [], dfqs := [], late := [], refusals := [], copies := [],
    arrivals := [], marks := [], dieStatus := [1, 1, 1, 1], nonce := [], attest := Word.ofInt 0, quote := [],
    sign := [], links := [], transfers := [], irqs := [], hostReads := [], xgOut := [], clocks := [], lags := [] }

end Sys2Proof.Machine
end

