-- ==== Sys2Proof/Machine/Store.lean ====
section
/-! DEFINITION. Storage below the caches' tags: DRAM bytes and slots (02_narrow_and_packed.md R44 to R48), counters
(19_counters.md), the last-level caches of the dies with their copies (10_memories.md R225, R241; 11_memory_model.md
R256, R257) and coded blocks (13_coded_regions.md R300 to R306). Memory operations answer the cause of their failure or
the next state and a value. -/

namespace Sys2Proof.Machine

/-- Trits lo..hi of an integer. -/
def fld (v : Int) (lo hi : Nat) : Int := wrapInt (hi - lo + 1) (dropInt lo v)

def zeroT : Tryte := Tryte.ofInt 0
def zeroW : Word := Word.ofInt 0

/-! ## Lists -/

/-- Replaces element n by its image. -/
def updAt {α : Type} (xs : List α) (n : Nat) (f : α → α) : List α :=
  match xs, n with
  | [], _ => []
  | x :: xs, 0 => f x :: xs
  | x :: xs, n + 1 => x :: updAt xs n f

/-- The first index whose element meets a test. -/
def indexOf? {α : Type} (p : α → Bool) : List α → Option Nat
  | [] => none
  | x :: xs => if p x then some 0 else (indexOf? p xs).map (· + 1)

/-- A list without element n. -/
def dropAt {α : Type} (xs : List α) (n : Nat) : List α := xs.take n ++ xs.drop (n + 1)

/-- Takes the longest head of a list that a step accepts, threading a state. -/
def foldE {α σ ε : Type} (f : σ → α → Except ε σ) : σ → List α → Except ε σ
  | s, [] => .ok s
  | s, x :: xs =>
    match f s x with
    | .ok s' => foldE f s' xs
    | .error e => .error e

/-! ## Cores and counters -/

def coreIdx (c : CoreRef) : Nat := (c.die * 27 + c.cluster) * 9 + c.core
def coreClu (c : CoreRef) : Nat := c.die * 27 + c.cluster
/-- R2, R445: the cycles that an island has counted: those of the nominal clock, less what it is behind. -/
def State.cycles (s : State) (island : Nat) : Nat := (9 * s.time - s.lags.get 0 island) / 9
/-- The die of a core index. -/
def coreDie (core : Nat) : Nat := core / 243

def State.coreAt (s : State) (core : Nat) : CoreState := s.cores.get .empty core
def State.updCore (s : State) (core : Nat) (f : CoreState → CoreState) : State :=
  { s with cores := s.cores.set .empty core (f (s.coreAt core)) }

/-- R423: the largest value of a counter. -/
def counterMax : Nat := 3812798742493

def counterKey (kind die inst : Nat) : Nat := (kind * 4 + die) * 512 + inst
def State.counter (s : State) (kind die inst : Nat) : Nat := s.counters.get 0 (counterKey kind die inst)
/-- R423: a counter rises and saturates. -/
def State.bump (s : State) (kind die inst n : Nat) : State :=
  { s with counters := s.counters.set 0 (counterKey kind die inst) (min counterMax (s.counter kind die inst + n)) }

def ProgCounter.off : ProgCounter := ⟨zeroW, none, 0⟩

/-- R429: whether a selector admits an event of a context's work. -/
def ProgCounter.admits (p : ProgCounter) (code : Nat) (ctx : Option Nat) : Bool :=
  p.sel.trit 7 == 1 && fld p.sel.val 0 5 == code && (p.sel.trit 6 != 1 || (p.owner.isSome && p.owner == ctx))

/-- R429: an event of Table 4 on a core, for work of a context or of none. -/
def State.progEvent (s : State) (core code : Nat) (ctx : Option Nat) : State :=
  let ps := (s.coreAt core).progs
  if ps.any (fun e => e.2.admits code ctx) then
    let step (e : Nat × ProgCounter) : Nat × ProgCounter :=
      if e.2.admits code ctx then (e.1, { e.2 with value := min counterMax (e.2.value + 1) }) else e
    s.updCore core fun c => { c with progs := ps.map step }
  else s

/-- R429: an event that concerns work of several contexts: a counter counts it once, where its filter admits one of them. -/
def State.progEventOf (s : State) (core code : Nat) (ctxs : List Nat) : State :=
  let step (e : Nat × ProgCounter) : Nat × ProgCounter :=
    if ctxs.any fun c => e.2.admits code (some c) then (e.1, { e.2 with value := min counterMax (e.2.value + 1) }) else e
  s.updCore core fun c => { c with progs := c.progs.map step }

/-! ## Free values (log 2) -/

/-- A free choice among 0..k-1. -/
def State.pick (s : State) (k : Nat) : Nat × State :=
  (Config.freeNat s.free k % max k 1, { s with free := s.free + 1 })

def State.flip (s : State) : Bool × State := (Config.freeBool s.free, { s with free := s.free + 1 })

/-! ## DRAM -/

/-- The key of a byte of a tier of a die. -/
def dramKey (die : Nat) (lp : Bool) (byte : Nat) : Nat := (2 * die + if lp then 1 else 0) * 2 ^ 40 + byte

def State.dramAt (s : State) (die : Nat) (lp : Bool) (byte : Nat) : Option Byte := SMap.find? s.dram (dramKey die lp byte)

/-- R226: a byte of DRAM as a window reads it; one never written has its power-on value. -/
def State.dramByte (s : State) (die : Nat) (lp : Bool) (byte : Nat) : Byte :=
  (s.dramAt die lp byte).getD (Config.powerOnByte (dramKey die lp byte))

/-- Lists consecutive values in a sorted map in one pass. -/
def SMap.insertRun {α : Type} : SMap α → Nat → List α → SMap α
  | [], n, xs => (List.range xs.length).zipWith (fun i x => (n + i, x)) xs
  | (k, v) :: rest, n, xs =>
    if k < n then (k, v) :: SMap.insertRun rest n xs
    else ((List.range xs.length).zipWith (fun i x => (n + i, x)) xs) ++
      ((k, v) :: rest).filter fun e => decide (e.1 < n) || decide (n + xs.length ≤ e.1)

def State.writeDram (s : State) (die : Nat) (lp : Bool) (byte : Nat) (bytes : List Byte) : State :=
  { s with dram := SMap.insertRun s.dram (dramKey die lp byte) bytes }

/-- Capacity in slot lines of a tier of a die (R231). -/
def tierLines (lp : Bool) : Nat := if lp then 3200000000 else 1200000000
/-- Capacity in bytes (R419). -/
def tierBytes (lp : Bool) : Nat := if lp then 512000000000 else 192000000000

/-- R427: the counters of one burst on a channel. Activates, row conflicts and refresh stalls rest on DRAM state that
the spec does not give: free. -/
def State.burst (s : State) (die chan : Nat) (write : Bool) : State :=
  let s := s.bump (if write then 5 else 4) die chan 1
  let act := Config.freeBool s.free
  let confl := Config.freeBool (s.free + 1)
  let stall := Config.freeBool (s.free + 2)
  let s := { s with free := s.free + 3 }
  let s := s.bump 3 die chan (if act then 1 else 0)
  let s := s.bump 1 die chan (if act && confl then 1 else 0)
  s.bump 2 die chan (if stall then 1 else 0)

/-- R47, R226: the cause of a slot with a byte that nothing has written, where its written bytes settle it: an unused byte
code or a wrong kind among them gives 14, and valid codes with the right kind leave the check code alone to fail. -/
def unwrittenFault (bytes : List (Option Nat)) (kind : Nat) : Option Nat :=
  let above (top : Nat) (b : Option Nat) : Bool := (b.map fun v => decide (top < v)).getD false
  let byte := bytes.getD 146 none
  if (bytes.take 145).any (above 242) || above 80 (bytes.getD 145 none) || (byte.map fun m => m % 4 != kind).getD false then some 14
  else if (bytes.take 146).all Option.isSome && byte.isSome then some 15
  else none

/-- R47, R226: the line of a slot, or the cause of its refusal. -/
def State.readSlot (s : State) (die : Nat) (lp : Bool) (slot kind : Nat) : Except Nat (List Int) :=
  let bytes := (List.range 160).map fun i => s.dramAt die lp (160 * slot + i)
  if bytes.any Option.isNone then
    .error ((unwrittenFault (bytes.map fun b => b.map (·.toNat)) kind).getD
      (if Config.powerOnUnused (dramKey die lp (160 * slot)) then 14 else 15))
  else
    let ns := bytes.map fun b => (b.getD 0).toNat
    match slotFault ns kind with
    | some c => .error c
    | none => .ok (slotLine ns)

/-- R48: a slot written whole. -/
def State.writeSlot (s : State) (die : Nat) (lp : Bool) (slot kind : Nat) (line : List Int) : State :=
  s.writeDram die lp (160 * slot) ((slotBytes line kind).map (BitVec.ofNat 8))

/-! ## Lines of the last-level caches -/

/-- The trytes that a last-level line holds: a packed line, a decoded block of three (R300), or the bytes of a slot line. -/
def lineLen (k : LineKey) : Nat := if k.bytes then 160 else if k.coded then 243 else 81

/-- The lines of a last-level cache that a line or block takes (R217, R300). -/
def lineCount (k : LineKey) : Nat := if k.coded then 3 else 1

/-- R241, R300: the line of a block that a tryte falls in; a packed line and a slot line are one line. -/
def lineThird (k : LineKey) (t : Nat) : Nat := if k.coded then t / 81 else 0

/-- R225: the slice of a die's last-level cache that holds a line. -/
def LineKey.slice (k : LineKey) : Nat := Config.slice (dramKey k.die k.lpddr k.slot) % 192

/-- The caches that hold a line: a coded block is held at its home die alone (R300). -/
def lineDie (k : LineKey) (die : Nat) : Nat := if k.coded then k.die else die

def State.llcFind (s : State) (die : Nat) (k : LineKey) : Option LLine :=
  (s.llc.find? fun e => e.1 == die && e.2.key == k).map (·.2)

def State.llcPut (s : State) (die : Nat) (l : LLine) : State :=
  if s.llc.any (fun e => e.1 == die && e.2.key == l.key) then
    { s with llc := s.llc.map fun e => if e.1 == die && e.2.key == l.key then (die, l) else e }
  else { s with llc := s.llc ++ [(die, l)] }

def State.llcDrop (s : State) (die : Nat) (k : LineKey) : State :=
  { s with llc := s.llc.filter fun e => !(e.1 == die && e.2.key == k) }

/-- A line with no content yet, as an access names it. -/
def LinePlace.blank (p : LinePlace) : LLine :=
  { key := p.key, trytes := List.replicate (lineLen p.key) zeroT, dirty := false, bad := [], chan := p.chan, shape := p.shape,
    tab := p.tab, entry := p.entry, ctx := p.ctx }

/-- R52, R226: the bytes of a slot line, as the entries of a line of bytes. -/
def State.fetchBytesLine (s : State) (p : LinePlace) : State × LLine :=
  let k := p.key
  (s.burst k.die p.chan false,
    { p.blank with trytes := (List.range 160).map fun i => Tryte.ofInt (s.dramByte k.die k.lpddr (160 * k.slot + i)).toNat })

/-- R427: the bursts of a read of some slots on one channel. -/
def State.readBursts (s : State) (die chan n : Nat) : State := (List.range n).foldl (fun s _ => s.burst die chan false) s

/-- R47, R299: the content of a packed line or a decoded block, validated and read from its slots. -/
def State.fetchSlots (s : State) (p : LinePlace) : Except Nat (State × LLine) := do
  let k := p.key
  let slots ← (List.range k.budget).mapM fun j => s.readSlot k.die k.lpddr (k.slot + j) (if k.coded then 1 else 0)
  let s := s.readBursts k.die p.chan k.budget
  if k.coded then
    match decodeBlock p.shape (tritsOf 9 slots.flatten) with
    | none => .error 14
    | some codes => .ok (s, { p.blank with trytes := (blockTrytes codes).map Tryte.ofInt })
  else .ok (s, { p.blank with trytes := slots.flatten.map Tryte.ofInt })

/-- R47, R52, R299: the content of a line, read from DRAM at its home die. -/
def State.fetchLine (s : State) (p : LinePlace) : Except Nat (State × LLine) :=
  if p.key.bytes then .ok (s.fetchBytesLine p) else s.fetchSlots p

/-- R240: a change of some trytes of a list. -/
def putTrytes (ts : List Tryte) (vals : List (Nat × Tryte)) : List Tryte :=
  vals.foldl (fun ts v => ts.set v.1 v.2) ts

/-- The updates of a line on their way from one die to another. -/
def State.updatesOf (s : State) (src dst : Nat) (k : LineKey) : List (Nat × Tryte) :=
  (s.copyUpdates.filter fun u => u.src == src && u.dst == dst && u.place.key == k).flatMap (·.vals)

/-- Drops the queued values of some trytes from one die to another: a later write takes their place. -/
def State.dropUpdates (s : State) (src dst : Nat) (k : LineKey) (ts : List Nat) : State :=
  { s with copyUpdates := (s.copyUpdates.map fun u =>
      if u.src == src && u.dst == dst && u.place.key == k then
        { u with vals := u.vals.filter fun v => !ts.contains v.1 } else u).filter fun u => !u.vals.isEmpty }

/-- R444, R441: a die with a fatal error, or one that failed its boot. -/
def State.dieDown (s : State) (die : Nat) : Bool := decide (s.dieStatus.getD die 1 < 0)

/-- R424, R427: the bursts of a fill that R47 or R299 refuses: its slots are read all the same. -/
def State.refusedFill (s : State) (p : LinePlace) : State :=
  if s.dieDown p.key.die || p.key.bytes || (s.llcFind p.key.die p.key).isSome then s
  else match s.fetchSlots p with
    | .ok _ => s
    | .error _ => s.readBursts p.key.die p.chan p.key.budget

/-- The dies that hold a copy of a line, but for one. -/
def State.copyDies (s : State) (k : LineKey) (but : Nat) : List Nat :=
  (s.llc.filter fun e => e.2.key == k && e.1 != but).map (·.1)

/-! ### Writes under way (R256, R257, R439) -/

/-- R256, R257: sends values written at a die's copy on their way: to the home die, or from the home die to every copy. -/
def State.sendUpdates (s : State) (die : Nat) (p : LinePlace) (vals : List (Nat × Tryte)) : State :=
  let k := p.key
  let dsts := if die = k.die then s.copyDies k die else [k.die]
  { s with copyUpdates := s.copyUpdates ++ dsts.map fun d => ⟨die, d, p, vals⟩ }

/-- R48: the line that an update is merged into at its home die: the one held, or one that the update covers or that is filled from
DRAM; none where the fill is refused, and the update is lost. -/
def State.homeLine (s : State) (p : LinePlace) (whole : Bool) : Option (State × LLine) :=
  match s.llcFind p.key.die p.key with
  | some l => some (s, l)
  | none => if whole then some (s, p.blank) else (s.fetchLine p).toOption

/-- R257: the n-th update under way reaches its die. At the home die it takes its place in the coherence order: older
values on their way to the writer are dropped, and the other copies are sent it. At another die, a tryte with a write of that
die still under way keeps it. DESIGN CHOICE (log 61): an update of the whole line clears the home die's bad mark, and another die's
copy that is held bad keeps its own (R241). -/
def State.applyUpdate (s : State) (n : Nat) : State :=
  match s.copyUpdates[n]? with
  | none => s
  | some u =>
    let k := u.place.key
    let s := { s with copyUpdates := dropAt s.copyUpdates n }
    if u.dst = k.die then
      let whole := (List.range (lineLen k)).all fun t => u.vals.any fun v => v.1 == t
      match s.homeLine u.place whole with
      | none => s
      | some (s, l) =>
        let bad := if whole then [] else l.bad
        let s := s.llcPut k.die { l with trytes := putTrytes l.trytes u.vals, dirty := true, bad := bad }
        let s := s.dropUpdates k.die u.src k (u.vals.map (·.1))
        let dsts := (s.copyDies k k.die).filter (· != u.src)
        { s with copyUpdates := s.copyUpdates ++ dsts.map fun d => ⟨k.die, d, u.place, u.vals⟩ }
    else
      match s.llcFind u.dst k with
      | none => s
      | some l =>
        let own := (s.updatesOf u.dst k.die k).map (·.1)
        s.llcPut u.dst { l with trytes := putTrytes l.trytes (u.vals.filter fun v => !own.contains v.1) }

/-- R439: the oldest update under way on the link of the n-th. -/
def State.firstOnLink (s : State) (n : Nat) : Nat :=
  match s.copyUpdates[n]? with
  | none => n
  | some u => (indexOf? (fun v => v.src == u.src && v.dst == u.dst) s.copyUpdates).getD n

/-- The updates that a test picks arrive, each after those sent before it on its link (R439), within `fuel` arrivals. -/
def drainFuel : Nat → State → (State → Option Nat) → State
  | 0, s, _ => s
  | fuel + 1, s, pick =>
    match pick s with
    | none => s
    | some n => drainFuel fuel (s.applyUpdate (s.firstOnLink n)) pick

/-- The updates that a test of them picks arrive. -/
def State.drainWhere (s : State) (p : CopyUpdate → Bool) : State :=
  drainFuel (4 * s.copyUpdates.length) s fun s => indexOf? p s.copyUpdates

/-- Every last-level copy is brought up to date. -/
def State.drainUpdates (s : State) : State := s.drainWhere fun _ => true

/-- The arrival of every update that a die has under way for a line. -/
def State.drainLine (s : State) (die : Nat) (k : LineKey) : State := s.drainWhere fun u => u.src == die && u.place.key == k

/-- The lines that a release or an acquire acts on, by context and virtual line (R261). -/
abbrev Lines := Nat → Int → Bool

def allLines : Lines := fun _ _ => true

/-- R251, R254: whether the n-th update under way happens before what a die does now: a write of the die, or one that it may have
read, since it is further on the way to the die's own copy than to the update's. -/
def State.metAt (s : State) (die n : Nat) : Bool :=
  match s.copyUpdates[n]? with
  | none => false
  | some u =>
    let home := u.place.key.die
    let left (d t : Nat) (us : List CopyUpdate) : Nat :=
      (us.filter fun v => v.src == home && v.dst == d && v.place.key == u.place.key && v.vals.any fun x => x.1 == t).length
    u.src == die || (u.src == home && (s.llcFind die u.place.key).isSome &&
      u.vals.any fun x => decide (left die x.1 s.copyUpdates < left u.dst x.1 (s.copyUpdates.drop n)))

/-- R250, R251, Table 2: the last-level copies of some dies, and the home dies, receive what happens before a release of a die, of the
lines that it acts on. -/
def State.drainFor (s : State) (die : Nat) (dies : List Nat) (ls : Lines) : State :=
  drainFuel (4 * s.copyUpdates.length) s fun s =>
    (List.range s.copyUpdates.length).find? fun n => s.metAt die n &&
      ((s.copyUpdates[n]?).map fun u =>
        (u.dst == u.place.key.die || dies.contains u.dst) && ls u.place.ctx.num u.place.vline).getD false

/-- What is under way for a line is performed. -/
def State.drainKey (s : State) (k : LineKey) : State := s.drainWhere fun u => u.place.key == k

/-! ### Lines that leave (R301) -/

/-- The bytes of a line of bytes. -/
def LLine.bytes (l : LLine) : List Byte := l.trytes.map fun t => BitVec.ofNat 8 t.val.toNat

/-- R225, R241: a line leaves every last-level cache, but for the copies of other dies that are held bad. -/
def State.llcDropAll (s : State) (k : LineKey) : State :=
  { s with llc := s.llc.filter fun e => !(e.2.key == k && (e.1 == k.die || e.2.bad.isEmpty)) }

/-- R48, R52: a clean or dirty line of a die's last-level cache as it leaves: `none` where it has to stay (it is held bad,
R241, or updates of it are under way). From its home die a line leaves with its copies, so that no copy outlives it, and a dirty one
is written to its slot, or its bytes are; a copy of another die is dropped. A dirty coded block is encoded (State.encodeOut). -/
def State.evictPacked (s : State) (die : Nat) (l : LLine) : Option State :=
  let k := l.key
  if !l.bad.isEmpty || s.copyUpdates.any (fun u => u.place.key == k) then none
  else if die ≠ k.die then some (s.llcDrop die k)
  else if l.dirty && k.bytes then some (((s.writeDram die k.lpddr (160 * k.slot) l.bytes).burst die l.chan true).llcDropAll k)
  else if l.dirty then
    some (((s.writeSlot die k.lpddr k.slot 0 (l.trytes.map (·.val))).burst die l.chan true).llcDropAll k)
  else some (s.llcDropAll k)

/-- R52, R225: what is under way for a line is performed, and the line leaves every last-level cache; at a home die where it is
held bad it stays (R241). -/
def State.flushKey (s : State) (k : LineKey) : State :=
  let s := s.drainKey k
  let s : State := { s with llc := s.llc.filter fun e => !(e.2.key == k && e.1 != k.die && e.2.bad.isEmpty) }
  ((s.llcFind k.die k).bind (s.evictPacked k.die)).getD s

/-- Whether a line of bytes and a packed line have DRAM bytes in common. -/
def LineKey.overlaps (k j : LineKey) : Bool :=
  k.bytes != j.bytes && !k.coded && !j.coded && k.die == j.die && k.lpddr == j.lpddr && k.slot == j.slot

/-- R408: a window and the packed slot that shares its bytes see each other's: the other form of a line leaves every last-level cache
before the line enters one. -/
def State.separate (s : State) (k : LineKey) : State :=
  if s.llc.any fun e => LineKey.overlaps e.2.key k then s.flushKey { k with bytes := !k.bytes } else s

/-! ### Reads and writes at a die (R225) -/

/-- R225: brings a line into the last-level cache of its home die, from DRAM. -/
def State.homeEnsure (s : State) (p : LinePlace) : Except Nat State :=
  if (s.llcFind p.key.die p.key).isSome then .ok s
  else do
    let (s, l) ← (s.separate p.key).fetchLine p
    .ok (s.llcPut p.key.die l)

/-- R225: brings a line into the last-level cache of a die: the home die fills from DRAM, another die from the home die's copy, once
what is under way between the two has arrived (R439). A fill from a line held bad takes cause 15 (R241), and so does one from a die
that is down (R444). -/
def State.llcEnsure (s : State) (die : Nat) (p : LinePlace) : Except Nat State := do
  let home := p.key.die
  let d := lineDie p.key die
  if s.dieDown home then .error 15
  else if (s.llcFind d p.key).isSome then .ok s
  else if d = home then s.homeEnsure p
  else
    let s := (s.drainWhere fun u => u.src == d && u.dst == home)
    let s ← s.homeEnsure p
    let s := s.drainWhere fun u => u.src == home && u.dst == d
    match s.llcFind home p.key with
    | none => .error 15
    | some l => if !l.bad.isEmpty then .error 15 else .ok (s.llcPut d { l with dirty := false })

/-- R225, R241: reads trytes of a line at a die's last-level cache. -/
def State.llcRead (s : State) (die : Nat) (p : LinePlace) (ts : List Nat) : Except Nat (State × List Tryte) := do
  let s ← s.llcEnsure die p
  match s.llcFind (lineDie p.key die) p.key with
  | none => .error 15
  | some l =>
    if ts.any (fun t => l.bad.contains (lineThird p.key t)) then .error 15
    else .ok (s, ts.map fun t => l.trytes.getD t zeroT)

/-- R48: a write of a whole line needs no fill: the line, or the line as the access names it. -/
def State.llcBlank (s : State) (die : Nat) (p : LinePlace) : Except Nat State :=
  if s.dieDown p.key.die then .error 15 else if (s.llcFind (lineDie p.key die) p.key).isSome then .ok s else .ok (s.separate p.key)

/-- R48, R241, R302: writes trytes of a line at a die's last-level cache. A write of the whole line or block needs no fill
and clears a bad mark; any other write to a line held bad takes cause 15. DESIGN CHOICE (log 62): a block stands under the shape, table
and entry of the last access that wrote it here, where accesses through several entries reach it (R305). -/
def State.llcWrite (s : State) (die : Nat) (p : LinePlace) (vals : List (Nat × Tryte)) : Except Nat State := do
  let k := p.key
  let d := lineDie k die
  let whole := (List.range (lineLen k)).all fun t => vals.any fun v => v.1 == t
  let s ← (if whole then s.llcBlank die p else s.llcEnsure die p)
  let l := (s.llcFind d k).getD p.blank
  if !whole && vals.any (fun v => l.bad.contains (lineThird k v.1)) then .error 15
  else
    let l' : LLine :=
      { l with
        trytes := putTrytes l.trytes vals, dirty := true, bad := if whole then [] else l.bad, shape := p.shape,
        tab := p.tab, entry := p.entry, ctx := p.ctx, chan := p.chan }
    .ok ((s.llcPut d l').sendUpdates d p vals)

/-- R280: trytes of a line as an atomic meets them: at the home die, after the issuing die's own earlier writes. -/
def State.homeRead (s : State) (die : Nat) (p : LinePlace) (ts : List Nat) : Except Nat (State × List Tryte) :=
  (if die = p.key.die then s else s.drainLine die p.key).llcRead p.key.die p ts

/-- R280: an atomic's write at the home die; every copy of another die is updated at once. -/
def State.homeWrite (s : State) (p : LinePlace) (vals : List (Nat × Tryte)) : Except Nat State := do
  let s ← s.llcWrite p.key.die p vals
  .ok (s.drainLine p.key.die p.key)

/-- R419: the lines of bytes that meet a span of a tier are written back and leave every last-level cache. -/
def State.dropBytes (s : State) (die : Nat) (lp : Bool) (byte n : Nat) : State :=
  let meets (k : LineKey) : Bool :=
    k.bytes && k.die == die && k.lpddr == lp && decide (160 * k.slot < byte + n) && decide (byte < 160 * (k.slot + 1))
  (((s.llc.map (·.2.key)).filter meets).eraseDups).foldl State.flushKey s

/-! ## Scratchpads (R217 to R222) -/

def scrSize : Nat := 531441
def chipSize : Nat := 14348907
def granule : Nat := 2187

def State.scrGet (s : State) (core off : Nat) : Tryte := s.scr.get zeroT (core * scrSize + off)
def State.scrSet (s : State) (core off : Nat) (v : Tryte) : State :=
  { s with scr := s.scr.set zeroT (core * scrSize + off) v }
def State.chipGet (s : State) (die off : Nat) : Tryte := s.chip.get zeroT (die * chipSize + off)
def State.chipSet (s : State) (die off : Nat) (v : Tryte) : State :=
  { s with chip := s.chip.set zeroT (die * chipSize + off) v }

/-- The canonical form of memory: DRAM, scratchpad and chip keys strictly rise, and no listed tryte is 0, as an unlisted one
reads. DRAM has no default: an unlisted byte holds no value (log 3). -/
def Memory.wf (s : State) : Bool := risingFrom 0 s.dram && SMap.wf zeroT s.scr && SMap.wf zeroT s.chip

/-- R5: the integer of trytes, lowest first. -/
def ofTrytes (ts : List Tryte) : Int := ts.foldr (fun t acc => t.val + 19683 * acc) 0
/-- R5: the trytes of an integer, lowest first. -/
def toTrytes (n : Nat) (v : Int) : List Tryte := (List.range n).map fun j => Tryte.ofInt (dropInt (9 * j) v)

end Sys2Proof.Machine
end

