-- ==== Sys2Proof/Machine/Access.lean ====
section
/-! DEFINITION. Virtual addresses and places: page walks and TLBs (10_memories.md R227 to R239), attribute entries and
windows (18_system_tables.md R401 to R408), structure accesses (R447), the spaces of 12_memory_instructions.md R273, and
the resolution of an element's address into the places of its trytes. -/

namespace Sys2Proof.Machine

/-- On whose behalf an access is made (R234, R402): the die and core that make it, the context, the supervisor trit, the
effective world, and the attribute table of the region. -/
structure Who where
  die : Nat
  core : Option Nat
  ctx : Ctx
  sup : Bool
  world : Trit
  tab : Int
deriving DecidableEq, Repr

/-- R402: accesses of a workgroup's threads, engines and matrix operations are its region's. -/
def Workgroup.who (w : Workgroup) : Who :=
  ⟨w.core.die, some (coreIdx w.core), w.region.ctx, w.region.supervisor, w.region.world, w.region.attrtab⟩

/-- What an access needs (R235). -/
inductive AccKind where
  | read
  | write
  | fetch
  | atomic
deriving DecidableEq, Repr

def AccKind.writes : AccKind → Bool
  | .write => true
  | .atomic => true
  | _ => false

/-- The denial of an access by kind (R218, R229). -/
def AccKind.deny : AccKind → Nat
  | .read => 8
  | .write => 9
  | .fetch => 10
  | .atomic => 9

/-- R438: the dies of a context's presented device, ascending. -/
def Ctx.dies (c : Ctx) : List Nat :=
  if c.mode = 1 then [0, 1, 2, 3] else if c.mode = 2 then [c.first, c.first + 1] else [c.first]

/-! ## Tables and walks -/

/-- The line of a physical tryte address as packed HBM4E storage under channel hash 0 (R230, R231, R447). -/
def tablePlace (c : Ctx) (pa : Int) : Except Nat LinePlace :=
  let ppn := pa / 19683
  let die := ppn / 14348907
  let l := ((ppn % 14348907) * 19683 + pa % 19683) / 81
  if die < 0 ∨ die > 3 ∨ l ≥ (tierLines false : Int) then .error 7
  else .ok { key := ⟨false, die.toNat, false, l.toNat, 1, false⟩, tryte := (pa % 81).toNat, chan := l.toNat % 384, ctx := c,
             vline := 0, l1 := false, shape := .one, tab := 0, entry := 0 }

/-- A word at a place of a line, read at a die's last-level cache. -/
def State.placeWord (s : State) (die : Nat) (p : LinePlace) : Except Nat (State × Int) := do
  let (s, ts) ← s.llcRead die p [p.tryte, p.tryte + 1, p.tryte + 2]
  .ok (s, ofTrytes ts)

/-- The values of a word for a place, tryte by tryte. -/
def LinePlace.vals (p : LinePlace) (n : Nat) (v : Int) : List (Nat × Tryte) :=
  (List.range n).map fun j => (p.tryte + j, Tryte.ofInt (dropInt (9 * j) v))

/-- R230: the part of a page number below a level. -/
def lowPart (pn : Int) (level : Nat) : Int :=
  if level = 3 then 0 else if level = 2 then fld pn 0 5 else fld pn 0 11

/-- The index of a page number at a level. -/
def levelIndex (pn : Int) (level : Nat) : Int :=
  if level = 1 then fld pn 12 17 else if level = 2 then fld pn 6 11 else fld pn 0 5

/-- R401: whether an entry that is a leaf or a next level holds a reserved value. -/
def entryReserved (e : Int) : Bool :=
  if tritAt e 18 = -1 then fld e 19 26 != 0 else (List.range 5).any fun i => tritAt e (19 + i) == -1

/-- R230: the walk from a table at a level on, with `fuel` levels left. -/
def walkFrom : Nat → State → Who → Int → Int → Nat → Except Nat (State × TlbEntry)
  | 0, _, _, _, _, _ => .error 7
  | fuel + 1, s, w, tab, pn, level => do
    let pa := tab + 3 * (levelIndex pn level + 364)
    let p ← tablePlace w.ctx pa
    let (s, e) ← s.placeWord w.die p
    if tritAt e 18 = 0 ∨ entryReserved e then .error 7
    else if tritAt e 18 = -1 then walkFrom fuel s w (fld e 0 17 * 2187) pn (level + 1)
    else if level < 3 ∧ fld e 0 (6 * (3 - level) - 1) ≠ 0 then .error 7
    else .ok (s, ⟨w.ctx.num, pn - lowPart pn level, level, Word.ofInt e, pa⟩)

/-- R228, R230: the walk of a page number. -/
def State.walk (s : State) (w : Who) (pn : Int) : Except Nat (State × TlbEntry) :=
  if pn.natAbs > 193710244 then .error 7 else walkFrom 3 s w w.ctx.root pn 1

/-- R230: the physical tryte address of a virtual one under a leaf. -/
def TlbEntry.pa_ (e : TlbEntry) (va : Int) : Int :=
  let pn := va / 19683
  (fld e.leaf.val 0 17 + lowPart pn e.level) * 19683 + va % 19683

/-- R237: sets a trit of a leaf in memory by compare-and-swap at the coherence point of its line, its home die's; none where
the entry has changed since it was read. -/
def State.setLeaf (s : State) (w : Who) (e : TlbEntry) (i : Nat) : Except Nat (State × Option TlbEntry) := do
  let e' : TlbEntry := { e with leaf := Word.ofInt (e.leaf.val + (1 - tritAt e.leaf.val i) * 3 ^ i) }
  let p ← tablePlace w.ctx e.pa
  let (s, ts) ← s.homeRead w.die p [p.tryte, p.tryte + 1, p.tryte + 2]
  if ofTrytes ts ≠ e.leaf.val then .ok (s, none)
  else do
    let s ← s.homeWrite p (p.vals 3 e'.leaf.val)
    .ok (s, some e')

/-- Whether a leaf as it stands takes a trit: accessed where it reads 0, dirty where it also admits writes (R237). -/
def TlbEntry.takes (e : TlbEntry) (i : Nat) : Bool :=
  tritAt e.leaf.val i == 0 && (i != 22 || tritAt e.leaf.val 20 == 1)

/-- R424, R429: a walk made for a core. -/
def State.walkFor (s : State) (w : Who) (pn : Int) : Except Nat (State × TlbEntry) :=
  (match w.core with
    | some core => s.progEvent core 8 (some w.ctx.num)
    | none => s).walk w pn

/-- R237: the leaf of a page with a trit set. An update that meets a changed entry is abandoned and the page walked again,
once the writes under way have reached the walker's die (log 49). -/
def State.markLeaf (s : State) (w : Who) (pn : Int) (e : TlbEntry) (i : Nat) : Except Nat (State × TlbEntry) := do
  if !e.takes i then .ok (s, e)
  else do
    let (s, r) ← s.setLeaf w e i
    match r with
    | some e => .ok (s, e)
    | none => do
      let (s, e) ← s.drainUpdates.walkFor w pn
      if !e.takes i then .ok (s, e)
      else do
        let (s, r) ← s.setLeaf w e i
        .ok (s, r.getD e)

/-! ## Structure accesses (R447) -/

/-- The place of a structure's tryte: translated by the tables of its context, packed HBM4E under hash 0. -/
def State.structPlace (s : State) (w : Who) (va : Int) : Except Nat (State × LinePlace) := do
  let (s, e) ← s.walk w (va / 19683)
  let p ← tablePlace w.ctx (e.pa_ va)
  .ok (s, p)

/-- n words of a structure. -/
def State.structRead (s : State) (w : Who) (va : Int) : Nat → Except Nat (State × List Int)
  | 0 => .ok (s, [])
  | n + 1 => do
    let (s, p) ← s.structPlace w va
    let (s, v) ← s.placeWord w.die p
    let (s, vs) ← State.structRead s w (va + 3) n
    .ok (s, v :: vs)

/-- The words of a structure from an address, one line at a time, so that whole lines need no fill (R48). -/
def State.structWriteFuel : Nat → State → Who → Int → List Int → Except Nat State
  | 0, s, _, _, _ => .ok s
  | _ + 1, s, _, _, [] => .ok s
  | fuel + 1, s, w, va, vs => do
    let (s, p) ← s.structPlace w va
    let n := (81 - p.tryte) / 3
    let now := vs.take n
    let vals := (List.range now.length).flatMap fun i => { p with tryte := p.tryte + 3 * i }.vals 3 (now.getD i 0)
    let s ← s.llcWrite w.die p vals
    State.structWriteFuel fuel s w (va + 81 - p.tryte) (vs.drop n)

def State.structWrite (s : State) (w : Who) (va : Int) (vs : List Int) : Except Nat State :=
  State.structWriteFuel (vs.length + 1) s w va vs

/-- Who makes a structure access on a die for a context (R413, R447). -/
def structWho (die : Nat) (c : Ctx) : Who := ⟨die, none, c, true, .pos, 0⟩

/-! ## TLBs (R238) -/

def tlbMatch (ctx : Nat) (pn : Int) (e : TlbEntry) : Bool := e.ctx == ctx && e.page == pn - lowPart pn e.level

/-- The leaf that a core's TLB, or its cluster's, holds for a page. -/
def State.coreTlb (s : State) (core ctx : Nat) (pn : Int) : Option TlbEntry := (s.coreAt core).tlb.find? (tlbMatch ctx pn)
def State.cluTlb (s : State) (core ctx : Nat) (pn : Int) : Option TlbEntry :=
  (s.ctlbs.get [] (core / 9)).find? (tlbMatch ctx pn)
def State.tlbFind (s : State) (core ctx : Nat) (pn : Int) : Option TlbEntry := s.coreTlb core ctx pn <|> s.cluTlb core ctx pn

/-- A list that holds at most `cap` entries takes one more; a free one leaves it when it is full. -/
def State.addCapped {α : Type} (s : State) (cap : Nat) (xs : List α) (x : α) : List α × State :=
  if xs.length < cap then (xs ++ [x], s)
  else
    let (i, s) := s.pick xs.length
    (dropAt xs i ++ [x], s)

/-- Two leaves of the same pages. -/
def TlbEntry.samePages (a b : TlbEntry) : Bool := a.ctx == b.ctx && a.page == b.page && a.level == b.level

/-- A leaf enters a core's TLB, in place of what it held for its pages. -/
def State.coreEnter (s : State) (core : Nat) (e : TlbEntry) : State :=
  let (a, s) := s.addCapped 729 ((s.coreAt core).tlb.filter fun x => !x.samePages e) e
  s.updCore core fun c => { c with tlb := a }

/-- A leaf enters the core's and the cluster's TLB. -/
def State.tlbEnter (s : State) (core : Nat) (e : TlbEntry) : State :=
  let s := s.coreEnter core e
  let (b, s) := s.addCapped 19683 ((s.ctlbs.get [] (core / 9)).filter fun x => !x.samePages e) e
  { s with ctlbs := s.ctlbs.set [] (core / 9) b }

/-- Two readings of one leaf, but for its accessed and dirty trits. -/
def sameLeaf (a b : TlbEntry) : Bool :=
  a.level == b.level && wrapInt 22 a.leaf.val == wrapInt 22 b.leaf.val && fld a.leaf.val 24 26 == fld b.leaf.val 24 26

/-- R237, R238: a walked leaf enters the TLBs of a core, with its accessed trit set. -/
def State.enterLeaf (s : State) (w : Who) (core : Nat) (pn : Int) (e : TlbEntry) : Except Nat (State × TlbEntry) := do
  let (s, e) ← s.markLeaf w pn e 23
  .ok (s.tlbEnter core e, e)

/-- R238: the leaf of a page of which a TLB holds one: the held one, or where memory has changed since, either (free). -/
def State.leafHeld (s : State) (w : Who) (core : Nat) (pn : Int) (e : TlbEntry) : Except Nat (State × TlbEntry) :=
  match s.walkFor w pn with
  | .ok (s', e') =>
    if sameLeaf e e' then .ok (s, e)
    else
      let (old, s) := s.flip
      if old then .ok (s, e) else { s' with free := s.free }.enterLeaf w core pn e'
  | .error c =>
    let (old, s) := s.flip
    if old then .ok (s, e) else .error c

/-- R238: the leaf of a page, from the core's TLB, else the cluster's, which it then enters the core's from, else by a walk. An
agent of no core walks. -/
def State.leafOf (s : State) (w : Who) (pn : Int) : Except Nat (State × TlbEntry) :=
  match w.core with
  | none => s.walk w pn
  | some core =>
    match s.coreTlb core w.ctx.num pn with
    | some e => s.leafHeld w core pn e
    | none =>
      let s := s.progEvent core 7 (some w.ctx.num)
      match s.cluTlb core w.ctx.num pn with
      | some e => (s.coreEnter core e).leafHeld w core pn e
      | none => do
        let (s, e) ← s.walkFor w pn
        s.enterLeaf w core pn e

/-- R272: the alignment of an access by its length. -/
def aligned (len : Nat) (addr : Int) : Bool := len == 1 || addr % (len : Int) == 0

/-- R239, R424, R429: what is left of the translation of an access that is refused: the events of its walk; a leaf that was walked
stays in the TLBs with its accessed trit set (DESIGN CHOICE, log 63: R237 and R238 do not say so of an access that a later check
refuses). An access that is refused without a walk leaves nothing (R229, R235). -/
def State.refusedAccess (s : State) (w : Who) (len : Nat) (va : Int) : State :=
  if !aligned len va || (decide (va < 0) && !w.sup) then s
  else match s.leafOf w (va / 19683), w.core with
    | .ok (s, _), _ => s
    | .error _, none => s
    | .error _, some core =>
      (if (s.coreTlb core w.ctx.num (va / 19683)).isSome then s else s.progEvent core 7 (some w.ctx.num)).progEvent core 8
        (some w.ctx.num)

/-- Whether an access is refused by the walk of its page. -/
def State.walkFails (s : State) (w : Who) (len : Nat) (va : Int) : Bool :=
  aligned len va && (decide (0 ≤ va) || w.sup) && !(s.leafOf w (va / 19683)).toBool

/-- R237: the leaf a store uses, its dirty trit set first; a leaf that has changed in memory is walked again. -/
def State.leafForWrite (s : State) (w : Who) (pn : Int) (e : TlbEntry) : Except Nat (State × TlbEntry) :=
  if tritAt e.leaf.val 22 ≠ 0 then .ok (s, e)
  else do
    let (s, e') ← s.walkFor w pn
    let (s, e'') ← s.markLeaf w pn e' 22
    match w.core with
    | some core => s.enterLeaf w core pn e''
    | none => .ok (s, e'')

/-! ## Attribute entries (R403 to R406) -/

inductive Kind where
  | packed
  | coded
  | window
deriving DecidableEq, Repr

structure Attr where
  kind : Kind
  l1 : Bool
  world : Int
  window : Nat
  shape : BlockShape
  budget : Nat
  hash : Nat
  lp : Bool
deriving DecidableEq, Repr

/-- R403, R404: the fields of an attribute entry, none where it is unusable. -/
def attrOf (e : Int) : Option Attr :=
  let win := fld e 18 21
  let shape := fld e 16 17
  let budget := fld e 14 15
  let hash := fld e 12 13
  let tier := tritAt e 11
  let kind := fld e 9 10
  if tritAt e 26 ≠ 1 ∨ fld e 24 25 ≠ 0 ∨ tritAt e 23 = -1 ∨ fld e 0 8 ≠ 0 ∨ tier = -1 then none
  else
    let a : Attr := ⟨.packed, tritAt e 23 == 0, tritAt e 22, win.toNat, .one, 1, (hash + 4).toNat, tier == 1⟩
    if kind = 0 then (if win = 0 ∧ shape = 0 ∧ budget = 0 then some a else none)
    else if kind = 1 then
      if win = 0 ∧ 1 ≤ budget ∧ budget ≤ 3 ∧ -1 ≤ shape ∧ shape ≤ 1 then
        some { a with kind := .coded, budget := budget.toNat,
                      shape := if shape = 0 then .one else if shape = 1 then .two else .three }
      else none
    else if kind = -1 then
      (if 0 ≤ win ∧ win ≤ 26 ∧ tier = 0 ∧ hash = 0 ∧ shape = 0 ∧ budget = 0 then some { a with kind := .window } else none)
    else none

/-- R404, R406: an attribute entry, from the core's copy or from the table. -/
def State.attrEntry (s : State) (w : Who) (i : Nat) : Except Nat (State × Int) :=
  let held : Option AttrCopy := match w.core with
    | some core => (s.coreAt core).attrs.find? fun a => a.tab == w.tab && a.index == i
    | none => none
  match held with
  | some a => .ok (s, a.word.val)
  | none => do
    let (s, vs) ← s.structRead { w with core := none } (w.tab + 3 * i) 1
    let v := vs.headD 0
    match w.core with
    | some core => .ok (s.updCore core (fun c => { c with attrs := c.attrs ++ [⟨w.tab, i, Word.ofInt v⟩] }), v)
    | none => .ok (s, v)

/-! ## Channel hashes (R405) -/

def chanCount (lp : Bool) : Nat := if lp then 24 else 384
def skew (lp : Bool) (x : Nat) : Nat :=
  let c := chanCount lp
  (x + x / c + x / (c * c)) % c

/-- R405, Table 3: the channel of line l, counted from 384 for the LPDDR tier. -/
def chanOf (hash : Nat) (lp : Bool) (l : Nat) : Nat :=
  let c := chanCount lp
  let n := match hash with
    | 0 => l % c
    | 1 => l / 3 % c
    | 2 => l / 243 % c
    | 3 => skew lp l
    | 4 => skew lp (l / 3)
    | 5 => l % c
    | 6 => l / 243 % c
    | 7 => skew lp l
    | _ => l / 3 % c
  if lp then 384 + n else n

/-- R233, R405: the home die of line l with candidate c. -/
def homeOf (ctx : Ctx) (hash c l : Nat) : Except Nat Nat :=
  if hash < 5 then .ok c
  else if ctx.mode = 4 then .error 7
  else
    let g := if hash = 6 then 243 else if hash = 8 then 3 else 1
    match indexOf? (· == c) ctx.dies with
    | none => .error 7
    | some i => .ok (ctx.dies.getD ((i + l / g) % ctx.dies.length) c)

/-- R231, R288: the place of a packed or coded page's tryte. -/
def decodeLine (w : Who) (a : Attr) (entry : Nat) (pa va : Int) : Except Nat LinePlace := do
  let ppn := pa / 19683
  let off := (pa % 19683).toNat
  let c := ppn / 14348907
  let q := (ppn % 14348907).toNat
  let coded := a.kind == .coded
  let l := if coded then (q * 81 + off / 243) * a.budget else (q * 19683 + off) / 81
  if c < 0 ∨ c > 3 ∨ l + a.budget > tierLines a.lp then .error 7
  else
    let die ← homeOf w.ctx a.hash c.toNat l
    .ok { key := ⟨coded, die, a.lp, l, a.budget, false⟩, tryte := if coded then off % 243 else off % 81,
          chan := chanOf a.hash a.lp l, ctx := w.ctx, vline := va / 81, l1 := a.l1, shape := a.shape, tab := w.tab,
          entry := entry }

/-- R413: whether a slot line of a tier lies in its secure carve-out. -/
def State.inCarve (s : State) (die : Nat) (lp : Bool) (slot : Nat) : Bool :=
  match s.world.carves.find? (2 * die + if lp then 1 else 0) with
  | some (lo, hi) => decide (lo ≤ slot) && decide (slot < hi)
  | none => false

/-! ## Windows (R407, R408, R49) -/

def viewOf : Int → Option View
  | 0 => some .i8
  | 1 => some .u8
  | 2 => some .i16
  | 3 => some .u16
  | 4 => some .bf16
  | 5 => some .i32
  | 6 => some .fp32
  | 7 => some .fp64
  | _ => none

/-- R49, Table 11: bytes of an element. -/
def View.s : View → Nat
  | .i8 => 1
  | .u8 => 1
  | .i16 => 2
  | .u16 => 2
  | .bf16 => 2
  | .i32 => 4
  | .fp32 => 4
  | .fp64 => 8

/-- R49, Table 11: trytes of an element. -/
def View.g : View → Nat
  | .i32 => 3
  | .fp32 => 3
  | .fp64 => 9
  | _ => 1

structure Window where
  ctx : Int
  world : Int
  valid : Bool
  die : Nat
  lp : Bool
  view : View
  base : Nat
  len : Nat
deriving DecidableEq, Repr

/-- R407: the fields of a descriptor, none where one is reserved or out of its range. -/
def windowOf (w0 w1 w2 : Int) : Option Window :=
  match viewOf (fld w0 0 3) with
  | none => none
  | some v =>
    let die := fld w0 9 10
    let lp := tritAt w0 8 == 1
    if fld w0 22 26 ≠ 0 ∨ fld w0 4 7 ≠ 0 ∨ tritAt w0 11 = -1 ∨ tritAt w0 8 = -1 ∨ die < 0 ∨ die > 3 ∨ w1 < 0 ∨
        w1 % 8 ≠ 0 ∨ w2 < 0 ∨ w2 % (v.s : Int) ≠ 0 ∨ w1 + w2 > (tierBytes lp : Int) then none
    else some ⟨fld w0 13 21, tritAt w0 12, tritAt w0 11 == 1, die.toNat, lp, v, w1.toNat, w2.toNat⟩

def State.window (s : State) (n : Nat) : Option Window :=
  windowOf (s.windows.get zeroW (3 * n)).val (s.windows.get zeroW (3 * n + 1)).val (s.windows.get zeroW (3 * n + 2)).val

/-! ## Translation (R235) -/

/-- R234, R413: the world check of step 4. -/
def worldOk (w : Who) (attrWorld : Int) (carved : Bool) : Bool := !(w.world == .neg && (attrWorld == 1 || carved))

/-- R235 step 5. -/
def permOk (leaf : Int) (k : AccKind) : Option Nat :=
  match k with
  | .read => if tritAt leaf 21 = 1 then none else some 8
  | .write => if tritAt leaf 20 = 1 then none else some 9
  | .fetch => if tritAt leaf 19 = 1 then none else some 10
  | .atomic => if tritAt leaf 21 ≠ 1 then some 8 else if tritAt leaf 20 ≠ 1 then some 9 else none

/-- R52: the place of a byte of a tier in the line of bytes that holds it. -/
def bytePlace (c : Ctx) (die : Nat) (lp : Bool) (byte : Nat) : LinePlace :=
  { key := ⟨false, die, lp, byte / 160, 1, true⟩, tryte := byte % 160, chan := chanOf 0 lp (byte / 160), ctx := c, vline := 0,
    l1 := false, shape := .one, tab := 0, entry := 0 }

/-- The byte of its tier that a place of a line of bytes stands for. -/
def LinePlace.byte (p : LinePlace) : Nat := 160 * p.key.slot + p.tryte

/-- What a leaf and its attribute entry make of an access of `len` trytes: the place of its first tryte, with the world of
the storage and whether it lies in a carve-out. Every tryte of it lies in a window's extent (R232, R408). -/
def State.placeOf (s : State) (w : Who) (e : TlbEntry) (len : Nat) (va : Int) : Except Nat (State × Place × Int × Bool) := do
  let entry := (fld e.leaf.val 24 26 % 27).toNat
  let (s, word) ← s.attrEntry w entry
  match attrOf word with
  | none => .error 7
  | some a =>
    if a.kind = .window then
      match s.window a.window with
      | none => .error 7
      | some win =>
        let off := e.pa_ va
        if !win.valid ∨ (win.ctx ≠ -1 ∧ win.ctx ≠ w.ctx.num) ∨ !w.ctx.dies.contains win.die ∨ off < 0 ∨
            off + (len : Int) > (win.len / win.view.s * win.view.g : Nat) then .error 7
        else
          let i := off.toNat / win.view.g
          let byte := win.base + i * win.view.s
          let last := win.base + (off.toNat + len - 1) / win.view.g * win.view.s
          .ok (s, .window (bytePlace w.ctx win.die win.lp byte) win.view (off.toNat % win.view.g), win.world,
            s.inCarve win.die win.lp (byte / 160) || s.inCarve win.die win.lp (last / 160))
    else do
      let p ← decodeLine w a entry (e.pa_ va) va
      .ok (s, .line p, a.world, (List.range p.key.budget).any fun j => s.inCarve p.key.die p.key.lpddr (p.key.slot + j))

/-- R235 steps 2 to 5 for `len` trytes of virtual memory. -/
def State.translate (s : State) (w : Who) (k : AccKind) (len : Nat) (va : Int) : Except Nat (State × Place) := do
  if va < 0 ∧ !w.sup then .error k.deny
  else
    let (s, e) ← s.leafOf w (va / 19683)
    let (s, p, wd, carved) ← s.placeOf w e len va
    if !worldOk w wd carved then .error 11
    else
      match permOk e.leaf.val k, p, k with
      | some c, _, _ => .error c
      | none, .window .., .atomic => .error 9
      | none, _, _ =>
        if k.writes && tritAt e.leaf.val 22 == 0 then do
          let (s, e') ← s.leafForWrite w (va / 19683) e
          let (s, p, wd, carved) ← s.placeOf w e' len va
          if !worldOk w wd carved then .error 11
          else match permOk e'.leaf.val k with
            | some c => .error c
            | none => .ok (s, p)
        else .ok (s, p)

/-- The places of an aligned access of `len` trytes, from the place of its first tryte (R49, R227). -/
def Place.span (p : Place) (len : Nat) : Except Nat (List Place) :=
  match p with
  | .window q view t =>
    if t ≠ 0 ∨ len % view.g ≠ 0 then .error 12
    else .ok ((List.range len).map fun j =>
      .window (bytePlace q.ctx q.key.die q.key.lpddr (q.byte + j / view.g * view.s)) view (j % view.g))
  | .line q => .ok ((List.range len).map fun j => .line { q with tryte := q.tryte + j })
  | .scr c off => .ok ((List.range len).map fun j => .scr c (off + j))
  | .chip d off => .ok ((List.range len).map fun j => .chip d (off + j))
  | .diverted g c off => .ok ((List.range len).map fun j => .diverted g c (off + j))
  | .desc v => .ok [.desc v]

/-- R273 for virtual memory. DESIGN CHOICE: R49 does not say where among the checks of R235 a window's own alignment stands;
here it comes after steps 2 to 5 (log 50). -/
def State.resolveVirt (s : State) (w : Who) (k : AccKind) (len : Nat) (va : Int) : Except Nat (State × List Place) := do
  if !aligned len va then .error 12
  else
    let (s, p) ← s.translate w k len va
    let ps ← p.span len
    .ok (s, ps)

/-! ## Scratchpad spaces (R218 to R222) -/

/-- R218: the trytes of a workgroup's run. -/
def Workgroup.runLen (w : Workgroup) : Nat := w.grans * granule
/-- R219, Table 2: tryte t of the nine of the descriptor. -/
def Workgroup.descTryte (w : Workgroup) (t : Nat) : Tryte :=
  let v : Nat := if t < 3 then w.kernel.scratch else if t < 6 then w.runLen else w.gran * granule
  Tryte.ofInt (dropInt (9 * (t % 3)) v)

/-- Whether a place is in the run of a workgroup. -/
def Workgroup.ownsPlace (w : Workgroup) (p : Place) : Bool :=
  match p with
  | .scr c o => c == coreIdx w.core && decide (w.gran * granule ≤ o) && decide (o < (w.gran + w.grans) * granule)
  | .diverted g _ _ => g == w.id
  | _ => false

/-- The diversion entry in use that covers an offset of a core (R366). -/
def State.divAt (s : State) (core off : Nat) : Option (Nat × DivEntry) :=
  List.find? (α := Nat × DivEntry) (fun e => decide (e.2.gran * granule ≤ off) && decide (off < (e.2.gran + e.2.grans) * granule)) (s.coreAt core).divs

/-- R366: the diversion entry of a workgroup, where it covers an offset of a core. -/
def State.divOf (s : State) (wg core off : Nat) : Option (Nat × DivEntry) :=
  List.find? (α := Nat × DivEntry) (fun e => e.2.wg == wg && decide (e.2.gran * granule ≤ off) &&
    decide (off < (e.2.gran + e.2.grans) * granule)) (s.coreAt core).divs

/-- R221: whether a granule of a core is held by a resident or exiting workgroup of a context. -/
def State.ownedBy (s : State) (core off ctx : Nat) : Bool :=
  s.wgs.any fun w => w.st != .suspended && coreIdx w.core == core && w.region.ctx.num == ctx &&
    decide (w.gran * granule ≤ off) && decide (off < (w.gran + w.grans) * granule)

/-- The places of `len` trytes of a space from an address, after the checks of R273. `thread` is the thread's number in
its workgroup, for the private space. -/
def State.resolve (s : State) (w : Workgroup) (sp : Space) (thread : Nat) (k : AccKind) (len : Nat) (addr : Int) :
    Except Nat (State × List Place) :=
  let core := coreIdx w.core
  let inRun (off : Int) : Except Nat (State × List Place) := do
    let ps ← (Place.scr core (w.gran * granule + off.toNat)).span len
    .ok (s, ps)
  if !aligned len addr then .error 12
  else match sp with
  | .virt => s.resolveVirt w.who k len addr
  | .scr =>
    if 0 ≤ addr ∧ addr + len ≤ (w.runLen : Int) then inRun addr
    else if -9 ≤ addr ∧ addr + len ≤ 0 ∧ k = .read then
      .ok (s, (List.range len).map fun (j : Nat) => .desc (w.descTryte (addr + 9 + j).toNat))
    else .error k.deny
  | .priv =>
    if 0 ≤ addr ∧ addr + len ≤ (w.kernel.priv : Int) then inRun (w.kernel.scratch + thread * w.kernel.priv + addr)
    else .error k.deny
  | .clu =>
    let c := addr / (scrSize : Int)
    let o := (addr % (scrSize : Int)).toNat
    if c < 0 ∨ c > 8 ∨ o + len > scrSize then .error k.deny
    else
      let target := coreClu w.core * 9 + c.toNat
      match s.divOf w.id target o <|> s.divAt target o with
      | some (_, e) => do
        let ps ← (Place.diverted e.wg target o).span len
        .ok (s, ps)
      | none =>
      if s.ownedBy target o w.region.ctx.num then do
        let ps ← (Place.scr target o).span len
        .ok (s, ps)
      else .error k.deny
  | .chip =>
    let d := addr / (chipSize : Int)
    let o := (addr % (chipSize : Int)).toNat
    match w.region.ctx.grants[d.toNat]?, w.region.ctx.dies[d.toNat]? with
    | some (start, glen), some die =>
      if d < 0 ∨ o + len > glen then .error k.deny
      else do
        let ps ← (Place.chip die (start + o)).span len
        .ok (s, ps)
    | _, _ => .error k.deny

end Sys2Proof.Machine
end

