-- ==== Sys2Proof/Machine/Elem.lean ====
section
/-! DEFINITION. The L1 of a core (10_memories.md R223, R224, R240), conversion at binary windows (02_narrow_and_packed.md
R49 to R53), and reads and writes of the places of an element (12_memory_instructions.md R274 to R278). -/

namespace Sys2Proof.Machine

/-! ## Conversion at windows (R30, R31, R49, Table 11) -/

/-- A byte list as a number below 2^(8n), as two's complement when `signed`. -/
def bytesInt (signed : Bool) (bs : List Byte) : Int :=
  let v : Int := ofLeBytes (bs.map (·.toNat))
  let m : Int := (2 : Int) ^ (8 * bs.length)
  if signed && decide (2 * v ≥ m) then v - m else v

/-- R49: the trytes of a window element's bytes, none where the read is refused. -/
def View.load (v : View) (bs : List Byte) : Option (List Tryte) :=
  let narrow (x : Int) : Option (List Tryte) := if x.natAbs ≤ 9841 then some [Tryte.ofInt x] else none
  let pat := ofLeBytes (bs.map (·.toNat))
  match v with
  | .i8 => narrow (bytesInt true bs)
  | .u8 => narrow (bytesInt false bs)
  | .i16 => narrow (bytesInt true bs)
  | .u16 => narrow (bytesInt false bs)
  | .bf16 =>
    match bf16K.decode pat with
    | .fin p x =>
      let (code, fl) := tf9.roundBin (.fin p x)
      if fl.saturate then none else some [Tryte.ofInt code]
    | _ => none
  | .i32 => some (toTrytes 3 (bytesInt true bs))
  | .fp32 => some (toTrytes 3 (tf27.roundBin (fp32K.decode pat)).1)
  | .fp64 => some (toTrytes 9 (tf81.roundBin (fp64K.decode pat)).1)

/-- n little-endian bytes of an integer, as two's complement. -/
def intBytes (n : Nat) (v : Int) : List Byte := (leBytes n (v % (2 : Int) ^ (8 * n)).toNat).map (BitVec.ofNat 8)

/-- R49: the bytes of a window element's trytes, none where the store is refused. -/
def View.store (v : View) (ts : List Tryte) : Option (List Byte) :=
  let x := ofTrytes ts
  let within (lo hi : Int) (n : Nat) : Option (List Byte) := if lo ≤ x ∧ x ≤ hi then some (intBytes n x) else none
  let float (k : BinKind) (f : Fmt) (n : Nat) : Option (List Byte) :=
    let val := f.decode x
    let (pat, _, _, ovf) := k.round val
    if ovf then none else some ((leBytes n pat).map (BitVec.ofNat 8))
  match v with
  | .i8 => within (-128) 127 1
  | .u8 => within 0 255 1
  | .i16 => some (intBytes 2 x)
  | .u16 => within 0 9841 2
  | .bf16 => float bf16K tf9 2
  | .i32 => within (-(2 ^ 31)) (2 ^ 31 - 1) 4
  | .fp32 => float fp32K tf27 4
  | .fp64 => float fp64K tf81 8

/-- R52: n bytes of a window from a place, at a die's last-level cache. -/
def State.windowBytes (s : State) (die : Nat) (p : LinePlace) (n : Nat) : Except Nat (State × List Byte) := do
  let (s, ts) ← s.llcRead die p ((List.range n).map (p.tryte + ·))
  .ok (s, ts.map fun t => BitVec.ofNat 8 t.val.toNat)

/-- R52: bytes of a window are written from a place on, at a die's last-level cache. -/
def State.putWindow (s : State) (die : Nat) (p : LinePlace) (bs : List Byte) : Except Nat State :=
  s.llcWrite die p (((List.range bs.length).zip bs).map fun e => (p.tryte + e.1, Tryte.ofInt (e.2.toNat : Int)))

/-! ## The L1 (R223, R224) -/

def State.l1Index (s : State) (core ctx : Nat) (vline : Int) : Option Nat :=
  indexOf? (fun l => l.ctx == ctx && l.line == vline) (s.coreAt core).l1

/-- The dirty trytes of a line, as trytes of its last-level line. -/
def L1Line.dirtyVals (l : L1Line) : List (Nat × Tryte) :=
  (List.range 81).filterMap fun i =>
    if l.dirty.getD i false then (l.trytes.getD i none).map fun t => (l.home.tryte + i, t) else none

/-- A fault is charged to a kernel node (R309, Table 2; R311). -/
def State.charge (s : State) (node : Option Nat) (cause : Nat) : State :=
  match node with
  | none => s
  | some n =>
    { s with knodes := s.knodes.map fun k =>
        if k.id == n then
          { k with faults := min maxFaults (k.faults + 1), cause := if k.faults = 0 then cause else k.cause }
        else k }
where
  /-- R309: the fault count saturates. -/
  maxFaults : Nat := 193710244

/-- A fault found after its instruction has completed (R276): it is charged when it is raised, and its record waits until it is
appended. -/
def State.noteLate (s : State) (r : FaultRec) (reg : Region) : State :=
  { s with late := s.late ++ [(r, reg)] }.charge r.node r.cause

/-- R289, R301: the attribute entry of a coded place as it stands, where it names coded storage. -/
def State.codecEntry (s : State) (p : LinePlace) : Option Attr :=
  match s.structRead (structWho p.key.die p.ctx) (p.tab + 3 * p.entry) 1 with
  | .ok (_, v :: _) => (attrOf v).filter fun a => a.kind == .coded
  | _ => none

/-- R405: the die of line l' of a page of which a hash puts line l on a die. -/
def movedDie (c : Ctx) (hash die l l' : Nat) : Nat :=
  if hash < 5 then die
  else
    let g := if hash = 6 then 243 else if hash = 8 then 3 else 1
    let n := Nat.max 1 c.dies.length
    let i := ((indexOf? (· == die) c.dies).getD 0 + n - l / g % n) % n
    c.dies.getD ((i + l' / g) % n) die

/-- R289, R405: a coded place under its entry as it stands: its slots, and the die and channel that they lie on. -/
def State.placeAsIs (s : State) (p : LinePlace) : LinePlace :=
  if !p.key.coded then p
  else match s.codecEntry p with
    | none => p
    | some a =>
      let slot := p.key.slot / Nat.max 1 p.key.budget * a.budget
      { p with key := { p.key with slot := slot, budget := a.budget, die := movedDie p.ctx a.hash p.key.die p.key.slot slot }
               chan := chanOf a.hash p.key.lpddr slot, shape := a.shape }

/-- The words of an L1 line, among those with an error, that hold a dirty tryte (R240). -/
def L1Line.struck (l : L1Line) : List Nat :=
  l.bad.filter fun n => (List.range 3).any fun j => l.dirty.getD (3 * n + j) false

/-- R241: the line of a place is held bad at a die. -/
def State.markBad (s : State) (die : Nat) (p : LinePlace) : State :=
  match s.llcFind (lineDie p.key die) p.key with
  | none => s
  | some x =>
    let third := lineThird p.key p.tryte
    s.llcPut (lineDie p.key die) { x with bad := if x.bad.contains third then x.bad else third :: x.bad }

/-- A lane enters the record of its store; the address is that of the lowest lane. -/
def FaultRec.withLane (r : FaultRec) (lane : Nat) (addr : Int) : FaultRec :=
  if r.lanes.contains lane then r
  else { r with lanes := r.lanes ++ [lane], addr := if r.lanes.all (decide <| lane < ·) then addr else r.addr }

/-- R358: one record for each store and hardware group, with the lanes of its elements. -/
def joinNotes (ns : List StoreNote) : List StoreNote :=
  let same (a b : StoreNote) : Bool := a.id == b.id && a.record.wg == b.record.wg && a.record.hw == b.record.hw
  ns.foldl (fun acc n =>
    if acc.any (same n) then
      acc.map fun m => if same n m then { m with record := m.record.withLane (n.record.lanes.headD 0) n.record.addr } else m
    else acc ++ [n]) []

/-- R48, R285: the records of the stores whose trytes, dirty in an L1 line, are lost to a cause. -/
def State.noteLost (s : State) (l : L1Line) (c : Nat) : State :=
  (joinNotes ((l.by_.filter fun e => l.dirty.getD e.1 false).map (·.2))).foldl (fun s n =>
    s.noteLate { n.record with cause := c, time := s.time } n.region) s

/-- R224, R240, R48: the dirty trytes of line i of an L1 go to the last-level cache, and the line stays valid and clean. A
dirty word with an uncorrectable error marks the last-level line held bad; a refused fill becomes a record of each store
whose trytes are lost. -/
def State.writeBackAt (s : State) (core i : Nat) : State :=
  match (s.coreAt core).l1[i]? with
  | none => s
  | some l =>
    if l.dirtyVals.isEmpty then s
    else
      let die := coreDie core
      let s := (s.updCore core fun c =>
        { c with l1 := updAt c.l1 i fun l => { l with dirty := List.replicate 81 false, by_ := [] } }).progEvent core 6
        (some l.ctx)
      let p := s.placeAsIs l.home
      let done := if l.struck.isEmpty then s.llcWrite die p l.dirtyVals
        else (s.llcEnsure die p).map fun s => s.markBad die p
      match done with
      | .ok s => s
      | .error c => (s.refusedFill p).noteLost l c

def State.l1Remove (s : State) (core i : Nat) : State := s.updCore core fun c => { c with l1 := dropAt c.l1 i }

/-- CWB of one line (R283). -/
def State.cleanLine (s : State) (core ctx : Nat) (vline : Int) : State :=
  match s.l1Index core ctx vline with
  | none => s
  | some i => s.writeBackAt core i

/-- CINV of one line: it is written back and invalidated. -/
def State.flushLine (s : State) (core ctx : Nat) (vline : Int) : State :=
  match s.l1Index core ctx vline with
  | none => s
  | some i => (s.writeBackAt core i).l1Remove core i

/-- CWB of the lines of an L1 among some. -/
def State.cleanLines (s : State) (core : Nat) (ls : Lines) : State :=
  ((List.range (s.coreAt core).l1.length).filter fun i =>
    (((s.coreAt core).l1[i]?).map fun (l : L1Line) => ls l.ctx l.line).getD false).foldl (fun s i => s.writeBackAt core i) s

/-- CWB of every line of an L1. -/
def State.cleanL1 (s : State) (core : Nat) : State := s.cleanLines core allLines

/-- The dirty trytes of an L1 line alone. -/
def L1Line.dirtyOnly (l : L1Line) : L1Line :=
  { l with trytes := (List.range 81).map fun i => if l.dirty.getD i false then l.trytes.getD i none else none }

/-- Of the lines among some, an L1 loses those that are clean, and the clean trytes of the others (R254, R255). -/
def State.dropClean (s : State) (core : Nat) (ls : Lines) : State :=
  s.updCore core fun c => { c with l1 := (c.l1.filter fun l => !ls l.ctx l.line || l.dirty.any (fun b => b)).map fun l =>
    (if ls l.ctx l.line then l.dirtyOnly else l) }

/-- CINV of every line. -/
def State.flushL1 (s : State) (core : Nat) : State := (s.cleanL1 core).updCore core fun c => { c with l1 := [] }

/-- An L1 line leaves: its dirty trytes are written back, and its tag enters the victim array (R318). -/
def State.evictL1 (s : State) (core i : Nat) : State :=
  match (s.coreAt core).l1[i]? with
  | none => s
  | some l =>
    ((s.writeBackAt core i).l1Remove core i).updCore core fun c =>
      { c with victims := (c.victims ++ [(l.ctx, l.line)]).drop ((c.victims.length + 1) - 243) }

/-- R318: the events of an L1 miss. -/
def State.missL1 (s : State) (core ctx : Nat) (vline : Int) : State :=
  let s := s.progEvent core 5 (some ctx)
  if (s.coreAt core).victims.contains (ctx, vline) then
    (s.updCore core fun c => { c with lost := c.lost ++ [s.cycles (core / 9)] }).progEvent core 11 (some ctx)
  else s

/-- A new line for a place enters a core's L1; a free one leaves when it is full. -/
def State.l1Alloc (s : State) (core : Nat) (p : LinePlace) : State :=
  let s := if (s.coreAt core).l1.length < 2187 then s
    else
      let (i, s) := s.pick (s.coreAt core).l1.length
      s.evictL1 core i
  s.updCore core fun c => { c with l1 := c.l1 ++ [{ ctx := p.ctx.num, line := p.vline,
                                                    home := { p with tryte := p.tryte / 81 * 81 },
                                                    trytes := List.replicate 81 none,
                                                    dirty := List.replicate 81 false, bad := [], by_ := [] }] }

/-- The words that n trytes of a line from a place fall in. -/
def wordsOf (p : LinePlace) (n : Nat) : List Nat := ((List.range n).map fun j => (p.tryte % 81 + j) / 3).eraseDups

/-- An L1 line without some of its words, and without their errors. -/
def L1Line.dropWords (l : L1Line) (ws : List Nat) : L1Line :=
  { l with trytes := (List.range 81).map (fun i => if ws.contains (i / 3) then none else l.trytes.getD i none),
           bad := l.bad.filter fun n => !ws.contains n }

/-- R240, R427: a read of words of an L1 line: a dirty word with an uncorrectable error takes cause 15, and a clean one is dropped,
to be filled again, and counted. -/
def State.checkL1 (s : State) (core : Nat) (p : LinePlace) (n : Nat) : Except Nat State :=
  match s.l1Index core p.ctx.num p.vline with
  | none => .ok s
  | some i =>
    match (s.coreAt core).l1[i]? with
    | none => .ok s
    | some l =>
      if l.bad.isEmpty then .ok s
      else if l.struck.any (wordsOf p n).contains then .error 15
      else
        let ws := l.bad.filter (wordsOf p n).contains
        .ok ((s.updCore core fun c => { c with l1 := updAt c.l1 i fun l => l.dropWords ws }).bump 9 (coreDie core) 2 ws.length)

/-- R245: the clean trytes of a place leave the L1 line that holds them, so that the next weak read is no older than a strong
one. -/
def State.l1Forget (s : State) (core : Nat) (p : LinePlace) (n : Nat) : State :=
  match s.l1Index core p.ctx.num p.vline with
  | none => s
  | some i => s.updCore core fun c => { c with l1 := updAt c.l1 i fun l =>
      { l with trytes := (List.range 81).map fun j =>
          if decide (p.tryte % 81 ≤ j) && decide (j < p.tryte % 81 + n) && !(l.dirty.getD j false) then none
          else l.trytes.getD j none } }

/-- The trytes that a core's L1 holds of the line of a place; none where it has no such line. -/
def State.l1Held (s : State) (core : Nat) (p : LinePlace) : List (Option Tryte) :=
  match s.l1Index core p.ctx.num p.vline with
  | some i => ((s.coreAt core).l1[i]?.map fun (l : L1Line) => l.trytes).getD []
  | none => []

/-- What a filled line gives: the line's missing trytes are written where the core's L1 has it, and n trytes from t are
answered. -/
def State.l1Merge (s : State) (core : Nat) (p : LinePlace) (held : List (Option Tryte)) (ts : List Tryte) (n : Nat) :
    State × List Tryte :=
  let t := p.tryte % 81
  match s.l1Index core p.ctx.num p.vline with
  | none => (s, (ts.drop t).take n)
  | some i =>
    let merged := (List.range 81).map fun i => some ((held.getD i none).getD (ts.getD i zeroT))
    (s.updCore core fun c => { c with l1 := updAt c.l1 i fun l => { l with trytes := merged } },
      ((merged.drop t).take n).map fun x => x.getD zeroT)

/-- R275, R223: trytes of one line read through an L1, which fills what it does not hold. -/
def State.l1Read (s : State) (core : Nat) (p : LinePlace) (n : Nat) : Except Nat (State × List Tryte) := do
  let s ← s.checkL1 core p n
  let held := s.l1Held core p
  let want := (List.range n).map fun j => (held.getD (p.tryte % 81 + j) none)
  if want.all Option.isSome then .ok (s, want.map fun x => x.getD zeroT)
  else
    let s := if held.isEmpty then s.missL1 core p.ctx.num p.vline else s
    let (s, ts) ← s.llcRead (coreDie core) p ((List.range 81).map fun i => p.tryte / 81 * 81 + i)
    .ok ((if held.isEmpty then s.l1Alloc core p else s).l1Merge core p held ts n)

/-- R276: a weak store's tryte in an L1 line, marked dirty; the line is not filled. A word written whole holds no error any
more (R240). -/
def State.l1Write (s : State) (core : Nat) (wide : Bool) (p : LinePlace) (v : Tryte) (by_ : Option StoreNote) : State :=
  let s := if (s.l1Index core p.ctx.num p.vline).isSome then s
    else (s.missL1 core p.ctx.num p.vline).l1Alloc core p
  match s.l1Index core p.ctx.num p.vline with
  | none => s
  | some i => s.updCore core fun c => { c with l1 := updAt c.l1 i fun l =>
                { l with trytes := l.trytes.set (p.tryte % 81) (some v), dirty := l.dirty.set (p.tryte % 81) true,
                         bad := if wide then l.bad.filter (· != p.tryte % 81 / 3) else l.bad,
                         by_ := l.by_.filter (fun e => e.1 != p.tryte % 81) ++ by_.toList.map fun n => (p.tryte % 81, n) } }

/-- R278: a strong store, or an engine's write, brings every copy of its trytes in a core's L1 up to date. -/
def State.l1Patch (s : State) (core : Nat) (k : LineKey) (vals : List (Nat × Tryte)) : State :=
  if (s.coreAt core).l1.any (fun l => l.home.key == k) then
    let one (l : L1Line) : L1Line :=
      if l.home.key == k then
        vals.foldl (fun l v =>
          if l.home.tryte ≤ v.1 && v.1 < l.home.tryte + 81 && (l.trytes.getD (v.1 - l.home.tryte) none).isSome then
            { l with trytes := l.trytes.set (v.1 - l.home.tryte) (some v.2),
                     dirty := l.dirty.set (v.1 - l.home.tryte) false } else l) l
      else l
    s.updCore core fun c => { c with l1 := c.l1.map one }
  else s

/-! ## Elements -/

/-- Whether a scratchpad or chip word holds an uncorrectable error (R240). -/
def State.badScr (s : State) (core off : Nat) : Bool := s.bad.scr.contains ((core * scrSize + off) / 3)
def State.badChip (s : State) (die off : Nat) : Bool := s.bad.chip.contains ((die * chipSize + off) / 3)

/-- The offset in a shadow image of an offset of a core under a diversion entry (R367). -/
def DivEntry.shadowAt (e : DivEntry) (off : Nat) : Int := e.shadow + (off - e.gran * granule : Nat)

/-- R367: trytes of the shadow image of a diversion entry. It is read and written as a structure of its context. -/
def State.shadowGet (s : State) (die : Nat) (c : Ctx) (va : Int) : Except Nat (State × Tryte) := do
  let (s, p) ← s.structPlace (structWho die c) va
  let (s, ts) ← s.llcRead p.key.die p [p.tryte]
  .ok (s, ts.headD zeroT)

def State.shadowSet (s : State) (die : Nat) (c : Ctx) (va : Int) (v : Tryte) : Except Nat State := do
  let (s, p) ← s.structPlace (structWho die c) va
  s.homeWrite p [(p.tryte, v)]

/-- The context of the workgroup whose scratchpad an entry diverts. -/
def State.divCtx (s : State) (e : DivEntry) : Option Ctx := (s.wgs.find? fun w => w.id == e.wg).map (·.region.ctx)

/-- Reads one tryte of a place on chip. -/
def State.readTryte (s : State) (p : Place) : Except Nat (State × Tryte) :=
  match p with
  | .scr c off => if s.badScr c off then .error 15 else .ok (s, s.scrGet c off)
  | .desc v => .ok (s, v)
  | .chip d off => if s.badChip d off || s.dieDown d then .error 15 else .ok (s, s.chipGet d off)
  | .diverted g c off =>
    match List.find? (α := Nat × DivEntry) (fun e => e.2.wg == g) (s.coreAt c).divs with
    | some (_, e) =>
      match s.divCtx e with
      | some ctx => s.shadowGet (coreDie c) ctx (e.shadowAt off)
      | none => .ok (s, s.scrGet c off)
    | none => .ok (s, s.scrGet c off)
  | .line q => do
    let (s, ts) ← s.llcRead q.key.die q [q.tryte]
    .ok (s, ts.headD zeroT)
  | .window .. => .ok (s, zeroT)

/-- The trytes of window elements, of which the places list every tryte (R49, R52), read at a die's last-level cache. -/
def State.readWindow (die : Nat) : State → List Place → Except Nat (State × List Tryte)
  | s, [] => .ok (s, [])
  | s, .window p view t :: rest => do
    if t = 0 then
      let (s, bs) ← s.windowBytes die p view.s
      match view.load bs with
      | none => .error 13
      | some ts => do
        let (s, more) ← State.readWindow die s rest
        .ok (s, ts ++ more)
    else State.readWindow die s rest
  | s, _ :: rest => State.readWindow die s rest

/-- R278: a strong read of trytes: their line is written back from the core's L1, they are read at the last-level cache of the
die, and the L1 keeps no older copy of them (R245). -/
def State.strongRead (s : State) (w : Who) (p : LinePlace) (n : Nat) : Except Nat (State × List Tryte) := do
  let s := match w.core with
    | some core => (s.cleanLine core p.ctx.num p.vline).l1Forget core p n
    | none => s
  s.llcRead w.die p ((List.range n).map (p.tryte + ·))

/-- R275, R278: reads the trytes of an element; a weak read is served from L1 where the policy admits it. -/
def State.readElem (s : State) (w : Who) (strong : Bool) (ps : List Place) : Except Nat (State × List Tryte) :=
  match ps.headD (.desc zeroT) with
  | .window .. => State.readWindow w.die s ps
  | .line p =>
    if strong then s.strongRead w p ps.length
    else match w.core with
      | some core => if p.l1 then s.l1Read core p ps.length else s.llcRead w.die p ((List.range ps.length).map (p.tryte + ·))
      | none => s.llcRead w.die p ((List.range ps.length).map (p.tryte + ·))
  | _ => ps.foldlM (fun (acc : State × List Tryte) p => do
      let (s, t) ← acc.1.readTryte p
      .ok (s, acc.2 ++ [t])) (s, [])

/-- The write of one tryte on chip; a tryte written into a word with an uncorrectable error is written and takes cause 15,
a word replaced whole does not (R276). -/
def State.writeTryte (s : State) (wide : Bool) (p : Place) (v : Tryte) : State × Option Nat :=
  match p with
  | .scr c off =>
    let hit := s.badScr c off
    let s := s.scrSet c off v
    if hit && wide then
      ({ s with bad := { s.bad with scr := s.bad.scr.filter (· != (c * scrSize + off) / 3) } }, none)
    else (s, if hit then some 15 else none)
  | .chip d off =>
    if s.dieDown d then (s, some 15)
    else
      let hit := s.badChip d off
      let s := s.chipSet d off v
      if hit && wide then
        ({ s with bad := { s.bad with chip := s.bad.chip.filter (· != (d * chipSize + off) / 3) } }, none)
      else (s, if hit then some 15 else none)
  | _ => (s, none)

/-- Nothing is kept of elements that are not written in L1. -/
def noNote (_ : StoreElem) : Option StoreNote := none

/-- A failed element of a store: its lane, its cause, and the offset of its first tryte from the lane's address. -/
structure StoreFail where
  lane : Nat
  cause : Nat
  off : Nat
deriving DecidableEq, Repr

def StoreElem.fail (e : StoreElem) (cause : Nat) : StoreFail := ⟨e.lane, cause, e.off⟩

/-- R51, R52: one window element is converted and its bytes are written at a die's last-level cache; a refused one leaves its
bytes. -/
def State.storeView (s : State) (die : Nat) (p : LinePlace) (view : View) (ts : List Tryte) : Except Nat State :=
  match view.store ts with
  | some bs => s.putWindow die p bs
  | none => .error 13

/-- R51: window elements are converted one by one. -/
def storeWindow (die : Nat) : State → List StoreElem → State × List StoreFail
  | s, [] => (s, [])
  | s, e :: rest =>
    match e.place with
    | .window p view 0 =>
      match s.storeView die p view (e.val :: (rest.take (view.g - 1)).map (·.val)) with
      | .ok s => storeWindow die s rest
      | .error c =>
        let (s, fs) := storeWindow die s rest
        (s, e.fail c :: fs)
    | _ => storeWindow die s rest

/-- One failure for each lane, its first. -/
def firstFails (fs : List StoreFail) : List StoreFail :=
  fs.foldl (fun acc f => if acc.any fun g => g.lane == f.lane then acc else acc ++ [f]) []

/-- The distinct last-level lines among store elements, in order. -/
def storeKeys (es : List StoreElem) : List LinePlace :=
  es.foldl (fun acc e => match e.place with
    | .line p => if acc.any fun q => q.key == p.key then acc else acc ++ [p]
    | _ => acc) []

/-- The distinct L1 lines among store elements: a coded block has three. -/
def storeLines (es : List StoreElem) : List LinePlace :=
  es.foldl (fun acc e => match e.place with
    | .line p => if acc.any fun q => q.ctx.num == p.ctx.num && q.vline == p.vline then acc else acc ++ [p]
    | _ => acc) []

/-- R48, R302: the elements of one instruction that fall in one line are written together, so that a whole line needs no
fill. A refused fill is a failure of every lane that writes the line. -/
def State.storeLine (s : State) (w : Who) (p : LinePlace) (es : List StoreElem) : State × List StoreFail :=
  let mine := es.filterMap fun e => match e.place with
    | .line q => if q.key == p.key then some (e, q.tryte, e.val) else none
    | _ => none
  match s.llcWrite w.die p (mine.map (·.2)) with
  | .ok s =>
    match w.core with
    | some core => (s.l1Patch core p.key (mine.map (·.2)), [])
    | none => (s, [])
  | .error c => (s.refusedFill p, firstFails (mine.map fun e => e.1.fail c))

/-- R276: whether a store element is written into the core's L1: a weak store of a core to a place that its policy admits. -/
def viaL1 (w : Who) (strong : Bool) (e : StoreElem) : Bool :=
  match e.place with
  | .line p => p.l1 && !strong && w.core.isSome
  | _ => false

/-- The write of a store element into the core's L1, where it goes there. -/
def State.storeL1 (w : Who) (strong wide : Bool) (by_ : StoreElem → Option StoreNote) (s : State) (e : StoreElem) : State :=
  match e.place with
  | .line p => if viaL1 w strong e then s.l1Write (w.core.getD 0) wide p e.val (by_ e) else s
  | _ => s

/-- The write of a store element on chip, with the failures so far. -/
def storeChip (wide : Bool) (acc : State × List StoreFail) (e : StoreElem) : State × List StoreFail :=
  let (s, f) := acc.1.writeTryte wide e.place e.val
  (s, match f with
    | some c => acc.2 ++ [e.fail c]
    | none => acc.2)

/-- The store elements that are written at the last-level cache. -/
def directElems (w : Who) (strong : Bool) (es : List StoreElem) : List StoreElem :=
  es.filter fun e => match e.place with
    | .line _ => !viaL1 w strong e
    | _ => false

/-- The write of the elements of one line at the last-level cache, with the failures so far. -/
def storeLlc (w : Who) (direct : List StoreElem) (acc : State × List StoreFail) (p : LinePlace) : State × List StoreFail :=
  let (s, f) := acc.1.storeLine w p direct
  (s, acc.2 ++ f)

/-- R276, R278: performs checked store elements, in order. `by_` gives what is kept of an element in L1. -/
def State.performStores (s : State) (w : Who) (strong wide : Bool) (by_ : StoreElem → Option StoreNote)
    (es : List StoreElem) : State × List StoreFail :=
  let s := es.foldl (State.storeL1 w strong wide by_) s
  let (s, f1) := es.foldl (storeChip wide) (s, [])
  let (s, f2) := storeWindow w.die s es
  let direct := directElems w strong es
  let s := if strong && w.core.isSome then
      (storeLines direct).foldl (fun s p => s.cleanLine (w.core.getD 0) p.ctx.num p.vline) s else s
  (storeKeys direct).foldl (storeLlc w direct) (s, f1 ++ f2)

/-! ## Words at their coherence point, codec counters -/

/-- R278, R432: a strong relaxed load of a structure's word at the coherence point of its line, by a core or by the device itself. -/
def State.coherentRead (s : State) (w : Who) (va : Int) : Except Nat (State × Int) := do
  let (s, p) ← s.structPlace (structWho w.die w.ctx) va
  let s := match w.core with
    | some core => (s.cleanLine core w.ctx.num (va / 81)).l1Forget core { p with vline := va / 81 } 3
    | none => s
  let (s, ts) ← s.homeRead w.die p [p.tryte, p.tryte + 1, p.tryte + 2]
  .ok (s, ofTrytes ts)

/-- R278, R433: a strong relaxed store, likewise; the L1 of the core keeps no older value. -/
def State.coherentWrite (s : State) (w : Who) (va v : Int) : Except Nat State := do
  let (s, p) ← s.structPlace (structWho w.die w.ctx) va
  let s := match w.core with
    | some core => s.cleanLine core w.ctx.num (va / 81)
    | none => s
  let s ← (s.drainLine w.die p.key).homeWrite p (p.vals 3 v)
  .ok (match w.core with
    | some core => s.l1Patch core p.key (p.vals 3 v)
    | none => s)

/-- R305, R428: the codec counters of an attribute entry move, in the table's counter area: one indivisible update at the home
die of their line. -/
def State.codecCounters (s : State) (die : Nat) (l : LLine) (exact : Bool) (cut : Int) : Except Nat State := do
  let (s, p) ← s.structPlace (structWho die l.ctx) (l.tab + 81 + 9 * l.entry)
  let (s, ts) ← s.homeRead die p ((List.range 9).map (p.tryte + ·))
  let v (i : Nat) : Int := ofTrytes ((ts.drop (3 * i)).take 3)
  let up (v : Int) (n : Int) : Int := min counterMax (v + n)
  let vs := [up (v 0) 1, up (v 1) (if exact then 0 else 1), max (v 2) cut]
  s.homeWrite p ((List.range 3).flatMap fun i => { p with tryte := p.tryte + 3 * i }.vals 3 (vs.getD i 0))

end Sys2Proof.Machine
end

