-- ==== Sys2Proof/Machine/Flags.lean ====
section
/-! DEFINITION. The sticky flags as the word sr.fs (05_registers.md R122, R123). How each operation raises them stands with
the operation (Num.lean, Func.lean and the families). -/

namespace Sys2Proof.Machine

def trit01 (b : Bool) : Int := if b then 1 else 0

/-- R122, Table 4: the flags as the word that SREAD reads. -/
def Flags.toInt (f : Flags) : Int :=
  trit01 f.invalid + 3 * trit01 f.overflow + 9 * trit01 f.underflow + 27 * trit01 f.divzero + 81 * trit01 f.saturate +
    243 * trit01 f.inexact

/-- R123: the flags that SWRITE leaves: a + trit sets, a 0 or − trit clears, t6 to t26 are ignored. -/
def Flags.ofInt (v : Int) : Flags :=
  { invalid := tritAt v 0 == 1, overflow := tritAt v 1 == 1, underflow := tritAt v 2 == 1, divzero := tritAt v 3 == 1,
    saturate := tritAt v 4 == 1, inexact := tritAt v 5 == 1 }

end Sys2Proof.Machine
end

