-- ==== Sys2Proof/Machine/Ops.lean ====
section
/-! DEFINITION. Named operations over workgroups, groups, lanes and registers (03_execution.md, 05_registers.md), fault
records (16_traps_and_preemption.md R358, R359), fatal errors (R444), and taking a trap: the frame and handler state
(R351 to R357). -/

namespace Sys2Proof.Machine

/-! ## Workgroups and groups -/

def State.wgOf (s : State) (id : Nat) : Option Workgroup := s.wgs.find? fun w => w.id == id
def State.updWg (s : State) (id : Nat) (f : Workgroup → Workgroup) : State :=
  { s with wgs := s.wgs.map fun w => if w.id == id then f w else w }

/-- R369: whether a workgroup is coming back from a save. -/
def Workgroup.resuming (w : Workgroup) : Bool := w.save == .restoring || w.save == .entered

def Group.ref (g : Group) : GroupRef := ⟨g.wg, g.hw⟩
def State.groupOf (s : State) (r : GroupRef) : Option Group := s.groups.find? fun g => g.wg == r.wg && g.hw == r.hw
def State.updGroup (s : State) (r : GroupRef) (f : Group → Group) : State :=
  { s with groups := s.groups.map fun g => if g.wg == r.wg && g.hw == r.hw then f g else g }
def State.groupsOf (s : State) (wg : Nat) : List Group := s.groups.filter fun g => g.wg == wg
/-- The core a group is on. -/
def State.coreOf (s : State) (g : Group) : Option CoreRef := (s.wgOf g.wg).map (·.core)

/-- Whether a group is placed on an issue slot: a ganged group takes all three (R78). -/
def State.onSlot (s : State) (sl : SlotRef) (g : Group) : Bool :=
  (g.slot == sl.slot || g.lanes.length == 81) &&
    match s.wgOf g.wg with
    | some w => w.core == sl.core && w.st != .suspended
    | none => false

/-- The group that runs on an issue slot, with its workgroup (R61). -/
def State.running (s : State) (sl : SlotRef) : Option (Workgroup × Group) := do
  let g ← s.groups.find? fun g => g.phase == .running && s.onSlot sl g
  let w ← s.wgOf g.wg
  return (w, g)

/-! ## Lanes and registers (R112, R113) -/

/-- k0 reads + in all three trits. -/
def kAll : Trits 3 := Trits.ofInt 3 13
def kZero : Trits 3 := Trits.ofInt 3 0

def Lane.rdG (l : Lane) (n : Nat) : Word := if n = 0 then zeroW else l.g.get zeroW n
def Lane.wrG (l : Lane) (n : Nat) (v : Word) : Lane := if n = 0 then l else { l with g := l.g.set zeroW n v }
def Lane.rdH (l : Lane) (n : Nat) : Word := l.h.get zeroW n
def Lane.wrH (l : Lane) (n : Nat) (v : Word) : Lane := { l with h := l.h.set zeroW n v }
def Lane.rdK (l : Lane) (n : Nat) : Trits 3 := if n = 0 then kAll else l.k.get kZero n
def Lane.wrK (l : Lane) (n : Nat) (v : Trits 3) : Lane := if n = 0 then l else { l with k := l.k.set kZero n v }

/-- R89: a g field under the h map. -/
def Lane.rd (l : Lane) : Reg → Word
  | .g n => l.rdG n.val
  | .h n => l.rdH n.val
def Lane.wr (l : Lane) (r : Reg) (v : Word) : Lane :=
  match r with
  | .g n => l.wrG n.val v
  | .h n => l.wrH n.val v

def Group.rdS (g : Group) (n : Nat) : Word := if n = 0 then zeroW else g.s.get zeroW n
def Group.wrS (g : Group) (n : Nat) (v : Word) : Group := if n = 0 then g else { g with s := g.s.set zeroW n v }
def Group.rdW (g : Group) (n : Nat) : Nat := g.w.get 0 n
def Group.wrW (g : Group) (n : Nat) (v : Nat) : Group := { g with w := g.w.set 0 n v }

/-- A lane that no thread stands on (R56). -/
def Lane.absent : Lane :=
  { thread := 0, st := .bornExited, pc := zeroW, skip := 0, g := [], h := [], k := [], fs := .none, rng := zeroW,
    timeHi := none, bank := 0 }

def Group.lane (g : Group) (i : Nat) : Lane := g.lanes.getD i .absent
def Group.updLane (g : Group) (i : Nat) (f : Lane → Lane) : Group := { g with lanes := updAt g.lanes i f }
def Group.updLanes (g : Group) (is : List Nat) (f : Nat → Lane → Lane) : Group :=
  is.foldl (fun g i => g.updLane i (f i)) g

def Lane.live (l : Lane) : Bool := l.st != .exited && l.st != .bornExited
/-- Indexes of the lanes of a group that meet a test. -/
def Group.lanesWhere (g : Group) (p : Lane → Bool) : List Nat :=
  (List.range g.lanes.length).filter fun i => p (g.lane i)
def Group.live (g : Group) : List Nat := g.lanesWhere Lane.live
def Group.ready (g : Group) : List Nat := g.lanesWhere fun l => l.st == .ready

/-- Elements of a word under three governing trits: + takes the new tryte, 0 keeps the old, − zeroes (R117). -/
def mergeTrytes (p : Trits 3) (old new : Word) : Word :=
  let t (j : Nat) : Int :=
    let e := p.trit j
    if e = 1 then fld new.val (9 * j) (9 * j + 8) else if e = 0 then fld old.val (9 * j) (9 * j + 8) else 0
  Word.ofInt (t 0 + 19683 * t 1 + 19683 * 19683 * t 2)

/-- R117 for a word element: trit 0 governs. -/
def mergeWord (p : Trits 3) (old new : Word) : Word :=
  if p.trit 0 = 1 then new else if p.trit 0 = 0 then old else zeroW

/-- A predicate register as a word: trit j at t9j (05_registers.md, "Predicates"). -/
def kWord (k : Trits 3) : Int := k.trit 0 + 19683 * k.trit 1 + 19683 * 19683 * k.trit 2

/-! ## Event rings' and HALT's wakes, fatal errors -/

/-- Groups in a HALT whose context and die meet a test wake (R382). -/
def State.wakeHalts (s : State) (p : Workgroup → Bool) : State :=
  { s with groups := s.groups.map fun g =>
      match g.phase, s.wgOf g.wg with
      | .waiting m, some w =>
        (match m.instr with
          | .halt _ => if p w then { g with phase := .woken m } else g
          | _ => g)
      | _, _ => g }

/-- R354: trytes of a frame. -/
def frameSize : Int := 177147

/-- R413, R447: the word of a structure that stays in memory when a thread's data is to be broken by R343. -/
def breakBarrier (s : State) (w : Workgroup) (sp : Space) (addr : Int) : State :=
  match s.resolve w sp 0 .write 3 (addr + 6) with
  | .error _ => s
  | .ok (s, ps) =>
    match s.readElem w.who true ps with
    | .error _ => s
    | .ok (s, ts) =>
      let v := ofTrytes ts
      let v' := wrapInt 26 v - 3 ^ 26
      let es := (List.range 3).zipWith (fun j p => (⟨0, j, p, Tryte.ofInt (dropInt (9 * j) v')⟩ : StoreElem)) ps
      (s.performStores w.who true true noNote es).1

/-- Word i of a block. -/
def wordAt (ws : List Int) (i : Nat) : Int := ws.getD i 0

/-- R340: an object after an arrival, with the phase that it arrived in; none where the arrival is refused. -/
def barrierStep (ws : List Int) : Option (List Int × Int) :=
  let e := wordAt ws 0
  let left := wordAt ws 1
  let w2 := wordAt ws 2
  if tritAt w2 26 ≠ 0 ∨ e < 1 ∨ e > 797161 ∨ left < 1 ∨ left > e ∨ (List.range 4).any fun i => wordAt ws (5 + i) != 0 then none
  else
    let ph := fld w2 0 25
    some (if left = 1 then ([e, e, wrapInt 26 (ph + 1)] ++ ws.drop 3, ph) else ([e, left - 1, w2] ++ ws.drop 3, ph))

/-- The words of trytes. -/
def wordsOfTrytes (ts : List Tryte) : List Int := (List.range (ts.length / 3)).map fun i => ofTrytes ((ts.drop (3 * i)).take 3)

/-- R343: a context's threads or copies have arrived at an object of chip space or virtual memory. -/
def State.useBarrier (s : State) (w : Workgroup) (sp : Space) (addr : Int) : State :=
  let u : BarUse := ⟨w.region.ctx.num, w.core.die, sp, addr⟩
  if (sp != .chip && sp != .virt) || s.barriers.contains u then s else { s with barriers := s.barriers ++ [u] }

/-- Whether an address still holds a sound barrier object. -/
def State.isBarrier (s : State) (w : Workgroup) (sp : Space) (addr : Int) : Bool :=
  match s.resolve w sp 0 .read 27 addr with
  | .error _ => false
  | .ok (s, ps) => match s.readElem w.who true ps with
    | .error _ => false
    | .ok (_, ts) => (barrierStep (wordsOfTrytes ts)).isSome

/-- The words of a copy's request: as read, or for one that has not started as they stand in its workgroup's scratchpad. -/
def State.requestOf (s : State) (c : Copy) : List Int :=
  match c.view with
  | some v => v.request.map (·.val)
  | none =>
    match c.slices.head? with
    | none => []
    | some sl =>
      let at_ := c.owner.gran * granule + sl.req.toNat
      (List.range 9).map fun i => ofTrytes ((List.range 3).map fun j => s.scrGet (coreIdx c.owner.core) (at_ + 3 * i + j))

/-- The barrier objects that a workgroup's groups wait on or its copies are still to arrive at, in chip space or virtual
memory (R343). -/
def State.barriersOf (s : State) (w : Workgroup) : List (Space × Int) :=
  ((s.groupsOf w.id).filterMap fun g => match g.phase with
    | .waiting m => (match m.instr with
      | .bar x => some (x.space, m.addr)
      | .barw x => some (x.space, m.addr)
      | _ => none)
    | _ => none) ++
  ((s.copies.filter fun c => c.wg == w.id).filterMap fun c =>
    let ws := s.requestOf c
    let ctl := ws.getD 8 0
    if tritAt ctl 10 = 1 then
      (if fld ctl 4 5 = 0 then some (.virt, ws.getD 7 0) else if fld ctl 4 5 = 3 then some (.chip, ws.getD 7 0) else none)
    else none)

/-- R343: the barrier objects of a context with workgroups on a failing die, each with a workgroup to reach it by, on another die:
what the surviving workgroups wait on or are to arrive at, what the lost ones were, and what its threads have arrived at, where
arrivals are due still (log 67). -/
def State.toBreak (s : State) (die : Nat) : List (Workgroup × Space × Int) :=
  let gone := s.wgs.filter fun w => w.core.die == die
  let up (w : Workgroup) : Option Nat := w.region.ctx.dies.find? fun d => d != die && !s.dieDown d
  let at_ (w : Workgroup) (d : Nat) : Workgroup := { w with core := ⟨d, 0, 0⟩ }
  let waits := s.wgs.filter fun w => w.core.die != die && gone.any fun v => v.region.ctx.num == w.region.ctx.num
  (waits.flatMap fun w => (s.barriersOf w).map fun b => (w, b)) ++
    (gone.flatMap fun w => ((up w).map fun d => ((s.barriersOf w).filter fun b => b.1 == .virt).map fun b => (at_ w d, b)).getD []) ++
    s.barriers.filterMap fun u => do
      let w ← gone.find? fun w => w.region.ctx.num == u.ctx
      let d ← if u.die != die && !s.dieDown u.die then some u.die else if u.space = .virt then up w else none
      if s.isBarrier (at_ w d) u.space u.addr then return (at_ w d, u.space, u.addr) else none

/-- R444: a die takes a fatal error. It stops, its workgroups are gone, the barriers of R343 break, lines homed on it are
lost, its status becomes −1 and vector 729 is raised. -/
def State.dieFatal (s : State) (die : Nat) : State :=
  if s.dieDown die then s
  else
    let gone := s.wgs.filter fun w => w.core.die == die
    let s := ((s.toBreak die).filter fun b => b.2.1 == .virt || b.2.1 == .chip).foldl
      (fun s b => breakBarrier s b.1 b.2.1 b.2.2) s
    { s with
      dieStatus := s.dieStatus.set die (-1)
      irqs := s.irqs ++ [729]
      wgs := s.wgs.filter fun w => w.core.die != die
      groups := s.groups.filter fun g => !(gone.any fun w => w.id == g.wg)
      copies := s.copies.filter fun c => !(gone.any fun w => w.id == c.wg)
      tabWrites := s.tabWrites.filter fun t => !(gone.any fun w => w.id == t.wg)
      barriers := s.barriers.filter fun u => u.space == .virt || u.die != die
      cores := s.cores.filter fun e => coreDie e.1 != die
      units := s.units.filter fun e => e.1 / 27 != die
      llc := s.llc.filter fun e => e.1 != die && e.2.key.die != die
      copyUpdates := s.copyUpdates.filter fun u => u.src != die && u.dst != die && u.place.key.die != die
      spawns := s.spawns.filter fun e => e.1 / 3 / 27 != die
      ready := s.ready.filter fun n => n.die != die
      walkers := s.walkers.filter fun w => w.die != die
      arrivals := s.arrivals.filter fun a => coreDie a.1 != die
      knodes := s.knodes.map fun k =>
        if gone.any fun w => w.node == some k.id then { k with status := some .zero } else k }

/-! ## Fault records (R358, R359) -/

/-- R358, Table 5: the 27 words of a record. -/
def FaultRec.words (r : FaultRec) : List Int :=
  [r.cause + 19683 * r.inner + 3 ^ 18 * trit01 r.retired + 3 ^ 19 * trit01 r.parked, r.pc, r.region.val, r.wgIndex.val,
   r.hw, r.lanes.foldl (fun a j => a + 3 ^ j) 0, r.addr, r.laySrc, r.layDst] ++
  (List.range 5).map (fun i => ((r.coord.getD i 0 : Nat) : Int)) ++
  [wrapInt 27 r.time, dropInt 27 r.time] ++ List.replicate 11 0

/-- The deferred-fault queue of a region's fault domain. -/
def State.dfqOf (s : State) (r : Region) : Option Dfq := s.dfqs.find? fun q => q.addr == r.dfq && q.ctx.num == r.ctx.num

def State.updDfq (s : State) (r : Region) (f : Dfq → Dfq) : State :=
  let s := if (s.dfqOf r).isSome then s else { s with dfqs := s.dfqs ++ [⟨r.dfq, r.ctx, [], 0⟩] }
  { s with dfqs := s.dfqs.map fun q => if q.addr == r.dfq && q.ctx.num == r.ctx.num then f q else q }

/-- R307, R359: a record enters its fault domain's queue, or waits in its shell while the queue is full. The queue's
memory is a structure (R447). -/
def State.enterRecord (s : State) (die : Nat) (reg : Region) (r : FaultRec) : State :=
  let q := (s.dfqOf reg).getD ⟨reg.dfq, reg.ctx, [], 0⟩
  if q.recs.length ≥ 243 then { s with late := s.late ++ [(r, reg)] }
  else
    let s := s.updDfq reg fun q => { q with recs := q.recs ++ [r], appended := q.appended + 1 }
    let s := s.wakeHalts fun _ => true
    match s.structWrite (structWho die reg.ctx) (reg.dfq + 81 * (q.appended % 243 : Nat)) r.words with
    | .ok s => s
    | .error _ => s.dieFatal die

/-- A fault is raised: it is charged to its kernel node, and its record enters the queue. -/
def State.appendRecord (s : State) (die : Nat) (reg : Region) (r : FaultRec) : State :=
  (s.charge r.node r.cause).enterRecord die reg r

/-- The hardware groups of a group: three where it is ganged (R78). -/
def Group.hws (g : Group) : List Nat := (List.range (Nat.max 1 (g.lanes.length / 27))).map (g.hw + ·)

/-- The group that holds a hardware group of a workgroup. -/
def State.groupAt (s : State) (wg hw : Nat) : Option Group :=
  s.groups.find? fun g => g.wg == wg && decide (g.hw ≤ hw) && decide (hw < g.hw + Nat.max 1 (g.lanes.length / 27))

/-- A record of a workgroup's group, with nothing in it but the cause. -/
def recordOf (s : State) (w : Workgroup) (hw cause : Nat) (pc : Word) : FaultRec :=
  { cause := cause, inner := 0, parked := false,
    retired := ((s.groupAt w.id hw).map fun g => g.live.isEmpty).getD true,
    pc := pc.val, region := w.region.number, wgIndex := w.index, hw := hw, lanes := [], addr := 0, laySrc := 0, layDst := 0,
    coord := [], time := s.time, wg := some w.id, node := w.node, copy := none, deferred := w.st == .suspended }

/-- R358: a record of lanes of a group. The lanes of a ganged group are named by hardware group, in a record for each that has
one of them (DESIGN CHOICE, log 51: the lanes word has 27 trits). `addr` is the first failing address of a lane. -/
def FaultRec.perHw (r : FaultRec) (lanes : List Nat) (addr : Nat → Int) : List FaultRec :=
  match (List.range 3).filter fun n => lanes.any fun j => j / 27 == n with
  | [] => [r]
  | ns => ns.map fun n =>
    let mine := lanes.filter fun j => j / 27 == n
    { r with hw := r.hw + n, lanes := mine.map (· % 27), addr := addr (mine.headD 0) }

/-! ## Tags of the matrix unit (R192) -/

def State.unitAt (s : State) (clu : Nat) : MatUnit := s.units.get .reset clu
def State.updUnit (s : State) (clu : Nat) (f : MatUnit → MatUnit) : State :=
  { s with units := s.units.set .reset clu (f (s.unitAt clu)) }

/-- The shadow plane becomes empty. -/
def MatUnit.emptyShadow (u : MatUnit) : MatUnit := { u with pl1 := MatUnit.reset.pl1, shadowWg := none }

/-- R192: the tags of a workgroup that are pending or shadow are retired: its loads are dropped, and the shadow plane is empty where
it held or was being filled by one of them. -/
def MatUnit.retireOf (u : MatUnit) (wg : Nat) : MatUnit :=
  let load (e : MatEntry) : Bool := match e.op with
    | .load .. => e.wg == wg
    | _ => false
  let u' := { u with pending := u.pending.filter fun p => p.2 != wg, queue := u.queue.filter fun e => !load e }
  if u.shadowWg = some wg || u.queue.any (fun e => load e && e.granted) then u'.emptyShadow else u'

/-! ## Exit (R181, R82) -/

/-- R56: the hardware groups of a workgroup. -/
def Workgroup.hwGroups (w : Workgroup) : Nat := (w.kernel.threads + 26) / 27

/-- Whether any thread of a workgroup lives, in a group or in a bin. -/
def State.anyLive (s : State) (w : Workgroup) : Bool :=
  (s.groupsOf w.id).any (fun g => !g.live.isEmpty) || !w.bins.isEmpty ||
    (s.coreAt (coreIdx w.core)).bins.any fun b => b.wg == w.id && !b.threads.isEmpty

/-- R327: collectives of a workgroup that are still assembling are discarded, with a record for each group whose slice is
missing. -/
def State.orphan (s : State) (w : Workgroup) : State :=
  let open_ := s.copies.filter fun c => c.wg == w.id && c.form == .cpy && !c.started && c.slices.length < c.need
  let s := { s with copies := s.copies.filter fun c => !(open_.any fun o => o.id == c.id) }
  open_.foldl (fun s c =>
    ((List.range w.hwGroups).filter fun j => !(c.slices.any fun sl => sl.hw == j)).foldl (fun s j =>
      s.appendRecord w.core.die w.region { recordOf s w j 19 c.pc with retired := true }) s) s

/-- R329: the line-buffer sets of a workgroup are emptied. -/
def State.emptySets (s : State) (core wg : Nat) : State :=
  s.updCore core fun c => { c with sets := c.sets.map fun x => if x.owner == some wg then ⟨none, []⟩ else x }

/-- R82: a workgroup whose last thread has exited enters exiting. -/
def State.settleExit (s : State) (wg : Nat) : State :=
  match s.wgOf wg with
  | none => s
  | some w =>
    if w.st = .resident ∧ !s.anyLive w then
      (((s.updWg wg fun w => { w with st := .exiting }).updUnit (coreClu w.core) (·.retireOf wg)).emptySets (coreIdx w.core)
        wg).orphan w
    else s

/-- R359: the records in queues of a group whose lanes have all exited read as retired. -/
def State.retireRecs (s : State) (r : GroupRef) : State :=
  match s.groupOf r with
  | none => s
  | some g =>
    if !g.live.isEmpty then s
    else
      let one (x : FaultRec) : FaultRec := if x.wg == some r.wg && g.hws.contains x.hw then { x with retired := true } else x
      { s with dfqs := s.dfqs.map fun q => { q with recs := q.recs.map one } }

/-- R70: a group of a reforming kernel that has no lane left, and no work under way, ceases. -/
def State.ceaseGroup (s : State) (r : GroupRef) : State :=
  match s.wgOf r.wg, s.groupOf r with
  | some w, some g =>
    if w.kernel.reforming && g.live.isEmpty && g.pend.isEmpty then
      { s with groups := s.groups.filter fun h => !(h.wg == r.wg && h.hw == r.hw) }
    else s
  | _, _ => s

/-- Lanes of a group exit. -/
def State.exitLanes (s : State) (r : GroupRef) (is : List Nat) : State :=
  (((s.updGroup r fun g => g.updLanes is fun _ l => { l with st := .exited }).retireRecs r).ceaseGroup r).settleExit r.wg

/-- R353, R368: every thread of a workgroup exits at once. -/
def State.endThreads (s : State) (wg : Nat) : State :=
  let stop (g : Group) : Group :=
    if g.wg == wg then
      { g with
        lanes := g.lanes.map fun l => if l.live then { l with st := .exited } else l
        phase := .boundary, run := .none, handler := none, resuming := none, calls := [] }
    else g
  let s := { s with groups := s.groups.map stop, tabWrites := s.tabWrites.filter fun t => t.wg != wg }
  let s := (s.groupsOf wg).foldl (fun s g => (s.retireRecs g.ref).ceaseGroup g.ref) s
  let s := match s.wgOf wg with
    | some w =>
      (s.updCore (coreIdx w.core) fun c => { c with bins := c.bins.filter fun b => b.wg != wg }).updWg wg fun w => { w with bins := [] }
    | none => s
  s.settleExit wg

/-- A kernel node completes with a forced status. -/
def State.forceNode (s : State) (node : Option Nat) (t : Trit) : State :=
  { s with knodes := s.knodes.map fun k => if some k.id == node then { k with status := some t } else k }

/-! ## Completion of long-latency work (R63, R115, R118, R123) -/

/-- What a long-latency word writes at completion: the file and number of its destination, its width in words, and whether
its elements are words. -/
structure LongDest where
  toS : Bool
  num : Nat
  words : Nat
  byWord : Bool
deriving DecidableEq, Repr

/-- The registers of a destination: a triple at g0 is discarded (R19, R113). -/
def LongDest.regs (d : LongDest) : List Nat := if d.num = 0 then [] else (List.range d.words).map (d.num + ·)

/-- The destination of a long-latency word; none for one that writes no register. -/
def longDest (i : Instr) : Option LongDest :=
  let mem (wd : Width) (n : Nat) : Option LongDest := some ⟨false, n, if wd = .f81 then 3 else 1, wd != .t⟩
  let float (ty : Ty) (n : Nat) : Option LongDest := some ⟨false, n, if ty = .f81 then 3 else 1, ty != .f9⟩
  match i with
  | .ld x => mem x.wd x.d.val
  | .ldStrong x => mem x.wd x.d.val
  | .ldu x => some ⟨true, x.sd.val, 1, x.wd != .t⟩
  | .atomr x => some ⟨false, x.d.val, 1, !x.tryte⟩
  | .cas x => some ⟨false, x.d.val, 1, !x.tryte⟩
  | .fdiv x => float x.ty x.d.val
  | .fsqt x => float x.ty x.d.val
  | .frcp x => float x.ty x.d.val
  | .frsq x => float x.ty x.d.val
  | .fex3 x => float x.ty x.d.val
  | .flg3 x => float x.ty x.d.val
  | .fexe x => float x.ty x.d.val
  | .flge x => float x.ty x.d.val
  | .fsin x => float x.ty x.d.val
  | .fcos x => float x.ty x.d.val
  | .ftnh x => float x.ty x.d.val
  | .mrd x => some ⟨false, x.d.val, 1, true⟩
  | .mstat x => some ⟨false, x.d.val, 1, true⟩
  | .spawn x => some ⟨true, x.sd.val, 1, true⟩
  | .spawnCoresident x => some ⟨true, x.sd.val, 1, true⟩
  | _ => none

/-- The instruction of a pending word. -/
def Pending.instr (p : Pending) : Option Instr :=
  match decodeWord p.word.val with
  | .ok i => some i
  | .error _ => none

def Pending.dest (p : Pending) : Option LongDest := p.instr.bind longDest

/-- The trits that govern a pending write, but for the elements that a later write has overwritten (R65). -/
def PendLane.governs (l : PendLane) (byWord : Bool) : Trits 3 :=
  if byWord then (if l.landed.contains 0 then kZero else l.pred)
  else
    let t (j : Nat) : Int := if l.landed.contains j then 0 else l.pred.trit j
    Trits.ofInt 3 (t 0 + 3 * t 1 + 9 * t 2)

/-- R117, R116: a result word under its trits. -/
def mergeBy (byWord : Bool) (p : Trits 3) (old new : Word) : Word :=
  if byWord then mergeWord p old new else mergeTrytes p old new

/-- The registers of a lane after a pending write of its part has landed. -/
def PendLane.land (l : PendLane) (d : LongDest) (x : Lane) : Lane :=
  let p := l.governs d.byWord
  let put (x : Lane) (n : Nat) (v : Word) : Lane := x.wrG n (mergeBy d.byWord p (x.rdG n) v)
  let x := put x d.num l.r0
  if d.words = 3 ∧ d.num ≠ 0 then put (put x (d.num + 1) l.r1) (d.num + 2) l.r2 else x

/-- The results of a pending word land: g registers lane by lane, an s register from the lowest lane (R115); flags are
raised (R123). -/
def Group.landAll (g : Group) (p : Pending) : Group :=
  let g := match p.dest with
    | none => g
    | some d =>
      if d.toS then
        match p.lanes with
        | [] => g
        | l :: _ => g.wrS d.num (mergeBy d.byWord (l.governs d.byWord) (g.rdS d.num) l.r0)
      else p.lanes.foldl (fun g l => g.updLane l.lane (l.land d)) g
  p.lanes.foldl (fun g l => g.updLane l.lane fun x => { x with fs := x.fs.or l.flags }) g

def Group.dropPend (g : Group) (id : Nat) : Group := { g with pend := g.pend.filter fun p => p.id != id }

/-- R63: a slot releases a count. -/
def Group.release (g : Group) (p : Pending) : Group :=
  if p.counted then g.wrW p.slot (g.rdW p.slot - 1) else g

/-- The completion of a pending word: its results land, its count is released, and it is pending no more. -/
def Group.complete (g : Group) (p : Pending) : Group :=
  let g := ((g.landAll p).release p).dropPend p.id
  match g.resuming with
  | some r => { g with resuming := some { r with made := r.made.filter (· != p.id) } }
  | none => g

/-- Whether a register is stored, so that an error can stand in it (R113, R240). -/
def regStored : RegName → Bool
  | .g n => 1 ≤ n && n ≤ 80
  | .h n => n ≤ 8
  | .k n => 1 ≤ n && n ≤ 8
  | .s n => 1 ≤ n && n ≤ 26

/-- Whether a register is one of the group. -/
def regShared : RegName → Bool
  | .s _ => true
  | _ => false

/-- R240: registers that are written whole hold no error any more; an s register whatever the lane. -/
def State.repairRegs (s : State) (r : GroupRef) (lanes : List Nat) (regs : List RegName) : State :=
  { s with bad := { s.bad with regs := s.bad.regs.filter fun b =>
      !(b.1 == r.wg && b.2.1 == r.hw && (regShared b.2.2.2 || lanes.contains b.2.2.1) && regs.contains b.2.2.2) } }

/-- Whether trits write a whole word (R117): trit 0 of a word element, all three of trytes. -/
def writesWhole (byWord : Bool) (p : Trits 3) : Bool := p.trit 0 != 0 && (byWord || (p.trit 1 != 0 && p.trit 2 != 0))

/-- R424, R429: a long-latency instruction of a group completes. -/
def State.completePend (s : State) (r : GroupRef) (p : Pending) : State :=
  let s := s.updGroup r fun g => g.complete p
  let s := match p.dest with
    | some d =>
      let whole (l : PendLane) : Bool := writesWhole d.byWord (l.governs d.byWord)
      if d.toS then (if (p.lanes.head?.map whole).getD false then s.repairRegs r [] (d.regs.map .s) else s)
      else s.repairRegs r ((p.lanes.filter whole).map fun (l : PendLane) => l.lane) (d.regs.map .g)
    | none => s
  match s.wgOf r.wg with
  | some w => (s.progEvent (coreIdx w.core) 4 (some w.region.ctx.num)).ceaseGroup r
  | none => s

/-! ## Frames (R354, R355) -/

/-- 27 lane values of a hardware group. -/
def laneItem (b : Nat) (f : Nat → Int) : List Int := (List.range 27).map fun j => f (b + j)

/-- R354, Table 2: header words 0..299 of the frame of lanes b..b + 26. -/
def headerWords (g : Group) (b n cause : Nat) (detail : Int) (count : Nat) : List Int :=
  let hold (l : Lane) : Int := match l.st with
    | .held => 19683 * 3
    | .parked => -(19683 * 3)
    | .exited => 19683
    | .bornExited => 19683
    | .ready => 0
  [(n : Int), cause + 19683 * detail, count] ++ laneItem b (fun i => (g.lane i).pc.val) ++
    laneItem b (fun i => (g.lane i).skip + hold (g.lane i)) ++
    (List.range 9).flatMap fun h => laneItem b fun i => ((g.lane i).rdH h).val

/-- The part of a pending word for a lane. -/
def lanePart (ls : List PendLane) (i : Nat) : Option PendLane := ls.find? fun l => l.lane == i

/-- R354, Table 3: the 193 words of an entry for lanes b..b + 26. -/
def entryWords (e : ReEntry) (b : Nat) : List Int :=
  let item (f : PendLane → Int) : List Int := laneItem b fun i => match lanePart e.lanes i with
    | some l => f l
    | none => 0
  let perf3 (d r : Word) : Int := if e.perf then r.val else d.val
  [e.pc.val, e.word.val, e.payload, e.cause + 19683 * e.detail + 3 ^ 18 * trit01 e.slot + 3 ^ 19 * trit01 e.perf] ++
    item (·.cause) ++ item (·.addr) ++ item (fun l => perf3 l.d0 l.r0) ++ item (fun l => perf3 l.d1 l.r1) ++
    item (fun l => perf3 l.d2 l.r2) ++ item (fun l => kWord l.pred) ++
    laneItem 0 fun j => (e.rec_.getD j zeroW).val

/-- The address of a hardware group's frame. -/
def Workgroup.frameAt (w : Workgroup) (hw : Nat) : Int := w.region.frames + frameSize * (27 * w.saveIdx + hw : Nat)

/-- R351 step 4: the frames of a group, one for each of its hardware groups. -/
def State.writeFrames (s : State) (w : Workgroup) (g : Group) (es : List ReEntry) (cause : Nat) (detail : Int)
    (count : Nat) : Except Nat State :=
  foldE (fun s j => do
    let at_ := w.frameAt (g.hw + j)
    let s ← s.structWrite (structWho w.core.die w.region.ctx) at_ (headerWords g (27 * j) es.length cause detail count)
    foldE (fun s (e : Nat × ReEntry) =>
      s.structWrite (structWho w.core.die w.region.ctx) (at_ + 3 * (300 + 193 * e.1 : Nat)) (entryWords e.2 (27 * j)))
      s ((List.range es.length).zip es)) s (List.range (g.lanes.length / 27))

/-! ## Taking a trap (R351 to R353) -/

/-- What a trap brings: its cause, the operation that a busy tile's trap names, the first failing address of an access, the detail, the entry at the head if there is one, the entries behind the captured ones,
the run count, and the active set and place of the run it stops. -/
structure TrapReq where
  cause : Nat
  busyOn : Option TileUse := none
  addr : Int := 0
  detail : Int
  head : Option ReEntry
  behind : List ReEntry
  count : Nat
  active : List Nat
  boundary : Bool
  pc : Word
deriving DecidableEq, Repr

/-- R151: whether a pending word is a long float. -/
def Instr.isLongFloat : Instr → Bool
  | .fdiv _ | .fsqt _ | .frcp _ | .frsq _ | .fex3 _ | .flg3 _ | .fexe _ | .flge _ | .fsin _ | .fcos _ | .ftnh _ => true
  | _ => false

/-- R286, R351 step 3: register-bound words: accesses that write registers, MRD and MSTAT. -/
def Instr.isBound : Instr → Bool
  | .ld _ | .ldStrong _ | .ldu _ | .atomr _ | .cas _ | .mrd _ | .mstat _ => true
  | _ => false

def Pending.isFloat (p : Pending) : Bool := (p.instr.map Instr.isLongFloat).getD false
def Pending.isBound (p : Pending) : Bool := (p.instr.map Instr.isBound).getD false

/-- R351 step 3, R352: whether a pending word is captured by a trap: a register-bound one. An atomic has passed every check of
R273 when it issues, so it is captured with its result once it is performed, and before that completes on its own, as
stores do (log 52). -/
def Pending.isCaptured (p : Pending) : Bool :=
  p.isBound && (p.performed || match p.instr with
    | some (.atomr _) | some (.cas _) => false
    | _ => true)

/-- R352: a captured word as an entry. -/
def Pending.entry (p : Pending) : ReEntry :=
  { pc := p.pc, word := p.word, payload := p.payload, cause := 0, detail := 0, slot := p.counted, perf := p.performed,
    set := p.set, issued := true, past := true, lanes := p.lanes, rec_ := [], copy := none }

/-- R353: a trap in handler state, or in a region without a handler, ends the workgroup with a record. DESIGN CHOICE (log 52): its
kernel node completes with −, though the die's fatal error of R343, whose broken barrier may have led here, gives 0 (R309). -/
def State.doubleTrap (s : State) (w : Workgroup) (g : Group) (t : TrapReq) : State :=
  let inner := (g.handler.map (·.cause)).getD 0
  let lanes := (t.head.map (·.set)).getD t.active
  let rs := ({ recordOf s w g.hw t.cause t.pc with inner := inner } : FaultRec).perHw lanes fun _ => t.addr
  ((rs.foldl (fun s r => s.appendRecord w.core.die w.region r) s).forceNode w.node .neg).endThreads w.id

/-- Whether an arrival carries a load or an atomic of one of some pending words of a group. -/
def Arrival.carries (a : Arrival) (r : GroupRef) (ids : List Nat) : Bool :=
  match a.kind with
  | .atomic _ _ _ _ _ _ issuer p _ _ => issuer == (r.wg, r.hw) && ids.contains p
  | .load _ _ issuer p _ _ => issuer == (r.wg, r.hw) && ids.contains p
  | _ => false

/-- Whether an arrival of a pending word is still on its way. -/
def State.awaiting (s : State) (r : GroupRef) (pend : Nat) : Bool :=
  s.arrivals.any (fun a => a.2.carries r [pend]) || s.cores.any fun c => c.2.hold.any fun a => a.carries r [pend]

/-- R274: the elements of a pending access that are not yet performed, by lane: those of an atomic that are still to be, and those
that diversion units hold or are to receive. -/
def State.undone (s : State) (r : GroupRef) (p : Pending) : List (Nat × Nat) :=
  p.todo.map (fun m => (m.lane, m.elem)) ++ (s.arrivals.map (·.2) ++ s.cores.flatMap fun c => c.2.hold).filterMap fun a =>
    match a.kind with
    | .atomic _ _ _ _ _ _ issuer q lane elem => if issuer == (r.wg, r.hw) && q == p.id then some (lane, elem) else none
    | .load _ _ issuer q lane elem => if issuer == (r.wg, r.hw) && q == p.id then some (lane, elem) else none
    | _ => none

/-- The elements of a lane among some. -/
def elemsOf (es : List (Nat × Nat)) (lane : Nat) : List Nat := (es.filter fun e => e.1 == lane).map (·.2)

/-- R65: the elements of a lane that a pending word has no result for yet: of a word element, one that is missing is all. -/
def State.unknown (s : State) (r : GroupRef) (p : Pending) (byWord : Bool) (lane : Nat) : List Nat :=
  if p.performed then []
  else match p.instr with
    | some (.ld _) | some (.ldStrong _) | some (.ldu _) | some (.atomr _) | some (.cas _) =>
      let es := elemsOf (s.undone r p) lane
      if byWord && !es.isEmpty then [0, 1, 2] else es
    | _ => [0, 1, 2]

/-- Captured words leave the diversion units that they wait at. -/
def State.withdraw (s : State) (r : GroupRef) (ids : List Nat) : State :=
  if ids.isEmpty then s
  else
    { s with
      arrivals := s.arrivals.filter fun a => !a.2.carries r ids
      cores := s.cores.map fun c => (c.1, { c.2 with hold := c.2.hold.filter fun a => !a.carries r ids }) }

/-- R351: trap entry. The group's long floats complete, its incomplete register-bound words are captured behind the head,
the frame is written, and every live lane becomes ready at the handler's entry in a new run. DESIGN CHOICE (log 57): the call
records of the stopped run are set aside, and none of them counts among the nine live records of a CALLI in handler state
(R175). -/
def State.trapEnter (s : State) (r : GroupRef) (t : TrapReq) : State :=
  match s.wgOf r.wg, s.groupOf r with
  | some w, some g =>
    let s := s.progEvent (coreIdx w.core) 9 (some w.region.ctx.num)
    if g.handler.isSome ∨ w.region.handler.val = 0 then s.doubleTrap w g t
    else
      let s := (g.pend.filter Pending.isFloat).foldl (fun s p => s.completePend r p) s
      let g := (s.groupOf r).getD g
      let taken := g.pend.filter Pending.isCaptured
      let s := s.withdraw r (taken.map (·.id))
      let es := t.head.toList ++ taken.map Pending.entry ++ t.behind
      match s.writeFrames w g es t.cause t.detail t.count with
      | .error _ => s.dieFatal w.core.die
      | .ok s =>
        let h : Handler := { cause := t.cause, busyOn := t.busyOn, sets := es.map (·.set), issued := es.map (·.issued), past := es.map (·.past),
                             copies := es.map (·.copy), calls := g.calls, active := t.active, boundary := t.boundary }
        s.updGroup r fun g =>
          { g with pend := g.pend.filter fun p => !p.isCaptured
                   lanes := g.lanes.map fun l => if l.live then { l with st := .ready, pc := w.region.handler, h := [] } else l
                   calls := [], phase := .boundary, run := .none, mask := [], handler := some h, resuming := none }
  | _, _ => s

end Sys2Proof.Machine
end

