-- ==== Sys2Proof/Machine/Operands.lean ====
section
/-! DEFINITION. Operands and the issue of a word: what a word reads and writes (04_instruction_words.md R84 to R92), its
immediate (R93 to R95, R446), its governing trits (R90, R117), the order of checks (R100), reads ahead of a pending write
(R65, R66), and what completes, traps, stalls or holds (R61, R63). -/

namespace Sys2Proof

/-! ## What a word reads and writes -/

/-- Registers by number: g read, g written, s read, s written. -/
structure Regs where
  gr : List Nat
  gw : List Nat
  sr : List Nat
  sw : List Nat
deriving DecidableEq, Repr

/-- Opcodes whose d is read: MAD, CLAMP, INS, SEL3, PACK3, FMA, FDOT, LOOP, ST, ATOM, ATOMR, CAS, RQWR; and in the s file
BARI, STU, WAITM. -/
def opsReadD : List Int := [-109, -118, -71, -83, -52, -23, -37, 11, 56, 59, 60, 61, 119, 87, 58, 63]
/-- Opcodes whose d is a source alone: ST, ATOM, RQWR, BARI, STU. -/
def opsOnlyReadD : List Int := [56, 59, 119, 87, 58]

def span (n len : Nat) : List Nat := (List.range len).map (n + ·)

/-- Whether CVTW keeps the other trytes of its destination, which it then reads (R146). -/
def Instr.keepsTrytes : Instr → Bool
  | .cvtw a => a.kind != .widen
  | _ => false

/-- Whether the d and the a of FCVT name triples (R162, Table 5): a triple at g0 is g0 alone (R113). -/
def Instr.cvtTriples : Instr → Bool × Bool
  | .fcvt x => (x.ty == .f81, x.src == .f81)
  | _ => (false, false)

/-- The integer sources of .f81 forms, which are word 0 of their triples alone (R153): the b of FSCL, and both of ITOF. -/
def Instr.intSources : Instr → Bool × Bool
  | .fscl _ => (false, true)
  | .itof _ => (true, true)
  | _ => (false, false)

/-- The registers of a word, from the use of its fields (R86, R87). -/
def Instr.regs (i : Instr) : Regs :=
  match i.useOf with
  | none => ⟨[], [], [], []⟩
  | some (u, f) =>
    let acc := u.layout == .access
    let wide := (acc && wrapInt 1 f.var == -1) || u.triples f
    let h := u.layout == .common && u.wait != .long && !u.triples f && !u.noH
    let num (v : Int) : Nat := (v + 40).toNat
    let gs (n len : Nat) : List Nat := if wide && n == 0 then [0] else span n (if wide then Nat.max len 3 else len)
    let drop0 (triples : Bool) (ns : List Nat) : List Nat := if triples then ns.filter fun n => n != 1 && n != 2 else ns
    let dg := match u.d with
      | .g n => if h && f.hD == 1 then [] else if f.op = 61 then span (num f.d) 1 else drop0 i.cvtTriples.1 (gs (num f.d) n)
      | _ => []
    let ds := match u.d with
      | .s n => span (num f.d) n
      | _ => []
    let ag := match u.a with
      | .g n => if h && f.hS == 1 then [] else if acc || i.intSources.1 then span (num f.a) 1
        else drop0 i.cvtTriples.2 (gs (num f.a) n)
      | _ => []
    let as_ := match u.a with
      | .s n => span (num f.a) n
      | _ => []
    let common := u.layout == .common && !u.b.modes.isEmpty
    let bg := if common && f.bm == 1 && !u.b.kFile && !(h && f.hS == -1) then
        (if i.intSources.2 then [num f.b] else gs (num f.b) 1) else []
    let bs := if common && f.bm == -1 then [num f.b] else []
    let readD := opsReadD.contains f.op || i.keepsTrytes
    let writeD := !opsOnlyReadD.contains f.op
    { gr := ag ++ bg ++ (if readD then dg else []) ++ (if f.op = 61 then [num f.d + 1] else []),
      gw := (if writeD then dg else []) ++ (if f.op = 4 then [8] else []),
      sr := as_ ++ bs ++ (if readD then ds else []) ++ (if f.op = 86 then span 1 26 else []),
      sw := if writeD then ds else [] }

/-- The run temporaries of a word, read and written (R89). -/
def Instr.hRegs (i : Instr) : List Nat × List Nat :=
  match i.useOf with
  | none => ([], [])
  | some (u, f) =>
    let h := u.layout == .common && u.wait != .long && !u.triples f && !u.noH
    let num (v : Int) : Nat := (v + 40).toNat
    let dh := match u.d with
      | .g _ => if h && f.hD == 1 then [num f.d] else []
      | _ => []
    let ah := match u.a with
      | .g _ => if h && f.hS == 1 then [num f.a] else []
      | _ => []
    let bh := if h && f.bm == 1 && u.b.modes.contains 1 && !u.b.kFile && f.hS == -1 then [num f.b] else []
    (ah ++ bh ++ (if opsReadD.contains f.op || i.keepsTrytes then dh else []), if opsOnlyReadD.contains f.op then [] else dh)

/-- Whether operands are read from lanes outside the active set (R183). -/
def Instr.crossLane : Instr → Bool
  | .shfl _ | .shfld _ | .shflt _ | .xperm _ | .bcst _ => true
  | _ => false

/-- The wait slot of a long-latency word (R88). -/
def Instr.slotOf (i : Instr) : Option Nat :=
  match i.useOf with
  | some (u, f) => if u.wait == .long then some (f.w + 4).toNat else none
  | none => none

/-- R102: the entries of Table 9 marked S. -/
def Instr.supervisorOnly : Instr → Bool
  | .rwalk _ | .rstat _ | .mbtxReply _ | .mbtxBind _ | .mbtxUnbind _ | .mbrx _ | .halt _ | .ctxld _ | .preempt _
  | .divsetQuery _ | .divsetRelease _ | .ratset _ | .winset _ | .tlbinv _ _ | .tlbinvCtx _ | .tlbfl | .ctxsv _ => true
  | _ => false

/-- R190: SWRITE of a register marked No, in every mode. -/
def Instr.writesReadOnly : Instr → Bool
  | .swrite x => x.num.val != 12 && x.num.val != 13
  | _ => false

/-- R372: words that are issued in handler state alone. -/
def Instr.handlerOnly : Instr → Bool
  | .rqrd _ | .rqwr _ | .rqdrop _ | .resume => true
  | _ => false

/-- Matrix words (R75). -/
def Instr.isMatrix : Instr → Bool
  | .mload _ | .mloadp _ | .mact _ | .mpass _ | .mzero _ | .mrd _ | .mwr _ | .mstoreKeep _ | .mstoreZero _
  | .mstat _ => true
  | _ => false

/-- R75, R321: a word that the kernel's mode does not allow. -/
def Instr.modeViolation (i : Instr) (reforming : Bool) : Bool :=
  match i with
  | .reform => !reforming
  | .cpy _ => reforming
  | i => reforming && i.isMatrix

/-- R318: words of the memory block and of the asynchronous block. -/
def Instr.needsLicence (i : Instr) : Bool :=
  match i.useOf with
  | some (_, f) => decide (41 ≤ f.op) && decide (f.op ≤ 94)
  | none => false

/-! ## Immediates (R93 to R97, R446) -/

/-- How a word takes a LIT. -/
inductive LitUse where
  | none
  | lit
  | imm (width : Nat) (b : Int)
  | off (v : Trits 12)
  | two (m p : Trits 6)
deriving DecidableEq, Repr

/-- R94: the immediate width of an element type. -/
def tyWidth : Ty → Nat
  | .t => 9
  | .f9 => 9
  | _ => 27

/-- The element type of a word whose var names one (R91). FCVT, which names two, stands apart, and so does FDOT, whose element
is the word (R165). -/
def Instr.elemTy : Instr → Option Ty
  | .add x | .sub x | .adds x | .subs x | .mul x | .mulh x | .mad x | .divn x | .divz x | .divf x | .remn x | .remz x
  | .remf x | .min x | .max x | .clamp x | .tmin x | .tmax x | .tsum3 x | .tprd x | .tcns x | .shl x | .shr x | .rot x
  | .cnt x | .sel3 x | .fadd x | .fsub x | .fmul x | .fma x | .fmin x | .fmax x | .fscl x | .itof x => some x.ty
  | .neg x | .abs x | .sgn x | .lead x | .fabs x | .fneg x | .fcls x | .fexn x | .ftrn x | .fflr x | .fcel x => some x.ty
  | .cmp x | .tst x | .fcmp x => some x.ty
  | .fsqt x | .frcp x | .frsq x | .fex3 x | .flg3 x | .fexe x | .flge x | .fsin x | .fcos x | .ftnh x => some x.ty
  | .mov x => some x.ty
  | .movi x => some x.ty
  | .fdiv x => some x.ty
  | .ftoi x => some x.ty
  | .bcst x => some x.ty
  | .redu x => some x.ty
  | .scan x => some x.ty
  | _ => none

/-- R94: the immediate width of a word. -/
def Instr.immWidth : Instr → Nat
  | .fdot _ => 9
  | .pset _ => 3
  | i => (i.elemTy.map tyWidth).getD 27

/-- Words whose b field is an immediate but no value immediate: FENCE (R270), TRAP (R446), and the words of
15_async_instructions.md to 19_counters.md that accept no LIT. -/
def Instr.takesImm : Instr → Bool
  | .fence _ | .trap _ | .mbrx _ | .mbtxReply _ | .mbtxBind _ | .mbtxUnbind _ | .rstat _ | .rqrd _ | .rqwr _
  | .fmtset _ | .shpset _ | .xpset _ | .ratset _ | .winset _ | .cntsel _ | .mstoreKeep _ | .mstoreZero _ | .mstat _
  | .bcvt _ | .ftoi _ | .fcvt _ | .redu _ | .scan _ | .sread _ | .swrite _ => false
  | _ => true

/-- R95, R270, R446: which words a LIT may precede. -/
def Instr.litUse (i : Instr) : LitUse :=
  match i with
  | .lit _ => .lit
  | .cwbAll | .cinvAll | .icinvAll => .imm 27 0
  | .br x => .off x.off
  | .brp x => .off x.off
  | .call x => .off x.off
  | .b3 x => .two x.offm x.offp
  | i =>
    match i.useOf with
    | none => .none
    | some (u, f) =>
      match u.layout with
      | .access => if (accOf f).any (fun a => !a.2.isStrong) then .imm 27 f.b else .none
      | .common =>
        if f.bm == 0 && u.b.modes.contains 0 && u.b.sel.isNone && i.takesImm then .imm i.immWidth f.b else .none
      | _ => .none

/-- R94: |v| ≤ (3^n − 1)/2. -/
def fits (n : Nat) (v : Int) : Bool := decide (v.natAbs ≤ maxMag n)

/-- R446: the upper bound of a value immediate narrower than its width. -/
def Instr.immTop : Instr → Option Int
  | .mload _ => some 1457
  | .mloadp _ => some 1457
  | .mrd x => match x.b with
    | .imm _ => some 728
    | .s _ => none
  | .mwr x => match x.b with
    | .imm _ => some 728
    | .s _ => none
  | .waitm _ => some (maxMag 27)
  | .halt _ => some (maxMag 27)
  | _ => none

/-- R97, R172: the offset limit of a transfer. -/
def offFits (v : Int) : Bool := fits 26 v

/-! ## Predicates (R90) -/

def negTrits (k : Trits 3) : Trits 3 := Trits.ofInt 3 (-k.val)

/-- R90: the effective predicate trits of a lane. -/
def Pred.eff (p : Pred) (l : Machine.Lane) : Trits 3 :=
  match p with
  | .always => Machine.kAll
  | .pos k => l.rdK k.val
  | .neg k => negTrits (l.rdK k.val)

/-- The predicate fields of a word. -/
def Instr.pred (i : Instr) : Pred :=
  match i.fields with
  | some f => match f.op with
    | -107 => .always
    | 8 => .always
    | 13 => .always
    | _ => (Sys2Proof.predOf f).getD .always
  | none => .always

/-! ## Shapes of operands -/

def Src.isImm : Src → Bool
  | .imm _ => true
  | _ => false

/-- The number of a register field. -/
def Reg.num : Reg → Nat
  | .g n => n.val
  | .h n => n.val

/-- Whether a type has tryte elements (R91). -/
def Ty.tryte : Ty → Bool
  | .t => true
  | .f9 => true
  | _ => false

/-- The elements that a type has: three trytes, or one. -/
def Ty.elems (ty : Ty) : List Nat := if ty.tryte then [0, 1, 2] else [0]

/-- The predicate registers of a word, read (R90, R145, R190) and written (R143, R145, R148, R183, R190, R346, R390). -/
def Instr.kRegs (i : Instr) : List Nat × List Nat :=
  let p : List Nat := match i.pred with
    | .always => []
    | .pos k | .neg k => [k.val]
  match i with
  | .cmp a | .tst a | .fcmp a => (p, [a.kd.val])
  | .pset a => (p ++ a.ka.toList.map (·.val) ++ (match a.b with
      | .k k => [k.val]
      | .imm _ => []), [a.kd.val])
  | .vote a => (p, [a.kd.val])
  | .tidx a | .tjoin a => (p, [a.kn.val])
  | .shfl a | .shfld a | .shflt a => (p, [a.kn.val])
  | .xperm a => (p, [a.kn.val])
  | .sreadPredicate a => (p ++ [a.k.val], [])
  | .swritePredicate a => (p, [a.kd.val])
  | .fmtset a | .shpset a | .xpset a => (p, [a.kd.val])
  | .mbtxReply a | .mbtxBind a | .mbtxUnbind a => (p, [a.kd.val])
  | _ => (p, [])

/-- The registers that a word reads, by name. -/
def Instr.reads (i : Instr) : RegName → Bool
  | .g n => i.regs.gr.contains n
  | .h n => i.hRegs.1.contains n
  | .k n => i.kRegs.1.contains n
  | .s n => i.regs.sr.contains n

/-- The registers that a word writes, by name. -/
def Instr.writes (i : Instr) : RegName → Bool
  | .g n => i.regs.gw.contains n
  | .h n => i.hRegs.2.contains n
  | .k n => i.kRegs.2.contains n
  | .s n => i.regs.sw.contains n

def Reg.name : Reg → RegName
  | .g n => .g n.val
  | .h n => .h n.val

def RegName.num : RegName → Nat
  | .g n | .h n | .k n | .s n => n

/-- Whether a second source is a register of a name. -/
def Src.isReg (b : Src) (r : RegName) : Bool :=
  match b with
  | .g n => r == .g n.val
  | .h n => r == .h n.val
  | .s n => r == .s n.val
  | .imm _ => false

/-- The registers that every live lane of a sub-group supplies to a cross-lane word (R183). -/
def Instr.supplied : Instr → List RegName
  | .shfl a | .shfld a | .shflt a => [a.a.name]
  | .xperm a => [a.a.name]
  | .bcst a => a.a.name :: (Instr.bcst a).regs.gr.map .g
  | _ => []

/-- Whether the elements of a word are trytes, each governed by the trit of its number (R117). -/
def Instr.perTryte (i : Instr) : Bool :=
  match i with
  | .ld x | .ldStrong x | .st x | .stStrong x => x.wd == .t
  | .ldu x | .stu x => x.wd == .t
  | .atom x | .atomr x | .cas x => x.tryte
  | .unpk3 _ | .splat _ | .pset _ | .swritePredicate _ => true
  | .fcvt x => x.ty == .f9 && x.src == .f9
  | i => (i.elemTy.map Ty.tryte).getD false

/-- The second source that picks a tryte of a register (R146, R147). -/
def Instr.picker : Instr → Option Src
  | .cvtw x => some x.b
  | .pack3 x | .unpk3 x | .splat x => some x.b
  | _ => none

/-- Of a register, the elements whose governing trits meet a test: tryte j goes by trit j, the word by trit 0 (R117). -/
def elemsBy (trytes : Bool) (p : Trits 3) (sel : Int → Bool) : List Nat :=
  if trytes then [0, 1, 2].filter fun j => sel (p.trit j) else if sel (p.trit 0) then [0, 1, 2] else []

/-- A register that is read whole for any element. -/
def wholeIf (es : List Nat) : List Nat := if es.isEmpty then [] else [0, 1, 2]

/-- R162, Table 5: of register n of a field that begins at register m, the elements whose governing trits meet a test. `me` is the
type on the field's side, `other` that on the other side: between f9 and a wider type element j is register or triple j. -/
def cvtElems (me other : Ty) (m n : Nat) (p : Trits 3) (sel : Int → Bool) : List Nat :=
  if me = .f9 then elemsBy true p sel
  else if other = .f9 then (if sel (p.trit ((n - m) / (if me = .f81 then 3 else 1))) then [0, 1, 2] else [])
  else elemsBy false p sel

/-- R146, R147: what a word reads whose one element is tryte c of d: with that element active, a whole and the other trytes of
d; and the register that gives c, where any element may be active. -/
def loneReads (d a : Reg) (b : Src) (r : RegName) (p : Trits 3) (c : Nat) : List Nat :=
  (if p.trit c = 1 then (if r == a.name then [0, 1, 2] else []) ++ (if r == d.name then [0, 1, 2].filter (· != c) else [])
    else []) ++ (if b.isReg r then wholeIf (elemsBy true p (· == 1)) else [])

/-- The elements of register r that a word reads in a lane with given trits, where c is the tryte that its second source picks:
an inactive element reads nothing (R117), and SEL3 reads what each trit selects (R144). -/
def Instr.readElems (i : Instr) (r : RegName) (p : Trits 3) (c : Nat) : List Nat :=
  let els (sel : Int → Bool) : List Nat := elemsBy i.perTryte p sel
  let on := els (· == 1)
  match i with
  | .ld x | .ldStrong x | .st x | .stStrong x => if r == .g x.a.val then wholeIf on else on
  | .atom x | .atomr x | .cas x => if r == .g x.a.val then wholeIf on else on
  | .ldu x | .stu x => if r == .s x.sa.val then wholeIf on else on
  | .cvtw x =>
    if x.kind = .widen then
      (if on.isEmpty then [] else (if r == x.a.name then [c] else []) ++ (if x.b.isReg r then [0, 1, 2] else []))
    else loneReads x.d x.a x.b r p c
  | .pack3 x => loneReads x.d x.a x.b r p c
  | .unpk3 x | .splat x =>
    if on.isEmpty then [] else (if r == x.a.name then [c] else []) ++ (if x.b.isReg r then [0, 1, 2] else [])
  | .sel3 x =>
    (if r == x.a.name then on else []) ++ (if x.b.isReg r then els (· == -1) else []) ++
      (if r == x.d.name then els (· == 0) else [])
  | .fcvt x => cvtElems x.src x.ty x.a.num r.num p (· == 1)
  | _ => on

/-- The elements of register r that a word writes in a lane with given trits: − zeroes, 0 keeps (R117); CALLI links the lanes
that it selects alone (R171, R176). -/
def Instr.writeElems (i : Instr) (r : RegName) (p : Trits 3) (c : Nat) : List Nat :=
  match i with
  | .cvtw x => if x.kind = .widen then elemsBy false p (· != 0) else if p.trit c = 0 then [] else [c]
  | .pack3 _ => if p.trit c = 0 then [] else [c]
  | .fcvt x => cvtElems x.ty x.src x.d.num r.num p (· != 0)
  | .calli _ => elemsBy false p (· == 1)
  | i => elemsBy i.perTryte p (· != 0)

/-- Whether a word acts for the lowest active lane alone (R277). -/
def Instr.uniform : Instr → Bool
  | .ldu _ | .stu _ => true
  | _ => false

end Sys2Proof

namespace Sys2Proof.Machine

/-! ## Issuing -/

/-- A word at issue: the state before it and the state with the word counted and its lanes advanced, its workgroup and its
group as its operands are read, and the replay entry it comes from. -/
structure Issue where
  s0 : State
  s : State
  w : Workgroup
  g : Group
  r : GroupRef
  i : Instr
  pc : Word
  pay : Int
  active : List Nat
  again : Option ReEntry
deriving DecidableEq, Repr

/-- A precise fault of a word (R100, R236, R352): lane causes where lanes differ, captured operands, the first failing address, the operation that keeps a tile busy,
the word's PC where it is not its lanes', whether it holds a count, whether it had issued, and its lane set where that is not the active set. -/
structure Fail where
  cause : Nat
  detail : Nat := 0
  lanes : List (Nat × Nat) := []
  cap : List PendLane := []
  addr : Int := 0
  busyOn : Option TileUse := none
  pc : Option Word := none
  slot : Bool := false
  issued : Bool := false
  set : Option (List Nat) := none
deriving DecidableEq, Repr

/-- What a word does when it is issued: it completes; it traps, in the state before it or in another; it stalls and leaves
no trace; or it holds its group. -/
inductive Eff where
  | done (s : State)
  | trap (f : Fail)
  | trapIn (s : State) (f : Fail)
  | stall
  | hold (s : State)

/-- A lane's part of a word with nothing captured. -/
def PendLane.new (lane : Nat) (pred : Trits 3) : PendLane :=
  { lane := lane, pred := pred, landed := [], addr := 0, d0 := zeroW, d1 := zeroW, d2 := zeroW, r0 := zeroW, r1 := zeroW,
    r2 := zeroW, flags := .none, cause := 0 }

/-- R352, R355: the head entry of a word that traps. -/
def headEntry (g : Group) (word pc : Word) (pay : Int) (active : List Nat) (pred : Lane → Trits 3) (f : Fail) : ReEntry :=
  let set := f.set.getD active
  let part (j : Nat) : PendLane :=
    let l := (lanePart f.cap j).getD (PendLane.new j (pred (g.lane j)))
    let c := if f.lanes.isEmpty then f.cause else ((f.lanes.find? fun e => e.1 == j).map (·.2)).getD 0
    { l with cause := c }
  { pc := pc, word := word, payload := pay, cause := f.cause, detail := f.detail, slot := f.slot, perf := false, set := set,
    issued := f.issued, past := false, lanes := set.map part, rec_ := [], copy := none }

/-- R100, R236, R351: a word of a group takes a precise trap. A word that re-issues an entry traps with the other entries
behind it (R375). -/
def State.takeFault (s : State) (r : GroupRef) (word : Word) (pred : Lane → Trits 3) (f : Fail) : State :=
  match s.groupOf r with
  | none => s
  | some g =>
    let run := g.run
    let pc := match run.again with
      | some e => e.pc
      | none => f.pc.getD (g.lane (run.active.headD 0)).pc
    let f := match run.again with
      | some e =>
        { f with slot := f.slot || e.slot, issued := f.issued || e.issued, set := some (f.set.getD e.set),
                 cap := if f.cap.isEmpty then e.lanes else f.cap }
      | none => f
    let pay := match run.again with
      | some e => e.payload
      | none => run.payload
    let head := { headEntry g word pc pay run.active pred f with past := (run.again.map (·.past)).getD false }
    let (behind, active, boundary) := match g.resuming with
      | some q => (q.entries ++ (if run.behind then q.head.toList else []), q.active, q.boundary)
      | none => ([], run.active, false)
    s.trapEnter r { cause := f.cause, busyOn := f.busyOn, addr := f.addr, detail := f.detail, head := some head, behind := behind, count := run.count,
                    active := active, boundary := boundary, pc := pc }

/-- The address of the word that a group issues next. -/
def Group.wordPc (g : Group) : Word :=
  match g.run.again with
  | some e => e.pc
  | none => (g.lane (g.run.active.headD 0)).pc

def Group.wordPay (g : Group) : Int :=
  match g.run.again with
  | some e => e.payload
  | none => g.run.payload

/-! ### The order of checks (R100) -/

/-- R86: whether a word names a g register or a tile beyond the allocation. -/
def overAlloc (w : Workgroup) (i : Instr) : Bool :=
  decide (i.gTop > 9 * w.kernel.regs) || decide (i.tileTop > w.kernel.tiles)

/-- R94 to R97, R446: step 5, and the range of a value immediate at step 4. `lits` LITs made the payload; a replayed word
has its entry's payload, whose sequence is not checked again (R96). -/
def litCheck (i : Instr) (pay : Int) (lits : Nat) (replay : Bool) : Option Fail :=
  match i.litUse with
  | .none => if lits > 0 ∨ pay ≠ 0 then some { cause := 3 } else none
  | .lit => if lits ≥ 2 then some { cause := 3 } else none
  | .off v => if offFits (pay * 3 ^ 12 + v.val) then none else some { cause := 3 }
  | .two _ _ => if (lits ≥ 2 ∧ !replay) ∨ !fits 22 pay then some { cause := 3 } else none
  | .imm width b =>
    let v := pay * 81 + b
    if !fits width v then some { cause := 3 }
    else
      match i.immTop with
      | some top => if v < 0 ∨ v > top then some { cause := 1, detail := 3 } else none
      | none =>
        match i with
        | .loop _ => if offFits v then none else some { cause := 3 }
        | _ => none

/-- The elements of a register that a pending write governs in a lane's part (R65). -/
def PendLane.elems (l : PendLane) (byWord : Bool) : List Nat :=
  let p := l.governs byWord
  if byWord then (if p.trit 0 = 0 then [] else [0, 1, 2]) else [0, 1, 2].filter fun j => p.trit j != 0

/-- Two lists of elements that meet. -/
def meets (a b : List Nat) : Bool := a.any b.contains

/-- R183: the live lanes that supply operands to the active elements of a cross-lane word: those of the sub-groups of `sub`
lanes that hold one. -/
def suppliers (g : Group) (active : List Nat) (sub : Nat) (i : Instr) : List Nat :=
  let busy := active.filter fun j => (i.pred.eff (g.lane j)).trit 0 == 1
  g.live.filter fun j => busy.any fun b => b / Nat.max 1 sub == j / Nat.max 1 sub

/-- The tryte that the second source of a word picks in a lane, 0 where none does; what a LIT adds is a multiple of 3. -/
def pickedTryte (g : Group) (i : Instr) (j : Nat) : Nat :=
  let v : Int := match i.picker with
    | some (.g n) => ((g.lane j).rdG n.val).val
    | some (.h n) => ((g.lane j).rdH n.val).val
    | some (.s n) => (g.rdS n.val).val
    | some (.imm v) => v.val
    | none => 0
  (v % 3).toNat

/-- The elements of a register that a word reads and writes in a lane. -/
def readsOf (g : Group) (i : Instr) (r : RegName) (j : Nat) : List Nat :=
  if i.reads r then i.readElems r (i.pred.eff (g.lane j)) (pickedTryte g i j) else []
def writesOf (g : Group) (i : Instr) (r : RegName) (j : Nat) : List Nat :=
  if i.writes r then i.writeElems r (i.pred.eff (g.lane j)) (pickedTryte g i j) else []

/-- The lanes of an active set that a word reads for. -/
def readers (active : List Nat) (i : Instr) : List Nat := if i.uniform then active.take 1 else active

/-- R66: whether a word reads or writes an element of a register with a pending write of an active lane, or is supplied one. An s
register is written for the lowest active lane (R115). -/
def pendTouches (g : Group) (active : List Nat) (sub : Nat) (i : Instr) (p : Pending) : Bool :=
  match p.dest with
  | none => false
  | some d =>
    d.regs.any fun n => n != 0 &&
      (if d.toS then
        match p.lanes with
        | [] => false
        | l :: _ =>
          let es := l.elems d.byWord
          (readers active i).any (fun j => meets es (readsOf g i (.s n) j)) ||
            (active.take 1).any fun j => meets es (writesOf g i (.s n) j)
      else p.lanes.any fun l =>
        let es := l.elems d.byWord
        (active.contains l.lane && (meets es (readsOf g i (.g n) l.lane) || meets es (writesOf g i (.g n) l.lane))) ||
          (i.supplied.contains (.g n) && !es.isEmpty && (suppliers g active sub i).contains l.lane))

/-- R240: whether a word reads a register with an uncorrectable error: of its group, of an active lane, or supplied by
another lane. An inactive element reads nothing (R117, R118); the predicate register itself is read for every active lane. -/
def readsBad (s : State) (g : Group) (active : List Nat) (sub : Nat) (i : Instr) : Bool :=
  let on (r : RegName) (j : Nat) : Bool := !(readsOf g i r j).isEmpty
  let governs (n : Nat) : Bool := match i.pred with
    | .always => false
    | .pos k | .neg k => k.val == n
  s.bad.regs.any fun b => b.1 == g.wg && b.2.1 == g.hw &&
    (match b.2.2.2 with
      | .s n => (readers active i).any (on (.s n))
      | .k n => (readers active i).contains b.2.2.1 && (governs n || on (.k n) b.2.2.1)
      | r => (active.contains b.2.2.1 && on r b.2.2.1) ||
          (i.supplied.contains r && (suppliers g active sub i).contains b.2.2.1))

/-- R318: the memory licence: workgroups in order of placement from the starting point, whole, while the sum of their
hardware groups is within the limit (a ganged group counts three, R78); the oldest, the one at the starting point (so that none waits
longer than a rotation) and urgent ones always. -/
def State.licensed (s : State) (w : Workgroup) : Bool :=
  let c := s.coreAt (coreIdx w.core)
  let mine := s.wgs.filter fun v => v.core == w.core && v.st != .suspended
  let older (a b : Workgroup) : Bool := a.placed < b.placed || (a.placed == b.placed && a.id < b.id)
  let rank (v : Workgroup) : Nat := (mine.filter fun u => older u v).length
  let n := mine.length
  let pos (v : Workgroup) : Nat := (rank v + n - c.rotation % max n 1) % max n 1
  let before := mine.filter fun v => pos v < pos w
  let groups (v : Workgroup) : Nat := ((s.groupsOf v.id).map fun g => g.hws.length).foldl (· + ·) 0
  w.region.cls == .pos || rank w == 0 || pos w == 0 || decide (((before.map groups).foldl (· + ·) 0) + groups w ≤ c.licence)

/-- R100: the first failing check of a word that is ready to issue, of steps 1, 4, 5, 6, 7 and 8. `busy` is what the word's own
unit finds: with cause 1 a format that it refuses, in a selector at step 4 and in a descriptor where the range of the immediate
is checked (R446), else the accumulator check of R67. -/
def checkWord (s : State) (w : Workgroup) (g : Group) (i : Instr) (busy : Option Fail) : Option Fail :=
  let run := g.run
  let pay := match run.again with
    | some e => e.payload
    | none => run.payload
  if run.count ≥ 27 ∧ !(run.again.map (·.past)).getD false then some { cause := 4 }
  else if !i.wellFormed then some { cause := 1, detail := 3 }
  else
    let lits := if run.again.isSome then 0 else run.lits
    let lit := litCheck i pay lits run.again.isSome
    let neg := match lit with
      | some f => f.cause == 1 && lits == 0
      | none => false
    let unit := busy.any fun f => f.cause == 1
    if neg || (unit && (i.immTop.isNone || lits == 0)) then some { cause := 1, detail := 3 }
    else if overAlloc w i then some { cause := 1, detail := 5 }
    else match lit with
      | some f => some f
      | none =>
        if unit then some { cause := 1, detail := 3 }
        else if (i.supervisorOnly && !w.region.supervisor) || i.writesReadOnly || (i.handlerOnly && g.handler.isNone) then
          some { cause := 5 }
        else if i.modeViolation w.kernel.reforming then some { cause := 6 }
        else match busy with
          | some f => some f
          | none =>
            if w.kernel.checked && g.pend.any (pendTouches g run.active w.kernel.width i) then some { cause := 17 }
            else if readsBad s g run.active w.kernel.width i then some { cause := 15 }
            else none

/-! ### Reads ahead of a write (R65) -/

/-- For each element of a pending result, whether a read sees the old value (free). -/
def chooseOld (s : State) (byWord : Bool) : List Nat × State :=
  (if byWord then [0] else [0, 1, 2]).foldl (fun acc j =>
    let (b, s) := acc.2.flip
    (if b then acc.1 ++ [j] else acc.1, s)) ([], s)

/-- The group as an operand read may see it while a result is pending: per lane and element the old value or the new. -/
def viewPend (acc : Group × State) (p : Pending) : Group × State :=
  match p.dest with
  | none => acc
  | some d =>
    let hidden (l : PendLane) : List Nat := acc.2.unknown acc.1.ref p d.byWord l.lane
    if p.lanes.all fun l => (hidden l).length = 3 then acc
    else if d.toS then
      match p.lanes with
      | [] => acc
      | l :: _ =>
        let (old, s) := chooseOld acc.2 d.byWord
        let l := { l with landed := l.landed ++ old ++ hidden l }
        (acc.1.wrS d.num (mergeBy d.byWord (l.governs d.byWord) (acc.1.rdS d.num) l.r0), s)
    else
      p.lanes.foldl (fun acc l =>
        let (old, s) := chooseOld acc.2 d.byWord
        (acc.1.updLane l.lane (PendLane.land { l with landed := l.landed ++ old ++ hidden l } d), s)) acc

/-- A pending result lands in some elements of a lane, and does not land there again. -/
def PendLane.landIn (l : PendLane) (d : LongDest) (es : List Nat) (x : Lane) : Lane × PendLane :=
  let others := [0, 1, 2].filter fun j => !es.contains j
  (PendLane.land (if d.byWord then l else { l with landed := l.landed ++ others }) d x,
    { l with landed := l.landed ++ (if d.byWord then [0, 1, 2] else es) })

/-- R65, writes: before a fixed-latency word writes elements of a register with a pending result, that result may land in them
(free); it then does not land there again. -/
def landPend (i : Instr) (active : List Nat) (acc : Group × State) (p : Pending) : Group × State :=
  match p.dest with
  | none => acc
  | some d =>
    let u := i.regs
    let hidden (l : PendLane) : List Nat := acc.2.unknown acc.1.ref p d.byWord l.lane
    let written (l : PendLane) : List Nat := ((d.regs.flatMap fun n =>
      if d.toS then (active.take 1).flatMap (writesOf acc.1 i (.s n))
      else if active.contains l.lane then writesOf acc.1 i (.g n) l.lane else []).eraseDups).filter fun j => !(hidden l).contains j
    let free := i.slotOf.isSome || (p.lanes.all fun l => (hidden l).length = 3) || !(d.regs.any fun n => if d.toS then u.sw.contains n else u.gw.contains n)
    if free then acc
    else
      let (g, s, ls) := p.lanes.foldl (fun (acc : Group × State × List PendLane) l =>
        let (g, s, ls) := acc
        let es := written l
        let (b, s) := s.flip
        if !b || es.isEmpty then (g, s, ls ++ [l])
        else if d.toS then
          (g.wrS d.num (mergeBy d.byWord (l.governs d.byWord) (g.rdS d.num) l.r0), s, ls ++ [{ l with landed := [0, 1, 2] }])
        else
          let (x, l) := l.landIn d es (g.lane l.lane)
          (g.updLane l.lane fun _ => x, s, ls ++ [l])) (acc.1, acc.2, [])
      ({ g with pend := g.pend.map fun q => if q.id == p.id then { q with lanes := ls } else q }, s)

/-! ### The issue of a word -/

/-- The state in which a word has issued: it counts in its run, the payload is used up, and its lanes stand at the next
word. A replayed word that its lanes had moved past moves neither (R375). -/
def Group.advance (g : Group) (pc : Word) : Group :=
  if (g.run.again.map (·.past)).getD false then { g with run := { g.run with again := none, behind := false } }
  else
    let g := g.updLanes g.run.active fun _ l => { l with pc := Word.ofInt (pc.val + 3) }
    { g with run := { g.run with count := g.run.count + 1, payload := 0, lits := 0, held := none, again := none, behind := false }
             resuming := if g.run.again.isSome && !g.run.behind then none else g.resuming }

/-- R62: the temporaries of every lane are 0. -/
def Group.clearH (g : Group) : Group := { g with lanes := g.lanes.map fun l => { l with h := [] } }

/-- The end of a run (R60): the group leaves its slot for its next run, which waits for the slots of a mask (R64), and its
temporaries do not survive (R62). A resumed run that ends lets records be delivered again (R353). -/
def Group.endRun (g : Group) (mask : List Nat) : Group :=
  { g.clearH with phase := .boundary, run := .none, mask := mask, noRecord := g.noRecord && g.handler.isSome }

/-! ### Call records (R175) -/

/-- Whether every lane of the released subsets of a record has parked or exited. -/
def CallRec.returned (c : CallRec) (g : Group) : Bool := c.out.all fun i => c.parked.contains i || !(g.lane i).live

/-- A lane that has come to the return point of a call that it is in, of the innermost such call, parks there. -/
def parkLane (i : Nat) (pc : Word) : List CallRec → List CallRec × Bool
  | [] => ([], false)
  | c :: cs =>
    if c.out.contains i && !c.parked.contains i && c.ret == pc then ({ c with parked := c.parked ++ [i] } :: cs, true)
    else
      let (cs, b) := parkLane i pc cs
      (c :: cs, b)

/-- Records with no subset left and every lane back close, and their parked lanes are ready. -/
def Group.closeCalls (g : Group) : Group :=
  let (shut, keep) := g.calls.partition fun c => c.held.isEmpty && c.returned g
  let freed := shut.flatMap (·.parked)
  ({ g with calls := keep }).updLanes freed fun _ (l : Lane) => if l.st == LaneSt.parked then { l with st := .ready } else l

/-- Parks the lanes, of those that have moved, that have reached their return points; they leave the active set. -/
def Group.parkMoved (g : Group) (moved : List Nat) : Group :=
  moved.foldl (fun g i =>
    if (g.lane i).st == .ready then
      let (cs, hit) := parkLane i (g.lane i).pc g.calls
      if hit then
        { (g.updLane i fun l => { l with st := .parked }) with
          calls := cs, run := { g.run with active := g.run.active.filter (· != i) } }
      else g
    else g) g

/-- Parks lanes that have reached their return points and closes what has ended. Lanes that parked leave the active set; a
run with no active lane left ends. -/
def Group.settleCalls (g : Group) (moved : List Nat) : Group :=
  if g.calls.isEmpty then g
  else
    let g := (g.parkMoved moved).closeCalls
    if g.phase == .running && g.run.active.isEmpty then g.endRun [] else g

/-- A word of an instruction, 0 for what has none. -/
def wordOf (i : Instr) : Word := Word.ofInt ((encode i).getD 0)

/-- The trits that govern a lane of a word: its captured ones in a replayed entry that had issued (R376), else read. -/
def Issue.pred (x : Issue) (lane : Nat) : Trits 3 :=
  match x.again with
  | some e =>
    if e.issued then ((lanePart e.lanes lane).map (·.pred)).getD kZero else x.i.pred.eff (x.g.lane lane)
  | none => x.i.pred.eff (x.g.lane lane)

/-- R63: whether any element of any active lane is active; the uniform forms look at the lowest lane alone (R277). -/
def Issue.anyActive (x : Issue) : Bool :=
  let byWord := ((longDest x.i).map (·.byWord)).getD (match x.i with
    | .st y => y.wd != .t
    | .stStrong y => y.wd != .t
    | .stu y => y.wd != .t
    | .atom y => !y.tryte
    | _ => true)
  let on (j : Nat) : Bool :=
    let p := x.pred j
    if byWord then p.trit 0 == 1 else p.trit 0 == 1 || p.trit 1 == 1 || p.trit 2 == 1
  match x.i with
  | .ldu _ => (x.active.take 1).any on
  | .stu _ => (x.active.take 1).any on
  | _ => x.active.any on

/-- R63: a long-latency word whose slot would reach 27 stalls; an entry that holds a count does not. -/
def Issue.slotFull (x : Issue) : Bool :=
  match x.i.slotOf with
  | none => false
  | some n => x.anyActive && decide (x.g.rdW n ≥ 26) && !((x.again.map (·.slot)).getD false)

/-- Whether a word acquires (R251, R262): an access or an atomic with the order, and MSTAT that waits for done or consumed. -/
def Instr.acquires (i : Instr) : Bool :=
  let form (f : AccForm) : Bool := match f with
    | .strong q => q.order == .pos
    | .weak _ => false
  let atom (a : AtomArgs) : Bool := a.order == .acq || a.order == .acqrel
  match i with
  | .ldStrong y => form y.form
  | .ldu y => form y.form
  | .atom y | .atomr y | .cas y => atom y
  | .mstat y => y.when_ != .now
  | _ => false

/-- R251, R262: whether a later access of some lanes waits for a pending word: for an acquire until it completes, and for an
atomic of which elements are still to be performed (log 12). -/
def Pending.holdsBack (p : Pending) (lanes : List Nat) : Bool :=
  (!p.todo.isEmpty || (p.instr.map Instr.acquires).getD false) && p.lanes.any fun l => lanes.contains l.lane

/-- Whether an access of the active lanes waits for an earlier word of the group. -/
def Issue.heldBack (x : Issue) : Bool := x.g.pend.any fun p => p.holdsBack x.active

/-- A word of a group as it is issued: its operands are read (R65), it counts in its run and its lanes advance. -/
def State.issueOf (s : State) (w : Workgroup) (g : Group) (i : Instr) : Issue :=
  let (landed, s1) := g.pend.foldl (landPend i g.run.active) (g, s)
  let (view, s2) := landed.pend.foldl viewPend (landed, s1)
  let s0 := if g.pend.isEmpty then s else s2.updGroup g.ref fun _ => landed
  let adv := (s0.updGroup g.ref fun g => g.advance g.wordPc).progEvent (coreIdx w.core) 1 (some w.region.ctx.num)
  { s0 := s0, s := adv, w := w, g := view, r := g.ref, i := i, pc := g.wordPc, pay := g.wordPay, active := g.run.active,
    again := g.run.again }

/-- What follows a word's own effect: lanes that have come to a return point park (R175), and registers that a
fixed-latency word wrote whole hold no error (R240). -/
def Issue.after (x : Issue) (s : State) : State :=
  let s := s.updGroup x.r fun h => h.settleCalls x.active
  if x.i.slotOf.isSome || s.bad.regs.isEmpty then s
  else
    let whole (r : RegName) (j : Nat) : Bool := [0, 1, 2].all (x.i.writeElems r (x.pred j) (pickedTryte x.g x.i j)).contains
    let s := (x.i.regs.gw.map RegName.g ++ x.i.hRegs.2.map RegName.h ++ x.i.kRegs.2.map RegName.k).foldl
      (fun s r => s.repairRegs x.r (x.active.filter (whole r)) [r]) s
    (x.i.regs.sw.map RegName.s).foldl (fun s r => if (x.active.take 1).any (whole r) then s.repairRegs x.r [] [r] else s) s

/-- The issue of a word of a group that runs (R61, R63, R65, R100). -/
def State.issueWord (s : State) (w : Workgroup) (g : Group) (i : Instr) (busy : Option Fail) (eff : Issue → Eff) : State :=
  let pred := i.pred.eff
  match checkWord s w g i busy with
  | some f => s.takeFault g.ref (wordOf i) pred f
  | none =>
    let x := s.issueOf w g i
    if x.slotFull || (i.needsLicence && (!s.licensed w || x.heldBack)) then s
    else match eff x with
      | .done s' => x.after s'
      | .trap f => x.s0.takeFault g.ref (wordOf i) pred f
      | .trapIn s' f => s'.takeFault g.ref (wordOf i) pred f
      | .stall => s
      | .hold s' => s'.updGroup g.ref fun g => { g with run := { g.run with held := some i } }

/-- The meaning of a word: the group that runs on the current slot issues it; with none, nothing happens. -/
def runWord (i : Instr) (s : State) (eff : Issue → Eff) : Host.Outcome State Fault Refusal :=
  match s.running s.cur with
  | none => .next s
  | some (w, g) => .next (s.issueWord w g i none eff)

/-- The meaning of an event: it happens where it can. -/
def runEvent (s : State) (f : State → Option State) : Host.Outcome State Fault Refusal := .next ((f s).getD s)

/-! ## Operand values -/

/-- The address-register and data values of a lane. -/
def Issue.reg (x : Issue) (r : Reg) (lane : Nat) : Word := (x.g.lane lane).rd r
def Issue.greg (x : Issue) (n : Nat) (lane : Nat) : Word := (x.g.lane lane).rdG n

/-- R94: the immediate. -/
def Issue.imm (x : Issue) (b : Trits 4) : Int := x.pay * 81 + b.val

/-- The second source as a word. -/
def Issue.src (x : Issue) (b : Src) (lane : Nat) : Int :=
  match b with
  | .g n => (x.greg n.val lane).val
  | .h n => ((x.g.lane lane).rdH n.val).val
  | .s n => (x.g.rdS n.val).val
  | .imm v => x.imm v

def Issue.simm (x : Issue) (b : SImm) : Int :=
  match b with
  | .s n => (x.g.rdS n.val).val
  | .imm v => x.imm v

/-- Element j of a second source of tryte elements: an immediate of one tryte is used for every element. -/
def Issue.srcTryte (x : Issue) (b : Src) (lane j : Nat) : Int :=
  if b.isImm then x.src b lane else fld (x.src b lane) (9 * j) (9 * j + 8)

/-- A TF81 or fp64 triple. At g0 it reads as 0 in all three words, and a result is discarded (R19, R113). -/
def Lane.rdTriple (l : Lane) (n : Nat) : Int :=
  if n = 0 then 0 else (l.rdG n).val + 3 ^ 27 * (l.rdG (n + 1)).val + 3 ^ 54 * (l.rdG (n + 2)).val
def Lane.wrTriple (l : Lane) (n : Nat) (v : Int) : Lane :=
  if n = 0 then l else ((l.wrG n (Word.ofInt v)).wrG (n + 1) (Word.ofInt (dropInt 27 v))).wrG (n + 2) (Word.ofInt (dropInt 54 v))

/-- Element j of a g field under a type. -/
def Issue.elem (x : Issue) (ty : Ty) (r : Reg) (lane j : Nat) : Int :=
  if ty = .f81 then (x.g.lane lane).rdTriple (r.num)
  else if ty.tryte then fld (x.reg r lane).val (9 * j) (9 * j + 8) else (x.reg r lane).val

/-- R94: a TF27 code widened exactly to TF81. -/
def widen81 (code : Int) : Int := tf81.code (tf27.decode code)

/-- Element j of a second source under a type. -/
def Issue.elemB (x : Issue) (ty : Ty) (b : Src) (lane j : Nat) : Int :=
  if ty = .f81 then
    match b with
    | .g n => (x.g.lane lane).rdTriple n.val
    | _ => widen81 (x.src b lane)
  else if ty.tryte then x.srcTryte b lane j else x.src b lane

/-! ## Results -/

/-- R117: writes the elements of a lane's d: an active element takes its value, a kept one stays, a zeroed one is 0. Flags
come from active elements alone (R123). -/
def Lane.put (l : Lane) (ty : Ty) (d : Reg) (p : Trits 3) (f : Nat → Int × Flags) : Lane :=
  let flags := ty.elems.foldl (fun fl j => if p.trit j = 1 then fl.or (f j).2 else fl) l.fs
  let l := { l with fs := flags }
  if ty = .f81 then
    if p.trit 0 = 0 then l else l.wrTriple (d.num) (if p.trit 0 = 1 then (f 0).1 else 0)
  else if ty.tryte then
    let old := l.rd d
    let new := Word.ofInt ((wrapInt 9 (f 0).1) + 19683 * (wrapInt 9 (f 1).1) + 19683 * 19683 * (wrapInt 9 (f 2).1))
    l.wr d (mergeTrytes p old new)
  else l.wr d (mergeWord p (l.rd d) (Word.ofInt (f 0).1))

/-- A fixed-latency result in every active lane. -/
def Issue.putAll (x : Issue) (ty : Ty) (d : Reg) (f : Nat → Nat → Int × Flags) : Eff :=
  .done (x.s.updGroup x.r fun g => g.updLanes x.active fun i l => l.put ty d (x.pred i) (f i))

/-- R143: a k register written from trits under the effective trits. Under .w trit 0 alone counts, and the result trit is
written to all three. -/
def Lane.putK (l : Lane) (kd : Nat) (p : Trits 3) (byWord : Bool) (f : Nat → Int) : Lane :=
  let old := l.rdK kd
  if byWord then
    if p.trit 0 = 0 then l else l.wrK kd (Trits.ofInt 3 (if p.trit 0 = 1 then 13 * f 0 else 0))
  else
    let t (j : Nat) : Int := if p.trit j = 1 then f j else if p.trit j = 0 then old.trit j else 0
    l.wrK kd (Trits.ofInt 3 (t 0 + 3 * t 1 + 9 * t 2))

def Issue.putKAll (x : Issue) (kd : Nat) (byWord : Bool) (f : Nat → Nat → Int) : Eff :=
  .done (x.s.updGroup x.r fun g => g.updLanes x.active fun i l => l.putK kd (x.pred i) byWord (f i))

/-- R115: an s destination takes the lowest active lane's result. -/
def Group.putS (g : Group) (n : Nat) (byWord : Bool) (p : Trits 3) (v : Word) : Group :=
  g.wrS n (mergeBy byWord p (g.rdS n) v)

def Issue.setS (x : Issue) (s : State) (n : Nat) (v : Int) : State :=
  if x.active.isEmpty then s else s.updGroup x.r fun g => g.wrS n (Word.ofInt v)

/-- The lowest active lane (R115). -/
def Issue.low (x : Issue) : Nat := x.active.headD 0

/-- R63, R356: a long-latency word enters the pending list: its slot takes a count, unless its entry holds one. -/
def Issue.begin (x : Issue) (s : State) (lanes : List PendLane) (performed : Bool) (stores : List StoreElem)
    (todo : List MemElem := []) : State :=
  let slot := x.i.slotOf.getD 0
  let had := (x.again.map (·.slot)).getD false
  let p : Pending := { id := s.nextId, word := wordOf x.i, pc := x.pc, payload := x.pay, slot := slot, counted := true,
                       set := x.active, lanes := lanes, performed := performed, stores := stores, todo := todo }
  let s := { s with nextId := s.nextId + 1 }
  s.updGroup x.r fun g =>
    let g := if had then g else g.wrW slot (g.rdW slot + 1)
    let g := { g with pend := g.pend ++ [p] }
    match g.resuming with
    | some q => if x.again.isSome then { g with resuming := some { q with made := q.made ++ [p.id] } } else g
    | none => g

/-- R118, R356: a long-latency word with no active element: its − elements are zeroed at issue, and a count that its entry
holds is released. -/
def Issue.empty (x : Issue) : Eff :=
  let p : Pending := { id := x.s.nextId, word := wordOf x.i, pc := x.pc, payload := x.pay, slot := x.i.slotOf.getD 0,
                       counted := (x.again.map (·.slot)).getD false, set := x.active, todo := [],
                       lanes := x.active.map fun j => PendLane.new j (x.pred j), performed := true, stores := [] }
  .done (x.s.updGroup x.r fun g => (g.landAll p).release p)

end Sys2Proof.Machine
end

