-- ==== Sys2Proof/Machine/Lookup.lean ====
section
/-! DEFINITION. Reading the tables that shape computation (17_compute_tables.md R383 to R389): a core's copies of
entries, filled from a region's table block, and the meaning of a format, a shape and a pattern entry. -/

namespace Sys2Proof.Machine

/-- R385: n words of the entry at a tryte offset of a region's table block, from the core's copy or by a fill. None where
the region has no block (R384) or the block cannot be read. -/
def State.entryNow (s : State) (w : Workgroup) (off n : Nat) : State × Option (List Int) :=
  let core := coreIdx w.core
  let blk := w.region.comptab
  let c := w.region.ctx
  if blk = 0 then (s, none)
  else
    match (s.coreAt core).tables.find? fun t => t.block == blk && t.ctx == c.num && t.offset == off with
    | some t => (s, some (t.words.map (·.val)))
    | none =>
      match s.structRead (structWho w.core.die c) (blk + off) n with
      | .error _ => (s, none)
      | .ok (s, vs) =>
        (s.updCore core fun cs => { cs with tables := cs.tables ++ [⟨blk, c.num, off, vs.map Word.ofInt⟩] }, some vs)

/-- R392: the writes of an entry that are under way: their groups hold at the word. -/
def State.writesOf (s : State) (w : Workgroup) (off : Nat) : List TabWrite :=
  s.tabWrites.filter fun t => t.block == w.region.comptab && t.ctx == w.region.ctx.num && t.offset == off &&
    ((s.groupOf ⟨t.wg, t.hw⟩).map fun g => g.run.held.isSome).getD false

/-- R385, R392: the words of an entry as a reading instruction sees them: the entry as it stands, or one that is being written
(free). -/
def State.tableEntry (s : State) (w : Workgroup) (off n : Nat) : State × Option (List Int) :=
  match s.writesOf w off with
  | [] => s.entryNow w off n
  | ts =>
    let (i, s) := s.pick (ts.length + 1)
    match ts[i]? with
    | some t => (s, some (t.words.map (·.val)))
    | none => s.entryNow w off n

/-! ## Formats -/

/-- R386, Table 2: the format of a stored entry; none where it is absent. -/
def fmtOfWord (v : Int) : Option Fmt :=
  let width := fld v 0 4
  let q := fld v 5 7
  let o := fld v 8 12
  let pol : Option Policy := match fld v 13 14 with
    | 0 => some .saturate
    | 1 => some .infnan
    | -1 => some .scale
    | _ => none
  match pol with
  | none => none
  | some p =>
    let f : Fmt := ⟨width.toNat, q.toNat, o, p⟩
    if tritAt v 15 = 1 ∧ width ≥ 0 ∧ q ≥ 0 ∧ fld v 16 26 = 0 ∧ f.legal then some f else none

/-- The tryte offset of format entry i in a table block (R383, Table 1). -/
def fmtOffset (i : Nat) : Nat := 3 * (i - 9)
def shapeOffset (i : Nat) : Nat := 81 + 18 * i
def patternOffset (i : Nat) : Nat := 2187 + 81 * i

/-- R36, R386: the format of an index 0..26. -/
def State.fmtAt (s : State) (w : Workgroup) (i : Nat) : State × Option Fmt :=
  match fixedFmt i with
  | some f => (s, some f)
  | none =>
    if i < 9 ∨ i > 26 then (s, none)
    else
      let (s, vs) := s.tableEntry w (fmtOffset i) 1
      (s, vs.bind fun vs => fmtOfWord (vs.headD 0))

/-! ## Formats of matrix words (R193, R208, R215) -/

/-- R193. -/
def weightOk (f : Fmt) : Bool := (f.w == 9 || f.w == 3) && f.policy != .scale
def activationOk (f : Fmt) : Bool := decide (1 ≤ f.w) && decide (f.w ≤ 9) && f.policy != .scale
/-- R215: the formats that MSTORE accepts. -/
def storeOk (i : Nat) (f : Fmt) : Bool := i == 6 || activationOk f

/-- R208: the descriptor that a value names, none where a format is refused. A format that it names twice is read once (R392). -/
def State.descriptorOf (s : State) (w : Workgroup) (v : Int) : State × Option MatDesc :=
  let d := v.toNat
  let (s, wf) := s.fmtAt w (d % 27)
  let (s, af) := if d / 27 % 27 = d % 27 then (s, wf) else s.fmtAt w (d / 27 % 27)
  (s, match wf, af with
    | some wf, some af => if weightOk wf && activationOk af then some ⟨wf, af, d / 729 == 1⟩ else none
    | _, _ => none)

/-- R208, R215, R446: whether a matrix word refuses the formats that it names. -/
structure TableRead where
  refused : Bool := false
  desc : Option MatDesc := none
  fmt : Option Fmt := none
deriving DecidableEq, Repr

/-- What a matrix word reads of the format entries before it issues, by its fields and the value of its immediate: MLOAD, MLOADP
and MSTORE. The core keeps the copies, whether the word then issues or not (R385). -/
def State.readTable (s : State) (w : Workgroup) (f : Fields) (v : Int) : State × TableRead :=
  if f.op = 109 ∨ f.op = 110 then
    if v < 0 ∨ v > 1457 then (s, {})
    else
      let (s, d) := s.descriptorOf w v
      let planes (d : MatDesc) : Bool := f.op == 110 && (d.wf.q != 0 || decide (f.var + 5 > (d.wf.w : Int)))
      (s, { refused := d.isNone || d.any planes, desc := d })
  else if f.op = 116 ∧ 0 ≤ f.b ∧ f.b ≤ 26 then
    let (s, o) := s.fmtAt w f.b.toNat
    (s, { refused := !o.any (storeOk f.b.toNat), fmt := o })
  else (s, {})

/-- What a word of a group reads of the format entries. -/
def State.tableFor (s : State) (w : Workgroup) (g : Group) (i : Instr) : State × TableRead :=
  match i.fields with
  | some f => s.readTable w f (g.wordPay * 81 + f.b)
  | none => (s, {})

/-- The meaning of a word whose formats are checked before it issues (R100 steps 4 and 5). -/
def runTableWord (i : Instr) (s : State) (eff : TableRead → Issue → Eff) : Host.Outcome State Fault Refusal :=
  match s.running s.cur with
  | none => .next s
  | some (w, g) =>
    let (t, r) := s.tableFor w g i
    .next (t.issueWord w g i (if r.refused then some { cause := 1, detail := 3 } else none) (eff r))

/-! ## Shapes -/

/-- A shape entry as TIDX and TJOIN use it: its extents, innermost first, with as many as its rank (R148). -/
structure Shape where
  extents : List Int
deriving DecidableEq, Repr

def Shape.product (sh : Shape) : Int := sh.extents.foldl (· * ·) 1
/-- The stride of coordinate i (R148). -/
def Shape.stride (sh : Shape) (i : Nat) : Int := (sh.extents.take i).foldl (· * ·) 1

/-- R388: a valid entry from its six words; rank 0 for any other. -/
def shapeOfWords (vs : List Int) : Shape :=
  let rank := (fld (vs.getD 0 0) 0 2).toNat
  let es := (List.range 5).map fun i => vs.getD (i + 1) 0
  let sh : Shape := ⟨es.take rank⟩
  if fld (vs.getD 0 0) 3 26 = 0 ∧ fld (vs.getD 0 0) 0 2 ≥ 1 ∧ rank ≤ 5 ∧ sh.extents.all (fun e => decide (e ≥ 1)) ∧
      (es.drop rank).all (fun e => e == 0) ∧ sh.product ≤ counterMax then sh
  else ⟨[]⟩

/-- R148: the shape entry that a value of B names. -/
def State.shapeAt (s : State) (w : Workgroup) (b : Int) : State × Shape :=
  if b < 0 ∨ b > 80 then (s, ⟨[]⟩)
  else
    let (s, vs) := s.tableEntry w (shapeOffset b.toNat) 6
    (s, match vs with
      | some vs => shapeOfWords vs
      | none => ⟨[]⟩)

/-! ## Patterns -/

/-- R389: the sources of the 81 positions of a pattern entry; none where every position is own. -/
def State.patternAt (s : State) (w : Workgroup) (b : Int) : State × Option (List Int) :=
  if b < 0 ∨ b > 80 then (s, none)
  else
    let (s, vs) := s.tableEntry w (patternOffset b.toNat) 27
    (s, vs.bind fun vs =>
      let ts := vs.flatMap fun v => (List.range 3).map fun j => fld v (9 * j) (9 * j + 8)
      if ts.all (fun t => decide (-1 ≤ t ∧ t ≤ 80)) then some ts else none)

end Sys2Proof.Machine
end

