-- ==== Sys2Proof/Machine/Run.lean ====
section
/-! DEFINITION. The next word of a running group: held words and replayed entries (16_traps_and_preemption.md R375), the
run-length check, instruction fetch (R100 step 2, 18_system_tables.md R422), and decoding. The active set of a run start
(03_execution.md R68). -/

namespace Sys2Proof.Machine

/-! ## The active set (R68) -/

/-- The least element of a list by value. -/
def leastInt : List Int → Int
  | [] => 0
  | x :: xs => xs.foldl (fun a b => if b < a then b else a) x

/-- R68: the issue PC that a group chooses. -/
def Group.issuePc (g : Group) : Int :=
  let late := g.ready.filter fun i => decide ((g.lane i).skip ≥ 27)
  if late.isEmpty then leastInt (g.ready.map fun i => (g.lane i).pc.val)
  else
    let top := (late.map fun i => (g.lane i).skip).foldl Nat.max 0
    leastInt ((late.filter fun i => (g.lane i).skip == top).map fun i => (g.lane i).pc.val)

/-- R68: the active set, and the skip counts that follow. -/
def Group.chooseActive (g : Group) : Group :=
  let pc := g.issuePc
  let active := g.ready.filter fun i => (g.lane i).pc.val == pc
  let g := g.updLanes g.ready fun i l => { l with skip := if active.contains i then 0 else l.skip + 1 }
  { g with run := { g.run with active := active } }

/-- R375: the run that RESUME began goes on: at the boundary where it was stopped, a new active set is chosen; else with the
lanes that it was stopped with, the lowest PC where a handler has moved them apart. A run without lanes ends. Lanes that REFORM
was about to file when it was stopped, at a boundary with an active set, are filed (R70). -/
def Group.goOn (g : Group) (q : Resuming) : Group :=
  let g := { g with resuming := none, run := { g.run with again := none, behind := false } }
  let ls := q.active.filter fun i => (g.lane i).st == .ready
  if q.boundary && !ls.isEmpty then { g.clearH with phase := .reforming, run := { g.run with active := ls } }
  else
    let g := if q.boundary then g.clearH.chooseActive
      else
        let pc := leastInt (ls.map fun i => (g.lane i).pc.val)
        { g with run := { g.run with active := ls.filter fun i => (g.lane i).pc.val == pc } }
    if g.run.active.isEmpty then g.endRun [] else g

/-! ## Fetch -/

/-- The trytes of a window's line of 81 as code sees them: those in the window's extent (R232), 0 beyond it. -/
def State.fetchWindow (s : State) (w : Workgroup) (start : Int) : Except Nat (State × List Tryte) :=
  match (List.range 27).findSome? fun k => match s.translate w.who .fetch (81 - 3 * k) start with
    | .ok (s, p) => some (s, p, 81 - 3 * k)
    | .error _ => none with
  | none => .error 7
  | some (s, p, n) => do
    let ps ← p.span n
    let (s, ts) ← s.readElem w.who true ps
    .ok (s, ts ++ List.replicate (81 - n) zeroT)

/-- The 81 trytes of a virtual line as an access of the group's code sees them: from the instruction cache of the core, or
from the last-level cache. Where a cached line differs from memory, either (R422, free). -/
def State.fetchBytes (s : State) (w : Workgroup) (va : Int) : Except Nat (State × List Tryte) := do
  let core := coreIdx w.core
  let ctx := w.region.ctx.num
  let line := va / 81
  let (s, p) ← s.translate w.who .fetch 3 va
  match p with
  | .line q =>
    let fresh := s.llcRead w.core.die q ((List.range 81).map (q.tryte / 81 * 81 + ·))
    let keep (s : State) (ts : List Tryte) : State :=
      s.updCore core fun c => { c with icache := (c.icache.filter fun l => !(l.ctx == ctx && l.line == line)) ++ [⟨ctx, line, ts⟩] }
    match (s.coreAt core).icache.find? fun l => l.ctx == ctx && l.line == line with
    | none => do
      let (s, ts) ← fresh
      .ok (keep s ts, ts)
    | some l =>
      match fresh with
      | .error _ => .ok (s, l.trytes)
      | .ok (s', ts) =>
        if ts = l.trytes then .ok (s, ts)
        else
          let (old, s) := s.flip
          if old then .ok (s, l.trytes) else .ok (keep { s' with free := s.free } ts, ts)
  | _ => s.fetchWindow w (va - va % 81)

/-- The word at an address of the current run: from a line fetched earlier in the run (R422), or fetched now (R60). -/
def State.fetchWord (s : State) (w : Workgroup) (r : GroupRef) (run : Run) (pc : Int) : Except Nat (State × Int) :=
  let line := pc / 81
  let word (ts : List Tryte) : Int := ofTrytes ((ts.drop (pc % 81).toNat).take 3)
  match run.lines.find? fun l => l.line == line with
  | some l => .ok (s, word l.trytes)
  | none => do
    let (s, ts) ← s.fetchBytes w pc
    let s := s.updGroup r fun g => { g with run := { g.run with lines := g.run.lines ++ [⟨line, ts⟩] } }
    .ok (s, word ts)

/-- R100, R101: the trap of a word that does not decode, for a group's allocation and payload; `refused` tells that it is a
matrix word that refuses its format, too. -/
def illegalFail (w : Workgroup) (lits : Nat) (e : Illegal) (refused : Bool) : Fail :=
  if e.cause = 2 then { cause := 2, detail := e.details.headD 9 }
  else
    let beyond := decide (e.gTop > 9 * w.kernel.regs) || decide (e.tileTop > w.kernel.tiles)
    let ds := e.details ++ flag 5 beyond ++ flag 3 (e.negImm && lits == 0) ++ flag 3 refused
    { cause := e.cause, detail := ds.foldl Nat.min (ds.headD 3) }

/-! ## The next word -/

/-- What the next turn of a running group is: an instruction to execute in a state, or a state that is the whole turn. -/
inductive NextWord where
  | exec (i : Instr) (s : State)
  | stop (s : State)

/-- A fetched or replayed word is decoded; a word that is none traps. -/
def State.decodeNext (s : State) (w : Workgroup) (r : GroupRef) (v : Int) (lits : Nat) : NextWord :=
  match decodeWord v with
  | .ok i => .exec i s
  | .error e =>
    let f := Fields.ofWord v
    let (s, t) := if lits = 0 ∨ f.op = 116 then s.readTable w f f.b else (s, {})
    .stop (s.takeFault r (Word.ofInt v) ((Sys2Proof.predOf f).getD .always).eff (illegalFail w lits e t.refused))

/-- The fetch of a group's next word (R100 steps 1 to 4). -/
def State.fetchNext (s : State) (w : Workgroup) (g : Group) : NextWord :=
  let r := g.ref
  let pc := g.wordPc.val
  let all : Lane → Trits 3 := fun _ => kAll
  if g.run.active.isEmpty then .stop s
  else if g.run.count ≥ 27 then .stop (s.takeFault r zeroW all { cause := 4 })
  else if pc % 3 ≠ 0 then .stop (s.takeFault r zeroW all { cause := 12 })
  else match s.fetchWord w r g.run pc with
    | .error c => .stop (s.takeFault r zeroW all { cause := c })
    | .ok (s, v) => s.decodeNext w r v (if g.run.again.isSome then 1 else g.run.lits)

/-- R375: entry 0 is re-issued once the others are complete: an entry that issued as the word of its item 1, any other as
the word fetched afresh; a record entry restarts what it parks (R360), as the caller does. -/
def State.reissueHead (s : State) (w : Workgroup) (g : Group) (q : Resuming) (e : ReEntry) : NextWord :=
  let set := e.set.filter fun i => (g.lane i).live
  if set.isEmpty then
    let slot := match decodeWord e.word.val with
      | .ok i => i.slotOf
      | .error _ => none
    let g := match e.slot, slot with
      | true, some n => g.wrW n (g.rdW n - 1)
      | _, _ => g
    .stop (s.updGroup g.ref fun _ => g.goOn q)
  else
    let g := { g with run := { g.run with active := set, again := some e, behind := e.past }
                      resuming := if e.past then some { q with head := none } else g.resuming }
    let s := s.updGroup g.ref fun _ => g
    if e.issued then s.decodeNext w g.ref e.word.val 1 else s.fetchNext w g

/-- R375: an entry behind the head is re-issued as the word of its item 1. -/
def State.reissueNext (s : State) (w : Workgroup) (g : Group) (q : Resuming) (e : ReEntry) (rest : List ReEntry) : NextWord :=
  let set := e.set.filter fun i => (g.lane i).live
  let g := { g with resuming := some { q with entries := rest } }
  if set.isEmpty then
    let slot := match decodeWord e.word.val with
      | .ok i => i.slotOf
      | .error _ => none
    let g := match e.slot, slot with
      | true, some n => g.wrW n (g.rdW n - 1)
      | _, _ => g
    .stop (s.updGroup g.ref fun _ => g)
  else
    let g := { g with run := { g.run with active := set, again := some e, behind := true } }
    let s := s.updGroup g.ref fun _ => g
    if e.issued then s.decodeNext w g.ref e.word.val 1 else s.fetchNext w g

/-- R360: a parked copy slice or step runs again, reading its request and layouts afresh; a skipped one is done. -/
def State.unpark (s : State) (c : Option (Nat × Nat)) (retry : Bool) : State :=
  match c with
  | none => s
  | some (id, n) =>
    let slice (x : Slice) : Slice := { x with st := if retry then .retry else .skipped }
    let one (c : Copy) : Copy :=
      if c.id = id then
        if n < c.slices.length then { c with slices := updAt c.slices n slice }
        else { c with parked := false, reread := retry, stage := if retry then c.stage else 4 }
      else c
    { s with copies := s.copies.map one }

/-- The next word of the group that runs on a slot. -/
def State.nextWord (s : State) (w : Workgroup) (g : Group) : NextWord :=
  match g.run.held with
  | some i => .exec i s
  | none =>
    match g.run.again with
    | some e => if e.issued then s.decodeNext w g.ref e.word.val 1 else s.fetchNext w g
    | none =>
      match g.resuming with
      | none => s.fetchNext w g
      | some q =>
        match q.entries with
        | e :: rest => s.reissueNext w g q e rest
        | [] =>
          if !q.made.isEmpty then .stop s
          else match q.head with
            | none => .stop (s.updGroup g.ref fun g => g.goOn q)
            | some e =>
              if !e.rec_.isEmpty then .stop ((s.unpark e.copy true).updGroup g.ref fun g => g.goOn q)
              else s.reissueHead w g q e

/-! ## Turns (log 1) -/

/-- The next turn: the head of the agenda, else the one that Config names for the number of turns taken. -/
def State.nextTurn (s : State) : Option Turn × State :=
  match s.agenda with
  | t :: rest => (some t, { s with agenda := rest, turns := s.turns + 1 })
  | [] => (Config.turn s.turns, { s with turns := s.turns + 1 })

/-! ## A word placed for the next step (the host's question) -/

/-- A line of 81 trytes with a word at a tryte of it. -/
def lineWith (ts : List Tryte) (at_ : Nat) (v : Int) : List Tryte :=
  (((ts ++ List.replicate (81 - ts.length) zeroT).set at_ (Tryte.ofInt v)).set (at_ + 1) (Tryte.ofInt (dropInt 9 v))).set
    (at_ + 2) (Tryte.ofInt (dropInt 18 v))

/-- A group that is in the middle of a run, at an aligned PC, about to fetch. -/
def Group.fetching (g : Group) : Bool :=
  !g.run.active.isEmpty && g.run.held.isNone && g.run.again.isNone && g.resuming.isNone && decide (g.run.count < 27) &&
    decide (g.wordPc.val % 3 = 0)

/-- The region of a program that is loaded from outside (log 10): supervisor, system world, no handler. -/
def loadRegion : Region :=
  { number := zeroW, block := 0, cls := .zero, world := .pos, supervisor := true, budget := 0, budgetBlock := 0,
    handler := zeroW, dfq := 0, attrtab := 0, comptab := 0, seed := zeroW, deadline := 0, frames := 0, save := 0, stride := 0,
    partition := 0, ancestors := [], ctx := ⟨0, 0, 0, 1, 0, []⟩ }

/-- The kernel of a program that is loaded from outside: one thread, 81 registers, 27 tiles. -/
def loadKernel : Kernel :=
  { entry := zeroW, reforming := false, binAge := 0, width := 27, regs := 9, scratch := granule, priv := 0, tiles := 27,
    checked := false, threads := 1 }

def loadWorkgroup (id : Nat) (c : CoreRef) : Workgroup :=
  { id := id, st := .resident, core := c, index := zeroW, region := loadRegion, kernel := loadKernel, gran := 0, grans := 1,
    tiles := List.range 27, saveIdx := 0, placed := 0, launch := List.replicate 26 zeroW, node := none, preq := false,
    preqAt := 0, save := .none, entry := none, forced := false, ctxsv := false, saveAt := 0, banks := [], bins := [], img := none }

/-- Its group, in a run at address 0 with the word at hand. -/
def loadGroup (id slot : Nat) (v : Int) : Group :=
  { wg := id, hw := 0, slot := slot, lanes := [{ Lane.absent with st := .ready }], s := [], w := [], pend := [], calls := [],
    phase := .running
    run := { Run.none with active := [0], lines := [⟨0, lineWith [] 0 v⟩] }
    mask := [], lastStart := 0, placed := 0, ceded := false, handler := none, resuming := none, saveFrame := false, noRecord := false,
    cpys := 0, stale := 0 }

/-- Puts a word where a running group fetches it: into the line of its run. -/
def Run.withWord (run : Run) (pc v : Int) : Run :=
  let old := ((run.lines.find? fun l => l.line == pc / 81).map (·.trytes)).getD []
  { run with lines := ⟨pc / 81, lineWith old (pc % 81).toNat v⟩ :: run.lines }

/-- The state in which the next step fetches and runs a given word: at the PC of the group that runs on the current slot;
where none is about to fetch, on a group that a loader has placed there. -/
def State.withWord (s : State) (v : Int) : State :=
  let s := { s with agenda := .word s.cur :: s.agenda }
  let fresh : State :=
    { s with nextId := s.nextId + 1, wgs := loadWorkgroup s.nextId s.cur.core :: s.wgs
             groups := loadGroup s.nextId s.cur.slot v :: s.groups }
  match s.running s.cur with
  | some (_, g) => if g.fetching then s.updGroup g.ref fun g => { g with run := g.run.withWord g.wordPc.val v } else fresh
  | none => fresh

end Sys2Proof.Machine
end

