-- ==== Sys2Proof/Machine/Integer.lean ====
section
/-! DEFINITION. Integer, trit-logic and index instructions (06_integer_instructions.md R128 to R150). -/

namespace Sys2Proof.Machine

/-! ## Shared shapes -/

/-- The width of an element (R128). -/
def elemWidth (ty : Ty) : Nat := if ty.tryte then 9 else 27

/-- R13, R14. -/
def satInt (n : Nat) (v : Int) : Int × Flags :=
  if v > maxMag n then (maxMag n, { saturate := true })
  else if v < -(maxMag n : Int) then (-(maxMag n : Int), { saturate := true })
  else (v, {})

/-- A result of a value without flags. -/
def plain (v : Int) : Int × Flags := (v, {})

/-- An element operation of width n on a, b and the old d. -/
abbrev ElemFn := Nat → Int → Int → Int → Int × Flags

/-- R117, R128: an element operation of two sources in every active lane. -/
def Issue.op3 (x : Issue) (a : Op3) (f : ElemFn) : Eff :=
  x.putAll a.ty a.d fun l j =>
    f (elemWidth a.ty) (x.elem a.ty a.a l j) (x.elemB a.ty a.b l j) (x.elem a.ty a.d l j)

def Issue.op2 (x : Issue) (a : Op2) (f : Nat → Int → Int × Flags) : Eff :=
  x.putAll a.ty a.d fun l j => f (elemWidth a.ty) (x.elem a.ty a.a l j)

/-! ## Moves and addresses -/

/-- R132, R93, R94: a LIT adds its payload to the pending one; a re-issued LIT to the P of its entry, which stands for one
LIT where it is not 0 (R96). -/
def litStep (p : Trits 22) (x : Issue) : Eff :=
  let before : Nat := match x.again with
    | some _ => if x.pay = 0 then 0 else 1
    | none => ((x.s0.groupOf x.r).map fun g => g.run.lits).getD 0
  .done (x.s.updGroup x.r fun g => { g with run := { g.run with payload := x.pay * 3 ^ 22 + p.val, lits := before + 1 } })

def execLit (p : Trits 22) (s : State) : Host.Outcome State Fault Refusal := runWord (.lit p) s (litStep p)

/-- R130. -/
def execMov (a : MovArgs) (s : State) : Host.Outcome State Fault Refusal :=
  runWord (.mov a) s fun x => x.putAll a.ty a.d fun l j => plain (x.elemB a.ty a.b l j)

/-- R115, R116: a word for s_d from the lowest active lane, under its trits. -/
def Issue.putS (x : Issue) (n : Nat) (byWord : Bool) (v : Word) : Eff :=
  match x.active with
  | [] => .done x.s
  | l :: _ => .done (x.s.updGroup x.r fun g => g.putS n byWord (x.pred l) v)

/-- A word of elements. -/
def joinTrytes (f : Nat → Int) : Word := Word.ofInt (wrapInt 9 (f 0) + 19683 * wrapInt 9 (f 1) + 19683 * 19683 * wrapInt 9 (f 2))

/-- R131. -/
def execMovi (a : MoviArgs) (s : State) : Host.Outcome State Fault Refusal :=
  runWord (.movi a) s fun x =>
    let v (j : Nat) : Int := x.elemB a.ty a.b x.low j
    x.putS a.sd.val (!a.ty.tryte) (if a.ty.tryte then joinTrytes v else Word.ofInt (v 0))

/-- R133. -/
def execLea (a : LeaArgs) (s : State) : Host.Outcome State Fault Refusal :=
  runWord (.lea a) s fun x =>
    x.putAll .w a.d fun l _ => plain ((x.reg a.a l).val + x.src a.b l * 3 ^ a.scale.val)

/-! ## Arithmetic -/

/-- R134. -/
def fnAdd : ElemFn := fun n a b _ => plain (wrapInt n (a + b))
def fnSub : ElemFn := fun n a b _ => plain (wrapInt n (a - b))
def fnAdds : ElemFn := fun n a b _ => satInt n (a + b)
def fnSubs : ElemFn := fun n a b _ => satInt n (a - b)

def execAdd (a : Op3) (s : State) : Host.Outcome State Fault Refusal := runWord (.add a) s (·.op3 a fnAdd)
def execSub (a : Op3) (s : State) : Host.Outcome State Fault Refusal := runWord (.sub a) s (·.op3 a fnSub)
def execAdds (a : Op3) (s : State) : Host.Outcome State Fault Refusal := runWord (.adds a) s (·.op3 a fnAdds)
def execSubs (a : Op3) (s : State) : Host.Outcome State Fault Refusal := runWord (.subs a) s (·.op3 a fnSubs)

/-- R135. -/
def execNeg (a : Op2) (s : State) : Host.Outcome State Fault Refusal :=
  runWord (.neg a) s (·.op2 a fun _ v => plain (-v))
def execAbs (a : Op2) (s : State) : Host.Outcome State Fault Refusal :=
  runWord (.abs a) s (·.op2 a fun _ v => plain v.natAbs)
def execSgn (a : Op2) (s : State) : Host.Outcome State Fault Refusal :=
  runWord (.sgn a) s (·.op2 a fun _ v => plain v.sign)

/-- R136: the low and the high half of a product. -/
def fnMul : ElemFn := fun n a b _ => plain (wrapInt n (a * b))
def fnMulh : ElemFn := fun n a b _ => plain (dropInt n (a * b))
def fnMad : ElemFn := fun n a b d => plain (wrapInt n (d + a * b))

def execMul (a : Op3) (s : State) : Host.Outcome State Fault Refusal := runWord (.mul a) s (·.op3 a fnMul)
def execMulh (a : Op3) (s : State) : Host.Outcome State Fault Refusal := runWord (.mulh a) s (·.op3 a fnMulh)
def execMad (a : Op3) (s : State) : Host.Outcome State Fault Refusal := runWord (.mad a) s (·.op3 a fnMad)

/-- R137: the quotient to nearest, an exact half toward zero, for b ≠ 0. -/
def quotNearest (a b : Int) : Int := if b < 0 then divNearest (-a) (-b) else divNearest a b
/-- R137: toward zero. -/
def quotZero (a b : Int) : Int := Int.tdiv a b
/-- R137: the floor. -/
def quotFloor (a b : Int) : Int := Int.fdiv a b

/-- R137: a quotient, or with a 0 divisor 0 and divzero. -/
def fnDivide (q : Int → Int → Int) : ElemFn := fun _ a b _ =>
  if b = 0 then (0, { divzero := true }) else plain (q a b)
def fnRemain (q : Int → Int → Int) : ElemFn := fun _ a b _ =>
  if b = 0 then (0, { divzero := true }) else plain (a - b * q a b)

def execDivn (a : Op3) (s : State) : Host.Outcome State Fault Refusal :=
  runWord (.divn a) s (·.op3 a (fnDivide quotNearest))
def execDivz (a : Op3) (s : State) : Host.Outcome State Fault Refusal := runWord (.divz a) s (·.op3 a (fnDivide quotZero))
def execDivf (a : Op3) (s : State) : Host.Outcome State Fault Refusal := runWord (.divf a) s (·.op3 a (fnDivide quotFloor))
def execRemn (a : Op3) (s : State) : Host.Outcome State Fault Refusal :=
  runWord (.remn a) s (·.op3 a (fnRemain quotNearest))
def execRemz (a : Op3) (s : State) : Host.Outcome State Fault Refusal := runWord (.remz a) s (·.op3 a (fnRemain quotZero))
def execRemf (a : Op3) (s : State) : Host.Outcome State Fault Refusal := runWord (.remf a) s (·.op3 a (fnRemain quotFloor))

/-- R138. CLAMP: the lower bound a wins over the upper bound b. -/
def minInt (a b : Int) : Int := if b < a then b else a
def maxInt (a b : Int) : Int := if a < b then b else a
def fnClamp : ElemFn := fun _ a b d => plain (maxInt a (minInt d b))

def execMin (a : Op3) (s : State) : Host.Outcome State Fault Refusal :=
  runWord (.min a) s (·.op3 a fun _ u v _ => plain (minInt u v))
def execMax (a : Op3) (s : State) : Host.Outcome State Fault Refusal :=
  runWord (.max a) s (·.op3 a fun _ u v _ => plain (maxInt u v))
def execClamp (a : Op3) (s : State) : Host.Outcome State Fault Refusal := runWord (.clamp a) s (·.op3 a fnClamp)

/-! ## Trits as logic -/

/-- R139, Table 4. -/
def tMin (x y : Int) : Int := minInt x y
def tMax (x y : Int) : Int := maxInt x y
def tSum3 (x y : Int) : Int := wrapInt 1 (x + y)
def tPrd (x y : Int) : Int := x * y
def tCns (x y : Int) : Int := if x = y then x else 0

/-- A trit function applied to each position of n trits. -/
def tritwise (f : Int → Int → Int) (n : Nat) (a b : Int) : Int :=
  ofTrits ((List.range n).map fun i => f (tritAt a i) (tritAt b i))
def fnTrits (f : Int → Int → Int) : ElemFn := fun n a b _ => plain (tritwise f n a b)

def execTmin (a : Op3) (s : State) : Host.Outcome State Fault Refusal := runWord (.tmin a) s (·.op3 a (fnTrits tMin))
def execTmax (a : Op3) (s : State) : Host.Outcome State Fault Refusal := runWord (.tmax a) s (·.op3 a (fnTrits tMax))
def execTsum3 (a : Op3) (s : State) : Host.Outcome State Fault Refusal := runWord (.tsum3 a) s (·.op3 a (fnTrits tSum3))
def execTprd (a : Op3) (s : State) : Host.Outcome State Fault Refusal := runWord (.tprd a) s (·.op3 a (fnTrits tPrd))
def execTcns (a : Op3) (s : State) : Host.Outcome State Fault Refusal := runWord (.tcns a) s (·.op3 a (fnTrits tCns))

/-- R140: a shift to the left by c, a negative c to the right; n or more gives 0. -/
def shiftLeft (n : Nat) (a c : Int) : Int :=
  if c.natAbs ≥ n then 0 else if c ≥ 0 then wrapInt n (a * pow3 c) else dropInt (-c).toNat a
/-- R140: a rotation to the left by c mod n. -/
def rotate (n : Nat) (a c : Int) : Int :=
  let k := (c % (n : Int)).toNat
  ofTrits ((List.range n).map fun i => tritAt a ((i + n - k) % n))

def execShl (a : Op3) (s : State) : Host.Outcome State Fault Refusal :=
  runWord (.shl a) s (·.op3 a fun n u c _ => plain (shiftLeft n u c))
def execShr (a : Op3) (s : State) : Host.Outcome State Fault Refusal :=
  runWord (.shr a) s (·.op3 a fun n u c _ => plain (shiftLeft n u (-c)))
def execRot (a : Op3) (s : State) : Host.Outcome State Fault Refusal :=
  runWord (.rot a) s (·.op3 a fun n u c _ => plain (rotate n u c))

/-- R141: the position and the length of a field. -/
def fieldOf (v : Int) : Nat × Int := ((v % 27).toNat, minInt ((v - v % 27) / 27) 27)

def extField (a v : Int) : Int :=
  let (pos, len) := fieldOf v
  ofTrits ((List.range len.toNat).map fun i => if pos + i < 27 then tritAt a (pos + i) else 0)
def insField (d a v : Int) : Int :=
  let (pos, len) := fieldOf v
  ofTrits ((List.range 27).map fun i => if pos ≤ i ∧ i < pos + len.toNat then tritAt a (i - pos) else tritAt d i)

/-- R141. -/
def execExt (a : Op0) (s : State) : Host.Outcome State Fault Refusal :=
  runWord (.ext a) s fun x => x.putAll .w a.d fun l _ => plain (extField (x.reg a.a l).val (x.src a.b l))
def execIns (a : Op0) (s : State) : Host.Outcome State Fault Refusal :=
  runWord (.ins a) s fun x => x.putAll .w a.d fun l _ => plain (insField (x.reg a.d l).val (x.reg a.a l).val (x.src a.b l))

/-- R142: the trits of a equal to the sign of b. -/
def countTrits (n : Nat) (a b : Int) : Int := ((List.range n).filter fun i => tritAt a i == b.sign).length

def execCnt (a : Op3) (s : State) : Host.Outcome State Fault Refusal :=
  runWord (.cnt a) s (·.op3 a fun n u v _ => plain (countTrits n u v))
def execLead (a : Op2) (s : State) : Host.Outcome State Fault Refusal :=
  runWord (.lead a) s (·.op2 a fun _ u => plain (leadPos u))

/-! ## Predicates -/

/-- R143. -/
def execCmp (a : CmpArgs) (s : State) : Host.Outcome State Fault Refusal :=
  runWord (.cmp a) s fun x =>
    x.putKAll a.kd.val (!a.ty.tryte) fun l j => (x.elem a.ty a.a l j - x.elemB a.ty a.b l j).sign
def testTrit (n : Nat) (a c : Int) : Int := if 0 ≤ c ∧ c ≤ (n : Int) - 1 then tritAt a c.toNat else 0
def execTst (a : CmpArgs) (s : State) : Host.Outcome State Fault Refusal :=
  runWord (.tst a) s fun x =>
    x.putKAll a.kd.val (!a.ty.tryte) fun l j => testTrit (elemWidth a.ty) (x.elem a.ty a.a l j) (x.elemB a.ty a.b l j)

/-- R144: the selector's trits choose a, b or the old d; no element is zeroed. -/
def execSel3 (a : Op3) (s : State) : Host.Outcome State Fault Refusal :=
  runWord (.sel3 a) s fun x =>
    .done (x.s.updGroup x.r fun g => g.updLanes x.active fun i l =>
      let t := x.pred i
      l.put a.ty a.d kAll fun j =>
        plain (if t.trit j = 1 then x.elem a.ty a.a i j else if t.trit j = -1 then x.elemB a.ty a.b i j
          else x.elem a.ty a.d i j))

/-- R145, Table 5. -/
def psetTrit (fn : PsetFn) (a b : Int) : Int :=
  match fn with
  | .copy => b
  | .tmin => tMin a b
  | .tmax => tMax a b
  | .tprd => tPrd a b
  | .tcns => tCns a b
  | .tsum3 => tSum3 a b
  | .neg => -b

def execPset (a : PsetArgs) (s : State) : Host.Outcome State Fault Refusal :=
  runWord (.pset a) s fun x =>
    x.putKAll a.kd.val false fun l j =>
      let src := match a.ka with
        | some k => ((x.g.lane l).rdK k.val).trit j
        | none => 0
      let b := match a.b with
        | .k n => ((x.g.lane l).rdK n.val).trit j
        | .imm v => tritAt (x.imm v) j
      psetTrit a.fn src b

/-! ## Width and packing -/

/-- Writes tryte c of d alone, governed by trit c (R146, R147). -/
def Lane.putTryte (l : Lane) (d : Reg) (p : Trits 3) (c : Nat) (v : Int × Flags) : Lane :=
  let e := p.trit c
  let old := (l.rd d).val
  let t (j : Nat) : Int := fld old (9 * j) (9 * j + 8)
  let new (j : Nat) : Int := if j = c then (if e = 1 then v.1 else if e = 0 then t j else 0) else t j
  ({ l with fs := if e = 1 then l.fs.or v.2 else l.fs }).wr d (joinTrytes new)

def Issue.putTryteAll (x : Issue) (d : Reg) (c : Nat → Nat) (f : Nat → Int × Flags) : Eff :=
  .done (x.s.updGroup x.r fun g => g.updLanes x.active fun i l => l.putTryte d (x.pred i) (c i) (f i))

/-- The tryte that c selects. -/
def trytePick (b : Int) : Nat := (b % 3).toNat
def tryteOf (v : Int) (c : Nat) : Int := fld v (9 * c) (9 * c + 8)

/-- R146. -/
def execCvtw (a : CvtwArgs) (s : State) : Host.Outcome State Fault Refusal :=
  runWord (.cvtw a) s fun x =>
    let c (l : Nat) : Nat := trytePick (x.src a.b l)
    match a.kind with
    | .widen => x.putAll .w a.d fun l _ => plain (tryteOf (x.reg a.a l).val (c l))
    | .wrap => x.putTryteAll a.d c fun l => plain (wrapInt 9 (x.reg a.a l).val)
    | .sat => x.putTryteAll a.d c fun l => satInt 9 (x.reg a.a l).val

/-- R147: N3 packing of three trytes. -/
def packN3 (v : Int) : Int × Flags :=
  let e (j : Nat) : Int × Flags := satInt 3 (tryteOf v j)
  ((e 0).1 + 27 * (e 1).1 + 729 * (e 2).1, ((e 0).2.or (e 1).2).or (e 2).2)

def execPack3 (a : Op0) (s : State) : Host.Outcome State Fault Refusal :=
  runWord (.pack3 a) s fun x =>
    x.putTryteAll a.d (fun l => trytePick (x.src a.b l)) fun l => packN3 (x.reg a.a l).val
def execUnpk3 (a : Op0) (s : State) : Host.Outcome State Fault Refusal :=
  runWord (.unpk3 a) s fun x =>
    x.putAll .t a.d fun l j =>
      let t := tryteOf (x.reg a.a l).val (trytePick (x.src a.b l))
      plain (fld t (3 * j) (3 * j + 2))
def execSplat (a : Op0) (s : State) : Host.Outcome State Fault Refusal :=
  runWord (.splat a) s fun x => x.putAll .t a.d fun l _ => plain (tryteOf (x.reg a.a l).val (trytePick (x.src a.b l)))

/-! ## Tensor indices (R148 to R150) -/

/-- The shapes that the lanes with an active element name by their b, each entry read once for the word (R117, R118, R148,
R392). -/
def Issue.shapes (x : Issue) (b : Src) : State × List (Int × Shape) :=
  ((x.active.filter fun l => (x.pred l).trit 0 == 1).map (x.src b)).eraseDups.foldl (fun (acc : State × List (Int × Shape)) v =>
    let (s, sh) := acc.1.shapeAt x.w v
    (s, acc.2 ++ [(v, sh)])) (x.s, [])

def shapeFor (shs : List (Int × Shape)) (v : Int) : Shape := ((shs.find? fun e => e.1 == v).map (·.2)).getD ⟨[]⟩

/-- R149: the range trit and the coordinates of x. -/
def splitIndex (sh : Shape) (v : Int) : Int × List Int :=
  let p := sh.product
  let range : Int := if v < 0 then -1 else if v ≥ p then 1 else 0
  let v' := v % p
  (range, (List.range 5).map fun i => match sh.extents[i]? with
    | some e => v' / sh.stride i % e
    | none => 0)

/-- R150: the range trit and the linear index of coordinates. -/
def joinIndex (sh : Shape) (cs : List Int) : Int × Int :=
  let n := sh.extents.length
  let above := (List.range n).any fun i => decide (cs.getD i 0 > sh.extents.getD i 1 - 1)
  let under := (List.range n).any fun i => decide (cs.getD i 0 < 0)
  (if above then 1 else if under then -1 else 0,
   wrapInt 27 (((List.range n).map fun i => cs.getD i 0 * sh.stride i).foldl (· + ·) 0))

/-- Words written from register n up and the range trit, as one element governed by trit 0. -/
def Lane.putIndex (l : Lane) (d : Nat) (kn : Nat) (p : Trits 3) (vs : List Int) (range : Int) : Lane :=
  let l := (List.range vs.length).foldl (fun l i =>
    l.wrG (d + i) (mergeWord p (l.rdG (d + i)) (Word.ofInt (vs.getD i 0)))) l
  l.putK kn p true fun _ => range

def execTidx (a : IdxArgs) (s : State) : Host.Outcome State Fault Refusal :=
  runWord (.tidx a) s fun x =>
    let (s, shs) := x.shapes a.b
    .done (s.updGroup x.r fun g => g.updLanes x.active fun i l =>
      let (range, cs) := splitIndex (shapeFor shs (x.src a.b i)) (x.greg a.a.val i).val
      l.putIndex a.d.val a.kn.val (x.pred i) cs range)

def execTjoin (a : IdxArgs) (s : State) : Host.Outcome State Fault Refusal :=
  runWord (.tjoin a) s fun x =>
    let (s, shs) := x.shapes a.b
    .done (s.updGroup x.r fun g => g.updLanes x.active fun i l =>
      let (range, v) := joinIndex (shapeFor shs (x.src a.b i)) ((List.range 5).map fun j => (x.greg (a.a.val + j) i).val)
      l.putIndex a.d.val a.kn.val (x.pred i) [v] range)

end Sys2Proof.Machine
end

