-- ==== Sys2Proof/Machine/Float.lean ====
section
/-! DEFINITION. Floating and conversion instructions (07_float_instructions.md R151 to R168). -/

namespace Sys2Proof.Machine

/-- The format of a float type. -/
def tyFmt : Ty → Fmt
  | .f9 => tf9
  | .f81 => tf81
  | _ => tf27

/-- R155: an operation without a numeric result. -/
def invalidResult (f : Fmt) : Int × Flags := (f.nanCode, { invalid := true })

/-- R155: the rounded result of a value, or of an operation that is invalid. -/
def finish (f : Fmt) (v : FVal × Bool) : Int × Flags := if v.2 then invalidResult f else f.round v.1 false

/-- A float operation on the values of a, b and the old d. -/
def Issue.float3 (x : Issue) (a : Op3) (f : Fmt → FVal → FVal → FVal → Int × Flags) : Eff :=
  let ft := tyFmt a.ty
  x.putAll a.ty a.d fun l j =>
    f ft (ft.decode (x.elem a.ty a.a l j)) (ft.decode (x.elemB a.ty a.b l j)) (ft.decode (x.elem a.ty a.d l j))

def Issue.float2 (x : Issue) (a : Op2) (f : Fmt → Int → Int × Flags) : Eff :=
  x.putAll a.ty a.d fun l j => f (tyFmt a.ty) (x.elem a.ty a.a l j)

/-! ## Arithmetic and comparison -/

/-- R156: the exact value of A·B + D, and whether it is invalid. A NaN operand decides first (R155). -/
def fusedValue (a b d : FVal) : FVal × Bool :=
  if a.isNan || b.isNan || d.isNan then (.nan, false)
  else
    let (p, bad) := a.mul b
    if bad then (.nan, true) else p.add d

def execFadd (a : Op3) (s : State) : Host.Outcome State Fault Refusal :=
  runWord (.fadd a) s (·.float3 a fun f u v _ => finish f (u.add v))
def execFsub (a : Op3) (s : State) : Host.Outcome State Fault Refusal :=
  runWord (.fsub a) s (·.float3 a fun f u v _ => finish f (u.add v.neg))
def execFmul (a : Op3) (s : State) : Host.Outcome State Fault Refusal :=
  runWord (.fmul a) s (·.float3 a fun f u v _ => finish f (u.mul v))
def execFma (a : Op3) (s : State) : Host.Outcome State Fault Refusal :=
  runWord (.fma a) s (·.float3 a fun f u v d => finish f (fusedValue u v d))

/-- R157. -/
def execFmin (a : Op3) (s : State) : Host.Outcome State Fault Refusal :=
  runWord (.fmin a) s (·.float3 a fun f u v _ => f.round (u.minmax false v) false)
def execFmax (a : Op3) (s : State) : Host.Outcome State Fault Refusal :=
  runWord (.fmax a) s (·.float3 a fun f u v _ => f.round (u.minmax true v) false)

/-- R158. -/
def execFabs (a : Op2) (s : State) : Host.Outcome State Fault Refusal :=
  runWord (.fabs a) s (·.float2 a fun f c =>
    let v := f.decode c
    plain (f.code (if v.isNeg then v.neg else v)))
def execFneg (a : Op2) (s : State) : Host.Outcome State Fault Refusal :=
  runWord (.fneg a) s (·.float2 a fun f c => plain (f.code (f.decode c).neg))

/-- R159: the trit of a comparison, and whether a NaN makes it invalid. -/
def compareTrit (u v : FVal) : Int × Bool := if u.isNan || v.isNan then (0, true) else (u.cmp v, false)

def execFcmp (a : CmpArgs) (s : State) : Host.Outcome State Fault Refusal :=
  runWord (.fcmp a) s fun x =>
    let ft := tyFmt a.ty
    let t (l j : Nat) : Int × Bool := compareTrit (ft.decode (x.elem a.ty a.a l j)) (ft.decode (x.elemB a.ty a.b l j))
    .done (x.s.updGroup x.r fun g => g.updLanes x.active fun i l =>
      let p := x.pred i
      let bad := a.ty.elems.any fun j => p.trit j == 1 && (t i j).2
      ({ l with fs := { l.fs with invalid := l.fs.invalid || bad } }).putK a.kd.val p (!a.ty.tryte) fun j => (t i j).1)

/-- R160, Table 4. -/
def classCode (f : Fmt) (code : Int) : Int :=
  let sig := wrapInt f.n code
  match f.decode code with
  | .nan => if code = f.nanCode then 13 else 12
  | .inf neg => if neg then -4 else 4
  | .fin m _ =>
    if m = 0 then 0
    else m.sign * (if tritAt sig (f.n - 1) ≠ 0 then 3 else if dropInt f.n code = -(maxMag f.q : Int) then 1 else 2)

def execFcls (a : Op2) (s : State) : Host.Outcome State Fault Refusal :=
  runWord (.fcls a) s (·.float2 a fun f c => plain (classCode f c))

/-! ## Scaling and integral values -/

/-- R161: A·3^C. Beyond ±20000 every C gives what that bound gives: no finite code spans so far. -/
def scaled (v : FVal) (c : Int) : FVal :=
  match v with
  | .fin m e => .fin m (e + maxInt (-20000) (minInt 20000 c))
  | v => v

/-- Element j of an integer source under a float type (R153). -/
def Issue.intElem (x : Issue) (ty : Ty) (r : Reg) (l j : Nat) : Int :=
  if ty = .f9 then tryteOf (x.reg r l).val j else (x.reg r l).val
def Issue.intElemB (x : Issue) (ty : Ty) (b : Src) (l j : Nat) : Int := if ty = .f9 then x.srcTryte b l j else x.src b l

def execFscl (a : Op3) (s : State) : Host.Outcome State Fault Refusal :=
  runWord (.fscl a) s fun x =>
    let ft := tyFmt a.ty
    x.putAll a.ty a.d fun l j => ft.round (scaled (ft.decode (x.elem a.ty a.a l j)) (x.intElemB a.ty a.b l j)) false

/-- R161: the position weight exponent of a value's leading trit. -/
def expOf (f : Fmt) (code : Int) : Int :=
  match f.decode code with
  | .fin m e => if m = 0 then f.emin - f.n else leadPos m + e
  | _ => maxMag f.q

def execFexn (a : Op2) (s : State) : Host.Outcome State Fault Refusal :=
  runWord (.fexn a) s (·.float2 a fun f c => plain (expOf f c))

/-- R161: an integral value of a float, as a float. -/
def integralCode (mode : RoundMode) (f : Fmt) (code : Int) : Int :=
  match f.decode code with
  | .fin m e => f.code (.fin (integral mode m e) 0)
  | v => f.code v

def execFtrn (a : Op2) (s : State) : Host.Outcome State Fault Refusal :=
  runWord (.ftrn a) s (·.float2 a fun f c => plain (integralCode .nearest f c))
def execFflr (a : Op2) (s : State) : Host.Outcome State Fault Refusal :=
  runWord (.fflr a) s (·.float2 a fun f c => plain (integralCode .floor f c))
def execFcel (a : Op2) (s : State) : Host.Outcome State Fault Refusal :=
  runWord (.fcel a) s (·.float2 a fun f c => plain (integralCode .ceil f c))

/-! ## Conversions -/

/-- A word of one element under one governing trit. -/
def mergeOne (t : Int) (old new : Word) : Word := if t = 1 then new else if t = 0 then old else zeroW

/-- R162: a value of one format in another. Conversion within a type raises no flag. -/
def convert (src dst : Fmt) (code : Int) : Int × Flags :=
  if src = dst then plain (dst.code (src.decode code)) else dst.round (src.decode code) false

/-- R162, Table 5: from TF9 trytes to three words or triples, element j governed by trit j. -/
def Lane.spread (l : Lane) (toF81 : Bool) (d : Nat) (p : Trits 3) (f : Nat → Int × Flags) : Lane :=
  [0, 1, 2].foldl (fun l j =>
    let e := p.trit j
    let l := if e = 1 then { l with fs := l.fs.or (f j).2 } else l
    if toF81 then (if e = 0 then l else l.wrTriple (d + 3 * j) (if e = 1 then (f j).1 else 0))
    else l.wrG (d + j) (mergeOne e (l.rdG (d + j)) (Word.ofInt (f j).1))) l

def execFcvt (a : FcvtArgs) (s : State) : Host.Outcome State Fault Refusal :=
  runWord (.fcvt a) s fun x =>
    let go (code : Int) : Int × Flags := convert (tyFmt a.src) (tyFmt a.ty) code
    let n := a.a.num
    if a.src = .f9 ∧ a.ty ≠ .f9 then
      .done (x.s.updGroup x.r fun g => g.updLanes x.active fun i l =>
        l.spread (a.ty == .f81) a.d.num (x.pred i) fun j => go (tryteOf (x.reg a.a i).val j))
    else if a.src ≠ .f9 ∧ a.ty = .f9 then
      x.putAll .f9 a.d fun l j =>
        go (if a.src = .f81 then (x.g.lane l).rdTriple (n + 3 * j) else (x.greg (n + j) l).val)
    else x.putAll a.ty a.d fun l j => go (x.elem a.src a.a l j)

/-- R163: a float as an integer of n trits. -/
def toInteger (mode : RoundMode) (n : Nat) (v : FVal) : Int × Flags :=
  match v with
  | .nan => (0, { invalid := true })
  | .inf neg => ((if neg then -1 else 1) * (maxMag n : Int), { saturate := true })
  | .fin m e =>
    let (r, fl) := satInt n (integral mode m e)
    (r, { fl with inexact := decide (e < 0) && wrapInt (-e).toNat m != 0 })

def execFtoi (a : FtoiArgs) (s : State) : Host.Outcome State Fault Refusal :=
  runWord (.ftoi a) s fun x =>
    x.putAll a.ty a.d fun l j =>
      toInteger a.mode (if a.ty = .f9 then 9 else 27) ((tyFmt a.ty).decode (x.elem a.ty a.a l j))

/-- R164. -/
def execItof (a : Op3) (s : State) : Host.Outcome State Fault Refusal :=
  runWord (.itof a) s fun x =>
    x.putAll a.ty a.d fun l j =>
      (tyFmt a.ty).round (scaled (.fin (x.intElem a.ty a.a l j) 0) (x.intElemB a.ty a.b l j)) false

/-- R165: D plus three exact TF9 products. -/
def dotValue (d : FVal) (ps : List FVal) : FVal :=
  ps.foldl (fun acc p => (acc.add p).1) d

def execFdot (a : Op0) (s : State) : Host.Outcome State Fault Refusal :=
  runWord (.fdot a) s fun x =>
    x.putAll .f27 a.d fun l _ =>
      let ps := [0, 1, 2].map fun j =>
        ((tf9.decode (tryteOf (x.reg a.a l).val j)).mul (tf9.decode (x.srcTryte a.b l j))).1
      tf27.round (dotValue (tf27.decode (x.reg a.d l).val) ps) false

/-! ## Bit patterns (R168) -/

/-- The ternary and the binary side of a format. -/
def binSides : BinFmt → Fmt × BinKind
  | .bf16n => (tf9, bf16K)
  | .bf16 => (tf27, bf16K)
  | .fp32 => (tf27, fp32K)
  | .fp64 => (tf81, fp64K)

/-- A pattern of n bits as a two's-complement integer. -/
def signedPattern (n : Nat) (pat : Nat) : Int := if pat % 2 ^ n ≥ 2 ^ (n - 1) then (pat % 2 ^ n : Nat) - (2 : Int) ^ n else (pat % 2 ^ n : Nat)

/-- Whether a word is a pattern of n bits. -/
def inPattern (n : Nat) (v : Int) : Bool := decide (-(2 : Int) ^ (n - 1) ≤ v) && decide (v < (2 : Int) ^ (n - 1))

/-- R168, BCVT in: the pattern held in the words w0, w1, w2; none where it is out of range. -/
def patternOf (fmt : BinFmt) (w0 w1 w2 : Int) : Option Nat :=
  match fmt with
  | .fp64 =>
    if inPattern 32 w0 && inPattern 32 w1 && w2 == 0 then
      some ((w0 % (2 : Int) ^ 32).toNat + 2 ^ 32 * (w1 % (2 : Int) ^ 32).toNat)
    else none
  | .fp32 => if inPattern 32 w0 then some (w0 % (2 : Int) ^ 32).toNat else none
  | _ => if inPattern 16 w0 then some (w0 % (2 : Int) ^ 16).toNat else none

def bcvtIn (fmt : BinFmt) (w0 w1 w2 : Int) : Int × Flags :=
  let (f, k) := binSides fmt
  match patternOf fmt w0 w1 w2 with
  | none => invalidResult f
  | some pat => f.roundBin (k.decode pat)

/-- R168, BCVT out: the pattern as an integer; for fp64 the words of the triple. -/
def bcvtOut (fmt : BinFmt) (code : Int) : Int × Flags :=
  let (f, k) := binSides fmt
  let (pat, inexact, sub, ovf) := k.round (f.decode code)
  let fl : Flags := { inexact := inexact, overflow := ovf, underflow := sub && inexact }
  (if fmt = .fp64 then signedPattern 32 pat + 3 ^ 27 * signedPattern 32 (pat / 2 ^ 32) else signedPattern k.bits pat, fl)

def execBcvt (a : BcvtArgs) (s : State) : Host.Outcome State Fault Refusal :=
  runWord (.bcvt a) s fun x =>
    let n := a.a.num
    if a.fmt = .fp64 then
      x.putAll .f81 a.d fun l _ =>
        if a.dirIn then
          let v := (x.g.lane l).rdTriple n
          bcvtIn a.fmt (wrapInt 27 v) (wrapInt 27 (dropInt 27 v)) (dropInt 54 v)
        else bcvtOut a.fmt ((x.g.lane l).rdTriple n)
    else
      x.putAll .w a.d fun l _ =>
        let v := (x.reg a.a l).val
        if a.dirIn then bcvtIn a.fmt v 0 0 else bcvtOut a.fmt (if a.fmt = .bf16n then tryteOf v 0 else v)

/-! ## Division, roots and functions (R166, R167) -/

/-- A long float of a lane: its results are known at issue and land at completion (R151). -/
def floatPart (x : Issue) (ty : Ty) (l : Nat) (f : Nat → Int × Flags) : PendLane :=
  let p := x.pred l
  let flags := ty.elems.foldl (fun fl j => if p.trit j = 1 then fl.or (f j).2 else fl) Flags.none
  let part : PendLane := { PendLane.new l p with flags := flags }
  if ty = .f81 then
    { part with r0 := Word.ofInt (f 0).1, r1 := Word.ofInt (dropInt 27 (f 0).1), r2 := Word.ofInt (dropInt 54 (f 0).1) }
  else if ty.tryte then { part with r0 := joinTrytes fun j => (f j).1 }
  else { part with r0 := Word.ofInt (f 0).1 }

/-- Whether the result of every active element is known. -/
def Issue.decided (x : Issue) (ty : Ty) (f : Nat → Nat → Option (Int × Flags)) : Bool :=
  x.active.all fun l => ty.elems.all fun j => (x.pred l).trit j != 1 || (f l j).isSome

/-- The issue of a long float (R63, R151). It stalls while the precision allowed so far does not decide a result (log 9). -/
def Issue.longFloat (x : Issue) (ty : Ty) (f : Nat → Nat → Option (Int × Flags)) : Eff :=
  if !x.anyActive then x.empty
  else if x.decided ty f then
    .done (x.begin x.s (x.active.map fun l => floatPart x ty l fun j => (f l j).getD (0, {})) true [])
  else .stall

def Issue.longFloat1 (x : Issue) (a : FlongArgs) (f : Fmt → Int → FVal → Option (Int × Flags)) : Eff :=
  let ft := tyFmt a.ty
  x.longFloat a.ty fun l j =>
    let c := x.elem a.ty (.g a.a) l j
    f ft c (ft.decode c)

/-- The refinements that a function's result may take: ever more as the machine takes turns. -/
def Issue.fuel (x : Issue) : Nat := 12 + x.s0.turns

def execFdiv (a : FdivArgs) (s : State) : Host.Outcome State Fault Refusal :=
  runWord (.fdiv a) s fun x =>
    let ft := tyFmt a.ty
    x.longFloat a.ty fun l j => some (fnDiv ft (ft.decode (x.elem a.ty (.g a.a) l j)) (ft.decode (x.elemB a.ty a.b l j)))

/-- R167: 1/A; 1/0 is +Inf with divzero. -/
def fnRecip (f : Fmt) (v : FVal) : Int × Flags := fnDiv f (.fin 1 0) v

def execFsqt (a : FlongArgs) (s : State) : Host.Outcome State Fault Refusal :=
  runWord (.fsqt a) s (·.longFloat1 a fun f _ v => some (fnSqrt f v))
def execFrcp (a : FlongArgs) (s : State) : Host.Outcome State Fault Refusal :=
  runWord (.frcp a) s (·.longFloat1 a fun f _ v => some (fnRecip f v))
def execFrsq (a : FlongArgs) (s : State) : Host.Outcome State Fault Refusal :=
  runWord (.frsq a) s (·.longFloat1 a fun f _ v => some (fnRsqrt f v))
def execFex3 (a : FlongArgs) (s : State) : Host.Outcome State Fault Refusal :=
  runWord (.fex3 a) s fun x => x.longFloat1 a fun f c v => fnExp f 39 c true v x.fuel
def execFlg3 (a : FlongArgs) (s : State) : Host.Outcome State Fault Refusal :=
  runWord (.flg3 a) s fun x => x.longFloat1 a fun f c v => fnLog f 40 c true v x.fuel
def execFexe (a : FlongArgs) (s : State) : Host.Outcome State Fault Refusal :=
  runWord (.fexe a) s fun x => x.longFloat1 a fun f c v => fnExp f 26 c false v x.fuel
def execFlge (a : FlongArgs) (s : State) : Host.Outcome State Fault Refusal :=
  runWord (.flge a) s fun x => x.longFloat1 a fun f c v => fnLog f 25 c false v x.fuel
def execFsin (a : FlongArgs) (s : State) : Host.Outcome State Fault Refusal :=
  runWord (.fsin a) s fun x => x.longFloat1 a fun f c v => fnTrig f 24 c false v x.fuel
def execFcos (a : FlongArgs) (s : State) : Host.Outcome State Fault Refusal :=
  runWord (.fcos a) s fun x => x.longFloat1 a fun f c v => fnTrig f 23 c true v x.fuel
def execFtnh (a : FlongArgs) (s : State) : Host.Outcome State Fault Refusal :=
  runWord (.ftnh a) s fun x => x.longFloat1 a fun f c v => fnTanh f 22 c v x.fuel

end Sys2Proof.Machine
end

