-- ==== Sys2Proof/Machine/Control.lean ====
section
/-! DEFINITION. Control flow, runs and cross-lane instructions (08_control_and_lane_instructions.md R169 to R190). -/

namespace Sys2Proof.Machine

/-! ## Transfers -/

/-- R171: whether a lane transfers. -/
def Issue.selects (x : Issue) (l : Nat) : Bool := (x.pred l).trit 0 == 1

/-- R69, Table 2: which lanes of a divergent transfer go on. -/
inductive Choice where
  | first (lanes : List Nat)
  | uniform

/-- The PC with which a divergent group goes on, from the new PCs of its active lanes: the least of the lanes named, or of all
of them where none is named. -/
def Choice.pick (c : Choice) (pcs : List (Nat × Int)) : Int :=
  match c with
  | .first ls =>
    match pcs.filter fun e => ls.contains e.1 with
    | [] => leastInt (pcs.map (·.2))
    | es => leastInt (es.map (·.2))
  | _ => leastInt (pcs.map (·.2))

/-- R85, R69, R172: the active lanes move to new PCs, each with whether it is a target; a misaligned target traps and no
lane transfers. Where the lanes part, the group goes on with the lanes chosen. -/
def Issue.transfer (x : Issue) (s : State) (c : Choice) (next : List (Nat × Int × Bool)) : Eff :=
  let bad := next.filter fun e => e.2.2 && e.2.1 % 3 != 0
  if !bad.isEmpty then .trap { cause := 12, lanes := bad.map fun e => (e.1, 12) }
  else
    let pcs := next.map fun e => (e.1, e.2.1)
    let s := s.updGroup x.r fun g => pcs.foldl (fun g e => g.updLane e.1 fun l => { l with pc := Word.ofInt e.2 }) g
    if pcs.all fun e => e.2 == (pcs.headD (0, 0)).2 then .done s
    else
      let pc := c.pick pcs
      let s := match c with
        | .uniform =>
          let core := coreIdx x.w.core
          (s.bump 28 x.w.core.die (core % 243) 1).progEvent core 12 (some x.w.region.ctx.num)
        | _ => s
      .done (s.updGroup x.r fun g =>
        { g with run := { g.run with active := (pcs.filter fun e => e.2 == pc).map (·.1) } })

/-- PC + 3·off, wrapped (R85). -/
def Issue.at_ (x : Issue) (off : Int) : Int := wrapInt 27 (x.pc.val + 3 * off)

/-- R69: BR, BRP and LOOP by their hint. -/
def hintChoice (h : Trit) (taken fell : List Nat) : Choice :=
  match h with
  | .pos => .first taken
  | .neg => .first fell
  | .zero => .uniform

/-- R97: the extended offset of a B-form word. -/
def Issue.offset (x : Issue) (v : Trits 12) : Int := x.pay * 3 ^ 12 + v.val

/-- A transfer of the selected lanes to targets; the others fall through. -/
def Issue.jump (x : Issue) (s : State) (c : List Nat → List Nat → Choice) (sel : Nat → Bool) (target : Nat → Int) : Eff :=
  let (taken, fell) := x.active.partition sel
  x.transfer s (c taken fell) (x.active.map fun l => if sel l then (l, target l, true) else (l, x.at_ 1, false))

/-- R173. -/
def execBr (a : BranchArgs) (s : State) : Host.Outcome State Fault Refusal :=
  runWord (.br a) s fun x => x.jump x.s (hintChoice a.hint) (fun _ => true) fun _ => x.at_ (x.offset a.off)
def execBrp (a : BrpArgs) (s : State) : Host.Outcome State Fault Refusal :=
  runWord (.brp a) s fun x => x.jump x.s (hintChoice a.hint) x.selects fun _ => x.at_ (x.offset a.off)

/-- R98: a lane of B3 by its own trit; one payload extends both offsets. -/
def execB3 (a : B3Args) (s : State) : Host.Outcome State Fault Refusal :=
  runWord (.b3 a) s fun x =>
    let om := fld x.pay 0 10 * 3 ^ 6 + a.offm.val
    let op := fld x.pay 11 21 * 3 ^ 6 + a.offp.val
    let t (l : Nat) : Int := (x.pred l).trit 0
    let c : Choice := match a.hint with
      | .zero => .uniform
      | h => .first (x.active.filter fun l => t l == h.val)
    x.transfer x.s c (x.active.map fun l =>
      if t l = 1 then (l, x.at_ op, true) else if t l = -1 then (l, x.at_ om, true) else (l, x.at_ 1, false))

/-- R174: CALL writes g8. -/
def execCall (a : BranchArgs) (s : State) : Host.Outcome State Fault Refusal :=
  runWord (.call a) s fun x =>
    let s := x.s.updGroup x.r fun g => g.updLanes x.active fun _ l => l.wrG 8 (Word.ofInt (x.at_ 1))
    x.jump s (hintChoice a.hint) (fun _ => true) fun _ => x.at_ (x.offset a.off)

def execRet (a : RetArgs) (s : State) : Host.Outcome State Fault Refusal :=
  runWord (.ret a) s fun x => x.jump x.s (fun taken _ => .first taken) x.selects fun l => (x.reg a.a l).val
def execJmpi (a : JmpiArgs) (s : State) : Host.Outcome State Fault Refusal :=
  runWord (.jmpi a) s fun x =>
    x.jump x.s (fun taken _ => .first taken) x.selects fun l => wrapInt 27 ((x.reg a.a l).val + 3 * x.src a.b l)

/-! ## CALLI (R175, R176) -/

/-- R176: the cause of a target, if it fails. -/
def targetCause (t : Int) : Option Nat := if tritAt t 0 = 1 then some 12 else if tritAt t 0 = -1 then some 23 else none

/-- R176: lanes that are released go to their targets; those whose target fails trap, as one entry of the CALLI with their
targets, in a state where the others have transferred. DESIGN CHOICE (log 57): such a CALLI is not yet counted as a word of
the run (header item 2); its re-issue counts it. -/
def Issue.release (x : Issue) (s0 s : State) (fell : List Nat) (ts : List (Nat × Int)) : Eff :=
  let bad := ts.filterMap fun e => (targetCause e.2).map fun c => (e.1, c)
  let moves := (ts.filter fun e => (targetCause e.2).isNone) ++ fell.map fun l => (l, x.at_ 1)
  let move (g : Group) : Group := moves.foldl (fun g e => g.updLane e.1 fun l => { l with pc := Word.ofInt e.2 }) g
  match bad with
  | (_, c) :: _ =>
    .trapIn (s0.updGroup x.r move)
      { cause := c, lanes := bad, issued := true, pc := some x.pc, set := some (bad.map (·.1)),
        cap := ts.filterMap fun e =>
          (targetCause e.2).map fun _ => { PendLane.new e.1 (x.pred e.1) with addr := e.2 } }
  | [] =>
    let pc := leastInt (ts.map (·.2))
    let on := if ts.isEmpty then fell else (moves.filter fun e => e.2 == pc).map (·.1)
    .done (s.updGroup x.r fun g => { move g with run := { g.run with active := x.active.filter on.contains } })

/-- R175: the link, the subsets, and the call record of a divergent call. -/
def Issue.callFresh (x : Issue) (a : CalliArgs) (sel fell : List Nat) : Eff :=
  let ts := sel.map fun l => (l, wrapInt 27 ((x.reg a.a l).val + 3 * x.src a.b l))
  let ret := Word.ofInt (x.at_ 1)
  let link (g : Group) : Group := g.updLanes sel fun _ l => l.wr a.d ret
  let least := leastInt (ts.map (·.2))
  let (go, wait) := ts.partition fun e => e.2 == least
  let record := !wait.isEmpty && !x.w.kernel.reforming && decide (x.g.calls.length < 9)
  if record then
    let c : CallRec := { word := wordOf x.i, payload := x.pay, ret := ret,
                         held := wait.map fun e => (e.1, Word.ofInt e.2), out := go.map (·.1), parked := [] }
    let opened (g : Group) : Group :=
      let g := (link g).updLanes (wait.map (·.1)) fun _ l => { l with st := .held, pc := x.pc }
      { g with calls := c :: g.calls }
    x.release (x.s0.updGroup x.r opened) (x.s.updGroup x.r opened) fell go
  else x.release (x.s0.updGroup x.r link) (x.s.updGroup x.r link) fell ts

/-- R375, R376: a re-issued CALLI goes to its captured targets and writes no link again; one that had not issued, or a
fresh one, computes them. -/
def Issue.calli (x : Issue) (a : CalliArgs) : Eff :=
  let sel := x.active.filter x.selects
  let fell := x.active.filter fun l => !x.selects l
  match x.again with
  | some e =>
    if e.issued then x.release x.s0 x.s fell (sel.map fun l => (l, ((lanePart e.lanes l).map (·.addr)).getD 0))
    else x.callFresh a sel fell
  | none => x.callFresh a sel fell

def execCalli (a : CalliArgs) (s : State) : Host.Outcome State Fault Refusal := runWord (.calli a) s (·.calli a)

/-- R177: an active element counts down and its lane transfers while the count is positive. -/
def execLoop (a : LoopArgs) (s : State) : Host.Outcome State Fault Refusal :=
  runWord (.loop a) s fun x =>
    let d (l : Nat) : Int := wrapInt 27 ((x.reg a.d l).val - 1)
    let s := x.s.updGroup x.r fun g => g.updLanes x.active fun i l =>
      l.wr a.d (mergeWord (x.pred i) (x.reg a.d i) (Word.ofInt (d i)))
    x.jump s (hintChoice a.hint) (fun l => x.selects l && decide (d l > 0)) fun _ => x.at_ (x.imm a.imm)

/-! ## Ending a run (R178 to R182) -/

/-- R178, R83: the run ends with a mask; under a pre-emption request the group yields. -/
def Issue.finishRun (x : Issue) (mask : Trits 9) : Eff :=
  let slots := (List.range 9).filter fun i => mask.trit i == 1
  .done (x.s.updGroup x.r fun g =>
    let g := g.endRun slots
    if x.w.preq then { g with phase := .stopped } else g)

def execEndrun (mask : Trits 9) (s : State) : Host.Outcome State Fault Refusal :=
  runWord (.endrun mask) s (·.finishRun mask)
/-- R179: as ENDRUN, and the slot's next run is left to another eligible group of the same or a higher class. -/
def execYield (mask : Trits 9) (s : State) : Host.Outcome State Fault Refusal :=
  runWord (.yield mask) s fun x => { x with s := x.s.updGroup x.r fun g => { g with ceded := true } }.finishRun mask

/-- R180: the group leaves its slot; its active lanes are filed by REFORM_FILING. -/
def execReform (s : State) : Host.Outcome State Fault Refusal :=
  runWord .reform s fun x => .done (x.s.updGroup x.r fun g => { g with phase := .reforming })

/-- R181. -/
def execExit (p : Pred) (s : State) : Host.Outcome State Fault Refusal :=
  runWord (.exit p) s fun x =>
    let (out, stay) := x.active.partition x.selects
    let s := x.s.updGroup x.r fun g =>
      let g := { g with run := { g.run with active := stay } }
      if stay.isEmpty then g.endRun [] else g
    .done (s.exitLanes x.r out)

/-- R182. -/
def execNop (s : State) : Host.Outcome State Fault Refusal := runWord .nop s fun x => .done x.s

/-! ## Cross-lane exchange (R183 to R188) -/

/-- R76, Table 3: the first lane and the width of a lane's sub-group. -/
def Issue.sub (x : Issue) (l : Nat) : Nat × Nat :=
  if x.w.kernel.width = 9 then (l / 9 * 9, 9) else if x.w.kernel.width = 81 then (0, 81) else (0, 27)
def Issue.position (x : Issue) (l : Nat) : Nat := l - (x.sub l).1

/-- R183: the lane of a position of a sub-group, where it is valid. -/
def Issue.source (x : Issue) (l : Nat) (q : Int) : Option Nat :=
  let (base, width) := x.sub l
  if 0 ≤ q ∧ q < width ∧ (x.g.lane (base + q.toNat)).live then some (base + q.toNat) else none

/-- R183: the word of a source or the lane's own, and the validity trit. -/
def Issue.exchange (x : Issue) (kn : Nat) (d a : Reg) (q : Nat → Option Nat) : Eff :=
  .done (x.s.updGroup x.r fun g => g.updLanes x.active fun i l =>
    let p := x.pred i
    (l.put .w d p fun _ => plain (x.reg a ((q i).getD i)).val).putK kn p true fun _ => trit01 (q i).isSome)

def execShfl (a : ShflArgs) (s : State) : Host.Outcome State Fault Refusal :=
  runWord (.shfl a) s fun x => x.exchange a.kn.val a.d a.a fun l => x.source l (x.src a.b l)
def execShfld (a : ShflArgs) (s : State) : Host.Outcome State Fault Refusal :=
  runWord (.shfld a) s fun x => x.exchange a.kn.val a.d a.a fun l => x.source l (x.position l + x.src a.b l)

/-- R184: unbalanced base-3 digits added without carry. -/
def butterfly : Nat → Nat → Nat → Nat
  | 0, _, _ => 0
  | n + 1, p, b => (p + b) % 3 + 3 * butterfly n (p / 3) (b / 3)

def execShflt (a : ShflArgs) (s : State) : Host.Outcome State Fault Refusal :=
  runWord (.shflt a) s fun x => x.exchange a.kn.val a.d a.a fun l =>
    let w := (x.sub l).2
    let q := butterfly 4 (x.position l) (x.src a.b l % (w : Int)).toNat
    x.source l ((q % w : Nat) : Int)

/-- R185: the pattern entry gives each position its source. -/
def execXperm (a : XpermArgs) (s : State) : Host.Outcome State Fault Refusal :=
  runWord (.xperm a) s fun x =>
    let (s, pat) := if x.active.any x.selects then x.s.patternAt x.w (x.simm a.b) else (x.s, none)
    { x with s := s }.exchange a.kn.val a.d a.a fun l =>
      match pat with
      | some ps => x.source l (ps.getD (x.position l) (-1))
      | none => none

/-- R186. -/
def execBcst (a : BcstArgs) (s : State) : Host.Outcome State Fault Refusal :=
  runWord (.bcst a) s fun x =>
    x.putAll a.ty a.d fun l _ => plain (x.elem a.ty a.a ((x.source l (x.simm a.b)).getD l) 0)

/-- The lanes of the active set in a lane's sub-group. -/
def Issue.peers (x : Issue) (l : Nat) : List Nat := x.active.filter fun m => (x.sub m).1 == (x.sub l).1

/-- R187, Table 2. -/
def voteTrit (fn : VoteFn) (ts : List Int) : Int :=
  match fn with
  | .all => ts.foldl minInt 1
  | .any => ts.foldl maxInt (-1)
  | .maj => (ts.foldl (· + ·) 0).sign

def execVote (a : VoteArgs) (s : State) : Host.Outcome State Fault Refusal :=
  runWord (.vote a) s fun x =>
    x.putKAll a.kd.val true fun l _ =>
      voteTrit a.fn (((x.peers l).filter x.selects).map fun m => (x.reg a.a m).val.sign)

/-- R188: the identity of an operation, which an exclusive scan with no term takes. -/
def redIdentity (ty : Ty) (fn : RedOp) : Int :=
  let top : Int := match ty with
    | .t => maxMag 9
    | .w => maxMag 27
    | .f9 => tf9.topCode false
    | .f27 => tf27.infCode false
    | .f81 => tf81.infCode false
  let bottom : Int := match ty with
    | .t => -(maxMag 9)
    | .w => -(maxMag 27)
    | .f9 => tf9.topCode true
    | .f27 => tf27.infCode true
    | .f81 => tf81.infCode true
  match fn with
  | .add => 0
  | .min => top
  | .max => bottom

/-- R188: an exact sum of floats. -/
def sumFloats (vs : List FVal) : FVal × Bool :=
  if vs.any FVal.isNan then (.nan, false)
  else vs.foldl (fun (acc : FVal × Bool) v =>
    if acc.2 then acc else acc.1.add v) (.zero, false)

/-- R188: the combination of element codes. -/
def combine (ty : Ty) (fn : RedOp) (cs : List Int) : Int × Flags :=
  match cs with
  | [] => plain (redIdentity ty fn)
  | c :: rest =>
    if ty = .t ∨ ty = .w then
      match fn with
      | .add => plain (wrapInt (elemWidth ty) (cs.foldl (· + ·) 0))
      | .min => plain (rest.foldl minInt c)
      | .max => plain (rest.foldl maxInt c)
    else
      let f := tyFmt ty
      let vs := cs.map f.decode
      match fn with
      | .add => finish f (sumFloats vs)
      | .min => plain (f.code ((rest.map f.decode).foldl (FVal.minmax false) (f.decode c)))
      | .max => plain (f.code ((rest.map f.decode).foldl (FVal.minmax true) (f.decode c)))

/-- R188: the lanes of a sub-group whose element j is active. -/
def Issue.terms (x : Issue) (l j : Nat) : List Nat := (x.peers l).filter fun m => (x.pred m).trit j == 1

def execRedu (a : ReduArgs) (s : State) : Host.Outcome State Fault Refusal :=
  runWord (.redu a) s fun x =>
    x.putAll a.ty a.d fun l j => combine a.ty a.fn ((x.terms l j).map fun m => x.elem a.ty a.a m j)
def execScan (a : ScanArgs) (s : State) : Host.Outcome State Fault Refusal :=
  runWord (.scan a) s fun x =>
    x.putAll a.ty a.d fun l j =>
      combine a.ty a.fn (((x.terms l j).filter fun m => if a.exclusive then m < l else m ≤ l).map fun m =>
        x.elem a.ty a.a m j)

/-! ## Random state and special registers (R189, R190) -/

/-- R189. -/
def rngNext (v : Int) : Int := wrapInt 27 (v * 2862933555778 + 1)

def execRng (a : RngArgs) (s : State) : Host.Outcome State Fault Refusal :=
  runWord (.rng a) s fun x =>
    .done (x.s.updGroup x.r fun g => g.updLanes x.active fun i l =>
      let p := x.pred i
      let v := rngNext l.rng.val
      let l := if p.trit 0 = 1 then { l with rng := Word.ofInt v } else l
      l.put .w a.d p fun _ => plain (rotate 27 v 13))

/-- R121: the time count as a die reads it. -/
def State.timeOn (s : State) (die : Nat) : Int := (s.time + min s.time (Config.dieSkew die % 10) : Nat)

/-- R120, Table 3: the special register n of a lane. -/
def Issue.special (x : Issue) (i : Nat) (l : Lane) (n : Nat) : Int :=
  let w := x.w.kernel.width
  let third := i % 27 / 9
  let time := x.s.timeOn x.w.core.die
  match n with
  | 0 => x.position i
  | 1 => third
  | 2 => if w = 9 then 3 * x.g.hw + third else if w = 81 then x.g.hw / 3 else x.g.hw
  | 3 => x.w.index.val
  | 4 => x.w.core.core
  | 5 => x.w.core.cluster
  | 6 => ((indexOf? (· == x.w.core.die) x.w.region.ctx.dies).getD 0 : Nat)
  | 7 => x.w.region.ctx.num
  | 8 => x.w.region.number.val
  | 9 => wrapInt 27 time
  | 10 => match l.timeHi with
    | some v => v.val
    | none => dropInt 27 time
  | 11 => trit01 x.w.preq
  | 12 => l.fs.toInt
  | 13 => l.rng.val
  | _ => w

/-- A free choice for a flag that is set; one that is clear stays so. -/
def State.flipFlag (s : State) (b : Bool) : Bool × State := if b then s.flip else (false, s)

/-- Some of the flags that are set, each by a free choice of its own. -/
def State.someFlags (s : State) (f : Flags) : Flags × State :=
  let (a, s) := s.flipFlag f.invalid
  let (b, s) := s.flipFlag f.overflow
  let (c, s) := s.flipFlag f.underflow
  let (d, s) := s.flipFlag f.divzero
  let (e, s) := s.flipFlag f.saturate
  let (i, s) := s.flipFlag f.inexact
  ({ invalid := a, overflow := b, underflow := c, divzero := d, saturate := e, inexact := i }, s)

/-- R123: sr.fs while long floats are pending reads each of their flags set or clear (free, lane by lane and flag by flag). -/
def Issue.mayFlags (x : Issue) : Group × State :=
  x.g.pend.foldl (fun acc p =>
    p.lanes.foldl (fun (acc : Group × State) l =>
      let (f, s) := acc.2.someFlags l.flags
      (acc.1.updLane l.lane fun y => { y with fs := y.fs.or f }, s)) acc) (x.g, x.s)

/-- R121, R190: an SREAD of an active lane; the low part of the time latches the high part, whose read ends the latch. -/
def execSread (a : SreadArgs) (s : State) : Host.Outcome State Fault Refusal :=
  runWord (.sread a) s fun x =>
    let n := a.num.val
    let (view, s) := x.mayFlags
    .done (s.updGroup x.r fun g => g.updLanes x.active fun i l =>
      let p := x.pred i
      let v := x.special i (view.lane i) n
      let l := if p.trit 0 = 1 ∧ n = 9 then { l with timeHi := some (Word.ofInt (dropInt 27 (x.s.timeOn x.w.core.die))) }
        else if p.trit 0 = 1 ∧ n = 10 then { l with timeHi := none } else l
      l.put .w a.d p fun _ => plain v)

def execSreadPredicate (a : SreadKArgs) (s : State) : Host.Outcome State Fault Refusal :=
  runWord (.sreadPredicate a) s fun x => x.putAll .w a.d fun l _ => plain (kWord ((x.g.lane l).rdK a.k.val))

/-- R190, R123: sr.fs or sr.rng; the others have trapped (R190). -/
def execSwrite (a : SwriteArgs) (s : State) : Host.Outcome State Fault Refusal :=
  runWord (.swrite a) s fun x =>
    .done (x.s.updGroup x.r fun g => g.updLanes x.active fun i l =>
      let p := x.pred i
      let v := (x.reg a.a i)
      if a.num.val = 12 then { l with fs := Flags.ofInt (mergeWord p (Word.ofInt l.fs.toInt) v).val }
      else { l with rng := mergeWord p l.rng v })

def execSwritePredicate (a : SwriteKArgs) (s : State) : Host.Outcome State Fault Refusal :=
  runWord (.swritePredicate a) s fun x =>
    x.putKAll a.kd.val false fun l j => tritAt (x.reg a.a l).val (9 * j)

end Sys2Proof.Machine
end

