-- ==== Sys2Proof/Machine/Memory.lean ====
section
/-! DEFINITION. Load, store, atomic, fence and wait instructions (12_memory_instructions.md R266 to R286), with the orders and
scopes of 11_memory_model.md R248 to R258. A load and an atomic are performed at issue, a store when it completes or when a
later access of its group meets it (log 12). -/

namespace Sys2Proof.Machine

/-! ## Issue -/

/-- A state in which the word has issued. -/
def Issue.next (x : Issue) (s : State) : State :=
  (s.updGroup x.r fun g => g.advance x.pc).progEvent (coreIdx x.w.core) 1 (some x.w.region.ctx.num)

/-- R376: what a re-issued word had captured for a lane. -/
def Issue.captured (x : Issue) (l : Nat) : Option PendLane :=
  match x.again with
  | some e => if e.issued then lanePart e.lanes l else none
  | none => none

/-- R352: the results of a word that had been performed before a trap. -/
def Issue.results (x : Issue) : Option (List PendLane) :=
  match x.again with
  | some e => if e.perf then some (e.lanes.filter fun p => x.active.contains p.lane) else none
  | none => none

def widthLen : Width → Nat
  | .w => 3
  | .t => 1
  | .f81 => 9

/-- The active elements of a lane's part (R271). -/
def activeElems (wd : Width) (p : Trits 3) : List Nat :=
  if wd = .t then [0, 1, 2].filter fun j => p.trit j == 1 else if p.trit 0 = 1 then [0] else []

/-- The lanes of a word with their addresses and data: the captured ones, or those read now. -/
def Issue.memParts (x : Issue) (lanes : List Nat) (addr : Nat → Int) (d0 d1 d2 : Nat → Word) : List PendLane :=
  lanes.map fun l =>
    match x.captured l with
    | some p => { p with landed := [], cause := 0 }
    | none => { PendLane.new l (x.pred l) with addr := addr l, d0 := d0 l, d1 := d1 l, d2 := d2 l }

/-! ## Checks (R273) -/

/-- A failed element: its lane, its cause and its address. -/
structure Bad where
  lane : Nat
  cause : Nat
  addr : Int
deriving DecidableEq, Repr

/-- The first failure of each lane stands. -/
def addBad (bad : List Bad) (b : Bad) : List Bad := if bad.any fun c => c.lane == b.lane then bad else bad ++ [b]

/-- The address of element j of a lane's part (R271). -/
def elemAddr (wd : Width) (p : PendLane) (j : Nat) : Int := wrapInt 27 (p.addr + (if wd = .t then (j : Int) else 0))

/-- What the checks of a word's elements have found: the elements that pass, the failures, and the pages whose one walk has
failed (R239). -/
structure Checked where
  ok : List MemElem := []
  bad : List Bad := []
  pages : List Int := []
deriving DecidableEq, Repr

/-- The check of one element. -/
def Issue.resolveElem (x : Issue) (sp : Space) (k : AccKind) (wd : Width) (p : PendLane) (acc : State × Checked) (j : Nat) :
    State × Checked :=
  let (s, r) := acc
  let addr := elemAddr wd p j
  match s.resolve x.w sp (x.g.lane p.lane).thread k (widthLen wd) addr with
  | .ok (s, places) => (s, { r with ok := r.ok ++ [⟨p.lane, j, places⟩] })
  | .error c =>
    let page := addr / 19683
    let bad := addBad r.bad ⟨p.lane, c, addr⟩
    if sp ≠ .virt ∨ r.pages.contains page then (s, { r with bad := bad })
    else
      (s.refusedAccess x.w.who (widthLen wd) addr,
        { r with bad := bad, pages := if s.walkFails x.w.who (widthLen wd) addr then page :: r.pages else r.pages })

/-- R273: every active element is checked; the first failing element of a lane gives the lane's cause. -/
def Issue.resolveAll (x : Issue) (s : State) (sp : Space) (k : AccKind) (wd : Width) (ps : List PendLane) :
    State × List MemElem × List Bad :=
  let (s, r) := ps.foldl (fun acc p => (activeElems wd p.pred).foldl (x.resolveElem sp k wd p) acc) (s, ({} : Checked))
  (s, r.ok, r.bad)

/-- R236, R356: a precise fault at or after issue: the word has taken its count. -/
def Issue.memFault (x : Issue) (s : State) (ps : List PendLane) (bad : List Bad) : Eff :=
  let had := (x.again.map (·.slot)).getD false
  let s := match x.i.slotOf with
    | some n => if had then s else s.updGroup x.r fun g => g.wrW n (g.rdW n + 1)
    | none => s
  let first := bad.headD ⟨0, 0, 0⟩
  .trapIn s { cause := first.cause, addr := first.addr, lanes := bad.map fun b => (b.lane, b.cause), cap := ps,
              slot := x.i.slotOf.isSome, issued := true }

/-! ## Orders and scopes (R248 to R258) -/

/-- R249, R250: whether a scope reaches beyond the core. -/
def Scope.beyondCore : Scope → Bool
  | .thread | .group | .wgrp => false
  | _ => true

/-- R248, R249: the dies that a scope takes in for an agent of a die, where it reaches beyond the die. -/
def scopeDies (c : Ctx) (die : Nat) : Scope → List Nat
  | .pair => if c.mode = 4 then [die] else [die / 2 * 2, die / 2 * 2 + 1]
  | .pkg | .sys => c.dies
  | _ => [die]

/-- R251, Table 2: a release of a core at a scope, for work of a context: the core's dirty L1 trytes are written back, and the
copies of the other dies of the scope receive what happens before it; of some lines (R261). -/
def State.releaseCore (s : State) (c : Ctx) (core : Nat) (sc : Scope) (ls : Lines) : State :=
  let s := if Scope.beyondCore sc then s.cleanLines core ls else s
  let dies := scopeDies c (coreDie core) sc
  if dies.length > 1 then s.drainFor (coreDie core) dies ls else s

/-- R251: what a release of a workgroup's agent waits for. -/
def State.releaseAt (s : State) (w : Workgroup) (sc : Scope) (ls : Lines := allLines) : State :=
  s.releaseCore w.region.ctx (coreIdx w.core) sc ls

/-- R251, Table 2: what an acquire does to its core. -/
def State.acquireAt (s : State) (w : Workgroup) (sc : Scope) (ls : Lines := allLines) : State :=
  if Scope.beyondCore sc then s.dropClean (coreIdx w.core) ls else s

/-- R258: the cores of a scope instance that hold workgroups of a context. -/
def State.coresIn (s : State) (w : Workgroup) (sc : Scope) : List Nat :=
  let near (c : CoreRef) : Bool := match sc with
    | .cluster => coreClu c == coreClu w.core
    | .die => c.die == w.core.die
    | .pair => if w.region.ctx.mode = 4 then c.die == w.core.die else c.die / 2 == w.core.die / 2
    | .pkg => w.region.ctx.dies.contains c.die
    | .sys => w.region.ctx.dies.contains c.die
    | _ => c == w.core
  ((s.wgs.filter fun v => v.st != .suspended && v.region.ctx.num == w.region.ctx.num && near v.core).map fun v =>
    coreIdx v.core).eraseDups

/-- R258 step 1: the flush of a remote acquire: a release of every core of the scope. -/
def State.remoteFlush (s : State) (w : Workgroup) (sc : Scope) : State :=
  (s.coresIn w sc).foldl (fun s c => s.releaseCore w.region.ctx c sc allLines) s

/-! ## Performing stores -/

/-- R221, R366: a place of a scratchpad as it stands now for the work of a workgroup: in its own run it is at its diversion unit
while the workgroup is away; another's granule that a diversion entry covers is at that unit. -/
def State.placeNow (s : State) (by_ : Nat) (p : Place) : Place :=
  let other (c o : Nat) : Place := match s.divAt c o with
    | some (_, e) => .diverted e.wg c o
    | none => .scr c o
  match p with
  | .scr c o =>
    if ((s.wgOf by_).map (·.ownsPlace p)).getD false then (if (s.divOf by_ c o).isSome then .diverted by_ c o else p) else other c o
  | .diverted g c o => if (s.divOf g c o).isSome then p else other c o
  | p => p

/-- R367, R370: whether an access waits at a diversion unit, for a held entry or for arrivals before it. -/
def State.waitsAt (s : State) (ps : List Place) : Bool :=
  match ps with
  | .diverted g c o :: _ =>
    match s.divOf g c o with
    | some (_, e) => e.st == .zero || s.arrivals.any fun a => a.1 == c && a.2.wg == g
    | none => false
  | _ => false

/-- An arrival at a core for the entry of a workgroup. -/
def State.arrive (s : State) (by_ wg core : Nat) (k : ArrivalKind) : State :=
  { s with arrivals := s.arrivals ++ [(core, ⟨wg, by_, k⟩)] }

/-- The elements of stores by access, each of n trytes. -/
def byAccess (n : Nat) (es : List StoreElem) : List (List StoreElem) := chunksOf n es.length es

/-- R367: stores whose granules are diverted go to the diversion units, each access as one arrival; the others are left.
`issuer` is the pending word that completes when the units have accepted them (R271). -/
def State.sendDiverted (s : State) (by_ : Nat) (issuer : Option (Nat × Nat × Nat)) (n : Nat) (es : List StoreElem) :
    State × List StoreElem :=
  (byAccess n es).foldl (fun (acc : State × List StoreElem) word =>
    match word.head?.map fun e => acc.1.placeNow by_ e.place with
    | some (.diverted g c o) => (acc.1.arrive by_ g c (.data o (word.map (·.val)) issuer), acc.2)
    | _ => (acc.1, acc.2 ++ word.map fun e => { e with place := acc.1.placeNow by_ e.place })) (s, [])

/-- The access of a word that stores: width, and its qualifier where it is strong. -/
def storeForm : Instr → Option (Width × Option Qual)
  | .st x => some (x.wd, none)
  | .stu x => some (x.wd, match x.form with
    | .strong q => some q
    | .weak _ => none)
  | .stStrong x => some (x.wd, match x.form with
    | .strong q => some q
    | .weak _ => none)
  | _ => none

/-- R285: failures of a store become records: a refused conversion waits for WINDOW_STORE_REFUSAL (R51), the others are
imprecise faults. -/
def State.storeFailed (s : State) (w : Workgroup) (r : GroupRef) (p : Pending) (fs : List StoreFail) : State :=
  let base (lane : Nat) : Int := ((lanePart p.lanes lane).map (·.addr)).getD 0
  (fs.map (·.cause)).eraseDups.foldl (fun s c =>
    let mine := fs.filter fun f => f.cause == c
    let addr (lane : Nat) : Int := wrapInt 27 (base lane + (((mine.find? fun f => f.lane == lane).map (·.off)).getD 0 : Nat))
    let recs := (recordOf s w r.hw c p.pc).perHw (mine.map (·.lane)).eraseDups addr
    if c = 13 then { s with refusals := s.refusals ++ recs.map fun x => ⟨x, w.region⟩ }
    else recs.foldl (fun s x => s.noteLate x w.region) s) s

/-- What L1 keeps of a store's element: the record that a later refusal of its line becomes (R48, R285). -/
def storeNote (s : State) (w : Workgroup) (r : GroupRef) (p : Pending) (e : StoreElem) : Option StoreNote :=
  let base := ((lanePart p.lanes e.lane).map (·.addr)).getD 0
  some ⟨p.id, { recordOf s w r.hw 15 p.pc with hw := r.hw + e.lane / 27, lanes := [e.lane % 27], addr := wrapInt 27 (base + (e.off : Int)) },
    w.region⟩

/-- R205: whether an operation in a matrix queue has scratchpad operands still to read. -/
def MatEntry.toRead (e : MatEntry) : Bool :=
  !e.consumed && match e.op with
    | .load .. | .row .. => true
    | _ => false

/-- R205: a scratchpad tryte about to be written is kept as it is for the operations that may still read it. -/
def noteOld (copy : Option Nat) (s : State) (e : StoreElem) : State :=
  match e.place with
  | .scr c o =>
    if (s.unitAt (c / 9)).queue.any MatEntry.toRead then
      s.updUnit (c / 9) fun u => { u with olds := u.olds ++ [⟨c, o, s.scrGet c o, s.nextId, copy⟩] }
    else s
  | _ => s

/-- R276, R278: stores of a given form are performed, with the refusals they meet. -/
def State.performForm (s : State) (w : Workgroup) (r : GroupRef) (p : Pending) (wd : Width) (q : Option Qual) : State :=
  let s : State := match q with
    | some q => if q.order = Trit.neg then s.releaseAt w q.scope else s
    | none => s
  let (s, es) := s.sendDiverted r.wg (some (r.wg, r.hw, p.id)) (widthLen wd) p.stores
  let s := es.foldl (noteOld none) s
  let (s, fs) := s.performStores w.who q.isSome (wd != Width.t) (storeNote s w r p) es
  let s := s.storeFailed w r p fs
  s.updGroup r fun g =>
    { g with pend := g.pend.map fun y => if y.id == p.id then { y with performed := true, stores := [] } else y }

/-- The stores of a pending word are performed. -/
def State.performOne (s : State) (w : Workgroup) (r : GroupRef) (p : Pending) : State :=
  match p.instr.bind storeForm with
  | none => s
  | some (wd, q) => s.performForm w r p wd q

/-- Whether a pending word is a release (R251). -/
def Pending.isRelease (p : Pending) : Bool :=
  match (p.instr.bind storeForm : Option (Width × Option Qual)) with
  | some (_, some q) => q.order == Trit.neg
  | _ => false

/-- Two places of one tryte, or of window elements that share a byte. -/
def Place.meets (a b : Place) : Bool :=
  match a, b with
  | .line p, .line q => p.key == q.key && p.tryte == q.tryte
  | .window p v _, .window q u _ =>
    p.key.die == q.key.die && p.key.lpddr == q.key.lpddr && decide (p.byte < q.byte + u.s) && decide (q.byte < p.byte + v.s)
  | .scr c o, .diverted _ c' o' => c == c' && o == o'
  | .diverted _ c o, .scr c' o' => c == c' && o == o'
  | a, b => a == b

/-- R245: whether a store of a lane is to come before a later one of the same lane: they meet in a tryte. -/
def Pending.precedes (p q : Pending) : Bool :=
  p.stores.any fun e => q.stores.any fun f => e.lane == f.lane && e.place.meets f.place

/-- The stores that are performed when those of a test are, oldest first: with each, the earlier ones of the same lanes to its
trytes (R245), and with a release every earlier one (R251). -/
def withEarlier (open_ : List Pending) (pick : Pending → Bool) : List Pending :=
  open_.reverse.foldl (fun later p => if pick p || later.any fun q => q.isRelease || p.precedes q then p :: later else later) []

def Place.isDiverted : Place → Bool
  | .diverted .. => true
  | _ => false

/-- Whether a pending read or atomic of a group has still to be performed, at a diversion unit or in part (R274). -/
def Pending.waitsDiverted (p : Pending) : Bool :=
  !p.performed && p.stores.isEmpty && match p.instr with
    | some (.ld _) | some (.ldStrong _) | some (.ldu _) | some (.atom _) | some (.atomr _) | some (.cas _) => true
    | _ => false

/-- R251: whether a release of a group, made before the word of a number, has to wait: an earlier access of the group is still to be
performed, or is on its way to a diversion unit. -/
def State.releaseWaits (s : State) (r : GroupRef) (id : Nat) : Bool :=
  ((s.groupOf r).map fun g => g.pend.any fun q => decide (q.id < id) &&
    (q.waitsDiverted || q.stores.any fun e => (s.placeNow r.wg e.place).isDiverted)).getD false ||
  s.arrivals.any fun a => match a.2.kind with
    | .data _ _ (some (wg, hw, k)) => wg == r.wg && hw == r.hw && decide (k < id)
    | _ => false

/-- The stores of a group that a test picks are performed, with those that come before them. -/
def State.settleStores (s : State) (r : GroupRef) (pick : Pending → Bool) : State :=
  match s.wgOf r.wg, s.groupOf r with
  | some w, some g => (withEarlier (g.pend.filter fun p => !p.stores.isEmpty) pick).foldl (fun s p => s.performOne w r p) s
  | _, _ => s

/-- R245: an access of a group comes after its earlier stores to the same trytes. -/
def State.settleOver (s : State) (r : GroupRef) (es : List MemElem) : State :=
  s.settleStores r fun p => p.stores.any fun e => es.any fun m => m.places.any fun q => q.meets e.place

/-- R251: whether a store that an access of a group comes after is a release that has to wait, or comes before one. -/
def State.overWaits (s : State) (r : GroupRef) (es : List MemElem) : Bool :=
  ((s.groupOf r).map fun g => (withEarlier (g.pend.filter fun p => !p.stores.isEmpty) fun p =>
    p.stores.any fun e => es.any fun m => m.places.any fun q => q.meets e.place).any fun p =>
      p.isRelease && s.releaseWaits r p.id).getD false

/-- R251: whether a word that releases has to wait. -/
def Issue.releaseWaits (x : Issue) : Bool := x.s0.releaseWaits x.r x.s0.nextId

/-! ## Loads (R275, R277, R278) -/

/-- A result element enters a lane's part. -/
def PendLane.setElem (p : PendLane) (wd : Width) (j : Nat) (ts : List Tryte) : PendLane :=
  let v := ofTrytes ts
  match wd with
  | .w => { p with r0 := Word.ofInt v }
  | .t => { p with r0 := joinTrytes fun i => if i = j then v else tryteOf p.r0.val i }
  | .f81 => { p with r0 := Word.ofInt v, r1 := Word.ofInt (dropInt 27 v), r2 := Word.ofInt (dropInt 54 v) }

def setPart (ps : List PendLane) (lane : Nat) (f : PendLane → PendLane) : List PendLane :=
  ps.map fun p => if p.lane = lane then f p else p

def MemElem.isDiverted (m : MemElem) : Bool :=
  match m.places with
  | .diverted .. :: _ => true
  | _ => false

/-- R424: the bursts of the fills that a refused element met. -/
def State.refusedFills (s : State) (ps : List Place) : State :=
  match ps with
  | .line p :: _ => s.refusedFill p
  | _ => s

/-- The failure of an element that has passed its checks. -/
def MemElem.fail (m : MemElem) (wd : Width) (ps : List PendLane) (cause : Nat) : Bad :=
  ⟨m.lane, cause, ((lanePart ps m.lane).map fun p => elemAddr wd p m.elem).getD 0⟩

/-- The reads of elements, and the failures of R47, R50 and R240 by lane. -/
def Issue.readAll (x : Issue) (s : State) (strong : Bool) (wd : Width) (ps : List PendLane) (es : List MemElem) :
    State × List PendLane × List Bad :=
  es.foldl (fun (acc : State × List PendLane × List Bad) m =>
    let (s, ps, bad) := acc
    if m.isDiverted then (s, ps, bad)
    else match s.readElem x.w.who strong m.places with
      | .ok (s, ts) => (s, setPart ps m.lane fun p => p.setElem wd m.elem ts, bad)
      | .error c => (s.refusedFills m.places, ps, addBad bad (m.fail wd ps c))) (s, ps, [])

/-- The loads of diverted granules go to the diversion units, for the pending word that gets the next number. -/
def Issue.sendLoads (x : Issue) (s : State) (es : List MemElem) : State :=
  es.foldl (fun s m => match m.places with
    | .diverted g c o :: _ => s.arrive x.r.wg g c (.load o m.places.length (x.r.wg, x.r.hw) s.nextId m.lane m.elem)
    | _ => s) s

/-- The parts of a word that make an access: all, or that of the lowest active lane for a uniform one (R277). -/
def acting (uniform : Bool) (ps : List PendLane) : List PendLane := if uniform then ps.take 1 else ps

/-- R275, R277: a load. -/
def Issue.load (x : Issue) (sp : Space) (wd : Width) (q : Option Qual) (uniform : Bool) (addr : Nat → Int) : Eff :=
  if !x.anyActive then x.empty
  else match x.results with
    | some ps => .done (x.begin (x.next x.s0) ps true [])
    | none =>
      let ps := x.memParts x.active addr (fun _ => zeroW) (fun _ => zeroW) (fun _ => zeroW)
      let (s, es, bad) := x.resolveAll x.s0 sp .read wd (acting uniform ps)
      if !bad.isEmpty then x.memFault s ps bad
      else
        if s.overWaits x.r es then .stall
        else
          let s := s.settleOver x.r es
          let s := match q with
            | some q => if q.remote then s.remoteFlush x.w q.scope else s
            | none => s
          let (s, ps, bad) := x.readAll s q.isSome wd ps es
          if !bad.isEmpty then x.memFault s ps bad
          else .done (x.begin (x.sendLoads (x.next s) es) ps (!es.any MemElem.isDiverted) [])

def AccForm.qual : AccForm → Option Qual
  | .strong q => some q
  | .weak _ => none

/-- R272: the address of a lane, from its base. -/
def Issue.address (x : Issue) (f : AccForm) (base : Int) : Int :=
  match f with
  | .weak off => wrapInt 27 (base + x.imm off)
  | .strong _ => base

def Issue.loadG (x : Issue) (a : MemArgs) : Eff :=
  x.load a.space a.wd (AccForm.qual a.form) false fun l => x.address a.form (x.greg a.a.val l).val

def execLd (a : MemArgs) (s : State) : Host.Outcome State Fault Refusal := runWord (.ld a) s (·.loadG a)
def execLdStrong (a : MemArgs) (s : State) : Host.Outcome State Fault Refusal := runWord (.ldStrong a) s (·.loadG a)
/-- R277: one access for the lowest active lane. -/
def execLdu (a : UniArgs) (s : State) : Host.Outcome State Fault Refusal :=
  runWord (.ldu a) s fun x =>
    x.load a.space a.wd (AccForm.qual a.form) true fun _ => x.address a.form (x.g.rdS a.sa.val).val

/-! ## Stores (R276 to R278) -/

/-- The trytes that an element of a store writes. -/
def PendLane.elemData (p : PendLane) (wd : Width) (j : Nat) : List Tryte :=
  match wd with
  | .w => toTrytes 3 p.d0.val
  | .t => [Tryte.ofInt (tryteOf p.d0.val j)]
  | .f81 => toTrytes 3 p.d0.val ++ toTrytes 3 p.d1.val ++ toTrytes 3 p.d2.val

/-- The store elements of an element that has passed its checks. -/
def MemElem.stores (m : MemElem) (wd : Width) (ps : List PendLane) : List StoreElem :=
  let vals := ((lanePart ps m.lane).map fun p => p.elemData wd m.elem).getD []
  let first := if wd = .t then m.elem else 0
  ((List.range vals.length).zip (m.places.zip vals)).map fun e => ⟨m.lane, first + e.1, e.2.1, e.2.2⟩

/-- R276, R277: a store is checked and waits to be performed. -/
def Issue.store (x : Issue) (sp : Space) (wd : Width) (uniform : Bool) (addr : Nat → Int) (d : Nat → Nat → Word) : Eff :=
  if !x.anyActive then x.empty
  else
    let ps := x.memParts x.active addr (d 0) (d 1) (d 2)
    let (s, es, bad) := x.resolveAll x.s0 sp .write wd (acting uniform ps)
    if !bad.isEmpty then x.memFault s ps bad else .done (x.begin (x.next s) ps false (es.flatMap fun m => m.stores wd ps))

def Issue.storeG (x : Issue) (a : MemArgs) : Eff :=
  x.store a.space a.wd false (fun l => x.address a.form (x.greg a.a.val l).val) fun i l => if a.d.val = 0 then zeroW else x.greg (a.d.val + i) l

def execSt (a : MemArgs) (s : State) : Host.Outcome State Fault Refusal := runWord (.st a) s (·.storeG a)
def execStStrong (a : MemArgs) (s : State) : Host.Outcome State Fault Refusal := runWord (.stStrong a) s (·.storeG a)
def execStu (a : UniArgs) (s : State) : Host.Outcome State Fault Refusal :=
  runWord (.stu a) s fun x =>
    x.store a.space a.wd true (fun _ => x.address a.form (x.g.rdS a.sa.val).val) fun _ _ => x.g.rdS a.sd.val

/-! ## Atomics (R279, R280) -/

/-- R279: the new value of an element of n trits. -/
def atomResult (op : AtomOp) (n : Nat) (old v : Int) : Int :=
  match op with
  | .add => wrapInt n (old + v)
  | .exch => v
  | .min => minInt old v
  | .max => maxInt old v
  | .tmin => tritwise tMin n old v
  | .tmax => tritwise tMax n old v

/-- R279: CAS writes the new value when the compare succeeds, else the old one. -/
def casResult (old cmp new : Int) : Int := if old = cmp then new else old

/-- R280: the trytes of an element as an atomic meets them. -/
def State.atomRead (s : State) (w : Who) (ps : List Place) : Except Nat (State × List Tryte) :=
  match ps with
  | .line p :: _ =>
    let s := match w.core with
      | some c => s.cleanLine c p.ctx.num p.vline
      | none => s
    s.homeRead w.die p ((List.range ps.length).map (p.tryte + ·))
  | ps => s.readElem w true ps

/-- R280, R278: an atomic's write, which every copy and the core's L1 take at once. -/
def State.atomWrite (s : State) (w : Who) (ps : List Place) (ts : List Tryte) : Except Nat State :=
  match ps with
  | .line p :: _ => do
    let vals := (List.range ts.length).map fun j => (p.tryte + j, ts.getD j zeroT)
    let s ← s.homeWrite p vals
    .ok (match w.core with
      | some c => s.l1Patch c p.key vals
      | none => s)
  | ps =>
    let es := ps.zipWith (fun pl v => (⟨0, 0, pl, v⟩ : StoreElem)) ts
    match s.performStores w true (ts.length == 3) noNote es with
    | (s, []) => .ok s
    | (_, f :: _) => .error f.cause

/-- R279: one element's read-modify-write. -/
def State.atomElem (s : State) (w : Who) (op : AtomOp) (cas : Bool) (wd : Width) (p : PendLane) (m : MemElem) :
    Except Nat (State × List Tryte) := do
  let (s, ts) ← s.atomRead w m.places
  let old := ofTrytes ts
  let pick (v : Word) : Int := if wd = .t then tryteOf v.val m.elem else v.val
  let new := if cas then casResult old (pick p.d0) (pick p.d1) else atomResult op (if wd = .t then 9 else 27) old (pick p.d0)
  let s ← s.atomWrite w m.places (toTrytes ts.length new)
  .ok (s, ts)

/-- R274: how many of the elements of an atomic are performed as it issues (free); an access of another agent may come before
the rest. -/
def State.atomSplit (s : State) (es : List MemElem) : Nat × State := s.pick (es.length + 1)

/-- R221, R289: the places of an element as they stand: at a diversion unit where their granule is diverted, and of a coded block under
its attribute entry. -/
def State.elemNow (s : State) (by_ : Nat) (m : MemElem) : MemElem :=
  { m with places := m.places.map fun p => match s.placeNow by_ p with
      | .line q => .line (s.placeAsIs q)
      | q => q }

/-- R274, R279: one element of the atomic of a pending word is performed; one that is diverted goes to its diversion unit, which
answers later. -/
def State.atomOne (s : State) (w : Workgroup) (r : GroupRef) (id : Nat) (op : AtomOp) (cas : Bool) (wd : Width) (p : PendLane)
    (m : MemElem) : Except Nat (State × Option (List Tryte)) :=
  let m := s.elemNow r.wg m
  match m.places with
  | .diverted g c o :: _ =>
    let pick (v : Word) : Word := if wd = .t then Word.ofInt (tryteOf v.val m.elem) else v
    .ok (s.arrive r.wg g c (.atomic o op cas (wd == .t) (pick p.d0) (pick p.d1) (r.wg, r.hw) id m.lane m.elem), none)
  | _ => (s.atomElem w.who op cas wd p m).map fun x => (x.1, some x.2)

/-- R274, R279: the elements in lane and element order. -/
def Issue.atomAll (x : Issue) (op : AtomOp) (cas : Bool) (wd : Width) (s : State) (ps : List PendLane) (es : List MemElem) :
    State × List PendLane × List Bad :=
  es.foldl (fun (acc : State × List PendLane × List Bad) m =>
    let (s, ps, bad) := acc
    match s.atomOne x.w x.r s.nextId op cas wd ((lanePart ps m.lane).getD (PendLane.new m.lane kZero)) m with
    | .ok (s, some ts) => (s, setPart ps m.lane fun p => p.setElem wd m.elem ts, bad)
    | .ok (s, none) => (s, ps, bad)
    | .error c => (s.refusedFills m.places, ps, addBad bad (m.fail wd ps c))) (s, ps, [])

/-- R280, R285: the failures that the lines of an atomic would meet, found before any element is performed. -/
def Issue.atomProbe (x : Issue) (s : State) (wd : Width) (ps : List PendLane) (es : List MemElem) : List Bad :=
  es.foldl (fun bad m =>
    if m.isDiverted then bad
    else match s.atomRead x.w.who m.places with
      | .ok _ => bad
      | .error c => addBad bad (m.fail wd ps c)) []

def MemOrder.releases : MemOrder → Bool
  | .rel | .acqrel => true
  | _ => false
def MemOrder.acquires : MemOrder → Bool
  | .acq | .acqrel => true
  | _ => false

/-- R279, R280: an atomic of the active lanes. -/
def Issue.atomic (x : Issue) (a : AtomArgs) (cas : Bool) : Eff :=
  let wd : Width := if a.tryte then .t else .w
  if !x.anyActive then x.empty
  else match x.results with
    | some ps => .done (x.begin (x.next x.s0) ps true [])
    | none =>
      let rel := MemOrder.releases a.order
      if rel && x.releaseWaits then .stall
      else
        let ps := x.memParts x.active (fun l => (x.greg a.a.val l).val) (fun l => x.greg a.d.val l)
          (fun l => if cas then x.greg (a.d.val + 1) l else zeroW) (fun _ => zeroW)
        let (s, es, bad) := x.resolveAll x.s0 a.space .atomic wd ps
        if !bad.isEmpty then x.memFault s ps bad
        else if s.overWaits x.r es then .stall
        else
          let s := if rel then (s.settleStores x.r fun _ => true).releaseAt x.w a.scope else s.settleOver x.r es
          let bad := x.atomProbe s wd ps es
          if !bad.isEmpty then x.memFault s ps bad
          else
            let (n, s) := s.atomSplit es
            let (s, ps, bad) := x.atomAll a.op cas wd s ps (es.take n)
            if !bad.isEmpty then x.memFault s ps bad
            else .done (x.begin (x.next s) ps (n == es.length && !es.any MemElem.isDiverted) [] (es.drop n))

/-- The width of a load. -/
def loadWidth : Instr → Width
  | .ld a | .ldStrong a => a.wd
  | .ldu a => a.wd
  | _ => .w

/-- The atomic of a pending word, and whether it is a CAS. -/
def atomicOf : Instr → Option (AtomArgs × Bool)
  | .atom a | .atomr a => some (a, false)
  | .cas a => some (a, true)
  | _ => none

def execAtom (a : AtomArgs) (s : State) : Host.Outcome State Fault Refusal := runWord (.atom a) s (·.atomic a false)
def execAtomr (a : AtomArgs) (s : State) : Host.Outcome State Fault Refusal := runWord (.atomr a) s (·.atomic a false)
def execCas (a : AtomArgs) (s : State) : Host.Outcome State Fault Refusal := runWord (.cas a) s (·.atomic a true)

/-! ## Fences and monitor waits (R281, R282) -/

/-- R281 step 1: the words that a fence waits for: memory accesses and the issue of copies. -/
def Pending.fenced (p : Pending) : Bool :=
  match p.instr with
  | some (.ld _) | some (.ldStrong _) | some (.st _) | some (.stStrong _) | some (.ldu _) | some (.stu _)
  | some (.atom _) | some (.atomr _) | some (.cas _) | some (.cpy _) | some (.cpys _) | some (.cpyf _) | some (.cpyl _)
  | some (.cpylFlush _) => true
  | _ => false

/-- R281 steps 2 to 4, R253, R255. -/
def State.fenceAt (s : State) (w : Workgroup) (k : FenceKind) (sc : Scope) : State :=
  let s := match k with
    | .acq => s
    | _ => s.releaseAt w sc
  match k with
  | .rel => s
  | _ => s.acquireAt w sc

def execFence (a : FenceArgs) (s : State) : Host.Outcome State Fault Refusal :=
  runWord (.fence a) s fun x =>
    if x.g.pend.any Pending.fenced || x.releaseWaits then .hold x.s0 else .done (x.next (x.s0.fenceAt x.w a.kind a.scope))

/-- R282, R245: the read of a monitor for its lane, after the group's own stores: none while a diversion unit holds the word, or has an
arrival to come before the read. -/
def State.monitorRead (s : State) (w : Workgroup) (r : GroupRef) (sp : Space) (thread : Nat) (addr : Int) :
    Except Nat (State × Option Int) := do
  let (s, ps) ← s.resolve w sp thread .read 3 addr
  let ps := ps.map (s.placeNow w.id)
  if s.overWaits r [⟨0, 0, ps⟩] then .ok (s, none)
  else
    let s := s.settleOver r [⟨0, 0, ps⟩]
    if s.waitsAt ps then .ok (s, none)
    else do
      let (s, ts) ← s.readElem w.who true ps
      .ok (s, some (ofTrytes ts))

/-- The end of a monitor wait by itself (R282, R382): `timeout` cycles of a workgroup's island from now, none for 0 (R2). -/
def State.deadlineIn (s : State) (w : Workgroup) (timeout : Int) : Option Nat :=
  if timeout = 0 then none else some (s.cycles (coreClu w.core) + timeout.toNat)

/-- R282: WAITM reads its word; where it differs the run goes on, else the group waits off its slot. -/
def Issue.waitm (x : Issue) (a : WaitmArgs) : Eff :=
  let l := x.low
  let cap : PendLane := (x.captured l).getD { PendLane.new l kAll with addr := (x.g.rdS a.sa.val).val, d0 := x.g.rdS a.sd.val }
  match x.s0.monitorRead x.w x.r a.space (x.g.lane l).thread cap.addr with
  | .error c =>
    .trapIn (if a.space = .virt then x.s0.refusedAccess x.w.who 3 cap.addr else x.s0)
      { cause := c, lanes := [(l, c)], cap := [cap], addr := cap.addr, issued := true }
  | .ok (_, none) => .stall
  | .ok (s, some v) =>
    if v ≠ cap.d0.val then .done ((x.next s).updGroup x.r fun g => g.wrS a.sd.val (Word.ofInt v))
    else
      let m : Monitor := { instr := x.i, pc := x.pc, payload := x.pay, addr := cap.addr, token := cap.d0.val,
                           last := Word.ofInt v, deadline := s.deadlineIn x.w (x.imm a.timeout), fault := none }
      .done (s.updGroup x.r fun g => { g with phase := .waiting m })

def execWaitm (a : WaitmArgs) (s : State) : Host.Outcome State Fault Refusal := runWord (.waitm a) s (·.waitm a)

/-! ## Named buffers (R261, R340) -/

/-- The buffer that a barrier object names, in the object's space. -/
structure NamedBuf where
  space : Space
  base : Int
  len : Int
deriving DecidableEq, Repr

/-- The lines of a buffer: those of virtual memory, for a context; on chip no cache stands before it. -/
def NamedBuf.lines (b : NamedBuf) (ctx : Nat) : Lines := fun c l =>
  b.space == .virt && c == ctx && decide (b.base < 81 * (l + 1)) && decide (81 * l < b.base + b.len)

/-- Whether a pending store writes a buffer; of another space on chip it may. -/
def NamedBuf.meets (b : NamedBuf) (p : Pending) : Bool :=
  let at_ (e : StoreElem) : Int := wrapInt 27 (((lanePart p.lanes e.lane).map (·.addr)).getD 0 + (e.off : Int))
  let inside : Bool := p.stores.any fun e => decide (b.base ≤ at_ e) && decide (at_ e < b.base + b.len)
  match p.instr with
  | some (.st a) | some (.stStrong a) => if a.space == b.space then inside else a.space != .virt && b.space != .virt
  | some (.stu a) => if a.space == b.space then inside else a.space != .virt && b.space != .virt
  | _ => false

/-- R340: the buffer of an object from its words. -/
def namedBuf (sp : Space) (ws : List Int) : NamedBuf := ⟨sp, ws.getD 3 0, ws.getD 4 0⟩

/-- R261, R340: a release at package scope of what a group has written of a buffer. -/
def State.releaseBuf (s : State) (w : Workgroup) (r : GroupRef) (b : NamedBuf) : State :=
  (s.settleStores r b.meets).releaseAt w .pkg (b.lines w.region.ctx.num)

/-- R261, R340: an acquire at package scope of a buffer. -/
def State.acquireBuf (s : State) (w : Workgroup) (b : NamedBuf) : State := s.acquireAt w .pkg (b.lines w.region.ctx.num)

/-- R342: the acquire that ends a wait at an object: of the buffer that the object names, as it can be read; else of every line. -/
def State.acquireObject (s : State) (w : Workgroup) (r : GroupRef) (sp : Space) (thread : Nat) (addr : Int) : State :=
  match s.monitorRead w r sp thread (addr + 9), s.monitorRead w r sp thread (addr + 12) with
  | .ok (_, some base), .ok (_, some len) => s.acquireBuf w ⟨sp, base, len⟩
  | _, _ => s.acquireAt w .pkg

/-! ## Cache control and prefetch (R283, R284) -/

/-- The addresses of the active lanes of a line word (R272). -/
def Issue.lineAddrs (x : Issue) (a : LineArgs) : List Int :=
  (x.active.filter x.selects).map fun l => wrapInt 27 ((x.reg a.a l).val + x.src a.b l)

def execCwb (a : LineArgs) (s : State) : Host.Outcome State Fault Refusal :=
  runWord (.cwb a) s fun x =>
    .done ((x.lineAddrs a).foldl (fun s va => s.cleanLine (coreIdx x.w.core) x.w.region.ctx.num (va / 81)) x.s)
def execCwbAll (s : State) : Host.Outcome State Fault Refusal :=
  runWord .cwbAll s fun x => .done (x.s.cleanL1 (coreIdx x.w.core))
def execCinv (a : LineArgs) (s : State) : Host.Outcome State Fault Refusal :=
  runWord (.cinv a) s fun x =>
    .done ((x.lineAddrs a).foldl (fun s va => s.flushLine (coreIdx x.w.core) x.w.region.ctx.num (va / 81)) x.s)
def execCinvAll (s : State) : Host.Outcome State Fault Refusal :=
  runWord .cinvAll s fun x => .done (x.s.flushL1 (coreIdx x.w.core))

/-- The fill of a line for a prefetch; a refused one is dropped. -/
def State.fillOrDrop (s : State) (die : Nat) (p : LinePlace) : State :=
  match s.llcEnsure die p with
  | .ok s => s
  | .error _ => s.refusedFill p

/-- R284: one lane's prefetch; any failure drops it. DESIGN CHOICE (log 64): the spec gives PREF no width; its access is of one tryte, or
of one whole element of a binary window (R49), which its address is to begin. -/
def State.prefetch (s : State) (w : Workgroup) (va : Int) (intoL1 : Bool) : State :=
  match s.translate w.who .read 1 va with
  | .error _ => s.refusedAccess w.who 1 va
  | .ok (s, .line p) =>
    if intoL1 && p.l1 then
      match s.l1Read (coreIdx w.core) { p with tryte := p.tryte / 81 * 81 } 81 with
      | .ok (s, _) => s
      | .error _ => s.refusedFill p
    else s.fillOrDrop w.core.die p
  | .ok (s, .window p view t) =>
    match (Place.window p view t).span view.g with
    | .ok _ => s.fillOrDrop w.core.die p
    | .error _ => s
  | .ok (s, _) => s

def execPref (a : LineArgs) (s : State) : Host.Outcome State Fault Refusal :=
  runWord (.pref a) s fun x => .done ((x.lineAddrs a).foldl (fun s va => s.prefetch x.w va true) x.s)
def execPrefLlc (a : LineArgs) (s : State) : Host.Outcome State Fault Refusal :=
  runWord (.prefLlc a) s fun x => .done ((x.lineAddrs a).foldl (fun s va => s.prefetch x.w va false) x.s)

end Sys2Proof.Machine
end

