-- ==== Sys2Proof/Machine/Matrix.lean ====
section
/-! DEFINITION. The matrix unit (09_matrix_unit.md R191 to R216): tags, queues, the order of sums, and the matrix words. Turns
of the unit are events (MatrixEvents.lean). -/

namespace Sys2Proof.Machine

/-! ## Tags (R192, R203) -/

/-- R192: the tag after one, 0 left out. -/
def nextTag (t : Word) : Word :=
  let v := wrapInt 27 (t.val + 1)
  Word.ofInt (if v = 0 then 1 else v)

inductive TagState where
  | stationary
  | shadow
  | pending
  | retired
deriving DecidableEq, Repr

/-- R192: the state of a tag; every tag that no plane holds and no load brings is retired or was never issued. -/
def MatUnit.tagState (u : MatUnit) (t : Word) : TagState :=
  if u.pl0.tag = t then .stationary
  else if u.pl1.tag = t ∧ t ≠ zeroW then .shadow
  else if u.pending.any fun p => p.1 == t then .pending
  else .retired

/-- The descriptor captured for a live tag. -/
def MatUnit.descOf (u : MatUnit) (t : Word) : Option MatDesc :=
  if u.tagState t = .retired then none
  else if u.pl0.tag = t then some u.pl0.desc
  else if u.pl1.tag = t ∧ t ≠ zeroW then some u.pl1.desc
  else u.queue.findSome? fun e => match e.op with
    | .load tag _ d _ => if tag = t then some d else none
    | _ => none

/-! ## Queues (R200) -/

/-- Whether an entry is in the queues of a group (of its hardware groups when ganged). -/
def MatEntry.ofGroup (e : MatEntry) (g : Group) : Bool :=
  e.wg == g.wg && decide (g.hw ≤ e.hw) && decide (e.hw < g.hw + Nat.max 1 (g.lanes.length / 27))

/-- R200: whether the queue of a hardware group has room for n entries. -/
def MatUnit.room (u : MatUnit) (wg hw n : Nat) : Bool :=
  decide ((u.queue.filter fun e => e.wg == wg && e.hw == hw).length + n ≤ 27)

/-- The tile that an operation names. -/
def MatOp.tile : MatOp → Option Nat
  | .row _ t _ _ _ _ => some t
  | .zero t => some t
  | .write t _ _ => some t
  | .store t _ _ _ => some t
  | _ => none

/-- R203: stale operations are counted at the unit and, saturating at 40, at their group. -/
def State.countStale (s : State) (clu wg hw n : Nat) : State :=
  let s := s.bump 21 (clu / 27) (clu % 27) n
  { s with groups := s.groups.map fun g =>
      if g.wg == wg && decide (g.hw ≤ hw) && decide (hw < g.hw + Nat.max 1 (g.lanes.length / 27)) then
        { g with stale := Nat.min 40 (g.stale + n) } else g }

/-- The physical tile of a tile number of a workgroup (R197). -/
def Workgroup.tileAt (w : Workgroup) (n : Nat) : Nat := w.tiles.getD n 0

/-- Enters operations into the queues of a group, as one word. -/
def Issue.enqueue (x : Issue) (s : State) (ops : List (Nat × MatOp)) : State :=
  let es := ops.map fun o => (⟨s.nextId, x.r.wg, o.1, x.pc, o.2, false, false⟩ : MatEntry)
  { s.updUnit (coreClu x.w.core) (fun u => { u with queue := u.queue ++ es }) with nextId := s.nextId + 1 }

/-- R200: operations enter the queues, or the word waits until there is room. -/
def Issue.queueWord (x : Issue) (s : State) (ops : List (Nat × MatOp)) : Eff :=
  let u := s.unitAt (coreClu x.w.core)
  let hws := (ops.map (·.1)).eraseDups
  if hws.all fun h => u.room x.r.wg h (ops.filter fun o => o.1 == h).length then .done (x.enqueue s ops) else .stall

/-! ## Formats and spans (R193, R195, R196, R209) -/

/-- R193: the pass depth of a weight format. -/
def depthOf (f : Fmt) : Nat := if f.w = 3 then 729 else 243
/-- R35: elements in a tryte. -/
def perTryte (f : Fmt) : Nat := 9 / Nat.max 1 f.w
def ceilDiv (a b : Nat) : Nat := (a + b - 1) / b

/-- R195: the trytes of a weight image. -/
def MatDesc.imageLen (d : MatDesc) : Nat := 177147 + if d.scaled then 729 * (depthOf d.wf / 9) + 9 else 0
/-- R196: the trytes of an activation row with its scales. -/
def MatDesc.rowData (d : MatDesc) : Nat := ceilDiv (depthOf d.wf) (perTryte d.af)
def MatDesc.rowLen (d : MatDesc) : Nat := d.rowData + if d.scaled then depthOf d.wf / 9 else 0
/-- R215: the trytes of a row that MSTORE writes. -/
def storeRow (f : Fmt) : Nat := if f.w = 27 then 2187 else 81 * ceilDiv (ceilDiv 729 (perTryte f)) 81

/-- R209: the cause of an operand span that fails. -/
def spanCause (w : Workgroup) (off : Int) (len deny : Nat) : Option Nat :=
  if off % 81 ≠ 0 then some 12
  else if off < 0 ∨ off + len > (w.runLen : Int) then some deny
  else none

/-! ## Loads and activations (R208, R210, R211) -/

/-- R192, R209, R210: a load of the shadow plane under a descriptor; `planes` is p of MLOADP. -/
def Issue.matLoad (x : Issue) (sd sa : Nat) (planes : Option Nat) (r : TableRead) : Eff :=
  match r.desc with
  | none => .trap { cause := 1, detail := 3 }
  | some d =>
    let off := (x.g.rdS sa).val
    match spanCause x.w off d.imageLen 8 with
    | some c => .trap { cause := c }
    | none =>
      let clu := coreClu x.w.core
      let tag := (x.s.unitAt clu).counter
      match x.queueWord x.s [(x.r.hw, .load tag off d planes)] with
      | .done s =>
        let s := s.updUnit clu fun u => { u with counter := nextTag u.counter, pending := u.pending ++ [(tag, x.r.wg)] }
        .done (x.setS s sd tag.val)
      | e => e

def execMload (a : MloadArgs) (s : State) : Host.Outcome State Fault Refusal :=
  runTableWord (.mload a) s fun r x => x.matLoad a.sd.val a.sa.val none r
def execMloadp (a : MloadpArgs) (s : State) : Host.Outcome State Fault Refusal :=
  runTableWord (.mloadp a) s fun r x => x.matLoad a.sd.val a.sa.val (some (a.planes.val + 1)) r

/-- R211: MACT; one of a retired tag is stale at once (R203). -/
def execMact (sa : Fin 27) (s : State) : Host.Outcome State Fault Refusal :=
  runWord (.mact sa) s fun x =>
    let tag := x.g.rdS sa.val
    if (x.s.unitAt (coreClu x.w.core)).tagState tag = .retired then .done (x.s.countStale (coreClu x.w.core) x.r.wg x.r.hw 1)
    else x.queueWord x.s [(x.r.hw, .act tag)]

/-! ## MPASS (R202, R212) -/

/-- The row operation of hardware third t: lanes 9t.., of those the rows supplied and zeroed; none where every lane keeps its
row. Tile rows are those of the third in its hardware group. -/
def Issue.rowOp (x : Issue) (tag : Word) (tile depth : Nat) (a : Reg) (t : Nat) : Option (Nat × MatOp) :=
  let ls := x.active.filter fun l => l / 9 == t
  let row (l : Nat) : Nat := l % 27
  let rows := (ls.filter x.selects).map fun l => (row l, (x.reg a l).val)
  let zeroed := (ls.filter fun l => (x.pred l).trit 0 == -1).map row
  if rows.isEmpty ∧ zeroed.isEmpty then none
  else some (x.r.hw + t / 3, .row tag tile (t % 3) rows zeroed depth)

/-- Whether an operation is a zeroing operation (R202). -/
def MatOp.isZeroing : MatOp → Bool
  | .row _ _ _ rows _ _ => rows.isEmpty
  | _ => false

def execMpass (a : MpassArgs) (s : State) : Host.Outcome State Fault Refusal :=
  runWord (.mpass a) s fun x =>
    let u := x.s.unitAt (coreClu x.w.core)
    let tag := x.g.rdS a.sb.val
    let tile := x.w.tileAt a.tile.val
    let desc := u.descOf tag
    let depth := (desc.map fun d => depthOf d.wf).getD 243
    let ops := (List.range 9).filterMap (x.rowOp tag tile depth a.a)
    match desc with
    | none =>
      let (live, dead) := ops.partition fun o => o.2.isZeroing
      (match x.queueWord x.s live with
        | .done s => .done (s.countStale (coreClu x.w.core) x.r.wg x.r.hw dead.length)
        | e => e)
    | some d =>
      let bad := (x.active.filter x.selects).filterMap fun l =>
        (spanCause x.w (x.reg a.a l).val d.rowLen 8).map fun c => (l, c)
      match bad with
      | (_, c) :: _ => .trap { cause := c, lanes := bad }
      | [] => x.queueWord x.s ops

/-! ## Tiles (R213 to R215) -/

def execMzero (tile : Fin 27) (s : State) : Host.Outcome State Fault Refusal :=
  runWord (.mzero tile) s fun x => x.queueWord x.s [(x.r.hw, .zero (x.w.tileAt tile.val))]

/-- The key of a tile element. -/
def tileKey (tile row col : Nat) : Nat := tile * 19683 + row * 729 + col

/-- R199: the oldest operation in flight on a tile. -/
def MatUnit.busy (u : MatUnit) (tile : Nat) : Option MatEntry := u.queue.find? fun e => e.op.tile == some tile

def MatOp.mnemonic : MatOp → String
  | .load _ _ _ none => "MLOAD"
  | .load _ _ _ (some _) => "MLOADP"
  | .act _ => "MACT"
  | .row .. => "MPASS"
  | .zero _ => "MZERO"
  | .write .. => "MWR"
  | .store .. => "MSTORE"

/-- R199, R214: MRD. A tile in flight is cause 16, before a pending read (R100 step 8). DESIGN CHOICE (log 66): a row that an s register
gives out of range is found after all the checks of R100. -/
def execMrd (a : MrdArgs) (s : State) : Host.Outcome State Fault Refusal :=
  match s.running s.cur with
  | none => .next s
  | some (w, g) =>
    let tile := w.tileAt a.tile.val
    let perf := (g.run.again.map (·.perf)).getD false
    let busy : Option Fail := if perf then none else ((s.unitAt (coreClu w.core)).busy tile).map fun e =>
      { cause := 16, busyOn := some ⟨a.tile.val, e.hw, e.pc, e.op.mnemonic⟩ }
    .next (s.issueWord w g (.mrd a) busy fun x =>
      let b := x.simm a.b
      if b < 0 ∨ b > 728 then .trap { cause := 1, detail := 3 }
      else if !x.anyActive then x.empty
      else match x.results with
        | some ps => .done (x.begin x.s ps true [])
        | none =>
          let u := s.unitAt (coreClu w.core)
          let elem (l : Nat) : Word := u.tiles.get zeroW (tileKey tile (b.toNat % 27) (27 * (b.toNat / 27) + l % 27))
          .done (x.begin x.s (x.active.map fun l => { PendLane.new l (x.pred l) with r0 := elem l }) true []))

/-- R214: MWR, with its row found out of range as that of MRD is (DESIGN CHOICE, log 66). -/
def execMwr (a : MwrArgs) (s : State) : Host.Outcome State Fault Refusal :=
  runWord (.mwr a) s fun x =>
    let b := x.simm a.b
    if b < 0 ∨ b > 728 then .trap { cause := 1, detail := 3 }
    else
      let cells := x.active.filterMap fun l =>
        let t := (x.pred l).trit 0
        if t = 0 then none else some (27 * (b.toNat / 27) + l % 27, if t = 1 then x.reg a.a l else zeroW)
      if cells.isEmpty then .done x.s
      else x.queueWord x.s [(x.r.hw, .write (x.w.tileAt a.tile.val) (b.toNat % 27) cells)]

/-- R209, R215. -/
def Issue.matStore (x : Issue) (a : MstoreArgs) (zero : Bool) (r : TableRead) : Eff :=
  match r.fmt with
  | none => .trap { cause := 1, detail := 3 }
  | some f =>
    let off := (x.g.rdS a.sd.val).val
    match spanCause x.w off (27 * storeRow f) 9 with
    | some c => .trap { cause := c }
    | none => x.queueWord x.s [(x.r.hw, .store (x.w.tileAt a.tile.val) off f zero)]

def execMstoreKeep (a : MstoreArgs) (s : State) : Host.Outcome State Fault Refusal :=
  runTableWord (.mstoreKeep a) s fun r x => x.matStore a false r
def execMstoreZero (a : MstoreArgs) (s : State) : Host.Outcome State Fault Refusal :=
  runTableWord (.mstoreZero a) s fun r x => x.matStore a true r

/-! ## MSTAT (R216) -/

/-- R216: MSTAT waits in no queue; its item is read when it completes. -/
def execMstat (a : MstatArgs) (s : State) : Host.Outcome State Fault Refusal :=
  runWord (.mstat a) s fun x =>
    if !x.anyActive then x.empty
    else match x.results with
      | some ps => .done (x.begin x.s ps true [])
      | none => .done (x.begin x.s (x.active.map fun l => PendLane.new l (x.pred l)) false [])

/-- Whether a load of the shadow plane is in progress (R210). -/
def MatUnit.loading (u : MatUnit) : Bool := u.queue.any fun e => match e.op with
  | .load .. => e.granted
  | _ => false

/-- R216, Table 4: a group's status word. The entries of a ganged group's queues are counted together, to 27 at most (DESIGN
CHOICE, log 54). -/
def MatUnit.status (u : MatUnit) (g : Group) : Int :=
  let shadow : Int := if u.pl1.tag ≠ zeroW then 1 else if u.loading then -1 else 0
  (Nat.min 27 (u.queue.filter (·.ofGroup g)).length : Int) + 81 * (g.stale : Int) + 3 ^ 8 * shadow

/-- R216, Table 3. What item 2 reads while a load is in progress, when the shadow plane is neither empty nor loaded, the spec
does not say: it is free (log 54). -/
def State.matItem (s : State) (clu : Nat) (g : Group) (n : Nat) : State × Int :=
  let u := s.unitAt clu
  if n = 0 then (s, u.status g)
  else if n = 1 then (s, u.pl0.tag.val)
  else if u.pl1.tag = zeroW ∧ u.loading then ({ s with free := s.free + 1 }, Config.freeInt s.free)
  else (s, u.pl1.tag.val)

/-- R216: whether an MSTAT accepted as word `id` is due. -/
def MatUnit.statDue (u : MatUnit) (g : Group) (id : Nat) (when_ : MstatWhen) : Bool :=
  let before := u.queue.filter fun e => e.ofGroup g && decide (e.id < id)
  match when_ with
  | .now => true
  | .done => before.isEmpty
  | .consumed => before.all fun e => e.consumed || match e.op with
    | .load .. => false
    | .row _ _ _ rows _ _ => rows.isEmpty
    | _ => true

end Sys2Proof.Machine
end

