-- ==== Sys2Proof/Machine/Regions.lean ====
section
/-! DEFINITION. Regions and what is shared among them: region control blocks with inheritance (18_system_tables.md R409,
R410), budgets and image sizes (15_async_instructions.md R337, 16_traps_and_preemption.md R365), room for a workgroup
(14_queues.md R312 to R314), and event rings (R309, R310). -/

namespace Sys2Proof.Machine

/-! ## Region control blocks (R409, R410) -/

/-- The 81 words of a block. Cause 0 stands for a block that is malformed. -/
def State.block (s : State) (die : Nat) (c : Ctx) (va : Int) : Except Nat (State × List Int) :=
  if va ≥ 0 ∨ va % 243 ≠ 0 then .error 0 else s.structRead (structWho die c) va 81

/-- A block and its ancestors, innermost first, within `fuel` blocks. -/
def regionChain : Nat → State → Nat → Ctx → Int → Except Nat (State × List (Int × List Int))
  | 0, _, _, _, _ => .error 0
  | fuel + 1, s, die, c, va => do
    let (s, ws) ← s.block die c va
    if wordAt ws 1 = 0 then .ok (s, [(va, ws)])
    else do
      let (s, rest) ← regionChain fuel s die c (wordAt ws 1)
      .ok (s, (va, ws) :: rest)

/-- R409: the block that item i of a region is taken from. -/
def itemFrom (chain : List (Int × List Int)) (i : Nat) : Int × List Int :=
  (chain.find? fun b => tritAt (wordAt b.2 4) i == 1).getD (0, [])

/-- R409: reserved trits and values of a block's region part. -/
def blockMalformed (ws : List Int) : Bool :=
  fld (wordAt ws 4) 11 26 != 0 || fld (wordAt ws 5) 3 26 != 0 || tritAt (wordAt ws 5) 2 == -1 ||
    (List.range 8).any fun i => wordAt ws (19 + i) != 0

/-- R410: the context that a root block describes. -/
def ctxOf (root : Int) (ws : List Int) : Option Ctx :=
  let num := wordAt ws 27
  let mode := fld (wordAt ws 29) 0 2
  let first := fld (wordAt ws 29) 3 4
  let firstOk := (mode == 1 && first == 0) || (mode == 2 && (first == 0 || first == 2)) ||
    (mode == 4 && decide (0 ≤ first ∧ first ≤ 3))
  let gs := (List.range 4).map fun i => (wordAt ws (35 + i), wordAt ws (39 + i))
  if 0 ≤ num ∧ num ≤ 728 ∧ firstOk ∧ fld (wordAt ws 29) 5 26 = 0 ∧ wordAt ws 28 % 2187 = 0 ∧
      gs.all (fun g => decide (0 ≤ g.1 ∧ 0 ≤ g.2)) then
    some ⟨num.toNat, root, wordAt ws 28, mode.toNat, first.toNat, gs.map fun g => (g.1.toNat, g.2.toNat)⟩
  else none

/-- R58, R409, R234: a region from its block and its ancestors' blocks. -/
def regionOf (chain : List (Int × List Int)) : Option Region :=
  let root := chain.getLastD (0, [])
  let own := chain.headD (0, [])
  let item (i w : Nat) : Int := wordAt (itemFrom chain i).2 w
  let cworld := tritAt (wordAt root.2 5) 1
  let world := tritAt (item 3 5) 1
  match ctxOf root.1 root.2 with
  | none => none
  | some c =>
    if chain.any (fun b => blockMalformed b.2) || (List.range 11).any (fun i => tritAt (wordAt root.2 4) i != 1) ||
        cworld == 0 || decide (item 1 6 < 1) || decide (item 1 6 > 531441) || decide (item 7 12 < 0) ||
        decide (item 7 12 > 10000) then none
    else some
      { number := Word.ofInt (wordAt own.2 0), block := own.1, cls := Trit.sign (tritAt (item 0 5) 0),
        world := Trit.sign (if world = 0 then cworld else world), supervisor := tritAt (wordAt own.2 5) 2 == 1,
        budget := (item 1 6).toNat, budgetBlock := (itemFrom chain 1).1, handler := Word.ofInt (item 2 7), dfq := item 2 8,
        attrtab := item 4 9, comptab := item 5 10, seed := Word.ofInt (item 6 11), deadline := (item 7 12).toNat,
        frames := item 8 13, save := item 9 14, stride := (item 9 18).toNat, partition := item 10 15,
        ancestors := chain.map (·.1), ctx := c }

/-- The device has read a region: it knows the context, and the partition record (R319, log 13). -/
def State.meetRegion (s : State) (r : Region) : State :=
  let key := (r.ctx.num, r.block)
  let others := s.partitions.filter fun e => e.1 != key
  { s with contexts := s.contexts.insert r.ctx.num r.ctx
           partitions := if r.partition = 0 then others else others ++ [(key, r.partition)] }

/-- R409: a region as it is read now; cause 0 where it is malformed. A consumer index that the host wrote before the device had read
the context's root goes to it (R436). -/
def State.readRegion (s : State) (die : Nat) (c : Ctx) (va : Int) : Except Nat (State × Region) := do
  let (s, chain) ← regionChain 729 s die c va
  match regionOf chain with
  | some r => do
    let s := s.meetRegion r
    match SMap.find? s.consumers r.ctx.num with
    | none => .ok (s, r)
    | some v =>
      let s ← s.structWrite (structWho die r.ctx) (r.ctx.rootBlock + 102) [v.val]
      .ok ({ s with consumers := s.consumers.erase r.ctx.num }, r)
  | none => .error 0

/-- The context of a number, where the device has met it. -/
def State.context (s : State) (num : Nat) : Option Ctx :=
  match SMap.find? s.contexts num with
  | some c => some c
  | none => (s.wgs.find? fun w => w.region.ctx.num == num).map (·.region.ctx)

/-! ## Budgets and images -/

/-- R337: the workgroups that count against a budget: pending, resident, exiting and suspended. -/
def State.counted (s : State) (r : Region) : Nat :=
  let same (x : Region) : Bool := x.budgetBlock == r.budgetBlock && x.ctx.num == r.ctx.num
  ((s.spawns.flatMap fun q => (q.2.filter fun b => same b.region).map (·.count)).foldl (· + ·) 0) +
    (s.wgs.filter fun w => same w.region).length

/-- Rounding up to a multiple. -/
def roundUp (n m : Nat) : Nat := (n + m - 1) / m * m

/-- R218: the granules of a workgroup's run. -/
def Kernel.granules (k : Kernel) : Nat := (k.scratch + k.threads * k.priv + granule - 1) / granule
def Kernel.groups (k : Kernel) : Nat := (k.threads + 26) / 27

/-- R365, Table 7: the image size of a kernel. -/
def Kernel.imageSize (k : Kernel) : Nat :=
  roundUp (81 + 243 * k.groups + 27 * k.threads + 354294 * k.groups + 81 * k.threads + 27 * k.regs * k.threads +
    59049 * k.tiles + 2187 * k.granules) 19683

/-- R365: the save index of a workgroup to be placed. -/
def State.freeIndex (s : State) (r : Region) : Nat :=
  let held := (s.wgs.filter fun w => w.region.budgetBlock == r.budgetBlock && w.region.ctx.num == r.ctx.num).map (·.saveIdx)
  ((List.range (held.length + 1)).find? fun i => !held.contains i).getD 0

/-! ## Room on a cluster (R312, R313) -/

/-- The units of a bank that some runs of registers use. -/
def usedUnits (bs : List BankRun) (bank : Nat) : List Nat := (bs.filter fun b => b.slot == bank).flatMap (·.units)

/-- R313: n units of a bank that no run uses; none where there are fewer. A bank has 81 (R57). -/
def freeUnits (bs : List BankRun) (bank n : Nat) : Option BankRun :=
  let free := (List.range 81).filter fun u => !(usedUnits bs bank).contains u
  if free.length < n then none else some ⟨bank, free.take n⟩

/-- R313: the bank with the most free words, the lowest slot on a tie. -/
def emptiestBank (bs : List BankRun) : Nat :=
  (List.range 3).foldl (fun b i => if (usedUnits bs i).length < (usedUnits bs b).length then i else b) 0

/-- R313, R78: the positions of the groups of a workgroup, of n units each, one group at a time: those of a ganged triple one
in each bank. -/
def assignBanks (ganged : Bool) (n : Nat) : Nat → List BankRun → Option (List BankRun)
  | 0, _ => some []
  | left + 1, used =>
    match freeUnits used (if ganged then (2 - left % 3) else emptiestBank used) n with
    | none => none
    | some b => (assignBanks ganged n left (b :: used)).map (b :: ·)

/-- What a placement takes. -/
structure Room where
  core : Nat
  gran : Nat
  banks : List BankRun
  tiles : List Nat
deriving DecidableEq, Repr

/-- R312: the lowest-offset run of n free granules. -/
def freeRun (ws : List Workgroup) (n : Nat) : Option Nat :=
  (List.range (244 - n)).find? fun g => ws.all fun w => decide (g + n ≤ w.gran) || decide (w.gran + w.grans ≤ g)

/-- R80, R313: the bank positions, run and tiles of a kernel's workgroup on a core, none where it does not fit. `there` are the
workgroups that hold resources of the core, `near` those of its cluster, `drawn` the groups on the core beyond those placed. -/
def roomOn (there near : List Workgroup) (k : Kernel) (core drawn : Nat) : Option Room :=
  let banks := assignBanks (k.width == 81) k.regs k.groups (there.flatMap (·.banks))
  let positions := (there.map fun w => w.kernel.groups).foldl (· + ·) 0
  let taken := near.flatMap (·.tiles)
  let tiles := ((List.range 81).filter fun t => !taken.contains t).take k.tiles
  if there.length ≥ 27 ∨ positions + drawn + k.groups > 81 ∨ tiles.length < k.tiles then none
  else match banks, freeRun there k.granules with
    | some sl, some g => some ⟨core, g, sl, tiles⟩
    | _, _ => none

/-- R56: the groups of a workgroup beyond those that it was placed with, which draws of bins have made (R71). -/
def State.drawnGroups (s : State) (w : Workgroup) : Nat :=
  ((s.groupsOf w.id).map fun g => g.hws.length).foldl (· + ·) 0 - w.kernel.groups

/-- R312, R319, R413: the core and room that a distributor chooses in a cluster, among workgroups that hold resources. -/
def State.roomIn (s : State) (held : List Workgroup) (die clu : Nat) (r : Region) (k : Kernel) : Option Room :=
  let near := held.filter fun w => w.core.die == die && w.core.cluster == clu
  let world := s.world.clusters.get .zero (die * 27 + clu)
  if world != .zero && world != r.world then none
  else
    let on (c : Nat) : List Workgroup := near.filter fun w => w.core.core == c
    let rooms := (List.range 9).filterMap fun c =>
      if r.cls != .pos && s.partitions.any (fun e => Config.reserved e.2 ((die * 27 + clu) * 9 + c)) then none
      else (roomOn (on c) near k c (((on c).map s.drawnGroups).foldl (· + ·) 0)).map fun m => ((on c).length, m)
    match rooms with
    | [] => none
    | m :: ms => some (ms.foldl (fun b m => if m.1 < b.1 then m else b) m).2

/-- The workgroups that hold resources. -/
def State.holders (s : State) : List Workgroup := s.wgs.filter fun w => w.st != .suspended

/-- R385: a core drops its copies of a table block that no workgroup left on it uses. -/
def State.dropTables (s : State) (core : Nat) : State :=
  let used := (s.holders.filter fun w => coreIdx w.core == core).map fun w => (w.region.ctx.num, w.region.comptab)
  s.updCore core fun c => { c with tables := c.tables.filter fun t => used.contains (t.ctx, t.block) }

/-- A workgroup as room is counted. -/
def Room.taken (m : Room) (die clu : Nat) (r : Region) (k : Kernel) : Workgroup :=
  { id := 0, st := .resident, core := ⟨die, clu, m.core⟩, index := zeroW, region := r, kernel := k, gran := m.gran,
    grans := k.granules, tiles := m.tiles, saveIdx := 0, placed := 0, launch := [], node := none, preq := false, preqAt := 0,
    save := .none, entry := none, forced := false, ctxsv := false, saveAt := 0,
    banks := m.banks, bins := [], img := none }

/-- R314: rooms for n workgroups at once, none where they do not fit. -/
def State.roomsFor (s : State) (die clu : Nat) (r : Region) (k : Kernel) : Nat → List Workgroup → Option (List Room)
  | 0, _ => some []
  | n + 1, held =>
    match s.roomIn held die clu r k with
    | none => none
    | some m => (State.roomsFor s die clu r k n (m.taken die clu r k :: held)).map (m :: ·)

/-- R314: whether a batch fits on an empty cluster; at most 243 workgroups stand on one. -/
def State.fitsEmpty (s : State) (die clu : Nat) (r : Region) (k : Kernel) (n : Nat) : Bool :=
  decide (n ≤ 243) && (s.roomsFor die clu r k n []).isSome

/-! ## Spawn queues (R307, R311) -/

/-- The number of a class: urgent 0, normal 1, background 2. -/
def classNum (t : Trit) : Nat := (1 - t.val).toNat
def spawnKey (die clu : Nat) (cls : Trit) : Nat := (die * 27 + clu) * 3 + classNum cls
def State.spawnQ (s : State) (key : Nat) : List Batch := s.spawns.get [] key
def State.setSpawnQ (s : State) (key : Nat) (q : List Batch) : State := { s with spawns := s.spawns.set [] key q }

/-! ## Event rings (R309, R310) -/

def State.ringOf (s : State) (c : Ctx) : Ring := (s.rings.find? fun r => r.ctx.num == c.num).getD ⟨c, [], [], false⟩
def State.updRing (s : State) (c : Ctx) (f : Ring → Ring) : State :=
  let r := f (s.ringOf c)
  if s.rings.any fun r => r.ctx.num == c.num then
    { s with rings := s.rings.map fun x => if x.ctx.num == c.num then r else x }
  else { s with rings := s.rings ++ [r] }

/-- R309, Table 2: words 2 to 8 of a record; its time is that of its posting. -/
def eventWords (region : Int) (kind : Nat) (status : Int) (count cause : Nat) (payload : List Int) : List Int :=
  [region, status + 3 * kind, cause + 19683 * count] ++ (List.range 4).map (wordAt payload)

/-- R310: the interrupt of a ring, where a threshold is met. -/
def State.ringSignal (s : State) (die : Nat) (c : Ctx) : State :=
  let r := s.ringOf c
  match s.structRead (structWho die c) (c.rootBlock + 93) 2 with
  | .error _ => s.dieFatal die
  | .ok (s, vs) =>
    let n := fld (wordAt vs 0) 4 10
    let tau := wordAt vs 1
    let aged := match r.unsignalled with
      | [] => false
      | t :: _ => decide (tau > 0) && decide ((s.time : Int) - t ≥ tau)
    if !r.irq && !r.unsignalled.isEmpty && (decide ((r.unsignalled.length : Int) ≥ n) || aged) then
      { s.updRing c (fun r => { r with unsignalled := [], irq := true }) with irqs := s.irqs ++ [c.num] }
    else s

/-- R309, R264: a record is written to its ring as a release at system scope; none while the ring is full or a structure
access of it fails. -/
def State.ringPost (s : State) (die : Nat) (c : Ctx) (ws : List Int) : Option State :=
  let w := structWho die c
  match s.structRead w (c.rootBlock + 90) 5 with
  | .error _ => none
  | .ok (s, vs) =>
    let cap : Int := 3 ^ (fld (wordAt vs 1) 0 3).toNat
    let prod := wordAt vs 3
    if wrapInt 27 (prod - wordAt vs 4) ≥ cap then none
    else
      let s := s.drainUpdates
      let put : Except Nat State := do
        let s ← s.structWrite w (wordAt vs 0 + 27 * (prod % cap)) ([wrapInt 27 s.time, dropInt 27 s.time] ++ ws)
        s.structWrite w (c.rootBlock + 99) [prod + 1]
      match put with
      | .error _ => none
      | .ok s => some ((s.drainUpdates.updRing c fun r => { r with unsignalled := r.unsignalled ++ [s.time] }).ringSignal die c)

/-- Whether a poster still waits: a group that no longer holds at an EVPOST has given up its place. -/
def State.posts (s : State) : Poster → Bool
  | .group wg hw => match (s.groupOf ⟨wg, hw⟩).bind fun g => g.run.held with
    | some (.evpost _) => true
    | _ => false
  | _ => true

/-- R309: what waits for the ring of a context, in posting order. -/
def State.ringWaits (s : State) (c : Ctx) : List (Poster × List Word) := (s.ringOf c).waiting.filter fun e => s.posts e.1

/-- R309: a record joins those that wait for its ring, in posting order. -/
def State.ringQueue (s : State) (c : Ctx) (by_ : Poster) (ws : List Int) : State :=
  s.updRing c fun r => { r with waiting := s.ringWaits c ++ [(by_, ws.map Word.ofInt)] }

/-- R309: an EVPOST that waits keeps the place in the ring's order that it took first. -/
def State.ringPlace (s : State) (c : Ctx) (r : GroupRef) : State :=
  if (s.ringWaits c).any fun e => e.1 == .group r.wg r.hw then s else s.ringQueue c (.group r.wg r.hw) []

/-- R309: whether a group's EVPOST is the next to post to its ring. -/
def State.ringTurn (s : State) (c : Ctx) (r : GroupRef) : Bool :=
  (((s.ringWaits c).head?).map fun e => e.1 == .group r.wg r.hw).getD true

/-- An EVPOST that has posted leaves its place. -/
def State.ringLeave (s : State) (c : Ctx) (r : GroupRef) : State :=
  if (s.ringOf c).waiting.isEmpty then s
  else s.updRing c fun x => { x with waiting := x.waiting.filter fun e => e.1 != .group r.wg r.hw }

end Sys2Proof.Machine
end

