-- ==== Sys2Proof/Machine/Copies.lean ====
section
/-! DEFINITION. Copies (15_async_instructions.md R322 to R335, 17_compute_tables.md R395 to R400) and barrier objects
(R339, R340): what a copy reads and writes, and the turns of its slices and steps. -/

namespace Sys2Proof.Machine

/-! ## Layout records (R395 to R397) -/

structure Layout where
  rank : Nat
  fmt : Nat
  map : List Nat
  ext : List Int
  str : List Int
  org : List Int
  box : List Int
  fill : Int
  cap : Nat
deriving DecidableEq, Repr

/-- R395, R396: a record by its role, none where a field that the role reads is malformed. -/
def layoutOf (ws : List Int) (dst cpyl : Bool) : Option Layout :=
  let w0 := wordAt ws 0
  let rank := fld w0 0 2
  let n := rank.toNat
  let fmt := fld w0 3 6
  let digit (k : Nat) : Int := fld w0 (7 + 3 * k) (9 + 3 * k)
  let map := (List.range n).map digit
  let five (i : Nat) : List Int := (List.range 5).map fun k => wordAt ws (i + k)
  let rest (i : Nat) : Bool := ((five i).drop n).all (· == 0)
  let box := (five 16).take n
  let cap := wordAt ws 22
  if 1 ≤ rank ∧ rank ≤ 5 ∧ 0 ≤ fmt ∧ fmt ≤ 26 ∧ fld w0 22 26 = 0 ∧
      (List.range n).all (fun (d : Nat) => map.contains (d : Int)) ∧ ((List.range 5).drop n).all (fun k => digit k == 0) ∧
      rest 1 ∧ rest 6 ∧ rest 11 ∧ (five 1).all (fun e => decide (0 ≤ e)) ∧
      (!dst || (rest 16 && box.all (fun e => decide (0 ≤ e)) && decide (box.foldl (· * ·) 1 ≤ (counterMax : Int)))) ∧
      (!cpyl || decide (0 ≤ cap ∧ cap ≤ 729)) ∧ (List.range 4).all (fun i => wordAt ws (23 + i) == 0) then
    some ⟨n, fmt.toNat, map.map Int.toNat, (five 1).take n, (five 6).take n, (five 11).take n, box, wordAt ws 21, cap.toNat⟩
  else none

/-- R395: the fill's trits above the format's width are 0. -/
def Layout.fillOk (l : Layout) (f : Fmt) : Bool := decide (f.w ≥ 27) || wrapInt f.w l.fill == l.fill

/-- R395: the value of a fill code. -/
def Layout.fillVal (l : Layout) (f : Fmt) : FVal := if f.w = 81 then tf27.decode l.fill else f.decode l.fill

/-- R397: the tensor coordinates of box coordinates. -/
def Layout.coords (l : Layout) (c : List Nat) : List Int :=
  (List.range l.rank).map fun i =>
    let k := (indexOf? (· == i) l.map).getD 0
    l.org.getD i 0 + (c.getD k 0 : Nat)

def Layout.inside (l : Layout) (c : List Nat) : Bool :=
  (List.range l.rank).all fun i => decide (0 ≤ (l.coords c).getD i 0) && decide ((l.coords c).getD i 0 < l.ext.getD i 0)

def Layout.linear (l : Layout) (c : List Nat) : Int :=
  ((List.range l.rank).map fun i => (l.coords c).getD i 0 * l.str.getD i 0).foldl (· + ·) 0

/-- An element's first tryte, its trytes, and its lowest trit in the first. -/
structure ElemAt where
  addr : Int
  len : Nat
  pos : Nat
deriving DecidableEq, Repr

/-- R397, R35. -/
def elemAt (f : Fmt) (base l : Int) : ElemAt :=
  if f.w = 27 then ⟨wrapInt 27 (base + 3 * l), 3, 0⟩
  else if f.w = 81 then ⟨wrapInt 27 (base + 9 * l), 9, 0⟩
  else
    let e : Int := perTryte f
    ⟨wrapInt 27 (base + l / e), 1, f.w * (l % e).toNat⟩

/-- The trytes that hold an element of a format. -/
def Fmt.align (f : Fmt) : Nat := if f.w = 27 then 3 else if f.w = 81 then 9 else 1

/-! ## Requests (R322) -/

def spaceOf (v : Int) : Option Space :=
  if v = 0 then some .virt else if v = 1 then some .scr else if v = 2 then some .clu else if v = 3 then some .chip else none

def scopeOf (v : Int) : Option Scope :=
  [Scope.thread, .group, .wgrp, .cluster, .die, .pair, .pkg, .sys][(v + 4).toNat]?

def CopyView.word (v : CopyView) (i : Nat) : Int := (v.request.getD i zeroW).val
def CopyView.ctl (v : CopyView) : Int := v.word 8
def CopyView.sync (v : CopyView) : Space := (spaceOf (fld v.ctl 4 5)).getD .virt
def CopyView.srcLay (v : CopyView) : Option Layout := layoutOf (v.src.map (·.val)) false false
def CopyView.dstLay (v : CopyView) : Option Layout := layoutOf (v.dst.map (·.val)) true false

/-- R322: reserved fields and codes of a request. -/
def requestOk (ws : List Int) (cpyf : Bool) : Bool :=
  let c := wordAt ws 8
  fld c 12 26 == 0 && (List.range 4).all (fun i => tritAt c (8 + i) != -1) && fld c 6 7 != 4 &&
    (spaceOf (fld c 4 5)).isSome && (spaceOf (fld c 2 3)).isSome && (cpyf || (spaceOf (fld c 0 1)).isSome)

/-! ## Accesses of an engine (R259, R323) -/

/-- The workgroup of a copy as it stands, or as it was when it issued the copy. -/
def State.ownerOf (s : State) (c : Copy) : Workgroup := (s.wgOf c.wg).getD c.owner

/-- A weak read of an engine: from the L1 of its core where the line is held, which stands before the last-level cache for
the group's own stores. None while the access waits. -/
def State.engineRead (s : State) (w : Workgroup) (sp : Space) (len : Nat) (addr : Int) :
    Except Nat (State × Option (List Tryte)) := do
  let (s, ps) ← s.resolve w sp 0 .read len addr
  let ps := ps.map (s.placeNow w.id)
  if s.waitsAt ps then .ok (s, none)
  else match ps with
    | .line p :: _ =>
      let (s, ts) ← (if (s.l1Index (coreIdx w.core) p.ctx.num p.vline).isSome then s.l1Read (coreIdx w.core) p len
        else s.llcRead w.core.die p ((List.range len).map (p.tryte + ·)))
      .ok (s, some ts)
    | ps => do
      let (s, ts) ← s.readElem w.who false ps
      .ok (s, some ts)

/-- A write of an engine at an address: the values that it may leave there, of which none leaves what stands (R398). -/
structure Cell where
  addr : Int
  len : Nat
  vals : List (Option (List Tryte))
deriving DecidableEq, Repr

/-- R398: one of some values (free where there are several). -/
def State.choose {α : Type} (s : State) (xs : List α) (d : α) : α × State :=
  if xs.length ≤ 1 then (xs.headD d, s)
  else
    let (i, s) := s.pick xs.length
    (xs.getD i d, s)

/-- R398: the trytes that a cell is written with, chosen for each of them; those of a window element together. -/
def State.chooseCell (s : State) (window : Bool) (x : Cell) : List (Option Tryte) × State :=
  let part (v : Option (List Tryte)) (k : Nat) : Option Tryte := v.map fun ts => ts.getD k zeroT
  if window then
    let (v, s) := s.choose x.vals none
    ((List.range x.len).map (part v), s)
  else (List.range x.len).foldl (fun (acc : List (Option Tryte) × State) k =>
    let (v, s) := acc.2.choose (x.vals.map fun v => part v k) none
    (acc.1 ++ [v], s)) ([], s)

def Place.isWindow : Place → Bool
  | .window .. => true
  | _ => false

/-- The checks of one cell of an engine's write, number n of them, and what is to be stored of it where it is not diverted. -/
def State.cellStores (s : State) (c : Copy) (sp : Space) (n : Nat) (x : Cell) : Except (Nat × Nat) (State × List StoreElem) :=
  let w := s.ownerOf c
  match s.resolve w sp 0 .write x.len x.addr with
  | .error cause => .error (cause, n)
  | .ok (s, ps) =>
    let (vs, s) := s.chooseCell ((ps.head?.map Place.isWindow).getD false) x
    let gone := (s.wgOf c.wg).isNone
    let es := (((List.range x.len).zip (ps.zip vs)).filterMap fun e => e.2.2.map fun v => (⟨n, e.1, e.2.1, v⟩ : StoreElem)).filter
      fun e => !(gone && w.ownsPlace e.place)
    .ok (s.sendDiverted c.wg none (if es.length = x.len then x.len else 1) es)

/-- R259, R323: weak writes of an engine agent, each checked first; a line that they cover is not filled (R48, R302). Where one
fails, its cause and its number. The L1 of the issuing core keeps no older value. -/
def State.engineWrite (s : State) (c : Copy) (sp : Space) (cells : List Cell) : Except (Nat × Nat) State := do
  let w := s.ownerOf c
  let (s, es) ← ((List.range cells.length).zip cells).foldlM (fun (acc : State × List StoreElem) (e : Nat × Cell) => do
    let (s, es) ← acc.1.cellStores c sp e.1 e.2
    .ok (s, acc.2 ++ es)) (s, [])
  let s := es.foldl (noteOld (some c.id)) s
  match s.performStores { w.who with core := none } true (cells.all fun x => decide (x.len ≥ 3)) noNote es with
  | (s, []) => .ok ((storeKeys es).foldl (fun s p => s.l1Patch (coreIdx w.core) p.key (es.filterMap fun e => match e.place with
      | .line q => if q.key == p.key then some (q.tryte, e.val) else none
      | _ => none)) s)
  | (_, f :: _) => .error (f.cause, f.lane)

/-! ## The start of a copy (R324, R326, R396) -/

/-- Words of a workgroup's scratchpad space at an offset that must be a multiple of 27; none while the read waits. -/
def State.scratchWords (s : State) (w : Workgroup) (off : Int) (n : Nat) : Except Nat (State × Option (List Int)) := do
  if off % 27 ≠ 0 then .error 12
  else
    (List.range n).foldlM (fun (acc : State × Option (List Int)) (i : Nat) => do
      match acc with
      | (s, none) => .ok (s, none)
      | (s, some vs) =>
        let (s, ts) ← s.engineRead w .scr 3 (off + 3 * (i : Int))
        .ok (s, ts.map fun ts => vs ++ [ofTrytes ts])) (s, some [])

/-- What a copy's records are found to be: none while a read of them waits; else as read, with the cause of what fails, and as
far as they were read before it. -/
abbrev ViewRead := State × Option (CopyView × Option Nat)

/-- R395, R396, R397: the cause of a pair of records that is malformed, or of a base that is not aligned. A fill is checked in the
record whose fill the copy reads: the destination's in CPYF, else the source's. -/
def recordCause (form : CopyForm) (r : List Int) (a b : Layout) (fa fb : Option Fmt) : Option Nat :=
  match fa, fb with
  | some fa, some fb =>
    if a.rank ≠ b.rank ∨ (form == .cpyf && !b.fillOk fb) ∨ (form != .cpyf && !a.fillOk fa) then some 1
    else if (form != .cpyf && wordAt r 0 % (fa.align : Int) != 0) || wordAt r 1 % (fb.align : Int) != 0 then some 12
    else none
  | _, _ => some 1

/-- The format of a record, where the record is whole. -/
def State.recordFmt (s : State) (w : Workgroup) (l : Option Layout) : State × Option Fmt :=
  match l with
  | none => (s, none)
  | some l =>
    let (s, f) := s.fmtAt w l.fmt
    (s, f)

/-- The layout records that a request names, and their formats. A record that cannot be read does not keep the other from being
read: the check word needs the destination's (R334). -/
def State.readRecords (s : State) (c : Copy) (w : Workgroup) (r : List Int) : ViewRead :=
  let read (s : State) (off : Int) : State × Option (List Int) × Option Nat := match s.scratchWords w off 27 with
    | .error cause => (s, some [], some cause)
    | .ok (s, ws) => (s, ws, none)
  match read s (wordAt r 2) with
  | (s, none, _) => (s, none)
  | (s, some src, bad) =>
    match read s (wordAt r 3) with
    | (s, none, _) => (s, none)
    | (s, some dst, bad') =>
      let cpyl := match c.form with
        | .cpyl .. => true
        | _ => false
      let a := layoutOf src false cpyl
      let b := layoutOf dst true false
      let (s, fa) := s.recordFmt w a
      let (s, fb) := s.recordFmt w b
      let cause := bad <|> bad' <|> match a, b with
        | some a, some b => recordCause c.form r a b fa fb
        | _, _ => some 1
      (s.dropTables (coreIdx w.core), some (⟨r.map Word.ofInt, src.map Word.ofInt, dst.map Word.ofInt, fa, fb⟩, cause))

/-- R334, R400: a request and its layout records, with their formats, as far as they can be read. -/
def State.readView (s : State) (c : Copy) (req : Int) : ViewRead :=
  let w := s.ownerOf c
  match s.scratchWords w req 9 with
  | .error cause => (s, some (⟨[], [], [], none, none⟩, some cause))
  | .ok (s, none) => (s, none)
  | .ok (s, some r) =>
    if !requestOk r (c.form == .cpyf) then (s, some (⟨r.map Word.ofInt, [], [], none, none⟩, some 1)) else s.readRecords c w r

def State.updCopy (s : State) (id : Nat) (f : Copy → Copy) : State :=
  { s with copies := s.copies.map fun c => if c.id == id then f c else c }
def State.copyOf (s : State) (id : Nat) : Option Copy := s.copies.find? fun c => c.id == id

/-- R334, R330: the record of a copy fault: it concerns every lane. -/
def State.copyFault (s : State) (c : Copy) (n hw inner : Nat) (addr : Int) (coord : List Nat) (parked : Bool) : State :=
  let w := s.ownerOf c
  let v := match c.slices[n]? with
    | some sl => sl.view <|> c.view
    | none => c.view
  let lay (i : Nat) : Int := (v.map fun v => v.word i).getD 0
  s.appendRecord w.core.die w.region
    { recordOf s w hw 18 c.pc with inner := inner, parked := parked, lanes := List.range 27, addr := addr, laySrc := lay 2, layDst := lay 3,
                                   coord := coord, copy := if parked then some (c.id, n) else none }

/-- A slice stops at a failure, and what it has not written is parked. -/
def State.parkSlice (s : State) (c : Copy) (n inner : Nat) (coord : List Nat) : State :=
  match c.slices[n]? with
  | none => s
  | some sl =>
    (s.updCopy c.id fun c => { c with slices := updAt c.slices n fun x => { x with st := .parked } }).copyFault c n sl.hw inner
      sl.req coord true

/-- R333: whether the trigger of a copy is met. -/
def State.triggered (s : State) (c : Copy) (v : CopyView) : Bool :=
  tritAt v.ctl 11 != 1 ||
    !((s.unitAt (coreClu (s.ownerOf c).core)).queue.any fun e => c.waits.contains e.id && !e.consumed)

/-- Set n of an engine. -/
def CoreState.setAt (c : CoreState) (n : Nat) : LineSet := c.sets.getD n ⟨none, []⟩
def CoreState.putSet (c : CoreState) (n : Nat) (x : LineSet) : CoreState :=
  { c with sets := ((List.range 3).map c.setAt).set n x }

/-- R329: the rows of a set that a workgroup may be served from: none of another's. -/
def LineSet.rowsOf (x : LineSet) (wg : Nat) : List HeldRow := if x.owner = some wg then x.rows else []

/-- R329: the set of a CPYL as the copy finds it. -/
def State.takeSet (s : State) (c : Copy) : State :=
  match c.form with
  | .cpyl n flush =>
    s.updCore c.engine fun cs =>
      cs.putSet n ⟨some c.wg, if flush then [] else (cs.setAt n).rowsOf c.wg⟩
  | _ => s

/-- The box that a view's destination record gives, where the record is whole. -/
def CopyView.box (v : CopyView) : Option (List Nat) := v.dstLay.map fun l => l.box.map Int.toNat

/-- R323, R326, R333, R335: a copy starts: the first of its engine that has all its slices, once its trigger is met. Slices
that name different requests give each group a fault, and a request or record that fails parks every slice, with what was read
of it and the box that a whole destination record gives (R334). -/
def State.copyStart (s : State) (id : Nat) : Option State := do
  let c ← s.copyOf id
  let ready := s.copies.filter fun d => d.engine == c.engine && !d.started && decide (d.slices.length ≥ d.need)
  let first ← ready.head?
  if first.id ≠ id then none
  else
    let req := (c.slices.head?.map Slice.req).getD 0
    if c.slices.any fun sl => sl.req != req then
      let s := { s with copies := s.copies.filter fun d => d.id != id }
      some (c.slices.foldl (fun s sl => s.copyFault c c.slices.length sl.hw 1 sl.req [] false) s)
    else
      match s.readView c req with
      | (_, none) => none
      | (s, some (v, some cause)) =>
        let c := { c with started := true, view := some v, box := v.box }
        if !s.triggered c v then none
        else some ((List.range c.slices.length).foldl (fun s n => s.parkSlice c n cause []) ((s.updCopy id fun _ => c).takeSet c))
      | (s, some (v, none)) =>
        if !s.triggered c v then none
        else
          some ((s.updCopy id fun c => { c with started := true, view := some v, box := some (v.box.getD []) }).takeSet c)

/-! ## Elements of a slice (R325, R397 to R399) -/

/-- The box coordinates of a linear index. -/
def boxCoord : List Nat → Nat → List Nat
  | [], _ => []
  | b :: bs, i => i % Nat.max b 1 :: boxCoord bs (i / Nat.max b 1)

/-- R325: the range of linear indexes of slice n. -/
def Copy.range (c : Copy) (box : List Nat) (n : Nat) : Nat × Nat :=
  let inner := (box.dropLast).foldl (· * ·) 1
  let e := box.getLastD 0
  match c.form with
  | .cpy =>
    let j := ((c.slices[n]?).map fun (x : Slice) => x.hw).getD 0
    (j * e / c.need * inner, (j + 1) * e / c.need * inner)
  | _ => (0, e * inner)

/-- Why a piece of a slice does not move: it waits, or a cause with the index of the element. -/
abbrev CopyStop := Option (Nat × Nat)

def stopAt {α : Type} (i : Nat) (r : Except Nat (State × Option α)) : Except CopyStop (State × α) :=
  match r with
  | .error c => .error (some (c, i))
  | .ok (_, none) => .error none
  | .ok (s, some a) => .ok (s, a)

/-- Trits lo.. of width w among trytes. -/
def codeAt (ts : List Tryte) (pos w : Nat) : Int := wrapInt w (dropInt pos (ofTrytes ts))

/-- What a slice works with. -/
structure SliceCtx where
  c : Copy
  v : CopyView
  src : Layout
  dst : Layout
  sf : Fmt
  df : Fmt
  box : List Nat
deriving DecidableEq, Repr

def SliceCtx.srcAt (x : SliceCtx) (i : Nat) : ElemAt := elemAt x.sf (x.v.word 0) (x.src.linear (boxCoord x.box i))
def SliceCtx.dstAt (x : SliceCtx) (i : Nat) : ElemAt := elemAt x.df (x.v.word 1) (x.dst.linear (boxCoord x.box i))
def SliceCtx.srcSpace (x : SliceCtx) : Space := (spaceOf (fld x.v.ctl 0 1)).getD .virt
def SliceCtx.dstSpace (x : SliceCtx) : Space := (spaceOf (fld x.v.ctl 2 3)).getD .virt

/-- R360, R397: whether an element is written: its coordinates lie in the record's box and its place in the extents. -/
def SliceCtx.writes (x : SliceCtx) (i : Nat) : Bool :=
  let co := boxCoord x.box i
  (List.range x.dst.rank).all (fun k => decide ((co.getD k 0 : Int) < x.dst.box.getD k 0)) && x.dst.inside co

/-- The source element i read from its space. -/
def SliceCtx.fetch (x : SliceCtx) (s : State) (i : Nat) : Except CopyStop (State × Int) := do
  let a := x.srcAt i
  let (s, ts) ← stopAt i (s.engineRead (s.ownerOf x.c) x.srcSpace a.len a.addr)
  .ok (s, codeAt ts a.pos x.sf.w)

/-- R399: the row of element i as a held row, none where it is never held; its values are not read yet. -/
def SliceCtx.row (x : SliceCtx) (i : Nat) : Option (HeldRow × Nat) :=
  let b0 := x.box.headD 0
  let first := i - i % Nat.max b0 1
  let is := (List.range b0).map (first + ·)
  let at_ := is.map x.srcAt
  let lo := leastInt (at_.map (·.addr))
  let hi := -(leastInt (at_.map fun e => -(e.addr + e.len)))
  let span := (hi - lo).toNat
  if is.any (fun j => !x.src.inside (boxCoord x.box j)) ∨ span > 19683 ∨ span = 0 then none
  else
    let a := x.srcAt first
    let cap := if x.src.cap = 0 then 19683 / span else Nat.min x.src.cap (19683 / span)
    some (⟨x.srcSpace, 9 * a.addr + a.pos, b0, x.src.str.getD (x.src.map.headD 0) 0, x.sf, []⟩, cap)

def HeldRow.same (a b : HeldRow) : Bool :=
  a.space == b.space && a.addr == b.addr && a.count == b.count && a.stride == b.stride && a.fmt == b.fmt

/-- R329, R399: a source element through a line-buffer set of the copy's workgroup, which holds its newest rows within the capacity:
from a held row, or from a row that is fetched whole and replaces the oldest. -/
def SliceCtx.buffered (x : SliceCtx) (s : State) (n i : Nat) : Except CopyStop (State × Int) :=
  match x.row i with
  | none => x.fetch s i
  | some (r, cap) =>
    let k := i % Nat.max r.count 1
    let rows (cs : CoreState) (room : Nat) : List HeldRow :=
      let held := (cs.setAt n).rowsOf x.c.wg
      held.drop (held.length - room)
    match (rows (s.coreAt x.c.engine) cap).find? (·.same r) with
    | some h => .ok (s.updCore x.c.engine fun cs => cs.putSet n ⟨some x.c.wg, rows cs cap⟩, h.vals.getD k 0)
    | none => do
      let (s, vals) ← (List.range r.count).foldlM (fun (acc : State × List Int) j => do
        let (s, v) ← x.fetch acc.1 (i - k + j)
        .ok (s, acc.2 ++ [v])) (s, [])
      let s := s.updCore x.c.engine fun cs => cs.putSet n ⟨some x.c.wg, rows cs (cap - 1) ++ [{ r with vals := vals }]⟩
      .ok (s, vals.getD k 0)

/-- R323, R397: the value of element i. -/
def SliceCtx.value (x : SliceCtx) (s : State) (i : Nat) : Except CopyStop (State × FVal) :=
  match x.c.form with
  | .cpyf => .ok (s, x.dst.fillVal x.df)
  | f =>
    if !x.src.inside (boxCoord x.box i) then .ok (s, x.src.fillVal x.sf)
    else do
      let (s, code) ← (match f with
        | .cpyl n _ => x.buffered s n i
        | _ => x.fetch s i)
      .ok (s, x.sf.decode code)

/-- The destination code of element i. -/
def SliceCtx.code (x : SliceCtx) (s : State) (i : Nat) : Except CopyStop (State × Int) := do
  let (s, v) ← x.value s i
  .ok (s, (x.df.round v false).1)

/-- The elements lo..hi of a slice that are still to be written. -/
def SliceCtx.left (x : SliceCtx) (lo hi : Nat) : List Nat :=
  (List.range hi).filter fun j => decide (lo ≤ j) && x.writes j && !(x.c.wrote.any fun w => w.idx == j)

/-- The first trits of the elements of a destination tryte. -/
def SliceCtx.cells (x : SliceCtx) : List Nat := (List.range (perTryte x.df)).map fun k => x.df.w * k

/-- Whether some elements cover a destination tryte (R48). -/
def SliceCtx.covers (x : SliceCtx) (js : List Nat) (t : Int) : Bool :=
  if x.df.w ≥ 9 then js.any fun j => decide ((x.dstAt j).addr ≤ t) && decide (t < (x.dstAt j).addr + (x.dstAt j).len)
  else x.cells.all fun p => js.any fun j => (x.dstAt j).addr == t && (x.dstAt j).pos == p

/-- Those of some elements that fall in the run of n trytes of element i. -/
def SliceCtx.near (x : SliceCtx) (n i : Nat) (js : List Nat) : List Nat :=
  js.filter fun j => (x.dstAt j).addr / (n : Int) == (x.dstAt i).addr / (n : Int)

/-- Whether some elements cover the run of n trytes of element i. -/
def SliceCtx.whole (x : SliceCtx) (n i : Nat) (js : List Nat) : Bool :=
  let near := x.near n i js
  (List.range n).all fun t => x.covers near ((x.dstAt i).addr / (n : Int) * (n : Int) + (t : Nat))

/-- What of some remaining elements is written in one turn with element i: a block or a line that they cover (R48, R302); on
chip the line of 81 trytes (R205); else what shares its trytes (R398). -/
def SliceCtx.batch (x : SliceCtx) (js : List Nat) (i : Nat) : List Nat :=
  if x.dstSpace = .virt then
    if x.whole 243 i js then x.near 243 i js else if x.whole 81 i js then x.near 81 i js else x.near 1 i js
  else x.near 81 i js

/-- R302, R205: the remaining elements that may be written together with those of slice n: of every slice that runs, or is to run, under
the copy's records. -/
def SliceCtx.open_ (x : SliceCtx) (n : Nat) : List Nat :=
  let ranges := ((List.range x.c.slices.length).filter fun m => ((x.c.slices[m]?).map fun (y : Slice) =>
    m == n || (y.view.isNone && (y.st == .waiting || y.st == .running))).getD false).map (x.c.range x.box)
  (x.left 0 (x.box.foldl (· * ·) 1)).filter fun j => ranges.any fun r => decide (r.1 ≤ j) && decide (j < r.2)

/-- One of each address of some written elements, in order. -/
def wroteAddrs (ws : List Wrote) : List Int := (ws.map (·.addr)).eraseDups

/-- Whether a tryte written in part needs what it held: no element of the copy reaches a cell of it. -/
def SliceCtx.needsOld (x : SliceCtx) (ws : List Wrote) (a : Int) : Bool :=
  x.df.w < 9 && x.cells.any fun p => !((ws ++ x.c.wrote).any fun w => w.addr == a && w.pos == p)

/-- R398: the tryte at an address with the copy's own elements in it, each with one of the values that reach it. -/
def SliceCtx.narrow (x : SliceCtx) (s : State) (ws : List Wrote) (a : Int) (old : Int) : State × Tryte :=
  let (s, v) := x.cells.foldl (fun (acc : State × Int) p =>
    let here := (ws ++ x.c.wrote).filter fun w => w.addr == a && w.pos == p
    let (v, s) := acc.1.choose (here.map (·.val)) (dropInt p old)
    (s, acc.2 + wrapInt x.df.w v * 3 ^ p)) (s, 0)
  (s, Tryte.ofInt v)

/-- R398: the writes of some elements, one for each address. An element that another of the copy has written before may keep it. -/
def SliceCtx.cellsOf (x : SliceCtx) (s : State) (olds : List (Int × Tryte)) (ws : List Wrote) : State × List Cell :=
  (wroteAddrs ws).foldl (fun (acc : State × List Cell) a =>
    if x.df.w < 9 then
      let (s, t) := x.narrow acc.1 ws a (((olds.find? fun o => o.1 == a).map fun o => o.2.val).getD 0)
      (s, acc.2 ++ [⟨a, 1, [some [t]]⟩])
    else
      let len := (x.df.w + 8) / 9
      let mine := (ws.filter fun w => w.addr == a).map fun w => some (toTrytes len w.val)
      (acc.1, acc.2 ++ [⟨a, len, mine ++ if x.c.wrote.any fun w => w.addr == a then [none] else []⟩])) (s, [])

/-- The elements of a batch with their codes. -/
def SliceCtx.codes (x : SliceCtx) (s : State) (is : List Nat) : Except CopyStop (State × List Wrote) :=
  is.foldlM (fun (acc : State × List Wrote) j => do
    let (s, code) ← x.code acc.1 j
    let a := x.dstAt j
    .ok (s, acc.2 ++ [⟨j, a.addr, a.pos, code⟩])) (s, [])

/-- R398: the old trytes that a batch needs, where the slice has not read them yet. -/
def SliceCtx.readOlds (x : SliceCtx) (s : State) (is : List Nat) (olds : List (Int × Tryte)) :
    Except CopyStop (Option (State × List (Int × Tryte))) := do
  let ws := is.map fun j => (⟨j, (x.dstAt j).addr, (x.dstAt j).pos, 0⟩ : Wrote)
  let need := (wroteAddrs ws).filter (x.needsOld ws)
  if need.all fun a => olds.any fun o => o.1 == a then .ok none
  else do
    let (s, got) ← need.foldlM (fun (acc : State × List (Int × Tryte)) a => do
      let i := ((ws.find? fun w => w.addr == a).map (·.idx)).getD 0
      let (s, ts) ← stopAt i (acc.1.engineRead (acc.1.ownerOf x.c) x.dstSpace 1 a)
      .ok (s, acc.2 ++ [(a, ts.headD zeroT)])) (s, [])
    .ok (some (s, got))

/-- The write of a batch, from the old trytes that the slice has read. -/
def SliceCtx.writeBatch (x : SliceCtx) (s : State) (is : List Nat) (olds : List (Int × Tryte)) :
    Except CopyStop (State × List Wrote) := do
  let (s, ws) ← x.codes s is
  let (s, cells) := x.cellsOf s olds ws
  match s.engineWrite x.c x.dstSpace cells with
  | .ok s => .ok (s, ws)
  | .error (cause, n) =>
    let a := (cells[n]?.map Cell.addr).getD 0
    .error (some (cause, ((ws.find? fun w => w.addr == a).map (·.idx)).getD 0))

/-- What slice n works with, under the records it reads by. -/
def Copy.sliceCtx (c : Copy) (n : Nat) : Option SliceCtx := do
  let sl ← c.slices[n]?
  let v ← sl.view <|> c.view
  let a ← v.srcLay
  let b ← v.dstLay
  let box ← c.box
  return ⟨c, v, a, b, ← v.sf, ← v.df, box⟩

/-- What the check word of a copy works with: its own view, of which the destination's record must be whole (R334). -/
def Copy.checkCtx (c : Copy) : Option SliceCtx := do
  let v ← c.view
  let b ← v.dstLay
  let df ← v.df
  return ⟨c, v, v.srcLay.getD b, b, v.sf.getD df, df, ← c.box⟩

/-- Whether a copy's own view is whole, so that the copy could start under it. -/
def Copy.viewWhole (c : Copy) : Bool := match c.view with
  | some v => (match v.srcLay, v.dstLay with
    | some a, some b => (recordCause c.form (v.request.map (·.val)) a b v.sf v.df).isNone
    | _, _ => false)
  | none => false

/-- R424: what is left of the translations of an element that fails: the events of its walks, and the bursts of a refused fill. -/
def SliceCtx.refused (x : SliceCtx) (s : State) (j : Nat) : State :=
  let w := (s.ownerOf x.c).who
  let one (s : State) (sp : Space) (k : AccKind) (a : ElemAt) : State :=
    if sp ≠ .virt then s
    else match s.resolveVirt w k a.len a.addr with
      | .error _ => s.refusedAccess w a.len a.addr
      | .ok (_, ps) => s.refusedFills ps
  one (if x.c.form == .cpyf || !x.src.inside (boxCoord x.box j) then s else one s x.srcSpace .read (x.srcAt j)) x.dstSpace .write (x.dstAt j)

def State.updSlice (s : State) (id n : Nat) (f : Slice → Slice) : State :=
  s.updCopy id fun c => { c with slices := updAt c.slices n f }

/-- A retried slice reads its records afresh (R360). -/
def State.retrySlice (s : State) (c : Copy) (n : Nat) (sl : Slice) : State :=
  match s.readView c sl.req with
  | (_, none) => s
  | (s, some (v, some cause)) =>
    let c := { c with slices := updAt c.slices n fun x => { x with view := some v } }
    (s.updCopy c.id fun _ => c).parkSlice c n cause []
  | (s, some (v, none)) =>
    (s.updCopy c.id fun c => { c with view := if c.viewWhole then c.view else some v, box := c.box <|> v.box }).updSlice c.id n
      fun x => { x with view := some v, st := .running }

/-- The next elements of a running slice: what they need of trytes that they write in part is read in one turn and they are
written in the next (R398). -/
def State.moveSlice (s : State) (c : Copy) (n : Nat) (sl : Slice) : State :=
  match c.sliceCtx n with
  | none => s
  | some x =>
    let (lo, hi) := c.range x.box n
    let i := lo + sl.moved
    let next (s : State) : State := s.updSlice c.id n fun y => { y with moved := y.moved + 1, olds := [] }
    let park (s : State) (e : CopyStop) : State := match e with
      | none => s
      | some (cause, j) =>
        ((x.refused s j).updSlice c.id n fun y => { y with olds := [] }).parkSlice c n cause (boxCoord x.box j)
    if hi ≤ i then s.updSlice c.id n fun y => { y with st := .done }
    else if c.wrote.any (fun w => w.idx == i) || !x.writes i then next s
    else
      let go (is : List Nat) : Except CopyStop State := do
        match ← x.readOlds s is sl.olds with
        | some (s, olds) => .ok (s.updSlice c.id n fun y => { y with olds := olds })
        | none => do
          let (s, ws) ← x.writeBatch s is sl.olds
          .ok (next (s.updCopy c.id fun c => { c with wrote := c.wrote ++ ws }))
      match (if sl.view.isNone then go (x.batch (x.open_ n) i) else .error none) with
      | .ok s => s
      | .error _ =>
        match go (x.batch (x.left lo hi) i) with
        | .ok s => s
        | .error e => park s e

/-- R370: whether the hold queue of a core is full. -/
def State.holdFull (s : State) (core : Nat) : Bool := decide ((s.coreAt core).hold.length ≥ 729)

/-- R370: whether an engine waits with a copy: an arrival from it finds the hold queue full. -/
def State.engineWaits (s : State) (c : Copy) : Bool := s.arrivals.any fun a => a.2.by_ == c.wg && s.holdFull a.1

/-- R260, R330: whether writes of the engines of a copy's workgroup are on their way to a diversion unit. -/
def State.engineSends (s : State) (c : Copy) : Bool :=
  s.arrivals.any fun a => a.2.by_ == c.wg && match a.2.kind with
    | .data _ _ issuer => issuer.isNone
    | _ => false

/-- A turn of a slice: it begins, reads its records afresh, or moves its next element. -/
def State.sliceTurn (s : State) (id n : Nat) : State :=
  match s.copyOf id with
  | none => s
  | some c =>
    match c.slices[n]? with
    | none => s
    | some sl =>
      if !c.started || s.dieDown (coreDie sl.engine) || s.engineWaits c then s
      else match sl.st with
        | .waiting =>
          (s.updSlice id n fun y => { y with st := .running }).progEvent sl.engine 10 (some c.owner.region.ctx.num)
        | .running => s.moveSlice c n sl
        | .retry => s.retrySlice c n sl
        | _ => s

/-- Whether the next element of a slice would park it (R334). -/
def State.sliceFails (s : State) (id n : Nat) : Bool :=
  let t := s.sliceTurn id n
  ((t.copyOf id).bind fun c => (c.slices[n]?).map fun (x : Slice) => x.st == .parked).getD false

/-! ## Barrier objects (R339, R340, R343) -/

/-- R340: an arrival at an object whose places are resolved: the phase it arrived in, or none where it is refused. -/
def State.arriveAt (s : State) (w : Who) (ps : List Place) : Except Nat (State × Option Int) := do
  let (s, ts) ← s.atomRead w ps
  match barrierStep (wordsOfTrytes ts) with
  | none => .ok (s, none)
  | some (ws, ph) =>
    let s ← s.atomWrite w ps (ws.flatMap fun v => toTrytes 3 v)
    .ok (s, some ph)

/-! ## The steps after the data (R330, R331) -/

/-- R331, R398: ascending destination address, then ascending box index. -/
def Wrote.le (a b : Wrote) : Bool :=
  decide (a.addr < b.addr) || (a.addr == b.addr && (decide (a.pos < b.pos) || (a.pos == b.pos && decide (a.idx ≤ b.idx))))

def insertWrote (a : Wrote) : List Wrote → List Wrote
  | [] => [a]
  | b :: bs => if a.le b then a :: b :: bs else b :: insertWrote a bs

/-- R331: the check word of written elements of w trits. -/
def checkWordOf (w : Nat) (es : List Wrote) : Int :=
  let sorted := es.foldr insertWrote []
  let trits := tritsOf w (sorted.map (·.val))
  let ws := (chunksOf 27 trits.length trits).map ofTrits
  wrapInt 27 (((List.range ws.length).zip ws).foldl (fun acc e => acc + rotate 27 e.2 e.1) 0)

/-- R334: the elements that the check word covers: those written, and those of a skipped remainder at the values they hold;
one that cannot be read counts 0. None while a read waits. -/
def State.checkElems (s : State) (x : SliceCtx) : Option (State × List Wrote) :=
  let total := x.box.foldl (· * ·) 1
  let missing := (List.range total).filter fun i => x.writes i && !(x.c.wrote.any fun w => w.idx == i)
  missing.foldlM (fun (acc : State × List Wrote) i =>
    let a := x.dstAt i
    match acc.1.engineRead (acc.1.ownerOf x.c) x.dstSpace a.len a.addr with
    | .error _ => some (acc.1, acc.2 ++ [⟨i, a.addr, a.pos, 0⟩])
    | .ok (_, none) => none
    | .ok (s, some ts) => some (s, acc.2 ++ [⟨i, a.addr, a.pos, codeAt ts a.pos x.df.w⟩])) (s, x.c.wrote)

/-- The virtual lines of a copy's source and destination elements. -/
def Copy.lines (c : Copy) : List Int :=
  match c.sliceCtx 0 with
  | none => []
  | some x =>
    let is := (List.range (x.box.foldl (· * ·) 1)).filter x.writes
    let of (sp : Space) (f : Nat → ElemAt) : List Int := if sp = .virt then is.map fun i => (f i).addr / 81 else []
    (of x.srcSpace x.srcAt ++ of x.dstSpace x.dstAt).eraseDups

/-- R261: the completion of a collective acts on every participant: a release and an acquire at package scope, of its source and
destination. -/
def State.collectiveDone (s : State) (c : Copy) : State :=
  match s.wgOf c.wg with
  | some w =>
    if c.form == .cpy && w.st != .suspended then
      let ls := c.lines
      let on_ : Lines := fun n l => n == w.region.ctx.num && ls.contains l
      (s.releaseAt w .pkg on_).acquireAt w .pkg on_
    else s
  | none => s

/-- A copy is complete. -/
def State.endCopy (s : State) (c : Copy) : State :=
  (State.collectiveDone { s with copies := s.copies.filter fun d => d.id != c.id } c)

/-- A failed step parks the copy's later steps; its fault is for the group that supplied slice 0 (R330). -/
def State.parkStep (s : State) (c : Copy) (cause : Nat) (addr : Int) : State :=
  let hws := c.slices.map Slice.hw
  let hw := hws.foldl Nat.min (hws.headD 0)
  (s.updCopy c.id fun c => { c with parked := true }).copyFault c c.slices.length hw cause addr [] true

/-- R260, R330: a word of step 2 or 3, a strong release store at the request's scope. -/
def State.syncStore (s : State) (c : Copy) (v : CopyView) (addr val : Int) (next : Nat) : State :=
  let w := s.ownerOf c
  let s := s.releaseAt w ((scopeOf (fld v.ctl 6 7)).getD .sys)
  match s.engineWrite c v.sync [⟨addr, 3, [some (toTrytes 3 val)]⟩] with
  | .ok s => s.updCopy c.id fun c => { c with stage := next }
  | .error (cause, _) => s.parkStep c cause addr

/-- R340: the release of a copy's arrival: of its destination writes that lie in the buffer that the object names, or, where the object is
at a diversion unit, of all of them. -/
def State.releaseCopy (s : State) (c : Copy) (w : Workgroup) (b : Option NamedBuf) : State :=
  let ls := c.lines
  let die := w.core.die
  s.drainFor die (scopeDies w.region.ctx die .pkg) fun n l =>
    n == w.region.ctx.num && ls.contains l && (b.map fun b => b.lines n n l).getD true

/-- R330 step 4: the arrival; one at a diverted object goes to its unit, and a refused one is discarded (R343). -/
def State.syncArrive (s : State) (c : Copy) (v : CopyView) : State :=
  let w := s.ownerOf c
  let addr := v.word 7
  match s.resolve w v.sync 0 .atomic 27 addr with
  | .error cause => s.parkStep c cause addr
  | .ok (s, ps) =>
    match ps.map (s.placeNow c.wg) with
    | .diverted g core o :: _ =>
      if (s.wgOf c.wg).isNone && w.ownsPlace (.diverted g core o) then s.endCopy c
      else ((s.releaseCopy c w none).arrive c.wg g core (.barrier o (c.wg, 0))).endCopy c
    | ps =>
      if (s.wgOf c.wg).isNone && w.ownsPlace (ps.headD (.desc zeroT)) then s.endCopy c
      else match s.atomRead w.who ps with
        | .error cause => s.parkStep c cause addr
        | .ok (s, ts) =>
          match (s.releaseCopy c w (some (namedBuf v.sync (wordsOfTrytes ts)))).arriveAt w.who ps with
          | .ok (s, some _) => (s.useBarrier w v.sync addr).endCopy c
          | .ok (s, none) => s.endCopy c
          | .error cause => s.parkStep c cause addr

/-- R331, R334: the check word of a copy, 0 where its destination record was never whole; none while a read waits. -/
def State.checkValue (s : State) (c : Copy) : Option (State × Int) :=
  match c.checkCtx with
  | none => some (s, 0)
  | some x => (s.checkElems x).map fun r => (r.1, checkWordOf x.df.w r.2)

/-- R330: the step that a copy has come to; the last ends it. -/
def State.nextStep (s : State) (c : Copy) (v : CopyView) : Option State :=
  let has (i : Nat) : Bool := tritAt v.ctl i == 1
  if c.stage = 0 ∧ has 8 then some (s.syncStore c v (v.word 4) (v.word 5) 1)
  else if c.stage ≤ 1 ∧ has 9 then (s.checkValue c).map fun r => r.1.syncStore c v (v.word 6) r.2 2
  else if c.stage ≤ 2 ∧ has 10 then some (s.syncArrive c v)
  else some (s.endCopy c)

/-- R330: once every slice is done or skipped, the next step of a copy. A step made again reads the request afresh (R360); a copy
whose request could not be read, or is malformed, has none. -/
def State.copyStep (s : State) (id : Nat) : Option State := do
  let c ← s.copyOf id
  if !c.started || c.parked || s.engineWaits c || s.engineSends c || c.slices.any (fun x => x.st != .done && x.st != .skipped) then none
  else if c.reread then
    match s.readView c ((c.slices.head?.map Slice.req).getD 0) with
    | (_, none) => none
    | (s, some (_, some cause)) => some (s.parkStep c cause ((c.slices.head?.map Slice.req).getD 0))
    | (s, some (v, none)) => some (s.updCopy id fun c => { c with view := some v, reread := false })
  else
    match c.view with
    | none => some (s.endCopy c)
    | some v =>
      if v.request.isEmpty || !requestOk (v.request.map (·.val)) (c.form == .cpyf) then some (s.endCopy c)
      else s.nextStep c v

end Sys2Proof.Machine
end

