-- ==== Sys2Proof/Machine/Async.lean ====
section
/-! DEFINITION. Copy, spawn, barrier and message instructions (15_async_instructions.md R320 to R349). -/

namespace Sys2Proof.Machine

/-! ## Copies (R322 to R329) -/

/-- R324: the check of a request offset at issue. -/
def requestCause (w : Workgroup) (off : Int) : Option Nat :=
  if off % 27 ≠ 0 then some 12 else if off < 0 ∨ off + 27 > (w.runLen : Int) then some 8 else none

/-- R333: the matrix words that a group has in the queues. -/
def Issue.accepted (x : Issue) : List Nat :=
  (((x.s0.unitAt (coreClu x.w.core)).queue.filter (·.ofGroup x.g)).map (·.id)).eraseDups

def Slice.fresh (hw : Nat) (req : Int) (engine : Nat) : Slice := ⟨hw, req, 0, .waiting, engine, none, []⟩

/-- R259: the issue of an engine word comes after every access that its group has made. -/
def Issue.released (x : Issue) (s : State) : State := s.settleStores x.r fun _ => true

/-- R326: a copy whose last slice is supplied takes its place in the order of starts (R335). -/
def State.supply (s : State) (c : Copy) : State :=
  { s with copies := (s.copies.filter fun d => d.id != c.id) ++ [c] }

/-- R325, R326: the slices of a group join its next collective, or the word holds until the open one has started. -/
def Issue.joinCollective (x : Issue) (req : Int) : Eff :=
  if x.releaseWaits then .stall else
  let mine := x.s0.copies.filter fun c => c.wg == x.r.wg && c.form == .cpy
  let engine := coreIdx x.w.core
  let slices := (List.range (Nat.max 1 (x.g.lanes.length / 27))).map fun j => Slice.fresh (x.r.hw + j) req engine
  let count (s : State) : State := s.updGroup x.r fun g => { g with cpys := g.cpys + 1 }
  match mine.find? fun c => c.seq == x.g.cpys with
  | some c =>
    let c' : Copy := { c with slices := c.slices ++ slices, waits := c.waits ++ x.accepted }
    let s := x.released (x.next x.s0)
    let s := if c'.slices.length ≥ c'.need then s.supply c' else s.updCopy c.id fun _ => c'
    .done (x.begin (count s) [] true [])
  | none =>
    if mine.any fun c => !c.started then .hold x.s0
    else
      let s := x.released (x.next x.s0)
      let c : Copy :=
        { id := s.nextId, wg := x.r.wg, engine := engine, owner := x.w, form := .cpy, seq := x.g.cpys, need := x.w.hwGroups,
          slices := slices, pc := x.pc, waits := x.accepted, started := false, view := none, box := none, wrote := [],
          stage := 0, parked := false, reread := false }
      .done (x.begin (count ({ s with nextId := s.nextId + 1 }.supply c)) [] true [])

/-- R328: a copy of one group. Its issue is complete when its engine takes it, at its start. -/
def Issue.single (x : Issue) (form : CopyForm) (req : Int) : Eff :=
  if x.releaseWaits then .stall else
  let s := x.released (x.next x.s0)
  let engine := coreIdx x.w.core
  let c : Copy :=
    { id := s.nextId, wg := x.r.wg, engine := engine, owner := x.w, form := form, seq := 0, need := 1,
      slices := [Slice.fresh x.r.hw req engine], pc := x.pc, waits := x.accepted, started := false, view := none, box := none,
      wrote := [], stage := 0, parked := false, reread := false }
  .done (x.begin { s with copies := s.copies ++ [c] } [{ PendLane.new 0 kZero with addr := (c.id : Int) }] true [])

/-- R324: a copy word whose request offset fails traps before it takes a slot. -/
def Issue.copyWord (x : Issue) (sa : Nat) (go : Int → Eff) : Eff :=
  let off := (x.g.rdS sa).val
  match requestCause x.w off with
  | some c => .trap { cause := c }
  | none => go off

def execCpy (a : CopyArgs) (s : State) : Host.Outcome State Fault Refusal :=
  runWord (.cpy a) s fun x => x.copyWord a.sa.val x.joinCollective
def execCpys (a : CopyArgs) (s : State) : Host.Outcome State Fault Refusal :=
  runWord (.cpys a) s fun x => x.copyWord a.sa.val (x.single .cpys)
def execCpyf (a : CopyArgs) (s : State) : Host.Outcome State Fault Refusal :=
  runWord (.cpyf a) s fun x => x.copyWord a.sa.val (x.single .cpyf)
def execCpyl (a : CpylArgs) (s : State) : Host.Outcome State Fault Refusal :=
  runWord (.cpyl a) s fun x => x.copyWord a.sa.val (x.single (.cpyl a.set.val false))
def execCpylFlush (a : CpylArgs) (s : State) : Host.Outcome State Fault Refusal :=
  runWord (.cpylFlush a) s fun x => x.copyWord a.sa.val (x.single (.cpyl a.set.val true))

/-! ## Spawning (R336 to R338) -/

/-- R337, Table 3: the refusal of a spawn, if there is one. -/
def State.spawnRefusal (s : State) (w : Workgroup) (n : Int) (coresident : Bool) : Option Int :=
  if n < 0 ∨ n > 531441 then some (-3)
  else if w.kernel.imageSize > w.region.stride then some (-4)
  else if coresident && !s.fitsEmpty w.core.die w.core.cluster w.region w.kernel n.toNat then some (-1)
  else if s.counted w.region + n.toNat > w.region.budget then some (-2)
  else none

/-- R336: the batch of a spawn. -/
def spawnBatch (s : State) (w : Workgroup) (n : Nat) (launch : List Word) (coresident : Bool) : Batch :=
  { region := w.region, kernel := w.kernel, first := 0, count := n, launch := launch, coresident := coresident, node := w.node,
    time := s.time }

/-- A batch enters its spawn queue; none while the queue is full. -/
def State.enqueueBatch (s : State) (die clu : Nat) (b : Batch) : Option State :=
  let key := spawnKey die clu b.region.cls
  let q := s.spawnQ key
  if q.length ≥ 243 then none else some (s.setSpawnQ key (q ++ [b]))

/-- R337: what a spawn does when its engine takes it, with its result; none while it waits for room. -/
def State.spawnNow (s : State) (w : Workgroup) (n : Int) (launch : List Word) (coresident : Bool) : Option (State × Int) :=
  match s.spawnRefusal w n coresident with
  | some r => some (s, r)
  | none =>
    if n = 0 then some (s, 0)
    else (s.enqueueBatch w.core.die w.core.cluster (spawnBatch s w n.toNat launch coresident)).map fun s => (s, n)

/-- R336, R338: a spawn is issued with its count and launch scalars; it is done by ENGINE_ISSUE_COMPLETE. -/
def Issue.spawn (x : Issue) (a : SpawnArgs) : Eff :=
  if x.releaseWaits then .stall else
  let s := (x.released (x.next x.s0)).releaseAt x.w .pkg
  let first := { PendLane.new x.low kAll with addr := (x.g.rdS a.sa.val).val }
  let rest := (List.range 26).map fun i => { PendLane.new x.low kAll with d0 := x.g.rdS (i + 1) }
  .done (x.begin s (first :: rest) false [])

def execSpawn (a : SpawnArgs) (s : State) : Host.Outcome State Fault Refusal := runWord (.spawn a) s (·.spawn a)
def execSpawnCoresident (a : SpawnArgs) (s : State) : Host.Outcome State Fault Refusal :=
  runWord (.spawnCoresident a) s (·.spawn a)

/-! ## Barriers (R339 to R344) -/

/-- The places of a barrier object for a group, as they stand now. -/
def Issue.object (x : Issue) (sp : Space) (k : AccKind) (addr : Int) : Except Nat (State × List Place) := do
  let (s, ps) ← x.s0.resolve x.w sp (x.g.lane x.low).thread k 27 addr
  .ok (s, ps.map (s.placeNow x.r.wg))

/-- R341: the words that BARI writes. -/
def bariWords (e bufa bufn : Int) : List Int :=
  let broken : Int := if e < 1 ∨ e > 797161 ∨ bufn < 0 then -(3 ^ 26) else 0
  [e, e, broken, bufa, bufn, 0, 0, 0, 0]

def execBari (a : BarArgs) (s : State) : Host.Outcome State Fault Refusal :=
  runWord (.bari a) s fun x =>
    let v (i : Nat) : Int := (x.g.rdS (a.sd.val + i)).val
    match x.object a.space .write (x.g.rdS a.sa.val).val with
    | .error c => .trap { cause := c }
    | .ok (s, ps) =>
      if x.releaseWaits then .hold x.s0
      else
        let s := (x.released s).releaseAt x.w .pkg
        let ts := (bariWords (v 0) (v 1) (v 2)).flatMap fun v => toTrytes 3 v
        let (s, es) := s.sendDiverted x.r.wg (some (x.r.wg, x.r.hw, s.nextId)) 27
          (((List.range 27).zip (ps.zip ts)).map fun e => ⟨0, e.1, e.2.1, e.2.2⟩)
        match s.performStores x.w.who true true noNote es with
        | (s, []) => .done { x.next s with nextId := s.nextId + 1 }
        | (_, f :: _) => .trap { cause := f.cause }

/-- R340, R343: a group's arrival, once it has released what it has written of the buffer that the object names; the rest goes on from
the state after it with the phase. -/
def Issue.arrival (x : Issue) (sp : Space) (addr : Int) (go : State → NamedBuf → Int → Eff) : Eff :=
  match x.object sp .atomic addr with
  | .error c => .trap { cause := c }
  | .ok (s, ps) =>
    if s.waitsAt ps || x.releaseWaits then .hold x.s0
    else match s.atomRead x.w.who ps with
      | .error c => .trap { cause := c }
      | .ok (s, ts) =>
        let b := namedBuf sp (wordsOfTrytes ts)
        match (s.releaseBuf x.w x.r b).arriveAt x.w.who ps with
        | .error c => .trap { cause := c }
        | .ok (_, none) => .trap { cause := 20 }
        | .ok (s, some ph) => go (s.useBarrier x.w sp addr) b ph

/-- R342: BARA. -/
def execBara (a : BarArgs) (s : State) : Host.Outcome State Fault Refusal :=
  runWord (.bara a) s fun x =>
    x.arrival a.space (x.g.rdS a.sa.val).val fun s b ph =>
      .done ((x.next (s.acquireBuf x.w b)).updGroup x.r fun g => g.wrS a.sd.val (Word.ofInt ph))

/-- R342: the wait for the phase of an object to leave a token: word 2 is read as a monitor. -/
def Issue.awaitPhase (x : Issue) (s : State) (sp : Space) (addr token : Int) (fault : Nat → Eff) : Eff :=
  match s.monitorRead x.w x.r sp (x.g.lane x.low).thread (addr + 6) with
  | .error c => fault c
  | .ok (_, none) => .stall
  | .ok (s, some v) =>
    if tritAt v 26 = -1 then fault 20
    else if fld v 0 25 ≠ token then .done (x.next (s.acquireObject x.w x.r sp (x.g.lane x.low).thread addr))
    else
      let m : Monitor := { instr := x.i, pc := x.pc, payload := x.pay, addr := addr, token := token, last := Word.ofInt v,
                           deadline := none, fault := none }
      .done (s.updGroup x.r fun g => { g with phase := .waiting m })

/-- R342: BAR arrives, and its group waits; where its phase completes at once, or a diversion unit takes the first read, the
monitor is read again by MONITOR_RECHECK. -/
def execBar (a : BarSArgs) (s : State) : Host.Outcome State Fault Refusal :=
  runWord (.bar a) s fun x =>
    let addr := (x.g.rdS a.sa.val).val
    x.arrival a.space addr fun s _ ph =>
      let m : Monitor := { instr := x.i, pc := x.pc, payload := x.pay, addr := addr, token := ph, last := zeroW,
                           deadline := none, fault := none }
      .done (s.updGroup x.r fun g => { g with phase := .waiting m })

/-- R342, R344: BARW waits on the token of s(b), or on what its replay entry captured. -/
def execBarw (a : BarwArgs) (s : State) : Host.Outcome State Fault Refusal :=
  runWord (.barw a) s fun x =>
    let cap : PendLane := (x.captured x.low).getD
      { PendLane.new x.low kAll with addr := (x.g.rdS a.sa.val).val, d0 := x.g.rdS a.sb.val }
    let trap (c : Nat) : Eff := .trap { cause := c, lanes := [(x.low, c)], cap := [cap], issued := true }
    match x.object a.space .read cap.addr with
    | .error c => trap c
    | .ok _ => x.awaitPhase x.s0 a.space cap.addr cap.d0.val trap

/-! ## Messages (R345, R346, R308) -/

def State.box (s : State) (n : Nat) : Mailbox := s.mailboxes.get .empty n
def State.setBox (s : State) (n : Nat) (b : Mailbox) : State := { s with mailboxes := s.mailboxes.set .empty n b }

/-- R345: the mailbox that an operand names. -/
def boxNum (v : Int) : Option Nat := if 0 ≤ v ∧ v ≤ 26 then some v.toNat else none

/-- R308, R345: the first-posted slot is taken; its words, none where there is none. DESIGN CHOICE (log 68): the reserved trits of header
word 0 are given as the host wrote them, though R9 has a returned reserved field read 0. -/
def State.takeMessage (s : State) (n : Option Nat) : State × Option (List Word) :=
  match n with
  | none => (s, none)
  | some n =>
    let b := s.box n
    match b.bound, b.posted with
    | some _, slot :: rest =>
      let ws := (List.range 27).map fun j => b.words.get zeroW (27 * slot + j)
      (s.setBox n { b with posted := rest, words := b.words.set zeroW (27 * slot + 26) zeroW }, some ws)
    | _, _ => (s, none)

def execMbrx (a : MbrxArgs) (s : State) : Host.Outcome State Fault Refusal :=
  runWord (.mbrx a) s fun x =>
    let (s, m) := x.s.takeMessage (boxNum (x.simm a.b))
    let s := if m.isSome then s.acquireAt x.w .sys else s
    .done (s.updGroup x.r fun g => g.updLanes x.active fun i l => l.wr a.d ((m.map fun ws => ws.getD i zeroW).getD zeroW))

/-- The status of MBTX in every active lane (R143). -/
def Issue.status (x : Issue) (s : State) (kd : Nat) (v : Int) : Eff :=
  .done (s.updGroup x.r fun g => g.updLanes x.active fun _ l => l.wrK kd (Trits.ofInt 3 (13 * v)))

/-- R346: the value of a lane of a group for a message: 0 where the lane is not active. -/
def Issue.laneWord (x : Issue) (a : Reg) (l : Nat) : Word := if x.active.contains l then x.reg a l else zeroW

def execMbtxReply (a : MbtxArgs) (s : State) : Host.Outcome State Fault Refusal :=
  runWord (.mbtxReply a) s fun x =>
    match boxNum (x.simm a.b) with
    | none => x.status x.s a.kd.val 0
    | some n =>
      let b := x.s.box n
      if b.reply.get zeroW 26 ≠ zeroW then x.status x.s a.kd.val 0
      else
        let bell := x.laneWord a.a 26
        let reply := (List.range 26).foldl (fun (m : SMap Word) j => m.set zeroW j (x.laneWord a.a j)) b.reply
        let reply := reply.set zeroW 26 (if bell = zeroW then Word.ofInt 1 else bell)
        if x.releaseWaits then .hold x.s0
        else
          let s := (x.released x.s).releaseAt x.w .sys
          x.status (s.setBox n { b with reply := reply }) a.kd.val 1

/-- R308: posted slots are freed without records. -/
def Mailbox.freed (b : Mailbox) : Mailbox :=
  { b with posted := [], words := b.posted.foldl (fun m sl => m.set zeroW (27 * sl + 26) zeroW) b.words }

/-- R413: the world of a context, read from its root block; 0 where the device has not met it or cannot read it. -/
def State.contextWorld (s : State) (die num : Nat) : Int :=
  match s.context num with
  | none => 0
  | some c =>
    match s.structRead (structWho die c) (c.rootBlock + 15) 1 with
    | .ok (_, v :: _) => tritAt v 1
    | _ => 0

/-- R346: MBTX bind. DESIGN CHOICE (log 68): a lane 0 or 1 that is not active gives 0, the context 0 or a revision that is refused. -/
def execMbtxBind (a : MbtxArgs) (s : State) : Host.Outcome State Fault Refusal :=
  runWord (.mbtxBind a) s fun x =>
    let c := (x.laneWord a.a 0).val
    let rev := (x.laneWord a.a 1).val
    match boxNum (x.simm a.b) with
    | none => x.status x.s a.kd.val 0
    | some n =>
      let world := (x.s.world.mailboxes.get .zero n).val
      let other := world != 0 && x.s.contextWorld x.w.core.die c.toNat == -world
      if c < 0 ∨ c > 728 ∨ rev < 1 ∨ rev > 9841 ∨ other then x.status x.s a.kd.val 0
      else x.status (x.s.setBox n { (x.s.box n).freed with bound := some (c.toNat, rev) }) a.kd.val 1

def execMbtxUnbind (a : MbtxArgs) (s : State) : Host.Outcome State Fault Refusal :=
  runWord (.mbtxUnbind a) s fun x =>
    match boxNum (x.simm a.b) with
    | none => x.status x.s a.kd.val 0
    | some n => x.status (x.s.setBox n { (x.s.box n).freed with bound := none }) a.kd.val 1

/-- R347: EVPOST holds its group while the ring is full, at its place in the ring's order (R309). -/
def execEvpost (sa : Fin 27) (s : State) : Host.Outcome State Fault Refusal :=
  runWord (.evpost sa) s fun x =>
    let payload := (List.range 4).map fun i => (x.g.rdS (sa.val + i)).val
    let ws := eventWords x.w.region.number.val 3 1 0 0 payload
    let s := (x.released x.s0).releaseAt x.w .sys
    let c := x.w.region.ctx
    if x.releaseWaits then .hold x.s0
    else if !x.s0.ringTurn c x.r then .hold (x.s0.ringPlace c x.r)
    else match s.ringPost x.w.core.die c ws with
      | some s => .done ((x.next s).ringLeave c x.r)
      | none => .hold (x.s0.ringPlace c x.r)

/-! ## Nodes (R348, R349) -/

/-- The words of a block's node: words 45 to 53 (R411). -/
def State.nodeWords (s : State) (die : Nat) (c : Ctx) (va : Int) : Except Nat (State × List Int) :=
  if va ≥ 0 ∨ va % 243 ≠ 0 then .error 0 else s.structRead (structWho die c) (va + 135) 9

def nodeState (w45 : Int) : Int := fld w45 3 4
def withState (w45 : Int) (st : Int) : Int := w45 + (st - nodeState w45) * 27

/-- R348: a node is made ready; the walkers of the die take ready nodes. One whose words cannot be read or written completes with −
when a walker takes it (R411). -/
def State.makeReady (s : State) (die : Nat) (c : Ctx) (va : Int) : State × Int :=
  let listed := s.ready.any (fun n => n.block == va && n.ctx.num == c.num) ||
    s.walkers.any fun w => w.ctx.num == c.num && w.frames.any fun f => f.block == va
  let put (s : State) (failed : Bool) : State := { s with ready := s.ready ++ [⟨die, va, c, failed⟩] }
  if listed then (s, -1)
  else match s.nodeWords die c va with
    | .error _ => (put s true, 1)
    | .ok (s, ws) =>
      let st := nodeState (wordAt ws 0)
      if st = 1 ∨ st = 2 then (s, -1)
      else match s.structWrite (structWho die c) (va + 135) [withState (wordAt ws 0) 1] with
        | .ok s => (put s false, 1)
        | .error _ => (put s true, 1)

def execRwalk (a : SdSa) (s : State) : Host.Outcome State Fault Refusal :=
  runWord (.rwalk a) s fun x =>
    let va := (x.g.rdS a.sa.val).val
    match x.s0.resolveVirt x.w.who .read 3 va with
    | .error c => .trap { cause := c }
    | .ok (s, _) =>
      if x.releaseWaits then .hold x.s0
      else
      let (s, r) := ((x.released s).releaseAt x.w .pkg).makeReady x.w.core.die x.w.region.ctx va
      .done (x.setS (x.next s) a.sd.val r)

/-- R349, Table 6. -/
def State.nodeItem (s : State) (die : Nat) (c : Ctx) (va : Int) (item : Nat) : Int :=
  match s.nodeWords die c va with
  | .error _ => 0
  | .ok (_, ws) =>
    let w45 := wordAt ws 0
    if item = 0 then nodeState w45 + 9 * tritAt w45 5
    else if item = 1 then (if fld w45 0 2 = 3 then wordAt ws 3 else 0)
    else ((s.knodes.find? fun k => k.block == va && k.region.ctx.num == c.num).map fun k => (k.gone : Int)).getD 0

def execRstat (a : RstatArgs) (s : State) : Host.Outcome State Fault Refusal :=
  runWord (.rstat a) s fun x =>
    let va := (x.g.rdS a.sa.val).val
    match x.s0.resolveVirt x.w.who .read 3 va with
    | .error c => .trap { cause := c }
    | .ok (s, _) => .done (x.setS (x.next s) a.sd.val (s.nodeItem x.w.core.die x.w.region.ctx va a.item.val))

end Sys2Proof.Machine
end

