-- ==== Sys2Proof/Machine/Hash.lean ====
section
/-! DEFINITION. SHA-256 of a list of bytes, as R442 of 27_host_and_package.md uses it for the world map. The spec names the
function and does not define it: its definition is taken from FIPS 180-4 (log 18). -/

namespace Sys2Proof.Machine

/-- The eight initial words. -/
def shaInit : List Nat :=
  [0x6a09e667, 0xbb67ae85, 0x3c6ef372, 0xa54ff53a, 0x510e527f, 0x9b05688c, 0x1f83d9ab, 0x5be0cd19]

/-- The 64 round constants. -/
def shaRound : List Nat :=
  [0x428a2f98, 0x71374491, 0xb5c0fbcf, 0xe9b5dba5, 0x3956c25b, 0x59f111f1, 0x923f82a4, 0xab1c5ed5] ++
  [0xd807aa98, 0x12835b01, 0x243185be, 0x550c7dc3, 0x72be5d74, 0x80deb1fe, 0x9bdc06a7, 0xc19bf174] ++
  [0xe49b69c1, 0xefbe4786, 0x0fc19dc6, 0x240ca1cc, 0x2de92c6f, 0x4a7484aa, 0x5cb0a9dc, 0x76f988da] ++
  [0x983e5152, 0xa831c66d, 0xb00327c8, 0xbf597fc7, 0xc6e00bf3, 0xd5a79147, 0x06ca6351, 0x14292967] ++
  [0x27b70a85, 0x2e1b2138, 0x4d2c6dfc, 0x53380d13, 0x650a7354, 0x766a0abb, 0x81c2c92e, 0x92722c85] ++
  [0xa2bfe8a1, 0xa81a664b, 0xc24b8b70, 0xc76c51a3, 0xd192e819, 0xd6990624, 0xf40e3585, 0x106aa070] ++
  [0x19a4c116, 0x1e376c08, 0x2748774c, 0x34b0bcb5, 0x391c0cb3, 0x4ed8aa4a, 0x5b9cca4f, 0x682e6ff3] ++
  [0x748f82ee, 0x78a5636f, 0x84c87814, 0x8cc70208, 0x90befffa, 0xa4506ceb, 0xbef9a3f7, 0xc67178f2]

def w32 (v : Nat) : Nat := v % 2 ^ 32
/-- Rotation of a 32-bit word to the right. -/
def rotr32 (v n : Nat) : Nat := w32 (v / 2 ^ n + v * 2 ^ (32 - n))

/-- Extends a message schedule, its latest word first, by n words. -/
def shaSchedule : Nat → List Nat → List Nat
  | 0, ws => ws
  | n + 1, ws =>
    let a := ws.getD 1 0
    let b := ws.getD 14 0
    let lo := ((rotr32 b 7).xor (rotr32 b 18)).xor (b / 8)
    let hi := ((rotr32 a 17).xor (rotr32 a 19)).xor (a / 1024)
    shaSchedule n (w32 (ws.getD 15 0 + lo + ws.getD 6 0 + hi) :: ws)

/-- One round on the eight working words. -/
def shaStep (v : List Nat) (kw : Nat) : List Nat :=
  match v with
  | [a, b, c, d, e, f, g, h] =>
    let s1 := ((rotr32 e 6).xor (rotr32 e 11)).xor (rotr32 e 25)
    let ch := (e.land f).xor ((2 ^ 32 - 1 - e).land g)
    let t1 := h + s1 + ch + kw
    let s0 := ((rotr32 a 2).xor (rotr32 a 13)).xor (rotr32 a 22)
    let maj := ((a.land b).xor (a.land c)).xor (b.land c)
    [w32 (t1 + s0 + maj), a, b, c, w32 (d + t1), e, f, g]
  | v => v

/-- One block of 64 bytes. -/
def shaBlock (h : List Nat) (block : List Nat) : List Nat :=
  let words := (chunksOf 4 16 block).map fun c => c.foldl (fun v b => 256 * v + b) 0
  let ws := (shaSchedule 48 words.reverse).reverse
  let out := (ws.zipWith (· + ·) shaRound).foldl shaStep h
  h.zipWith (fun x y => w32 (x + y)) out

/-- A number as n big-endian bytes. -/
def beBytes (n v : Nat) : List Nat := (leBytes n v).reverse

/-- The 32 bytes of the digest. -/
def sha256 (bytes : List Nat) : List Nat :=
  let n := bytes.length
  let padded := bytes ++ [128] ++ List.replicate ((119 - n % 64) % 64) 0 ++ beBytes 8 (8 * n)
  ((chunksOf 64 (padded.length / 64) padded).foldl shaBlock shaInit).flatMap (beBytes 4)

end Sys2Proof.Machine
end

