-- ==== Sys2Proof/Machine/Traps.lean ====
section
/-! DEFINITION. The words that reach traps, records and pre-emption (16_traps_and_preemption.md R372 to R382), the frame as
memory (R354, R355), and what the end of a workgroup does (R82, R311, R381). -/

namespace Sys2Proof.Machine

/-! ## Frames in memory (R354, R355) -/

/-- The word of a header item, or of an item of an entry: of lane 0 where it is a lane item. -/
def headerOff (item : Nat) : Nat := if item < 3 then item else 3 + 27 * (item - 3)
def entryOff (e item : Nat) : Nat := 300 + 193 * e + if item < 4 then item else 4 + 27 * (item - 4)

/-- R365: the address of a workgroup's image: where it was written, while it stands, else by the items of its region. -/
def Workgroup.image (w : Workgroup) : Int := w.img.getD (w.region.save + (w.region.stride * w.saveIdx : Nat))

/-- The sections of an image, by the trytes before each (R365, Table 7): groups come first. -/
structure Sections where
  lanes : Nat
  frames : Nat
  bins : Nat
  regs : Nat
  tiles : Nat
  shadow : Nat
deriving DecidableEq, Repr

def Kernel.sections (k : Kernel) : Sections :=
  let lanes := 81 + 243 * k.groups
  let frames := lanes + 27 * k.threads
  let bins := frames + 354294 * k.groups
  let regs := bins + 81 * k.threads
  let tiles := regs + 27 * k.regs * k.threads
  ⟨lanes, frames, bins, regs, tiles, tiles + 59049 * k.tiles⟩

/-- The hardware groups of a group that have a place in the image. -/
def Workgroup.framed (w : Workgroup) (g : Group) : List Nat := g.hws.filter (decide <| · < w.kernel.groups)

/-- A write of an image; the address that fails with its cause. -/
def State.imageWrite (s : State) (w : Workgroup) (off : Nat) (vs : List Int) : Except (Nat × Int) State :=
  let va := w.image + (off : Int)
  match s.structWrite (structWho w.core.die w.region.ctx) va vs with
  | .ok s => .ok s
  | .error c => .error (c, va)

def State.imageRead (s : State) (w : Workgroup) (off n : Nat) : Except (Nat × Int) (State × List Int) :=
  let va := w.image + (off : Int)
  match s.structRead (structWho w.core.die w.region.ctx) va n with
  | .ok r => .ok r
  | .error c => .error (c, va)

/-- The address of a frame of a hardware group: its trap frame, or its save frame in the image (R365). -/
def Workgroup.frameIn (w : Workgroup) (hw : Nat) (save : Bool) : Int :=
  if save then w.image + (w.kernel.sections.frames + 354294 * hw + 177147 : Nat) else w.frameAt hw

/-- n words of a frame of a hardware group. -/
def State.frameRead (s : State) (w : Workgroup) (hw off n : Nat) (save : Bool := false) : Except Nat (State × List Int) :=
  s.structRead (structWho w.core.die w.region.ctx) (w.frameIn hw save + 3 * (off : Int)) n
def State.frameWrite (s : State) (w : Workgroup) (hw off : Nat) (vs : List Int) : Except Nat State :=
  s.structWrite (structWho w.core.die w.region.ctx) (w.frameAt hw + 3 * (off : Int)) vs

/-- A group item. -/
def State.frameItem (s : State) (w : Workgroup) (g : Group) (off : Nat) (save : Bool := false) : Except Nat Int := do
  let (_, vs) ← s.frameRead w g.hw off 1 save
  .ok (wordAt vs 0)

/-- A lane item, for every lane of the group. -/
def State.frameLanes (s : State) (w : Workgroup) (g : Group) (off : Nat) (save : Bool := false) : Except Nat (List Int) :=
  g.hws.foldlM (fun acc h => do
    let (_, vs) ← s.frameRead w h off 27 save
    .ok (acc ++ vs)) []

/-- A group item is written in every frame of the group. -/
def State.putItem (s : State) (w : Workgroup) (g : Group) (off : Nat) (v : Int) : Except Nat State :=
  foldE (fun (s : State) h => s.frameWrite w h off [v]) s g.hws

/-- A lane item is written for one lane. -/
def State.putLane (s : State) (w : Workgroup) (g : Group) (off lane : Nat) (v : Int) : Except Nat State :=
  s.frameWrite w (g.hw + lane / 27) (off + lane % 27) [v]

/-- R447: a failed access of a frame is a fatal error of its die. -/
def State.orFatal (s : State) (die : Nat) (r : Except Nat State) : State :=
  match r with
  | .ok s => s
  | .error _ => s.dieFatal die

/-- Entry e of a frame, with what its items do not say of it (R375, R376), as handler state holds it. -/
def State.entryAt (s : State) (w : Workgroup) (g : Group) (e : Nat) (h : Handler) (save : Bool := false) :
    Except Nat ReEntry := do
  let set := h.sets.getD e []
  let item (i : Nat) : Except Nat Int := s.frameItem w g (entryOff e i) save
  let lanes (i : Nat) : Except Nat (List Int) := s.frameLanes w g (entryOff e i) save
  let pc ← item 0
  let word ← item 1
  let pay ← item 2
  let st ← item 3
  let causes ← lanes 4
  let addrs ← lanes 5
  let d0 ← lanes 6
  let d1 ← lanes 7
  let d2 ← lanes 8
  let preds ← lanes 9
  let (_, rec_) ← s.frameRead w g.hw (entryOff e 10) 27 save
  let part (j : Nat) : PendLane :=
    let w (xs : List Int) : Word := Word.ofInt (xs.getD j 0)
    let p := preds.getD j 0
    { PendLane.new j (Trits.ofInt 3 (tritAt p 0 + 3 * tritAt p 9 + 9 * tritAt p 18)) with
      addr := addrs.getD j 0, d0 := w d0, d1 := w d1, d2 := w d2, r0 := w d0, r1 := w d1, r2 := w d2,
      cause := (causes.getD j 0).toNat }
  .ok { pc := Word.ofInt pc, word := Word.ofInt word, payload := pay, cause := (fld st 0 8).toNat,
        detail := (fld st 9 17).toNat, slot := tritAt st 18 == 1, perf := tritAt st 19 == 1, set := set,
        issued := h.issued.getD e false, past := h.past.getD e false, copy := h.copies.getD e none, lanes := set.map part, rec_ := if rec_.all (· == 0) then [] else rec_.map Word.ofInt }

/-! ## TRAP and RESUME (R374, R375) -/

/-- R374: the entry of a TRAP, with no word in its queue: it stalls while a word that trap entry would capture is in flight
(DESIGN CHOICE, log 53). -/
def execTrap (code : Trits 4) (s : State) : Host.Outcome State Fault Refusal :=
  runWord (.trap code) s fun x =>
    let count := ((x.s.groupOf x.r).map fun g => g.run.count).getD 0
    if x.g.pend.any Pending.isBound then .stall
    else .done (x.s.trapEnter x.r
      { cause := 22, detail := code.val, head := none, behind := [], count := count, active := x.active, boundary := false,
        pc := x.pc })

/-- R354, item 4: a lane's hold state; a lane that has exited since stays exited. -/
def holdOf (l : Lane) (v : Int) : LaneSt :=
  if !l.live then l.st
  else if tritAt v 9 = 1 then .exited
  else if fld v 10 11 = 1 then .held
  else if fld v 10 11 = -1 then .parked
  else .ready

/-- R375: the group as the header of its frame restores it, with the entries still to re-issue. -/
def State.resumed (s : State) (w : Workgroup) (g : Group) (h : Handler) (save : Bool := false) : Except Nat Group := do
  let n ← s.frameItem w g 0 save
  let count ← s.frameItem w g 2 save
  let pcs ← s.frameLanes w g (headerOff 3) save
  let holds ← s.frameLanes w g (headerOff 4) save
  let hs ← (List.range 9).foldlM (fun acc i => do
    let vs ← s.frameLanes w g (headerOff (5 + i)) save
    .ok (acc ++ [vs])) ([] : List (List Int))
  let es ← (List.range n.toNat).foldlM (fun acc e => do
    let x ← s.entryAt w g e h save
    .ok (acc ++ [x])) ([] : List ReEntry)
  let lane (i : Nat) (l : Lane) : Lane :=
    let v := holds.getD i 0
    let l := { l with st := holdOf l v, skip := (fld v 0 8).toNat, pc := if l.live then Word.ofInt (pcs.getD i 0) else l.pc,
                      h := [] }
    (List.range 9).foldl (fun l j => l.wrH j (Word.ofInt ((hs.getD j []).getD i 0))) l
  .ok { g with
        lanes := (List.range g.lanes.length).map fun i => lane i (g.lane i)
        calls := h.calls, phase := .boundary, mask := [], handler := none, noRecord := true
        run := { Run.none with count := count.toNat }
        resuming := some { entries := es.drop 1, head := es[0]?, made := [], active := h.active, boundary := h.boundary } }

def execResume (s : State) : Host.Outcome State Fault Refusal :=
  runWord .resume s fun x =>
    match x.g.handler with
    | none => .trap { cause := 5 }
    | some h =>
      match x.s.resumed x.w x.g h with
      | .error _ => .done (x.s.dieFatal x.w.core.die)
      | .ok g => .done (x.s.orFatal x.w.core.die ((x.s.updGroup x.r fun _ => g).putItem x.w g 0 0))

/-! ## The replay queue (R376, R377) -/

def badItem : Fail := { cause := 1, detail := 3 }

/-- R376: the place of an item by its entry index, with whether it is a lane item; none where there is none. -/
def itemOff (e n : Int) (item : Nat) : Option (Nat × Bool) :=
  if e = -1 then some (headerOff item, decide (3 ≤ item))
  else if 0 ≤ e ∧ e < n ∧ item ≤ 10 then some (entryOff e.toNat item, decide (4 ≤ item))
  else none

/-- R376: the place of an item of the group's frame; the number of its entries is read from it where the item is one of an entry's. -/
def Issue.itemAt (x : Issue) (e : Int) (item : Nat) : Except Nat (Option (Nat × Bool)) :=
  if e < 0 ∨ item > 10 then .ok (itemOff e 0 item) else (x.s.frameItem x.w x.g 0).map fun n => itemOff e n item

def execRqrd (a : RqArgs) (s : State) : Host.Outcome State Fault Refusal :=
  runWord (.rqrd a) s fun x =>
    match x.itemAt (x.g.rdS a.sa.val).val a.item.val with
    | .error _ => .done (x.s.dieFatal x.w.core.die)
    | .ok none => .trap badItem
    | .ok (some (off, lanes)) =>
      let vals : Except Nat (List Int) :=
        if lanes then x.s.frameLanes x.w x.g off
        else (x.s.frameItem x.w x.g off).map fun v => List.replicate x.g.lanes.length v
      match vals with
      | .error _ => .done (x.s.dieFatal x.w.core.die)
      | .ok vs => .done (x.s.updGroup x.r fun g => g.updLanes x.active fun i l => l.wr a.d (Word.ofInt (vs.getD i 0)))

/-- Tables 2 and 3: the items that RQWR writes. -/
def itemWritable (e : Int) (item : Nat) : Bool :=
  if e = -1 then item == 2 || item == 3 || decide (5 ≤ item ∧ item ≤ 13)
  else item == 2 || decide (4 ≤ item ∧ item ≤ 9)

/-- The lanes that take a value of an entry's lane item. -/
def Issue.itemLanes (x : Issue) (e : Int) : List Nat :=
  if e = -1 then x.active
  else
    let set := ((x.g.handler.map fun h => h.sets.getD e.toNat []).getD [])
    x.active.filter set.contains

def execRqwr (a : RqArgs) (s : State) : Host.Outcome State Fault Refusal :=
  runWord (.rqwr a) s fun x =>
    let e := (x.g.rdS a.sa.val).val
    let low := (x.reg a.d x.low).val
    match x.itemAt e a.item.val with
    | .error _ => .done (x.s.dieFatal x.w.core.die)
    | .ok none => .trap badItem
    | .ok (some (off, lanes)) =>
      if !itemWritable e a.item.val ∨ (e = -1 ∧ a.item.val = 2 ∧ (low < 0 ∨ low > 27)) then .trap badItem
      else .done (x.s.orFatal x.w.core.die
        (if lanes then foldE (fun (s : State) i => s.putLane x.w x.g off i (x.reg a.d i).val) x.s (x.itemLanes e)
         else x.s.putItem x.w x.g off low))

/-- R377: the entries behind entry e move up by one. -/
def State.moveUp (s : State) (w : Workgroup) (g : Group) (e n : Nat) : Except Nat State := do
  let s ← foldE (fun (s : State) h =>
    foldE (fun (s : State) i => do
      let (s, vs) ← s.frameRead w h (entryOff (e + 1 + i) 0) 193
      s.frameWrite w h (entryOff (e + i) 0) vs) s (List.range (n - 1 - e))) s g.hws
  s.putItem w g 0 (n - 1 : Nat)

def execRqdrop (sa : Fin 27) (s : State) : Host.Outcome State Fault Refusal :=
  runWord (.rqdrop sa) s fun x =>
    let e := (x.g.rdS sa.val).val
    match (if e < 0 then .ok 0 else x.s.frameItem x.w x.g 0 : Except Nat Int) with
    | .error _ => .done (x.s.dieFatal x.w.core.die)
    | .ok n =>
      if e < 0 ∨ e ≥ n then .trap badItem
      else match x.g.handler.map (x.s.entryAt x.w x.g e.toNat) with
      | none => .trap { cause := 5 }
      | some (.error _) => .done (x.s.dieFatal x.w.core.die)
      | some (.ok y) =>
        let slot := match decodeWord y.word.val with
          | .ok i => i.slotOf
          | .error _ => none
        let s := x.s.updGroup x.r fun g =>
          let g := match y.slot, slot with
            | true, some k => g.wrW k (g.rdW k - 1)
            | _, _ => g
          { g with handler := g.handler.map fun h =>
              { h with sets := dropAt h.sets e.toNat, issued := dropAt h.issued e.toNat, past := dropAt h.past e.toNat,
                       copies := dropAt h.copies e.toNat } }
        let s := if y.rec_.isEmpty then s else s.unpark y.copy false
        .done (s.orFatal x.w.core.die (s.moveUp x.w x.g e.toNat n.toNat))

/-! ## Deferred faults (R359, R378) -/

/-- R359: whether a record awaits delivery to a group that lives. -/
def State.awaited (s : State) (r : FaultRec) : Bool :=
  match r.wg with
  | none => false
  | some id =>
    match s.groupAt id r.hw with
    | some g => (s.wgOf id).isSome && !g.live.isEmpty
    | none => false

/-- R378: the oldest record of a fault domain that no group awaits, with what an action makes of it. -/
def Issue.dfpop (x : Issue) (d : Reg) (remove retry : Bool) : Eff :=
  let q := (x.s.dfqOf x.w.region).getD ⟨0, x.w.region.ctx, [], 0⟩
  let r := q.recs.find? fun r => !x.s.awaited r
  let ws := (r.map FaultRec.words).getD []
  let s := x.s.updGroup x.r fun g => g.updLanes x.active fun i l => l.wr d (Word.ofInt (wordAt ws i))
  match r with
  | none => .done s
  | some r =>
    if !remove then .done s
    else
      let s := s.updDfq x.w.region fun q =>
        { q with recs := match indexOf? (fun y => y == r) q.recs with
            | some i => dropAt q.recs i
            | none => q.recs }
      .done (s.unpark r.copy retry)

def execDfpopRead (d : Reg) (s : State) : Host.Outcome State Fault Refusal :=
  runWord (.dfpopRead d) s (·.dfpop d false false)
def execDfpopRetry (d : Reg) (s : State) : Host.Outcome State Fault Refusal :=
  runWord (.dfpopRetry d) s (·.dfpop d true true)
def execDfpopSkip (d : Reg) (s : State) : Host.Outcome State Fault Refusal :=
  runWord (.dfpopSkip d) s (·.dfpop d true false)

/-! ## HALT (R382) -/

def execHalt (timeout : Trits 4) (s : State) : Host.Outcome State Fault Refusal :=
  runWord (.halt timeout) s fun x =>
    let m : Monitor := { instr := x.i, pc := x.pc, payload := x.pay, addr := 0, token := 0, last := zeroW,
                         deadline := x.s0.deadlineIn x.w (x.imm timeout), fault := none }
    .done (x.s0.updGroup x.r fun g => { g with phase := .waiting m })

/-! ## Pre-emption (R361, R379, R380) -/

/-- R361: whether a region is a block's or one of its descendants'. -/
def Region.under (r : Region) (block : Int) (ctx : Nat) : Bool := r.ctx.num == ctx && r.ancestors.contains block

/-- R361: whether a mark stands over a region. -/
def State.marked (s : State) (r : Region) : Bool := s.marks.any fun m => r.under m.block m.ctx.num

/-- R379: the mark of a region is set, if it does not stand; with the number of resident workgroups that it affects. -/
def State.mark (s : State) (c : Ctx) (block : Int) : State × Int :=
  let mine := s.wgs.filter fun w => w.st != .suspended && w.region.under block c.num
  let n : Int := ((mine.filter fun w => w.st == .resident).length : Nat)
  if s.marks.any fun m => m.block == block && m.ctx.num == c.num then (s, n)
  else ({ s with marks := s.marks ++ [⟨s.nextId, block, c, mine.map (·.id), 0⟩], nextId := s.nextId + 1 }, n)

def execPreempt (a : SdSa) (s : State) : Host.Outcome State Fault Refusal :=
  runWord (.preempt a) s fun x =>
    let va := (x.g.rdS a.sa.val).val
    match x.s0.resolveVirt x.w.who .read 3 va with
    | .error c => .trap { cause := c }
    | .ok (s, _) =>
      match s.readRegion x.w.core.die x.w.region.ctx va with
      | .error 0 => .done (x.setS (x.next s) a.sd.val (-1))
      | .error _ => .done ((x.next s).dieFatal x.w.core.die)
      | .ok (s, _) =>
        let (s, n) := (x.next s).mark x.w.region.ctx va
        .done (x.setS s a.sd.val n)

/-- The workgroup whose image is at an address. -/
def State.imaged (s : State) (ctx : Nat) (va : Int) : Option Workgroup :=
  s.wgs.find? fun w => w.region.ctx.num == ctx && w.image == va

/-- R380: CTXSV begins a forced save. Of a workgroup that a mark or an earlier CTXSV is saving already it gives 0 and changes nothing,
its groups still running in their grace period or not (DESIGN CHOICE, log 25). -/
def execCtxsv (a : SdSa) (s : State) : Host.Outcome State Fault Refusal :=
  runWord (.ctxsv a) s fun x =>
    match x.s.imaged x.w.region.ctx.num (x.g.rdS a.sa.val).val with
    | none => .done (x.setS x.s a.sd.val (-1))
    | some w =>
      if w.st ≠ .resident then .done (x.setS x.s a.sd.val (-1))
      else if w.save ≠ .none then .done (x.setS x.s a.sd.val 0)
      else
        let s := x.s.updWg w.id fun w =>
          { w with preq := true, preqAt := x.s.cycles (coreClu w.core), save := .stopping, ctxsv := true, forced := true }
        .done (x.setS s a.sd.val 1)

/-- R83, R369: whether the core, slots, run, positions and tiles of a suspended workgroup are free. -/
def State.canRestore (s : State) (w : Workgroup) : Bool :=
  let there := s.holders.filter fun v => v.core == w.core
  let near := s.holders.filter fun v => coreClu v.core == coreClu w.core
  let positions (v : Workgroup) : Nat := v.kernel.groups + s.drawnGroups v
  there.all (fun v => decide (w.gran + w.grans ≤ v.gran) || decide (v.gran + v.grans ≤ w.gran)) &&
    (there.flatMap (·.banks)).all (fun b => w.banks.all fun c => b.slot != c.slot || !(b.units.any c.units.contains)) &&
    decide (there.length < 27) && decide ((there.map positions).foldl (· + ·) 0 + positions w ≤ 81) &&
    near.all fun v => !(v.tiles.any w.tiles.contains)

/-- R365, Table 7: the header of the image of a workgroup, in a state, with the diversion entry that it takes and its overrun. -/
def Workgroup.header (w : Workgroup) (st entry late : Nat) : List Int :=
  [(st : Int), (w.core.core : Int) + 19683 * w.core.cluster + 387420489 * w.core.die, w.index.val, w.region.number.val,
    w.kernel.threads, w.gran * granule, w.grans, entry, late, w.saveIdx] ++ List.replicate 17 0

/-- R380: whether the words of a header are those of a suspended workgroup's image, whatever its overrun. -/
def Workgroup.headerOk (w : Workgroup) (ws : List Int) : Bool :=
  (List.range 27).all fun i => i == 8 || wordAt ws i == wordAt (w.header 2 (w.entry.getD 0) 0) i

/-- A suspended workgroup holds its core again, under the items of its region as they are now (R409). Its mode stays as it was fixed
at placement (R59; DEDUCED, log 25). -/
def State.enterCore (s : State) (w : Workgroup) (r : Region) : State :=
  let s := s.updWg w.id fun v =>
    { v with st := .resident, save := .restoring, region := { r with supervisor := w.region.supervisor } }
  let s := s.updCore (coreIdx w.core) fun c =>
    { c with divs := c.divs.map fun e => if e.2.wg == w.id then (e.1, { e.2 with st := .zero }) else e }
  s.orFatal w.core.die (s.structWrite (structWho w.core.die w.region.ctx) w.image [3])

/-- R369 steps 1 and 2: a restore takes its resources, and its entry holds arrivals; the region's items are read (R409). -/
def State.beginRestore (s : State) (w : Workgroup) : State :=
  match s.readRegion w.core.die w.region.ctx w.region.block with
  | .error 0 => s.enterCore w w.region
  | .error _ => s.dieFatal w.core.die
  | .ok (s, r) => s.enterCore w r

def execCtxld (a : SdSa) (s : State) : Host.Outcome State Fault Refusal :=
  runWord (.ctxld a) s fun x =>
    let va := (x.g.rdS a.sa.val).val
    let refuse : Eff := .done (x.setS x.s a.sd.val (-1))
    match x.s.structRead (structWho x.w.core.die x.w.region.ctx) va 27 with
    | .error _ => refuse
    | .ok (s, vs) =>
      match s.imaged x.w.region.ctx.num va with
      | none => refuse
      | some w =>
        if w.st ≠ .suspended ∨ !w.headerOk vs then refuse
        else if s.canRestore w && !s.marked w.region then .done (x.setS (s.beginRestore w) a.sd.val 1)
        else .done (x.setS (s.updWg w.id fun w => { w with save := .restoring }) a.sd.val 0)

/-! ## The end of a workgroup (R82, R311, R338, R381) -/

/-- R279: the elements of an atomic that are still to be performed are; one that fails leaves a record (R285). -/
def State.atomLeft (w : Workgroup) (r : GroupRef) (s : State) (p : Pending) : State :=
  match p.instr.bind atomicOf with
  | none => s
  | some (a, cas) =>
    let wd : Width := if a.tryte then .t else .w
    p.todo.foldl (fun s m =>
      let part := (lanePart p.lanes m.lane).getD (PendLane.new m.lane kZero)
      match s.atomOne w r p.id a.op cas wd part m with
      | .ok (s, _) => s
      | .error c => s.noteLate { recordOf s w r.hw c p.pc with lanes := [m.lane % 27], addr := elemAddr wd part m.elem } w.region) s

/-- Stores that have passed their checks are performed, and what is left of atomics, whatever becomes of their group. -/
def State.performLeft (s : State) (w : Workgroup) : State :=
  (s.groupsOf w.id).foldl (fun s g => g.pend.foldl (State.atomLeft w g.ref) (s.settleStores g.ref fun _ => true)) s

/-- A workgroup is gone: what it completed is released at package scope, its resources and its place in the budget are free,
its kernel node counts it, and its records are for DFPOP. -/
def State.goneWg (s : State) (w : Workgroup) : State :=
  let core := coreIdx w.core
  let s := (((s.performLeft w).cleanL1 core).drainUpdates).emptySets core w.id
  let late (r : FaultRec) : FaultRec := if r.wg == some w.id then { r with retired := true } else r
  let s : State :=
    { s with
      wgs := s.wgs.filter fun v => v.id != w.id
      groups := s.groups.filter fun g => g.wg != w.id
      dfqs := s.dfqs.map fun q => { q with recs := q.recs.map late }
      late := s.late.map fun e => (late e.1, e.2)
      marks := s.marks.map fun m => { m with waiting := m.waiting.filter (· != w.id) }
      knodes := s.knodes.map fun k => if some k.id == w.node then { k with gone := k.gone + 1 } else k }
  let s := s.updCore core fun c => { c with bins := c.bins.filter fun b => b.wg != w.id }
  s.dropTables core

/-! ## Arrivals answered, and images that fail (R367, R368) -/

/-- A result is returned to the issuer of an arrival; the word is performed with its last. -/
def State.answer (s : State) (issuer : Nat × Nat) (pend lane elem : Nat) (ts : List Tryte) : State :=
  let r : GroupRef := ⟨issuer.1, issuer.2⟩
  let last := !s.awaiting r pend
  s.updGroup r fun g =>
    { g with pend := g.pend.map fun p =>
        if p.id == pend then
          let wd : Width := match p.instr.bind atomicOf with
            | some (a, _) => if a.tryte then .t else .w
            | none => (p.instr.map loadWidth).getD .w
          { p with lanes := setPart p.lanes lane fun y => y.setElem wd elem ts, performed := last && p.todo.isEmpty }
        else p }

/-- An arrival that is discarded is answered as performed: a load or an atomic with free values (log 17). -/
def State.discardArrival (s : State) (a : Arrival) : State :=
  let free (issuer : Nat × Nat) (pend lane elem n : Nat) : State :=
    { s with free := s.free + n }.answer issuer pend lane elem ((List.range n).map fun i => Tryte.ofInt (Config.freeInt (s.free + i)))
  match a.kind with
  | .load _ len issuer pend lane elem => free issuer pend lane elem len
  | .atomic _ _ _ tryte _ _ issuer pend lane elem => free issuer pend lane elem (if tryte then 1 else 3)
  | _ => s

/-- R368: an image that cannot be written or read ends its workgroup. What its entry holds is discarded and answered as performed. -/
def State.imageFails (s : State) (w : Workgroup) (f : Nat × Int) : State :=
  let s := (s.endThreads w.id).forceNode w.node .neg
  let s := s.appendRecord w.core.die w.region { recordOf s w 0 f.1 zeroW with retired := true, addr := f.2 }
  let (mine, rest) := (s.coreAt (coreIdx w.core)).hold.partition fun h => h.wg == w.id
  let s := s.updCore (coreIdx w.core) fun c => { c with divs := c.divs.filter fun e => e.2.wg != w.id, hold := rest }
  let s := mine.foldl State.discardArrival s
  State.goneWg { s with arrivals := s.arrivals.filter fun a => a.2.by_ != w.id } w

/-! ## DIVSET (R381) -/

/-- The entry and core that a word names: none where an index is out of range. -/
def divIndex (v : Int) : Option (Nat × Nat) :=
  let e := fld v 0 8
  let c := fld v 9 17
  if 0 ≤ e ∧ e ≤ 242 ∧ 0 ≤ c ∧ c ≤ 242 ∧ fld v 18 26 = 0 then some (e.toNat, c.toNat) else none

def execDivsetQuery (a : SdSa) (s : State) : Host.Outcome State Fault Refusal :=
  runWord (.divsetQuery a) s fun x =>
    match divIndex (x.g.rdS a.sa.val).val with
    | none => .trap badItem
    | some (e, c) =>
      let core := x.s.coreAt (x.w.core.die * 243 + c)
      let v : Int := match SMap.find? core.divs e with
        | none => 1
        | some d => d.st.val + 3 * ((core.hold.filter fun h => h.wg == d.wg).length : Nat)
      .done (x.setS x.s a.sd.val v)

/-- R381: what a release of an entry does: the suspended workgroup is gone, and what was on its way for it is discarded. -/
def State.abandon (s : State) (core e : Nat) (d : DivEntry) : State :=
  match s.wgOf d.wg with
  | none => s
  | some w =>
    let s := match s.structWrite (structWho w.core.die w.region.ctx) w.image [0] with
      | .ok s => s
      | .error _ => s.dieFatal w.core.die
    let s := s.updCore core fun c =>
      { c with divs := SMap.erase c.divs e, hold := c.hold.filter fun h => !(h.wg == w.id && h.by_ == w.id) }
    let own (p : Pending) : Pending :=
      { p with stores := p.stores.filter fun e => !w.ownsPlace e.place, todo := p.todo.filter fun m => !m.places.any w.ownsPlace }
    let s : State :=
      { s with
        arrivals := s.arrivals.filter fun a => a.2.by_ != w.id
        groups := s.groups.map fun g => if g.wg == w.id then { g with pend := g.pend.map own } else g }
    (s.forceNode w.node .zero).goneWg w

def execDivsetRelease (a : SdSa) (s : State) : Host.Outcome State Fault Refusal :=
  runWord (.divsetRelease a) s fun x =>
    match divIndex (x.g.rdS a.sa.val).val with
    | none => .trap badItem
    | some (e, c) =>
      let core := x.w.core.die * 243 + c
      match SMap.find? (x.s.coreAt core).divs e with
      | some d => if d.st = .neg then .done (x.setS (x.s.abandon core e d) a.sd.val 1) else .done (x.setS x.s a.sd.val (-1))
      | none => .done (x.setS x.s a.sd.val (-1))

end Sys2Proof.Machine
end

