-- ==== Sys2Proof/Machine/Tables.lean ====
section
/-! DEFINITION. Writing the tables that shape computation (17_compute_tables.md R390 to R393), the attribute, window and
translation words (18_system_tables.md R416 to R422), and the counter words (19_counters.md R423 to R434). -/

namespace Sys2Proof.Machine

/-! ## Tables that shape computation -/

/-- R392: an entry is written whole and every core of the presented device drops its copy; none where the region has no
block or the write fails. -/
def State.putEntry (s : State) (w : Workgroup) (off : Nat) (vs : List Int) : Option State :=
  let c := w.region.ctx
  if w.region.comptab = 0 then none
  else match s.structWrite (structWho w.core.die c) (w.region.comptab + (off : Int)) vs with
    | .error _ => none
    | .ok s =>
      let s := s.drainUpdates
      let drop (e : Nat × CoreState) : Nat × CoreState :=
        if c.dies.contains (coreDie e.1) then
          (e.1, { e.2 with tables := e.2.tables.filter fun t =>
            !(t.block == w.region.comptab && t.ctx == c.num && t.offset == off) })
        else e
      some { s with cores := s.cores.map drop }

/-- The write under way of a group's table word. -/
def TabWrite.by_ (r : GroupRef) (t : TabWrite) : Bool := t.wg == r.wg && t.hw == r.hw

/-- R392: a table word. One that is refused, or whose write would fail, has status − at once; another holds its group, and its
write is under way until HELD_WORD_COMPLETION tries the word again, with the operands that it had. -/
def Issue.tableWrite (x : Issue) (kd : Nat) (entry : Option (Nat × List Int)) : Eff :=
  match x.s0.tabWrites.find? (TabWrite.by_ x.r) with
  | some t =>
    let s : State := { x.s with tabWrites := x.s.tabWrites.filter fun t => !t.by_ x.r }
    match s.putEntry x.w t.offset (t.words.map (·.val)) with
    | some s => x.status s kd 1
    | none => x.status s kd (-1)
  | none =>
    match entry.bind fun e => (x.s0.putEntry x.w e.1 e.2).map fun _ => e with
    | some (off, vs) =>
      .hold { x.s0 with tabWrites := x.s0.tabWrites ++
        [⟨x.r.wg, x.r.hw, x.w.region.comptab, x.w.region.ctx.num, off, vs.map Word.ofInt⟩] }
    | none => x.status x.s kd (-1)

/-- R393: the entry of FMTSET, none where it is refused. -/
def fmtEntry (idx v : Int) : Option (Nat × List Int) :=
  if 9 ≤ idx ∧ idx ≤ 26 ∧ (v = 0 ∨ (fmtOfWord v).isSome) then some (fmtOffset idx.toNat, [v]) else none

def execFmtset (a : TabArgs) (s : State) : Host.Outcome State Fault Refusal :=
  runWord (.fmtset a) s fun x => x.tableWrite a.kd.val (fmtEntry (x.src a.b x.low) (x.reg a.a x.low).val)

/-- R393, R388: the entry of SHPSET. -/
def shapeEntry (idx : Int) (vs : List Int) : Option (Nat × List Int) :=
  if 0 ≤ idx ∧ idx ≤ 80 ∧ (vs.all (· == 0) ∨ !(shapeOfWords vs).extents.isEmpty) then some (shapeOffset idx.toNat, vs) else none

def execShpset (a : ShpsetArgs) (s : State) : Host.Outcome State Fault Refusal :=
  runWord (.shpset a) s fun x =>
    x.tableWrite a.kd.val (shapeEntry (x.src a.b x.low) ((List.range 6).map fun i => (x.greg (a.a.val + i) x.low).val))

/-- R393: the sources that the active lanes supply, by position. -/
def Issue.sources (x : Issue) (a : Reg) : List (Nat × Int) :=
  if x.w.kernel.width = 81 then x.active.map fun l => (l, tryteOf (x.reg a l).val 0)
  else x.active.flatMap fun l => [0, 1, 2].map fun t => (27 * t + l, tryteOf (x.reg a l).val t)

/-- R389, R393: the entry of XPSET. -/
def patternEntry (idx : Int) (src : List (Nat × Int)) : Option (Nat × List Int) :=
  if 0 ≤ idx ∧ idx ≤ 80 ∧ src.all (fun e => decide (-1 ≤ e.2 ∧ e.2 ≤ 80)) then
    let pos (p : Nat) : Int := ((src.find? fun e => e.1 == p).map (·.2)).getD (-1)
    some (patternOffset idx.toNat,
      (List.range 27).map fun i => pos (3 * i) + 19683 * pos (3 * i + 1) + 19683 * 19683 * pos (3 * i + 2))
  else none

def execXpset (a : TabArgs) (s : State) : Host.Outcome State Fault Refusal :=
  runWord (.xpset a) s fun x => x.tableWrite a.kd.val (patternEntry (x.src a.b x.low) (x.sources a.a))

/-! ## Attribute entries and windows (R418, R419) -/

/-- Whether an access that has passed its checks is still to be performed and may not be yet: the elements of an atomic, or a release
that waits (R251). -/
def State.unsettled (s : State) : Bool :=
  s.groups.any fun g => g.pend.any fun p => !p.todo.isEmpty || (p.isRelease && !p.stores.isEmpty && s.releaseWaits g.ref p.id)

/-- Every store that has passed its checks is performed: what a word that waits for accesses waits for. -/
def State.settleAll (s : State) : State :=
  (s.groups.map Group.ref).foldl (fun s r => s.settleStores r fun _ => true) s

/-- R418: the refusals of RATSET. -/
def ratOk (tab idx v : Int) : Bool :=
  decide (tab < 0) && tab % 81 == 0 && decide (0 ≤ idx ∧ idx ≤ 26) && (v == 0 || (attrOf v).isSome)

def execRatset (a : SdSaB) (s : State) : Host.Outcome State Fault Refusal :=
  runWord (.ratset a) s fun x =>
    let tab := (x.g.rdS a.sa.val).val
    let v := (x.g.rdS (a.sa.val + 1)).val
    let idx := x.simm a.b
    let refuse : Eff := .done (x.setS x.s a.sd.val (-1))
    if !ratOk tab idx v then refuse
    else if x.s0.unsettled then .hold x.s0
    else match x.s.structWrite (structWho x.w.core.die x.w.region.ctx) (tab + 3 * idx) [v] with
      | .error _ => refuse
      | .ok s =>
        let s := s.drainUpdates
        let keep (t : AttrCopy) : Bool := !(t.tab == tab && (t.index : Int) == idx)
        let s : State := { s with cores := s.cores.map fun e => (e.1, { e.2 with attrs := e.2.attrs.filter keep }) }
        .done (x.setS s.settleAll a.sd.val 1)

/-- R419: the byte lines of a window leave every last-level cache. -/
def State.dropWindow (s : State) (n : Nat) : State :=
  match s.window n with
  | some w => s.dropBytes w.die w.lp w.base w.len
  | none => s

def execWinset (a : SdSaB) (s : State) : Host.Outcome State Fault Refusal :=
  runWord (.winset a) s fun x =>
    let v (i : Nat) : Word := x.g.rdS (a.sa.val + i)
    let idx := x.simm a.b
    if idx < 0 ∨ idx > 26 ∨ (windowOf (v 0).val (v 1).val (v 2).val).isNone then .done (x.setS x.s a.sd.val (-1))
    else if x.s0.unsettled then .hold x.s0
    else
      let s := x.s.settleAll.dropWindow idx.toNat
      let ws := (List.range 3).foldl (fun (m : SMap Word) i => m.set zeroW (3 * idx.toNat + i) (v i)) s.windows
      .done (x.setS { s with windows := ws } a.sd.val 1)

/-! ## Translation caches (R420, R421) -/

/-- The lines of a core's L1 that meet a test are written back and leave. -/
def State.flushWhere (s : State) (core : Nat) (p : L1Line → Bool) : State :=
  let is := (List.range (s.coreAt core).l1.length).filter fun i => (((s.coreAt core).l1[i]?).map p).getD false
  let s := is.foldl (fun s i => s.writeBackAt core i) s
  s.updCore core fun c => { c with l1 := c.l1.filter fun l => !p l }

/-- R420: entries that meet a test leave every TLB, after what used them is performed, and the lines of their pages leave
every L1. -/
def State.dropLeaves (s : State) (drop : TlbEntry → Bool) (line : List TlbEntry → L1Line → Bool) : State :=
  let gone := (s.cores.flatMap fun e => e.2.tlb.filter drop) ++ (s.ctlbs.flatMap fun e => e.2.filter drop)
  let s : State :=
    { s with
      cores := s.cores.map fun e => (e.1, { e.2 with tlb := e.2.tlb.filter fun t => !drop t })
      ctlbs := (s.ctlbs.map fun e => (e.1, e.2.filter fun t => !drop t)).filter fun e => !e.2.isEmpty }
  let s := s.settleAll
  (s.cores.map (·.1)).foldl (fun s c => s.flushWhere c (line gone)) s

/-- R420 step 1. -/
def Issue.tlbRelease (x : Issue) : State := ((x.s.settleStores x.r fun _ => true).releaseAt x.w .pkg).drainUpdates

/-- R420: the number of a context, where it is one. -/
def ctxNum (v : Int) : Option Nat := if 0 ≤ v ∧ v ≤ 728 then some v.toNat else none

def execTlbinv (sa sb : Fin 27) (s : State) : Host.Outcome State Fault Refusal :=
  runWord (.tlbinv sa sb) s fun x =>
    if x.s0.unsettled then .hold x.s0 else
    match ctxNum (x.g.rdS sb.val).val with
    | none => .done x.s
    | some c =>
      let pn := (x.g.rdS sa.val).val / 19683
      let page (l : L1Line) : Int := l.line * 81 / 19683
      .done (x.tlbRelease.dropLeaves (tlbMatch c pn)
        fun gone l => l.ctx == c && (page l == pn || gone.any fun e => tlbMatch c (page l) e))

def execTlbinvCtx (sb : Fin 27) (s : State) : Host.Outcome State Fault Refusal :=
  runWord (.tlbinvCtx sb) s fun x =>
    if x.s0.unsettled then .hold x.s0 else
    match ctxNum (x.g.rdS sb.val).val with
    | none => .done x.s
    | some c => .done (x.tlbRelease.dropLeaves (fun e => e.ctx == c) fun _ l => l.ctx == c)

/-- R421, R406. -/
def execTlbfl (s : State) : Host.Outcome State Fault Refusal :=
  runWord .tlbfl s fun x =>
    if x.s0.unsettled then .hold x.s0 else
    let s := x.tlbRelease.dropLeaves (fun _ => true) fun _ _ => true
    .done { s with cores := s.cores.map fun e => (e.1, { e.2 with attrs := [] }) }

/-! ## Instruction caches (R422) -/

/-- Lines that meet a test leave the instruction caches of the presented device, for its context. -/
def State.dropFetched (s : State) (c : Ctx) (p : Int → Bool) : State :=
  { s with cores := s.cores.map fun e =>
      if c.dies.contains (coreDie e.1) then
        (e.1, { e.2 with icache := e.2.icache.filter fun l => !(l.ctx == c.num && p l.line) })
      else e }

def execIcinv (a : LineArgs) (s : State) : Host.Outcome State Fault Refusal :=
  runWord (.icinv a) s fun x =>
    let lines := (x.lineAddrs a).map (· / 81)
    let c := x.w.region.ctx
    let s := (x.s.settleStores x.r fun _ => true)
    let s := (lines.foldl (fun s l => s.cleanLine (coreIdx x.w.core) c.num l) s).drainUpdates
    .done (s.dropFetched c lines.contains)

def execIcinvAll (s : State) : Host.Outcome State Fault Refusal :=
  runWord .icinvAll s fun x =>
    let s := ((x.s.settleStores x.r fun _ => true).cleanL1 (coreIdx x.w.core)).drainUpdates
    .done (s.dropFetched x.w.region.ctx fun _ => true)

/-! ## Counters (R426 to R434) -/

/-- A counter address: its kind, instance and physical die. -/
structure CounterAddr where
  kind : Nat
  inst : Nat
  die : Nat
deriving DecidableEq, Repr

/-- R427, Table 2: the instances of a kind, none for a number that is no kind. -/
def counterInsts (kind : Nat) : Option Nat :=
  if 1 ≤ kind ∧ kind ≤ 5 then some 408
  else if kind = 9 then some 5
  else if kind = 10 then some 4
  else if kind = 11 then some 9
  else if 18 ≤ kind ∧ kind ≤ 21 then some 27
  else if kind = 27 ∨ kind = 28 then some 243
  else if 36 ≤ kind ∧ kind ≤ 38 then some 27
  else if kind = 39 then some 1
  else if kind = 40 then some 9
  else none

/-- R427: kinds whose die field is 0. -/
def counterDieless (kind : Nat) : Bool := kind == 11 || decide (36 ≤ kind)

/-- R426: the counter that an address names, none where it is invalid. -/
def counterOf (c : Ctx) (v : Int) : Option CounterAddr :=
  let kind := fld v 0 5
  let inst := fld v 6 14
  let die := fld v 15 17
  match counterInsts kind.toNat, c.dies[die.toNat]? with
  | some n, some d =>
    if fld v 18 26 ≠ 0 ∨ kind < 0 ∨ inst < 0 ∨ inst ≥ (n : Int) ∨ die < 0 ∨ (counterDieless kind.toNat ∧ die ≠ 0) ∨
        (kind = 10 ∧ inst = (d : Int)) then none
    else some ⟨kind.toNat, inst.toNat, if counterDieless kind.toNat then 0 else d⟩
  | _, _ => none

/-- R318, R427: the lost-locality score of a core. -/
def State.lostScore (s : State) (core : Nat) : Nat := ((s.coreAt core).lost.filter fun t => decide (s.cycles (core / 9) < t + 2187)).length

/-- R428: the word of a counter that belongs to a region. -/
def regionCounter (r : Region) (a : CounterAddr) : Int :=
  if a.kind = 39 then r.block + 48 else r.attrtab + 81 + 9 * (a.inst : Int) + 3 * ((a.kind - 36 : Nat) : Int)

/-- R430: whether code of a workgroup may use a programmable counter. -/
def progAllowed (w : Workgroup) (p : ProgCounter) : Bool :=
  w.region.supervisor || p.owner == some w.region.ctx.num || p.sel.trit 7 == 0

def CoreState.prog (c : CoreState) (n : Nat) : ProgCounter := c.progs.get .off n
def CoreState.setProg (c : CoreState) (n : Nat) (p : ProgCounter) : CoreState := { c with progs := c.progs.set .off n p }

def invalidCount : Int := -3812798742493

/-- R432: the value that CNTRD gives, none where a structure access fails. -/
def State.counterValue (s : State) (w : Workgroup) (a : CounterAddr) : Except Nat (State × Int) :=
  if a.kind = 40 then
    let p := (s.coreAt (coreIdx w.core)).prog a.inst
    .ok (s, if progAllowed w p then p.value else invalidCount)
  else if 36 ≤ a.kind then s.coherentRead w.who (regionCounter w.region a)
  else if a.kind = 27 then .ok (s, s.lostScore (a.die * 243 + a.inst))
  else .ok (s, s.counter a.kind a.die a.inst)

def execCntrd (a : CntrdArgs) (s : State) : Host.Outcome State Fault Refusal :=
  runWord (.cntrd a) s fun x =>
    let put (s : State) (v : Int) : Eff := .done (s.updGroup x.r fun g => g.updLanes x.active fun _ l => l.wr a.d (Word.ofInt v))
    match counterOf x.w.region.ctx (x.g.rdS a.sa.val).val with
    | none => put x.s invalidCount
    | some c =>
      match x.s.counterValue x.w c with
      | .error _ => .done (x.s.dieFatal x.w.core.die)
      | .ok (s, v) => put s v

/-- R433: a clear, with its status. -/
def State.clearCounter (s : State) (w : Workgroup) (a : CounterAddr) : State × Int :=
  if a.kind = 40 then
    let core := coreIdx w.core
    let p := (s.coreAt core).prog a.inst
    if progAllowed w p then (s.updCore core fun c => c.setProg a.inst { p with value := 0 }, 1) else (s, -1)
  else if 36 ≤ a.kind then
    (s.orFatal w.core.die (s.coherentWrite w.who (regionCounter w.region a) (if a.kind = 38 then -1 else 0)), 1)
  else if a.kind = 27 then (s, -1)
  else ({ s with counters := s.counters.erase (counterKey a.kind a.die a.inst) }, 1)

/-- R427: kinds that supervisor code alone clears. -/
def counterClearS (kind : Nat) : Bool := decide (kind ≤ 26) || kind == 28 || kind == 39

def execCntclr (a : SdSa) (s : State) : Host.Outcome State Fault Refusal :=
  runWord (.cntclr a) s fun x =>
    match counterOf x.w.region.ctx (x.g.rdS a.sa.val).val with
    | none => .done (x.setS x.s a.sd.val (-1))
    | some c =>
      if counterClearS c.kind && !x.w.region.supervisor then .trap { cause := 5 }
      else
        let (s, v) := x.s.clearCounter x.w c
        .done (x.setS s a.sd.val v)

/-- R429, R434: whether a selector is well formed. -/
def selectorOk (v : Int) : Bool :=
  fld v 8 26 == 0 && tritAt v 7 != -1 && tritAt v 6 != -1 && decide (0 ≤ fld v 0 5 ∧ fld v 0 5 ≤ 12)

def execCntsel (a : SdSaB) (s : State) : Host.Outcome State Fault Refusal :=
  runWord (.cntsel a) s fun x =>
    let sel := x.g.rdS a.sa.val
    let n := x.simm a.b
    let core := coreIdx x.w.core
    if tritAt sel.val 6 = 0 ∧ !x.w.region.supervisor then .trap { cause := 5 }
    else if n < 0 ∨ n > 8 ∨ !selectorOk sel.val ∨ !progAllowed x.w ((x.s.coreAt core).prog n.toNat) then
      .done (x.setS x.s a.sd.val (-1))
    else
      .done (x.setS (x.s.updCore core fun c => c.setProg n.toNat ⟨sel, some x.w.region.ctx.num, 0⟩) a.sd.val 1)

end Sys2Proof.Machine
end

