-- ==== Sys2Proof/Machine/MatrixEvents.lean ====
section
/-! DEFINITION. The turns of the matrix unit (09_matrix_unit.md R195, R196, R201 to R205, R209 to R216) and the completion of
its words. -/

namespace Sys2Proof.Machine

/-! ## Scratchpad operands (R205, R209) -/

/-- A free choice for each of some keys: those chosen. -/
def State.flips {α : Type} (s : State) (ks : List α) : State × List α :=
  ks.foldl (fun (acc : State × List α) k =>
    let (b, s) := acc.1.flip
    (s, if b then acc.2 ++ [k] else acc.2)) (s, [])

/-- R205: what of an overwritten operand is old or new together: a word, or for a copy's write a line of 81 trytes. -/
def OldTryte.unit (o : OldTryte) : Option Nat × Nat := (o.copy, if o.copy.isSome then o.off / 81 else o.off / 3)

/-- R205: whether a copy has still to write in a line of a core's scratchpad. -/
def State.moving (s : State) (core : Nat) (unit : Option Nat × Nat) : Bool :=
  match unit.1.bind s.copyOf with
  | none => false
  | some c =>
    c.stage == 0 && ((c.sliceCtx 0).map fun x =>
      let line (i : Nat) : Int := match x.dstSpace with
        | .scr => ((c.owner.gran * granule : Nat) + (x.dstAt i).addr) / 81
        | .clu => (x.dstAt i).addr % (scrSize : Int) / 81
        | _ => -1
      let there : Bool := x.dstSpace == .scr || x.dstSpace == .clu
      there && (List.range (x.box.foldl (· * ·) 1)).any fun i =>
        x.writes i && line i == (unit.2 : Int) && !(c.wrote.any fun w => w.idx == i) &&
          (x.dstSpace == .scr || coreClu c.owner.core * 9 + ((x.dstAt i).addr / (scrSize : Int)).toNat == core)).getD false

/-- The old trytes of operands written since the word of an entry issued, as far as they are read so (R205, free). A line that a
copy has written in part, and has more to write in, is old (DESIGN CHOICE, log 54). -/
def State.oldView (s : State) (w : Workgroup) (e : MatEntry) : State × SMap Tryte :=
  let olds := (s.unitAt (coreClu w.core)).olds.filter fun o => o.core == coreIdx w.core && decide (e.id < o.since)
  let (s, back) := s.flips ((olds.map OldTryte.unit).eraseDups.filter fun u => !s.moving (coreIdx w.core) u)
  (s, (olds.reverse.filter fun o => s.moving (coreIdx w.core) o.unit || back.contains o.unit).foldl (fun m o => SMap.insert m o.off o.val) [])

/-- The trytes of a workgroup's run as a matrix operation reads them now, where they are not those that stand: each word that a
pending store of the workgroup writes, or that a store has written since the operation was issued, is old or new (R205, free). -/
def State.operandView (s : State) (w : Workgroup) (e : MatEntry) : State × SMap Tryte :=
  let core := coreIdx w.core
  let (s, olds) := s.oldView w e
  let es := (s.groupsOf w.id).flatMap fun g => g.pend.flatMap fun p => p.stores.filterMap fun e =>
    match e.place with
    | .scr c o => if c = core then some (o, e.val) else none
    | _ => none
  let (s, new) := s.flips (es.map fun e => e.1 / 3).eraseDups
  (s, (es.filter fun e => new.contains (e.1 / 3)).foldl (fun m e => SMap.insert m e.1 e.2) olds)

/-- Tryte `off` of a workgroup's run under a view. -/
def State.operand (s : State) (view : SMap Tryte) (w : Workgroup) (off : Int) : Tryte :=
  let o := w.gran * granule + off.toNat
  (SMap.find? view o).getD (s.scrGet (coreIdx w.core) o)

/-- R240: whether a span of a workgroup's run holds an uncorrectable error. -/
def State.badSpan (s : State) (w : Workgroup) (off : Int) (len : Nat) : Bool :=
  let lo := coreIdx w.core * scrSize + w.gran * granule + off.toNat
  s.bad.scr.any fun n => decide (lo / 3 ≤ n) && decide (n ≤ (lo + len - 1) / 3)

/-- R209: the record of a matrix operand with an uncorrectable error. -/
def State.matrixRecord (s : State) (w : Workgroup) (e : MatEntry) (addr : Int) : State :=
  s.noteLate { recordOf s w e.hw 15 e.pc with addr := addr } w.region

/-! ## Loads (R195, R210) -/

/-- R43: the top p trits of an element of w trits. -/
def topPlanes (w p : Nat) (v : Int) : Int := dropInt (w - p) v * 3 ^ (w - p)

/-- R42, R43, R195: cell (j, c) of a plane-sliced image. -/
def slicedCell (get : Int → Tryte) (w p : Nat) (j c : Nat) : Int :=
  let per := 9 / Nat.max 1 w
  let elem (k : Nat) : Int :=
    ((List.range p).map fun (l : Nat) =>
      (get (81 * (w * k + l : Nat) + (c / 9 : Nat))).trit (c % 9) * 3 ^ (w - 1 - l)).foldl (· + ·) 0
  ((List.range per).map fun i => elem (per * j + i) * 3 ^ (w * i)).foldl (· + ·) 0

/-- A map of the nonzero trytes of keys below n. -/
def tabulate (n : Nat) (f : Nat → Tryte) : SMap Tryte :=
  (List.range n).filterMap fun k => if f k = zeroT then none else some (k, f k)

/-- R195, R210: the cells and scales of an image. -/
def planeOf (get : Int → Tryte) (d : MatDesc) (planes : Option Nat) : Plane :=
  let blocks := depthOf d.wf / 9
  let cell (k : Nat) : Tryte := match planes with
    | none => get (243 * (k % 729) + k / 729 : Nat)
    | some p => Tryte.ofInt (slicedCell get d.wf.w p (k / 729) (k % 729))
  { tag := zeroW, desc := d, cells := tabulate 177147 cell
    blocks := if d.scaled then tabulate (blocks * 729) fun k => get (177147 + blocks * (k % 729) + k / 729 : Nat) else []
    bands := if d.scaled then tabulate 9 fun v => get (177147 + 729 * blocks + v : Nat) else [] }

/-! ## The order of sums (R204) -/

/-- The exponent of a band scale, none where it is NaN (R41). -/
def bandExp (t : Tryte) : Option Int := if fld t.val 5 8 = 0 then some (fld t.val 0 4) else none

/-- R204: Emax and the truncated sum of the block terms. -/
def blockSum (ts : List FVal) : FVal :=
  let lead (v : FVal) : Int := match v with
    | .fin m e => leadPos m + e
    | _ => 0
  match ts.filter fun v => !v.isZero with
  | [] => .zero
  | x :: xs =>
    let emax := (xs.map lead).foldl (fun a b => if a < b then b else a) (lead x)
    (x :: xs).foldl (fun acc v => match v with
      | .fin m e =>
        let k := emax - 54 - e
        (acc.add (if k > 0 then .fin (dropInt k.toNat m) (e + k) else .fin m e)).1
      | _ => acc) .zero

/-- What a pass makes of a tile element. -/
inductive PassElem where
  | kept
  | nan
  | clamped (v : Word)
  | value (v : Word)
deriving DecidableEq, Repr

/-- R204: the new value of a tile element from its block terms and its band exponent. -/
def accumulate (acc : Word) (ts : List FVal) (bv : Int) : PassElem :=
  match tf27.decode acc.val with
  | .fin m e =>
    match blockSum ts with
    | .fin sm se =>
      let v := ((FVal.fin m e).add (.fin sm (se + bv))).1
      (match v with
        | .fin vm ve =>
          if vm ≠ 0 ∧ leadPos vm + ve > 120 then .clamped (Word.ofInt (tf27.topCode (vm < 0)))
          else .value (Word.ofInt (tf27.round v false).1)
        | _ => .kept)
    | _ => .kept
  | _ => .kept

/-- R204: column c of a row, from the row's elements and block scales. -/
def passColumn (p : Plane) (x sa : List FVal) (acc : Word) (c : Nat) : PassElem :=
  let k := depthOf p.desc.wf
  let per := perTryte p.desc.wf
  let weight (i : Nat) : FVal :=
    p.desc.wf.decode (wrapInt p.desc.wf.w
      (dropInt (p.desc.wf.w * (i % per)) (SMap.get zeroT p.cells (i / per * 729 + c)).val))
  let one : FVal := .fin 1 0
  let sw (j : Nat) : FVal := if p.desc.scaled then sc9.decode (SMap.get zeroT p.blocks (j * 729 + c)).val else one
  let band : Option Int := if p.desc.scaled then bandExp (SMap.get zeroT p.bands (c / 81)) else some 0
  let js := List.range (k / 9)
  match band with
  | none => .nan
  | some bv =>
    if js.any fun j => (sa.getD j one).isNan || (sw j).isNan then .nan
    else
      let term (j : Nat) : FVal :=
        let prods := (List.range 9).map fun i => ((x.getD (9 * j + i) .zero).mul (weight (9 * j + i))).1
        let sum := prods.foldl (fun a b => (a.add b).1) FVal.zero
        ((sum.mul (sa.getD j one)).1.mul (sw j)).1
      accumulate acc (js.map term) bv

/-- R196: the elements and block scales of an activation row. -/
def rowOperands (get : Int → Tryte) (d : MatDesc) : List FVal × List FVal :=
  let k := depthOf d.wf
  let e := perTryte d.af
  let x := (List.range k).map fun i =>
    d.af.decode (wrapInt d.af.w (dropInt (d.af.w * (i % e)) (get (i / e : Nat)).val))
  let sa := if d.scaled then (List.range (k / 9)).map fun j => sc9.decode (get (d.rowData + j : Nat)).val else []
  (x, sa)

/-- R204: a row of a tile through the stationary plane, with the elements clamped and made NaN. -/
def MatUnit.runRow (u : MatUnit) (tile row : Nat) (x sa : List FVal) : MatUnit × Nat × Nat :=
  (List.range 729).foldl (fun (acc : MatUnit × Nat × Nat) c =>
    let (u, cl, nn) := acc
    let key := tileKey tile row c
    let put (v : Word) : MatUnit := { u with tiles := u.tiles.set zeroW key v }
    match passColumn u.pl0 x sa (SMap.get zeroW u.tiles key) c with
    | .kept => (u, cl, nn)
    | .nan => (put (Word.ofInt tf27.nanCode), cl, nn + 1)
    | .clamped v => (put v, cl + 1, nn)
    | .value v => (put v, cl, nn)) (u, 0, 0)

/-- Tile rows are zeroed. -/
def MatUnit.zeroRows (u : MatUnit) (tile : Nat) (rows : List Nat) : MatUnit :=
  { u with tiles := rows.foldl (fun (m : SMap Word) r => SMap.clear m (tileKey tile r 0) (tileKey tile r 729)) u.tiles }

/-! ## Consuming (R205) -/

/-- A row operation reads its rows and writes them; rows with a failed operand are left, with one record. -/
def State.consumeRow (s : State) (clu : Nat) (w : Workgroup) (e : MatEntry) (tile : Nat) (rows : List (Nat × Int))
    (zeroed : List Nat) : State :=
  let (s, view) := s.operandView w e
  let d := (s.unitAt clu).pl0.desc
  let (bad, good) := rows.partition fun r => s.badSpan w r.2 d.rowLen
  let (u, cl, nn) := good.foldl (fun (acc : MatUnit × Nat × Nat) r =>
    let (x, sa) := rowOperands (fun o => s.operand view w (r.2 + o)) d
    let (u, c, n) := acc.1.runRow tile r.1 x sa
    (u, acc.2.1 + c, acc.2.2 + n)) ((s.unitAt clu).zeroRows tile zeroed, 0, 0)
  let s := ((s.updUnit clu fun _ => u).bump 18 (clu / 27) (clu % 27) cl).bump 19 (clu / 27) (clu % 27) nn
  match bad with
  | [] => s
  | b :: _ => s.matrixRecord w e b.2

/-- R43, R210: whether a span that a load reads holds an uncorrectable error: of a dense image all of it, of a plane-sliced one
the top p lines of each slab and the scales. -/
def State.badImage (s : State) (w : Workgroup) (off : Int) (d : MatDesc) (planes : Option Nat) : Bool :=
  match planes with
  | none => s.badSpan w off d.imageLen
  | some p =>
    ((List.range (2187 / Nat.max 1 d.wf.w)).any fun k => s.badSpan w (off + (81 * d.wf.w * k : Nat)) (81 * p)) ||
      (d.scaled && s.badSpan w (off + 177147) (d.imageLen - 177147))

/-- A load reads its image into the shadow plane; one with a failed operand is discarded and its tag retired (R209). -/
def State.consumeLoad (s : State) (clu : Nat) (w : Workgroup) (e : MatEntry) (tag : Word) (off : Int) (d : MatDesc)
    (planes : Option Nat) : State :=
  if s.badImage w off d planes then
    (s.updUnit clu fun u => { u.emptyShadow with
      pending := u.pending.filter (fun p => p.1 != tag), queue := u.queue.filter fun x => x != e }).matrixRecord w e off
  else
    let (s, view) := s.operandView w e
    let p := planeOf (fun o => s.operand view w (off + o)) d planes
    s.updUnit clu fun u => { u with pl1 := p }

def MatUnit.mark (u : MatUnit) (e : MatEntry) (f : MatEntry → MatEntry) : MatUnit :=
  { u with queue := u.queue.map fun x => if x == e then f x else x }

/-- The operation of a granted entry reads its operands. -/
def State.consume (s : State) (clu : Nat) (e : MatEntry) : State :=
  if e.consumed then s
  else match s.wgOf e.wg with
    | none => s
    | some w =>
      let s := match e.op with
        | .row _ tile _ rows zeroed _ => s.consumeRow clu w e tile rows zeroed
        | .load tag off d planes => s.consumeLoad clu w e tag off d planes
        | _ => s
      s.updUnit clu fun u =>
        let u := u.mark e fun x => { x with consumed := true }
        if u.queue.any MatEntry.toRead then u else { u with olds := [] }

def MatEntry.inQueue (e : MatEntry) (q : GroupRef) : Bool := e.wg == q.wg && e.hw == q.hw
def MatUnit.head (u : MatUnit) (q : GroupRef) : Option MatEntry := u.queue.find? (·.inQueue q)
def MatUnit.dropEntry (u : MatUnit) (e : MatEntry) : MatUnit := { u with queue := u.queue.filter fun x => x != e }

def MatEntry.isLoad (e : MatEntry) : Bool := match e.op with
  | .load .. => true
  | _ => false
def MatEntry.isPass (e : MatEntry) : Bool := match e.op with
  | .row .. => !e.op.isZeroing
  | _ => false

/-- R198: whether an entry accepted before this one names a tile. -/
def MatUnit.tileBefore (u : MatUnit) (e : MatEntry) (tile : Nat) (but : List MatEntry) : Bool :=
  (u.queue.takeWhile fun x => x != e).any fun x => x.op.tile == some tile && !but.contains x

/-! ## Turns (R201 to R203, R210, R211, R213, R214) -/

/-- R211: whether a row operation of the stationary tag comes after a MACT that is to replace the plane next: it waits for the swap,
which makes it stale. One whose plane has still to be emptied of another tag does not hold it (R203; DESIGN CHOICE, log 54). -/
def MatUnit.afterAct (u : MatUnit) (e : MatEntry) : Bool :=
  (u.queue.takeWhile fun x => x != e).any fun x => match x.op with
    | .act t => u.tagState t == .shadow || (u.tagState t == .pending && u.pl1.tag == zeroW)
    | _ => false

/-- Whether a group issues no more words before its save. -/
def Group.isStopped (g : Group) : Bool :=
  g.live.isEmpty || (match g.phase with
    | .stopped => true
    | .reforming => true
    | _ => false)

/-- R206: whether the matrix work of a workgroup is being drained by a save. -/
def State.draining (s : State) (wg : Nat) : Bool :=
  match s.wgOf wg with
  | some w => w.st == .resident && w.save == .stopping && (s.groupsOf wg).all Group.isStopped
  | none => false

/-- R202: the entries that join the pass of a granted row operation. Those of a workgroup that is being drained wait for no swap
(R206). -/
def MatUnit.fused (u : MatUnit) (e : MatEntry) (tag : Word) (tile third : Nat) (drained : Bool) : List MatEntry :=
  (u.queue.foldl (fun (acc : List MatEntry × List Nat) x =>
    let (joined, blocks) := acc
    match x.op with
    | .row t a b rows _ _ =>
      let before := (u.queue.takeWhile fun y => y != x).filter fun y => y.wg == x.wg && y.hw == x.hw
      if x != e && !rows.isEmpty && t == tag && a == tile && x.wg == e.wg && !blocks.contains b &&
          before.all (fun y => y.id == x.id && joined.contains y) && !u.tileBefore x tile joined &&
          (drained || !u.afterAct x) then
        (joined ++ [x], blocks ++ [b])
      else acc
    | _ => acc) ([e], [third])).1

/-- R203: a stale entry is discarded and counted. -/
def State.discardStale (s : State) (clu : Nat) (e : MatEntry) : State :=
  (s.updUnit clu (·.dropEntry e)).countStale clu e.wg e.hw 1

/-- R211: the swap. -/
def MatUnit.swap (u : MatUnit) : MatUnit := { u.emptyShadow with pl0 := u.pl1 }

/-- What the head of a queue does in its turn, where it is ready. -/
def State.matrixGrant (s : State) (clu : Nat) (q : GroupRef) : Option State := do
  let u := s.unitAt clu
  let e ← u.head q
  if e.granted || s.dieDown (clu / 27) then none
  else
    match e.op with
    | .load .. =>
      if u.pl1.tag = zeroW ∧ !(u.queue.any fun x => x.isLoad && x.granted) then
        some (s.updUnit clu fun u => u.mark e fun x => { x with granted := true })
      else none
    | .act tag =>
      (match u.tagState tag with
        | .stationary => some (s.updUnit clu (·.dropEntry e))
        | .retired => some (s.discardStale clu e)
        | .pending => none
        | .shadow =>
          let earlier := (u.queue.takeWhile fun x => x != e).any fun x => match x.op with
            | .row t _ _ _ _ _ => x.isPass && t == u.pl0.tag
            | _ => false
          if earlier || u.queue.any (fun x => x.isPass && x.granted) then none else some (s.updUnit clu fun u => (u.dropEntry e).swap))
    | .zero tile =>
      if u.tileBefore e tile [] then none
      else some (s.updUnit clu fun u => (u.dropEntry e).zeroRows tile (List.range 27))
    | .write tile row cells =>
      if u.tileBefore e tile [] then none
      else some (s.updUnit clu fun u =>
        { u.dropEntry e with tiles := cells.foldl (fun (m : SMap Word) c => m.set zeroW (tileKey tile row c.1) c.2) u.tiles })
    | .store tile _ _ _ =>
      if u.tileBefore e tile [] then none else some (s.updUnit clu fun u => u.mark e fun x => { x with granted := true })
    | .row tag tile third rows zeroed _ =>
      if rows.isEmpty then
        (if u.tileBefore e tile [] then none else some (s.updUnit clu fun u => (u.dropEntry e).zeroRows tile zeroed))
      else match u.tagState tag with
        | .retired => some (s.discardStale clu e)
        | .stationary =>
          let drained := s.draining e.wg
          if u.tileBefore e tile [] || u.queue.any (fun x => x.isPass && x.granted) || (!drained && u.afterAct e) then none
          else
            let js := u.fused e tag tile third drained
            let s := s.updUnit clu fun u =>
              { u with queue := u.queue.map fun x => if js.contains x then { x with granted := true } else x }
            some (s.bump 20 (clu / 27) (clu % 27) js.length)
        | _ => none

/-- R201: whether queue a comes before queue b in the round that begins after the queue granted last. The order of the queues is
that of their workgroups and group indexes (DESIGN CHOICE, log 54). -/
def MatUnit.turnBefore (u : MatUnit) (a b : Nat × Nat) : Bool :=
  let lt (x y : Nat × Nat) : Bool := decide (x.1 < y.1) || (x.1 == y.1 && decide (x.2 < y.2))
  let (p, q) := (lt u.last a, lt u.last b)
  (p && !q) || (p == q && lt a b)

def MatEntry.queueOf (e : MatEntry) : Nat × Nat := (e.wg, e.hw)

/-- R201: whether no other queue with a ready head comes first. -/
def State.nextInTurn (s : State) (clu : Nat) (q : GroupRef) : Bool :=
  let u := s.unitAt clu
  !((u.queue.map MatEntry.queueOf).eraseDups.any fun o =>
    o != (q.wg, q.hw) && u.turnBefore o (q.wg, q.hw) && (s.matrixGrant clu ⟨o.1, o.2⟩).isSome)

/-- R201: turns are granted round-robin over the queues whose heads are ready. -/
def State.matrixTurn (s : State) (clu : Nat) (q : GroupRef) : Option State :=
  if s.nextInTurn clu q then
    (s.matrixGrant clu q).map fun t => t.updUnit clu fun u => { u with last := (q.wg, q.hw) }
  else none

def execMatrixTurnGrant (cluster : Nat) (queue : GroupRef) (s : State) : Host.Outcome State Fault Refusal :=
  runEvent s (·.matrixTurn cluster queue)

/-- R205: the granted head of a queue, or a granted entry of the running pass in it, reads the last of its operands. -/
def State.consumedAt (s : State) (clu : Nat) (q : GroupRef) : Option State := do
  let e ← (s.unitAt clu).queue.find? fun x => x.inQueue q && x.granted && !x.consumed && (x.isLoad || x.isPass)
  return s.consume clu e

def execConsumedEvent (cluster : Nat) (queue : GroupRef) (s : State) : Host.Outcome State Fault Refusal :=
  runEvent s (·.consumedAt cluster queue)

/-- R210: the granted load of a unit is complete: its tag is shadow, unless it was retired meanwhile (R192), or is retired now
because its workgroup is being saved (R206). -/
def State.loadComplete (s : State) (clu : Nat) : Option State := do
  let e ← (s.unitAt clu).queue.find? fun x => x.isLoad && x.granted
  let s := s.consume clu e
  let u := s.unitAt clu
  match u.queue.find? fun x => x.isLoad && x.granted with
  | none => some s
  | some e =>
    match e.op with
    | .load tag _ _ _ =>
      let u' := u.dropEntry e
      let live := u.pending.any fun p => p.1 == tag
      some (s.updUnit clu fun _ =>
        if live && !s.draining e.wg then
          { u' with pl1 := { u'.pl1 with tag := tag }, shadowWg := some e.wg, pending := u'.pending.filter fun p => p.1 != tag }
        else { u'.emptyShadow with pending := u'.pending.filter fun p => p.1 != tag })
    | _ => none

def execMatrixLoadComplete (cluster : Nat) (s : State) : Host.Outcome State Fault Refusal :=
  runEvent s (·.loadComplete cluster)

/-- R212: the pass that runs is complete. -/
def State.passComplete (s : State) (clu : Nat) : Option State :=
  let js := (s.unitAt clu).queue.filter fun x => x.isPass && x.granted
  if js.isEmpty then none
  else
    let s := js.foldl (fun s e => s.consume clu e) s
    some (s.updUnit clu fun u => { u with queue := u.queue.filter fun x => !(x.isPass && x.granted) })

def execMatrixPassComplete (cluster : Nat) (s : State) : Host.Outcome State Fault Refusal :=
  runEvent s (·.passComplete cluster)

/-! ## MSTORE (R215) -/

/-- R215: the trytes of a row of a tile under a format. -/
def rowImage (f : Fmt) (get : Nat → Word) : List Tryte :=
  if f.w = 27 then (List.range 729).flatMap fun c => toTrytes 3 (get c).val
  else
    let e := perTryte f
    (List.range (storeRow f)).map fun t =>
      Tryte.ofInt (((List.range e).map fun i =>
        let c := e * t + i
        if c < 729 then (f.round (tf27.decode (get c).val) false).1 * 3 ^ (f.w * i) else 0).foldl (· + ·) 0)

/-- A granted store of the head of a queue is performed, and its tile zeroed in the zero form. -/
def State.storeComplete (s : State) (clu : Nat) (q : GroupRef) : Option State := do
  let u := s.unitAt clu
  let e ← u.head q
  let w ← s.wgOf e.wg
  match e.op with
  | .store tile off f zero =>
    if !e.granted then none
    else
      let len := storeRow f
      let core := coreIdx w.core
      let base := core * scrSize + w.gran * granule + off.toNat
      let trytes := (List.range 27).flatMap fun r => rowImage f fun c => SMap.get zeroW u.tiles (tileKey tile r c)
      let scr := ((List.range trytes.length).zip trytes).foldl (fun (m : SMap Tryte) t => m.set zeroT (base + t.1) t.2) s.scr
      let bad := s.bad.scr.filter fun n => !(decide (base / 3 ≤ n) && decide (n < (base + 27 * len) / 3))
      let s : State := { s with scr := scr, bad := { s.bad with scr := bad } }
      some (s.updUnit clu fun u =>
        let u := u.dropEntry e
        if zero then u.zeroRows tile (List.range 27) else u)
  | _ => none

def execMstoreComplete (cluster : Nat) (queue : GroupRef) (s : State) : Host.Outcome State Fault Refusal :=
  runEvent s (·.storeComplete cluster queue)

/-! ## Words that complete (R63, R214, R216) -/

/-- Pending word n of a group, with its workgroup. -/
def State.pendAt (s : State) (r : GroupRef) (n : Nat) : Option (Workgroup × Group × Pending) := do
  let w ← s.wgOf r.wg
  let g ← s.groupOf r
  let p ← g.pend[n]?
  if s.dieDown w.core.die then none else return (w, g, p)

/-- An s register that a word wrote while its workgroup was away enters the image, where the image stands for the group (R112). -/
def State.imageScalar (s : State) (w : Workgroup) (r : GroupRef) (n : Nat) : State :=
  match s.groupOf r with
  | none => s
  | some g =>
    if n = 0 ∨ (w.framed g).isEmpty ∨ w.save = .saving ∨ w.save = .entered then s
    else match s.imageWrite w (81 + 243 * g.hw + 3 * n) [(g.rdS n).val] with
      | .ok s => s
      | .error f => s.imageFails w f

/-- A pending word completes. While its workgroup is away its registers are those of the image, and the decrement of its slot
is an arrival (R367). -/
def State.finishWord (s : State) (w : Workgroup) (r : GroupRef) (p : Pending) : State :=
  if w.entry.isNone then s.completePend r p
  else
    let s := (s.updGroup r fun g => (g.landAll p).dropPend p.id).progEvent (coreIdx w.core) 4 (some w.region.ctx.num)
    let s := if p.counted then
        { s with arrivals := s.arrivals ++ [(coreIdx w.core, ⟨w.id, w.id, .decrement r.hw p.slot⟩)] }
      else s
    match p.dest with
    | some d => if d.toS then s.imageScalar w r d.num else s
    | none => s

def execMatrixReadComplete (g : GroupRef) (n : Nat) (s : State) : Host.Outcome State Fault Refusal :=
  runEvent s fun s => do
    let (w, _, p) ← s.pendAt g n
    match p.instr with
    | some (.mrd _) => some (s.finishWord w g p)
    | _ => none

/-- R65: a pending word gets its result. It completes with it, or is captured first, so that reads ahead of its completion may
see the new value (free). -/
def State.resultOf (s : State) (w : Workgroup) (r : GroupRef) (p : Pending) (lanes : List PendLane) : State :=
  let p' : Pending := { p with lanes := lanes, performed := true }
  let (early, s) := s.flip
  if early then s.updGroup r fun g => { g with pend := g.pend.map fun q => if q.id == p.id then p' else q }
  else s.finishWord w r p'

/-- R216: an MSTAT that is due completes with its item as it stands. A read ahead of its completion may see the item as it stood a
little earlier (R65, log 54). -/
def State.mstatDone (s : State) (r : GroupRef) (n : Nat) : Option State := do
  let (w, g, p) ← s.pendAt r n
  match p.instr with
  | some (.mstat a) =>
    let clu := coreClu w.core
    if !(s.unitAt clu).statDue g p.id a.when_ then none
    else
      let (s, v) := s.matItem clu g a.item.val
      let p' : Pending := { p with lanes := p.lanes.map fun l => { l with r0 := Word.ofInt v }, performed := true }
      let (early, s) := if p.performed then (false, s) else s.flip
      if early then some (s.updGroup r fun g => { g with pend := g.pend.map fun q => if q.id == p.id then p' else q })
      else some ((if a.item.val = 0 then s.updGroup r fun g => { g with stale := 0 } else s).finishWord w r p')
  | _ => none

def execMstatComplete (g : GroupRef) (n : Nat) (s : State) : Host.Outcome State Fault Refusal :=
  runEvent s (·.mstatDone g n)

end Sys2Proof.Machine
end

