-- ==== Sys2Proof/Machine/Sched.lean ====
section
/-! DEFINITION. The turns of the scheduler: the start of a run (14_queues.md R317, 03_execution.md R60 to R68), call subsets
due for release (08 R175), the delivery of records (16 R359, R371), words that were held, the completion of long-latency words
(R63), monitor waits (12 R282, 15 R342, 16 R382), and bins (R70 to R74). -/

namespace Sys2Proof.Machine

/-! ## Call subsets due for release (R175, R176) -/

/-- Whether a record's next subset is due: its released lanes have all parked or exited. -/
def CallRec.due (c : CallRec) (g : Group) : Bool := !c.held.isEmpty && c.returned g

/-- The subset of lowest target of record n is released: its lanes are ready at their target, or fail with a cause. -/
def Group.releaseAt (g : Group) (n : Nat) : Group × Option (Nat × CallRec × List (Nat × Word)) :=
  match g.calls[n]? with
  | none => (g, none)
  | some c =>
    if !c.due g then (g, none)
    else
      let t := leastInt (c.held.map fun e => e.2.val)
      let (go, wait) := c.held.partition fun e => e.2.val == t
      let live := go.filter fun e => (g.lane e.1).live
      let g : Group :=
        { g.updLanes (live.map (·.1)) (fun _ l => { l with st := .ready, pc := if (targetCause t).isNone then Word.ofInt t else l.pc })
          with calls := updAt g.calls n fun c => { c with held := wait, out := c.out ++ go.map (·.1) } }
      let g := g.parkMoved (live.map (·.1))
      match targetCause t with
      | some cause => if live.isEmpty then (g, none) else (g, some (cause, c, live))
      | none => (g, none)

/-- Every due record releases a subset, until one fails. -/
def Group.releaseDue (g : Group) : Group × Option (Nat × CallRec × List (Nat × Word)) :=
  (List.range g.calls.length).foldl (fun acc n => match acc.2 with
    | some _ => acc
    | none => acc.1.releaseAt n) (g, none)

/-- R176: the lanes of a failing subset trap with their targets, as an entry of the CALLI. -/
def calliEntry (g : Group) (cause : Nat) (c : CallRec) (ls : List (Nat × Word)) : ReEntry :=
  { pc := (g.lane ((ls.head?.map (·.1)).getD 0)).pc, word := c.word, payload := c.payload, cause := cause, detail := 0,
    slot := false, perf := false, set := ls.map (·.1), issued := true, past := false,
    lanes := ls.map fun e => { PendLane.new e.1 kAll with addr := e.2.val, cause := cause }, rec_ := [], copy := none }

/-! ## The delivery of records (R353, R359, R371) -/

/-- The oldest record due to a group; deferred ones come first. -/
def State.recordFor (s : State) (w : Workgroup) (g : Group) : Option FaultRec :=
  if g.handler.isSome || g.noRecord || g.resuming.isSome || g.live.isEmpty then none
  else
    let mine := ((s.dfqOf w.region).map (·.recs)).getD []
    let due := mine.filter fun r => r.wg == some w.id && g.hws.contains r.hw
    match due.find? (·.deferred) with
    | some r => some r
    | none => due.head?

/-- R352: the entry of a record, with its inner cause as the detail (R354, R355); R371 makes the cause of a deferred one the
inner cause of cause 21, and the record itself stays as it is. -/
def recordEntry (r : FaultRec) : ReEntry :=
  { pc := Word.ofInt r.pc, word := zeroW, payload := 0, cause := if r.deferred then 21 else r.cause, detail := if r.deferred then r.cause else r.inner, slot := false, perf := false,
    set := [], issued := false, past := false, lanes := [], rec_ := r.words.map Word.ofInt,
    copy := if r.parked then r.copy else none }

/-- R359: a record leaves its queue and is an asynchronous trap. -/
def State.deliver (s : State) (w : Workgroup) (g : Group) (r : FaultRec) : State :=
  let s := s.updDfq w.region fun q =>
    { q with recs := match indexOf? (fun y => y == r) q.recs with
        | some i => dropAt q.recs i
        | none => q.recs }
  let e := recordEntry r
  let t : TrapReq :=
    { cause := e.cause, detail := e.detail, head := some e, behind := [], count := 0, active := [], boundary := true, pc := e.pc }
  (s.updGroup g.ref Group.clearH).trapEnter g.ref t

/-! ## RUN_START (R317) -/

/-- The slots that a group runs on. -/
def Group.slots (g : Group) : List Nat := if g.lanes.length = 81 then [0, 1, 2] else [g.slot]

/-- R64, R68, R83: whether a group may be picked by its slot. -/
def State.eligible (s : State) (g : Group) : Bool :=
  (match s.wgOf g.wg with
    | some w => !w.resuming && w.st != .suspended
    | none => false) &&
  match g.phase with
  | .woken _ => true
  | .boundary =>
    g.mask.all (fun n => g.rdW n == 0) && (g.resuming.isSome || !g.ready.isEmpty || g.calls.any fun c => c.due g)
  | _ => false

/-- R317: the order in which a slot picks its groups. -/
def State.picksBefore (s : State) (a b : Group) : Bool :=
  let cls (g : Group) : Nat := ((s.wgOf g.wg).map fun w => classNum w.region.cls).getD 3
  let key (g : Group) : List Nat := [cls g, if g.ceded then 1 else 0, g.lastStart, g.placed, g.hw]
  decide (key a < key b)

/-- The group that a slot picks. -/
def State.pickGroup (s : State) (sl : SlotRef) : Option Group :=
  match s.groups.filter fun g => s.onSlot sl g && s.eligible g with
  | [] => none
  | g :: gs => some (gs.foldl (fun a b => if s.picksBefore b a then b else a) g)

/-- R179: a run of a group starts, and the groups that ceded a slot of it have done so. -/
def State.endCeding (s : State) (w : Workgroup) (g : Group) : State :=
  { s with groups := s.groups.map fun h =>
      if g.slots.any (fun n => (h.slot == n || h.lanes.length == 81) && (s.coreOf h) == some w.core) then { h with ceded := false }
      else h }

/-- A new run of a group begins (R60, R62, R68), or goes on where RESUME or a restore takes it up (R375). -/
def State.beginRun (s : State) (w : Workgroup) (g : Group) : State :=
  let started (s : State) : State :=
    let s := (s.endCeding w g).updGroup g.ref fun h => { h with phase := .running, lastStart := s.stamp, mask := [] }
    { s with stamp := s.stamp + 1 }.progEvent (coreIdx w.core) 2 (some w.region.ctx.num)
  if g.resuming.isSome then started (s.updGroup g.ref fun h => { h with run := { Run.none with count := h.run.count } })
  else
    let (g', fail) := g.releaseDue
    let s := s.updGroup g.ref fun _ => g'
    match fail with
    | some (cause, c, ls) =>
      let e := calliEntry g' cause c ls
      let t : TrapReq :=
        { cause := cause, detail := 0, head := some e, behind := [], count := 0, active := [], boundary := true, pc := e.pc }
      (s.updGroup g.ref Group.clearH).trapEnter g.ref t
    | none =>
      ((started (s.updGroup g.ref fun h => { h with run := .none }.closeCalls.clearH.chooseActive)).updGroup g.ref fun h =>
        if h.run.active.isEmpty then h.endRun [] else h).repairRegs g.ref (List.range g.lanes.length) ((List.range 9).map .h)

/-- A word that completes a wait counts in the run, and the run goes on behind it (R61). -/
def State.waitDone (s : State) (w : Workgroup) (g : Group) (m : Monitor) : State :=
  let s := (s.updGroup g.ref fun h => { h with phase := .running }.advance m.pc).progEvent (coreIdx w.core) 1 (some w.region.ctx.num)
  s.updGroup g.ref fun h => h.settleCalls g.run.active

/-- R344: the word that a barrier wait is replayed as, with what it holds. -/
def Monitor.asWord (m : Monitor) : Instr :=
  match m.instr with
  | .bar x => .barw ⟨x.sa, 0, x.space⟩
  | i => i

def Monitor.part (m : Monitor) (lane : Nat) : PendLane :=
  { PendLane.new lane kAll with addr := m.addr, d0 := Word.ofInt m.token }

/-- R362: the head entry of a group that a forced save stops, if it has one. -/
def forcedEntry (g : Group) : Option ReEntry :=
  let base : ReEntry :=
    { pc := g.wordPc, word := zeroW, payload := g.wordPay, cause := 0, detail := 0, slot := false, perf := false,
      set := g.run.active, issued := false, past := false, lanes := [], rec_ := [], copy := none }
  let prefixed : Option ReEntry := if g.run.payload ≠ 0 ∨ g.run.lits > 0 then some base else none
  let waits (m : Monitor) : Option ReEntry := match m.instr with
    | .waitm _ => some { base with word := wordOf m.instr }
    | .bar _ | .barw _ =>
      some { base with word := wordOf m.asWord, issued := true, lanes := [m.part (g.run.active.headD 0)] }
    | _ => prefixed
  match g.phase with
  | .waiting m => waits m
  | .woken m => waits m
  | _ =>
    match g.run.again with
    | some e => some e
    | none =>
      match g.run.held with
      | some (.fence _) | some (.cwb _) | some .cwbAll | some (.cinv _) | some .cinvAll =>
        some { base with word := wordOf (g.run.held.getD .nop) }
      | _ => prefixed

/-- R61, R282, R342: a woken group regains its slot. -/
def State.regain (s : State) (w : Workgroup) (g : Group) (m : Monitor) : State :=
  let thread := (g.lane (g.run.active.headD 0)).thread
  match m.fault with
  | some c =>
    let l := g.run.active.headD 0
    (s.updGroup g.ref fun h => { h with phase := .running }).takeFault g.ref (wordOf m.asWord) (fun _ => kAll)
      { cause := c, lanes := [(l, c)], cap := [m.part l], issued := true }
  | none =>
    match m.instr with
    | .waitm a => (s.waitDone w g m).updGroup g.ref fun h => h.wrS a.sd.val m.last
    | .bar ⟨_, sp⟩ => (s.acquireObject w g.ref sp thread m.addr).waitDone w g m
    | .barw ⟨_, _, sp⟩ => (s.acquireObject w g.ref sp thread m.addr).waitDone w g m
    | _ => s.waitDone w g m

/-- R317: a free slot picks a group; a ganged group needs its three slots free (R78). -/
def State.runStart (s : State) (sl : SlotRef) : Option State := do
  let g ← s.pickGroup sl
  let w ← s.wgOf g.wg
  if s.dieDown w.core.die || g.slots.any fun n => (s.running ⟨sl.core, n⟩).isSome then none
  else match g.phase with
    | .woken m => some (s.regain w g m)
    | _ =>
      match s.recordFor w g with
      | some r => some (s.deliver w g r)
      | none => some (s.beginRun w g)

def execRunStart (sl : SlotRef) (s : State) : Host.Outcome State Fault Refusal := runEvent s (·.runStart sl)

/-! ## Words that wait (R61, R63, R318, R321) -/

/-- The group on a slot takes its next turn at once. -/
def State.retryWord (s : State) (sl : SlotRef) : State := { s with agenda := .word sl :: s.agenda }

/-- R63, R200, R318: a word that stalled is tried again. -/
def State.stalledWord (s : State) (sl : SlotRef) : Option State := do
  let (_, g) ← s.running sl
  if g.run.held.isSome then none else return s.retryWord sl

def execStalledWordIssue (sl : SlotRef) (s : State) : Host.Outcome State Fault Refusal := runEvent s (·.stalledWord sl)

/-- R321: a word that holds its group is tried again, with its whole effect. -/
def State.heldWord (s : State) (sl : SlotRef) : Option State := do
  let (_, g) ← s.running sl
  if g.run.held.isSome then some (s.retryWord sl) else none

def execHeldWordCompletion (sl : SlotRef) (s : State) : Host.Outcome State Fault Refusal := runEvent s (·.heldWord sl)

/-! ## The completion of long-latency words (R63, Table 1) -/

/-- The acquire of a strong word (R252). -/
def acquireOf : Instr → Option Scope
  | .ldStrong x => fromForm x.form
  | .ldu x => fromForm x.form
  | .atom x => atom x
  | .atomr x => atom x
  | .cas x => atom x
  | _ => none
where
  atom (x : AtomArgs) : Option Scope := if MemOrder.acquires x.order then some x.scope else none
  fromQual (q : Qual) : Option Scope := if q.order = .pos then some q.scope else none
  fromForm (f : AccForm) : Option Scope := (AccForm.qual f).bind fromQual

/-- R285, R352: an atomic of which an element has failed after others were performed, as the entry that is re-issued: the undone
elements alone take part. -/
def Pending.undoneEntry (p : Pending) (es : List (Nat × Nat)) (lane cause : Nat) : ReEntry :=
  let trits (l : PendLane) : Trits 3 :=
    let on (j : Nat) : Int := if (elemsOf es l.lane).contains j then 1 else 0
    Trits.ofInt 3 (on 0 + 3 * on 1 + 9 * on 2)
  let part (l : PendLane) : PendLane := { l with pred := trits l, cause := if l.lane = lane then cause else 0 }
  { p.entry with cause := cause, perf := false, lanes := p.lanes.map part }

/-- The results of an atomic land, but for some elements, and it is pending no more. -/
def Group.landDone (g : Group) (p : Pending) (es : List (Nat × Nat)) : Group :=
  (g.landAll { p with lanes := p.lanes.map fun l => { l with landed := l.landed ++ elemsOf es l.lane } }).dropPend p.id

/-- R285: an element of an atomic fails after others were performed: its group traps where it stands, and the atomic heads the
queue (log 12), but for a fence that holds the group, which heads it before the atomic (R281). A group that a save has stopped is stopped again, at its handler's entry (R362). -/
def State.atomTraps (s : State) (r : GroupRef) (g : Group) (p : Pending) (m : MemElem) (cause : Nat) : State :=
  let es := s.undone r p
  let q := g.resuming
  let atHead := g.run.again.isSome && !g.run.behind
  let undone := p.undoneEntry es m.lane cause
  let (head, behind) : ReEntry × List ReEntry := match g.run.held, forcedEntry g with
    | some (.fence _), some f =>
      (f, undone :: ((q.map fun q => if atHead then q.entries else q.entries ++ q.head.toList).getD []))
    | _, f => (undone, (if atHead then [] else f.toList) ++ ((q.map fun q => q.entries ++ q.head.toList).getD []))
  let addr := ((lanePart p.lanes m.lane).map (·.addr)).getD 0
  let t : TrapReq :=
    { cause := cause, addr := addr, detail := 0, head := some head, behind := behind,
      count := g.run.count, active := (q.map (·.active)).getD g.run.active,
      boundary := (q.map (·.boundary)).getD (g.phase == .boundary || g.phase == .reforming || g.phase == .stopped), pc := p.pc }
  let s := (((s.withdraw r [p.id]).updGroup r fun g => g.landDone p es)).trapEnter r t
  if g.phase == .stopped then s.updGroup r fun g => if g.phase == .boundary then { g with phase := .stopped } else g else s

/-- R275: one element of a load is read, or goes to its diversion unit. -/
def State.readOne (s : State) (w : Workgroup) (r : GroupRef) (id : Nat) (m : MemElem) : Except Nat (State × Option (List Tryte)) :=
  let m := s.elemNow r.wg m
  match m.places with
  | .diverted g c o :: _ => .ok (s.arrive r.wg g c (.load o m.places.length (r.wg, r.hw) id m.lane m.elem), none)
  | _ => (s.readElem w.who true m.places).map fun x => (x.1, some x.2)

/-- R274: the next element of an access is performed: of an atomic, or of a load that was given back (R240). One that fails while its
workgroup is away leaves a record (R285). -/
def State.elemNext (s : State) (w : Workgroup) (r : GroupRef) (g : Group) (p : Pending) (wd : Width)
    (perform : State → PendLane → MemElem → Except Nat (State × Option (List Tryte))) : State :=
  match p.todo with
  | [] => s
  | m :: rest =>
    let part := (lanePart p.lanes m.lane).getD (PendLane.new m.lane kZero)
    let put (s : State) (lanes : List PendLane) : State :=
      let waits := s.awaiting r p.id
      s.updGroup r fun g => { g with pend := g.pend.map fun q =>
        if q.id == p.id then { q with lanes := lanes, todo := rest, performed := rest.isEmpty && !waits } else q }
    match perform s part m with
    | .ok (s, some ts) => put s (setPart p.lanes m.lane fun y => y.setElem wd m.elem ts)
    | .ok (s, none) => put s p.lanes
    | .error cause =>
      let s := s.refusedFills m.places
      if w.entry.isNone then s.atomTraps r g p m cause
      else put (s.noteLate { recordOf s w r.hw cause p.pc with lanes := [m.lane % 27], addr := part.addr } w.region) p.lanes

/-- R275, R279: a pending read or atomic that has been performed completes, as an acquire where it is one (R252); one with
elements left performs the next (R274), but not while its group holds at the write of a table entry, which it may not stop (R392). -/
def State.accessDone (s : State) (w : Workgroup) (r : GroupRef) (g : Group) (p : Pending) (i : Instr) : Option State :=
  if p.performed then
    some (State.finishWord (match acquireOf i with
      | some sc => s.acquireAt w sc
      | none => s) w r p)
  else
    if p.todo.isEmpty || s.tabWrites.any (fun t => t.wg == r.wg && t.hw == r.hw) then none
    else match atomicOf i with
      | some (a, cas) =>
        let wd : Width := if a.tryte then .t else .w
        some (s.elemNext w r g p wd fun s part m => s.atomOne w r p.id a.op cas wd part m)
      | none => some (s.elemNext w r g p (loadWidth i) fun s _ m => s.readOne w r p.id m)

/-- A load, ATOMR or CAS completes. -/
def State.readDone (s : State) (r : GroupRef) (n : Nat) : Option State := do
  let (w, g, p) ← s.pendAt r n
  let i ← p.instr
  match i with
  | .ld _ | .ldStrong _ | .ldu _ | .atomr _ | .cas _ => s.accessDone w r g p i
  | _ => none

def execMemoryReadComplete (g : GroupRef) (n : Nat) (s : State) : Host.Outcome State Fault Refusal :=
  runEvent s (·.readDone g n)

/-- R271, R367: whether a store's words are still on their way to diversion units. -/
def State.sending (s : State) (r : GroupRef) (pend : Nat) : Bool :=
  s.arrivals.any fun a => match a.2.kind with
    | .data _ _ issuer => issuer == some (r.wg, r.hw, pend)
    | _ => false

/-- R276, R251, R271: a store is performed, and completes once the diversion units have accepted what goes to them; a release
comes after every earlier access of its group. -/
def State.writeDone (s : State) (r : GroupRef) (n : Nat) : Option State := do
  let (w, g, p) ← s.pendAt r n
  let i ← p.instr
  match i with
  | .atom _ => s.accessDone w r g p i
  | .st _ | .stStrong _ | .stu _ =>
    if p.isRelease && s.releaseWaits r p.id then none
    else
      let s := s.settleStores r fun q => q.id == p.id
      return if s.sending r p.id then s else s.finishWord w r p
  | _ => none

def execMemoryWriteComplete (g : GroupRef) (n : Nat) (s : State) : Host.Outcome State Fault Refusal :=
  runEvent s (·.writeDone g n)

/-- R166: a long float completes. -/
def State.floatDone (s : State) (r : GroupRef) (n : Nat) : Option State := do
  let (w, _, p) ← s.pendAt r n
  if p.isFloat then some (s.finishWord w r p) else none

def execLongFloatComplete (g : GroupRef) (n : Nat) (s : State) : Host.Outcome State Fault Refusal :=
  runEvent s (·.floatDone g n)

/-- R336, R337: the engine takes a spawn; its result is 0 or more, or a refusal. -/
def State.spawnDone (s : State) (w : Workgroup) (r : GroupRef) (p : Pending) (coresident : Bool) : Option State := do
  let head ← p.lanes.head?
  let launch := (p.lanes.drop 1).map (·.d0)
  if p.performed then return s.finishWord w r p
  else
    let (s, v) ← s.spawnNow w head.addr launch coresident
    return s.resultOf w r p [{ head with r0 := Word.ofInt v }]

/-- R326, R328: the engine has taken the request of a copy or a spawn. -/
def State.engineDone (s : State) (r : GroupRef) (n : Nat) : Option State := do
  let (w, _, p) ← s.pendAt r n
  let i ← p.instr
  match i with
  | .cpy _ => some (s.finishWord w r p)
  | .cpys _ | .cpyf _ | .cpyl _ | .cpylFlush _ =>
    let id := ((p.lanes.head?).map fun (l : PendLane) => l.addr.toNat).getD 0
    if ((s.copyOf id).map (·.started)).getD true then some (s.finishWord w r p) else none
  | .spawn _ => s.spawnDone w r p false
  | .spawnCoresident _ => s.spawnDone w r p true
  | _ => none

def execEngineIssueComplete (g : GroupRef) (n : Nat) (s : State) : Host.Outcome State Fault Refusal :=
  runEvent s (·.engineDone g n)

/-! ## Bins (R70 to R74) -/

/-- R74: the slot of a fresh group: the bank that holds most of its threads. -/
def freshSlot (ls : List Lane) : Nat :=
  let n (b : Nat) : Nat := (ls.filter fun l => l.bank == b).length
  (List.range 3).foldl (fun a b => if n a < n b then b else a) 0

/-- The index of a fresh group. DESIGN CHOICE (log 55): R73 and R120 say its index among the workgroup's live groups and give no
rule of choice; here it is the least number that none of them has. -/
def State.freeHw (s : State) (wg : Nat) : Nat :=
  let used := (s.groupsOf wg).map (·.hw)
  ((List.range (used.length + 1)).find? fun n => !used.contains n).getD 0

/-- s1.. of a workgroup's launch scalars. -/
def launchRegs (ws : List Word) : SMap Word :=
  ((List.range ws.length).zip ws).foldl (fun (m : SMap Word) e => m.set zeroW (e.1 + 1) e.2) []

/-- R73: the fresh group of drawn threads. -/
def freshGroup (w : Workgroup) (hw slot stamp : Nat) (ls : List Lane) : Group :=
  { wg := w.id, hw := hw, slot := slot
    lanes := (ls.map fun l => { l with st := .ready, skip := 0, h := [] }) ++ List.replicate (27 - ls.length) Lane.absent
    s := launchRegs w.launch, w := [], pend := [], calls := [], phase := .boundary, run := .none, mask := [],
    lastStart := stamp, placed := stamp, ceded := false, handler := none, resuming := none, saveFrame := false, noRecord := false,
    cpys := 0, stale := 0 }

/-- R71: bin n of a core is drawn. -/
def State.drawBin (s : State) (core n : Nat) : State :=
  match (s.coreAt core).bins[n]? with
  | none => s
  | some b =>
    let s := s.updCore core fun c => { c with bins := dropAt c.bins n }
    match s.wgOf b.wg with
    | none => s
    | some w =>
      { s with groups := s.groups ++ [freshGroup w (s.freeHw b.wg) (freshSlot b.threads) s.stamp b.threads], stamp := s.stamp + 1 }

/-- R56, R72, R180: whether the bin unit may draw a group of a workgroup: the workgroup is resident and not about to be saved, and
it has a place of its own, or one of the core's 81, for the group. -/
def State.drawable (s : State) (w : Workgroup) : Bool :=
  let there := s.holders.filter fun v => v.core == w.core
  let groups (v : Workgroup) : Nat := v.kernel.groups + s.drawnGroups v
  w.st == .resident && !w.resuming && !w.preq &&
    (decide ((s.groupsOf w.id).length < w.kernel.groups) || decide ((there.map groups).foldl (· + ·) 0 < 81))

/-- Whether a bin may be drawn. -/
def State.binDrawable (s : State) (b : Bin) : Bool := ((s.wgOf b.wg).map s.drawable).getD true

/-- The oldest bin that meets a test. DESIGN CHOICE (log 55): of bins whose oldest threads were filed at one time, the one listed
first; the spec gives no tie rule. -/
def oldestBin (bins : List Bin) (p : Bin → Bool) : Option Nat :=
  ((List.range bins.length).zip bins).foldl (fun (acc : Option (Nat × Bin)) e =>
    if !p e.2 then acc
    else match acc with
      | none => some e
      | some a => if e.2.since < a.2.since then some e else acc) none |>.map (·.1)

/-- R71: room for a new bin of a workgroup: where every bin is in use the oldest of its own that holds threads is drawn, or, if it
has none, the oldest of the core. None while no such bin may be drawn (log 55). -/
def State.freeBin (s : State) (core wg : Nat) : Option State :=
  let bins := (s.coreAt core).bins
  let own (b : Bin) : Bool := b.wg == wg && !b.threads.isEmpty
  if bins.length < 81 then some s
  else if bins.any own then (oldestBin bins fun b => own b && s.binDrawable b).map (s.drawBin core)
  else (oldestBin bins fun b => !b.threads.isEmpty && s.binDrawable b).map (s.drawBin core)

/-- R71: a bin that is full is drawn, once it may be. -/
def State.drawFull (s : State) (core n : Nat) : State :=
  match (s.coreAt core).bins[n]? with
  | some b => if decide (b.threads.length ≥ 27) && s.binDrawable b then s.drawBin core n else s
  | none => s

/-- R71: a thread is filed: into the open bin of its key, or into a new one. None while it waits for a bin. -/
def State.fileThread (s : State) (core wg : Nat) (l : Lane) : Option State :=
  match indexOf? (fun (b : Bin) => b.wg == wg && b.pc == l.pc && decide (b.threads.length < 27)) (s.coreAt core).bins with
  | some n =>
    some ((s.updCore core fun c => { c with bins := updAt c.bins n fun b => { b with threads := b.threads ++ [l] } }).drawFull core n)
  | none => (s.freeBin core wg).map fun s =>
      s.updCore core fun c => { c with bins := c.bins ++ [⟨wg, l.pc, [l], s.cycles (core / 9)⟩] }

/-- R70, R127: the active threads of a group that issued REFORM are filed once its wait slots read 0. DESIGN CHOICE (log 55): in
ascending order of their lanes, which the spec leaves open; they wait together while a bin that they need cannot be freed. -/
def State.reformFile (s : State) (r : GroupRef) : Option State := do
  let w ← s.wgOf r.wg
  let g ← s.groupOf r
  if g.phase != .reforming || w.st != .resident || w.resuming || w.entry.isSome || !(g.w.all fun e => e.2 == 0) then none
  else
    let filed := g.run.active.map g.lane
    let g' := (g.updLanes g.run.active fun _ _ => Lane.absent).endRun []
    let s : State := if g'.live.isEmpty then { s with groups := s.groups.filter fun h => !(h.wg == r.wg && h.hw == r.hw) }
      else s.updGroup r fun _ => g'
    filed.foldlM (fun (s : State) l => s.fileThread (coreIdx w.core) w.id { l with h := [] }) s

def execReformFiling (g : GroupRef) (s : State) : Host.Outcome State Fault Refusal := runEvent s (·.reformFile g)

/-- R71, R72: a bin that has reached its age, or that has been full since it could not be drawn, is drawn. -/
def State.binAged (s : State) (core : CoreRef) (n : Nat) : Option State := do
  let b ← (s.coreAt (coreIdx core)).bins[n]?
  let w ← s.wgOf b.wg
  if !s.drawable w || (decide (s.cycles (coreClu w.core) < b.since + w.kernel.binAge) && decide (b.threads.length < 27)) then none
  else return s.drawBin (coreIdx core) n

def execBinAgeLimit (core : CoreRef) (bin : Nat) (s : State) : Host.Outcome State Fault Refusal :=
  runEvent s (·.binAged core bin)

/-! ## Monitor waits (R282, R342, R382) -/

def State.wake (s : State) (r : GroupRef) (m : Monitor) : State := s.updGroup r fun g => { g with phase := .woken m }

/-- A waiting group reads its word again: a changed word or phase, a broken object or a failure ends its wait. -/
def State.recheck (s : State) (r : GroupRef) : Option State := do
  let w ← s.wgOf r.wg
  let g ← s.groupOf r
  let thread := (g.lane (g.run.active.headD 0)).thread
  match g.phase with
  | .waiting m =>
    let read (sp : Space) (addr : Int) (go : State → Int → State) : Option State :=
      match s.monitorRead w r sp thread addr with
      | .error c => some (s.wake r { m with fault := some c })
      | .ok (_, none) => none
      | .ok (s, some v) => some (go s v)
    let phase (s : State) (v : Int) : State :=
      if tritAt v 26 = -1 then s.wake r { m with fault := some 20 }
      else if fld v 0 25 ≠ m.token then s.wake r m
      else s
    match m.instr with
    | .waitm a => read a.space m.addr fun s v =>
        let m := { m with last := Word.ofInt v }
        if v ≠ m.token then s.wake r m else s.updGroup r fun g => { g with phase := .waiting m }
    | .bar a => read a.space (m.addr + 6) phase
    | .barw a => read a.space (m.addr + 6) phase
    | _ => none
  | _ => none

def execMonitorRecheck (g : GroupRef) (s : State) : Host.Outcome State Fault Refusal := runEvent s (·.recheck g)

/-- The end of a wait whose time has passed. -/
def State.waitOver (s : State) (r : GroupRef) (p : Instr → Bool) : Option State := do
  let g ← s.groupOf r
  let w ← s.wgOf r.wg
  match g.phase with
  | .waiting m =>
    let t ← m.deadline
    if p m.instr && decide (t ≤ s.cycles (coreClu w.core)) then return s.wake r m else none
  | _ => none

/-- R282: the timeout of a WAITM. -/
def execWaitmTimeout (g : GroupRef) (s : State) : Host.Outcome State Fault Refusal :=
  runEvent s fun s => s.waitOver g fun i => match i with
    | .waitm _ => true
    | _ => false

/-- R382: the timeout of a HALT; its other wake events wake it where they happen. -/
def execHaltWake (g : GroupRef) (s : State) : Host.Outcome State Fault Refusal :=
  runEvent s fun s => s.waitOver g fun i => match i with
    | .halt _ => true
    | _ => false

end Sys2Proof.Machine
end

