-- ==== Sys2Proof/Machine/MemEvents.lean ====
section
/-! DEFINITION. The turns of the memory system (10_memories.md R223 to R241, 13_coded_regions.md R299 to R306), late fault
records (02 R51, 16 R359), soft errors (10 R240), and the turns of copies (15 R323 to R335). -/

namespace Sys2Proof.Machine

/-! ## Walks, fills and evictions -/

/-- R230, R237, R238: a page that misses in the TLBs of a workgroup's core is walked. -/
def State.pageWalk (s : State) (wg : Nat) (addr : Int) : Option State := do
  let w ← s.wgOf wg
  if s.dieDown w.core.die || (s.tlbFind (coreIdx w.core) w.region.ctx.num (addr / 19683)).isSome then none
  else match s.leafOf w.who (addr / 19683) with
    | .ok (s, _) => some s
    | .error _ => some (s.refusedAccess w.who 1 addr)

def execPageWalk (wg : Nat) (addr : Int) (s : State) : Host.Outcome State Fault Refusal := runEvent s (·.pageWalk wg addr)

/-- R48, R299: the line that holds an address enters the last-level cache. -/
def State.fillFor (s : State) (wg : Nat) (addr : Int) (coded : Bool) : Option State := do
  let w ← s.wgOf wg
  match s.resolveVirt w.who .read 1 addr with
  | .ok (s, .line p :: _) =>
    if p.key.coded != coded then none
    else match s.llcEnsure w.core.die p with
      | .ok s => some s
      | .error _ => none
  | .ok (s, .window p _ _ :: _) =>
    if coded then none
    else match s.llcEnsure w.core.die p with
      | .ok s => some s
      | .error _ => none
  | _ => none

def execLineFill (wg : Nat) (addr : Int) (s : State) : Host.Outcome State Fault Refusal :=
  runEvent s (·.fillFor wg addr false)
def execCodedBlockFill (wg : Nat) (addr : Int) (s : State) : Host.Outcome State Fault Refusal :=
  runEvent s (·.fillFor wg addr true)

def execL1Eviction (core : CoreRef) (ctx : Nat) (line : Int) (s : State) : Host.Outcome State Fault Refusal :=
  runEvent s fun s => (s.l1Index (coreIdx core) ctx line).map fun i => s.evictL1 (coreIdx core) i

/-- The place of the first tryte of a block. -/
def LLine.place (l : LLine) : LinePlace :=
  { key := l.key, tryte := 0, chan := l.chan, ctx := l.ctx, vline := 0, l1 := false, shape := l.shape, tab := l.tab,
    entry := l.entry }

/-- R289, R301, R305: a dirty block is encoded under its entry and its slot lines are written whole. -/
def State.encodeOut (s : State) (l : LLine) : State :=
  let k := l.key
  let p := s.placeAsIs l.place
  let j := p.key
  let e := encodeBlock p.shape j.budget (blockCodes (l.trytes.map (·.val)))
  let s := ((List.range j.budget).zip e.lines).foldl (fun s x =>
    (s.writeSlot j.die j.lpddr (j.slot + x.1) 1 x.2).burst j.die p.chan true) s
  (s.llcDrop k.die k).orFatal k.die ((s.llcDrop k.die k).codecCounters k.die l e.exact e.cutPlane)

/-- R48, R241, R301: a line or block leaves the last-level cache of a die. -/
def State.evictLine (s : State) (die : Nat) (k : LineKey) : Option State := do
  let l ← s.llcFind die k
  if k.coded then
    if !l.bad.isEmpty || s.copyUpdates.any (fun u => u.place.key == k) then none
    else if l.dirty then some (s.encodeOut l) else some (s.llcDrop die k)
  else s.evictPacked die l

def execLlcEviction (die : Nat) (line : LineKey) (s : State) : Host.Outcome State Fault Refusal :=
  runEvent s (·.evictLine die line)

/-- R225, R257: a write under way reaches the copy of another die; those between two dies arrive in the order they were
sent (R439). -/
def State.updateArrives (s : State) (n : Nat) : Option State := do
  let u ← s.copyUpdates[n]?
  if (s.copyUpdates.take n).any fun v => v.src == u.src && v.dst == u.dst then none else return s.applyUpdate n

def execLastLevelCopyUpdate (n : Nat) (s : State) : Host.Outcome State Fault Refusal := runEvent s (·.updateArrives n)

/-! ## Late records (R51, R307, R359) -/

/-- R51: a store that the shell refused becomes an imprecise fault. -/
def State.refusalRecord (s : State) (n : Nat) : Option State := do
  let r ← s.refusals[n]?
  return { s with refusals := dropAt s.refusals n }.noteLate { r.record with time := s.time } r.region

def execWindowStoreRefusal (n : Nat) (s : State) : Host.Outcome State Fault Refusal := runEvent s (·.refusalRecord n)

/-- R307, R359: a record that waits enters its queue once there is room. -/
def State.lateRecord (s : State) (n : Nat) : Option State := do
  let e ← s.late[n]?
  if (((s.dfqOf e.2).map (·.recs)).getD []).length ≥ 243 then none
  else
    let w := e.1.wg.bind s.wgOf
    let die := (w.map (·.core.die)).getD ((e.2.ctx.dies.head?).getD 0)
    let gone := match e.1.wg with
      | none => e.1.retired
      | some id => e.1.retired || w.isNone || ((s.groupAt id e.1.hw).map fun g => g.live.isEmpty).getD true
    let away := (w.map fun w => w.st == .suspended).getD false
    return { s with late := dropAt s.late n }.enterRecord die e.2 { e.1 with retired := gone, deferred := away }

def execImpreciseFaultRecord (n : Nat) (s : State) : Host.Outcome State Fault Refusal := runEvent s (·.lateRecord n)

/-! ## Soft errors (R240, R241, R444) -/

/-- R241: a line is held bad. -/
def State.heldBad (s : State) (die : Nat) (k : LineKey) (third : Nat) : Option State := do
  let l ← s.llcFind die k
  return s.llcPut die { l with bad := if l.bad.contains third then l.bad else third :: l.bad }

def State.strike (s : State) (e : SoftError) : Option State :=
  match e with
  | .corrected die storage => if die < 4 ∧ storage < 5 then some (s.bump 9 die storage 1) else none
  | .register g lane reg => do
    let x ← s.groupOf g
    if lane < x.lanes.length ∧ regStored reg = true then
      some { s with bad := { s.bad with regs := (g.wg, g.hw, lane, reg) :: s.bad.regs } }
    else none
  | .tlb core shared n =>
    let i := coreIdx core
    if coreIdx core < 972 ∧ n < (if shared then s.ctlbs.get [] (i / 9) else (s.coreAt i).tlb).length then
      let s := s.bump 9 core.die 4 1
      some (if shared then { s with ctlbs := s.ctlbs.set [] (i / 9) (dropAt (s.ctlbs.get [] (i / 9)) n) }
        else s.updCore i fun c => { c with tlb := dropAt c.tlb n })
    else none
  | .scratchpad word => some { s with bad := { s.bad with scr := word :: s.bad.scr } }
  | .chip word => some { s with bad := { s.bad with chip := word :: s.bad.chip } }
  | .l1 core ctx line word =>
    if word < 27 then (s.l1Index (coreIdx core) ctx line).map fun i =>
      s.updCore (coreIdx core) fun c => { c with l1 := updAt c.l1 i fun l =>
        { l with bad := if l.bad.contains word then l.bad else word :: l.bad } }
    else none
  | .lastLevel die line third => if third < lineLen line / 81 then s.heldBad die line third else none
  | .walkerState die => if die < 4 then some (s.dieFatal die) else none

def execSoftError (e : SoftError) (s : State) : Host.Outcome State Fault Refusal := runEvent s (·.strike e)

/-! ## Copies (R323 to R335) -/

def execCopyStart (copy : Nat) (s : State) : Host.Outcome State Fault Refusal := runEvent s (·.copyStart copy)

/-- R334: a slice whose next element fails parks what it has not written. -/
def State.sliceFault (s : State) (id n : Nat) : Option State := if s.sliceFails id n then some (s.sliceTurn id n) else none

def execCopySliceFault (copy slice : Nat) (s : State) : Host.Outcome State Fault Refusal := runEvent s (·.sliceFault copy slice)

/-- R335: an engine with no slice of its own takes one that has not started from another engine of its cluster; never one of a
CPYL (R329). -/
def State.steal (s : State) (id n thief : Nat) : Option State := do
  let c ← s.copyOf id
  let sl ← c.slices[n]?
  let taker := sl.engine / 9 * 9 + thief
  let buffered := match c.form with
    | .cpyl .. => true
    | _ => false
  let busy := s.copies.any fun d => d.slices.any fun x => x.engine == taker && (x.st == .waiting || x.st == .running)
  if thief < 9 && c.started && sl.st == .waiting && taker != sl.engine && !buffered && !busy && !s.dieDown (coreDie taker) then
    return s.updSlice id n fun x => { x with engine := taker }
  else none

def execCopySliceSteal (copy slice thief : Nat) (s : State) : Host.Outcome State Fault Refusal :=
  runEvent s (·.steal copy slice thief)

def execCopyComplete (copy : Nat) (s : State) : Host.Outcome State Fault Refusal := runEvent s (·.copyStep copy)

/-! ## The slices of a last-level cache (R217, R241) -/

/-- The lines that a slice of a die's last-level cache holds. -/
def State.inSlice (s : State) (die n : Nat) : List LLine := (s.llc.filter fun e => e.1 == die && LineKey.slice e.2.key == n).map (·.2)

/-- R241: a die of which a slice holds 28 lines bad takes a fatal error. -/
def State.settleBad (s : State) (die : Nat) : State :=
  if (List.range 192).any fun n => decide (28 ≤ ((s.inSlice die n).map fun l => l.bad.length).foldl (· + ·) 0) then s.dieFatal die
  else s

/-- R217: lines leave a slice that holds more than 2,187 until it does not, each chosen freely; writes under way to its lines
arrive first where no line may leave. -/
def trimSlice : Nat → State → Nat → Nat → State
  | 0, s, _, _ => s
  | fuel + 1, s, die, n =>
    let ls := s.inSlice die n
    if (ls.map fun l => lineCount l.key).foldl (· + ·) 0 ≤ 2187 then s
    else
      match ls.filter fun l => (s.evictLine die l.key).isSome with
      | [] => if s.copyUpdates.isEmpty then s else trimSlice fuel s.drainUpdates die n
      | out =>
        let (i, s) := s.pick out.length
        trimSlice fuel ((out[i]?.bind fun l => s.evictLine die l.key).getD s) die n

/-- What every turn leaves the last-level caches in: no more lines than they have room for, nor more held bad than a die bears. -/
def State.settle (s : State) : State :=
  let s := if (s.llc.map fun e => e.2.bad.length).foldl (· + ·) 0 < 28 then s else (List.range 4).foldl State.settleBad s
  if 3 * s.llc.length ≤ 2187 then s
  else (List.range 4).foldl (fun s die => (List.range 192).foldl (fun s n => trimSlice s.llc.length s die n) s) s

end Sys2Proof.Machine
end

