-- ==== Sys2Proof/Machine/QueueEvents.lean ====
section
/-! DEFINITION. The turns of the queues (14_queues.md R307 to R319): placement and stealing, the end of a workgroup (03 R80 to
R82), region walkers (R311, R314, R448), event rings (R309, R310) and mailboxes (R308). -/

namespace Sys2Proof.Machine

/-! ## Placement (R81, R312 to R315) -/

/-- R112, R124: a lane of a workgroup at placement. -/
def launchLane (w : Workgroup) (thread bank : Nat) : Lane :=
  if thread < w.kernel.threads then
    { Lane.absent with thread := thread, st := .ready, pc := w.kernel.entry, bank := bank,
                       rng := Word.ofInt (w.region.seed.val + 3 ^ 13 * w.index.val + (thread : Int)) }
  else Lane.absent

/-- R56, R78: group j of a workgroup, or ganged group j of width 81. -/
def launchGroup (w : Workgroup) (slots : List Nat) (stamp j : Nat) : Group :=
  let width := if w.kernel.width = 81 then 81 else 27
  { wg := w.id, hw := width / 27 * j, slot := if width = 81 then 0 else slots.getD j 0
    lanes := (List.range width).map fun i => launchLane w (width * j + i) (slots.getD ((width * j + i) / 27) 0)
    s := launchRegs w.launch, w := [], pend := [], calls := [], phase := .boundary, run := .none, mask := [],
    lastStart := stamp, placed := stamp, ceded := false, handler := none, resuming := none, saveFrame := false, noRecord := false,
    cpys := 0, stale := 0 }

/-- R81: a run of granules and tiles are zeroed. -/
def State.zeroRun (s : State) (w : Workgroup) : State :=
  let lo := coreIdx w.core * scrSize + w.gran * granule
  let hi := lo + w.grans * granule
  let s : State :=
    { s with scr := SMap.clear s.scr lo hi
             bad := { s.bad with scr := s.bad.scr.filter fun n => !(decide (lo / 3 ≤ n) && decide (n < (hi + 2) / 3)) } }
  s.updUnit (coreClu w.core) fun u => w.tiles.foldl (fun u t => u.zeroRows t (List.range 27)) u

/-- R81, R338: the first pending workgroup of a batch takes the room found for it. -/
def State.placeOne (s : State) (die clu : Nat) (b : Batch) (r : Region) (m : Room) (i : Nat) : State :=
  let w : Workgroup :=
    { m.taken die clu r b.kernel with
      id := s.nextId, index := Word.ofInt (b.first + (i : Int)), saveIdx := s.freeIndex r, placed := s.stamp, launch := b.launch,
      node := b.node }
  let n := if b.kernel.width = 81 then b.kernel.groups / 3 else b.kernel.groups
  let s := (s.zeroRun w).dropClean (coreIdx w.core) allLines
  { s with nextId := s.nextId + 1, wgs := s.wgs ++ [w], groups := s.groups ++ (List.range n).map (launchGroup w (m.banks.map BankRun.slot) s.stamp)
           knodes := s.knodes.map fun k => if some k.id == b.node then { k with placed := k.placed + 1 } else k }

/-- The queue after n workgroups of batch i have left it. -/
def tookFrom (q : List Batch) (i n : Nat) : List Batch :=
  match q[i]? with
  | none => q
  | some b => if b.count ≤ n then dropAt q i else updAt q i fun b => { b with first := b.first + n, count := b.count - n }

/-- R312, R314: what the head batch of a queue places: none where it fits nowhere. A batch under a mark is passed over. -/
def State.placeFrom (s : State) (die clu key : Nat) : Option State := do
  let q := s.spawnQ key
  let i ← indexOf? (fun (b : Batch) => !s.marked b.region) q
  let b ← q[i]?
  match s.readRegion die b.region.ctx b.region.block with
  | .error (_ + 1) => some (s.dieFatal die)
  | r =>
    let (s, r) := match r with
      | .ok (s, r) => (s, r)
      | .error _ => (s, b.region)
    let n := if b.coresident then b.count else 1
    let rooms ← s.roomsFor die clu r b.kernel n s.holders
    let s := s.setSpawnQ key (tookFrom q i n)
    let s := ((List.range rooms.length).zip rooms).foldl (fun s e => s.placeOne die clu b r e.2 e.1) s
    return { s with stamp := s.stamp + 1 }

/-- R312: the highest class whose head batch fits. -/
def State.placement (s : State) (die clu : Nat) : Option State :=
  if s.dieDown die ∨ die > 3 ∨ clu > 26 then none
  else [Trit.pos, Trit.zero, Trit.neg].findSome? fun c => s.placeFrom die clu (spawnKey die clu c)

def execPlacement (die cluster : Nat) (s : State) : Host.Outcome State Fault Refusal := runEvent s (·.placement die cluster)

/-! ## Stealing (R316) -/

/-- The neighbours of a distributor, in the order polled: the other clusters of its die from its own upward, then those of
the other dies. -/
def neighbours (die clu : Nat) : List (Nat × Nat) :=
  ((List.range 26).map fun i => (die, (clu + 1 + i) % 27)) ++
    ((List.range 4).filter (· != die)).flatMap fun d => (List.range 27).map fun c => (d, c)

/-- The highest class of a distributor with a batch. -/
def State.headKey (s : State) (die clu : Nat) : Option Nat :=
  ([Trit.pos, Trit.zero, Trit.neg].map (spawnKey die clu)).find? fun k => !(s.spawnQ k).isEmpty

/-- The batch that may be stolen from a neighbour: another die's only in one-device mode. -/
def State.stealable (s : State) (thiefDie : Nat) (n : Nat × Nat) : Option (Nat × Batch) := do
  let key ← s.headKey n.1 n.2
  let b ← (s.spawnQ key).head?
  if b.coresident || b.count < 2 || (n.1 != thiefDie && b.region.ctx.mode != 1) then none else return (key, b)

/-- R316: an idle distributor takes the older half of a batch. It polls its neighbours in turn, from the one after the last that
it took from (log 33). -/
def State.stealBatch (s : State) (die clu : Nat) : Option State := do
  let near := s.holders.filter fun w => w.core.die == die && w.core.cluster == clu
  let slot := (List.range 9).any fun c => decide ((near.filter fun w => w.core.core == c).length < 27)
  if s.dieDown die || (s.headKey die clu).isSome || !slot then none
  else
    let ns := neighbours die clu
    let p := s.polls.get 0 (die * 27 + clu)
    let k ← (List.range ns.length).find? fun k => (ns[(p + k) % ns.length]?.bind (s.stealable die)).isSome
    let (key, b) ← ns[(p + k) % ns.length]?.bind (s.stealable die)
    let h := (b.count + 1) / 2
    let s : State := { s with polls := s.polls.set 0 (die * 27 + clu) ((p + k + 1) % ns.length) }
    let s := s.setSpawnQ key (tookFrom (s.spawnQ key) 0 h)
    let mine := spawnKey die clu b.region.cls
    return s.setSpawnQ mine ({ b with count := h } :: s.spawnQ mine)

def execSpawnSteal (die cluster : Nat) (s : State) : Host.Outcome State Fault Refusal :=
  runEvent s fun s => if die < 4 ∧ cluster < 27 then s.stealBatch die cluster else none

/-! ## The end of a workgroup (R82) -/

/-- R82: whether a copy is still to write the scratchpad of its workgroup: its data, or its stamp, check word or barrier. Of a
destination in cluster space, whether an element of its box falls in the run. -/
def State.copyHolds (s : State) (c : Copy) : Bool :=
  let ws := s.requestOf c
  let ctl := wordAt ws 8
  let run (addr : Int) : Bool :=
    decide ((c.owner.core.core * scrSize + c.owner.gran * granule : Nat) ≤ addr) &&
      decide (addr < (c.owner.core.core * scrSize + (c.owner.gran + c.owner.grans) * granule : Nat))
  let own (sp : Option Space) (addr : Int) : Bool := sp == some .scr || (sp == some .clu && run addr)
  let data : Bool := match c.sliceCtx 0 with
    | some x => (List.range (x.box.foldl (· * ·) 1)).any fun i => x.writes i && own (some x.dstSpace) (x.dstAt i).addr
    | none => own (spaceOf (fld ctl 2 3)) (wordAt ws 1)
  (decide (c.stage = 0) && data) ||
    [(8, 4), (9, 6), (10, 7)].any fun e => tritAt ctl e.1 == 1 && own (spaceOf (fld ctl 4 5)) (wordAt ws e.2)

/-- R82: whether a matrix operation writes scratchpad or tiles. -/
def MatOp.writes : MatOp → Bool
  | .load .. | .act _ => false
  | .row .. | .zero _ | .write .. | .store .. => true

/-- R82: whether an operation that writes registers, scratchpad or tiles of a workgroup is not complete. -/
def State.owed (s : State) (w : Workgroup) : Bool :=
  let mine (p : Pending) : Bool :=
    p.dest.isSome || p.stores.any (fun e => w.ownsPlace e.place) || p.todo.any fun m => m.places.any w.ownsPlace
  (s.groupsOf w.id).any (fun g => g.pend.any mine) ||
    (s.unitAt (coreClu w.core)).queue.any (fun e => e.wg == w.id && e.op.writes) ||
    s.copies.any (fun c => c.wg == w.id && s.copyHolds c) || s.arrivals.any fun a => a.2.wg == w.id && a.2.by_ == w.id

def State.workgroupGone (s : State) (wg : Nat) : Option State := do
  let w ← s.wgOf wg
  if w.st != .exiting || w.entry.isSome || s.owed w then none else return s.goneWg w

def execWorkgroupGone (wg : Nat) (s : State) : Host.Outcome State Fault Refusal := runEvent s (·.workgroupGone wg)

/-! ## Nodes (R311, R411) -/

def State.walkerOf (s : State) (id : Nat) : Option Walker := s.walkers.find? fun k => k.id == id
def State.updWalker (s : State) (id : Nat) (f : Walker → Walker) : State :=
  { s with walkers := s.walkers.map fun k => if k.id == id then f k else k }

/-- The innermost node of a walker completes with a status. -/
def State.nodeEnds (s : State) (id : Nat) (t : Trit) : State := s.updWalker id fun k => { k with done := some t }

/-- R411: the words of a block's node as a walker reads them when it starts the node: words 45 to 80, of which 54 to 80 are reserved. -/
def State.nodeStart (s : State) (k : Walker) (va : Int) : Except Nat (State × List Int) :=
  if va ≥ 0 ∨ va % 243 ≠ 0 then .error 0 else s.structRead (structWho k.die k.ctx) (va + 135) 36

/-- R411, Table 7: whether a node is malformed, by its words 45 to 80. -/
def nodeMalformed (ws : List Int) : Bool :=
  let v := wordAt ws
  let kind := fld (v 0) 0 2
  let params : Bool :=
    if kind = 0 ∨ kind = 2 then v 1 == 0 && v 2 == 0 && v 3 == 0 && v 4 == 0
    else if kind = 1 then decide (0 ≤ v 2) && (v 4 == 0 || v 4 == 1)
    else if kind = 3 then decide (1 ≤ v 2) && v 4 == 0
    else if kind = 5 then v 3 == 0 && v 4 == 0
    else true
  !(decide (0 ≤ kind ∧ kind ≤ 6) && fld (v 0) 6 26 == 0 && params &&
    (ws.drop 5).all (· == 0))

/-- A word of a node's block is written. -/
def State.putNode (s : State) (k : Walker) (va : Int) (word : Nat) (v : Int) : Except Nat State :=
  s.structWrite (structWho k.die k.ctx) (va + 3 * (word : Int)) [v]

/-- R411: the state of a node, and the status of its last completion, in its word 45. -/
def State.markNode (s : State) (k : Walker) (va st : Int) (status : Option Trit) : Except Nat State := do
  let (s, ws) ← s.nodeWords k.die k.ctx va
  let v := withState (wordAt ws 0) st
  s.putNode k va 45 (match status with
    | some t => v + (t.val - tritAt v 5) * 243
    | none => v)

/-- R411: a node goes on from a write of its words; one that fails completes it with −. -/
def State.nodeWrote (s : State) (k : Walker) (r : Except Nat State) : State :=
  match r with
  | .ok s => s
  | .error _ => s.nodeEnds k.id .neg

/-- A link word of a block: the first child (word 2) or the next sibling (word 3). -/
def State.nodeLink (s : State) (k : Walker) (va : Int) (word : Nat) : Except Nat (State × Int) := do
  let (s, vs) ← s.structRead (structWho k.die k.ctx) (va + 3 * (word : Int)) 1
  .ok (s, wordAt vs 0)

/-- R448: the read of a parameter word, as an access of the node's region. -/
def State.paramRead (s : State) (k : Walker) (r : Region) (va : Int) : Except Nat (State × Int) := do
  let w : Who := ⟨k.die, none, r.ctx, r.supervisor, r.world, r.attrtab⟩
  let (s, ps) ← s.resolveVirt w .read 3 va
  let (s, ts) ← s.readElem w true ps
  .ok (s, ofTrytes ts)

/-- R448: the record of a parameter word that could not be read; the node ends with −. -/
def State.paramFault (s : State) (k : Walker) (r : Region) (node va : Int) (cause : Nat) : State :=
  (s.appendRecord k.die r
    { cause := cause, inner := 0, parked := false, retired := true, pc := node, region := zeroW, wgIndex := zeroW, hw := 0,
      lanes := [], addr := va, laySrc := 0, layDst := 0, coord := [], time := 0, wg := none, node := none, copy := none,
      deferred := false }).nodeEnds k.id .neg

/-- The parameter word of a node, with what is made of it. -/
def State.withParam (s : State) (k : Walker) (node va : Int) (go : State → Int → State) : State :=
  match s.readRegion k.die k.ctx node with
  | .error 0 => s.nodeEnds k.id .neg
  | .error _ => s.dieFatal k.die
  | .ok (s, r) =>
    match s.paramRead k r va with
    | .error c => s.paramFault k r node va c
    | .ok (s, v) => go s v

/-- Free launch scalars: the spec gives none to the workgroups of a kernel node (log 16). -/
def State.freeScalars (s : State) : List Word × State :=
  ((List.range 26).map fun i => Word.ofInt (Config.freeInt (s.free + i)), { s with free := s.free + 26 })

/-- R311, R314, R365: a kernel node starts: it is refused, or waits to enqueue its batch. -/
def State.startKernel (s : State) (k : Walker) (va : Int) (ws : List Int) : State :=
  match s.readRegion k.die k.ctx va with
  | .error 0 => s.nodeEnds k.id .neg
  | .error _ => s.dieFatal k.die
  | .ok (s, r) =>
    match s.kernels.find? fun e => e.1 == wordAt ws 1 with
    | none => s.nodeEnds k.id .neg
    | some (_, kn) =>
      let n := (wordAt ws 2).toNat
      let co := wordAt ws 4 == 1
      let refused := decide (kn.imageSize > r.stride) || decide (n > r.budget) ||
        (co && !((List.range 27).any fun c => s.fitsEmpty k.die c r kn n))
      let (launch, s) := s.freeScalars
      let b : Batch := { region := r, kernel := kn, first := wordAt ws 3, count := n, launch := launch, coresident := co,
                         node := some s.nextId, time := s.time }
      let node : KNode :=
        { id := s.nextId, walker := k.id, block := va, region := r, batch := if refused || n == 0 then none else some b,
          placed := 0, faults := 0, cause := 0, status := if refused then some .neg else none, gone := 0, ended := false }
      let old := s.knodes.filter fun y => !(y.block == va && y.region.ctx.num == r.ctx.num)
      { s with knodes := old ++ [node], nextId := s.nextId + 1 }.updWalker k.id fun k => { k with kernel := some node.id }

/-- R311: a walker enters a node, and the nodes that it begins with, within `fuel` levels. -/
def State.enterNode : Nat → State → Nat → Int → State
  | 0, s, id, _ => s.nodeEnds id .neg
  | fuel + 1, s, id, va =>
    match s.walkerOf id with
    | none => s
    | some k =>
      let push (s : State) (kind : Nat) (child : Int) : State :=
        s.updWalker id fun k =>
          { k with frames := ⟨va, kind, child, 0, []⟩ :: k.frames, done := none }
      let fails (s : State) (kind : Nat) : State := (push s kind 0).nodeEnds id .neg
      let child (s : State) (kind : Nat) (c : Int) : State :=
        if c = 0 then (push s kind 0).nodeEnds id .pos else State.enterNode fuel (push s kind c) id c
      match s.nodeStart k va with
      | .error _ => fails s 0
      | .ok (s, ws) =>
        if nodeMalformed ws then fails s 0
        else
          let kind := (fld (wordAt ws 0) 0 2).toNat
          let hold (s : State) : State := s.updWalker id fun k =>
            { k with frames := ⟨va, kind, 0, 0, ws⟩ :: k.frames, done := none }
          match s.markNode k va 2 none with
          | .error _ => fails s kind
          | .ok s =>
            match kind with
            | 1 => (push s 1 0).startKernel k va ws
            | 3 => (hold s).nodeWrote k ((hold s).putNode k va 48 0)
            | 4 =>
              match s.readRegion k.die k.ctx va with
              | .error 0 => fails s 4
              | .error _ => s.dieFatal k.die
              | .ok (s, r) =>
                (match s.paramRead k r (wordAt ws 1) with
                  | .error c => (push s 4 0).paramFault k r va (wordAt ws 1) c
                  | .ok (s, v) => child s 4 (wordAt ws ((tritAt v 0 + 3).toNat)))
            | 5 => hold s
            | 6 =>
              match s.readRegion k.die k.ctx va with
              | .error 0 => fails s 6
              | .error _ => s.dieFatal k.die
              | .ok (s, r) =>
                (push s 6 0).ringQueue k.ctx (.walker id) (eventWords r.number.val 2 1 0 0 ((List.range 4).map fun i => wordAt ws (1 + i)))
            | _ =>
              match s.nodeLink k va 2 with
              | .error _ => fails s kind
              | .ok (s, c) => child s kind c

/-- More levels than there are blocks. -/
def nodeFuel : Nat := 3 ^ 22

/-- R311: a free walker takes the oldest ready node of its die. -/
def State.startWalker (s : State) (die : Nat) : Option State := do
  let n ← s.ready.find? fun n => n.die == die
  if s.dieDown die || (s.walkers.filter fun k => k.die == die).length ≥ 27 then none
  else
    let id := s.nextId
    let s : State := { s with
      ready := s.ready.filter (· != n), nextId := id + 1
      walkers := s.walkers ++ [{ id := id, die := die, ctx := n.ctx, frames := [], done := none, kernel := none }] }
    let s := s.drainUpdates
    if n.failed then
      return (s.updWalker id fun k => { k with frames := [⟨n.block, 0, 0, 0, []⟩] }).nodeEnds id .neg
    else return s.enterNode nodeFuel id n.block

def execWalkerNodeStart (die : Nat) (s : State) : Host.Outcome State Fault Refusal := runEvent s (·.startWalker die)

def State.knodeOf (s : State) (id : Nat) : Option KNode := s.knodes.find? fun k => k.id == id
def State.updKnode (s : State) (id : Nat) (f : KNode → KNode) : State :=
  { s with knodes := s.knodes.map fun k => if k.id == id then f k else k }

/-- R311: the cluster of a die that takes a batch. -/
def State.batchCluster (s : State) (die : Nat) (r : Region) : Option Nat :=
  let admits (c : Nat) : Bool := s.world.clusters.get .zero (die * 27 + c) == .zero || s.world.clusters.get .zero (die * 27 + c) == r.world
  let held (c : Nat) : Nat := (s.holders.filter fun w => w.core.die == die && w.core.cluster == c).length
  match (List.range 27).filter admits with
  | [] => none
  | c :: cs => some (cs.foldl (fun a b => if held b < held a then b else a) c)

/-- R314: a kernel node's batch is enqueued whole once the budget admits it. -/
def State.enqueueNode (s : State) (id : Nat) : Option State := do
  let k ← s.walkerOf id
  let n ← k.kernel.bind s.knodeOf
  let b ← n.batch
  let clu ← s.batchCluster k.die n.region
  if s.dieDown k.die || s.counted n.region + b.count > n.region.budget then none
  else
    let s ← s.enqueueBatch k.die clu { b with time := s.time }
    return s.updKnode n.id fun n => { n with batch := none }

def execKernelNodeEnqueue (walker : Nat) (s : State) : Host.Outcome State Fault Refusal := runEvent s (·.enqueueNode walker)

/-- R411: an iteration of a loop node is done, and counted in its word 48. -/
def State.loopCount (s : State) (k : Walker) (f : NodeFrame) (above : List NodeFrame) : State :=
  let s := s.updWalker k.id fun k => { k with frames := { f with iter := f.iter + 1 } :: above }
  s.nodeWrote k (s.putNode k f.block 48 (f.iter + 1 : Nat))

/-- R311, R409: a loop node before an iteration, by its words as the walker read them at the node's start. -/
def State.loopTurn (s : State) (id : Nat) : Option State := do
  let k ← s.walkerOf id
  let f ← k.frames.head?
  if f.kind != 3 || k.done.isSome || s.dieDown k.die then none
  else if decide ((f.iter : Int) ≥ wordAt f.words 2) then some (s.nodeEnds id .zero)
  else some (s.withParam k f.block (wordAt f.words 1) fun s v =>
    if v = 0 then s.nodeEnds id .pos
    else match s.nodeLink k f.block 2 with
      | .error _ => s.nodeEnds id .neg
      | .ok (s, c) =>
        if c = 0 then s.loopCount k f (k.frames.drop 1)
        else (s.updWalker id fun k => { k with frames := { f with child := c } :: k.frames.drop 1 }).enterNode nodeFuel id c)

def execLoopIteration (walker : Nat) (s : State) : Host.Outcome State Fault Refusal := runEvent s (·.loopTurn walker)

/-- R311, R409: a wait node reads its stamp word, by the node's words as they were at its start. -/
def State.waitTurn (s : State) (id : Nat) : Option State := do
  let k ← s.walkerOf id
  let f ← k.frames.head?
  if f.kind != 5 || k.done.isSome || s.dieDown k.die then none
  else some (s.withParam k f.block (wordAt f.words 1) fun s v => if v = wordAt f.words 2 then s.nodeEnds id .pos else s)

def execWaitNodeRead (walker : Nat) (s : State) : Host.Outcome State Fault Refusal := runEvent s (·.waitTurn walker)

/-- R311, R338: whether every workgroup of a kernel node, with those spawned from them, is gone, and each store of theirs that the
shell refused has become a fault (R51). -/
def State.nodeEmpty (s : State) (n : KNode) : Bool :=
  n.batch.isNone && !(s.wgs.any fun w => w.node == some n.id) && !(s.spawns.any fun q => q.2.any fun b => b.node == some n.id) &&
    !(s.refusals.any fun r => r.record.node == some n.id)

def KNode.result (n : KNode) : Trit := n.status.getD (if n.faults = 0 then .pos else .neg)

/-- R309, R347: the record of a kernel node that is done waits for room in its ring. -/
def State.kernelDone (s : State) (k : Walker) (n : KNode) : State :=
  (s.updKnode n.id fun n => { n with ended := true }).ringQueue k.ctx (.walker k.id)
    (eventWords n.region.number.val 1 n.result.val n.faults n.cause [n.block, n.placed])

/-- R311: a node that has completed is marked, with − where its words cannot be read or written (R411), and the node above it goes
on. -/
def State.passOn (s : State) (k : Walker) (f : NodeFrame) (rest : List NodeFrame) (t : Trit) : State :=
  let (s, t) := match s.drainUpdates.markNode k f.block 3 (some t) with
    | .ok s => (s, t)
    | .error _ => (s.drainUpdates, .neg)
  let s := s.wakeHalts fun w => w.core.die == k.die
  let s := s.updWalker k.id fun k => { k with frames := rest, done := none, kernel := none }
  match rest with
  | [] => { s with walkers := s.walkers.filter fun y => y.id != k.id }
  | p :: above =>
    match p.kind with
    | 3 =>
      if t = .neg then s.nodeEnds k.id .neg else s.loopCount k p above
    | 4 => s.nodeEnds k.id t
    | _ =>
      if t = .neg then s.nodeEnds k.id .neg
      else match s.nodeLink k f.block 3 with
        | .error _ => s.nodeEnds k.id .neg
        | .ok (s, c) =>
          if c = 0 then s.nodeEnds k.id t
          else
            (s.updWalker k.id fun k => { k with frames := { p with child := c } :: above }).enterNode nodeFuel k.id c

/-- R311: a kernel node whose workgroups are gone posts its record; a completed node is passed on. -/
def State.nodeTurn (s : State) (id : Nat) : Option State := do
  let k ← s.walkerOf id
  if s.dieDown k.die then none
  else match k.done, k.frames with
    | some t, f :: rest => some (s.passOn k f rest t)
    | none, _ =>
      let n ← k.kernel.bind s.knodeOf
      if n.ended || !s.nodeEmpty n then none else some (s.kernelDone k n)
    | _, [] => none

def execNodeCompletion (walker : Nat) (s : State) : Host.Outcome State Fault Refusal := runEvent s (·.nodeTurn walker)

/-! ## Event rings (R309, R310, R410) -/

/-- The die whose shell makes the accesses of a context's ring. -/
def Ctx.homeDie (c : Ctx) : Nat := c.dies.headD 0

/-- A record of a mailbox joins the ring of a context (R308). -/
def State.boxPost (s : State) (c : Ctx) (kind : Nat) (payload : List Int) : State :=
  match s.structRead (structWho c.homeDie c) c.rootBlock 1 with
  | .ok (s, vs) => s.ringQueue c .agent (eventWords (wordAt vs 0) kind 1 0 0 payload)
  | .error _ => s.dieFatal c.homeDie

/-- R308: the records of mailboxes bound to a context join its ring once the device has met it. -/
def State.rootRecords (s : State) (ctx : Nat) : State :=
  match s.context ctx with
  | none => s
  | some c =>
    let (mine, rest) := s.unrooted.partition fun e => e.1 == ctx
    mine.foldl (fun s e => s.boxPost c e.2.1 e.2.2) { s with unrooted := rest }

/-- R309: the oldest waiting record of a ring is written, and a walker that waited for it has completed its node. A group's
EVPOST writes its own, when it is tried again. -/
def State.postNext (s : State) (ctx : Nat) : Option State := do
  let s := s.rootRecords ctx
  let r ← s.rings.find? fun r => r.ctx.num == ctx
  let post (e : Poster × List Word) (rest : List (Poster × List Word)) : Option State := do
    let s ← s.ringPost r.ctx.homeDie r.ctx (e.2.map (·.val))
    return s.updRing r.ctx fun r => { r with waiting := rest }
  match s.ringWaits r.ctx with
  | [] | (.group .., _) :: _ => none
  | (.agent, ws) :: rest => post (.agent, ws) rest
  | (.walker id, ws) :: rest =>
    let s ← post (.walker id, ws) rest
    return match s.walkerOf id with
      | none => s
      | some k =>
        s.nodeEnds id (match k.kernel.bind s.knodeOf with
          | some n => n.result
          | none => .pos)

def execEventRingPost (ctx : Nat) (s : State) : Host.Outcome State Fault Refusal := runEvent s (·.postNext ctx)
def execRingPostRetry (ctx : Nat) (s : State) : Host.Outcome State Fault Refusal := runEvent s (·.postNext ctx)

/-- R310: the time condition. -/
def execRingTimeThreshold (ctx : Nat) (s : State) : Host.Outcome State Fault Refusal :=
  runEvent s fun s => (s.rings.find? fun r => r.ctx.num == ctx).map fun r => s.ringSignal r.ctx.homeDie r.ctx

/-- R436: the values of a word. -/
def inWord (v : Int) : Bool := decide (-counterMaxI ≤ v ∧ v ≤ counterMaxI)
where
  counterMaxI : Int := 3812798742493

/-- R310, R410, R436: the host writes a consumer index. That of a context whose root the device has not read waits for it. -/
def State.consumerWrite (s : State) (ctx : Nat) (v : Int) : Option State :=
  if !inWord v || ctx > 728 then none
  else match s.context ctx with
    | none => some { s with consumers := s.consumers.insert ctx (Word.ofInt v) }
    | some c =>
      let die := c.homeDie
      let s := s.orFatal die (s.structWrite (structWho die c) (c.rootBlock + 102) [v])
      some ((s.updRing c fun r => { r with irq := false }).ringSignal die c)

def execConsumerIndexWrite (ctx : Nat) (value : Int) (s : State) : Host.Outcome State Fault Refusal :=
  runEvent s (·.consumerWrite ctx value)

/-! ## Mailboxes (R308, R436) -/

/-- R308: a record of a mailbox, for the ring of the context that it is bound to. -/
def State.boxRecord (s : State) (ctx kind : Nat) (payload : List Int) : State :=
  { s with unrooted := s.unrooted ++ [(ctx, kind, payload)] }.rootRecords ctx

/-- R308: a doorbell write of the host. -/
def State.doorbell (s : State) (n slot : Nat) (v : Int) : Option State :=
  if n > 26 ∨ slot > 8 ∨ !inWord v then none
  else
    let b := s.box n
    match b.bound with
    | none => none
    | some (ctx, rev) =>
      if b.words.get zeroW (27 * slot + 26) ≠ zeroW then some (s.boxRecord ctx 5 [n, slot])
      else if v = 0 then none
      else
        let got := fld (b.words.get zeroW (27 * slot)).val 0 8
        if got ≠ rev then some (s.boxRecord ctx 4 [n, got, rev])
        else
          let s := s.setBox n { b with posted := b.posted ++ [slot], words := b.words.set zeroW (27 * slot + 26) (Word.ofInt v) }
          some (s.wakeHalts fun w => match s.context ctx with
            | some c => c.dies.contains w.core.die
            | none => true)

def execMailboxDoorbellWrite (box slot : Nat) (value : Int) (s : State) : Host.Outcome State Fault Refusal :=
  runEvent s (·.doorbell box slot value)

/-- R346, R436: the host frees a reply area. -/
def execReplyAreaFree (box : Nat) (s : State) : Host.Outcome State Fault Refusal :=
  runEvent s fun s =>
    if box > 26 then none else some (s.setBox box { s.box box with reply := (s.box box).reply.set zeroW 26 zeroW })

end Sys2Proof.Machine
end

