-- ==== Sys2Proof/Machine/SaveEvents.lean ====
section
/-! DEFINITION. The turns of pre-emption (16_traps_and_preemption.md R361 to R371): marks, the deadline, saving and resuming a
workgroup, and arrivals under diversion; and the memory licence of a core (14 R318). -/

namespace Sys2Proof.Machine

/-! ## Stopping a group (R286, R344, R362) -/

/-- R362: a group that has not yielded stops within its run, or before its next one. -/
def Group.force (g : Group) : Group :=
  let stop (q : Resuming) : Group :=
    { g with phase := .stopped, resuming := some { q with made := [] }, run := { Run.none with count := g.run.count },
             saveFrame := true }
  let within : Group := match g.resuming with
    | some q =>
      if g.run.again.isNone then stop q
      else if g.run.behind then stop { q with entries := (forcedEntry g).toList ++ q.entries }
      else stop { q with head := forcedEntry g }
    | none => stop { entries := [], head := forcedEntry g, made := [], active := g.run.active, boundary := false }
  match g.phase with
  | .boundary => { g with phase := .stopped, saveFrame := true }
  | .running => within
  | .waiting _ => within
  | .woken _ => within
  | _ => g

/-! ## Marks (R125, R361) -/

/-- R361, R282, R344: a group's wait at the arrival of a mark. -/
def Group.onMark (g : Group) : Group :=
  match g.phase with
  | .waiting m =>
    (match m.instr with
      | .bar _ | .barw _ => g.force
      | _ => { g with phase := .woken m })
  | _ => g

/-- R125, R361: a mark reaches the core of a workgroup. -/
def State.markArrives (s : State) (wg : Nat) : State :=
  let s := s.updWg wg fun w =>
    { w with preq := true, preqAt := s.cycles (coreClu w.core), save := if w.st = .resident then .stopping else w.save }
  { s with groups := s.groups.map fun g => if g.wg == wg then g.onMark else g }

def State.markTurn (s : State) (wg : Nat) : Option State := do
  let w ← s.wgOf wg
  if w.preq || w.st == .suspended || w.save != .none || !s.marked w.region then none else return s.markArrives wg

def execPreemptMarkArrival (wg : Nat) (s : State) : Host.Outcome State Fault Refusal := runEvent s (·.markTurn wg)

/-- R361: the mark whose workgroups are all saved or gone is removed, and the count of those saved is written. -/
def State.markRemoval (s : State) (id : Nat) : Option State := do
  let m ← s.marks.find? fun m => m.id == id
  if m.waiting.any fun w => (s.wgOf w).isSome then none
  else
    let die := m.ctx.homeDie
    let s := s.drainUpdates
    let s := (s.orFatal die (s.structWrite (structWho die m.ctx) (m.block + 51) [m.saved])).drainUpdates
    let s : State := { s with marks := s.marks.filter fun y => y.id != id }
    return { s with wgs := s.wgs.map fun w =>
      if w.preq && w.st == .exiting && !s.marked w.region then { w with preq := false } else w }

def execPreemptMarkRemoval (mark : Nat) (s : State) : Host.Outcome State Fault Refusal := runEvent s (·.markRemoval mark)

/-- R362, R380: at its deadline, or at once for CTXSV, every group that has not yielded is stopped; a table word that holds a group
completes first (R392). -/
def State.deadline (s : State) (wg : Nat) : Option State := do
  let w ← s.wgOf wg
  let left := (s.groupsOf wg).filter fun g => !g.isStopped
  if w.save != .stopping || left.isEmpty || (!w.ctxsv && decide (s.cycles (coreClu w.core) < w.preqAt + w.region.deadline)) ||
      s.tabWrites.any (fun t => t.wg == wg) then none
  else
    let s : State := { s with groups := s.groups.map fun g => if g.wg == wg && !g.isStopped then g.force else g }
    return s.updWg wg fun w => { w with forced := true }

def execPreemptDeadline (wg : Nat) (s : State) : Host.Outcome State Fault Refusal := runEvent s (·.deadline wg)

/-! ## Draining (R206, R363) -/

/-- R192, R206: the matrix work of a workgroup that a save discards: its MACT entries with the tags that they name, and its loads
that have not started; one in progress completes first (`State.loadComplete`). A shadow plane that it has loaded stays. -/
def MatUnit.discardOf (u : MatUnit) (wg : Nat) : MatUnit :=
  let tagOf (e : MatEntry) : Option Word := match e.op with
    | .act t => some t
    | .load t _ _ _ => if e.granted then none else some t
    | _ => none
  let mine := u.queue.filter fun e => e.wg == wg && (tagOf e).isSome
  let tags := mine.filterMap tagOf
  let u := { u with queue := u.queue.filter fun e => !mine.contains e
                    pending := u.pending.filter fun p => !tags.contains p.1 }
  if u.pl1.tag != zeroW && tags.contains u.pl1.tag then u.emptyShadow else u

/-- R206: what a save discards of a workgroup's matrix work. -/
def State.drainUnit (s : State) (w : Workgroup) : State :=
  let clu := coreClu w.core
  let s := s.updUnit clu (·.discardOf w.id)
  let u := s.unitAt clu
  let stale (e : MatEntry) : Bool := match e.op with
    | .row tag _ _ rows _ _ => e.wg == w.id && !e.granted && !rows.isEmpty && u.tagState tag != .stationary
    | _ => false
  (u.queue.filter stale).foldl (fun s e => s.discardStale clu e) s

/-- Table 6: whether register-bound and tile-bound work of a workgroup is complete. -/
def State.drained (s : State) (w : Workgroup) : Bool :=
  !((s.groupsOf w.id).any fun g => g.pend.any fun p => p.isFloat || p.isBound) &&
    !((s.unitAt (coreClu w.core)).queue.any fun e => e.wg == w.id)

/-! ## The image (R365, Table 7) -/

/-- The lanes of a workgroup's groups that have a thread. -/
def State.threadLanes (s : State) (w : Workgroup) : List Lane :=
  ((s.groupsOf w.id).flatMap (·.lanes)).filter fun l => l.st != .bornExited

/-- The replay queue of a group that a save has stopped, its head first (R352). -/
def Group.savedEntries (g : Group) : List ReEntry :=
  match g.resuming with
  | some q => q.head.toList ++ q.entries
  | none => []

/-- R362, R354: the save frame of a group. -/
def saveFrameWords (g : Group) (j : Nat) : List Int :=
  let es := g.savedEntries
  headerWords g (27 * j) es.length 0 0 g.run.count ++ es.flatMap fun e => entryWords e (27 * j)

/-- The k registers of a lane as a word: k_i at trits 3i to 3i + 2. -/
def Lane.kPacked (l : Lane) : Int := ((List.range 9).map fun i => (l.rdK i).val * 27 ^ i).foldl (· + ·) 0
def Lane.withK (l : Lane) (v : Int) : Lane :=
  (List.range 9).foldl (fun l i => l.wrK i (Trits.ofInt 3 (fld v (3 * i) (3 * i + 2)))) l

/-- What the image holds of a lane beside its g registers (R126, R365): its PC, its skip count and standing as in item 4 of a frame,
its k registers, sr.fs and sr.rng. DESIGN CHOICE (log 48): the order of the fields in the sections. -/
def Lane.saved (l : Lane) : List Int :=
  let hold : Int := match l.st with
    | .held => 3
    | .parked => -3
    | .exited => 1
    | .bornExited => 1
    | .ready => 0
  [l.pc.val, l.skip + 19683 * hold, l.kPacked, l.fs.toInt, l.rng.val]

/-- What the image holds of lane i of a group for the group's call records (R175, R365): the target of a lane that is held, and a word
of which trit r says where the lane is in record r (+ in a released subset, − parked), and trit 9 + r that it is held there (log 48). -/
def Group.standing (g : Group) (i : Nat) : List Int :=
  let target : Int := ((g.calls.findSome? fun c => (c.held.find? fun e => e.1 == i).map fun e => e.2.val)).getD 0
  let trit (c : CallRec) : Int := if c.parked.contains i then -1 else trit01 (c.out.contains i)
  let one (e : Nat × CallRec) : Int := trit e.2 * 3 ^ e.1 + trit01 (e.2.held.any fun h => h.1 == i) * 3 ^ (9 + e.1)
  [target, (((List.range g.calls.length).zip g.calls).map one).foldl (· + ·) 0]

/-- A lane as its saved words restore it. -/
def Lane.restored (l : Lane) (vs : List Int) : Lane :=
  let v := wordAt vs 1
  let st : LaneSt := if tritAt v 9 = 1 then .exited else if fld v 10 11 = 1 then .held else if fld v 10 11 = -1 then .parked else .ready
  { l.withK (wordAt vs 2) with pc := Word.ofInt (wordAt vs 0), skip := (fld v 0 8).toNat, st := st,
                               fs := Flags.ofInt (wordAt vs 3), rng := Word.ofInt (wordAt vs 4) }

/-- What the image holds of a group: its s registers and counts, its bank position with the number of its call records, and of each
record its word, payload and return point; the lanes of the records are in the Lanes section (log 48). -/
def Group.saved (g : Group) : List Int :=
  let ws := (List.range 27).map (fun i => (g.rdS i).val) ++ (List.range 9).map (fun i => (g.rdW i : Int)) ++
    [((g.slot + 19683 * g.calls.length : Nat) : Int)] ++ g.calls.flatMap fun c => [c.word.val, c.payload, c.ret.val]
  (ws ++ List.replicate 81 0).take 81

/-- Call record r of a group from its words, and from the words of its lanes. -/
def callRestored (vs : List Int) (lanes : List (Nat × List Int)) (r : Nat) : CallRec :=
  let w (i : Nat) : Int := wordAt vs (37 + 3 * r + i)
  let stand (n : Nat) (v : Int) : List (Nat × List Int) := lanes.filter fun e => tritAt (wordAt e.2 6) n == v
  let parked := (stand r (-1)).map (·.1)
  { word := Word.ofInt (w 0), payload := w 1, ret := Word.ofInt (w 2),
    held := (stand (9 + r) 1).map fun e => (e.1, Word.ofInt (wordAt e.2 5)),
    out := (stand r 1).map (·.1) ++ parked, parked := parked }

/-- A group as the words of the image restore it, with those of its lanes. -/
def Group.restored (g : Group) (vs : List Int) (lanes : List (Nat × List Int)) : Group :=
  let g := (List.range 27).foldl (fun g i => g.wrS i (Word.ofInt (wordAt vs i))) g
  let g := (List.range 9).foldl (fun g i => g.wrW i (wordAt vs (27 + i)).toNat) g
  { g with slot := (fld (wordAt vs 36) 0 8).toNat
           calls := (List.range (fld (wordAt vs 36) 9 17).toNat).map (callRestored vs lanes) }

/-- The lanes of a group that have a thread. -/
def Group.threads (g : Group) : List Nat := g.lanesWhere fun l => l.st != .bornExited

/-- The Groups and Lanes sections. -/
def State.putGroups (s : State) (w : Workgroup) : Except (Nat × Int) State :=
  foldE (fun (s : State) (g : Group) => do
    let s ← foldE (fun (s : State) (h : Nat) => s.imageWrite w (81 + 243 * h) g.saved) s (w.framed g)
    foldE (fun (s : State) (i : Nat) =>
      s.imageWrite w (w.kernel.sections.lanes + 27 * (g.lane i).thread) ((g.lane i).saved ++ g.standing i ++ [0, 0])) s g.threads) s
    (s.groupsOf w.id)

/-- The threads that a workgroup has in bins, in the order of the bins and of their filing. -/
def binned (bs : List Bin) : List Lane := bs.flatMap (·.threads)

/-- The Bins section: for each filed thread its number, what is saved of a lane, and 0s; its g registers are in the Registers section
(log 48). -/
def State.putBins (s : State) (w : Workgroup) (ls : List Lane) : Except (Nat × Int) State :=
  foldE (fun (s : State) (e : Nat × Lane) =>
    s.imageWrite w (w.kernel.sections.bins + 81 * e.1) (((e.2.thread : Int) :: e.2.saved) ++ List.replicate 21 0)) s
    ((List.range ls.length).zip ls)

/-- A frame of Table 7: one that is not present has header item 0 written as −1. -/
def State.putFrames (s : State) (w : Workgroup) (g : Group) : Except (Nat × Int) State :=
  foldE (fun (s : State) j => do
    let at_ := w.kernel.sections.frames + 354294 * j
    let trap : List Int ← (if g.handler.isNone then .ok [-1]
      else match s.frameRead w j 0 59049 with
        | .ok (_, vs) => .ok vs
        | .error c => .error (c, w.frameAt j))
    let s ← s.imageWrite w at_ trap
    s.imageWrite w (at_ + 177147) (if g.saveFrame then saveFrameWords g (j - g.hw) else [-1])) s (w.framed g)

/-- The words of a run of scratchpad trytes. -/
def State.runWords (s : State) (w : Workgroup) : List Int :=
  let core := coreIdx w.core
  (List.range (w.grans * 729)).map fun i => ofTrytes ((List.range 3).map fun j => s.scrGet core (w.gran * granule + 3 * i + j))

/-- The scratchpad words of a workgroup's run. -/
def Workgroup.holdsWord (w : Workgroup) (word : Nat) : Bool :=
  let base := coreIdx w.core * scrSize + w.gran * granule
  decide (base / 3 ≤ word) && decide (word < base / 3 + w.grans * 729)

/-- R240: whether a save would read an uncorrectable error: in a register of the workgroup, or in its run. It then fails with cause 15
(DEDUCED, log 65: the save is the consumer). -/
def State.imageStruck (s : State) (w : Workgroup) : Option (Nat × Int) :=
  if s.bad.regs.any fun b => b.1 == w.id then some (15, w.image + (w.kernel.sections.regs : Int))
  else if s.bad.scr.any w.holdsWord then some (15, w.image + (w.kernel.sections.shadow : Int))
  else none

/-- R368 step 3: the sections of an image are written, and reach the home die of its lines before any arrival that is diverted to it
(R263). -/
def State.putImage (s : State) (w : Workgroup) : Except (Nat × Int) State := do
  let k := w.kernel
  let sec := k.sections
  let filed := binned ((s.coreAt (coreIdx w.core)).bins.filter fun b => b.wg == w.id)
  let s ← s.putGroups w
  let s ← s.putBins w filed
  let s ← foldE (fun (s : State) g => s.putFrames w g) s (s.groupsOf w.id)
  let s ← foldE (fun (s : State) l =>
    s.imageWrite w (sec.regs + 27 * k.regs * l.thread) ((List.range (9 * k.regs)).map fun n => (l.rdG n).val)) s (s.threadLanes w ++ filed)
  let u := s.unitAt (coreClu w.core)
  let s ← foldE (fun (s : State) i =>
    s.imageWrite w (sec.tiles + 59049 * i)
      ((List.range 19683).map fun n => (SMap.get zeroW u.tiles (w.tileAt i * 19683 + n)).val)) s (List.range k.tiles)
  let s ← s.imageWrite w sec.shadow (s.runWords w)
  .ok s.drainUpdates

/-! ## Arrivals (R366, R367, R370) -/

/-- Where an arrival is applied: at the shadow of an entry, or at the scratchpad of a core. -/
structure Target where
  w : Option Workgroup
  core : Nat
  entry : Option DivEntry
deriving DecidableEq, Repr

def Target.read (t : Target) (s : State) (off : Nat) : Except (Nat × Int) (State × Tryte) :=
  match t.entry, t.w with
  | some e, some w =>
    match s.shadowGet (coreDie t.core) w.region.ctx (e.shadowAt off) with
    | .ok r => .ok r
    | .error c => .error (c, e.shadowAt off)
  | _, _ => .ok (s, s.scrGet t.core off)

def Target.write (t : Target) (s : State) (off : Nat) (v : Tryte) : Except (Nat × Int) State :=
  match t.entry, t.w with
  | some e, some w =>
    match s.shadowSet (coreDie t.core) w.region.ctx (e.shadowAt off) v with
    | .ok s => .ok s
    | .error c => .error (c, e.shadowAt off)
  | _, _ => .ok (s.scrSet t.core off v)

def Target.readAll (t : Target) (s : State) (off n : Nat) : Except (Nat × Int) (State × List Tryte) :=
  (List.range n).foldlM (fun (acc : State × List Tryte) i => do
    let (s, v) ← t.read acc.1 (off + i)
    .ok (s, acc.2 ++ [v])) (s, [])

def Target.writeAll (t : Target) (s : State) (off : Nat) (vs : List Tryte) : Except (Nat × Int) State :=
  foldE (fun (s : State) (e : Nat × Tryte) => t.write s (off + e.1) e.2) s ((List.range vs.length).zip vs)

/-- R240: whether trytes at the scratchpad of a core lie in a word with an uncorrectable error. -/
def Target.struck (t : Target) (s : State) (off n : Nat) : Bool :=
  t.entry.isNone && (List.range n).any fun i => s.badScr t.core (off + i)

/-- R240: an element that meets an uncorrectable error where it would be applied is its group's to perform again, and fails there
(`State.accessDone`). -/
def State.giveBack (s : State) (issuer : Nat × Nat) (pend lane elem core off n : Nat) : State :=
  let m : MemElem := ⟨lane, elem, (List.range n).map fun i => .scr core (off + i)⟩
  s.updGroup ⟨issuer.1, issuer.2⟩ fun g =>
    { g with pend := g.pend.map fun p => if p.id == pend then { p with todo := p.todo ++ [m] } else p }

/-- R240, R276: words of a core's scratchpad that a write replaces whole hold no error any more; a write of a part of one leaves a record
of cause 15. -/
def State.mendWords (s : State) (a : Arrival) (core off n : Nat) (issuer : Option (Nat × Nat × Nat)) : State :=
  let at_ := core * scrSize + off
  let whole (word : Nat) : Bool := decide (at_ ≤ 3 * word) && decide (3 * word + 3 ≤ at_ + n)
  let met (word : Nat) : Bool := decide (at_ < 3 * word + 3) && decide (3 * word < at_ + n)
  let s' : State := { s with bad := { s.bad with scr := s.bad.scr.filter fun x => !whole x } }
  match (s'.bad.scr.any met), s.wgOf a.by_ with
  | true, some w =>
    let hw := (issuer.map fun i => i.2.1).getD 0
    let pc := ((s.groupOf ⟨a.by_, hw⟩).bind fun g => (g.pend.find? fun p => some p.id == issuer.map fun i => i.2.2).map (·.pc)).getD zeroW
    s'.noteLate (recordOf s w hw 15 pc) w.region
  | _, _ => s'

/-- R367, Table 9: an arrival is applied. -/
def State.applyArrival (s : State) (t : Target) (a : Arrival) : Except (Nat × Int) State :=
  match a.kind with
  | .data off vals issuer => do
    let s ← t.writeAll s off vals
    .ok (if t.entry.isNone then s.mendWords a t.core off vals.length issuer else s)
  | .load off len issuer pend lane elem =>
    if t.struck s off len then .ok (s.giveBack issuer pend lane elem t.core off len)
    else do
    let (s, ts) ← t.readAll s off len
    .ok (s.answer issuer pend lane elem ts)
  | .atomic off op cas tryte x y issuer pend lane elem =>
    if t.struck s off (if tryte then 1 else 3) then .ok (s.giveBack issuer pend lane elem t.core off (if tryte then 1 else 3))
    else do
    let n := if tryte then 1 else 3
    let (s, ts) ← t.readAll s off n
    let old := ofTrytes ts
    let new := if cas then casResult old x.val y.val else atomResult op (9 * n) old x.val
    let s ← t.writeAll s off (toTrytes n new)
    .ok (s.answer issuer pend lane elem ts)
  | .barrier off _ =>
    if t.struck s off 27 then .ok s
    else do
    let (s, ts) ← t.readAll s off 27
    match barrierStep (wordsOfTrytes ts) with
    | none => .ok s
    | some (ws, _) => t.writeAll s off (ws.flatMap fun v => toTrytes 3 v)
  | .decrement hw slot =>
    match t.entry, t.w, s.groupOf ⟨a.wg, hw⟩ with
    | some _, some w, some g =>
      if (w.framed g).isEmpty then .ok (s.updGroup g.ref fun g => g.wrW slot (g.rdW slot - 1))
      else do
        let off := 81 + 243 * g.hw + 3 * (27 + slot)
        let (s, vs) ← s.imageRead w off 1
        s.imageWrite w off [wordAt vs 0 - 1]
    | _, _, _ => .ok (s.updGroup ⟨a.wg, hw⟩ fun g => g.wrW slot (g.rdW slot - 1))

def ArrivalKind.off : ArrivalKind → Option Nat
  | .data off _ _ => some off
  | .atomic off _ _ _ _ _ _ _ _ _ => some off
  | .barrier off _ => some off
  | .load off _ _ _ _ _ => some off
  | .decrement _ _ => none

/-- R221, R381: an arrival that finds no entry: applied to whoever of its issuer's context holds the granule, else discarded. -/
def State.applyDirect (s : State) (core : Nat) (a : Arrival) : State :=
  let ctx := ((s.wgOf a.by_).map (·.region.ctx.num)).getD 0
  let there : Bool := match a.kind.off with
    | none => (s.wgOf a.wg).isSome
    | some off => (s.wgOf a.by_).isSome && s.ownedBy core off ctx
  if there then
    match s.applyArrival ⟨none, core, none⟩ a with
    | .ok s => s
    | .error _ => s
  else s.discardArrival a

/-! ## The save (R364, R368) -/

/-- R364: the overrun of a forced save is charged to its region, with a record of kind 6. -/
def State.chargeOverrun (s : State) (w : Workgroup) (late : Nat) : State :=
  if !w.forced || w.ctxsv then s else
    let who := structWho w.core.die w.region.ctx
    match s.coherentRead who (w.region.block + 48) with
    | .error _ => s.dieFatal w.core.die
    | .ok (s, n) =>
      let v := min (counterMax : Int) (n + late)
      (s.orFatal w.core.die (s.coherentWrite who (w.region.block + 48) v)).ringQueue w.region.ctx .agent
        (eventWords w.region.number.val 6 1 0 0 [w.index.val, late, v])

/-- The cycles from a workgroup's deadline to now. -/
def State.overrun (s : State) (w : Workgroup) : Nat :=
  if w.forced && !w.ctxsv then s.cycles (coreClu w.core) - (w.preqAt + w.region.deadline) else 0

/-- R363: the bins of a workgroup leave its core with it. -/
def State.takeBins (s : State) (w : Workgroup) : State :=
  let (mine, rest) := (s.coreAt (coreIdx w.core)).bins.partition fun b => b.wg == w.id
  (s.updCore (coreIdx w.core) fun c => { c with bins := rest }).updWg w.id fun w => { w with bins := mine }

/-- R368 step 2: a save takes an entry in state 0, and its image is being written. -/
def State.beginSave (s : State) (w : Workgroup) (entry : Nat) : State :=
  let late := s.overrun w
  let core := coreIdx w.core
  let s := s.chargeOverrun w late
  if s.dieDown w.core.die then s
  else
    let d : DivEntry :=
      { st := .zero, ctx := w.region.ctx.num, gran := w.gran, grans := w.grans,
        shadow := w.image + (w.kernel.sections.shadow : Int), wg := w.id }
    let s := (s.updCore core fun c => { c with divs := SMap.insert c.divs entry d }).emptySets core w.id
    let s := s.updWg w.id fun v => { v with save := .saving, entry := some entry, img := some w.image }
    match s.imageWrite w 0 (w.header 1 entry late) with
    | .error f => s.imageFails w f
    | .ok s => s

/-- R368 step 3. -/
def State.writeImage (s : State) (w : Workgroup) : State :=
  match s.imageStruck w, s.putImage w with
  | some f, _ => s.imageFails w f
  | none, .error f => s.imageFails w f
  | none, .ok s => s.updWg w.id fun w => { w with save := .written }

/-- R368 step 4, R369 step 4, R370: the hold queue of a core drains in its order, as far as its arrivals are for workgroups whose
images are written, into their shadows, or back, into their scratchpads. -/
def State.drainHold (s : State) (core : Nat) : State :=
  let free (a : Arrival) : Bool := ((s.wgOf a.wg).map fun w => w.save == .entered || w.save == .written).getD true
  let go := (s.coreAt core).hold.takeWhile free
  go.foldl (fun (s : State) a =>
    match s.wgOf a.wg with
    | none => s.discardArrival a
    | some w =>
      let e := if w.save == .written then List.find? (α := Nat × DivEntry) (fun e => e.2.wg == w.id) (s.coreAt core).divs else none
      match s.applyArrival ⟨e.map fun _ => w, core, e.map (·.2)⟩ a with
      | .ok s => s
      | .error f => if e.isSome then (s.discardArrival a).imageFails w f else s.discardArrival a)
    (s.updCore core fun c => { c with hold := c.hold.dropWhile free })

/-- R368 step 5: the entry diverts, the resources are free, and the workgroup is suspended. -/
def State.endSave (s : State) (w : Workgroup) : State :=
  let core := coreIdx w.core
  match s.imageWrite w 0 [2] with
  | .error f => s.imageFails w f
  | .ok s =>
    let s := (s.updCore core fun c =>
      { c with divs := c.divs.map fun e => if e.2.wg == w.id then (e.1, { e.2 with st := .neg }) else e }).takeBins w
    let s := s.updWg w.id fun w => { w with st := .suspended, save := .none, saveAt := s.cycles (coreClu w.core) }
    let counts (m : Mark) : Mark :=
      if m.waiting.contains w.id then { m with waiting := m.waiting.filter (· != w.id), saved := m.saved + 1 } else m
    State.dropTables { s with marks := s.marks.map counts } core

/-- R368: once its groups have stopped, a workgroup is drained, takes an entry when one is free (DESIGN CHOICE: the lowest, log 25),
has its image written, and is suspended once none of its arrivals is held. -/
def State.saveTurn (s : State) (wg : Nat) : Option State := do
  let w ← s.wgOf wg
  let core := coreIdx w.core
  if w.st != .resident || s.dieDown w.core.die then none
  else match w.save with
    | .stopping =>
      if (s.groupsOf wg).any fun g => !g.isStopped then none
      else
        let s := s.drainUnit w
        if !s.drained w then return s
        else
          let divs := (s.coreAt core).divs
          return match (List.range 243).find? (fun n => (SMap.find? divs n).isNone) with
            | none => s
            | some n => s.beginSave w n
    | .saving => some (s.writeImage w)
    | .written =>
      let s := s.drainHold core
      return match s.wgOf wg with
        | none => s
        | some w => if (s.coreAt core).hold.any (fun a => a.wg == wg) then s else s.endSave w
    | _ => none

def execWorkgroupSave (wg : Nat) (s : State) : Host.Outcome State Fault Refusal := runEvent s (·.saveTurn wg)

/-- R367, R370: the first arrival on its way to a core meets the entry of its workgroup; one that fails at the shadow is answered as
performed, and the workgroup ends (R368). -/
def State.arrivalTurn (s : State) (core : Nat) : Option State := do
  let n ← indexOf? (fun (a : Nat × Arrival) => a.1 == core) s.arrivals
  let a ← s.arrivals[n]?
  let s' : State := { s with arrivals := dropAt s.arrivals n }
  let e : Option (Nat × DivEntry) := List.find? (α := Nat × DivEntry) (fun e => e.2.wg == a.2.wg) (s.coreAt core).divs
  match e with
  | some (_, d) =>
    let w ← s.wgOf a.2.wg
    if d.st = .neg then
      match s'.applyArrival ⟨some w, core, some d⟩ a.2 with
      | .ok s => some s
      | .error f => some ((s'.discardArrival a.2).imageFails w f)
    else if s.holdFull core then none
    else some (s'.updCore core fun c => { c with hold := c.hold ++ [a.2] })
  | none => some (s'.applyDirect core a.2)

def execDivertedArrival (core : CoreRef) (s : State) : Host.Outcome State Fault Refusal :=
  runEvent s (·.arrivalTurn (coreIdx core))

/-! ## Resuming (R369, R371) -/

/-- The trytes of words. -/
def trytesOfWords (vs : List Int) : List Tryte := vs.flatMap fun v => toTrytes 3 v

/-- A change of the lanes that hold threads, in a workgroup's groups. -/
def State.updThread (s : State) (wg thread : Nat) (f : Lane → Lane) : State :=
  let lane (l : Lane) : Lane := if l.st != .bornExited && l.thread == thread then f l else l
  { s with groups := s.groups.map fun g => if g.wg == wg then { g with lanes := g.lanes.map lane } else g }

/-- A change of a filed thread of a workgroup. -/
def Workgroup.updFiled (w : Workgroup) (thread : Nat) (f : Lane → Lane) : Workgroup :=
  let lane (l : Lane) : Lane := if l.thread == thread then f l else l
  { w with bins := w.bins.map fun b => { b with threads := b.threads.map lane } }

/-- g registers from the words of the Registers section. -/
def Lane.withG (l : Lane) (vs : List Int) : Lane :=
  { l with g := ((List.range vs.length).zip vs).foldl (fun (m : SMap Word) e => if e.1 = 0 then m else m.set zeroW e.1 (Word.ofInt e.2)) [] }

/-- R126: the Groups, Lanes and Bins sections are read back. -/
def State.takeGroups (s : State) (w : Workgroup) : Except (Nat × Int) State := do
  let sec := w.kernel.sections
  let s ← foldE (fun (s : State) (g : Group) => do
    let (s, lanes) ← g.threads.foldlM (fun (acc : State × List (Nat × List Int)) i => do
      let (s, vs) ← acc.1.imageRead w (sec.lanes + 27 * (g.lane i).thread) 9
      .ok (s, acc.2 ++ [(i, vs)])) (s, [])
    let s := lanes.foldl (fun (s : State) e => s.updGroup g.ref fun g => g.updLane e.1 fun l => l.restored e.2) s
    if (w.framed g).isEmpty then .ok s
    else do
      let (s, vs) ← s.imageRead w (81 + 243 * g.hw) 81
      .ok (s.updGroup g.ref fun g => g.restored vs lanes)) s (s.groupsOf w.id)
  foldE (fun (s : State) (e : Nat × Lane) => do
    let (s, vs) ← s.imageRead w (sec.bins + 81 * e.1) 27
    .ok (s.updWg w.id fun w => w.updFiled e.2.thread fun l => l.restored (vs.drop 1))) s
    ((List.range (binned w.bins).length).zip (binned w.bins))

/-- The frames of the image: the trap frame goes back to its place, and the save frame restores the run that the save stopped. -/
def State.takeFrames (s : State) (w : Workgroup) (g : Group) : Except (Nat × Int) State := do
  let sec := w.kernel.sections
  let s ← (if g.handler.isNone then .ok s
    else foldE (fun (s : State) h => do
      let (s, vs) ← s.imageRead w (sec.frames + 354294 * h) 59049
      match s.frameWrite w h 0 vs with
      | .ok s => .ok s
      | .error c => .error (c, w.frameAt h)) s (w.framed g))
  if !g.saveFrame || (w.framed g).isEmpty then .ok s
  else
    let es := g.savedEntries
    let h : Handler := { cause := 0, busyOn := none, sets := es.map (·.set), issued := es.map (·.issued), past := es.map (·.past),
                         copies := es.map (·.copy), calls := g.calls, active := [], boundary := false }
    match s.resumed w g h true with
    | .error c => .error (c, w.frameIn g.hw true)
    | .ok x =>
      let read := (x.resuming.map fun q => q.head.toList ++ q.entries).getD []
      let back (q : Resuming) : Resuming :=
        if q.head.isSome then { q with head := read.head?, entries := read.drop 1 } else { q with entries := read }
      .ok (s.updGroup g.ref fun g =>
        { g with lanes := x.lanes, run := { g.run with count := x.run.count }, resuming := g.resuming.map back })

/-- R369 step 3: the sections of the image are copied back, the shadow into the scratchpad run. -/
def State.takeImage (s : State) (w : Workgroup) : Except (Nat × Int) State := do
  let k := w.kernel
  let sec := k.sections
  let core := coreIdx w.core
  let (s, run) ← s.imageRead w sec.shadow (w.grans * 729)
  let ts := trytesOfWords run
  let s := ((List.range ts.length).zip ts).foldl (fun (s : State) e => s.scrSet core (w.gran * granule + e.1) e.2) s
  let s : State := { s with bad := { s.bad with scr := s.bad.scr.filter fun x => !w.holdsWord x } }
  let s ← foldE (fun (s : State) i => do
    let (s, vs) ← s.imageRead w (sec.tiles + 59049 * i) 19683
    .ok (s.updUnit (coreClu w.core) fun u =>
      { u with tiles := ((List.range 19683).zip vs).foldl (fun (m : SMap Word) e =>
          m.set zeroW (w.tileAt i * 19683 + e.1) (Word.ofInt e.2)) u.tiles })) s (List.range k.tiles)
  let s ← foldE (fun (s : State) (l : Lane) => do
    let (s, vs) ← s.imageRead w (sec.regs + 27 * k.regs * l.thread) (9 * k.regs)
    .ok ((s.updThread w.id l.thread fun l => l.withG vs).updWg w.id fun w => w.updFiled l.thread fun l => l.withG vs)) s
    (s.threadLanes w ++ binned w.bins)
  let s ← s.takeGroups w
  foldE (fun (s : State) g => s.takeFrames w g) s (s.groupsOf w.id)

/-- R371: the records of a resumed workgroup are due before any other, as cause 21. -/
def State.deferRecords (s : State) (w : Workgroup) : State :=
  s.updDfq w.region fun q => { q with recs := q.recs.map fun r => if r.wg == some w.id then { r with deferred := true } else r }

/-- A restored group goes on: at a run boundary, or where it was stopped. -/
def Group.unstop (g : Group) : Group :=
  match g.phase with
  | .stopped => { g with phase := .boundary, saveFrame := false }
  | _ => { g with saveFrame := false }

/-- R369 steps 5 to 7: the entry is freed, the bins are the core's again, and the groups go on. R126 does not say whether the latched
high part of a thread's time count survives: here it does (DESIGN CHOICE, log 58). Word 0 of the image's header becomes 0 (DESIGN
CHOICE, log 25: R369 gives it no value). -/
def State.finishRestore (s : State) (w : Workgroup) : State :=
  let core := coreIdx w.core
  let late := s.cycles (coreClu w.core) - w.saveAt
  let s := s.updCore core fun c =>
    { c with divs := c.divs.filter fun e => e.2.wg != w.id
             bins := c.bins ++ w.bins.map fun b => { b with since := b.since + late } }
  match s.imageWrite w 0 [0] with
  | .error f => s.imageFails w f
  | .ok s =>
    let s := s.updWg w.id fun w =>
      { w with save := .none, entry := none, preq := false, forced := false, ctxsv := false, bins := [], img := none }
    let on (g : Group) : Group := if g.wg == w.id then g.unstop else g
    { s with groups := s.groups.map on, bad := { s.bad with regs := s.bad.regs.filter fun b => b.1 != w.id } }.deferRecords w

/-- R369: a resume that waits begins once its core's resources are free and no mark stands; then its image is copied back, its
arrivals drain, and it ends once none of them is held or on its way (R263) and its bins have room. -/
def State.resumeTurn (s : State) (wg : Nat) : Option State := do
  let w ← s.wgOf wg
  let core := coreIdx w.core
  if !w.resuming || s.dieDown w.core.die then none
  else if w.st = .suspended then
    if s.canRestore w && !s.marked w.region then some (s.beginRestore w) else none
  else if w.save = .restoring then
    some (match s.takeImage w with
      | .error f => s.imageFails w f
      | .ok s => s.updWg wg fun w => { w with save := .entered })
  else
    let s := s.drainHold core
    let w ← s.wgOf wg
    if (s.coreAt core).hold.any (fun a => a.wg == wg) || s.arrivals.any (fun a => a.1 == core && a.2.wg == wg) || decide ((s.coreAt core).bins.length + w.bins.length > 81) then return s
    else return s.finishRestore w

def execWorkgroupResume (wg : Nat) (s : State) : Host.Outcome State Fault Refusal := runEvent s (·.resumeTurn wg)

/-! ## The memory licence (R318) -/

/-- R318: the licence by the score of the last 2,187 cycles, every 81 cycles. -/
def State.reviewLicence (s : State) (core : Nat) : Option State :=
  let now := s.cycles (core / 9)
  let n := s.lostScore core
  if now < (s.coreAt core).reviewed + 81 then none
  else some (s.updCore core fun c =>
    { c with licence := if n < 81 then 81 else if n < 243 then 27 else 9, reviewed := now,
             lost := c.lost.filter fun t => decide (now < t + 2187) })

def execLicenceReview (core : CoreRef) (s : State) : Host.Outcome State Fault Refusal :=
  runEvent s fun s => s.reviewLicence (coreIdx core)

/-- R318: the starting point of the licence moves to the next workgroup, every 2,187 cycles. -/
def State.rotateLicence (s : State) (core : Nat) : Option State :=
  let now := s.cycles (core / 9)
  if now < (s.coreAt core).rotated + 2187 then none
  else some (s.updCore core fun c => { c with rotation := c.rotation + 1, rotated := now })

def execLicenceRotation (core : CoreRef) (s : State) : Host.Outcome State Fault Refusal :=
  runEvent s fun s => s.rotateLicence (coreIdx core)

end Sys2Proof.Machine
end

