-- ==== Sys2Proof/Machine/HostEvents.lean ====
section
/-! DEFINITION. The turns of the host, the links, the boot and the clocks (27_host_and_package.md R435 to R445, 05_registers.md
R121). -/

namespace Sys2Proof.Machine

/-! ## Time and clocks (R121, R429, R445) -/

/-- R429, event 3: on a core with a counter of it, a slot without a running group and with an assigned group that is not
eligible; whether the cycle falls in this nanosecond is free (log 1). -/
def State.idleSlots (s : State) (core : Nat) : State :=
  if !((s.coreAt core).progs.any fun e => fld e.2.sel.val 0 5 == 3) then s
  else
    let c : CoreRef := ⟨core / 243, core % 243 / 9, core % 9⟩
    (List.range 3).foldl (fun s n =>
      let sl : SlotRef := ⟨c, n⟩
      let idle := s.groups.filter fun g => s.onSlot sl g && !s.eligible g
      if (s.running sl).isSome || idle.isEmpty then s
      else
        let (b, s) := s.flip
        if b then s.progEventOf core 3 (idle.filterMap fun g => (s.wgOf g.wg).map fun w => w.region.ctx.num) else s) s

/-- R2, R445: the islands with lowered clocks fall behind by what they miss of a nominal cycle. -/
def State.lagClocks (s : State) : State :=
  { s with lags := s.clocks.foldl (fun (m : SMap Nat) e => m.set 0 e.1 (m.get 0 e.1 + (9 - e.2))) s.lags }

/-- R121: the time count rises by one. -/
def execTimeCountTick (s : State) : Host.Outcome State Fault Refusal :=
  runEvent s fun s => some ((s.cores.map (·.1)).foldl (fun s c => s.idleSlots c) { s with time := s.time + 1 }.lagClocks)

/-- R445: an island runs at a number of ninths of its nominal clock. -/
def execClockThrottle (island ninths : Nat) (s : State) : Host.Outcome State Fault Refusal :=
  runEvent s fun s =>
    if island < 144 ∧ 1 ≤ ninths ∧ ninths ≤ 9 then some { s with clocks := s.clocks.set 9 island ninths } else none

/-! ## Link retries (R427, R439) -/

def execXgRetry (link : Nat) (s : State) : Host.Outcome State Fault Refusal :=
  runEvent s fun s => if link < 9 then some (s.bump 11 0 link 1) else none
def execUcieFlitRetry (die peer : Nat) (s : State) : Host.Outcome State Fault Refusal :=
  runEvent s fun s => if die < 4 ∧ peer < 4 ∧ die ≠ peer then some (s.bump 10 die peer 1) else none

/-! ## The register and mailbox windows (R435, R436) -/

/-- Aligned elements of eight bytes as words; none where a write covers part of one or holds a value out of range. -/
def elements (off : Nat) (bytes : List Byte) : Option (List (Nat × Int)) :=
  if off % 8 ≠ 0 ∨ bytes.length % 8 ≠ 0 then none
  else
    let es := (List.range (bytes.length / 8)).map fun i => (off + 8 * i, bytesInt true ((bytes.drop (8 * i)).take 8))
    if es.all fun e => inWord e.2 then some es else none

def State.linkWord (s : State) (link i : Nat) : Int := (s.links.get zeroW (4 * link + i)).val
def State.setDoorbell (s : State) (link : Nat) (v : Int) : State :=
  { s with links := s.links.set zeroW (4 * link + 3) (Word.ofInt v) }

/-- R440: a doorbell write of 1 starts a transfer, unless one runs. -/
def State.startTransfer (s : State) (link : Nat) : Option State :=
  if link > 8 ∨ s.transfers.any fun t => t.link == link then none
  else
    let t : XgTransfer := ⟨link, s.linkWord link 0, s.linkWord link 1, s.linkWord link 2⟩
    some ({ s with transfers := s.transfers ++ [t] }.setDoorbell link 1)

/-- R442: a doorbell write of 1; one while a quote is pending is discarded. -/
def State.requestQuote (s : State) : Option State :=
  if s.attest = zeroW then some { s with attest := Word.ofInt 1 } else none

/-- R436, Table 2: a word of the register window: a doorbell or a consumer index acts, a word that the host only reads keeps its
value. -/
def State.putRegister (s : State) (off : Nat) (v : Int) : State :=
  let n := (off - 512) / 8
  if off = 96 then (if v = 1 then s.requestQuote.getD s else s)
  else if 512 ≤ off ∧ off < 800 then
    if n % 4 = 3 ∧ v = 1 then (s.startTransfer (n / 4)).getD s else { s with links := s.links.set zeroW n (Word.ofInt v) }
  else if 4096 ≤ off ∧ off < 9928 then (s.consumerWrite ((off - 4096) / 8) v).getD s
  else s

/-- R308, Table 1: a word of the mailbox window, among them the doorbells. A write to a slot that is not free is discarded; whether
it was is answered. -/
def State.putMailWord (s : State) (off : Nat) (v : Int) : State × Option (Nat × Nat) :=
  let m := off / 2160
  let n := off % 2160 / 8
  let b := s.box m
  if m > 26 then (s, none)
  else if n ≥ 243 then (s.setBox m { b with reply := b.reply.set zeroW (n - 243) (Word.ofInt v) }, none)
  else if b.words.get zeroW (27 * (n / 27) + 26) ≠ zeroW then (s, some (m, n / 27))
  else if n % 27 = 26 then ((s.doorbell m (n / 27) v).getD s, none)
  else (s.setBox m { b with words := b.words.set zeroW n (Word.ofInt v) }, none)

/-- R436: the nonce takes bytes of any number. -/
def State.putNonce (s : State) (off : Nat) (bytes : List Byte) : State :=
  { s with nonce := ((List.range bytes.length).zip bytes).foldl (fun (m : SMap Byte) e =>
      if 64 ≤ off + e.1 ∧ off + e.1 < 96 then m.set 0 (off + e.1 - 64) e.2 else m) s.nonce }

/-- R308: the overrun records of a host write, one for each slot that was not free. -/
def State.overruns (s : State) (es : List (Nat × Nat)) : State :=
  es.eraseDups.foldl (fun s e => match (s.box e.1).bound with
    | some (ctx, _) => s.boxRecord ctx 5 [e.1, e.2]
    | none => s) s

/-- R436: a host write to words of a window, in the order of their addresses. Bytes of the nonce are no part of a word, and those
before it are only read. -/
def State.hostWrite (s : State) (bar off : Nat) (bytes : List Byte) : Option State :=
  if bar = 0 then
    let t := s.putNonce off bytes
    let skip := 96 - off
    match elements (off + skip) (bytes.drop skip) with
    | some es => some (es.foldl (fun s e => s.putRegister e.1 e.2) t)
    | none => if off < 96 ∧ 64 < off + bytes.length then some t else none
  else if bar = 1 then
    (elements off bytes).map fun es =>
      let (s, full) := es.foldl (fun (acc : State × List (Nat × Nat)) e =>
        let (s, f) := acc.1.putMailWord e.1 e.2
        (s, acc.2 ++ f.toList)) (s, [])
      s.overruns full
  else none

def execHostRegisterWrite (bar off : Nat) (bytes : List Byte) (s : State) : Host.Outcome State Fault Refusal :=
  runEvent s (·.hostWrite bar off bytes)

/-- R410, R436: the consumer index of a context as the host reads it: of one that the device has not met, what the host last wrote
(log 28). -/
def State.consumerIndex (s : State) (ctx : Nat) : Int :=
  match s.context ctx with
  | none => (s.consumers.get zeroW ctx).val
  | some c => match s.structRead (structWho c.homeDie c) (c.rootBlock + 102) 1 with
    | .ok (_, vs) => wordAt vs 0
    | .error _ => 0

/-- R435, R436, Table 2: a byte of the register window as the host reads it: bytes that it only writes read as 0, and an offset
that no row maps gives none. -/
def State.registerByte (s : State) (i : Nat) : Option Byte :=
  let word (v : Int) : Option Byte := (intBytes 8 v)[i % 8]?
  if i < 8 then word 729
  else if i < 40 then word (s.dieStatus.getD (i / 8 - 1) 0)
  else if i < 64 then word (s.errata.getD (i / 8 - 5) zeroW).val
  else if i < 96 then some 0
  else if i < 104 then word s.attest.val
  else if i < 264 then some (s.quote.getD (i - 104) 0)
  else if i < 296 then some (s.sign.getD (i - 264) 0)
  else if 512 ≤ i ∧ i < 800 then word (s.links.get zeroW ((i - 512) / 8)).val
  else if 4096 ≤ i ∧ i < 9928 then word (s.consumerIndex ((i - 4096) / 8))
  else none

/-- R435, Table 1: a byte of the mailbox window as the host reads it. -/
def State.mailByte (s : State) (i : Nat) : Option Byte :=
  let n := i % 2160 / 8
  let b := s.box (i / 2160)
  if i < 27 * 2160 then
    (intBytes 8 (if n < 243 then b.words.get zeroW n else b.reply.get zeroW (n - 243)).val)[i % 8]?
  else none

/-- R435, R436: what a host read of the register or the mailbox window answers: none where it is an unsupported request. It
changes nothing, so it is no turn. -/
def State.hostRead (s : State) (bar off n : Nat) : Option (List Byte) :=
  (List.range n).mapM fun j => if bar = 0 then s.registerByte (off + j) else if bar = 1 then s.mailByte (off + j) else none

/-! ## Attestation (R442) -/

def execAttestationRequest (s : State) : Host.Outcome State Fault Refusal := runEvent s (·.requestQuote)

/-- R442, Table 4: bytes 0..127 of a quote. -/
def State.quoteBody (s : State) : List Byte :=
  let blocks : List Int := (List.range 108).map (fun i => (s.world.clusters.get .zero i).val) ++
    (List.range 27).map fun i => (s.world.mailboxes.get .zero i).val
  let codes := blocks.map fun v => if v = -1 then 255 else v
  (List.range 32).map (s.nonce.get 0) ++ (List.range 32).map Config.digest ++ s.errata.flatMap (fun w => intBytes 8 w.val) ++
    (sha256 (codes.map Int.toNat)).map (BitVec.ofNat 8) ++ List.replicate 8 0

/-- R442: the quote is signed, and the doorbell reads 0. -/
def execQuoteReady (s : State) : Host.Outcome State Fault Refusal :=
  runEvent s fun s =>
    if s.attest = zeroW then none
    else
      let body := s.quoteBody
      some { s with attest := zeroW, quote := body ++ (List.range 32).map (Config.signature body)
                    sign := (List.range 32).map fun i => Config.signature body (32 + i) }

/-! ## The binary and raw packed windows (R435, R52, R48, R306) -/

/-- The slot lines that hold a span of bytes. -/
def slotsOf (byte n : Nat) : List Nat := (List.range (if n = 0 then 0 else (byte + n - 1) / 160 - byte / 160 + 1)).map (byte / 160 + ·)

/-- A line that holds a slot leaves every last-level cache, so that the slot's bytes are those of memory (log 19). A line held
bad stays. -/
def State.settleSlot (s : State) (die : Nat) (lp : Bool) (slot : Nat) : State :=
  let at_ (k : LineKey) : Bool := k.die == die && k.lpddr == lp && decide (k.slot ≤ slot) && decide (slot < k.slot + k.budget)
  let keys := ((s.llc.filter fun e => at_ e.2.key).map fun e => e.2.key).eraseDups
  keys.foldl (fun s k =>
    let s := s.drainKey k
    (s.evictLine die k).getD s) s

/-- R427: the bursts of an access of slots as bytes (R435). -/
def State.slotBursts (s : State) (die : Nat) (lp : Bool) (slots : List Nat) (write : Bool) : State :=
  slots.foldl (fun s l => s.burst die (chanOf 0 lp l) write) s

def accWrites : HostAccess → Bool
  | .read _ => false
  | .write _ => true

/-- R435, R413: a host access of bytes of a tier, refused where a byte is beyond the tier, in a carve-out, or on a die that is
down. -/
def State.hostBytes (s : State) (die : Nat) (lp : Bool) (byte : Nat) (acc : HostAccess) : State :=
  let n := match acc with
    | .read n => n
    | .write bs => bs.length
  let refused := decide (die > 3) || decide (byte + n > tierLines lp * 160) || s.dieDown die ||
    (slotsOf byte n).any (s.inCarve die lp)
  if refused then
    match acc with
    | .read _ => { s with hostReads := s.hostReads ++ [none] }
    | .write _ => s
  else
    let s := (slotsOf byte n).foldl (fun s l => s.settleSlot die lp l) s
    let s := s.slotBursts die lp (slotsOf byte n) (accWrites acc)
    match acc with
    | .read n => { s with hostReads := s.hostReads ++ [some ((List.range n).map fun i => s.dramByte die lp (byte + i))] }
    | .write bs => s.writeDram die lp byte bs

/-- R435: region 2. -/
def State.hostWindow (s : State) (off : Nat) (acc : HostAccess) : State :=
  let n := match acc with
    | .read n => n
    | .write bs => bs.length
  let o := off % 2 ^ 38
  let none_ : State := match acc with
    | .read _ => { s with hostReads := s.hostReads ++ [none] }
    | .write _ => s
  match s.window (off / 2 ^ 38) with
  | none => none_
  | some w =>
    if off / 2 ^ 38 > 26 ∨ !w.valid ∨ o ≥ w.len ∨ o + n > w.len ∨ w.world = 1 then none_
    else s.hostBytes w.die w.lp (w.base + o) acc

def execHostBinaryWindowAccess (off : Nat) (acc : HostAccess) (s : State) : Host.Outcome State Fault Refusal :=
  runEvent s fun s => some (s.hostWindow off acc)

/-- R435: region 4. -/
def execHostRawPackedAccess (off : Nat) (acc : HostAccess) (s : State) : Host.Outcome State Fault Refusal :=
  runEvent s fun s =>
    let u := off / 2 ^ 40
    some (s.hostBytes (u / 2) (u % 2 == 1) (off % 2 ^ 40) acc)

/-! ## XG links (R440) -/

def execXgLinkTransfer (link : Nat) (s : State) : Host.Outcome State Fault Refusal := runEvent s (·.startTransfer link)

/-- R440: whether a span of a raw packed window is whole slots of one tier. -/
def spanOk (off len : Int) : Bool :=
  let u := off / 2 ^ 40
  let b := off % 2 ^ 40
  decide (0 ≤ off ∧ 0 ≤ len ∧ u < 8) && len % 160 == 0 && b % 160 == 0 && decide (b + len ≤ (tierLines (u % 2 == 1) * 160 : Nat))

/-- R440, R413: the bytes that a transfer sends; those of a carve-out, or of a die that is down, give no data. -/
def State.sentBytes (s : State) (off len : Int) : State × List (Option Byte) :=
  let u := (off / 2 ^ 40).toNat
  let (die, lp) := (u / 2, u % 2 == 1)
  let byte := (off % 2 ^ 40).toNat
  (slotsOf byte len.toNat).foldl (fun (acc : State × List (Option Byte)) l =>
    if acc.1.inCarve die lp l || acc.1.dieDown die then (acc.1, acc.2 ++ List.replicate 160 none)
    else
      let s := (acc.1.settleSlot die lp l).slotBursts die lp [l] false
      (s, acc.2 ++ (List.range 160).map fun i => some (s.dramByte die lp (160 * l + i)))) (s, [])

/-- R440: a transfer ends: its bytes are sent to the peer, and its doorbell reads 0, or −1 where it copies nothing. -/
def State.endTransfer (s : State) (link : Nat) : Option State := do
  let t ← s.transfers.find? fun t => t.link == link
  let s : State := { s with transfers := s.transfers.filter fun y => y.link != link }
  if spanOk t.src t.len && spanOk t.dst t.len then
    let (s, bs) := s.sentBytes t.src t.len
    return { s with xgOut := s.xgOut ++ [(link, t.dst.toNat, bs)] }.setDoorbell link 0
  else return s.setDoorbell link (-1)

def execXgTransferComplete (link : Nat) (s : State) : Host.Outcome State Fault Refusal := runEvent s (·.endTransfer link)

/-! ## Boot and reset (R441, R443) -/

/-- A number of the firmware image in a range. -/
def fwRange (i lo hi : Nat) : Nat := lo + (Config.firmware i).toNat % (hi - lo + 1)

/-- R413: the world map of the firmware image. Cluster 0 of a die admits the steward, which stands on it (R441). -/
def bootWorld : WorldMap :=
  let cluster (i : Nat) : Trit :=
    let t := Trit.sign (Config.firmware (1000 + i))
    if i % 27 = 0 ∧ t = .neg then .zero else t
  { clusters := (List.range 108).foldl (fun m i => m.set .zero i (cluster i)) []
    mailboxes := (List.range 27).foldl (fun m i => m.set .zero i (if Config.firmware (1200 + i) < 0 then .neg else .pos)) []
    carves := (List.range 8).map fun i => (i, ((Config.firmware (1300 + i)).toNat, (Config.firmware (1400 + i)).toNat)) }

/-- R59, R441: the region of the steward: supervisor mode, secure world. -/
def stewardRegion : Region :=
  let ctx : Ctx := ⟨fwRange 0 0 728, -243 * (fwRange 1 1 1000000 : Nat), 2187 * Config.firmware 2, 1, 0, []⟩
  { number := Word.ofInt (Config.firmware 3), block := ctx.rootBlock, cls := .zero, world := .pos, supervisor := true,
    budget := fwRange 4 1 531441, budgetBlock := ctx.rootBlock, handler := Word.ofInt (Config.firmware 5),
    dfq := Config.firmware 6, attrtab := Config.firmware 7, comptab := Config.firmware 8, seed := Word.ofInt (Config.firmware 9),
    deadline := fwRange 10 0 10000, frames := Config.firmware 11, save := Config.firmware 12, stride := 19683 * fwRange 13 0 1000,
    partition := Config.firmware 14, ancestors := [ctx.rootBlock], ctx := ctx }

def stewardKernel : Kernel :=
  { entry := Word.ofInt (3 * Config.firmware 20), reforming := false, binAge := 2187, width := 27, regs := fwRange 21 1 9,
    scratch := granule * fwRange 22 1 243, priv := 0, tiles := fwRange 23 0 27, checked := false, threads := fwRange 24 1 729 }

/-- R441 step 5: the steward starts on core 0 of cluster 0 of a die. -/
def State.startSteward (s : State) (die : Nat) : State :=
  match roomOn [] [] stewardKernel 0 0 with
  | none => s
  | some m =>
    let b : Batch := { region := stewardRegion, kernel := stewardKernel, first := die, count := 1,
                       launch := List.replicate 26 zeroW, coresident := false, node := none, time := s.time }
    let s := s.placeOne die 0 b stewardRegion m 0
    { s with stamp := s.stamp + 1 }.meetRegion stewardRegion

/-- R228, R441: the address of the boot record. -/
def bootRecordAt : Int := -3812798732652

/-- R414: the errata mask of the firmware image, in three words: each trit is + or 0. -/
def errataMask : List Word :=
  (List.range 3).map fun i => Word.ofInt (ofTrits ((List.range 27).map fun j => Config.firmware (1500 + 27 * i + j) % 2))

/-- R441: the words of the boot record: the errata mask and the digest, one byte a tryte. -/
def bootRecord : List Int :=
  errataMask.map (·.val) ++
    wordsOfTrytes (((List.range 33).map fun i => if i < 32 then Tryte.ofInt (Config.digest i).toNat else zeroT))

/-- R441: the boot of one die. The firmware leaves its own memory, the page tables that map the boot record among it, in the die's
HBM4E (log 18). A boot record that cannot be written is fatal (R447). -/
def State.bootDie (s : State) (die : Nat) : State :=
  let ok := Config.bootOk die
  let s : State := { s with dieStatus := s.dieStatus.set die (if ok then 0 else -2), irqs := s.irqs ++ [729] }
  if !ok then s
  else
    let s : State :=
      { s with scr := SMap.clear s.scr (die * 243 * scrSize) ((die + 1) * 243 * scrSize)
               chip := SMap.clear s.chip (die * chipSize) ((die + 1) * chipSize)
               world := bootWorld, errata := errataMask }
    let s := (Config.bootBytes die).foldl (fun s e => s.writeDram die false (e.1 % (160 * tierLines false)) [e.2]) s
    match s.structWrite (structWho die stewardRegion.ctx) bootRecordAt bootRecord with
    | .ok s => s.startSteward die
    | .error _ => s.dieFatal die

/-- R441: every die that is booting boots. -/
def execPowerOnBoot (s : State) : Host.Outcome State Fault Refusal :=
  runEvent s fun s => some ((List.range 4).foldl (fun s die => if s.dieStatus.getD die 0 = 1 then s.bootDie die else s) s)

/-- R443, Table 5: a reset of the whole package. The model's own counters and what the device has sent out stand, and each die whose
status changes to booting raises vector 729 (R437). -/
def execDeviceReset (s : State) : Host.Outcome State Fault Refusal :=
  runEvent s fun s => some
    { State.reset with agenda := s.agenda, turns := s.turns, free := s.free, stamp := s.stamp, nextId := s.nextId,
                       irqs := s.irqs ++ (s.dieStatus.filter (· != 1)).map fun _ => 729, hostReads := s.hostReads, xgOut := s.xgOut }

/-! ## Fatal errors (R444) -/

def execDieFatalError (die : Nat) (s : State) : Host.Outcome State Fault Refusal :=
  runEvent s fun s => if die < 4 then some (s.dieFatal die) else none
def execTemperatureTrip (die : Nat) (s : State) : Host.Outcome State Fault Refusal :=
  runEvent s fun s => if die < 4 then some (s.dieFatal die) else none

end Sys2Proof.Machine
end

