-- ==== Sys2Proof/Machine/Dispatch.lean ====
section
/-! DEFINITION. One arm per constructor of Instr: the direct call of its meaning. -/

namespace Sys2Proof.Machine

def exec (i : Instr) (s : State) : Host.Outcome State Fault Refusal :=
  match i with
  | .lit p => Sys2Proof.Machine.execLit p s
  | .mov x => Sys2Proof.Machine.execMov x s
  | .movi x => Sys2Proof.Machine.execMovi x s
  | .lea x => Sys2Proof.Machine.execLea x s
  | .add x => Sys2Proof.Machine.execAdd x s
  | .sub x => Sys2Proof.Machine.execSub x s
  | .adds x => Sys2Proof.Machine.execAdds x s
  | .subs x => Sys2Proof.Machine.execSubs x s
  | .neg x => Sys2Proof.Machine.execNeg x s
  | .abs x => Sys2Proof.Machine.execAbs x s
  | .sgn x => Sys2Proof.Machine.execSgn x s
  | .mul x => Sys2Proof.Machine.execMul x s
  | .mulh x => Sys2Proof.Machine.execMulh x s
  | .mad x => Sys2Proof.Machine.execMad x s
  | .divn x => Sys2Proof.Machine.execDivn x s
  | .divz x => Sys2Proof.Machine.execDivz x s
  | .divf x => Sys2Proof.Machine.execDivf x s
  | .remn x => Sys2Proof.Machine.execRemn x s
  | .remz x => Sys2Proof.Machine.execRemz x s
  | .remf x => Sys2Proof.Machine.execRemf x s
  | .min x => Sys2Proof.Machine.execMin x s
  | .max x => Sys2Proof.Machine.execMax x s
  | .clamp x => Sys2Proof.Machine.execClamp x s
  | .tmin x => Sys2Proof.Machine.execTmin x s
  | .tmax x => Sys2Proof.Machine.execTmax x s
  | .tsum3 x => Sys2Proof.Machine.execTsum3 x s
  | .tprd x => Sys2Proof.Machine.execTprd x s
  | .tcns x => Sys2Proof.Machine.execTcns x s
  | .shl x => Sys2Proof.Machine.execShl x s
  | .shr x => Sys2Proof.Machine.execShr x s
  | .rot x => Sys2Proof.Machine.execRot x s
  | .ext x => Sys2Proof.Machine.execExt x s
  | .ins x => Sys2Proof.Machine.execIns x s
  | .cnt x => Sys2Proof.Machine.execCnt x s
  | .lead x => Sys2Proof.Machine.execLead x s
  | .cmp x => Sys2Proof.Machine.execCmp x s
  | .tst x => Sys2Proof.Machine.execTst x s
  | .sel3 x => Sys2Proof.Machine.execSel3 x s
  | .pset x => Sys2Proof.Machine.execPset x s
  | .cvtw x => Sys2Proof.Machine.execCvtw x s
  | .pack3 x => Sys2Proof.Machine.execPack3 x s
  | .unpk3 x => Sys2Proof.Machine.execUnpk3 x s
  | .splat x => Sys2Proof.Machine.execSplat x s
  | .tidx x => Sys2Proof.Machine.execTidx x s
  | .tjoin x => Sys2Proof.Machine.execTjoin x s
  | .fadd x => Sys2Proof.Machine.execFadd x s
  | .fsub x => Sys2Proof.Machine.execFsub x s
  | .fmul x => Sys2Proof.Machine.execFmul x s
  | .fma x => Sys2Proof.Machine.execFma x s
  | .fmin x => Sys2Proof.Machine.execFmin x s
  | .fmax x => Sys2Proof.Machine.execFmax x s
  | .fabs x => Sys2Proof.Machine.execFabs x s
  | .fneg x => Sys2Proof.Machine.execFneg x s
  | .fcmp x => Sys2Proof.Machine.execFcmp x s
  | .fcls x => Sys2Proof.Machine.execFcls x s
  | .fscl x => Sys2Proof.Machine.execFscl x s
  | .fexn x => Sys2Proof.Machine.execFexn x s
  | .ftrn x => Sys2Proof.Machine.execFtrn x s
  | .fflr x => Sys2Proof.Machine.execFflr x s
  | .fcel x => Sys2Proof.Machine.execFcel x s
  | .fcvt x => Sys2Proof.Machine.execFcvt x s
  | .ftoi x => Sys2Proof.Machine.execFtoi x s
  | .itof x => Sys2Proof.Machine.execItof x s
  | .fdot x => Sys2Proof.Machine.execFdot x s
  | .fdiv x => Sys2Proof.Machine.execFdiv x s
  | .fsqt x => Sys2Proof.Machine.execFsqt x s
  | .frcp x => Sys2Proof.Machine.execFrcp x s
  | .frsq x => Sys2Proof.Machine.execFrsq x s
  | .fex3 x => Sys2Proof.Machine.execFex3 x s
  | .flg3 x => Sys2Proof.Machine.execFlg3 x s
  | .fexe x => Sys2Proof.Machine.execFexe x s
  | .flge x => Sys2Proof.Machine.execFlge x s
  | .fsin x => Sys2Proof.Machine.execFsin x s
  | .fcos x => Sys2Proof.Machine.execFcos x s
  | .ftnh x => Sys2Proof.Machine.execFtnh x s
  | .bcvt x => Sys2Proof.Machine.execBcvt x s
  | .br x => Sys2Proof.Machine.execBr x s
  | .brp x => Sys2Proof.Machine.execBrp x s
  | .b3 x => Sys2Proof.Machine.execB3 x s
  | .call x => Sys2Proof.Machine.execCall x s
  | .calli x => Sys2Proof.Machine.execCalli x s
  | .ret x => Sys2Proof.Machine.execRet x s
  | .jmpi x => Sys2Proof.Machine.execJmpi x s
  | .loop x => Sys2Proof.Machine.execLoop x s
  | .endrun mask => Sys2Proof.Machine.execEndrun mask s
  | .yield mask => Sys2Proof.Machine.execYield mask s
  | .reform => Sys2Proof.Machine.execReform s
  | .exit p => Sys2Proof.Machine.execExit p s
  | .nop => Sys2Proof.Machine.execNop s
  | .shfl x => Sys2Proof.Machine.execShfl x s
  | .shfld x => Sys2Proof.Machine.execShfld x s
  | .shflt x => Sys2Proof.Machine.execShflt x s
  | .xperm x => Sys2Proof.Machine.execXperm x s
  | .bcst x => Sys2Proof.Machine.execBcst x s
  | .vote x => Sys2Proof.Machine.execVote x s
  | .redu x => Sys2Proof.Machine.execRedu x s
  | .scan x => Sys2Proof.Machine.execScan x s
  | .rng x => Sys2Proof.Machine.execRng x s
  | .sread x => Sys2Proof.Machine.execSread x s
  | .sreadPredicate x => Sys2Proof.Machine.execSreadPredicate x s
  | .swrite x => Sys2Proof.Machine.execSwrite x s
  | .swritePredicate x => Sys2Proof.Machine.execSwritePredicate x s
  | .mload x => Sys2Proof.Machine.execMload x s
  | .mloadp x => Sys2Proof.Machine.execMloadp x s
  | .mact sa => Sys2Proof.Machine.execMact sa s
  | .mpass x => Sys2Proof.Machine.execMpass x s
  | .mzero tile => Sys2Proof.Machine.execMzero tile s
  | .mrd x => Sys2Proof.Machine.execMrd x s
  | .mwr x => Sys2Proof.Machine.execMwr x s
  | .mstoreKeep x => Sys2Proof.Machine.execMstoreKeep x s
  | .mstoreZero x => Sys2Proof.Machine.execMstoreZero x s
  | .mstat x => Sys2Proof.Machine.execMstat x s
  | .ld x => Sys2Proof.Machine.execLd x s
  | .ldStrong x => Sys2Proof.Machine.execLdStrong x s
  | .st x => Sys2Proof.Machine.execSt x s
  | .stStrong x => Sys2Proof.Machine.execStStrong x s
  | .ldu x => Sys2Proof.Machine.execLdu x s
  | .stu x => Sys2Proof.Machine.execStu x s
  | .atom x => Sys2Proof.Machine.execAtom x s
  | .atomr x => Sys2Proof.Machine.execAtomr x s
  | .cas x => Sys2Proof.Machine.execCas x s
  | .fence x => Sys2Proof.Machine.execFence x s
  | .waitm x => Sys2Proof.Machine.execWaitm x s
  | .cwb x => Sys2Proof.Machine.execCwb x s
  | .cwbAll => Sys2Proof.Machine.execCwbAll s
  | .cinv x => Sys2Proof.Machine.execCinv x s
  | .cinvAll => Sys2Proof.Machine.execCinvAll s
  | .pref x => Sys2Proof.Machine.execPref x s
  | .prefLlc x => Sys2Proof.Machine.execPrefLlc x s
  | .cpy x => Sys2Proof.Machine.execCpy x s
  | .cpys x => Sys2Proof.Machine.execCpys x s
  | .cpyf x => Sys2Proof.Machine.execCpyf x s
  | .cpyl x => Sys2Proof.Machine.execCpyl x s
  | .cpylFlush x => Sys2Proof.Machine.execCpylFlush x s
  | .spawn x => Sys2Proof.Machine.execSpawn x s
  | .spawnCoresident x => Sys2Proof.Machine.execSpawnCoresident x s
  | .bari x => Sys2Proof.Machine.execBari x s
  | .bar x => Sys2Proof.Machine.execBar x s
  | .bara x => Sys2Proof.Machine.execBara x s
  | .barw x => Sys2Proof.Machine.execBarw x s
  | .mbrx x => Sys2Proof.Machine.execMbrx x s
  | .mbtxReply x => Sys2Proof.Machine.execMbtxReply x s
  | .mbtxBind x => Sys2Proof.Machine.execMbtxBind x s
  | .mbtxUnbind x => Sys2Proof.Machine.execMbtxUnbind x s
  | .evpost sa => Sys2Proof.Machine.execEvpost sa s
  | .rwalk x => Sys2Proof.Machine.execRwalk x s
  | .rstat x => Sys2Proof.Machine.execRstat x s
  | .trap code => Sys2Proof.Machine.execTrap code s
  | .resume => Sys2Proof.Machine.execResume s
  | .rqrd x => Sys2Proof.Machine.execRqrd x s
  | .rqwr x => Sys2Proof.Machine.execRqwr x s
  | .rqdrop sa => Sys2Proof.Machine.execRqdrop sa s
  | .dfpopRead d => Sys2Proof.Machine.execDfpopRead d s
  | .dfpopRetry d => Sys2Proof.Machine.execDfpopRetry d s
  | .dfpopSkip d => Sys2Proof.Machine.execDfpopSkip d s
  | .halt timeout => Sys2Proof.Machine.execHalt timeout s
  | .preempt x => Sys2Proof.Machine.execPreempt x s
  | .ctxsv x => Sys2Proof.Machine.execCtxsv x s
  | .ctxld x => Sys2Proof.Machine.execCtxld x s
  | .divsetQuery x => Sys2Proof.Machine.execDivsetQuery x s
  | .divsetRelease x => Sys2Proof.Machine.execDivsetRelease x s
  | .fmtset x => Sys2Proof.Machine.execFmtset x s
  | .shpset x => Sys2Proof.Machine.execShpset x s
  | .xpset x => Sys2Proof.Machine.execXpset x s
  | .ratset x => Sys2Proof.Machine.execRatset x s
  | .winset x => Sys2Proof.Machine.execWinset x s
  | .tlbinv sa sb => Sys2Proof.Machine.execTlbinv sa sb s
  | .tlbinvCtx sb => Sys2Proof.Machine.execTlbinvCtx sb s
  | .tlbfl => Sys2Proof.Machine.execTlbfl s
  | .icinv x => Sys2Proof.Machine.execIcinv x s
  | .icinvAll => Sys2Proof.Machine.execIcinvAll s
  | .cntrd x => Sys2Proof.Machine.execCntrd x s
  | .cntclr x => Sys2Proof.Machine.execCntclr x s
  | .cntsel x => Sys2Proof.Machine.execCntsel x s
  | .runStart sl => Sys2Proof.Machine.execRunStart sl s
  | .stalledWordIssue sl => Sys2Proof.Machine.execStalledWordIssue sl s
  | .memoryReadComplete g n => Sys2Proof.Machine.execMemoryReadComplete g n s
  | .memoryWriteComplete g n => Sys2Proof.Machine.execMemoryWriteComplete g n s
  | .longFloatComplete g n => Sys2Proof.Machine.execLongFloatComplete g n s
  | .matrixReadComplete g n => Sys2Proof.Machine.execMatrixReadComplete g n s
  | .mstatComplete g n => Sys2Proof.Machine.execMstatComplete g n s
  | .engineIssueComplete g n => Sys2Proof.Machine.execEngineIssueComplete g n s
  | .reformFiling g => Sys2Proof.Machine.execReformFiling g s
  | .binAgeLimit core bin => Sys2Proof.Machine.execBinAgeLimit core bin s
  | .monitorRecheck g => Sys2Proof.Machine.execMonitorRecheck g s
  | .waitmTimeout g => Sys2Proof.Machine.execWaitmTimeout g s
  | .haltWake g => Sys2Proof.Machine.execHaltWake g s
  | .pageWalk wg addr => Sys2Proof.Machine.execPageWalk wg addr s
  | .lineFill wg addr => Sys2Proof.Machine.execLineFill wg addr s
  | .codedBlockFill wg addr => Sys2Proof.Machine.execCodedBlockFill wg addr s
  | .l1Eviction core ctx line => Sys2Proof.Machine.execL1Eviction core ctx line s
  | .llcEviction die line => Sys2Proof.Machine.execLlcEviction die line s
  | .windowStoreRefusal n => Sys2Proof.Machine.execWindowStoreRefusal n s
  | .impreciseFaultRecord n => Sys2Proof.Machine.execImpreciseFaultRecord n s
  | .softError e => Sys2Proof.Machine.execSoftError e s
  | .matrixTurnGrant cluster queue => Sys2Proof.Machine.execMatrixTurnGrant cluster queue s
  | .matrixLoadComplete cluster => Sys2Proof.Machine.execMatrixLoadComplete cluster s
  | .matrixPassComplete cluster => Sys2Proof.Machine.execMatrixPassComplete cluster s
  | .mstoreComplete cluster queue => Sys2Proof.Machine.execMstoreComplete cluster queue s
  | .consumedEvent cluster queue => Sys2Proof.Machine.execConsumedEvent cluster queue s
  | .copyStart copy => Sys2Proof.Machine.execCopyStart copy s
  | .copySliceFault copy slice => Sys2Proof.Machine.execCopySliceFault copy slice s
  | .copySliceSteal copy slice thief => Sys2Proof.Machine.execCopySliceSteal copy slice thief s
  | .copyComplete copy => Sys2Proof.Machine.execCopyComplete copy s
  | .placement die cluster => Sys2Proof.Machine.execPlacement die cluster s
  | .spawnSteal die cluster => Sys2Proof.Machine.execSpawnSteal die cluster s
  | .workgroupGone wg => Sys2Proof.Machine.execWorkgroupGone wg s
  | .walkerNodeStart die => Sys2Proof.Machine.execWalkerNodeStart die s
  | .kernelNodeEnqueue walker => Sys2Proof.Machine.execKernelNodeEnqueue walker s
  | .loopIteration walker => Sys2Proof.Machine.execLoopIteration walker s
  | .waitNodeRead walker => Sys2Proof.Machine.execWaitNodeRead walker s
  | .nodeCompletion walker => Sys2Proof.Machine.execNodeCompletion walker s
  | .eventRingPost ctx => Sys2Proof.Machine.execEventRingPost ctx s
  | .ringPostRetry ctx => Sys2Proof.Machine.execRingPostRetry ctx s
  | .ringTimeThreshold ctx => Sys2Proof.Machine.execRingTimeThreshold ctx s
  | .consumerIndexWrite ctx value => Sys2Proof.Machine.execConsumerIndexWrite ctx value s
  | .mailboxDoorbellWrite box slot value => Sys2Proof.Machine.execMailboxDoorbellWrite box slot value s
  | .replyAreaFree box => Sys2Proof.Machine.execReplyAreaFree box s
  | .hostRegisterWrite bar off bytes => Sys2Proof.Machine.execHostRegisterWrite bar off bytes s
  | .attestationRequest => Sys2Proof.Machine.execAttestationRequest s
  | .quoteReady => Sys2Proof.Machine.execQuoteReady s
  | .hostBinaryWindowAccess off acc => Sys2Proof.Machine.execHostBinaryWindowAccess off acc s
  | .hostRawPackedAccess off acc => Sys2Proof.Machine.execHostRawPackedAccess off acc s
  | .xgLinkTransfer link => Sys2Proof.Machine.execXgLinkTransfer link s
  | .xgTransferComplete link => Sys2Proof.Machine.execXgTransferComplete link s
  | .xgRetry link => Sys2Proof.Machine.execXgRetry link s
  | .ucieFlitRetry die peer => Sys2Proof.Machine.execUcieFlitRetry die peer s
  | .preemptMarkArrival wg => Sys2Proof.Machine.execPreemptMarkArrival wg s
  | .preemptDeadline wg => Sys2Proof.Machine.execPreemptDeadline wg s
  | .workgroupSave wg => Sys2Proof.Machine.execWorkgroupSave wg s
  | .preemptMarkRemoval mark => Sys2Proof.Machine.execPreemptMarkRemoval mark s
  | .workgroupResume wg => Sys2Proof.Machine.execWorkgroupResume wg s
  | .divertedArrival core => Sys2Proof.Machine.execDivertedArrival core s
  | .licenceReview core => Sys2Proof.Machine.execLicenceReview core s
  | .licenceRotation core => Sys2Proof.Machine.execLicenceRotation core s
  | .timeCountTick => Sys2Proof.Machine.execTimeCountTick s
  | .powerOnBoot => Sys2Proof.Machine.execPowerOnBoot s
  | .deviceReset => Sys2Proof.Machine.execDeviceReset s
  | .dieFatalError die => Sys2Proof.Machine.execDieFatalError die s
  | .temperatureTrip die => Sys2Proof.Machine.execTemperatureTrip die s
  | .clockThrottle island ninths => Sys2Proof.Machine.execClockThrottle island ninths s
  | .heldWordCompletion sl => Sys2Proof.Machine.execHeldWordCompletion sl s
  | .lastLevelCopyUpdate n => Sys2Proof.Machine.execLastLevelCopyUpdate n s

end Sys2Proof.Machine
end

