-- ==== Sys2Proof/Machine/Step.lean ====
section
/-! DEFINITION. The step: one turn of the machine (log 1). A turn issues the next word of the group that runs on an issue
slot (03_execution.md R61), takes an event of another agent, or moves a piece of a copy. -/

namespace Sys2Proof.Machine

/-- One turn of an agent. -/
def takeTurn (t : Turn) (s : State) : Host.Outcome State Fault Refusal :=
  match t with
  | .word sl =>
    let s := { s with cur := sl }
    match s.running sl with
    | none => .next s
    | some (w, g) =>
      match s.nextWord w g with
      | .exec i s => exec i s
      | .stop s => .next s
  | .event i => if i.isEvent then exec i s else .next s
  | .slice c n => .next (s.sliceTurn c n)

/-- The last-level caches after a turn (R217, R241). -/
def settled : Host.Outcome State Fault Refusal → Host.Outcome State Fault Refusal
  | .next s => .next s.settle
  | o => o

/-- The machine's step: the next turn; where there is none, nothing happens. -/
def step (s : State) : Host.Outcome State Fault Refusal :=
  match s.nextTurn with
  | (some t, s) => settled (takeTurn t s)
  | (none, s) => .next s

/-- The state in which step fetches and runs the word whose trits are the bits of w, two bits a trit. -/
def State.withFetchWord (s : State) (nbits w : Nat) : State :=
  s.withWord ((tritsOfBits 27 (w % 2 ^ nbits)).getD 0)

end Sys2Proof.Machine
end

