-- ==== Sys2Proof/Safety.lean ====
section
/-! DEFINITION. What counts as a safe run, and the words in which claims are made: a word that issues, what it writes, and
what a step leaves as it was. -/

namespace Sys2Proof.Machine

/-! ## Safe runs -/

/-- A step that goes on. -/
def goesOn (s : State) : Prop := ∃ t, step s = .next t

/-- A run of n steps that goes on throughout. -/
def safeFor : Nat → State → Prop
  | 0, _ => True
  | n + 1, s => ∃ t, step s = .next t ∧ safeFor n t

/-! ## A word that issues -/

/-- R100: no check of a word of a group fails: fewer than 27 words have issued in the run, the word is well formed, its LITs
are allowed and its value is in range, its registers and tiles are allocated, the mode admits it, and no read of it is
refused. -/
abbrev Passes (s : State) (w : Workgroup) (g : Group) (i : Instr) : Prop :=
  (g.run.count < 27 ∨ (g.run.again.map (·.past)).getD false = true) ∧ i.wellFormed = true ∧
  litCheck i g.wordPay (if g.run.again.isSome then 0 else g.run.lits) g.run.again.isSome = none ∧ overAlloc w i = false ∧
  (i.supervisorOnly = true → w.region.supervisor = true) ∧ i.writesReadOnly = false ∧
  (i.handlerOnly = true → g.handler.isSome = true) ∧ i.modeViolation w.kernel.reforming = false ∧
  (w.kernel.checked = true → g.pend.any (pendTouches g g.run.active w.kernel.width i) = false) ∧
  readsBad s g g.run.active w.kernel.width i = false

/-- The group g of workgroup w runs on the current slot, and its word i issues: no check fails, its wait slot has room (R63),
the memory licence lets it through (R318), and no earlier acquire of its lanes is still to be performed (R251). -/
abbrev Issues (s : State) (w : Workgroup) (g : Group) (i : Instr) : Prop :=
  s.running s.cur = some (w, g) ∧ Passes s w g i ∧ (s.issueOf w g i).slotFull = false ∧
    (i.needsLicence = true → s.licensed w = true ∧ (s.issueOf w g i).heldBack = false)

/-- Every active lane of a group is changed by f, and nothing else. -/
abbrev Issue.eachLane (x : Issue) (f : Nat → Lane → Lane) : State := x.s.updGroup x.r fun g => g.updLanes x.active f

/-- The outcome of a word that changes its active lanes alone: the word has issued (`x.s`), each active lane is changed by f
of its number, and the calls of the group settle. -/
abbrev ChangesLanes (s : State) (w : Workgroup) (g : Group) (i : Instr) (f : Issue → Nat → Lane → Lane) : Prop :=
  exec i s = .next ((s.issueOf w g i).after ((s.issueOf w g i).eachLane (f (s.issueOf w g i))))

/-- The outcome of a word that writes elements of d in its active lanes: element j of lane l takes the value and flags v l j
under the lane's governing trits (R117). -/
abbrev WritesLanes (s : State) (w : Workgroup) (g : Group) (i : Instr) (ty : Ty) (d : Reg)
    (v : Issue → Nat → Nat → Int × Flags) : Prop :=
  ChangesLanes s w g i fun x n l => l.put ty d (x.pred n) (v x n)

/-- The outcome of a word op.T gd, a, b: element by element, f of the values of a, b and the old d. -/
abbrev Computes3 (s : State) (w : Workgroup) (g : Group) (i : Instr) (a : Op3) (f : Int → Int → Int → Int × Flags) : Prop :=
  WritesLanes s w g i a.ty a.d fun x l j => f (x.elem a.ty a.a l j) (x.elemB a.ty a.b l j) (x.elem a.ty a.d l j)

/-- The outcome of a word op.T gd, a. -/
abbrev Computes2 (s : State) (w : Workgroup) (g : Group) (i : Instr) (a : Op2) (f : Int → Int × Flags) : Prop :=
  WritesLanes s w g i a.ty a.d fun x l j => f (x.elem a.ty a.a l j)

/-- The outcome of a word op gd, a, b whose result is a word. -/
abbrev Computes0 (s : State) (w : Workgroup) (g : Group) (i : Instr) (a : Op0) (f : Int → Int → Int) : Prop :=
  WritesLanes s w g i .w a.d fun x l _ => (f (x.reg a.a l).val (x.src a.b l), {})

/-- The outcome of a word that writes a k register, trit by trit or as a word. -/
abbrev WritesPredicate (s : State) (w : Workgroup) (g : Group) (i : Instr) (kd : Nat) (byWord : Bool)
    (v : Issue → Nat → Nat → Int) : Prop :=
  ChangesLanes s w g i fun x n l => l.putK kd (x.pred n) byWord (v x n)

/-- The outcome of a word that leaves the state t of its issue, after which the calls of its group settle. -/
abbrev Leaves (s : State) (w : Workgroup) (g : Group) (i : Instr) (t : Issue → State) : Prop :=
  exec i s = .next ((s.issueOf w g i).after (t (s.issueOf w g i)))

/-- The outcome of a word that traps as it is issued, in a state t. -/
abbrev TrapsIn (s : State) (w : Workgroup) (g : Group) (i : Instr) (t : State) (f : Fail) : Prop :=
  exec i s = .next (t.takeFault (s.issueOf w g i).r (wordOf i) i.pred.eff f)

/-- The outcome of a word that traps as it is issued, in the state before it. -/
abbrev Traps (s : State) (w : Workgroup) (g : Group) (i : Instr) (f : Fail) : Prop :=
  TrapsIn s w g i (s.issueOf w g i).s0 f

/-- The outcome of a word that cannot go on yet: it is tried again as if it had not been met. -/
abbrev Stalls (s : State) (i : Instr) : Prop := exec i s = .next s

/-- The outcome of a word that holds its group on its slot (R61). -/
abbrev Holds (s : State) (w : Workgroup) (g : Group) (i : Instr) : Prop :=
  exec i s = .next ((s.issueOf w g i).s0.updGroup (s.issueOf w g i).r fun h => { h with run := { h.run with held := some i } })

/-- The outcome of a long-latency word with no active element (R63, R118): it takes no wait slot, a count that its replay entry holds
is released (R356), and its group changes by `zero` alone. -/
abbrev ZeroesAtIssue (s : State) (w : Workgroup) (g : Group) (i : Instr) (zero : Issue → Group → Group) : Prop :=
  (s.issueOf w g i).anyActive = false → Leaves s w g i fun x => x.s.updGroup x.r fun h =>
    match x.again, i.slotOf with
    | some e, some n => if e.slot then (zero x h).wrW n ((zero x h).rdW n - 1) else zero x h
    | _, _ => zero x h

/-- In each active lane the elements of some g registers whose governing trit is − are 0. -/
abbrev zeroDead (ns : List Nat) (byWord : Bool) (x : Issue) (h : Group) : Group :=
  x.active.foldl (fun h l => h.updLane l fun lane =>
    ns.foldl (fun lane n => lane.wrG n (mergeBy byWord (x.pred l) (lane.rdG n) zeroW)) lane) h

/-! A word that reads the table entries it names before it issues (R385, R446): `t` is the state after those reads. -/

/-- As Issues, for a word of a group that runs in s and issues in t. -/
abbrev IssuesAfter (s t : State) (w : Workgroup) (g : Group) (i : Instr) : Prop :=
  s.running s.cur = some (w, g) ∧ Passes t w g i ∧ (t.issueOf w g i).slotFull = false ∧
    (i.needsLicence = true → t.licensed w = true ∧ (t.issueOf w g i).heldBack = false)

/-- As Leaves, of a word that issues in t. -/
abbrev LeavesAfter (s t : State) (w : Workgroup) (g : Group) (i : Instr) (f : Issue → State) : Prop :=
  exec i s = .next ((t.issueOf w g i).after (f (t.issueOf w g i)))

/-- As Traps, of a word that issues in t. -/
abbrev TrapsAfter (s t : State) (w : Workgroup) (g : Group) (i : Instr) (f : Fail) : Prop :=
  exec i s = .next ((t.issueOf w g i).s0.takeFault (t.issueOf w g i).r (wordOf i) i.pred.eff f)

/-- The outcome of an event that happens and leaves the state t. -/
abbrev Happens (s : State) (i : Instr) (t : State) : Prop := exec i s = .next t

/-- The outcome of a transfer (R171, R69): in the state `before`, each active lane l moves to the PC `next` of l. Where these
differ, the group goes on with the lanes whose PC is the least of the lanes listed in `first`, else the least of all; a
transfer without a hint that finds no such lane then counts as one by Table 2 (`counts`). -/
abbrev Transfers (s : State) (w : Workgroup) (g : Group) (i : Instr) (before : Issue → State) (next : Issue → Nat → Int)
    (first : Issue → List Nat) (counts : Bool) : Prop :=
  Leaves s w g i fun x =>
    let moved := (before x).updGroup x.r fun h => h.updLanes x.active fun l lane => { lane with pc := Word.ofInt (next x l) }
    if x.active.all fun l => next x l == next x x.low then moved
    else
      let pc : Int := match first x with
        | [] => leastInt (x.active.map (next x))
        | ls => leastInt (ls.map (next x))
      let told := if counts then (moved.bump 28 w.core.die (coreIdx w.core % 243) 1).progEvent (coreIdx w.core) 12
          (some w.region.ctx.num) else moved
      told.updGroup x.r fun h => { h with run := { h.run with active := x.active.filter fun l => next x l == pc } }

/-! ## What stays as it was -/

/-- Every tryte of scratchpad and chip scratchpad and every byte of DRAM reads in t as in s. -/
abbrev SameMemory (s t : State) : Prop :=
  (∀ core off, t.scrGet core off = s.scrGet core off) ∧ (∀ die off, t.chipGet die off = s.chipGet die off) ∧
    ∀ die lp byte, t.dramByte die lp byte = s.dramByte die lp byte

/-- All state but the groups, the programmable counters of the cores, the choices still to come, and the marks of soft
errors in registers is in t as in s. -/
abbrev SameButGroups (s t : State) : Prop :=
  t = { s with groups := t.groups, cores := t.cores, free := t.free, bad := { s.bad with regs := t.bad.regs } } ∧
    ∀ core, t.coreAt core = { s.coreAt core with progs := (t.coreAt core).progs }

/-- Every group but one is in t as in s. -/
abbrev SameOtherGroups (s t : State) (r : GroupRef) : Prop := ∀ q, q ≠ r → t.groupOf q = s.groupOf q

/-- The registers of a lane are in l' as in l, but for the g registers, h registers and k registers listed. -/
abbrev SameRegisters (l l' : Lane) (gs hs ks : List Nat) : Prop :=
  (∀ n, n ∉ gs → l'.rdG n = l.rdG n) ∧ (∀ n, n ∉ hs → l'.rdH n = l.rdH n) ∧ (∀ n, n ∉ ks → l'.rdK n = l.rdK n) ∧
    l'.thread = l.thread ∧ l'.bank = l.bank ∧ l'.skip = l.skip

/-- The g registers of a destination gd of one word or of three; a triple at g0 is discarded (R113). -/
abbrev gRun (d : Nat) (three : Bool) : List Nat := if three then (if d = 0 then [] else [d, d + 1, d + 2]) else [d]

/-- The g and h registers that a destination of a type writes. -/
abbrev Reg.gNums (ty : Ty) : Reg → List Nat
  | .g n => gRun n.val (ty == .f81)
  | .h _ => []
abbrev Reg.hNums : Reg → List Nat
  | .g _ => []
  | .h n => [n.val]

end Sys2Proof.Machine
end

