-- ==== Sys2Proof/Certificates/Slice0/Obligations.lean ====
section
/-! DEFINITION. The statements about the machine. Each docstring names the rules of spec/ that its statement formalises. A
statement about a word is made of every workgroup and group whose word issues (Issues, Safety.lean). -/

open Sys2Proof Sys2Proof.Machine

/-! ## Integer instructions (06_integer_instructions.md) -/

/-- R134, R135, R136, R138: the results of ADD, SUB, ADDS, SUBS, MUL, MULH, MAD, MIN, MAX, CLAMP, NEG, ABS and SGN, element by
element, n trits wide. The sums and products are exact before they are wrapped or clamped, and saturate alone is raised, by
ADDS and SUBS where they clamp. -/
def Obligations.IntegerArithmeticResults : Prop :=
  (∀ (s : State) (w : Workgroup) (g : Group) (a : Op3),
    let n : Nat := if a.ty.tryte then 9 else 27
    let top : Int := (3 ^ n - 1) / 2
    let sat (v : Int) : Int × Flags :=
      if v > top then (top, { saturate := true }) else if v < -top then (-top, { saturate := true }) else (v, {})
    (Issues s w g (.add a) → Computes3 s w g (.add a) a fun u v _ => (wrapInt n (u + v), {})) ∧
    (Issues s w g (.sub a) → Computes3 s w g (.sub a) a fun u v _ => (wrapInt n (u - v), {})) ∧
    (Issues s w g (.adds a) → Computes3 s w g (.adds a) a fun u v _ => sat (u + v)) ∧
    (Issues s w g (.subs a) → Computes3 s w g (.subs a) a fun u v _ => sat (u - v)) ∧
    (Issues s w g (.mul a) → Computes3 s w g (.mul a) a fun u v _ => (wrapInt n (u * v), {})) ∧
    (Issues s w g (.mulh a) → Computes3 s w g (.mulh a) a fun u v _ => ((u * v - wrapInt n (u * v)) / 3 ^ n, {})) ∧
    (Issues s w g (.mad a) → Computes3 s w g (.mad a) a fun u v d => (wrapInt n (d + u * v), {})) ∧
    (Issues s w g (.min a) → Computes3 s w g (.min a) a fun u v _ => (Min.min u v, {})) ∧
    (Issues s w g (.max a) → Computes3 s w g (.max a) a fun u v _ => (Max.max u v, {})) ∧
    (Issues s w g (.clamp a) → Computes3 s w g (.clamp a) a fun u v d => (Max.max u (Min.min d v), {}))) ∧
  ∀ (s : State) (w : Workgroup) (g : Group) (a : Op2),
    (Issues s w g (.neg a) → Computes2 s w g (.neg a) a fun v => (-v, {})) ∧
    (Issues s w g (.abs a) → Computes2 s w g (.abs a) a fun v => ((v.natAbs : Int), {})) ∧
    (Issues s w g (.sgn a) → Computes2 s w g (.sgn a) a fun v => (v.sign, {}))

/-- R137: the six division instructions. There is one quotient to nearest with an exact half toward zero, one toward zero and
one toward minus infinity, told by their remainders; DIVN, DIVZ and DIVF give the quotient and REMN, REMZ and REMF the
remainder A − B·Q, exactly; a 0 divisor gives 0 and raises divzero, and no other flag is raised. DIVN by 3^c gives SHR by c. -/
def Obligations.DivisionByThreeRules : Prop :=
  ∃ qn qz qf : Int → Int → Int,
    (∀ a b : Int, b ≠ 0 →
      2 * (a - b * qn a b).natAbs ≤ b.natAbs ∧ (2 * (a - b * qn a b).natAbs = b.natAbs → (a - b * qn a b).sign = a.sign) ∧
      (a - b * qz a b).natAbs < b.natAbs ∧ (a - b * qz a b = 0 ∨ (a - b * qz a b).sign = a.sign) ∧
      (a - b * qf a b).natAbs < b.natAbs ∧ (a - b * qf a b = 0 ∨ (a - b * qf a b).sign = b.sign) ∧
      (qn a b).natAbs ≤ a.natAbs ∧ (qz a b).natAbs ≤ a.natAbs ∧ (qf a b).natAbs ≤ a.natAbs) ∧
    (∀ (a : Int) (c : Nat), qn a (3 ^ c) = (a - wrapInt c a) / 3 ^ c) ∧
    ∀ (s : State) (w : Workgroup) (g : Group) (a : Op3),
      let quot (q : Int → Int → Int) (u v : Int) (_ : Int) : Int × Flags :=
        if v = 0 then (0, { divzero := true }) else (q u v, {})
      let rem (q : Int → Int → Int) (u v : Int) (_ : Int) : Int × Flags :=
        if v = 0 then (0, { divzero := true }) else (u - v * q u v, {})
      (Issues s w g (.divn a) → Computes3 s w g (.divn a) a (quot qn)) ∧
      (Issues s w g (.divz a) → Computes3 s w g (.divz a) a (quot qz)) ∧
      (Issues s w g (.divf a) → Computes3 s w g (.divf a) a (quot qf)) ∧
      (Issues s w g (.remn a) → Computes3 s w g (.remn a) a (rem qn)) ∧
      (Issues s w g (.remz a) → Computes3 s w g (.remz a) a (rem qz)) ∧
      (Issues s w g (.remf a) → Computes3 s w g (.remf a) a (rem qf))

/-- R139: TMIN, TMAX, TSUM3, TPRD and TCNS write the element of n trits of which trit i is the function of Table 4 of trit i
of A and trit i of B. -/
def Obligations.TritFunctionsByPosition : Prop :=
  ∃ each : (Int → Int → Int) → Nat → Int → Int → Int,
    (∀ (f : Int → Int → Int) (n : Nat) (a b : Int), (∀ x y : Int, x.natAbs ≤ 1 → y.natAbs ≤ 1 → (f x y).natAbs ≤ 1) →
      (each f n a b).natAbs ≤ maxMag n ∧ ∀ i, i < n → tritAt (each f n a b) i = f (tritAt a i) (tritAt b i)) ∧
    ∀ (s : State) (w : Workgroup) (g : Group) (a : Op3),
      let n : Nat := if a.ty.tryte then 9 else 27
      let sum3 (x y : Int) : Int := if x + y = 2 then -1 else if x + y = -2 then 1 else x + y
      (Issues s w g (.tmin a) → Computes3 s w g (.tmin a) a fun u v _ => (each Min.min n u v, {})) ∧
      (Issues s w g (.tmax a) → Computes3 s w g (.tmax a) a fun u v _ => (each Max.max n u v, {})) ∧
      (Issues s w g (.tsum3 a) → Computes3 s w g (.tsum3 a) a fun u v _ => (each sum3 n u v, {})) ∧
      (Issues s w g (.tprd a) → Computes3 s w g (.tprd a) a fun u v _ => (each (· * ·) n u v, {})) ∧
      (Issues s w g (.tcns a) → Computes3 s w g (.tcns a) a fun u v _ => (each (fun x y => if x = y then x else 0) n u v, {}))

/-- R140, R141, R142: SHL and SHR multiply by a power of 3 and wrap, or drop low trits, and give 0 for a count of n or more;
ROT moves trit i to trit (i + c) mod n; EXT and INS take and place the field of B; CNT counts trits equal to the sign of B
and LEAD finds the leading nonzero trit. No flag is raised. -/
def Obligations.ShiftFieldAndCountResults : Prop :=
  (∀ (s : State) (w : Workgroup) (g : Group) (a : Op3),
    let n : Nat := if a.ty.tryte then 9 else 27
    let up (u c : Int) : Int := wrapInt n (u * 3 ^ c.toNat)
    let down (u c : Int) : Int := (u - wrapInt c.toNat u) / 3 ^ c.toNat
    (Issues s w g (.shl a) → Computes3 s w g (.shl a) a fun u c _ =>
      (if c ≥ n ∨ c ≤ -(n : Int) then 0 else if c ≥ 0 then up u c else down u (-c), {})) ∧
    (Issues s w g (.shr a) → Computes3 s w g (.shr a) a fun u c _ =>
      (if c ≥ n ∨ c ≤ -(n : Int) then 0 else if c ≥ 0 then down u c else up u (-c), {})) ∧
    (Issues s w g (.rot a) → ∃ rot : Int → Int → Int,
      (∀ u c : Int, (rot u c).natAbs ≤ maxMag n ∧ ∀ i, i < n → tritAt (rot u c) ((i + (c % n).toNat) % n) = tritAt u i) ∧
      Computes3 s w g (.rot a) a fun u c _ => (rot u c, {})) ∧
    (Issues s w g (.cnt a) → Computes3 s w g (.cnt a) a fun u v _ =>
      ((((List.range n).filter fun i => tritAt u i == v.sign).length : Nat), {}))) ∧
  (∀ (s : State) (w : Workgroup) (g : Group) (a : Op2), Issues s w g (.lead a) → ∃ lead : Int → Int,
    (∀ v : Int, v.natAbs ≤ maxMag 27 → if v = 0 then lead v = -1 else
      0 ≤ lead v ∧ tritAt v (lead v).toNat ≠ 0 ∧ ∀ i : Nat, lead v < i → i < 27 → tritAt v i = 0) ∧
    Computes2 s w g (.lead a) a fun v => (lead v, {})) ∧
  ∀ (s : State) (w : Workgroup) (g : Group) (a : Op0), ∃ ext ins : Int → Int → Int → Int,
    (∀ d u v : Int,
      let pos : Nat := (v % 27).toNat
      let len : Int := Min.min ((v - v % 27) / 27) 27
      (ext d u v).natAbs ≤ maxMag 27 ∧ (ins d u v).natAbs ≤ maxMag 27 ∧
      ∀ i : Nat, i < 27 →
        tritAt (ext d u v) i = (if (i : Int) < len ∧ pos + i < 27 then tritAt u (pos + i) else 0) ∧
        tritAt (ins d u v) i = if pos ≤ i ∧ (i : Int) < pos + len then tritAt u (i - pos) else tritAt d i) ∧
    (Issues s w g (.ext a) → Computes0 s w g (.ext a) a fun u v => ext 0 u v) ∧
    (Issues s w g (.ins a) → WritesLanes s w g (.ins a) .w a.d fun x l _ =>
      (ins (x.reg a.d l).val (x.reg a.a l).val (x.src a.b l), {}))

/-- R143, R144, R145: CMP writes the sign of A − B and TST a trit of A into a predicate register; SEL3 takes A, B or the old D
by its selector and zeroes nothing; PSET combines predicate registers trit by trit. -/
def Obligations.PredicateAndSelectResults : Prop :=
  (∀ (s : State) (w : Workgroup) (g : Group) (a : CmpArgs),
    let n : Nat := if a.ty.tryte then 9 else 27
    (Issues s w g (.cmp a) → WritesPredicate s w g (.cmp a) a.kd.val (!a.ty.tryte) fun x l j =>
      (x.elem a.ty a.a l j - x.elemB a.ty a.b l j).sign) ∧
    (Issues s w g (.tst a) → WritesPredicate s w g (.tst a) a.kd.val (!a.ty.tryte) fun x l j =>
      let c := x.elemB a.ty a.b l j
      if 0 ≤ c ∧ c ≤ n - 1 then tritAt (x.elem a.ty a.a l j) c.toNat else 0)) ∧
  (∀ (s : State) (w : Workgroup) (g : Group) (a : Op3), Issues s w g (.sel3 a) →
    ChangesLanes s w g (.sel3 a) fun x l lane => lane.put a.ty a.d kAll fun j =>
      (if (x.pred l).trit j = 1 then x.elem a.ty a.a l j else if (x.pred l).trit j = -1 then x.elemB a.ty a.b l j
        else x.elem a.ty a.d l j, {})) ∧
  ∀ (s : State) (w : Workgroup) (g : Group) (a : PsetArgs), Issues s w g (.pset a) →
    let f (x y : Int) : Int := match a.fn with
      | .copy => y
      | .tmin => Min.min x y
      | .tmax => Max.max x y
      | .tprd => x * y
      | .tcns => if x = y then x else 0
      | .tsum3 => wrapInt 1 (x + y)
      | .neg => -y
    WritesPredicate s w g (.pset a) a.kd.val false fun x l j =>
      f (match a.ka with
        | some k => ((x.g.lane l).rdK k.val).trit j
        | none => 0)
        (match a.b with
          | .k k => ((x.g.lane l).rdK k.val).trit j
          | .imm v => tritAt (x.imm v) j)

/-- R130 to R133, R146, R147: MOV and MOVI copy b; LEA adds a scaled b; LIT joins its payload to the pending one; CVTW widens a
tryte, wraps or clamps a word to one; PACK3, UNPK3 and SPLAT pack, unpack and replicate trytes. That a re-issued LIT whose P is not 0
counts as the second one is the model's choice (log 56). -/
def Obligations.MoveAndPackResults : Prop :=
  (∀ (s : State) (w : Workgroup) (g : Group) (a : MovArgs), Issues s w g (.mov a) →
    WritesLanes s w g (.mov a) a.ty a.d fun x l j => (x.elemB a.ty a.b l j, {})) ∧
  (∀ (s : State) (w : Workgroup) (g : Group) (a : MoviArgs), Issues s w g (.movi a) → ∀ l ls,
    (s.issueOf w g (.movi a)).active = l :: ls → Leaves s w g (.movi a) fun x =>
      let v (j : Nat) : Int := x.elemB a.ty a.b l j
      x.s.updGroup x.r fun h => h.wrS a.sd.val (mergeBy (!a.ty.tryte) (x.pred l) (h.rdS a.sd.val)
        (if a.ty.tryte then Word.ofInt (wrapInt 9 (v 0) + 19683 * wrapInt 9 (v 1) + 19683 * 19683 * wrapInt 9 (v 2))
          else Word.ofInt (v 0)))) ∧
  (∀ (s : State) (w : Workgroup) (g : Group) (a : MoviArgs), Issues s w g (.movi a) →
    (s.issueOf w g (.movi a)).active = [] → Leaves s w g (.movi a) fun x => x.s) ∧
  (∀ (s : State) (w : Workgroup) (g : Group) (a : LeaArgs), Issues s w g (.lea a) →
    WritesLanes s w g (.lea a) .w a.d fun x l _ => ((x.reg a.a l).val + x.src a.b l * 3 ^ a.scale.val, {})) ∧
  (∀ (s : State) (w : Workgroup) (g : Group) (p : Trits 22), Issues s w g (.lit p) → ∀ old,
    (s.issueOf w g (.lit p)).s0.groupOf (s.issueOf w g (.lit p)).r = some old → Leaves s w g (.lit p) fun x =>
      x.s.updGroup x.r fun h =>
        let before : Nat := if x.again = none then old.run.lits else if x.pay = 0 then 0 else 1
        { h with run := { h.run with payload := x.pay * 3 ^ 22 + p.val, lits := before + 1 } }) ∧
  (∀ (s : State) (w : Workgroup) (g : Group) (p : Trits 22),
    (s.issueOf w g (.lit p)).pay = match g.run.again with
      | some e => e.payload
      | none => g.run.payload) ∧
  (∀ (s : State) (w : Workgroup) (g : Group) (a : CvtwArgs),
    let tryte (v : Int) (c : Int) : Int := wrapInt 9 (dropInt (9 * (c % 3).toNat) v)
    let sat (v : Int) : Int × Flags :=
      if v > 9841 then (9841, { saturate := true }) else if v < -9841 then (-9841, { saturate := true }) else (v, {})
    (a.kind = .widen → Issues s w g (.cvtw a) → WritesLanes s w g (.cvtw a) .w a.d fun x l _ =>
      (tryte (x.reg a.a l).val (x.src a.b l), {})) ∧
    (a.kind = .wrap → Issues s w g (.cvtw a) → ChangesLanes s w g (.cvtw a) fun x l lane =>
      lane.putTryte a.d (x.pred l) (x.src a.b l % 3).toNat (wrapInt 9 (x.reg a.a l).val, {})) ∧
    (a.kind = .sat → Issues s w g (.cvtw a) → ChangesLanes s w g (.cvtw a) fun x l lane =>
      lane.putTryte a.d (x.pred l) (x.src a.b l % 3).toNat (sat (x.reg a.a l).val))) ∧
  ∀ (s : State) (w : Workgroup) (g : Group) (a : Op0),
    let part (n : Nat) (v : Int) (j : Nat) : Int := wrapInt n (dropInt (n * j) v)
    let clip (v : Int) : Int := Max.max (-13) (Min.min v 13)
    (Issues s w g (.pack3 a) → ChangesLanes s w g (.pack3 a) fun x l lane =>
      let e (j : Nat) : Int := part 9 (x.reg a.a l).val j
      lane.putTryte a.d (x.pred l) (x.src a.b l % 3).toNat (clip (e 0) + 27 * clip (e 1) + 729 * clip (e 2),
        { saturate := clip (e 0) != e 0 || clip (e 1) != e 1 || clip (e 2) != e 2 })) ∧
    (Issues s w g (.unpk3 a) → WritesLanes s w g (.unpk3 a) .t a.d fun x l j =>
      (part 3 (part 9 (x.reg a.a l).val (x.src a.b l % 3).toNat) j, {})) ∧
    (Issues s w g (.splat a) → WritesLanes s w g (.splat a) .t a.d fun x l _ =>
      (part 9 (x.reg a.a l).val (x.src a.b l % 3).toNat, {}))

/-- R117, R146: under its governing trit e, tryte c of d takes a value (+), stays (0) or is zeroed (−), the other trytes stay
whatever the predicate, and flags are raised under + alone: what putTryte, by which CVTW and PACK3 write, does. -/
def Obligations.OneTryteIsWritten : Prop :=
  ∀ (l : Lane) (n : Fin 81) (p : Trits 3) (c : Nat) (v : Int × Flags), n.val ≠ 0 → c < 3 → v.1.natAbs ≤ 9841 →
    let l' := l.putTryte (.g n) p c v
    (∀ j, j < 3 → tryteOf (l'.rdG n.val).val j =
      if j = c ∧ p.trit c = 1 then v.1 else if j = c ∧ p.trit c = -1 then 0 else tryteOf (l.rdG n.val).val j) ∧
    l'.fs = (if p.trit c = 1 then l.fs.or v.2 else l.fs) ∧ SameRegisters l l' [n.val] [] []

/-- R148 to R150: TIDX and TJOIN read once each shape entry that a b of their active elements names (`x.shapes`); TIDX writes five
coordinates and TJOIN a linear index, with the range trit in kn, as one word element. -/
def Obligations.TensorIndexResults : Prop :=
  ∀ (s : State) (w : Workgroup) (g : Group) (a : IdxArgs),
    (Issues s w g (.tidx a) → Leaves s w g (.tidx a) fun x =>
      (x.shapes a.b).1.updGroup x.r fun h => h.updLanes x.active fun l lane =>
        let sh := shapeFor (x.shapes a.b).2 (x.src a.b l)
        let v := (x.greg a.a.val l).val
        let p := sh.extents.foldl (· * ·) 1
        lane.putIndex a.d.val a.kn.val (x.pred l)
          ((List.range 5).map fun i => match sh.extents[i]? with
            | some e => v % p / (sh.extents.take i).foldl (· * ·) 1 % e
            | none => 0)
          (if v < 0 then -1 else if v ≥ p then 1 else 0)) ∧
    (Issues s w g (.tjoin a) → Leaves s w g (.tjoin a) fun x =>
      (x.shapes a.b).1.updGroup x.r fun h => h.updLanes x.active fun l lane =>
        let sh := shapeFor (x.shapes a.b).2 (x.src a.b l)
        let n := sh.extents.length
        let cs := (List.range 5).map fun i => (x.greg (a.a.val + i) l).val
        lane.putIndex a.d.val a.kn.val (x.pred l)
          [wrapInt 27 (((List.range n).map fun i => cs.getD i 0 * (sh.extents.take i).foldl (· * ·) 1).foldl (· + ·) 0)]
          (if (List.range n).any fun i => decide (cs.getD i 0 > sh.extents.getD i 1 - 1) then 1
            else if (List.range n).any fun i => decide (cs.getD i 0 < 0) then -1 else 0))

/-- R149, R150: the coordinates that TIDX computes lie within their extents, those past the rank are 0, the range trit is 0
for an index in range, and TJOIN of them gives the index back with range 0. -/
def Obligations.JoinUndoesSplit : Prop :=
  ∀ (sh : Shape) (v : Int), sh.extents.length ≤ 5 → (∀ e ∈ sh.extents, 1 ≤ e) → sh.product ≤ counterMax → 0 ≤ v →
    v < sh.product →
    (splitIndex sh v).1 = 0 ∧ (splitIndex sh v).2.length = 5 ∧
    (∀ i (h : i < sh.extents.length), 0 ≤ (splitIndex sh v).2.getD i 0 ∧ (splitIndex sh v).2.getD i 0 < sh.extents[i]) ∧
    (∀ i, sh.extents.length ≤ i → (splitIndex sh v).2.getD i 0 = 0) ∧ joinIndex sh (splitIndex sh v).2 = (0, v)

/-! ## Floating instructions (07_float_instructions.md) -/

/-- R25 to R27: in each of the three float formats a nonzero exact value m·3^e whose leading trit is within the exponent range, of
any |m| up to 3^20000 (which no exact sum or fused product of the formats exceeds), rounds to the nearest value with n significand trits (fewer at the least exponent): it differs by less than half of the
weight of the lowest trit kept, so that no tie arises, it is exact where it fits, and inexact says that it is not. -/
def Obligations.RoundingToNearestIsNeverATie : Prop :=
  ∀ f ∈ [tf9, tf27, tf81], ∀ m e : Int, m ≠ 0 → m.natAbs ≤ 3 ^ 20000 → leadPos m + e ≤ f.etop →
    let c : Int := Max.max (leadPos m + e) f.emin - (f.n - 1)
    let r := f.round (.fin m e) false
    ∃ sig : Int, sig.natAbs ≤ maxMag f.n ∧ (if sig = 0 then r.1 = 0 else f.decode r.1 = .fin sig c) ∧
      (c ≤ e → sig = m * 3 ^ (e - c).toNat ∧ r.2.inexact = false) ∧
      (e < c → 2 * (m - sig * 3 ^ (c - e).toNat).natAbs < 3 ^ (c - e).toNat ∧
        (r.2.inexact = true ↔ m ≠ sig * 3 ^ (c - e).toNat)) ∧
      r.2.overflow = false ∧ r.2.saturate = false ∧ r.2.invalid = false

/-- R155 to R157, R159, R160: FADD, FSUB, FMUL and FMA round one exact result (FVal.add, FVal.mul), an operation without a
numeric result gives the NaN code with invalid; FMIN and FMAX take the smaller or larger value, FABS and FNEG a value's
magnitude or negation, FCMP the sign of A − B with invalid for a NaN, and FCLS the class. -/
def Obligations.FloatArithmeticResults : Prop :=
  (∀ (s : State) (w : Workgroup) (g : Group) (a : Op3),
    let f : Fmt := if a.ty = .f9 then tf9 else if a.ty = .f81 then tf81 else tf27
    let once (v : FVal × Bool) : Int × Flags := if v.2 then (f.nanCode, { invalid := true }) else f.round v.1 false
    let val (c : Int) : FVal := f.decode c
    (Issues s w g (.fadd a) → Computes3 s w g (.fadd a) a fun u v _ => once ((val u).add (val v))) ∧
    (Issues s w g (.fsub a) → Computes3 s w g (.fsub a) a fun u v _ => once ((val u).add (val v).neg)) ∧
    (Issues s w g (.fmul a) → Computes3 s w g (.fmul a) a fun u v _ => once ((val u).mul (val v))) ∧
    (Issues s w g (.fma a) → Computes3 s w g (.fma a) a fun u v d =>
      if (val u).isNan || (val v).isNan || (val d).isNan then once (.nan, false)
      else if ((val u).mul (val v)).2 then once (.nan, true) else once (((val u).mul (val v)).1.add (val d))) ∧
    (Issues s w g (.fmin a) → Computes3 s w g (.fmin a) a fun u v _ => f.round ((val u).minmax false (val v)) false) ∧
    (Issues s w g (.fmax a) → Computes3 s w g (.fmax a) a fun u v _ => f.round ((val u).minmax true (val v)) false)) ∧
  (∀ (s : State) (w : Workgroup) (g : Group) (a : Op2),
    let f : Fmt := if a.ty = .f9 then tf9 else if a.ty = .f81 then tf81 else tf27
    (Issues s w g (.fabs a) → Computes2 s w g (.fabs a) a fun c =>
      (f.code (if (f.decode c).isNeg then (f.decode c).neg else f.decode c), {})) ∧
    (Issues s w g (.fneg a) → Computes2 s w g (.fneg a) a fun c => (f.code (f.decode c).neg, {})) ∧
    (Issues s w g (.fcls a) → Computes2 s w g (.fcls a) a fun c => (classCode f c, {}))) ∧
  ∀ (s : State) (w : Workgroup) (g : Group) (a : CmpArgs), Issues s w g (.fcmp a) →
    let f : Fmt := if a.ty = .f9 then tf9 else if a.ty = .f81 then tf81 else tf27
    ChangesLanes s w g (.fcmp a) fun x l lane =>
      let u (j : Nat) : FVal := f.decode (x.elem a.ty a.a l j)
      let v (j : Nat) : FVal := f.decode (x.elemB a.ty a.b l j)
      let nan (j : Nat) : Bool := (u j).isNan || (v j).isNan
      let bad : Bool := a.ty.elems.any fun j => (x.pred l).trit j == 1 && nan j
      { lane with fs := { lane.fs with invalid := lane.fs.invalid || bad } }.putK a.kd.val (x.pred l) (!a.ty.tryte) fun j =>
        if nan j then 0 else (u j).cmp (v j)

/-- R161 to R165, R168: FSCL and ITOF scale by a power of 3 and round once; FEXN gives the exponent of the leading trit; FTRN,
FFLR and FCEL give integral values; FCVT converts between formats, FTOI to integers, FDOT sums three products, and BCVT
converts bit patterns. -/
def Obligations.FloatConversionResults : Prop :=
  (∀ (s : State) (w : Workgroup) (g : Group) (a : Op3),
    let f : Fmt := if a.ty = .f9 then tf9 else if a.ty = .f81 then tf81 else tf27
    (Issues s w g (.fscl a) → WritesLanes s w g (.fscl a) a.ty a.d fun x l j =>
      f.round (scaled (f.decode (x.elem a.ty a.a l j)) (x.intElemB a.ty a.b l j)) false) ∧
    (Issues s w g (.itof a) → WritesLanes s w g (.itof a) a.ty a.d fun x l j =>
      f.round (scaled (.fin (x.intElem a.ty a.a l j) 0) (x.intElemB a.ty a.b l j)) false)) ∧
  (∀ (s : State) (w : Workgroup) (g : Group) (a : Op2),
    let f : Fmt := if a.ty = .f9 then tf9 else if a.ty = .f81 then tf81 else tf27
    (Issues s w g (.fexn a) → Computes2 s w g (.fexn a) a fun c =>
      (match f.decode c with
        | .fin m e => if m = 0 then f.emin - f.n else leadPos m + e
        | _ => maxMag f.q, {})) ∧
    (Issues s w g (.ftrn a) → Computes2 s w g (.ftrn a) a fun c => (integralCode .nearest f c, {})) ∧
    (Issues s w g (.fflr a) → Computes2 s w g (.fflr a) a fun c => (integralCode .floor f c, {})) ∧
    (Issues s w g (.fcel a) → Computes2 s w g (.fcel a) a fun c => (integralCode .ceil f c, {}))) ∧
  (∀ (s : State) (w : Workgroup) (g : Group) (a : FcvtArgs), Issues s w g (.fcvt a) →
    let conv (c : Int) : Int × Flags :=
      if tyFmt a.src = tyFmt a.ty then ((tyFmt a.ty).code ((tyFmt a.src).decode c), {})
      else (tyFmt a.ty).round ((tyFmt a.src).decode c) false
    let n : Nat := a.a.num
    (a.src = .f9 → a.ty ≠ .f9 → ChangesLanes s w g (.fcvt a) fun x l lane =>
      lane.spread (a.ty == .f81) a.d.num (x.pred l) fun j => conv (tryteOf (x.reg a.a l).val j)) ∧
    (a.src = .f81 → a.ty = .f9 → WritesLanes s w g (.fcvt a) .f9 a.d fun x l j =>
      conv ((x.g.lane l).rdTriple (n + 3 * j))) ∧
    (a.src ≠ .f9 → a.src ≠ .f81 → a.ty = .f9 → WritesLanes s w g (.fcvt a) .f9 a.d fun x l j =>
      conv ((x.greg (n + j) l).val)) ∧
    ((a.src = .f9 ↔ a.ty = .f9) → WritesLanes s w g (.fcvt a) a.ty a.d fun x l j => conv (x.elem a.src a.a l j))) ∧
  (∀ (s : State) (w : Workgroup) (g : Group) (a : FtoiArgs), Issues s w g (.ftoi a) →
    WritesLanes s w g (.ftoi a) a.ty a.d fun x l j =>
      toInteger a.mode (if a.ty = .f9 then 9 else 27) ((tyFmt a.ty).decode (x.elem a.ty a.a l j))) ∧
  (∀ (s : State) (w : Workgroup) (g : Group) (a : Op0), Issues s w g (.fdot a) →
    WritesLanes s w g (.fdot a) .f27 a.d fun x l _ =>
      let p (j : Nat) : FVal := ((tf9.decode (tryteOf (x.reg a.a l).val j)).mul (tf9.decode (x.srcTryte a.b l j))).1
      tf27.round ((((tf27.decode (x.reg a.d l).val).add (p 0)).1.add (p 1)).1.add (p 2)).1 false) ∧
  ∀ (s : State) (w : Workgroup) (g : Group) (a : BcvtArgs), Issues s w g (.bcvt a) →
    (a.fmt = .fp64 → a.dirIn = true → WritesLanes s w g (.bcvt a) .f81 a.d fun x l _ =>
      let v := (x.g.lane l).rdTriple a.a.num
      bcvtIn .fp64 (wrapInt 27 v) (wrapInt 27 (dropInt 27 v)) (dropInt 54 v)) ∧
    (a.fmt = .fp64 → a.dirIn = false → WritesLanes s w g (.bcvt a) .f81 a.d fun x l _ =>
      bcvtOut .fp64 ((x.g.lane l).rdTriple a.a.num)) ∧
    (a.fmt ≠ .fp64 → a.dirIn = true → WritesLanes s w g (.bcvt a) .w a.d fun x l _ =>
      bcvtIn a.fmt (x.reg a.a l).val 0 0) ∧
    (a.fmt ≠ .fp64 → a.dirIn = false → WritesLanes s w g (.bcvt a) .w a.d fun x l _ =>
      bcvtOut a.fmt (if a.fmt = .bf16n then tryteOf (x.reg a.a l).val 0 else (x.reg a.a l).val))

/-- R151, R166: a long float with an active element enters its group's pending words with its results computed from the
operands as they are at issue, and its wait slot counts one more; no register changes until it completes. FDIV, FSQT, FRCP and FRSQ
always have their results; a word of the other functions is met again where 12 + `turns` refinements do not decide the rounding of a
result (the model's choice, log 9). With no active element it takes no wait slot, and its inactive elements are written at issue (R63,
R118). -/
def Obligations.LongFloatsIssue : Prop :=
  ∀ (s : State) (w : Workgroup) (g : Group),
    let fmt (ty : Ty) : Fmt := if ty = .f9 then tf9 else if ty = .f81 then tf81 else tf27
    let begins (i : Instr) (d : Nat) (ty : Ty) (v : Issue → Nat → Nat → Option (Int × Flags)) : Prop :=
      let x := s.issueOf w g i
      let known : Prop := ∀ l ∈ x.active, ∀ j ∈ ty.elems, (x.pred l).trit j = 1 → (v x l j).isSome = true
      (x.anyActive = true → known → Leaves s w g i fun x =>
        x.begin x.s (x.active.map fun l => floatPart x ty l fun j => (v x l j).getD (0, {})) true []) ∧
      (x.anyActive = true → ¬known → Stalls s i) ∧
      ZeroesAtIssue s w g i (zeroDead (gRun d (ty == .f81)) (ty != .f9))
    let one (i : Instr) (a : FlongArgs) (f : Fmt → Int → FVal → Nat → Option (Int × Flags)) : Prop :=
      Issues s w g i → begins i a.d.val a.ty fun x l j =>
        f (fmt a.ty) (x.elem a.ty (.g a.a) l j) ((fmt a.ty).decode (x.elem a.ty (.g a.a) l j)) (12 + x.s0.turns)
    (∀ a : FdivArgs, Issues s w g (.fdiv a) → begins (.fdiv a) a.d.val a.ty fun x l j =>
      some (fnDiv (fmt a.ty) ((fmt a.ty).decode (x.elem a.ty (.g a.a) l j)) ((fmt a.ty).decode (x.elemB a.ty a.b l j)))) ∧
    ∀ a : FlongArgs,
      one (.fsqt a) a (fun f _ v _ => some (fnSqrt f v)) ∧ one (.frcp a) a (fun f _ v _ => some (fnDiv f (.fin 1 0) v)) ∧
      one (.frsq a) a (fun f _ v _ => some (fnRsqrt f v)) ∧ one (.fex3 a) a (fun f c v n => fnExp f 39 c true v n) ∧
      one (.flg3 a) a (fun f c v n => fnLog f 40 c true v n) ∧ one (.fexe a) a (fun f c v n => fnExp f 26 c false v n) ∧
      one (.flge a) a (fun f c v n => fnLog f 25 c false v n) ∧ one (.fsin a) a (fun f c v n => fnTrig f 24 c false v n) ∧
      one (.fcos a) a (fun f c v n => fnTrig f 23 c true v n) ∧ one (.ftnh a) a (fun f c v n => fnTanh f 22 c v n)

/-- R167, Table 7: the domain edges of the long floats in TF27 and TF81, with their flags: x/0 is the infinity of x's sign
with divzero, 0/0 and Inf/Inf are NaN with invalid, finite/Inf is 0, the root of a negative value and its logarithm are NaN
with invalid, 1/√0 is +Inf without a flag, the logarithm of 0 is −Inf without a flag, and e^−Inf is 0. -/
def Obligations.FunctionEdges : Prop :=
  ∀ f ∈ [tf27, tf81], ∀ (m e c k : Int) (b : Bool) (n : Nat), m ≠ 0 →
    fnDiv f (.fin m e) (.fin 0 k) = (f.infCode (m < 0), { divzero := true }) ∧
    fnDiv f (.fin 0 e) (.fin 0 k) = (f.nanCode, { invalid := true }) ∧
    fnDiv f (.inf b) (.inf true) = (f.nanCode, { invalid := true }) ∧
    fnDiv f (.inf b) (.inf false) = (f.nanCode, { invalid := true }) ∧
    fnDiv f (.fin m e) (.inf b) = (0, {}) ∧ fnDiv f (.inf b) (.fin 0 k) = (f.infCode b, {}) ∧
    (m < 0 → fnSqrt f (.fin m e) = (f.nanCode, { invalid := true }) ∧ fnRsqrt f (.fin m e) = (f.nanCode, { invalid := true }) ∧
      fnLog f 40 c true (.fin m e) n = some (f.nanCode, { invalid := true }) ∧
      fnLog f 25 c false (.fin m e) n = some (f.nanCode, { invalid := true })) ∧
    fnSqrt f (.fin 0 e) = (0, {}) ∧ fnRsqrt f (.fin 0 e) = (f.infCode false, {}) ∧ fnRsqrt f (.inf false) = (0, {}) ∧
    fnLog f 40 c true (.fin 0 e) n = some (f.infCode true, {}) ∧ fnLog f 25 c false (.fin 0 e) n = some (f.infCode true, {}) ∧
    fnExp f 26 c false (.inf true) n = some (0, {}) ∧ fnExp f 39 c true (.inf true) n = some (0, {}) ∧
    fnExp f 26 c false (.inf false) n = some (f.infCode false, {}) ∧
    fnExp f 39 c true (.inf false) n = some (f.infCode false, {}) ∧
    fnDiv f (.inf b) (.fin m e) = (f.infCode (b != decide (m < 0)), {}) ∧
    fnExp f 26 c false (.fin 0 e) n = some (f.code (.fin 1 0), {})

/-! ## Control flow, runs and lanes (08_control_and_lane_instructions.md) -/

/-- R171 to R174, R177, R69, R97, R98: where no target is misaligned, BR, BRP, B3, CALL, RET, JMPI and LOOP move each active
lane to its target or to the next word; CALL first writes the return address to g8 and LOOP the count less one to d. Where
the lanes part, a hint names the lanes that the group goes on with, and else the least PC does: for JMPI the least target (Table 2).
That RET goes on as JMPI does, which lanes LOOP's hint names, and that lanes of B3 join where they share a PC are the model's choices
(log 22). -/
def Obligations.TransfersMoveEachLane : Prop :=
  ∀ (s : State) (w : Workgroup) (g : Group),
    let word (x : Issue) (n : Int) : Int := wrapInt 27 (x.pc.val + 3 * n)
    let hinted (h : Trit) (taken fell : List Nat) : List Nat := match h with
      | .pos => taken
      | .neg => fell
      | .zero => []
    (∀ a : BranchArgs, Issues s w g (.br a) → (s.issueOf w g (.br a)).pc.val % 3 = 0 →
      Transfers s w g (.br a) (·.s) (fun x _ => word x (x.pay * 3 ^ 12 + a.off.val)) (fun x => hinted a.hint x.active [])
        (a.hint == .zero)) ∧
    (∀ a : BrpArgs, Issues s w g (.brp a) → (s.issueOf w g (.brp a)).pc.val % 3 = 0 →
      Transfers s w g (.brp a) (·.s)
        (fun x l => if (x.pred l).trit 0 = 1 then word x (x.pay * 3 ^ 12 + a.off.val) else word x 1)
        (fun x => hinted a.hint (x.active.filter fun l => (x.pred l).trit 0 == 1)
          (x.active.filter fun l => (x.pred l).trit 0 != 1)) (a.hint == .zero)) ∧
    (∀ a : B3Args, Issues s w g (.b3 a) → (s.issueOf w g (.b3 a)).pc.val % 3 = 0 →
      Transfers s w g (.b3 a) (·.s)
        (fun x l =>
          if (x.pred l).trit 0 = 1 then word x (wrapInt 11 (dropInt 11 x.pay) * 3 ^ 6 + a.offp.val)
          else if (x.pred l).trit 0 = -1 then word x (wrapInt 11 x.pay * 3 ^ 6 + a.offm.val) else word x 1)
        (fun x => if a.hint = .zero then [] else x.active.filter fun l => (x.pred l).trit 0 == a.hint.val)
        (a.hint == .zero)) ∧
    (∀ a : BranchArgs, Issues s w g (.call a) → (s.issueOf w g (.call a)).pc.val % 3 = 0 →
      Transfers s w g (.call a) (fun x => x.eachLane fun _ lane => lane.wrG 8 (Word.ofInt (word x 1)))
        (fun x _ => word x (x.pay * 3 ^ 12 + a.off.val)) (fun x => hinted a.hint x.active []) (a.hint == .zero)) ∧
    (∀ a : RetArgs, Issues s w g (.ret a) →
      let x := s.issueOf w g (.ret a)
      (∀ l ∈ x.active, (x.pred l).trit 0 = 1 → (x.reg a.a l).val % 3 = 0) →
      Transfers s w g (.ret a) (·.s) (fun x l => if (x.pred l).trit 0 = 1 then (x.reg a.a l).val else word x 1)
        (fun x => x.active.filter fun l => (x.pred l).trit 0 == 1) false) ∧
    (∀ a : JmpiArgs, Issues s w g (.jmpi a) →
      let x := s.issueOf w g (.jmpi a)
      let goal (x : Issue) (l : Nat) : Int := wrapInt 27 ((x.reg a.a l).val + 3 * x.src a.b l)
      (∀ l ∈ x.active, (x.pred l).trit 0 = 1 → goal x l % 3 = 0) →
      Transfers s w g (.jmpi a) (·.s) (fun x l => if (x.pred l).trit 0 = 1 then goal x l else word x 1)
        (fun x => x.active.filter fun l => (x.pred l).trit 0 == 1) false) ∧
    ∀ a : LoopArgs, Issues s w g (.loop a) → (s.issueOf w g (.loop a)).pc.val % 3 = 0 →
      let left (x : Issue) (l : Nat) : Int := wrapInt 27 ((x.reg a.d l).val - 1)
      let again (x : Issue) (l : Nat) : Bool := (x.pred l).trit 0 == 1 && decide (left x l > 0)
      Transfers s w g (.loop a)
        (fun x => x.eachLane fun l lane => lane.wr a.d (mergeWord (x.pred l) (x.reg a.d l) (Word.ofInt (left x l))))
        (fun x l => if again x l then word x (x.imm a.imm) else word x 1)
        (fun x => hinted a.hint (x.active.filter (again x)) (x.active.filter fun l => !again x l)) (a.hint == .zero)

/-- R175, R176: CALLI, its targets all multiples of 3. Issued afresh, where one subset takes all the lanes, or no record can be
opened, the link is written and each selected lane is at its target; else a call record holds the lanes of the higher
targets, and the run goes on with the subset of the least. Re-issued after it had issued (R375, R376), its lanes go to their captured
targets, no link is written again and no record opened. That lanes that fall through join the run only where their PC is the least
target is the model's choice (log 22). -/
def Obligations.IndirectCallsOpenRecords : Prop :=
  ∀ (s : State) (w : Workgroup) (g : Group) (a : CalliArgs), Issues s w g (.calli a) →
    let x := s.issueOf w g (.calli a)
    let afresh : Prop := x.again = none ∨ ∃ e, x.again = some e ∧ e.issued = false
    let goal (l : Nat) : Int := match x.again with
      | some e => if e.issued then ((lanePart e.lanes l).map (·.addr)).getD 0 else wrapInt 27 ((x.reg a.a l).val + 3 * x.src a.b l)
      | none => wrapInt 27 ((x.reg a.a l).val + 3 * x.src a.b l)
    let sel := x.active.filter fun l => (x.pred l).trit 0 == 1
    let fell := x.active.filter fun l => (x.pred l).trit 0 != 1
    let least := leastInt (sel.map goal)
    let wait := sel.filter fun l => goal l != least
    let ret := Word.ofInt (wrapInt 27 (x.pc.val + 3))
    let link (h : Group) : Group := h.updLanes sel fun _ lane => lane.wr a.d ret
    let move (ls : List Nat) (h : Group) : Group :=
      (h.updLanes ls fun l lane => { lane with pc := Word.ofInt (goal l) }).updLanes fell fun _ lane => { lane with pc := ret }
    let going (ls : List Nat) (h : Group) : Group :=
      let stay (l : Nat) : Bool := (ls.contains l && goal l == least) || (fell.contains l && ret.val == least)
      { h with run := { h.run with active := if sel.isEmpty then x.active else x.active.filter stay } }
    (∀ l ∈ sel, goal l % 3 = 0) →
    (¬afresh → Leaves s w g (.calli a) fun x => x.s.updGroup x.r fun h => going sel (move sel h)) ∧
    (afresh → wait = [] ∨ w.kernel.reforming = true ∨ 9 ≤ x.g.calls.length →
      Leaves s w g (.calli a) fun x => x.s.updGroup x.r fun h => going sel (move sel (link h))) ∧
    (afresh → wait ≠ [] → w.kernel.reforming = false → x.g.calls.length < 9 →
      Leaves s w g (.calli a) fun x => x.s.updGroup x.r fun h =>
        let go := sel.filter fun l => goal l == least
        let held := (link h).updLanes wait fun _ lane => { lane with st := .held, pc := x.pc }
        going go (move go { held with calls :=
          { word := wordOf (.calli a), payload := x.pay, ret := ret, held := wait.map fun l => (l, Word.ofInt (goal l)), out := go,
            parked := [] } :: held.calls }))

/-- R62, R178 to R182, R83: ENDRUN and YIELD end the run with their mask, in which no temporary survives, and the group stops where a
pre-emption is requested; YIELD also cedes the next run of its slot; REFORM leaves the slot to file its threads; EXIT ends the selected threads; NOP only issues. -/
def Obligations.RunsEnd : Prop :=
  ∀ (s : State) (w : Workgroup) (g : Group),
    let ended (m : Trits 9) (h : Group) : Group :=
      { h with lanes := h.lanes.map fun l => { l with h := [] }, phase := if w.preq then .stopped else .boundary, run := .none
               mask := (List.range 9).filter fun n => m.trit n == 1, noRecord := h.noRecord && h.handler.isSome }
    (∀ m, Issues s w g (.endrun m) → Leaves s w g (.endrun m) fun x => x.s.updGroup x.r (ended m)) ∧
    (∀ m, Issues s w g (.yield m) → Leaves s w g (.yield m) fun x =>
      (x.s.updGroup x.r fun h => { h with ceded := true }).updGroup x.r (ended m)) ∧
    (Issues s w g .reform → Leaves s w g .reform fun x => x.s.updGroup x.r fun h => { h with phase := .reforming }) ∧
    (∀ p, Issues s w g (.exit p) → Leaves s w g (.exit p) fun x =>
      let stay := x.active.filter fun l => (x.pred l).trit 0 != 1
      (x.s.updGroup x.r fun h =>
        let h := { h with run := { h.run with active := stay } }
        if stay.isEmpty then h.endRun [] else h).exitLanes x.r (x.active.filter fun l => (x.pred l).trit 0 == 1)) ∧
    (Issues s w g .nop → Leaves s w g .nop fun x => x.s)

/-- R76, R183 to R188: an exchange takes the word of a valid source lane of the sub-group, or the lane's own, with the validity
trit; BCST takes one position's element, VOTE, REDU and SCAN combine the values of the lanes whose element is active. -/
def Obligations.LanesExchange : Prop :=
  ∀ (s : State) (w : Workgroup) (g : Group),
    let width : Nat := if w.kernel.width = 9 then 9 else if w.kernel.width = 81 then 81 else 27
    let base (l : Nat) : Nat := if w.kernel.width = 9 then l / 9 * 9 else 0
    let from_ (x : Issue) (l : Nat) (q : Int) : Option Nat :=
      if 0 ≤ q ∧ q < width ∧ (x.g.lane (base l + q.toNat)).live then some (base l + q.toNat) else none
    let takes (d a : Reg) (kn : Fin 9) (q : Issue → Nat → Option Nat) (x : Issue) (l : Nat) (lane : Lane) : Lane :=
      (lane.put .w d (x.pred l) fun _ => ((x.reg a ((q x l).getD l)).val, {})).putK kn.val (x.pred l) true fun _ =>
        if (q x l).isSome then 1 else 0
    let peers (x : Issue) (l : Nat) : List Nat := x.active.filter fun m => base m == base l
    let terms (x : Issue) (l j : Nat) : List Nat := (peers x l).filter fun m => (x.pred m).trit j == 1
    (∀ a, Issues s w g (.shfl a) → ChangesLanes s w g (.shfl a) (takes a.d a.a a.kn fun x l => from_ x l (x.src a.b l))) ∧
    (∀ a, Issues s w g (.shfld a) → ChangesLanes s w g (.shfld a)
      (takes a.d a.a a.kn fun x l => from_ x l ((l - base l : Nat) + x.src a.b l))) ∧
    (∀ a, Issues s w g (.shflt a) → ChangesLanes s w g (.shflt a)
      (takes a.d a.a a.kn fun x l => from_ x l
        ((butterfly 4 (l - base l) (x.src a.b l % (width : Int)).toNat % width : Nat) : Int))) ∧
    (∀ a, Issues s w g (.xperm a) → Leaves s w g (.xperm a) fun x =>
      let p := if x.active.any fun l => (x.pred l).trit 0 == 1 then x.s.patternAt w (x.simm a.b) else (x.s, none)
      p.1.updGroup x.r fun h => h.updLanes x.active (takes a.d a.a a.kn (fun x l => match p.2 with
        | some ps => from_ x l (ps.getD (l - base l) (-1))
        | none => none) x)) ∧
    (∀ a, Issues s w g (.bcst a) → WritesLanes s w g (.bcst a) a.ty a.d fun x l _ =>
      (x.elem a.ty a.a ((from_ x l (x.simm a.b)).getD l) 0, {})) ∧
    (∀ a, Issues s w g (.vote a) → WritesPredicate s w g (.vote a) a.kd.val true fun x l _ =>
      let ts := ((peers x l).filter fun m => (x.pred m).trit 0 == 1).map fun m => (x.reg a.a m).val.sign
      match a.fn with
      | .all => ts.foldl Min.min 1
      | .any => ts.foldl Max.max (-1)
      | .maj => (ts.foldl (· + ·) 0).sign) ∧
    (∀ a, Issues s w g (.redu a) → WritesLanes s w g (.redu a) a.ty a.d fun x l j =>
      combine a.ty a.fn ((terms x l j).map fun m => x.elem a.ty a.a m j)) ∧
    ∀ a, Issues s w g (.scan a) → WritesLanes s w g (.scan a) a.ty a.d fun x l j =>
      combine a.ty a.fn (((terms x l j).filter fun m => if a.exclusive then m < l else m ≤ l).map fun m => x.elem a.ty a.a m j)

/-- R189, R190, R120 to R123: RNG steps the random state and writes its rotation; SREAD and SWRITE read and write the special
registers that they may, and a predicate register trit by trit. -/
def Obligations.SpecialRegistersReadAndWrite : Prop :=
  ∀ (s : State) (w : Workgroup) (g : Group),
    (∀ a, Issues s w g (.rng a) → ChangesLanes s w g (.rng a) fun x l lane =>
      let v := wrapInt 27 (lane.rng.val * 2862933555778 + 1)
      (if (x.pred l).trit 0 = 1 then { lane with rng := Word.ofInt v } else lane).put .w a.d (x.pred l) fun _ =>
        (rotate 27 v 13, {})) ∧
    (∀ a, Issues s w g (.sread a) → (s.issueOf w g (.sread a)).g.pend = [] → ChangesLanes s w g (.sread a) fun x l lane =>
      let read := (x.pred l).trit 0 = 1
      let lane := if read ∧ a.num.val = 9 then { lane with timeHi := some (Word.ofInt (dropInt 27 (x.s.timeOn w.core.die))) }
        else if read ∧ a.num.val = 10 then { lane with timeHi := none } else lane
      lane.put .w a.d (x.pred l) fun _ => (x.special l (x.g.lane l) a.num.val, {})) ∧
    (∀ a, Issues s w g (.sreadPredicate a) → WritesLanes s w g (.sreadPredicate a) .w a.d fun x l _ =>
      (((x.g.lane l).rdK a.k.val).trit 0 + 19683 * ((x.g.lane l).rdK a.k.val).trit 1 +
        19683 * 19683 * ((x.g.lane l).rdK a.k.val).trit 2, {})) ∧
    (∀ a, Issues s w g (.swrite a) → ChangesLanes s w g (.swrite a) fun x l lane =>
      if a.num.val = 12 then
        { lane with fs := Flags.ofInt (mergeWord (x.pred l) (Word.ofInt lane.fs.toInt) (x.reg a.a l)).val }
      else { lane with rng := mergeWord (x.pred l) lane.rng (x.reg a.a l) }) ∧
    ∀ a, Issues s w g (.swritePredicate a) → WritesPredicate s w g (.swritePredicate a) a.kd.val false fun x l j =>
      tritAt (x.reg a.a l).val (9 * j)

/-! ## The matrix unit (09_matrix_unit.md) -/

/-- R192, R200, R202, R203, R207 to R215: MLOAD, MLOADP, MACT, MPASS, MZERO, MWR and MSTORE enter their operations into the
queues of their group where these have room, and wait where they have not. A load takes the load counter as its tag and
writes it to s(d); a pass enters one operation for each third that its lanes supply or zero; MACT of a dead tag, and the
rows of a pass of one, are stale. That a pass or MACT of a dead tag skips the checks of R209 is the model's choice (log 31). MLOAD,
MLOADP and MSTORE read the format entries that they name before they issue (R385); a descriptor or a selector that they do not accept
traps with cause 1, detail 3 (R193, R208, R446). -/
def Obligations.MatrixWordsEnterQueues : Prop :=
  ∀ (s : State) (w : Workgroup) (g : Group),
    let clu := coreClu w.core
    let room (t : State) (ops : List (Nat × MatOp)) : Prop := ∀ h ∈ ops.map (·.1),
      ((t.unitAt clu).queue.filter fun e => e.wg == g.wg && e.hw == h).length + (ops.filter fun o => o.1 == h).length ≤ 27
    let entered (pc : Word) (t : State) (ops : List (Nat × MatOp)) : State :=
      { t.updUnit clu fun u =>
          { u with queue := u.queue ++ ops.map fun o => ⟨t.nextId, g.wg, o.1, pc, o.2, false, false⟩ } with
        nextId := t.nextId + 1 }
    let entersAfter (u : State) (i : Instr) (t : State) (ops : List (Nat × MatOp)) (after : State → State) : Prop :=
      (room t ops → LeavesAfter s u w g i fun x => after (entered x.pc t ops)) ∧ (¬room t ops → exec i s = .next u)
    let enters := entersAfter s
    let refuses (u : State) (i : Instr) : Prop :=
      exec i s = .next (u.takeFault g.ref (wordOf i) i.pred.eff { cause := 1, detail := 3 })
    let within (off : Int) (len : Nat) : Prop := off % 81 = 0 ∧ 0 ≤ off ∧ off + len ≤ (w.runLen : Int)
    let loads (i : Instr) (sd sa : Fin 27) (desc : Trits 4) (planes : Option Nat) : Prop :=
      ∀ u o, s.descriptorOf w (g.wordPay * 81 + desc.val) = (u, o) → IssuesAfter s u w g i →
        let x := u.issueOf w g i
        let accepts (d : MatDesc) : Prop := ∀ p ∈ planes, d.wf.q = 0 ∧ p ≤ d.wf.w
        ((∀ d ∈ o, ¬accepts d) → refuses u i) ∧
        ∀ d, o = some d → accepts d → within (x.g.rdS sa.val).val d.imageLen →
          let tag := (x.s.unitAt clu).counter
          entersAfter u i x.s [(g.hw, .load tag (x.g.rdS sa.val).val d planes)] fun t =>
            x.setS (t.updUnit clu fun m => { m with counter := nextTag m.counter, pending := m.pending ++ [(tag, g.wg)] })
              sd.val tag.val
    let stores (i : Instr) (a : MstoreArgs) (zero : Bool) : Prop :=
      ∀ u o, s.fmtAt w a.fmt.val = (u, o) → IssuesAfter s u w g i →
        let x := u.issueOf w g i
        ((∀ f ∈ o, storeOk a.fmt.val f = false) → refuses u i) ∧
        ∀ f, o = some f → storeOk a.fmt.val f = true → within (x.g.rdS a.sd.val).val (27 * storeRow f) →
          entersAfter u i x.s [(g.hw, .store (w.tileAt a.tile.val) (x.g.rdS a.sd.val).val f zero)] id
    (∀ a, loads (.mload a) a.sd a.sa a.desc none) ∧
    (∀ a, loads (.mloadp a) a.sd a.sa a.desc (some (a.planes.val + 1))) ∧
    (∀ sa, Issues s w g (.mact sa) →
      let x := s.issueOf w g (.mact sa)
      let tag := x.g.rdS sa.val
      if (x.s.unitAt clu).tagState tag = .retired then Leaves s w g (.mact sa) fun x => x.s.countStale clu g.wg g.hw 1
      else enters (.mact sa) x.s [(g.hw, .act tag)] id) ∧
    (∀ a, Issues s w g (.mpass a) →
      let x := s.issueOf w g (.mpass a)
      let tag := x.g.rdS a.sb.val
      let ops (depth : Nat) := (List.range 9).filterMap fun t =>
        let ls := x.active.filter fun l => l / 9 == t
        let rows := (ls.filter fun l => (x.pred l).trit 0 == 1).map fun l => (l % 27, (x.reg a.a l).val)
        let zeroed := (ls.filter fun l => (x.pred l).trit 0 == -1).map (· % 27)
        if rows = [] ∧ zeroed = [] then none
        else some (g.hw + t / 3, MatOp.row tag (w.tileAt a.tile.val) (t % 3) rows zeroed depth)
      match (x.s.unitAt clu).descOf tag with
      | some d =>
        (∀ l ∈ x.active, (x.pred l).trit 0 = 1 → within (x.reg a.a l).val d.rowLen) →
          enters (.mpass a) x.s (ops (depthOf d.wf)) id
      | none => enters (.mpass a) x.s ((ops 243).filter fun o => o.2.isZeroing) fun t =>
          t.countStale clu g.wg g.hw ((ops 243).filter fun o => !o.2.isZeroing).length) ∧
    (∀ tile, Issues s w g (.mzero tile) →
      enters (.mzero tile) (s.issueOf w g (.mzero tile)).s [(g.hw, .zero (w.tileAt tile.val))] id) ∧
    (∀ a, Issues s w g (.mwr a) →
      let x := s.issueOf w g (.mwr a)
      let b := x.simm a.b
      let cells := (x.active.filter fun l => (x.pred l).trit 0 != 0).map fun l =>
        (27 * (b.toNat / 27) + l % 27, if (x.pred l).trit 0 = 1 then x.reg a.a l else Word.ofInt 0)
      0 ≤ b → b ≤ 728 →
        (cells = [] → Leaves s w g (.mwr a) fun x => x.s) ∧
        (cells ≠ [] → enters (.mwr a) x.s [(g.hw, .write (w.tileAt a.tile.val) (b.toNat % 27) cells)] id)) ∧
    (∀ a, stores (.mstoreKeep a) a false) ∧ ∀ a, stores (.mstoreZero a) a true

/-- R199, R209, R214, R216: an MRD whose tile has no operation in flight begins with the elements of its tile row, column block
cb giving lane l column 27·cb + l mod 27; one whose tile is in use takes cause 16 (R67) and names the tile and its oldest operation, and a row outside 0..728 cause 1,
detail 3. A re-issued MRD or MSTAT that was performed begins with its captured results (R376). MSTAT begins, and reads its item when
it completes. With no active element neither takes a wait slot, and the inactive elements are written at issue (R63, R118). MLOAD, MLOADP, MPASS and MSTORE of an offset that is no multiple of 81 trap with
cause 12, and of a span outside the scratchpad with cause 8, MSTORE with 9; MWR of a value outside 0..728 traps with cause 1, detail 3. -/
def Obligations.MatrixReadsBeginAndSpansTrap : Prop :=
  ∀ (s : State) (w : Workgroup) (g : Group),
    (∀ a, Issues s w g (.mrd a) →
      let x := s.issueOf w g (.mrd a)
      let b := x.simm a.b
      let u := s.unitAt (coreClu w.core)
      let tile := w.tileAt a.tile.val
      let oldest := u.queue.find? fun e => e.op.tile == some tile
      let performed : Prop := ∃ e, x.again = some e ∧ e.perf = true
      (¬performed → ∀ e, oldest = some e →
        exec (.mrd a) s = .next (s.takeFault g.ref (wordOf (.mrd a)) (Instr.mrd a).pred.eff
          { cause := 16, busyOn := some ⟨a.tile.val, e.hw, e.pc, e.op.mnemonic⟩ })) ∧
      (performed ∨ oldest = none →
        (b < 0 ∨ b > 728 → Traps s w g (.mrd a) { cause := 1, detail := 3 }) ∧
        (0 ≤ b → b ≤ 728 →
          ZeroesAtIssue s w g (.mrd a) (zeroDead [a.d.val] true) ∧
          (∀ ps, x.anyActive = true → x.results = some ps → Leaves s w g (.mrd a) fun x => x.begin x.s ps true []) ∧
          (x.anyActive = true → x.results = none → Leaves s w g (.mrd a) fun x =>
            x.begin x.s (x.active.map fun l => { PendLane.new l (x.pred l) with
              r0 := u.tiles.get (Word.ofInt 0) (tile * 19683 + b.toNat % 27 * 729 + (27 * (b.toNat / 27) + l % 27)) }) true [])))) ∧
    (∀ a, Issues s w g (.mstat a) →
      let x := s.issueOf w g (.mstat a)
      ZeroesAtIssue s w g (.mstat a) (zeroDead [a.d.val] true) ∧
      (∀ ps, x.anyActive = true → x.results = some ps → Leaves s w g (.mstat a) fun x => x.begin x.s ps true []) ∧
      (x.anyActive = true → x.results = none →
        Leaves s w g (.mstat a) fun x => x.begin x.s (x.active.map fun l => PendLane.new l (x.pred l)) false [])) ∧
    let refused (deny : Nat) (off : Int) (len : Nat) : Option Nat :=
      if off % 81 ≠ 0 then some 12 else if off < 0 ∨ off + len > (w.runLen : Int) then some deny else none
    let bad := refused 8
    let stores (i : Instr) (a : MstoreArgs) : Prop :=
      ∀ u f c, s.fmtAt w a.fmt.val = (u, some f) → IssuesAfter s u w g i → storeOk a.fmt.val f = true →
        refused 9 ((u.issueOf w g i).g.rdS a.sd.val).val (27 * storeRow f) = some c → TrapsAfter s u w g i { cause := c }
    (∀ a, stores (.mstoreKeep a) a) ∧ (∀ a, stores (.mstoreZero a) a) ∧
    (∀ a u d c, s.descriptorOf w (g.wordPay * 81 + a.desc.val) = (u, some d) → IssuesAfter s u w g (.mload a) →
      bad ((u.issueOf w g (.mload a)).g.rdS a.sa.val).val d.imageLen = some c → TrapsAfter s u w g (.mload a) { cause := c }) ∧
    (∀ a u d c, s.descriptorOf w (g.wordPay * 81 + a.desc.val) = (u, some d) → IssuesAfter s u w g (.mloadp a) →
      d.wf.q = 0 → a.planes.val + 1 ≤ d.wf.w → bad ((u.issueOf w g (.mloadp a)).g.rdS a.sa.val).val d.imageLen = some c →
      TrapsAfter s u w g (.mloadp a) { cause := c }) ∧
    (∀ a, Issues s w g (.mpass a) →
      let x := s.issueOf w g (.mpass a)
      ∀ d, (x.s.unitAt (coreClu w.core)).descOf (x.g.rdS a.sb.val) = some d →
        let fails := (x.active.filter fun l => (x.pred l).trit 0 == 1).filterMap fun l =>
          (bad (x.reg a.a l).val d.rowLen).map fun c => (l, c)
        ∀ l c rest, fails = (l, c) :: rest → Traps s w g (.mpass a) { cause := c, lanes := fails }) ∧
    ∀ a, Issues s w g (.mwr a) →
      ((s.issueOf w g (.mwr a)).simm a.b < 0 ∨ (s.issueOf w g (.mwr a)).simm a.b > 728) →
        Traps s w g (.mwr a) { cause := 1, detail := 3 }

/-! ## Memory (12_memory_instructions.md) -/

/-- R63, R118, R271 to R278, R376: LD, LDU, ST and STU of active elements, issued afresh or re-issued, whose elements pass the checks
of R273, begin: a load with what its reads give, a store with the trytes it is to write at their places. A load of an element that a
check refuses traps with the causes by lane, and so does a store; nothing is performed. A re-issued load that was performed begins
with its captured results. LDU and STU access for the lowest active lane alone. With no active element none takes a wait slot, and the
inactive elements are written at issue. That a load is performed at issue, and waits there where it comes after a release that waits
(`overWaits`), is the model's choice (log 12). -/
def Obligations.LoadsAndStoresBegin : Prop :=
  ∀ (s : State) (w : Workgroup) (g : Group),
    let zero : Nat → Word := fun _ => Word.ofInt 0
    let address (x : Issue) (form : AccForm) (base : Int) : Int := match form with
      | .weak off => wrapInt 27 (base + x.imm off)
      | .strong _ => base
    let qual (form : AccForm) : Option Qual := match form with
      | .weak _ => none
      | .strong q => some q
    let counted (x : Issue) (t : State) : State := match x.i.slotOf with
      | some n => if (x.again.map (·.slot)).getD false then t else t.updGroup x.r fun h => h.wrW n (h.rdW n + 1)
      | none => t
    let fails (parts : List PendLane) (b : Bad) (more : List Bad) : Fail :=
      { cause := b.cause, addr := b.addr, lanes := (b :: more).map fun b => (b.lane, b.cause), cap := parts, slot := true
        issued := true }
    let loads (i : Instr) (sp : Space) (wd : Width) (form : AccForm) (one : Bool) (base : Issue → Nat → Int)
        (zeroed : Issue → Group → Group) : Prop := Issues s w g i →
      let x := s.issueOf w g i
      let parts := x.memParts x.active (fun l => address x form (base x l)) zero zero zero
      let acts := if one then parts.take 1 else parts
      ZeroesAtIssue s w g i zeroed ∧
      (∀ ps, x.anyActive = true → x.results = some ps → Leaves s w g i fun x => x.begin (x.next x.s0) ps true []) ∧
      (x.anyActive = true → x.results = none →
        (∀ t es, x.resolveAll x.s0 sp .read wd acts = (t, es, []) →
          let met := t.settleOver g.ref es
          let flushed := match qual form with
            | some q => if q.remote then met.remoteFlush w q.scope else met
            | none => met
          (t.overWaits g.ref es = true → Stalls s i) ∧
          (t.overWaits g.ref es = false →
            (∀ u ps, x.readAll flushed (qual form).isSome wd parts es = (u, ps, []) → Leaves s w g i fun x =>
              x.begin (x.sendLoads (x.next u) es) ps (!es.any MemElem.isDiverted) []) ∧
            ∀ u ps b more, x.readAll flushed (qual form).isSome wd parts es = (u, ps, b :: more) →
              TrapsIn s w g i (counted x u) (fails ps b more))) ∧
        ∀ t es b more, x.resolveAll x.s0 sp .read wd acts = (t, es, b :: more) →
          TrapsIn s w g i (counted x t) (fails parts b more))
    let stores (i : Instr) (sp : Space) (wd : Width) (form : AccForm) (one : Bool) (base : Issue → Nat → Int)
        (d : Issue → Nat → Nat → Word) : Prop := Issues s w g i →
      let x := s.issueOf w g i
      let parts := x.memParts x.active (fun l => address x form (base x l)) (d x 0) (d x 1) (d x 2)
      let acts := if one then parts.take 1 else parts
      ZeroesAtIssue s w g i (fun _ h => h) ∧ (x.anyActive = true →
        (∀ t es, x.resolveAll x.s0 sp .write wd acts = (t, es, []) → Leaves s w g i fun x =>
          x.begin (x.next t) parts false (es.flatMap fun m =>
            let vals := ((lanePart parts m.lane).map fun p => p.elemData wd m.elem).getD []
            ((List.range vals.length).zip (m.places.zip vals)).map fun e =>
              (⟨m.lane, (if wd = .t then m.elem else 0) + e.1, e.2.1, e.2.2⟩ : StoreElem))) ∧
        ∀ t es b more, x.resolveAll x.s0 sp .write wd acts = (t, es, b :: more) →
          TrapsIn s w g i (counted x t) (fails parts b more))
    let data (a : MemArgs) (x : Issue) (i l : Nat) : Word :=
      if a.d.val = 0 then Word.ofInt 0 else (x.g.lane l).rdG (a.d.val + i)
    let dead (a : MemArgs) : Issue → Group → Group := zeroDead (gRun a.d.val (a.wd == .f81)) (a.wd != .t)
    (∀ a, loads (.ld a) a.space a.wd a.form false (fun x l => ((x.g.lane l).rdG a.a.val).val) (dead a)) ∧
    (∀ a, loads (.ldStrong a) a.space a.wd a.form false (fun x l => ((x.g.lane l).rdG a.a.val).val) (dead a)) ∧
    (∀ a, loads (.ldu a) a.space a.wd a.form true (fun x _ => (x.g.rdS a.sa.val).val) fun x h => match x.active with
      | [] => h
      | l :: _ => h.wrS a.sd.val (mergeBy (a.wd != .t) (x.pred l) (h.rdS a.sd.val) (Word.ofInt 0))) ∧
    (∀ a, stores (.st a) a.space a.wd a.form false (fun x l => ((x.g.lane l).rdG a.a.val).val) (data a)) ∧
    (∀ a, stores (.stStrong a) a.space a.wd a.form false (fun x l => ((x.g.lane l).rdG a.a.val).val) (data a)) ∧
    ∀ a, stores (.stu a) a.space a.wd a.form true (fun x _ => (x.g.rdS a.sa.val).val)
      fun x _ _ => x.g.rdS a.sd.val

/-- R218, R220, R271, R272, R275, R276: a weak LD or ST in the scratchpad or the private space, of a group with nothing
pending, whose active elements lie aligned within its run or slice. The load has read the trytes at its addresses; the store
is to write the trytes of its data register, lane by lane and tryte by tryte, from its addresses up. -/
def Obligations.ScratchpadAccesses : Prop :=
  ∀ (s : State) (w : Workgroup) (g : Group) (a : MemArgs) (off : Trits 4), a.form = .weak off →
    (∀ h ∈ s.groups, h.ref = g.ref → h.pend = []) →
    let core := coreIdx w.core
    let start (x : Issue) (l : Nat) : Nat := w.gran * 2187 + if a.space = .priv then
      w.kernel.scratch + (x.g.lane l).thread * w.kernel.priv else 0
    let limit : Int := if a.space = .priv then w.kernel.priv else w.grans * 2187
    let addr (x : Issue) (l : Nat) : Int := wrapInt 27 (((x.g.lane l).rdG a.a.val).val + x.imm off)
    let elems (x : Issue) (l : Nat) : List Nat :=
      if a.wd = .t then [0, 1, 2].filter fun j => (x.pred l).trit j == 1 else if (x.pred l).trit 0 = 1 then [0] else []
    let len : Int := if a.wd = .w then 3 else if a.wd = .t then 1 else 9
    let place (x : Issue) (l j : Nat) : Int := addr x l + if a.wd = .t then (j : Int) else 0
    let fits (x : Issue) : Prop := ∀ l ∈ x.active, ∀ j ∈ elems x l,
      place x l j % len = 0 ∧ 0 ≤ place x l j ∧ place x l j + len ≤ limit
    (a.space = .scr ∨ a.space = .priv) → s.bad.scr = [] → w.grans ≤ 243 → w.kernel.priv ≤ 531441 →
    (Issues s w g (.ld a) →
      let x := s.issueOf w g (.ld a)
      x.again = none → x.anyActive = true → fits x → x.active.Nodup →
      let tryte (l n : Nat) : Int := (s.scrGet core (start x l + (addr x l).toNat + n)).val
      let word (l n : Nat) : Word := Word.ofInt (tryte l n + 19683 * tryte l (n + 1) + 19683 * 19683 * tryte l (n + 2))
      let byte (l j : Nat) : Int := if (x.pred l).trit j = 1 then tryte l j else 0
      let value (l : Nat) : PendLane :=
        let p := { PendLane.new l (x.pred l) with addr := addr x l }
        match a.wd with
        | .w => if (x.pred l).trit 0 = 1 then { p with r0 := word l 0 } else p
        | .f81 => if (x.pred l).trit 0 = 1 then { p with r0 := word l 0, r1 := word l 3, r2 := word l 6 } else p
        | .t => { p with r0 := Word.ofInt (byte l 0 + 19683 * byte l 1 + 19683 * 19683 * byte l 2) }
      Leaves s w g (.ld a) fun x => x.begin (x.next s) (x.active.map value) true []) ∧
    (Issues s w g (.st a) →
      let x := s.issueOf w g (.st a)
      x.again = none → x.anyActive = true → fits x → x.active.Nodup →
      let data (l n : Nat) : Word := if a.d.val = 0 then Word.ofInt 0 else (x.g.lane l).rdG (a.d.val + n)
      let tryte (l j : Nat) : Tryte := Tryte.ofInt (dropInt (9 * (j % 3)) (data l (j / 3)).val)
      Leaves s w g (.st a) fun x => x.begin (x.next s)
        (x.active.map fun l => { PendLane.new l (x.pred l) with
          addr := addr x l, d0 := data l 0, d1 := data l 1, d2 := data l 2 }) false
        (x.active.flatMap fun l =>
          let js : List Nat := match a.wd with
            | .w => if (x.pred l).trit 0 = 1 then [0, 1, 2] else []
            | .f81 => if (x.pred l).trit 0 = 1 then List.range 9 else []
            | .t => elems x l
          js.map fun (j : Nat) => ⟨l, j, .scr core (start x l + (addr x l + (j : Int)).toNat), tryte l j⟩))

/-- R172, R176, R269, R272, R273: where a selected lane's target is no multiple of 3, JMPI and RET trap with cause 12 for the lanes at
fault, in the state before the word: no lane transfers. A released lane of CALLI whose target is no multiple of 3 traps with cause 12
or 23, in a state in which the links are written, the record stands, and the other released lanes have transferred. Where an active
element of an LD or ST of words or TF81 values, of an LDU or STU of them, or of an atomic of words is misaligned, in whichever space, and
each other one is too, or lies within the scratchpad run or the private slice, the word traps with cause 12 in the misaligned lanes; it has taken its wait
slot (R236, R356), and nothing is performed. An access of a tryte is never misaligned on chip. -/
def Obligations.MisalignedAddressesTrap : Prop :=
  (∀ (s : State) (w : Workgroup) (g : Group) (a : CalliArgs), Issues s w g (.calli a) →
    let x := s.issueOf w g (.calli a)
    let afresh : Prop := x.again = none ∨ ∃ e, x.again = some e ∧ e.issued = false
    let goal (l : Nat) : Int := match x.again with
      | some e => if e.issued then ((lanePart e.lanes l).map (·.addr)).getD 0 else wrapInt 27 ((x.reg a.a l).val + 3 * x.src a.b l)
      | none => wrapInt 27 ((x.reg a.a l).val + 3 * x.src a.b l)
    let sel := x.active.filter fun l => (x.pred l).trit 0 == 1
    let fell := x.active.filter fun l => (x.pred l).trit 0 != 1
    let wait := sel.filter fun l => goal l != leastInt (sel.map goal)
    let go := sel.filter fun l => goal l == leastInt (sel.map goal)
    let ret := Word.ofInt (wrapInt 27 (x.pc.val + 3))
    let cause (l : Nat) : Nat := if goal l % 3 = 1 then 12 else 23
    let link (h : Group) : Group := h.updLanes sel fun _ lane => lane.wr a.d ret
    let traps (released : List Nat) (opened : Group → Group) : Prop :=
      let bad := released.filter fun l => goal l % 3 != 0
      ∀ l ls, bad = l :: ls →
        TrapsIn s w g (.calli a) ((x.s0.updGroup x.r opened).updGroup x.r fun h =>
          (h.updLanes (released.filter fun l => goal l % 3 == 0) fun l lane => { lane with pc := Word.ofInt (goal l) }).updLanes fell
            fun _ lane => { lane with pc := ret })
          { cause := cause l, lanes := bad.map fun l => (l, cause l), issued := true, pc := some x.pc, set := some bad
            cap := bad.map fun l => { PendLane.new l (x.pred l) with addr := goal l } }
    (afresh → wait = [] ∨ w.kernel.reforming = true ∨ 9 ≤ x.g.calls.length → traps sel link) ∧
    (afresh → wait ≠ [] → w.kernel.reforming = false → x.g.calls.length < 9 → traps go fun h =>
      let held := (link h).updLanes wait fun _ lane => { lane with st := .held, pc := x.pc }
      { held with calls :=
        { word := wordOf (.calli a), payload := x.pay, ret := ret, held := wait.map fun l => (l, Word.ofInt (goal l)), out := go,
          parked := [] } :: held.calls }) ∧
    (¬afresh → traps sel id)) ∧
  (∀ (s : State) (w : Workgroup) (sp : Space) (thread : Nat) (k : AccKind) (addr : Int), sp ≠ .virt →
    ∀ c, s.resolve w sp thread k 1 addr = .error c → c ≠ 12) ∧
  (∀ (s : State) (w : Workgroup) (g : Group),
    (∀ a : JmpiArgs, Issues s w g (.jmpi a) →
      let x := s.issueOf w g (.jmpi a)
      let bad := x.active.filter fun l =>
        (x.pred l).trit 0 == 1 && wrapInt 27 ((x.reg a.a l).val + 3 * x.src a.b l) % 3 != 0
      bad ≠ [] → exec (.jmpi a) s = .next (x.s0.takeFault g.ref (wordOf (.jmpi a)) (Instr.jmpi a).pred.eff
        { cause := 12, lanes := bad.map fun l => (l, 12) })) ∧
    ∀ a : RetArgs, Issues s w g (.ret a) →
      let x := s.issueOf w g (.ret a)
      let bad := x.active.filter fun l => (x.pred l).trit 0 == 1 && (x.reg a.a l).val % 3 != 0
      bad ≠ [] → exec (.ret a) s = .next (x.s0.takeFault g.ref (wordOf (.ret a)) (Instr.ret a).pred.eff
        { cause := 12, lanes := bad.map fun l => (l, 12) })) ∧
  ∀ (s : State) (w : Workgroup) (g : Group),
    let address (form : AccForm) (x : Issue) (base : Int) : Int := match form with
      | .weak off => wrapInt 27 (base + x.imm off)
      | .strong _ => base
    let traps (i : Instr) (slot : Nat) (sp : Space) (len : Int) (one : Bool) (addr : Issue → Nat → Int)
        (d : Issue → Nat → Nat → Word) : Prop := Issues s w g i →
      let x := s.issueOf w g i
      let sel := (if one then x.active.take 1 else x.active).filter fun l => (x.pred l).trit 0 == 1
      let bad := sel.filter fun l => addr x l % len != 0
      let limit : Option Int := if sp = .scr then some (w.grans * 2187) else if sp = .priv then some w.kernel.priv else none
      bad ≠ [] → x.active.Nodup → x.again = none →
      (∀ l ∈ sel, addr x l % len ≠ 0 ∨ ∃ n, limit = some n ∧ 0 ≤ addr x l ∧ addr x l + len ≤ n) →
        TrapsIn s w g i (x.s0.updGroup g.ref fun h => h.wrW slot (h.rdW slot + 1))
          { cause := 12, addr := addr x (bad.headD 0), lanes := bad.map fun l => (l, 12), slot := true, issued := true
            cap := x.active.map fun l => { PendLane.new l (x.pred l) with
              addr := addr x l, d0 := d x l 0, d1 := d x l 1, d2 := d x l 2 } }
    let none_ : Issue → Nat → Nat → Word := fun _ _ _ => Word.ofInt 0
    (∀ a : MemArgs, a.wd ≠ .t →
      let len : Int := if a.wd = .w then 3 else 9
      let addr (x : Issue) (l : Nat) : Int := address a.form x ((x.g.lane l).rdG a.a.val).val
      let data (x : Issue) (l n : Nat) : Word := if a.d.val = 0 then Word.ofInt 0 else (x.g.lane l).rdG (a.d.val + n)
      traps (.ld a) a.w.val a.space len false addr none_ ∧ traps (.ldStrong a) a.w.val a.space len false addr none_ ∧
        traps (.st a) a.w.val a.space len false addr data ∧ traps (.stStrong a) a.w.val a.space len false addr data) ∧
    (∀ a : UniArgs, a.wd ≠ .t →
      let len : Int := if a.wd = .w then 3 else 9
      let addr (x : Issue) (_ : Nat) : Int := address a.form x (x.g.rdS a.sa.val).val
      traps (.ldu a) a.w.val a.space len true addr none_ ∧
        traps (.stu a) a.w.val a.space len true addr fun x _ _ => x.g.rdS a.sd.val) ∧
    ∀ a : AtomArgs, a.tryte = false →
      let addr (x : Issue) (l : Nat) : Int := ((x.g.lane l).rdG a.a.val).val
      let waits (i : Instr) : Prop := (a.order = .rel ∨ a.order = .acqrel) ∧ (s.issueOf w g i).releaseWaits = true
      let data (two : Bool) (x : Issue) (l n : Nat) : Word :=
        if n = 0 ∨ (two ∧ n = 1) then (x.g.lane l).rdG (a.d.val + n) else Word.ofInt 0
      (¬waits (.atom a) → traps (.atom a) a.w.val a.space 3 false addr (data false)) ∧
      (¬waits (.atomr a) → traps (.atomr a) a.w.val a.space 3 false addr (data false)) ∧
      (¬waits (.cas a) → traps (.cas a) a.w.val a.space 3 false addr (data true))

/-- R276, R271: a store to the scratchpad, whatever its trytes, completes: each place it names holds the last tryte stored
there, and every other tryte of scratchpad, every tryte of chip scratchpad and every byte of DRAM is as before. Its result
lands in no register, and its slot is released. -/
def Obligations.ScratchpadStoresComplete : Prop :=
  ∀ (s : State) (r : GroupRef) (n : Nat) (w : Workgroup) (g : Group) (p : Pending),
    s.wgOf r.wg = some w → s.groupOf r = some g → g.pend[n]? = some p →
    s.dieDown w.core.die = false → w.entry = none →
    (∃ a, p.instr = some (.st a)) → p.stores ≠ [] → s.bad.scr = [] → (g.pend.map (·.id)).Nodup →
    g.resuming = none → (∀ l ∈ p.lanes, l.flags = .none) → s.sending r p.id = false →
    (∀ m q, m < n → g.pend[m]? = some q → q.precedes p = false) → (w.kernel.reforming = false ∨ g.live ≠ []) →
    (∀ e ∈ p.stores, ∃ core off, e.place = .scr core off ∧ off < 531441 ∧ s.divAt core off = none) →
    ∃ t, exec (.memoryWriteComplete r n) s = .next t ∧
      (∀ core off, off < 531441 → t.scrGet core off =
        match p.stores.reverse.find? fun e => e.place == .scr core off with
        | some e => e.val
        | none => s.scrGet core off) ∧
      (∀ die off, t.chipGet die off = s.chipGet die off) ∧ (∀ die lp byte, t.dramByte die lp byte = s.dramByte die lp byte) ∧
      t.groupOf r = some ((if p.counted then g.wrW p.slot (g.rdW p.slot - 1) else g).dropPend p.id)

/-- R63, R118, R271, R273, R274, R279, R280, R376: ATOM, ATOMR and CAS of active elements, issued afresh or re-issued, that pass their
checks and whose lines can be read are performed, element by element, and begin with the old values; as many as a free value says
(`atomSplit`, log 12), and the others as the word completes; a release (R251) acts before, and waits while an earlier access of the
group is still to be performed. One that a check or the read of a line refuses traps with the causes by lane, and nothing is
performed. A re-issued one that was performed begins with its captured results, and one with no active element takes no wait slot
and zeroes its inactive elements at issue. -/
def Obligations.AtomicsPerform : Prop :=
  ∀ (s : State) (w : Workgroup) (g : Group) (a : AtomArgs),
    let wd : Width := if a.tryte then .t else .w
    let releases : Bool := a.order = .rel ∨ a.order = .acqrel
    let fails (x : Issue) (parts : List PendLane) (b : Bad) (more : List Bad) : Fail :=
      { cause := b.cause, addr := b.addr, lanes := (b :: more).map fun b => (b.lane, b.cause), cap := parts
        slot := x.i.slotOf.isSome, issued := true }
    let performs (i : Instr) (cas : Bool) (zeroed : Issue → Group → Group) : Prop := Issues s w g i →
      let x := s.issueOf w g i
      let parts := x.memParts x.active (fun l => ((x.g.lane l).rdG a.a.val).val) (fun l => (x.g.lane l).rdG a.d.val)
        (fun l => if cas then (x.g.lane l).rdG (a.d.val + 1) else Word.ofInt 0) (fun _ => Word.ofInt 0)
      let counted (t : State) : State := match x.i.slotOf with
        | some n => if (x.again.map (·.slot)).getD false then t else t.updGroup x.r fun h => h.wrW n (h.rdW n + 1)
        | none => t
      ZeroesAtIssue s w g i zeroed ∧
      (∀ ps, x.anyActive = true → x.results = some ps → Leaves s w g i fun x => x.begin (x.next x.s0) ps true []) ∧
      (x.anyActive = true → x.results = none → releases = true → x.releaseWaits = true → Stalls s i) ∧
      (x.anyActive = true → x.results = none → (releases = true → x.releaseWaits = false) →
        (∀ t es b more, x.resolveAll x.s0 a.space .atomic wd parts = (t, es, b :: more) →
          TrapsIn s w g i (counted t) (fails x parts b more)) ∧
        ∀ t es, x.resolveAll x.s0 a.space .atomic wd parts = (t, es, []) →
          let met := if releases then (t.settleStores g.ref fun _ => true).releaseAt w a.scope else t.settleOver g.ref es
          (t.overWaits g.ref es = true → Stalls s i) ∧
          (t.overWaits g.ref es = false →
            (∀ b more, x.atomProbe met wd parts es = b :: more → TrapsIn s w g i (counted met) (fails x parts b more)) ∧
            (x.atomProbe met wd parts es = [] → ∀ k u, met.atomSplit es = (k, u) →
              (∀ v ps, x.atomAll a.op cas wd u parts (es.take k) = (v, ps, []) → Leaves s w g i fun x =>
                x.begin (x.next v) ps (k == es.length && !es.any MemElem.isDiverted) [] (es.drop k)) ∧
              ∀ v ps b more, x.atomAll a.op cas wd u parts (es.take k) = (v, ps, b :: more) →
                TrapsIn s w g i (counted v) (fails x ps b more))))
    let dead : Issue → Group → Group := zeroDead [a.d.val] (!a.tryte)
    performs (.atom a) false (fun _ h => h) ∧ performs (.atomr a) false dead ∧ performs (.cas a) true dead

/-- R269, R274, R279: a relaxed ATOM, ATOMR or CAS of words of the scratchpad, of a group with nothing pending, whose active
lanes' addresses lie aligned within its run. In ascending lane order each takes the word it meets as its old value and writes
the new one: the wrapped sum, the operand, the least, the greatest, the tritwise least or greatest; CAS writes g(d + 1) where
the old value is g(d), and else the old one. A free value says how many of the lanes do so as the word issues; the elements of the
others are left for later (log 12). -/
def Obligations.ScratchpadAtomicsInLaneOrder : Prop :=
  ∀ (s : State) (w : Workgroup) (g : Group) (a : AtomArgs),
    (∀ h ∈ s.groups, h.ref = g.ref → h.pend = []) → s.bad.scr = [] → w.grans ≤ 243 →
    (∀ off, s.divAt (coreIdx w.core) off = none) → a.space = .scr → a.tryte = false → a.order = .rlx →
    let core := coreIdx w.core
    let word (t : State) (o : Nat) : Int :=
      (t.scrGet core o).val + 19683 * (t.scrGet core (o + 1)).val + 19683 * 19683 * (t.scrGet core (o + 2)).val
    let put (t : State) (o : Nat) (v : Int) : State :=
      ((t.scrSet core o (Tryte.ofInt v)).scrSet core (o + 1) (Tryte.ofInt (dropInt 9 v))).scrSet core (o + 2)
        (Tryte.ofInt (dropInt 18 v))
    let performs (i : Instr) (new : Issue → Nat → Int → Int) (d1 : Issue → Nat → Word) : Prop := Issues s w g i →
      let x := s.issueOf w g i
      let sel := x.active.filter fun l => (x.pred l).trit 0 == 1
      let addr (l : Nat) : Int := ((x.g.lane l).rdG a.a.val).val
      let at_ (l : Nat) : Nat := w.gran * 2187 + (addr l).toNat
      x.again = none → sel ≠ [] → x.active.Nodup →
      (∀ l ∈ sel, addr l % 3 = 0 ∧ 0 ≤ addr l ∧ addr l + 3 ≤ w.grans * 2187) →
      let k := (s.pick (sel.length + 1)).1
      let done : State × List (Nat × Int) := (sel.take k).foldl (fun acc l =>
        (put acc.1 (at_ l) (new x l (word acc.1 (at_ l))), acc.2 ++ [(l, word acc.1 (at_ l))])) ((s.pick (sel.length + 1)).2, [])
      Leaves s w g i fun x => x.begin (x.next done.1)
        (x.active.map fun l => { PendLane.new l (x.pred l) with
          addr := addr l, d0 := (x.g.lane l).rdG a.d.val, d1 := d1 x l
          r0 := Word.ofInt (((done.2.find? fun e => e.1 == l).map (·.2)).getD 0) }) (k == sel.length) []
        ((sel.drop k).map fun l => ⟨l, 0, [.scr core (at_ l), .scr core (at_ l + 1), .scr core (at_ l + 2)]⟩)
    let operate (x : Issue) (l : Nat) (old : Int) : Int :=
      let v := ((x.g.lane l).rdG a.d.val).val
      match a.op with
      | .add => wrapInt 27 (old + v)
      | .exch => v
      | .min => Min.min old v
      | .max => Max.max old v
      | .tmin => tritwise tMin 27 old v
      | .tmax => tritwise tMax 27 old v
    performs (.atom a) operate (fun _ _ => Word.ofInt 0) ∧ performs (.atomr a) operate (fun _ _ => Word.ofInt 0) ∧
      performs (.cas a) (fun x l old => if old = ((x.g.lane l).rdG a.d.val).val then ((x.g.lane l).rdG (a.d.val + 1)).val else old)
        (fun x l => (x.g.lane l).rdG (a.d.val + 1))

/-- R281, R282, R376: FENCE holds its group while an earlier access or copy word of it is pending, or a store of it is on its way to a
diversion unit; else a release kind writes the L1 back at cluster scope or wider, and brings the copies of the scope's other dies up to
date at a wider one, and an acquire kind drops the clean lines. WAITM, issued afresh or re-issued with the address and the token that it
had, writes a value that differs from the expected one to s(d) and goes on; where it is equal, the group waits with its deadline; a
failure of its read traps for the acting lane. -/
def Obligations.FencesAndMonitorWaits : Prop :=
  ∀ (s : State) (w : Workgroup) (g : Group),
    (∀ a, Issues s w g (.fence a) →
      let x := s.issueOf w g (.fence a)
      let wide : Bool := !(a.scope = .thread ∨ a.scope = .group ∨ a.scope = .wgrp)
      let core := coreIdx w.core
      let release (t : State) : State :=
        let t := if wide then t.cleanL1 core else t
        let dies : List Nat := match a.scope with
          | .pair => if w.region.ctx.mode = 4 then [] else [coreDie core / 2 * 2, coreDie core / 2 * 2 + 1]
          | .pkg | .sys => w.region.ctx.dies
          | _ => []
        if 1 < dies.length then t.drainFor (coreDie core) dies allLines else t
      let acquire (t : State) : State := if wide then t.dropClean core allLines else t
      (x.g.pend.any Pending.fenced = true ∨ x.releaseWaits = true → Holds s w g (.fence a)) ∧
      (x.g.pend.any Pending.fenced = false → x.releaseWaits = false → Leaves s w g (.fence a) fun x => x.next (match a.kind with
        | .rel => release x.s0
        | .acq => acquire x.s0
        | .acqrel => acquire (release x.s0)
        | .sc => acquire (release x.s0)))) ∧
    ∀ a, Issues s w g (.waitm a) →
      let x := s.issueOf w g (.waitm a)
      let l := x.active.headD 0
      let cap : PendLane := (x.captured l).getD
        { PendLane.new l (Trits.ofInt 3 13) with addr := (x.g.rdS a.sa.val).val, d0 := x.g.rdS a.sd.val }
      let addr := cap.addr
      let old := cap.d0
      let read := x.s0.monitorRead w g.ref a.space (x.g.lane l).thread addr;
      (∀ t v, read = .ok (t, some v) → v ≠ old.val →
        Leaves s w g (.waitm a) fun x => (x.next t).updGroup x.r fun h => h.wrS a.sd.val (Word.ofInt v)) ∧
      (∀ t v, read = .ok (t, some v) → v = old.val →
        Leaves s w g (.waitm a) fun x => t.updGroup x.r fun h => { h with
          phase := .waiting { instr := .waitm a, pc := x.pc, payload := x.pay, addr := addr, token := old.val,
                              last := Word.ofInt v, fault := none
                              deadline := if x.imm a.timeout = 0 then none
                                else some (t.cycles (coreClu w.core) + (x.imm a.timeout).toNat) } }) ∧
      (∀ t, read = .ok (t, none) → Stalls s (.waitm a)) ∧
      ∀ c, read = .error c → TrapsIn s w g (.waitm a) (if a.space = .virt then x.s0.refusedAccess w.who 3 addr else x.s0)
          { cause := c, addr := addr, lanes := [(l, c)], issued := true, cap := [cap] }

/-- R283, R284: CWB writes back, and CINV writes back and drops, the lines of their core's L1 that the selected lanes address,
or every line in the whole forms; PREF fills for each selected lane. No register changes. -/
def Obligations.CacheWordsAct : Prop :=
  ∀ (s : State) (w : Workgroup) (g : Group),
    let core := coreIdx w.core
    let ctx := w.region.ctx.num
    let addrs (x : Issue) (a : LineArgs) : List Int := (x.active.filter fun l => (x.pred l).trit 0 == 1).map fun l =>
      wrapInt 27 ((x.reg a.a l).val + x.src a.b l)
    (∀ a, Issues s w g (.cwb a) → Leaves s w g (.cwb a) fun x =>
      (addrs x a).foldl (fun t va => t.cleanLine core ctx (va / 81)) x.s) ∧
    (Issues s w g .cwbAll → Leaves s w g .cwbAll fun x => x.s.cleanL1 core) ∧
    (∀ a, Issues s w g (.cinv a) → Leaves s w g (.cinv a) fun x =>
      (addrs x a).foldl (fun t va => t.flushLine core ctx (va / 81)) x.s) ∧
    (Issues s w g .cinvAll → Leaves s w g .cinvAll fun x => (x.s.cleanL1 core).updCore core fun c => { c with l1 := [] }) ∧
    (∀ a, Issues s w g (.pref a) → Leaves s w g (.pref a) fun x =>
      (addrs x a).foldl (fun t va => t.prefetch w va true) x.s) ∧
    ∀ a, Issues s w g (.prefLlc a) → Leaves s w g (.prefLlc a) fun x =>
      (addrs x a).foldl (fun t va => t.prefetch w va false) x.s

/-! ## Copies, spawns, barriers and messages (15_async_instructions.md) -/

/-- R323 to R329, R336: the issue of a copy or a spawn. A request offset that is no multiple of 27 traps with cause 12, one
outside the scratchpad with cause 8. CPYS, CPYF and CPYL open a copy of one slice; CPY joins the open collective of its
number, holds while another has not started, or opens one of as many slices as the workgroup has groups; a spawn captures its
count and the launch scalars s1 to s26. The earlier stores of the group come first (R259), and the word waits while an earlier access of
the group is still to be performed (`releaseWaits`). -/
def Obligations.EngineWordsIssue : Prop :=
  ∀ (s : State) (w : Workgroup) (g : Group),
    let engine := coreIdx w.core
    let cause (off : Int) : Option Nat :=
      if off % 27 ≠ 0 then some 12 else if off < 0 ∨ off + 27 > (w.runLen : Int) then some 8 else none
    let before (x : Issue) : State := (x.next x.s0).settleStores x.r fun _ => true
    let waits (x : Issue) : List Nat :=
      (((x.s0.unitAt (coreClu w.core)).queue.filter (·.ofGroup x.g)).map (·.id)).eraseDups
    let slice (hw : Nat) (off : Int) : Slice := ⟨hw, off, 0, .waiting, engine, none, []⟩
    let fresh (x : Issue) (form : CopyForm) (seq need : Nat) (slices : List Slice) : Copy :=
      { id := (before x).nextId, wg := g.wg, engine := engine, owner := w, form := form, seq := seq, need := need
        slices := slices, pc := x.pc, waits := waits x, started := false, view := none, box := none, wrote := []
        stage := 0, parked := false, reread := false }
    let single (i : Instr) (sa : Fin 27) (form : CopyForm) : Prop := Issues s w g i →
      let off := ((s.issueOf w g i).g.rdS sa.val).val
      (∀ c, cause off = some c → Traps s w g i { cause := c }) ∧
      (cause off = none → (s.issueOf w g i).releaseWaits = true → Stalls s i) ∧
      (cause off = none → (s.issueOf w g i).releaseWaits = false → Leaves s w g i fun x =>
        x.begin { before x with copies := (before x).copies ++ [fresh x form 0 1 [slice g.hw off]] }
          [{ PendLane.new 0 (Trits.ofInt 3 0) with addr := (before x).nextId }] true [])
    let spawns (i : Instr) (a : SpawnArgs) : Prop := Issues s w g i →
      ((s.issueOf w g i).releaseWaits = true → Stalls s i) ∧ ((s.issueOf w g i).releaseWaits = false → Leaves s w g i fun x =>
      let part := PendLane.new (x.active.headD 0) (Trits.ofInt 3 13)
      x.begin ((before x).releaseAt w .pkg)
        ({ part with addr := (x.g.rdS a.sa.val).val } :: (List.range 26).map fun n => { part with d0 := x.g.rdS (n + 1) })
        false [])
    (∀ a, single (.cpys a) a.sa .cpys) ∧ (∀ a, single (.cpyf a) a.sa .cpyf) ∧
    (∀ a, single (.cpyl a) a.sa (.cpyl a.set.val false)) ∧ (∀ a, single (.cpylFlush a) a.sa (.cpyl a.set.val true)) ∧
    (∀ a, spawns (.spawn a) a) ∧ (∀ a, spawns (.spawnCoresident a) a) ∧
    ∀ a, Issues s w g (.cpy a) →
      let x := s.issueOf w g (.cpy a)
      let off := (x.g.rdS a.sa.val).val
      let mine := x.s0.copies.filter fun c => c.wg == g.wg && c.form == .cpy
      let slices := (List.range (Nat.max 1 (x.g.lanes.length / 27))).map fun j => slice (g.hw + j) off
      let count (t : State) : State := t.updGroup g.ref fun h => { h with cpys := h.cpys + 1 }
      let last (t : State) (c : Copy) : State := { t with copies := (t.copies.filter fun d => d.id != c.id) ++ [c] }
      (∀ c, cause off = some c → Traps s w g (.cpy a) { cause := c }) ∧
      (cause off = none → x.releaseWaits = true → Stalls s (.cpy a)) ∧
      (cause off = none → x.releaseWaits = false →
        (∀ c, mine.find? (fun c => c.seq == x.g.cpys) = some c → Leaves s w g (.cpy a) fun x =>
          let c' : Copy := { c with slices := c.slices ++ slices, waits := c.waits ++ waits x }
          x.begin (count (if c'.slices.length ≥ c'.need then last (before x) c'
            else (before x).updCopy c.id fun _ => c')) [] true []) ∧
        (mine.find? (fun c => c.seq == x.g.cpys) = none → (∃ c ∈ mine, c.started = false) → Holds s w g (.cpy a)) ∧
        (mine.find? (fun c => c.seq == x.g.cpys) = none → (∀ c ∈ mine, c.started = true) → Leaves s w g (.cpy a) fun x =>
          let c := fresh x .cpy x.g.cpys ((w.kernel.threads + 26) / 27) slices
          x.begin (count (last { before x with nextId := (before x).nextId + 1 } c)) [] true []))

/-- R340, R343: an arrival at a sound object counts `left` down by one; the last of a phase sets it to `expect` again and
raises the phase, wrapped in 26 trits. It is refused where the object is broken, a reserved field is not 0, or `left` or
`expect` is out of its range.

R261, R339 to R344: BARI writes its nine words, broken where the count or the length is out of range; BARA arrives and gives the
phase it arrived in; BAR arrives and waits with it as its token; BARW, issued afresh or re-issued with the address and the token that it
had, goes on where the phase differs from its token, traps with cause 20 where the object is broken, and else waits. A refused arrival
traps with cause 20. An arrival first releases, and one that goes on acquires, the buffer that the object names in words 3 and 4. A word
that arrives, and BARI, hold their group while an earlier access of it is still to be performed. -/
def Obligations.BarrierWords : Prop :=
  (∀ e left w2 a n r5 r6 r7 r8 : Int, w2.natAbs ≤ maxMag 27 →
    let sound := tritAt w2 26 = 0 ∧ 1 ≤ e ∧ e ≤ 797161 ∧ 1 ≤ left ∧ left ≤ e ∧ r5 = 0 ∧ r6 = 0 ∧ r7 = 0 ∧ r8 = 0
    (¬sound → barrierStep [e, left, w2, a, n, r5, r6, r7, r8] = none) ∧
    (sound → left ≠ 1 → barrierStep [e, left, w2, a, n, r5, r6, r7, r8] = some ([e, left - 1, w2, a, n, 0, 0, 0, 0], w2)) ∧
    (sound → left = 1 →
      barrierStep [e, left, w2, a, n, r5, r6, r7, r8] = some ([e, e, wrapInt 26 (w2 + 1), a, n, 0, 0, 0, 0], w2))) ∧
  ∀ (s : State) (w : Workgroup) (g : Group),
    let object (x : Issue) (sp : Space) (k : AccKind) (addr : Int) : Except Nat (State × List Place) :=
      match x.s0.resolve w sp (x.g.lane (x.active.headD 0)).thread k 27 addr with
      | .error c => .error c
      | .ok (t, ps) => .ok (t, ps.map (t.placeNow g.wg))
    let released (x : Issue) (t : State) : State := (t.settleStores x.r fun _ => true).releaseAt w .pkg
    let wait (x : Issue) (i : Instr) (addr token : Int) (last : Word) : Phase :=
      .waiting { instr := i, pc := x.pc, payload := x.pay, addr := addr, token := token, last := last, deadline := none, fault := none }
    let waits (x : Issue) : Prop := x.releaseWaits = true
    let arrives (i : Instr) (sp : Space) (sa : Fin 27) (go : Issue → Int → NamedBuf → State → Int → State) : Prop :=
        Issues s w g i →
      let x := s.issueOf w g i
      let addr := (x.g.rdS sa.val).val;
      (∀ c, object x sp .atomic addr = .error c → Traps s w g i { cause := c }) ∧
      ∀ t ps, object x sp .atomic addr = .ok (t, ps) →
        (t.waitsAt ps = true ∨ waits x → Holds s w g i) ∧
        (t.waitsAt ps = false → ¬waits x →
          (∀ c, t.atomRead w.who ps = .error c → Traps s w g i { cause := c }) ∧
          ∀ u ts, t.atomRead w.who ps = .ok (u, ts) →
            let buf : NamedBuf := { space := sp, base := (wordsOfTrytes ts).getD 3 0, len := (wordsOfTrytes ts).getD 4 0 }
            let met := ((u.settleStores x.r buf.meets).releaseAt w .pkg (buf.lines w.region.ctx.num)).arriveAt w.who ps
            (∀ c, met = .error c → Traps s w g i { cause := c }) ∧ (∀ v, met = .ok (v, none) → Traps s w g i { cause := 20 }) ∧
            ∀ v ph, met = .ok (v, some ph) → Leaves s w g i fun x => go x addr buf (v.useBarrier w sp addr) ph)
    (∀ a, Issues s w g (.bari a) →
      let x := s.issueOf w g (.bari a)
      let v (n : Nat) : Int := (x.g.rdS (a.sd.val + n)).val
      let sound := 1 ≤ v 0 ∧ v 0 ≤ 797161 ∧ 0 ≤ v 2
      let words : List Int := [v 0, v 0, if sound then 0 else -(3 ^ 26), v 1, v 2, 0, 0, 0, 0]
      (∀ c, object x a.space .write (x.g.rdS a.sa.val).val = .error c → Traps s w g (.bari a) { cause := c }) ∧
      ∀ t ps, object x a.space .write (x.g.rdS a.sa.val).val = .ok (t, ps) →
        (waits x → Holds s w g (.bari a)) ∧
        (¬waits x → ∀ u es, (released x t).sendDiverted g.wg (some (g.wg, g.hw, (released x t).nextId)) 27
            (((List.range 27).zip (ps.zip (words.flatMap fun v => toTrytes 3 v))).map fun e =>
              (⟨0, e.1, e.2.1, e.2.2⟩ : StoreElem)) = (u, es) →
          (∀ v, u.performStores w.who true true (fun _ => none) es = (v, []) →
            Leaves s w g (.bari a) fun x => { x.next v with nextId := v.nextId + 1 }) ∧
          ∀ v f fs, u.performStores w.who true true (fun _ => none) es = (v, f :: fs) → Traps s w g (.bari a) { cause := f.cause })) ∧
    (∀ a, arrives (.bara a) a.space a.sa fun x _ buf t ph =>
      (x.next (t.acquireAt w .pkg (buf.lines w.region.ctx.num))).updGroup x.r fun h => h.wrS a.sd.val (Word.ofInt ph)) ∧
    (∀ a, arrives (.bar a) a.space a.sa fun x addr _ t ph =>
      t.updGroup x.r fun h => { h with phase := wait x (.bar a) addr ph (Word.ofInt 0) }) ∧
    ∀ a, Issues s w g (.barw a) →
      let x := s.issueOf w g (.barw a)
      let l := x.active.headD 0
      let cap : PendLane := (x.captured l).getD
        { PendLane.new l (Trits.ofInt 3 13) with addr := (x.g.rdS a.sa.val).val, d0 := x.g.rdS a.sb.val }
      let addr := cap.addr
      let token := cap.d0
      let read := x.s0.monitorRead w g.ref a.space (x.g.lane l).thread (addr + 6)
      let trap (c : Nat) : Fail := { cause := c, lanes := [(l, c)], issued := true, cap := [cap] };
      (∀ c, object x a.space .read addr = .error c → Traps s w g (.barw a) (trap c)) ∧
      ∀ p, object x a.space .read addr = .ok p →
        (∀ c, read = .error c → Traps s w g (.barw a) (trap c)) ∧ (∀ t, read = .ok (t, none) → Stalls s (.barw a)) ∧
        ∀ t v, read = .ok (t, some v) →
          (tritAt v 26 = -1 → Traps s w g (.barw a) (trap 20)) ∧
          (tritAt v 26 ≠ -1 → fld v 0 25 ≠ token.val → Leaves s w g (.barw a) fun x =>
            x.next (t.acquireObject w x.r a.space (x.g.lane l).thread addr)) ∧
          (tritAt v 26 ≠ -1 → fld v 0 25 = token.val → Leaves s w g (.barw a) fun x =>
            t.updGroup x.r fun h => { h with phase := wait x (.barw a) addr token.val (Word.ofInt v) })

/-- R345, R346, R308: MBRX gives each active lane its word of the first-posted slot of a bound mailbox, or 0, and frees the
slot. MBTX writes the reply area where its doorbell is 0, binds or unbinds, and gives + where it took effect and 0 where not. That
MBRX gives the reserved trits of word 0 as the host wrote them, and that a lane 0 or 1 of a binding reads 0 where it is not active, is
the model's choice (log 68). -/
def Obligations.MailboxWords : Prop :=
  ∀ (s : State) (w : Workgroup) (g : Group),
    let zero : Word := Word.ofInt 0
    let status (x : Issue) (t : State) (kd : Fin 9) (v : Int) : State :=
      t.updGroup x.r fun h => h.updLanes x.active fun _ l => l.wrK kd.val (Trits.ofInt 3 (13 * v))
    let freed (b : Mailbox) : Mailbox :=
      { b with posted := [], words := b.posted.foldl (fun m slot => m.set zero (27 * slot + 26) zero) b.words }
    let value (x : Issue) (a : Reg) (l : Nat) : Word := if l ∈ x.active then x.reg a l else zero
    (∀ a, Issues s w g (.mbrx a) →
      let x := s.issueOf w g (.mbrx a)
      let b := x.simm a.b
      let box := x.s.box b.toNat
      let take (x : Issue) (t : State) (ws : Nat → Word) : State :=
        t.updGroup x.r fun h => h.updLanes x.active fun i l => l.wr a.d (ws i)
      (b < 0 ∨ b > 26 ∨ box.bound = none ∨ box.posted = [] → Leaves s w g (.mbrx a) fun x => take x x.s fun _ => zero) ∧
      ∀ slot more, 0 ≤ b → b ≤ 26 → box.bound.isSome = true → box.posted = slot :: more →
        Leaves s w g (.mbrx a) fun x =>
          take x ((x.s.setBox b.toNat { box with posted := more, words := box.words.set zero (27 * slot + 26) zero }).acquireAt w
            .sys) fun i => if i < 27 then box.words.get zero (27 * slot + i) else zero) ∧
    (∀ a, Issues s w g (.mbtxReply a) →
      let x := s.issueOf w g (.mbtxReply a)
      let b := x.simm a.b
      let box := x.s.box b.toNat
      (b < 0 ∨ b > 26 ∨ box.reply.get zero 26 ≠ zero → Leaves s w g (.mbtxReply a) fun x => status x x.s a.kd 0) ∧
      (0 ≤ b → b ≤ 26 → box.reply.get zero 26 = zero → x.releaseWaits = true → Holds s w g (.mbtxReply a)) ∧
      (0 ≤ b → b ≤ 26 → box.reply.get zero 26 = zero → x.releaseWaits = false → Leaves s w g (.mbtxReply a) fun x =>
        let bell := value x a.a 26
        let reply := ((List.range 26).foldl (fun (m : SMap Word) j => m.set zero j (value x a.a j)) box.reply).set zero 26
          (if bell = zero then Word.ofInt 1 else bell)
        status x (((x.s.settleStores x.r fun _ => true).releaseAt w .sys).setBox b.toNat { box with reply := reply }) a.kd 1)) ∧
    (∀ a, Issues s w g (.mbtxBind a) →
      let x := s.issueOf w g (.mbtxBind a)
      let b := x.simm a.b
      let c := (value x a.a 0).val
      let rev := (value x a.a 1).val
      let world := (x.s.world.mailboxes.get .zero b.toNat).val
      let other := world ≠ 0 ∧ x.s.contextWorld w.core.die c.toNat = -world
      let ok := 0 ≤ b ∧ b ≤ 26 ∧ 0 ≤ c ∧ c ≤ 728 ∧ 1 ≤ rev ∧ rev ≤ 9841 ∧ ¬other
      (¬ok → Leaves s w g (.mbtxBind a) fun x => status x x.s a.kd 0) ∧
      (ok → Leaves s w g (.mbtxBind a) fun x =>
        status x (x.s.setBox b.toNat { freed (x.s.box b.toNat) with bound := some (c.toNat, rev) }) a.kd 1)) ∧
    ∀ a, Issues s w g (.mbtxUnbind a) →
      let x := s.issueOf w g (.mbtxUnbind a)
      let b := x.simm a.b
      (b < 0 ∨ b > 26 → Leaves s w g (.mbtxUnbind a) fun x => status x x.s a.kd 0) ∧
      (0 ≤ b → b ≤ 26 → Leaves s w g (.mbtxUnbind a) fun x =>
        status x (x.s.setBox b.toNat { freed (x.s.box b.toNat) with bound := none }) a.kd 1)

/-- R347 to R349, R309, R411: EVPOST posts a record of kind 3 with its region, status + and its four words, or holds while the ring is
full, at the place in the ring's order that it took first; RWALK makes a node ready, and RSTAT reads an item of it, once the address of the node passes as a word read. -/
def Obligations.PostsAndNodeWords : Prop :=
  ∀ (s : State) (w : Workgroup) (g : Group),
    let c := w.region.ctx
    let released (x : Issue) (t : State) : State := t.settleStores x.r fun _ => true;
    (∀ sa, Issues s w g (.evpost sa) →
      let x := s.issueOf w g (.evpost sa)
      let t := (released x x.s0).releaseAt w .sys
      let post := t.ringPost w.core.die c ([w.region.number.val, 1 + 3 * 3, 0] ++
        (List.range 4).map fun n => (x.g.rdS (sa.val + n)).val)
      (x.releaseWaits = true → Holds s w g (.evpost sa)) ∧
      (x.releaseWaits = false → x.s0.ringTurn c x.r = false ∨ post = none →
        exec (.evpost sa) s = .next ((x.s0.ringPlace c x.r).updGroup x.r fun h =>
          { h with run := { h.run with held := some (.evpost sa) } })) ∧
      (x.releaseWaits = false → x.s0.ringTurn c x.r = true → ∀ u, post = some u →
        Leaves s w g (.evpost sa) fun x => (x.next u).ringLeave c x.r)) ∧
    (∀ a, Issues s w g (.rwalk a) →
      let x := s.issueOf w g (.rwalk a)
      let va := (x.g.rdS a.sa.val).val
      let check := x.s0.resolveVirt w.who .read 3 va
      (∀ n, check = .error n → Traps s w g (.rwalk a) { cause := n }) ∧
      (∀ t ps, check = .ok (t, ps) → x.releaseWaits = true → Holds s w g (.rwalk a)) ∧
      ∀ t ps u v, check = .ok (t, ps) → x.releaseWaits = false → ((released x t).releaseAt w .pkg).makeReady w.core.die c va = (u, v) →
        Leaves s w g (.rwalk a) fun x => x.setS (x.next u) a.sd.val v) ∧
    ∀ a, Issues s w g (.rstat a) →
      let x := s.issueOf w g (.rstat a)
      let va := (x.g.rdS a.sa.val).val
      let check := x.s0.resolveVirt w.who .read 3 va
      (∀ n, check = .error n → Traps s w g (.rstat a) { cause := n }) ∧
      ∀ t ps, check = .ok (t, ps) → Leaves s w g (.rstat a) fun x =>
        x.setS (x.next t) a.sd.val (t.nodeItem w.core.die c va a.item.val)

/-! ## Traps, frames and pre-emption (16_traps_and_preemption.md) -/

/-- R351 to R354: trap entry of a group that is not in handler state, in a region with a handler, whose frame can be written. The
group's long floats complete; its words in flight that write registers are captured, in order behind the head of the queue, with what
they hold, and are pending no more; an atomic is captured only once it is performed (the model's choice, log 52). Every live lane is ready at the handler's entry with its temporaries 0 and its other registers as they were; the group waits
for a new run in handler state, with no call record, its wait slots as they were; the lanes that had exited stay. A trap in
handler state, or in a region whose handler entry is 0, ends every thread of the workgroup. -/
def Obligations.TrapsEnterTheHandler : Prop :=
  (∀ (s u : State) (r : GroupRef) (w : Workgroup) (g : Group) (t : TrapReq),
    s.wgOf r.wg = some w → s.groupOf r = some g → g.handler = none → w.region.handler.val ≠ 0 →
    let captured (p : Pending) : Bool := match p.instr with
      | some (.ld _) | some (.ldStrong _) | some (.ldu _) | some (.mrd _) | some (.mstat _) => true
      | some (.atomr _) | some (.cas _) => p.performed
      | _ => false
    let entry (p : Pending) : ReEntry :=
      { pc := p.pc, word := p.word, payload := p.payload, cause := 0, detail := 0, slot := p.counted, perf := p.performed
        set := p.set, issued := true, past := true, lanes := p.lanes, rec_ := [], copy := none }
    let landed := (g.pend.filter Pending.isFloat).foldl (fun s p => s.completePend r p)
      (s.progEvent (coreIdx w.core) 9 (some w.region.ctx.num))
    ∀ g' : Group, landed.groupOf r = some g' →
    let es := t.head.toList ++ (g'.pend.filter captured).map entry ++ t.behind
    (landed.withdraw r ((g'.pend.filter captured).map (·.id))).writeFrames w g' es t.cause t.detail t.count = .ok u →
    let v := s.trapEnter r t
    let entered (l : Lane) : Lane := if l.st = .exited ∨ l.st = .bornExited then l else
      { l with st := .ready, pc := w.region.handler, h := [] }
    v.groupOf r = some
      { g' with
        pend := g'.pend.filter fun p => !captured p
        lanes := g'.lanes.map entered, calls := [], phase := .boundary, run := .none, mask := [], resuming := none
        handler := some { cause := t.cause, busyOn := t.busyOn, sets := es.map (·.set), issued := es.map (·.issued)
                          past := es.map (·.past), copies := es.map (·.copy), calls := g'.calls
                          active := t.active, boundary := t.boundary } } ∧
    v.scr = s.scr ∧ v.chip = s.chip) ∧
  ∀ (s : State) (r : GroupRef) (w : Workgroup) (g : Group) (t : TrapReq),
    s.wgOf r.wg = some w → s.groupOf r = some g → (g.handler.isSome = true ∨ w.region.handler.val = 0) →
    ∀ h ∈ (s.trapEnter r t).groups, h.wg = w.id → h.live = [] ∧ h.handler = none

/-- R354, R355, Tables 2 and 3: the 300 header words of a frame and the 193 words of an entry, item by item. -/
def Obligations.FrameLayout : Prop :=
  (∀ (g : Group) (b n cause count : Nat) (detail : Int),
    let ws := headerWords g b n cause detail count
    ws.length = 300 ∧ ws.getD 0 0 = n ∧ ws.getD 1 0 = cause + 19683 * detail ∧ ws.getD 2 0 = count ∧
    ∀ j : Nat, j < 27 →
      let l := g.lane (b + j)
      ws.getD (3 + j) 0 = l.pc.val ∧
      ws.getD (30 + j) 0 = l.skip + (if l.st = .exited ∨ l.st = .bornExited then 19683 else if l.st = .held then 3 * 19683
        else if l.st = .parked then -(3 * 19683) else 0) ∧
      ∀ n : Nat, n < 9 → ws.getD (57 + 27 * n + j) 0 = (l.rdH n).val) ∧
  ∀ (e : ReEntry) (b : Nat),
    let ws := entryWords e b
    ws.length = 193 ∧ ws.getD 0 0 = e.pc.val ∧ ws.getD 1 0 = e.word.val ∧ ws.getD 2 0 = e.payload ∧
    ws.getD 3 0 = e.cause + 19683 * e.detail + 3 ^ 18 * (if e.slot then 1 else 0) + 3 ^ 19 * (if e.perf then 1 else 0) ∧
    (∀ j : Nat, j < 27 → ∀ p, e.lanes.find? (fun l => l.lane == b + j) = some p →
      ws.getD (4 + j) 0 = p.cause ∧ ws.getD (31 + j) 0 = p.addr ∧
      ws.getD (58 + j) 0 = (if e.perf then p.r0 else p.d0).val ∧ ws.getD (85 + j) 0 = (if e.perf then p.r1 else p.d1).val ∧
      ws.getD (112 + j) 0 = (if e.perf then p.r2 else p.d2).val ∧
      ws.getD (139 + j) 0 = p.pred.trit 0 + 19683 * p.pred.trit 1 + 19683 * 19683 * p.pred.trit 2) ∧
    ∀ j : Nat, j < 27 → ws.getD (166 + j) 0 = (e.rec_.getD j (Word.ofInt 0)).val

/-- R374, R375: TRAP takes a trap of cause 22 with its code, behind its own word and with no word in its queue; while a word that
the entry would capture is in flight it stalls (the model's choice, log 53). RESUME restores the group from its frame and
empties the frame's queue. -/
def Obligations.TrapAndResume : Prop :=
  ∀ (s : State) (w : Workgroup) (g : Group),
    (∀ code, Issues s w g (.trap code) →
      ((s.issueOf w g (.trap code)).g.pend.any Pending.isBound = true → Stalls s (.trap code)) ∧
      ((s.issueOf w g (.trap code)).g.pend.any Pending.isBound = false → Leaves s w g (.trap code) fun x =>
        x.s.trapEnter g.ref
          { cause := 22, detail := code.val, head := none, behind := [], boundary := false, pc := x.pc, active := x.active
            count := ((x.s.groupOf g.ref).map fun h => h.run.count).getD 0 })) ∧
    (Issues s w g .resume →
      let x := s.issueOf w g .resume
      ∀ h b t, x.g.handler = some h → x.s.resumed w x.g h = .ok b →
        (x.s.updGroup g.ref fun _ => b).putItem w x.g 0 0 = .ok t → Leaves s w g .resume fun _ => t)

/-- R376 to R378: RQRD gives each active lane the value of an item of an entry, RQWR writes one, RQDROP removes an entry,
releases its count, skips the work that a record of it parks, and moves the others up; an entry or an item that is not there traps with cause 1, detail 3, and a frame whose number of entries cannot be read is a
fatal error of the die (R447). DFPOP gives
lane j word j of the oldest record that no live group awaits, and removes it under `retry` and `skip`. -/
def Obligations.ReplayQueueWords : Prop :=
  ∀ (s : State) (w : Workgroup) (g : Group),
    let depth (x : Issue) : Int := match x.s.frameItem w x.g 0 with
      | .ok n => n
      | .error _ => 0
    let bad : Fail := { cause := 1, detail := 3 }
    let counted (x : Issue) : Prop := ∃ n, x.s.frameItem w x.g 0 = .ok n
    let fatal (i : Instr) : Prop := ¬counted (s.issueOf w g i) → Leaves s w g i fun x => x.s.dieFatal w.core.die
    let place (e n : Int) (item : Nat) : Option (Nat × Bool) :=
      if e = -1 then some (if item < 3 then item else 3 + 27 * (item - 3), decide (3 ≤ item))
      else if 0 ≤ e ∧ e < n ∧ item ≤ 10 then
        some (300 + 193 * e.toNat + if item < 4 then item else 4 + 27 * (item - 4), decide (4 ≤ item))
      else none
    let writable (e : Int) (item : Nat) : Bool := if e = -1 then item = 2 ∨ item = 3 ∨ (5 ≤ item ∧ item ≤ 13)
      else item = 2 ∨ (4 ≤ item ∧ item ≤ 9)
    (∀ a, Issues s w g (.rqrd a) →
      let x := s.issueOf w g (.rqrd a)
      let at_ := place (x.g.rdS a.sa.val).val (depth x) a.item.val
      ((x.g.rdS a.sa.val).val < 0 ∨ 10 < a.item.val ∨ counted x → at_ = none → Traps s w g (.rqrd a) bad) ∧
      (0 ≤ (x.g.rdS a.sa.val).val → a.item.val ≤ 10 → fatal (.rqrd a)) ∧
      (∀ off v, at_ = some (off, false) → x.s.frameItem w x.g off = .ok v → Leaves s w g (.rqrd a) fun x =>
        x.s.updGroup x.r fun h => h.updLanes x.active fun i l =>
          l.wr a.d (Word.ofInt ((List.replicate x.g.lanes.length v).getD i 0))) ∧
      ∀ off vs, at_ = some (off, true) → x.s.frameLanes w x.g off = .ok vs → Leaves s w g (.rqrd a) fun x =>
        x.s.updGroup x.r fun h => h.updLanes x.active fun i l => l.wr a.d (Word.ofInt (vs.getD i 0))) ∧
    (∀ a, Issues s w g (.rqwr a) →
      let x := s.issueOf w g (.rqwr a)
      let e := (x.g.rdS a.sa.val).val
      let low := (x.reg a.d (x.active.headD 0)).val
      let at_ := place e (depth x) a.item.val
      let refused := writable e a.item.val = false ∨ (e = -1 ∧ a.item.val = 2 ∧ (low < 0 ∨ low > 27))
      let set := if e = -1 then x.active else x.active.filter
        ((x.g.handler.map fun h => h.sets.getD e.toNat []).getD []).contains
      (e < 0 ∨ 10 < a.item.val ∨ counted x → at_ = none ∨ refused → Traps s w g (.rqwr a) bad) ∧
      (0 ≤ e → a.item.val ≤ 10 → fatal (.rqwr a)) ∧
      (∀ off t, ¬refused → at_ = some (off, false) → x.s.putItem w x.g off low = .ok t → Leaves s w g (.rqwr a) fun _ => t) ∧
      ∀ off t, ¬refused → at_ = some (off, true) →
        foldE (fun (u : State) i => u.putLane w x.g off i (x.reg a.d i).val) x.s set = .ok t →
        Leaves s w g (.rqwr a) fun _ => t) ∧
    (∀ sa, Issues s w g (.rqdrop sa) →
      let x := s.issueOf w g (.rqdrop sa)
      let e := (x.g.rdS sa.val).val
      (e < 0 ∨ counted x → e < 0 ∨ e ≥ depth x → Traps s w g (.rqdrop sa) bad) ∧ (0 ≤ e → fatal (.rqdrop sa)) ∧
      ∀ k y t, 0 ≤ e → e < depth x → x.g.handler = some k → x.s.entryAt w x.g e.toNat k = .ok y →
        let slot := match decodeWord y.word.val with
          | .ok i => i.slotOf
          | .error _ => none
        let dropped := x.s.updGroup g.ref fun h =>
          let h := match y.slot, slot with
            | true, some n => h.wrW n (h.rdW n - 1)
            | _, _ => h
          { h with handler := h.handler.map fun k =>
              { k with sets := dropAt k.sets e.toNat, issued := dropAt k.issued e.toNat, past := dropAt k.past e.toNat
                       copies := dropAt k.copies e.toNat } }
        (if y.rec_ = [] then dropped else dropped.unpark y.copy false).moveUp w x.g e.toNat (depth x).toNat = .ok t → Leaves s w g (.rqdrop sa) fun _ => t) ∧
    ∀ d,
      let pops (i : Instr) (remove retry : Bool) : Prop := Issues s w g i →
        let x := s.issueOf w g i
        let recs := ((x.s.dfqOf w.region).map (·.recs)).getD []
        let give (x : Issue) (ws : List Int) : State := x.s.updGroup x.r fun h =>
          h.updLanes x.active fun i l => l.wr d (Word.ofInt (ws.getD i 0))
        (recs.find? (fun r => !x.s.awaited r) = none → Leaves s w g i fun x => give x []) ∧
        ∀ r, recs.find? (fun r => !x.s.awaited r) = some r → Leaves s w g i fun x =>
          if remove then ((give x r.words).updDfq w.region fun q =>
            { q with recs := match indexOf? (fun y => y == r) q.recs with
                | some n => dropAt q.recs n
                | none => q.recs }).unpark r.copy retry
          else give x r.words
      pops (.dfpopRead d) false false ∧ pops (.dfpopRetry d) true true ∧ pops (.dfpopSkip d) true false

/-- R361, R379 to R382: HALT waits off its slot until its timeout, none for 0. PREEMPT marks a region and counts its resident
workgroups, or gives −1 for a malformed block. CTXSV begins the forced save of the resident workgroup of an image, and
CTXLD the restore of a suspended one whose image has its header. DIVSET gives the state of a diversion entry with its held arrivals, or releases it. -/
def Obligations.PreemptionWords : Prop :=
  ∀ (s : State) (w : Workgroup) (g : Group),
    let index (v : Int) : Option (Nat × Nat) :=
      if 0 ≤ fld v 0 8 ∧ fld v 0 8 ≤ 242 ∧ 0 ≤ fld v 9 17 ∧ fld v 9 17 ≤ 242 ∧ fld v 18 26 = 0 then
        some ((fld v 0 8).toNat, w.core.die * 243 + (fld v 9 17).toNat)
      else none
    let bad : Fail := { cause := 1, detail := 3 }
    (∀ n, Issues s w g (.halt n) → Leaves s w g (.halt n) fun x => x.s0.updGroup x.r fun h => { h with
      phase := .waiting { instr := .halt n, pc := x.pc, payload := x.pay, addr := 0, token := 0, last := Word.ofInt 0, fault := none
                          deadline := if x.imm n = 0 then none
                                      else some (x.s0.cycles (coreClu w.core) + (x.imm n).toNat) } }) ∧
    (∀ a, Issues s w g (.preempt a) →
      let x := s.issueOf w g (.preempt a)
      let va := (x.g.rdS a.sa.val).val
      (∀ c, x.s0.resolveVirt w.who .read 3 va = .error c → Traps s w g (.preempt a) { cause := c }) ∧
      ∀ t ps, x.s0.resolveVirt w.who .read 3 va = .ok (t, ps) →
        (t.readRegion w.core.die w.region.ctx va = .error 0 → Leaves s w g (.preempt a) fun x =>
          x.setS (x.next t) a.sd.val (-1)) ∧
        ∀ u b, t.readRegion w.core.die w.region.ctx va = .ok (u, b) → Leaves s w g (.preempt a) fun x =>
          let m := x.next u
          let under (v : Workgroup) : Bool := v.region.ctx.num == w.region.ctx.num && v.region.ancestors.contains va
          let mine := m.wgs.filter fun v => v.st != .suspended && under v
          let t := if m.marks.any fun k => k.block == va && k.ctx.num == w.region.ctx.num then m
            else { m with marks := m.marks ++ [⟨m.nextId, va, w.region.ctx, mine.map (·.id), 0⟩], nextId := m.nextId + 1 }
          x.setS t a.sd.val ((mine.filter fun v => v.st == .resident).length : Nat)) ∧
    (∀ a, Issues s w g (.ctxsv a) →
      let x := s.issueOf w g (.ctxsv a)
      match x.s.wgs.find? fun v => v.region.ctx.num == w.region.ctx.num && v.image == (x.g.rdS a.sa.val).val with
      | none => Leaves s w g (.ctxsv a) fun x => x.setS x.s a.sd.val (-1)
      | some v => Leaves s w g (.ctxsv a) fun x =>
          if v.st ≠ .resident then x.setS x.s a.sd.val (-1)
          else if v.save ≠ .none then x.setS x.s a.sd.val 0
          else x.setS (x.s.updWg v.id fun v => { v with
            preq := true, preqAt := x.s.cycles (coreClu v.core), save := .stopping, ctxsv := true, forced := true }) a.sd.val 1) ∧
    (∀ a, Issues s w g (.ctxld a) →
      let x := s.issueOf w g (.ctxld a)
      let va := (x.g.rdS a.sa.val).val
      let refuses : Prop := Leaves s w g (.ctxld a) fun x => x.setS x.s a.sd.val (-1)
      let sound (v : Workgroup) (vs : List Int) : Prop :=
        ∀ i, i < 27 → i ≠ 8 → vs.getD i 0 = (v.header 2 (v.entry.getD 0) 0).getD i 0
      match x.s.structRead (structWho w.core.die w.region.ctx) va 27 with
      | .error _ => refuses
      | .ok (t, vs) =>
        match t.imaged w.region.ctx.num va with
        | none => refuses
        | some v =>
          (v.st ≠ .suspended ∨ ¬sound v vs → refuses) ∧
          (v.st = .suspended → sound v vs → Leaves s w g (.ctxld a) fun x =>
            if t.canRestore v && !t.marked v.region then x.setS (t.beginRestore v) a.sd.val 1
            else x.setS (t.updWg v.id fun v => { v with save := .restoring }) a.sd.val 0)) ∧
    (∀ a, Issues s w g (.divsetQuery a) →
      let x := s.issueOf w g (.divsetQuery a)
      let at_ := index (x.g.rdS a.sa.val).val
      (at_ = none → Traps s w g (.divsetQuery a) bad) ∧
      ∀ e c, at_ = some (e, c) → Leaves s w g (.divsetQuery a) fun x =>
        x.setS x.s a.sd.val (match SMap.find? (x.s.coreAt c).divs e with
          | none => 1
          | some d => d.st.val + 3 * (((x.s.coreAt c).hold.filter fun h => h.wg == d.wg).length : Nat))) ∧
    ∀ a, Issues s w g (.divsetRelease a) →
      let x := s.issueOf w g (.divsetRelease a)
      let at_ := index (x.g.rdS a.sa.val).val
      (at_ = none → Traps s w g (.divsetRelease a) bad) ∧
      ∀ e c, at_ = some (e, c) → Leaves s w g (.divsetRelease a) fun x =>
        match SMap.find? (x.s.coreAt c).divs e with
        | some d => if d.st = .neg then x.setS (x.s.abandon c e d) a.sd.val 1 else x.setS x.s a.sd.val (-1)
        | none => x.setS x.s a.sd.val (-1)

/-! ## Tables and counters (17, 18, 19) -/

/-- R390 to R393, R407, R418, R419: FMTSET writes a format entry 9..26 with a valid word or 0, SHPSET a shape entry 0..80 with a valid entry or
zeros, XPSET a pattern entry 0..80 whose sources lie in −1..80: the group holds while the write is under way, and where it is
made every active lane gets +; every active lane gets − where the index or the value is refused, the region has no table block,
or the write fails. RATSET writes entry 0..26 of an attribute table in the supervisor half, with
0 or a usable value, and every core drops its copy; WINSET writes the descriptor of a window 0..26 after the accesses under
the old one are performed and its byte lines are written back and dropped; s(d) is + where the word
took effect and − where not; both hold their group while an access that has passed its checks is still to be performed and may not be
yet (`unsettled`). -/
def Obligations.TableWords : Prop :=
  ∀ (s : State) (w : Workgroup) (g : Group),
    let status (x : Issue) (t : State) (kd : Fin 9) (v : Int) : State :=
      t.updGroup x.r fun h => h.updLanes x.active fun _ l => l.wrK kd.val (Trits.ofInt 3 (13 * v))
    let writes (i : Instr) (kd : Fin 9) (ok : Prop) (off : Nat) (vs : List Int) : Prop :=
      let x := s.issueOf w g i
      let mine (t : TabWrite) : Bool := t.wg == g.wg && t.hw == g.hw
      let cleared (x : Issue) : State := { x.s with tabWrites := x.s.tabWrites.filter fun t => !mine t }
      (x.s0.tabWrites.find? mine = none →
        (¬ok ∨ x.s0.putEntry w off vs = none → Leaves s w g i fun x => status x x.s kd (-1)) ∧
        (ok → x.s0.putEntry w off vs ≠ none → exec i s = .next
          (State.updGroup { x.s0 with tabWrites := x.s0.tabWrites ++
              [⟨g.wg, g.hw, w.region.comptab, w.region.ctx.num, off, vs.map Word.ofInt⟩] } g.ref fun h =>
            { h with run := { h.run with held := some i } }))) ∧
      ∀ tw, x.s0.tabWrites.find? mine = some tw →
        ((cleared x).putEntry w tw.offset (tw.words.map (·.val)) = none →
          Leaves s w g i fun x => status x (cleared x) kd (-1)) ∧
        ∀ t, (cleared x).putEntry w tw.offset (tw.words.map (·.val)) = some t → Leaves s w g i fun x => status x t kd 1
    (∀ a, Issues s w g (.fmtset a) →
      let x := s.issueOf w g (.fmtset a)
      let n := x.src a.b (x.active.headD 0)
      let v := (x.reg a.a (x.active.headD 0)).val
      writes (.fmtset a) a.kd (9 ≤ n ∧ n ≤ 26 ∧ (v = 0 ∨ (fmtOfWord v).isSome = true)) (3 * (n.toNat - 9)) [v]) ∧
    (∀ a, Issues s w g (.shpset a) →
      let x := s.issueOf w g (.shpset a)
      let n := x.src a.b (x.active.headD 0)
      let vs := (List.range 6).map fun i => ((x.g.lane (x.active.headD 0)).rdG (a.a.val + i)).val
      writes (.shpset a) a.kd (0 ≤ n ∧ n ≤ 80 ∧ ((∀ v ∈ vs, v = 0) ∨ (shapeOfWords vs).extents ≠ []))
        (81 + 18 * n.toNat) vs) ∧
    (∀ a, Issues s w g (.xpset a) →
      let x := s.issueOf w g (.xpset a)
      let n := x.src a.b (x.active.headD 0)
      let given : List (Nat × Int) := if w.kernel.width = 81 then x.active.map fun l => (l, fld (x.reg a.a l).val 0 8)
        else x.active.flatMap fun l => [0, 1, 2].map fun t => (27 * t + l, fld (x.reg a.a l).val (9 * t) (9 * t + 8))
      let pos (p : Nat) : Int := ((given.find? fun e => e.1 == p).map (·.2)).getD (-1)
      writes (.xpset a) a.kd (0 ≤ n ∧ n ≤ 80 ∧ ∀ e ∈ given, -1 ≤ e.2 ∧ e.2 ≤ 80) (2187 + 81 * n.toNat)
        ((List.range 27).map fun i => pos (3 * i) + 19683 * pos (3 * i + 1) + 19683 * 19683 * pos (3 * i + 2))) ∧
    (∀ a, Issues s w g (.ratset a) →
      let x := s.issueOf w g (.ratset a)
      let tab := (x.g.rdS a.sa.val).val
      let v := (x.g.rdS (a.sa.val + 1)).val
      let n := x.simm a.b
      let ok := tab < 0 ∧ tab % 81 = 0 ∧ 0 ≤ n ∧ n ≤ 26 ∧ (v = 0 ∨ (attrOf v).isSome = true)
      let write := x.s.structWrite (structWho w.core.die w.region.ctx) (tab + 3 * n) [v]
      (ok → x.s0.unsettled = true → Holds s w g (.ratset a)) ∧
      (¬ok ∨ (x.s0.unsettled = false ∧ ∃ c, write = .error c) → Leaves s w g (.ratset a) fun x => x.setS x.s a.sd.val (-1)) ∧
      ∀ t, ok → x.s0.unsettled = false → write = .ok t → Leaves s w g (.ratset a) fun x =>
        let t := t.drainUpdates
        let dropped : State := { t with cores := t.cores.map fun e => (e.1, { e.2 with attrs := e.2.attrs.filter fun c =>
          !(c.tab == tab && (c.index : Int) == n) }) }
        x.setS dropped.settleAll a.sd.val 1) ∧
    ∀ a, Issues s w g (.winset a) →
      let x := s.issueOf w g (.winset a)
      let v (i : Nat) : Word := x.g.rdS (a.sa.val + i)
      let n := x.simm a.b
      let ok := 0 ≤ n ∧ n ≤ 26 ∧ (windowOf (v 0).val (v 1).val (v 2).val).isSome = true
      (¬ok → Leaves s w g (.winset a) fun x => x.setS x.s a.sd.val (-1)) ∧
      (ok → x.s0.unsettled = true → Holds s w g (.winset a)) ∧
      (ok → x.s0.unsettled = false → Leaves s w g (.winset a) fun x =>
        let t := x.s.settleAll.dropWindow n.toNat
        let zero : Word := Word.ofInt 0
        let at_ := 3 * n.toNat
        x.setS { t with windows := ((t.windows.set zero at_ (v 0)).set zero (at_ + 1) (v 1)).set zero (at_ + 2) (v 2) } a.sd.val 1)

/-- R420 to R422: dropping the leaves of a context leaves none of it in any TLB and no line of it in any L1. After the stores of the group are performed and released, TLBINV drops the leaves of a page or of a context
from every TLB and the lines of their pages from every L1, and does nothing for a number that is no context; TLBFL drops
everything, and the copies of attribute entries; the three hold their group while an access that has passed its checks is still to be
performed and may not be yet; ICINV writes its lines back and drops them from the instruction caches of
the presented device. -/
def Obligations.TranslationCacheWords : Prop :=
  (∀ (s : State) (ctx : Nat),
    let t := s.dropLeaves (fun e => e.ctx == ctx) fun _ l => l.ctx == ctx
    (∀ core e, e ∈ (t.coreAt core).tlb → e.ctx ≠ ctx) ∧ (∀ clu e, e ∈ t.ctlbs.get [] clu → e.ctx ≠ ctx) ∧
    ∀ core l, l ∈ (t.coreAt core).l1 → l.ctx ≠ ctx) ∧
  ∀ (s : State) (w : Workgroup) (g : Group),
    let core := coreIdx w.core
    let c := w.region.ctx
    let settled (x : Issue) : State := x.s.settleStores x.r fun _ => true
    let released (x : Issue) : State := ((settled x).releaseAt w .pkg).drainUpdates
    let drop (p : Int → Bool) (e : Nat × CoreState) : Nat × CoreState := if c.dies.contains (coreDie e.1) then
      (e.1, { e.2 with icache := e.2.icache.filter fun l => !(l.ctx == c.num && p l.line) }) else e
    let fetched (t : State) (p : Int → Bool) : State := { t with cores := t.cores.map (drop p) }
    (∀ sa sb, Issues s w g (.tlbinv sa sb) →
      let x := s.issueOf w g (.tlbinv sa sb)
      let n := (x.g.rdS sb.val).val
      let pn := (x.g.rdS sa.val).val / 19683
      (x.s0.unsettled = true → Holds s w g (.tlbinv sa sb)) ∧
      (x.s0.unsettled = false → n < 0 ∨ n > 728 → Leaves s w g (.tlbinv sa sb) fun x => x.s) ∧
      (x.s0.unsettled = false → 0 ≤ n → n ≤ 728 → Leaves s w g (.tlbinv sa sb) fun x => (released x).dropLeaves (tlbMatch n.toNat pn) fun gone l =>
        l.ctx == n.toNat && (l.line * 81 / 19683 == pn || gone.any fun e => tlbMatch n.toNat (l.line * 81 / 19683) e))) ∧
    (∀ sb, Issues s w g (.tlbinvCtx sb) →
      let x := s.issueOf w g (.tlbinvCtx sb)
      let n := (x.g.rdS sb.val).val
      (x.s0.unsettled = true → Holds s w g (.tlbinvCtx sb)) ∧
      (x.s0.unsettled = false → n < 0 ∨ n > 728 → Leaves s w g (.tlbinvCtx sb) fun x => x.s) ∧
      (x.s0.unsettled = false → 0 ≤ n → n ≤ 728 → Leaves s w g (.tlbinvCtx sb) fun x =>
        (released x).dropLeaves (fun e => e.ctx == n.toNat) fun _ l => l.ctx == n.toNat)) ∧
    (Issues s w g .tlbfl →
      ((s.issueOf w g .tlbfl).s0.unsettled = true → Holds s w g .tlbfl) ∧
      ((s.issueOf w g .tlbfl).s0.unsettled = false → Leaves s w g .tlbfl fun x =>
        let t := (released x).dropLeaves (fun _ => true) fun _ _ => true
        { t with cores := t.cores.map fun e => (e.1, { e.2 with attrs := [] }) })) ∧
    (∀ a, Issues s w g (.icinv a) → Leaves s w g (.icinv a) fun x =>
      let lines := (x.active.filter fun l => (x.pred l).trit 0 == 1).map fun l => wrapInt 27 ((x.reg a.a l).val + x.src a.b l) / 81
      fetched (lines.foldl (fun t l => t.cleanLine core c.num l) (settled x)).drainUpdates lines.contains) ∧
    (Issues s w g .icinvAll → Leaves s w g .icinvAll fun x =>
      fetched ((settled x).cleanL1 core).drainUpdates fun _ => true)

/-- R423, R424, R426 to R434: a counter rises by the number of its events and stays at its largest value, and no other counter
moves. CNTRD gives every active lane the value of the counter that s(a) names, or −3812798742493 where the address is
invalid; CNTCLR clears it, and traps with cause 5 for a counter that supervisor code alone clears; CNTSEL points a
programmable counter of the core at an event and clears it, and traps with cause 5 for an unfiltered selector of user code. -/
def Obligations.CounterWords : Prop :=
  (∀ (s : State) (kind die inst n kind' die' inst' : Nat), die < 4 → inst < 512 → die' < 4 → inst' < 512 →
    let t := s.bump kind die inst n
    t.counter kind die inst = min 3812798742493 (s.counter kind die inst + n) ∧
    ((kind', die', inst') ≠ (kind, die, inst) → t.counter kind' die' inst' = s.counter kind' die' inst')) ∧
  ∀ (s : State) (w : Workgroup) (g : Group),
    let c := w.region.ctx
    let core := coreIdx w.core
    let supervisor := w.region.supervisor
    (∀ a, Issues s w g (.cntrd a) →
      let x := s.issueOf w g (.cntrd a)
      let give (x : Issue) (t : State) (v : Int) : State := t.updGroup x.r fun h => h.updLanes x.active fun _ l => l.wr a.d (Word.ofInt v)
      (counterOf c (x.g.rdS a.sa.val).val = none → Leaves s w g (.cntrd a) fun x => give x x.s (-3812798742493)) ∧
      ∀ k t v, counterOf c (x.g.rdS a.sa.val).val = some k → x.s.counterValue w k = .ok (t, v) →
        Leaves s w g (.cntrd a) fun x => give x t v) ∧
    (∀ a, Issues s w g (.cntclr a) →
      let x := s.issueOf w g (.cntclr a)
      (counterOf c (x.g.rdS a.sa.val).val = none → Leaves s w g (.cntclr a) fun x => x.setS x.s a.sd.val (-1)) ∧
      ∀ k, counterOf c (x.g.rdS a.sa.val).val = some k →
        let guarded := k.kind ≤ 26 ∨ k.kind = 28 ∨ k.kind = 39
        (guarded → supervisor = false → Traps s w g (.cntclr a) { cause := 5 }) ∧
        (¬guarded ∨ supervisor = true → Leaves s w g (.cntclr a) fun x =>
          x.setS (x.s.clearCounter w k).1 a.sd.val (x.s.clearCounter w k).2)) ∧
    ∀ a, Issues s w g (.cntsel a) →
      let x := s.issueOf w g (.cntsel a)
      let sel := x.g.rdS a.sa.val
      let n := x.simm a.b
      let ok := 0 ≤ n ∧ n ≤ 8 ∧ fld sel.val 8 26 = 0 ∧ tritAt sel.val 7 ≠ -1 ∧ tritAt sel.val 6 ≠ -1 ∧ 0 ≤ fld sel.val 0 5 ∧
        fld sel.val 0 5 ≤ 12 ∧ (supervisor = true ∨ ((x.s.coreAt core).prog n.toNat).owner = some c.num ∨
          ((x.s.coreAt core).prog n.toNat).sel.trit 7 = 0)
      (tritAt sel.val 6 = 0 → supervisor = false → Traps s w g (.cntsel a) { cause := 5 }) ∧
      (tritAt sel.val 6 ≠ 0 ∨ supervisor = true →
        (¬ok → Leaves s w g (.cntsel a) fun x => x.setS x.s a.sd.val (-1)) ∧
        (ok → Leaves s w g (.cntsel a) fun x =>
          x.setS (x.s.updCore core fun k => k.setProg n.toNat ⟨sel, some c.num, 0⟩) a.sd.val 1))

/-! ## Turns of the scheduler (03, 08, 12, 14, 16) -/

/-- R60 to R64, R68, R175, R176, R317, R321, R375: a free slot picks a group. A group at a run boundary, without a record due, starts a
run: its call records that are due release their subsets of least target, those that have nothing left close, its temporaries are 0,
its active lanes are the ready lanes of the issue PC, the least of the ready lanes or, where lanes have been passed over 27 times, of
those passed over most, and the skip counts follow; with no lane ready it stays at its boundary. A subset whose target fails traps,
as an entry of its CALLI. A group that RESUME or a restore takes up goes on with the count of its run. A woken group goes on, and
a record that is due is delivered first. A word that stalled, or that holds its group, is tried again. -/
def Obligations.RunsStartAndWordsRetry : Prop :=
  (∀ (g : Group) (n : Nat) (c : CallRec), g.calls[n]? = some c →
    let due := c.held ≠ [] ∧ ∀ i ∈ c.out, i ∈ c.parked ∨ (g.lane i).live = false
    let t := leastInt (c.held.map fun e => e.2.val)
    let go := c.held.filter fun e => e.2.val == t
    let live := (go.filter fun e => (g.lane e.1).live)
    let freed (pc : Lane → Word) : Group :=
      ({ (g.updLanes (live.map (·.1)) fun _ l => { l with st := .ready, pc := pc l }) with
          calls := updAt g.calls n fun c =>
            { c with held := c.held.filter (fun e => e.2.val != t), out := c.out ++ go.map (·.1) } } : Group).parkMoved (live.map (·.1))
    (¬due → g.releaseAt n = (g, none)) ∧
    (due → t % 3 = 0 → g.releaseAt n = (freed fun _ => Word.ofInt t, none)) ∧
    (due → t % 3 ≠ 0 → g.releaseAt n =
      (freed (·.pc), if live = [] then none else some (if t % 3 = 1 then 12 else 23, c, live)))) ∧
  (∀ g : Group, g.releaseDue = (List.range g.calls.length).foldl (fun (acc : Group × Option (Nat × CallRec × List (Nat × Word))) n =>
    if acc.2 = none then acc.1.releaseAt n else acc) (g, none)) ∧
  ∀ (s : State) (sl : SlotRef) (w : Workgroup) (g : Group), s.wgOf g.wg = some w →
    (s.pickGroup sl = some g → s.groupOf g.ref = some g → s.dieDown w.core.die = false →
      (∀ n ∈ g.slots, s.running ⟨sl.core, n⟩ = none) →
      (∀ m, g.phase = .woken m → Happens s (.runStart sl) (s.regain w g m)) ∧
      (∀ r, g.phase = .boundary → s.recordFor w g = some r → Happens s (.runStart sl) (s.deliver w g r)) ∧
      (∀ k, g.phase = .boundary → s.recordFor w g = none → g.resuming = some k →
        ∃ t h, exec (.runStart sl) s = .next t ∧ t.groupOf g.ref = some h ∧ SameMemory s t ∧ h.phase = .running ∧
          h.run = { Run.none with count := g.run.count } ∧ h.mask = [] ∧ h.lastStart = s.stamp ∧ h.resuming = g.resuming ∧
          h.lanes = g.lanes ∧ h.pend = g.pend ∧ h.s = g.s ∧ h.w = g.w ∧ h.calls = g.calls) ∧
      (∀ g' cause c ls, g.phase = .boundary → s.recordFor w g = none → g.resuming = none → g.releaseDue = (g', some (cause, c, ls)) →
        Happens s (.runStart sl) (((s.updGroup g.ref fun _ => g').updGroup g.ref Group.clearH).trapEnter g.ref
          { cause := cause, detail := 0, behind := [], count := 0, active := [], boundary := true
            head := some (calliEntry g' cause c ls), pc := (calliEntry g' cause c ls).pc })) ∧
      (∀ g', g.phase = .boundary → s.recordFor w g = none → g.resuming = none → g.releaseDue = (g', none) →
        let k := ({ g' with run := .none } : Group).closeCalls
        let ready := (List.range k.lanes.length).filter fun i => (k.lane i).st == .ready
        let pcs (ls : List Nat) : List Int := ls.map fun i => (k.lane i).pc.val
        let late := ready.filter fun i => 27 ≤ (k.lane i).skip
        (ready = [] → ∃ t h, exec (.runStart sl) s = .next t ∧ t.groupOf g.ref = some h ∧ SameMemory s t ∧ h.phase = .boundary ∧
          h.run = .none ∧ h.mask = [] ∧ h.calls = k.calls ∧ h.pend = g.pend ∧ h.s = g.s ∧ h.w = g.w) ∧
        (ready ≠ [] → ∃ t h pc, exec (.runStart sl) s = .next t ∧ t.groupOf g.ref = some h ∧ SameMemory s t ∧
          (late = [] → pc ∈ pcs ready ∧ ∀ p ∈ pcs ready, pc ≤ p) ∧
          (late ≠ [] → ∃ top, (∀ i ∈ late, (g.lane i).skip ≤ top) ∧
            pc ∈ pcs (late.filter fun i => (g.lane i).skip == top) ∧
            ∀ p ∈ pcs (late.filter fun i => (g.lane i).skip == top), pc ≤ p) ∧
          let active := ready.filter fun i => (g.lane i).pc.val == pc
          h.phase = .running ∧ h.run = { Run.none with active := active } ∧ h.mask = [] ∧ h.lastStart = s.stamp ∧
            h.calls = k.calls ∧ h.pend = g.pend ∧ h.s = g.s ∧ h.w = g.w ∧ t.stamp = s.stamp + 1 ∧ h.lanes.length = k.lanes.length ∧
            ∀ i, i < k.lanes.length → h.lane i = { k.lane i with
              h := [], skip := if i ∈ active then 0 else if i ∈ ready then (k.lane i).skip + 1 else (k.lane i).skip }))) ∧
    (s.running sl = some (w, g) →
      (g.run.held = none → Happens s (.stalledWordIssue sl) { s with agenda := .word sl :: s.agenda }) ∧
      (g.run.held ≠ none → Happens s (.heldWordCompletion sl) { s with agenda := .word sl :: s.agenda }))

/-- R70 to R74, R127, R180: REFORM_FILING, of a group that issued REFORM and whose wait slots read 0, takes its active lanes out of
it, removes a group that is left without threads, and files the threads with their temporaries 0; it happens wherever the bins
in use and the threads are at most 81 together. A thread joins the bin of its workgroup and PC that has room, and a bin that
reaches 27 threads is drawn, once it may be; else it opens a bin. A bin that reaches its age, of a workgroup that may draw (R56,
R72, R180), is drawn as a fresh group. That the threads are filed in ascending order of their lanes is the model's choice (log 55). -/
def Obligations.ThreadsAreFiledAndDrawn : Prop :=
  (∀ (s : State) (r : GroupRef) (w : Workgroup) (g : Group), s.wgOf r.wg = some w → s.groupOf r = some g →
    g.phase = .reforming → w.st = .resident → w.save ≠ .restoring → w.save ≠ .entered → w.entry = none → (∀ e ∈ g.w, e.2 = 0) →
    let left : Group := { (g.updLanes g.run.active fun _ _ => Lane.absent).clearH with
      phase := .boundary, run := .none, mask := [], noRecord := g.noRecord && g.handler.isSome }
    let taken : State := if left.live = [] then { s with groups := s.groups.filter fun h => h.ref != r }
      else s.updGroup r fun _ => left
    let filed : Option State := (g.run.active.map g.lane).foldlM (fun (t : State) l =>
      t.fileThread (coreIdx w.core) w.id { l with h := [] }) taken
    (∀ t, filed = some t → Happens s (.reformFiling r) t) ∧
    ((s.coreAt (coreIdx w.core)).bins.length + g.run.active.length ≤ 81 →
      ∃ t, filed = some t ∧ exec (.reformFiling r) s = .next t ∧ SameMemory s t)) ∧
  (∀ (s : State) (core wg : Nat) (l : Lane) (n : Nat) (b : Bin),
    let bins := (s.coreAt core).bins
    (∀ j, j < n → ∀ c, bins[j]? = some c → c.wg ≠ wg ∨ c.pc ≠ l.pc ∨ 27 ≤ c.threads.length) → bins[n]? = some b → b.wg = wg →
      b.pc = l.pc →
      (b.threads.length < 26 → ∃ t, s.fileThread core wg l = some t ∧
        (t.coreAt core).bins = bins.set n { b with threads := b.threads ++ [l] } ∧ t.groups = s.groups) ∧
      (∀ w, b.threads.length = 26 → s.wgOf wg = some w → s.drawable w = true → ∃ t h, s.fileThread core wg l = some t ∧
        t.groups = s.groups ++ [h] ∧ (t.coreAt core).bins = bins.eraseIdx n ∧ h.wg = w.id ∧ h.phase = .boundary ∧ h.pend = [] ∧
        h.lanes = (b.threads ++ [l]).map fun x => { x with st := .ready, skip := 0, h := [] }) ∧
      (∀ w, b.threads.length = 26 → s.wgOf wg = some w → s.drawable w = false → ∃ t, s.fileThread core wg l = some t ∧
        (t.coreAt core).bins = bins.set n { b with threads := b.threads ++ [l] } ∧ t.groups = s.groups)) ∧
  (∀ (s : State) (core wg : Nat) (l : Lane),
    let bins := (s.coreAt core).bins
    (∀ b ∈ bins, b.wg ≠ wg ∨ b.pc ≠ l.pc ∨ 27 ≤ b.threads.length) → bins.length < 81 → ∃ t, s.fileThread core wg l = some t ∧
      (t.coreAt core).bins = bins ++ [⟨wg, l.pc, [l], s.cycles (core / 9)⟩] ∧ t.groups = s.groups) ∧
  ∀ (s : State) (core : CoreRef) (n : Nat) (b : Bin) (w : Workgroup), (s.coreAt (coreIdx core)).bins[n]? = some b →
    s.wgOf b.wg = some w → w.st = .resident → w.save ≠ .restoring → w.save ≠ .entered → w.preq = false →
    (s.groupsOf w.id).length < w.kernel.groups →
    (b.since + w.kernel.binAge ≤ s.cycles (coreClu w.core) ∨ 27 ≤ b.threads.length) → ∃ t h, exec (.binAgeLimit core n) s = .next t ∧ t.groups = s.groups ++ [h] ∧ h.wg = w.id ∧ h.phase = .boundary ∧
      (t.coreAt (coreIdx core)).bins = (s.coreAt (coreIdx core)).bins.eraseIdx n ∧ SameMemory s t ∧
      h.lanes = (b.threads.map fun x => { x with st := .ready, skip := 0, h := [] }) ++
        List.replicate (27 - b.threads.length) Lane.absent

/-- R282, R342, R382: a waiting group reads its word again: WAITM is woken with a value that differs from the one it awaits, a
barrier wait by a phase that differs from its token, or with cause 20 by a broken object, and either with the cause of a
read that fails; else it waits on. A WAITM or a HALT whose time, in cycles of its island, has passed is woken. -/
def Obligations.MonitorWaitsEnd : Prop :=
  ∀ (s : State) (r : GroupRef) (w : Workgroup) (g : Group) (m : Monitor), s.wgOf r.wg = some w → s.groupOf r = some g →
    g.phase = .waiting m →
    let thread := (g.lane (g.run.active.headD 0)).thread
    let wakes (t : State) (m : Monitor) : State := t.updGroup r fun h => { h with phase := .woken m }
    let barrier (a : Space) : Prop :=
      (∀ c, s.monitorRead w r a thread (m.addr + 6) = .error c → Happens s (.monitorRecheck r) (wakes s { m with fault := some c })) ∧
      ∀ t v, s.monitorRead w r a thread (m.addr + 6) = .ok (t, some v) →
        (tritAt v 26 = -1 → Happens s (.monitorRecheck r) (wakes t { m with fault := some 20 })) ∧
        (tritAt v 26 ≠ -1 → fld v 0 25 ≠ m.token → Happens s (.monitorRecheck r) (wakes t m)) ∧
        (tritAt v 26 ≠ -1 → fld v 0 25 = m.token → Happens s (.monitorRecheck r) t)
    (∀ a, m.instr = .waitm a →
      (∀ c, s.monitorRead w r a.space thread m.addr = .error c →
        Happens s (.monitorRecheck r) (wakes s { m with fault := some c })) ∧
      (∀ t v, s.monitorRead w r a.space thread m.addr = .ok (t, some v) →
        (v ≠ m.token → Happens s (.monitorRecheck r) (wakes t { m with last := Word.ofInt v })) ∧
        (v = m.token → Happens s (.monitorRecheck r)
          (t.updGroup r fun h => { h with phase := .waiting { m with last := Word.ofInt v } }))) ∧
      ∀ d, m.deadline = some d → d ≤ s.cycles (coreClu w.core) → Happens s (.waitmTimeout r) (wakes s m)) ∧
    (∀ a, m.instr = .bar a → barrier a.space) ∧ (∀ a, m.instr = .barw a → barrier a.space) ∧
    ∀ n d, m.instr = .halt n → m.deadline = some d → d ≤ s.cycles (coreClu w.core) → Happens s (.haltWake r) (wakes s m)

/-- R63, R115, R117, R123, R214, R216, R252, R275, R279, R326, R336, R337: the completion of a long-latency word of a resident
workgroup. Its results, as captured or computed, land in its lanes under their trits, its flags are raised, its count is
released and it is pending no more; no memory changes but by a store; a group of a reforming kernel that has no live lane and
nothing else pending ceases (R70). A load or atomic completes once performed, with its acquire, and an atomic or a load of which elements
are left performs the next (R274), or sends it to its diversion unit; MSTAT completes with its item as it stands, and a spawn with its
count or the number of its refusal, each after a turn in which the result is known but not written, where a free value says so (R65,
log 54); a store completes once the diversion units have taken what is theirs (R271), a copy of one
group once it has started. -/
def Obligations.LongWordsComplete : Prop :=
  (∀ (s : State) (r : GroupRef) (g : Group) (p : Pending), s.groupOf r = some g →
    let t := s.completePend r p
    let ends : Prop := g.live = [] ∧ (∀ q ∈ g.pend, q.id = p.id) ∧ ∃ w, s.wgOf r.wg = some w ∧ w.kernel.reforming = true
    (ends → SameMemory s t ∧ SameOtherGroups s t r ∧ t.groupOf r = none) ∧
    (¬ends → ∃ h, t.groupOf r = some h ∧ SameMemory s t ∧ SameOtherGroups s t r ∧
      h.pend = (g.pend.filter fun q => q.id != p.id) ∧ h.run = g.run ∧ h.phase = g.phase ∧ h.calls = g.calls ∧
      (∀ n, h.rdW n = if p.counted ∧ n = p.slot then g.rdW n - 1 else g.rdW n) ∧
      (∀ i, (∀ q ∈ p.lanes, q.lane ≠ i) → h.lane i = g.lane i) ∧
      (∀ d, p.dest = some d → d.toS = false → (p.lanes.map (·.lane)).Nodup → (∀ n, h.rdS n = g.rdS n) ∧
        ∀ q ∈ p.lanes, q.lane < g.lanes.length → (h.lane q.lane).fs = (g.lane q.lane).fs.or q.flags ∧
          SameRegisters (g.lane q.lane) (h.lane q.lane) d.regs [] [] ∧
          (d.words = 1 → d.byWord = true → d.num ≠ 0 → q.landed = [] → (h.lane q.lane).rdG d.num =
            if q.pred.trit 0 = 1 then q.r0 else if q.pred.trit 0 = 0 then (g.lane q.lane).rdG d.num else Word.ofInt 0)) ∧
      (p.dest = none → (∀ n, h.rdS n = g.rdS n) ∧ ∀ i, SameRegisters (g.lane i) (h.lane i) [] [] []))) ∧
  ∀ (s : State) (r : GroupRef) (n : Nat) (w : Workgroup) (g : Group) (p : Pending), s.wgOf r.wg = some w →
    s.groupOf r = some g → g.pend[n]? = some p → s.dieDown w.core.die = false → w.entry = none →
    let acquired (order : Bool) (sc : Scope) : State := if order then s.acquireAt w sc else s
    let loads (f : AccForm) : Prop := match f with
      | .weak _ => Happens s (.memoryReadComplete r n) (s.completePend r p)
      | .strong q => Happens s (.memoryReadComplete r n) ((acquired (q.order = .pos) q.scope).completePend r p)
    let atomic (a : AtomArgs) : Prop := Happens s (.memoryReadComplete r n)
      ((acquired (a.order = .acq ∨ a.order = .acqrel) a.scope).completePend r p)
    let gets (i : Instr) (t : State) (ls : List PendLane) : Prop :=
      let q : Pending := { p with lanes := ls, performed := true }
      (∀ u, t.flip = (false, u) → Happens s i (u.completePend r q)) ∧
      ∀ u, t.flip = (true, u) → Happens s i
        (u.updGroup r fun h => { h with pend := h.pend.map fun x => if x.id = p.id then q else x })
    (p.performed = true →
      (∀ a, p.instr = some (.ld a) → Happens s (.memoryReadComplete r n) (s.completePend r p)) ∧
      (∀ a, p.instr = some (.ldStrong a) → loads a.form) ∧ (∀ a, p.instr = some (.ldu a) → loads a.form) ∧
      (∀ a, p.instr = some (.atomr a) → atomic a) ∧ (∀ a, p.instr = some (.cas a) → atomic a) ∧
      ∀ a, p.instr = some (.atom a) → Happens s (.memoryWriteComplete r n) (s.completePend r p)) ∧
    (∀ i m more, p.instr = some i → p.performed = false → p.todo = m :: more → (∀ e ∈ s.tabWrites, (e.wg, e.hw) ≠ (r.wg, r.hw)) →
        let put (t : State) (lanes : List PendLane) : State := t.updGroup r fun h => { h with pend := h.pend.map fun x =>
          if x.id = p.id then { x with lanes := lanes, todo := more, performed := more.isEmpty && !t.awaiting r p.id } else x }
        let goes (e : Instr) (wd : Width) (met : Except Nat (State × Option (List Tryte))) : Prop :=
          (∀ t ts, met = .ok (t, some ts) → Happens s e (put t (setPart p.lanes m.lane fun y => y.setElem wd m.elem ts))) ∧
          ∀ t, met = .ok (t, none) → Happens s e (put t p.lanes)
        (∀ a cas, atomicOf i = some (a, cas) →
          let wd : Width := if a.tryte then .t else .w
          goes (if i = .atom a then .memoryWriteComplete r n else .memoryReadComplete r n) wd
            (s.atomOne w r p.id a.op cas wd ((lanePart p.lanes m.lane).getD (PendLane.new m.lane (Trits.ofInt 3 0))) m)) ∧
        ((∃ a, i = .ld a ∨ i = .ldStrong a) ∨ (∃ a, i = .ldu a) →
          goes (.memoryReadComplete r n) (loadWidth i) (s.readOne w r p.id m))) ∧
    ((∃ a, p.instr = some (.st a) ∨ p.instr = some (.stStrong a)) ∨ (∃ a, p.instr = some (.stu a)) →
      (p.isRelease = true → s.releaseWaits r p.id = false) →
      let t := s.settleStores r fun q => q.id == p.id
      Happens s (.memoryWriteComplete r n) (if t.sending r p.id = true then t else t.completePend r p)) ∧
    (p.isFloat = true → Happens s (.longFloatComplete r n) (s.completePend r p)) ∧
    (∀ a, p.instr = some (.mrd a) → Happens s (.matrixReadComplete r n) (s.completePend r p)) ∧
    (∀ a, p.instr = some (.mstat a) →
      (s.unitAt (coreClu w.core)).statDue g p.id a.when_ = true → ∀ t v, s.matItem (coreClu w.core) g a.item.val = (t, v) →
        let q : Pending := { p with lanes := p.lanes.map (fun l => { l with r0 := Word.ofInt v }), performed := true }
        let done (t : State) : State := (if a.item.val = 0 then t.updGroup r fun h => { h with stale := 0 } else t).completePend r q
        (p.performed = true → Happens s (.mstatComplete r n) (done t)) ∧
        (p.performed = false → (∀ u, t.flip = (false, u) → Happens s (.mstatComplete r n) (done u)) ∧
          ∀ u, t.flip = (true, u) → Happens s (.mstatComplete r n)
            (u.updGroup r fun h => { h with pend := h.pend.map fun x => if x.id = p.id then q else x }))) ∧
    (∀ a, p.instr = some (.cpy a) → Happens s (.engineIssueComplete r n) (s.completePend r p)) ∧
    (∀ q more, (∃ a, p.instr = some (.cpys a) ∨ p.instr = some (.cpyf a)) ∨
        (∃ a, p.instr = some (.cpyl a) ∨ p.instr = some (.cpylFlush a)) →
      p.lanes = q :: more → (∀ c, s.copyOf q.addr.toNat = some c → c.started = true) →
      Happens s (.engineIssueComplete r n) (s.completePend r p)) ∧
    ∀ q more, p.lanes = q :: more →
      let spawns (co : Bool) : Prop := (p.performed = true → Happens s (.engineIssueComplete r n) (s.completePend r p)) ∧
        (p.performed = false →
        let done (t : State) (v : Int) : Prop := gets (.engineIssueComplete r n) t [{ q with r0 := Word.ofInt v }]
        let key := spawnKey w.core.die w.core.cluster w.region.cls
        let fits := co = true → s.fitsEmpty w.core.die w.core.cluster w.region w.kernel q.addr.toNat = true
        (q.addr < 0 ∨ q.addr > 531441 → done s (-3)) ∧
        (0 ≤ q.addr → q.addr ≤ 531441 →
          (w.kernel.imageSize > w.region.stride → done s (-4)) ∧
          (w.kernel.imageSize ≤ w.region.stride →
            (¬fits → done s (-1)) ∧
            (fits → s.counted w.region + q.addr.toNat > w.region.budget → done s (-2)) ∧
            (fits → s.counted w.region + q.addr.toNat ≤ w.region.budget →
              (q.addr = 0 → done s 0) ∧
              (q.addr ≠ 0 → (s.spawnQ key).length < 243 →
                done (s.setSpawnQ key (s.spawnQ key ++ [{ region := w.region, kernel := w.kernel, first := 0
                                                          count := q.addr.toNat, launch := more.map (·.d0)
                                                          coresident := co, node := w.node, time := s.time }])) q.addr)))))
      (∀ a, p.instr = some (.spawn a) → spawns false) ∧ ∀ a, p.instr = some (.spawnCoresident a) → spawns true

/-! ## Turns of the memories, the copies and the matrix unit (02, 09, 10, 13, 15) -/

/-- R48, R51, R225, R230, R237 to R241, R257, R299, R301, R359: a page that misses is walked; a line or block enters the last-level
cache with its fill; an L1 line leaves with its write-back; a last-level line leaves, a line of its home die with its copies, a dirty one written
to its slot, and a dirty block encoded; a write under way reaches the copy of another die in the order sent; a refused window
store becomes a late record, which is charged to its kernel node (R309), and a late record enters its queue; a soft error is counted,
drops its TLB entry, or marks its word. -/
def Obligations.MemoryTurns : Prop :=
  (∀ (s : State) (wg : Nat) (addr : Int) (w : Workgroup), s.wgOf wg = some w → s.dieDown w.core.die = false →
    s.tlbFind (coreIdx w.core) w.region.ctx.num (addr / 19683) = none →
    (∀ t e, s.leafOf w.who (addr / 19683) = .ok (t, e) → Happens s (.pageWalk wg addr) t) ∧
    ∀ c, s.leafOf w.who (addr / 19683) = .error c → Happens s (.pageWalk wg addr) (s.refusedAccess w.who 1 addr)) ∧
  (∀ (s t u : State) (wg : Nat) (addr : Int) (w : Workgroup) (p : LinePlace) (more : List Place), s.wgOf wg = some w →
    s.resolveVirt w.who .read 1 addr = .ok (t, .line p :: more) → t.llcEnsure w.core.die p = .ok u →
    (p.key.coded = false → Happens s (.lineFill wg addr) u) ∧ (p.key.coded = true → Happens s (.codedBlockFill wg addr) u) ∧
      (u.llcFind (lineDie p.key w.core.die) p.key).isSome = true) ∧
  (∀ (s t u : State) (wg : Nat) (addr : Int) (w : Workgroup) (p : LinePlace) (view : View) (k : Nat) (more : List Place),
    s.wgOf wg = some w → s.resolveVirt w.who .read 1 addr = .ok (t, .window p view k :: more) →
    t.llcEnsure w.core.die p = .ok u → Happens s (.lineFill wg addr) u) ∧
  (∀ (s : State) (core : CoreRef) (ctx : Nat) (line : Int) (i : Nat) (l : L1Line), s.l1Index (coreIdx core) ctx line = some i →
    (s.coreAt (coreIdx core)).l1[i]? = some l →
    ∃ t, exec (.l1Eviction core ctx line) s = .next t ∧ t = s.evictL1 (coreIdx core) i ∧ l.ctx = ctx ∧ l.line = line ∧
      ∃ vs, (t.coreAt (coreIdx core)).victims = vs ++ [(ctx, line)]) ∧
  (∀ (s : State) (die : Nat) (k : LineKey) (l : LLine), s.llcFind die k = some l → l.key = k → l.bad = [] →
    (∀ u ∈ s.copyUpdates, u.place.key ≠ k) →
    (k.coded = true → l.dirty = true → Happens s (.llcEviction die k) (s.encodeOut l)) ∧
    (k.coded = false → k.bytes = true → die = k.die → l.dirty = true → Happens s (.llcEviction die k)
      (((s.writeDram die k.lpddr (160 * k.slot) l.bytes).burst die l.chan true).llcDropAll k)) ∧
    (k.coded = false → k.bytes = false → die = k.die → l.dirty = true → Happens s (.llcEviction die k)
      (((s.writeSlot k.die k.lpddr k.slot 0 (l.trytes.map (·.val))).burst die l.chan true).llcDropAll k)) ∧
    ((k.coded = true ∧ l.dirty = false) ∨ (k.coded = false ∧ die ≠ k.die) → Happens s (.llcEviction die k) (s.llcDrop die k) ∧
      (s.llcDrop die k).llcFind die k = none) ∧
    (k.coded = false → die = k.die → l.dirty = false → Happens s (.llcEviction die k) (s.llcDropAll k)) ∧
    (die = k.die → ∀ d, (∀ j, s.llcFind d k = some j → j.bad = []) → (s.llcDropAll k).llcFind d k = none)) ∧
  (∀ (s : State) (n : Nat) (u : CopyUpdate), s.copyUpdates[n]? = some u →
    (∀ j v, j < n → s.copyUpdates[j]? = some v → v.src ≠ u.src ∨ v.dst ≠ u.dst) →
    Happens s (.lastLevelCopyUpdate n) (s.applyUpdate n)) ∧
  (∀ (s : State) (n : Nat) (r : ShellRefusal), s.refusals[n]? = some r → Happens s (.windowStoreRefusal n)
    ({ s with refusals := s.refusals.eraseIdx n, late := s.late ++ [({ r.record with time := s.time }, r.region)] }.charge
      r.record.node r.record.cause)) ∧
  (∀ (s : State) (n : Nat) (r : FaultRec) (reg : Region), s.late[n]? = some (r, reg) →
    (∀ q, s.dfqOf reg = some q → q.recs.length < 243) →
    (r.wg = none → Happens s (.impreciseFaultRecord n)
      ({ s with late := s.late.eraseIdx n }.enterRecord (reg.ctx.dies.headD 0) reg { r with deferred := false })) ∧
    ∀ id w, r.wg = some id → s.wgOf id = some w → Happens s (.impreciseFaultRecord n)
      ({ s with late := s.late.eraseIdx n }.enterRecord w.core.die reg { r with
        retired := r.retired || ((s.groupAt id r.hw).map fun (h : Group) => h.live.isEmpty).getD true
        deferred := w.st == WgSt.suspended })) ∧
  ∀ (s : State) (die storage word : Nat),
    (die < 4 → storage < 5 → Happens s (.softError (.corrected die storage)) (s.bump 9 die storage 1)) ∧
    Happens s (.softError (.scratchpad word)) { s with bad := { s.bad with scr := word :: s.bad.scr } } ∧
    Happens s (.softError (.chip word)) { s with bad := { s.bad with chip := word :: s.bad.chip } } ∧
    (die < 4 → Happens s (.softError (.walkerState die)) (s.dieFatal die)) ∧
    (∀ (core : CoreRef) (n : Nat), coreIdx core < 972 →
      (n < (s.coreAt (coreIdx core)).tlb.length → Happens s (.softError (.tlb core false n))
        ((s.bump 9 core.die 4 1).updCore (coreIdx core) fun c => { c with tlb := c.tlb.eraseIdx n })) ∧
      (n < (s.ctlbs.get [] (coreIdx core / 9)).length → ∃ t, exec (.softError (.tlb core true n)) s = .next t ∧
        t.ctlbs.get [] (coreIdx core / 9) = (s.ctlbs.get [] (coreIdx core / 9)).eraseIdx n ∧ t.cores = s.cores)) ∧
    ∀ (r : GroupRef) (g : Group) (lane : Nat) (reg : RegName), s.groupOf r = some g → lane < g.lanes.length →
      (match reg with
        | .g n => 1 ≤ n ∧ n ≤ 80
        | .h n => n ≤ 8
        | .k n => 1 ≤ n ∧ n ≤ 8
        | .s n => 1 ≤ n ∧ n ≤ 26) →
      Happens s (.softError (.register r lane reg))
        { s with bad := { s.bad with regs := (r.wg, r.hw, lane, reg) :: s.bad.regs } }

/-- R323, R326, R329, R330, R333 to R335, R360, R395 to R397: a copy that is the first of its engine with all its slices starts: slices
that name different requests drop it with a fault each, a request or record that fails parks every slice, and else it takes its
records and its box, once its trigger is met; so it does wherever the request and its two records stand in the scratchpad and are
well formed. A slice whose next elements fail, alone and with those of the other slices that share their lines, parks, and a fault is
recorded. A slice that has not started is taken by an engine of its cluster
that has none, but for CPYL. A copy whose slices are done takes the steps of R330 in order and ends. -/
def Obligations.CopyTurns : Prop :=
  ∀ (s : State) (id : Nat) (c : Copy), s.copyOf id = some c → c.id = id →
    let buffered : Bool := match c.form with
      | .cpyl .. => true
      | _ => false
    (∀ more sl sls, (s.copies.filter fun d => d.engine == c.engine && !d.started && decide (d.need ≤ d.slices.length)) = c :: more →
      c.slices = sl :: sls →
      ((∃ x ∈ sls, x.req ≠ sl.req) → Happens s (.copyStart id)
        (c.slices.foldl (fun t x => t.copyFault c c.slices.length x.hw 1 x.req [] false)
          { s with copies := s.copies.filter fun d => d.id != id })) ∧
      ((∀ x ∈ sls, x.req = sl.req) →
        (∀ t v e, s.readView c sl.req = (t, some (v, some e)) → Happens s (.copyStart id)
          (let c' : Copy := { c with started := true, view := some v, box := v.dstLay.map fun l => l.box.map Int.toNat }
           if t.triggered c v = true then
             (List.range c.slices.length).foldl (fun t n => t.parkSlice c' n e []) ((t.updCopy id fun _ => c').takeSet c')
           else s)) ∧
        (∀ t v, s.readView c sl.req = (t, some (v, none)) → t.triggered c v = true → Happens s (.copyStart id)
          ((t.updCopy id fun c =>
            { c with started := true, view := some v
                     box := some ((v.dstLay.map fun l => l.box.map Int.toNat).getD []) }).takeSet c)) ∧
        ∀ w fa fb, s.wgOf c.wg = some w → s.bad.scr = [] → (∀ o, s.divAt (coreIdx w.core) o = none) →
          let tryte (o : Int) : Int := (s.scrGet (coreIdx w.core) (w.gran * 2187 + o.toNat)).val
          let words (o : Int) (n : Nat) : List Int := (List.range n).map fun (i : Nat) =>
            tryte (o + 3 * (i : Int)) + 19683 * tryte (o + 3 * (i : Int) + 1) + 19683 * 19683 * tryte (o + 3 * (i : Int) + 2)
          let within (o : Int) (len : Nat) : Prop := o % 27 = 0 ∧ 0 ≤ o ∧ o + len ≤ (w.runLen : Int)
          let r := words sl.req 9
          let src := words (r.getD 2 0) 27
          let dst := words (r.getD 3 0) 27
          within sl.req 27 → within (r.getD 2 0) 81 → within (r.getD 3 0) 81 → requestOk r (c.form == .cpyf) = true →
          ∀ la lb, layoutOf src false buffered = some la → layoutOf dst true false = some lb →
            fixedFmt la.fmt = some fa → fixedFmt lb.fmt = some fb →
            recordCause c.form r la lb (some fa) (some fb) = none → tritAt (r.getD 8 0) 11 ≠ 1 →
            ∃ t c', exec (.copyStart id) s = .next t ∧ t.copyOf id = some c' ∧ c'.started = true ∧ c'.slices = c.slices ∧
              c'.box = some (lb.box.map Int.toNat) ∧
              c'.view = some ⟨r.map Word.ofInt, src.map Word.ofInt, dst.map Word.ofInt, some fa, some fb⟩ ∧ SameMemory s t)) ∧
    (∀ n x, c.slices[n]? = some x → c.started = true → s.dieDown (coreDie x.engine) = false → s.engineWaits c = false →
      (∀ y cause j, x.st = .running → c.sliceCtx n = some y →
        let lo := (c.range y.box n).1
        let i := lo + x.moved
        let stops (is : List Nat) (e : Option (Nat × Nat)) : Prop := y.readOlds s is x.olds = .error e ∨
          (y.readOlds s is x.olds = .ok none ∧ y.writeBatch s is x.olds = .error e)
        i < (c.range y.box n).2 → (∀ e ∈ c.wrote, e.idx ≠ i) → y.writes i = true →
          (x.view ≠ none ∨ ∃ e, stops (y.batch (y.open_ n) i) e) →
          stops (y.batch (y.left lo (c.range y.box n).2) i) (some (cause, j)) →
          let t := ((y.refused s j).updSlice id n fun y => { y with olds := [] }).parkSlice c n cause (boxCoord y.box j)
          ((t.copyOf id).bind fun d => d.slices[n]?).isSome = true → Happens s (.copySliceFault id n) t) ∧
      (∀ t v cause, x.st = .retry → s.readView c x.req = (t, some (v, some cause)) →
        let c' : Copy := { c with slices := updAt c.slices n fun x => { x with view := some v } }
        let u := (t.updCopy id fun _ => c').parkSlice c' n cause []
        ((u.copyOf id).bind fun d => d.slices[n]?).isSome = true → Happens s (.copySliceFault id n) u) ∧
      ∀ t, exec (.copySliceFault id n) s = .next t → t ≠ s →
        ∃ c' y, t.copyOf id = some c' ∧ c'.slices[n]? = some y ∧ y.st = .parked) ∧
    (∀ n x thief, c.slices[n]? = some x → c.started = true → x.st = .waiting → buffered = false → thief < 9 →
      let engine := x.engine / 9 * 9 + thief
      engine ≠ x.engine → s.dieDown (coreDie engine) = false →
      (∀ d ∈ s.copies, ∀ y ∈ d.slices, y.engine = engine → y.st ≠ .waiting ∧ y.st ≠ .running) →
      Happens s (.copySliceSteal id n thief) (s.updSlice id n fun y => { y with engine := engine })) ∧
    (c.started = true → c.parked = false → s.engineWaits c = false → s.engineSends c = false → (∀ x ∈ c.slices, x.st = .done ∨ x.st = .skipped) →
      let req := (c.slices.head?.map Slice.req).getD 0
      (c.reread = true →
        (∀ t v cause, s.readView c req = (t, some (v, some cause)) → Happens s (.copyComplete id) (t.parkStep c cause req)) ∧
        ∀ t v, s.readView c req = (t, some (v, none)) →
          Happens s (.copyComplete id) (t.updCopy id fun c => { c with view := some v, reread := false })) ∧
      (c.reread = false →
        (c.view = none ∨ (∃ v, c.view = some v ∧ (v.request = [] ∨ requestOk (v.request.map (·.val)) (c.form == .cpyf) = false)) →
          Happens s (.copyComplete id) (s.endCopy c)) ∧
        ∀ v, c.view = some v → v.request ≠ [] → requestOk (v.request.map (·.val)) (c.form == .cpyf) = true →
          let has (n : Nat) : Prop := tritAt v.ctl n = 1
          (c.stage = 0 → has 8 → Happens s (.copyComplete id) (s.syncStore c v (v.word 4) (v.word 5) 1)) ∧
          (∀ t n, s.checkValue c = some (t, n) → c.stage ≤ 1 → ¬(c.stage = 0 ∧ has 8) → has 9 →
            Happens s (.copyComplete id) (t.syncStore c v (v.word 6) n 2)) ∧
          (c.stage ≤ 2 → ¬(c.stage = 0 ∧ has 8) → ¬(c.stage ≤ 1 ∧ has 9) → has 10 →
            Happens s (.copyComplete id) (s.syncArrive c v)) ∧
          (¬(c.stage = 0 ∧ has 8) → ¬(c.stage ≤ 1 ∧ has 9) → ¬(c.stage ≤ 2 ∧ has 10) →
            Happens s (.copyComplete id) (s.endCopy c))))

/-- R198, R199, R201 to R203, R205, R210 to R215: the turn of a queue by its head operation, where no queue with a ready head comes
before it in the round (whose order of queues, and that a row behind a MACT that is to swap next waits for the swap, but for one of a
workgroup that a save drains, are the model's choice, log 54). A load is granted while pl1 is empty and
no other runs; MACT of the shadow tag swaps the planes once the passes before it are gone and none runs, that of the stationary tag is
done, and that of a retired one is stale; MZERO, MWR and rows that are only zeroed act on their tile, and a store is
granted, once no earlier entry names it; a row of the stationary tag is granted, with the rows that join it, while no pass
runs. Granted loads, passes and stores read their operands and complete. -/
def Obligations.MatrixTurns : Prop :=
  ∀ (s : State) (clu : Nat) (q : GroupRef),
    let u := s.unitAt clu
    let zero : Word := Word.ofInt 0
    let upd (f : MatUnit → MatUnit) : State := s.updUnit clu f
    let took (t : State) : State := t.updUnit clu fun u => { u with last := (q.wg, q.hw) }
    (∀ e w, u.queue.find? (fun e => e.wg == q.wg && e.hw == q.hw) = some e → s.wgOf e.wg = some w → e.granted = false →
      s.dieDown (clu / 27) = false → s.nextInTurn clu q = true →
      let without := u.queue.filter fun x => x != e
      let granted : State := upd fun u => { u with queue := u.queue.map fun x => if x = e then { x with granted := true } else x }
      let drop : State := upd fun u => { u with queue := without }
      let stale : State := drop.countStale clu e.wg e.hw 1
      let earlier := u.queue.takeWhile fun x => x != e
      let free (tile : Nat) : Prop := ∀ x ∈ earlier, x.op.tile ≠ some tile
      (∀ tag off d p, e.op = .load tag off d p → u.pl1.tag = zero → (∀ x ∈ u.queue, x.isLoad = true → x.granted = false) →
        Happens s (.matrixTurnGrant clu q) (took granted)) ∧
      (∀ tag, e.op = .act tag →
        (u.tagState tag = .stationary → Happens s (.matrixTurnGrant clu q) (took drop)) ∧
        (u.tagState tag = .retired → Happens s (.matrixTurnGrant clu q) (took stale)) ∧
        (u.tagState tag = .shadow → (∀ x ∈ u.queue, x.isPass = true → x.granted = false) → (∀ x ∈ earlier, x.isPass = true → ∀ tile third rows zs n, x.op ≠ .row u.pl0.tag tile third rows zs n) →
          ∃ t, exec (.matrixTurnGrant clu q) s = .next t ∧ (t.unitAt clu).pl0 = u.pl1 ∧ (t.unitAt clu).pl1.tag = zero ∧
            (t.unitAt clu).queue = without ∧ (t.unitAt clu).tiles = u.tiles ∧ SameMemory s t)) ∧
      (∀ tile, e.op = .zero tile → free tile → ∃ t, exec (.matrixTurnGrant clu q) s = .next t ∧
        (t.unitAt clu).queue = without ∧ ∀ k, (t.unitAt clu).tiles.get zero k =
          if tile * 19683 ≤ k ∧ k < (tile + 1) * 19683 then zero else u.tiles.get zero k) ∧
      (∀ tile row cells, e.op = .write tile row cells → free tile → Happens s (.matrixTurnGrant clu q)
        (took (upd fun u => { u with
          queue := without, tiles := cells.foldl (fun m c => SMap.set zero m (tile * 19683 + row * 729 + c.1) c.2) u.tiles }))) ∧
      (∀ tile off f z, e.op = .store tile off f z → free tile → Happens s (.matrixTurnGrant clu q) (took granted)) ∧
      ∀ tag tile third rows zeroed depth, e.op = .row tag tile third rows zeroed depth →
        (rows = [] → free tile → Happens s (.matrixTurnGrant clu q)
          (took (upd fun u => { u with queue := without }.zeroRows tile zeroed))) ∧
        (rows ≠ [] → u.tagState tag = .retired → Happens s (.matrixTurnGrant clu q) (took stale)) ∧
        (rows ≠ [] → u.tagState tag = .stationary → free tile → (∀ x ∈ u.queue, x.isPass = true → x.granted = false) →
          (s.draining e.wg = true ∨
            ∀ x ∈ earlier, ∀ t, x.op = .act t → u.tagState t ≠ .shadow ∧ (u.tagState t = .pending → u.pl1.tag ≠ zero)) →
          let js := u.fused e tag tile third (s.draining e.wg)
          e ∈ js ∧ Happens s (.matrixTurnGrant clu q)
            (took ((upd fun u => { u with
              queue := u.queue.map fun x => if js.contains x then { x with granted := true } else x }).bump 20
                (clu / 27) (clu % 27) js.length)))) ∧
    (∀ e, u.queue.find? (fun x => x.inQueue q && x.granted && !x.consumed && (x.isLoad || x.isPass)) = some e →
      Happens s (.consumedEvent clu q) (s.consume clu e)) ∧
    (∀ e tag off d p, u.queue.find? (fun x => x.isLoad && x.granted) = some e → e.op = .load tag off d p → e.consumed = true →
      let without := u.queue.filter fun x => x != e
      ((∃ o, (tag, o) ∈ u.pending) → s.draining e.wg = false → ∃ t, exec (.matrixLoadComplete clu) s = .next t ∧
        (t.unitAt clu).pl1 = { u.pl1 with tag := tag } ∧ (t.unitAt clu).pl0 = u.pl0 ∧ (t.unitAt clu).queue = without ∧
        (t.unitAt clu).shadowWg = some e.wg ∧ (t.unitAt clu).pending = u.pending.filter fun x => x.1 != tag) ∧
      ((∀ o, (tag, o) ∉ u.pending) ∨ s.draining e.wg = true → ∃ t, exec (.matrixLoadComplete clu) s = .next t ∧ (t.unitAt clu).pl1.tag = zero ∧
        (t.unitAt clu).queue = without ∧ (t.unitAt clu).pending = u.pending.filter fun x => x.1 != tag)) ∧
    ((∃ x ∈ u.queue, x.isPass = true ∧ x.granted = true) →
      let done := (u.queue.filter fun x => x.isPass && x.granted).foldl (fun t e => t.consume clu e) s
      Happens s (.matrixPassComplete clu)
        (done.updUnit clu fun u => { u with queue := u.queue.filter fun x => !(x.isPass && x.granted) })) ∧
    ∀ e w tile off f z, u.queue.find? (fun e => e.wg == q.wg && e.hw == q.hw) = some e → s.wgOf e.wg = some w →
      e.op = .store tile off f z → e.granted = true →
      let core := coreIdx w.core
      let base := w.gran * 2187 + off.toNat
      let row (r c : Nat) : Word := u.tiles.get zero (tile * 19683 + r * 729 + c)
      let image := (List.range 27).flatMap fun r => rowImage f (row r)
      ∃ t, exec (.mstoreComplete clu q) s = .next t ∧ (t.unitAt clu).queue = (u.queue.filter fun x => x != e) ∧
        (∀ n v, image[n]? = some v → t.scrGet core (base + n) = v) ∧
        (∀ n, n < base ∨ base + image.length ≤ n → t.scrGet core n = s.scrGet core n) ∧
        (∀ k, (t.unitAt clu).tiles.get zero k =
          if z = true ∧ tile * 19683 ≤ k ∧ k < (tile + 1) * 19683 then zero else u.tiles.get zero k) ∧
        (∀ die o, t.chipGet die o = s.chipGet die o) ∧ ∀ die lp b, t.dramByte die lp b = s.dramByte die lp b

/-! ## Turns of the queues (14_queues.md, 03_execution.md) -/

/-- R81, R112, R124, R312, R316, R82: a distributor whose higher classes are empty places the first workgroup of the head batch of
a class in the room found for it: it is resident on that core with the next index of its batch, its scratchpad run is 0, its
threads are ready at the kernel's entry with registers 0 and their random states. An idle distributor polls its 107 neighbours
in turn from the one after the last that it took from, and takes the older half of the first batch found. A workgroup that has exited, with nothing owed, is gone with its groups. -/
def Obligations.PlacementTurns : Prop :=
  (∀ (s u : State) (die clu : Nat) (c : Trit) (b : Batch) (q : List Batch) (r : Region) (m : Room), die < 4 → clu < 27 →
    s.dieDown die = false → (∀ c' : Trit, c.val < c'.val → s.spawnQ (spawnKey die clu c') = []) →
    s.spawnQ (spawnKey die clu c) = b :: q → s.marked b.region = false → b.coresident = false →
    s.readRegion die b.region.ctx b.region.block = .ok (u, r) → u.roomsFor die clu r b.kernel 1 u.holders = some [m] →
    ∃ t w gs, exec (.placement die clu) s = .next t ∧ t.wgs = u.wgs ++ [w] ∧ w.core = ⟨die, clu, m.core⟩ ∧ w.st = .resident ∧
      w.region = r ∧ w.kernel = b.kernel ∧ w.index = Word.ofInt b.first ∧ w.launch = b.launch ∧ w.gran = m.gran ∧
      t.spawnQ (spawnKey die clu c) = (if b.count ≤ 1 then q else { b with first := b.first + 1, count := b.count - 1 } :: q) ∧
      (∀ o, w.gran * 2187 ≤ o → o < (w.gran + w.grans) * 2187 → t.scrGet (coreIdx w.core) o = Tryte.ofInt 0) ∧
      t.groups = u.groups ++ gs ∧
      ∀ g ∈ gs, g.wg = w.id ∧ g.phase = .boundary ∧ g.pend = [] ∧ g.handler = none ∧ (∀ n, g.rdW n = 0) ∧
        ∀ l ∈ g.lanes, l.st = .bornExited ∨ (l.st = .ready ∧ l.pc = b.kernel.entry ∧ l.thread < b.kernel.threads ∧
          l.rng = Word.ofInt (r.seed.val + 3 ^ 13 * (Word.ofInt b.first).val + l.thread) ∧ l.fs = .none ∧
          ∀ n, l.rdG n = Word.ofInt 0 ∧ l.rdH n = Word.ofInt 0 ∧ (n ≠ 0 → l.rdK n = Trits.ofInt 3 0))) ∧
  (∀ (s : State) (die clu key k : Nat) (n : Nat × Nat) (b : Batch) (more : List Batch), die < 4 → clu < 27 →
    s.dieDown die = false → (∀ c : Trit, s.spawnQ (spawnKey die clu c) = []) →
    (∃ c, c < 9 ∧ (s.holders.filter fun w => w.core == ⟨die, clu, c⟩).length < 27) →
    let at_ (i : Nat) : Nat := (s.polls.get 0 (die * 27 + clu) + i) % 107
    k < 107 → (∀ i m, i < k → (neighbours die clu)[at_ i]? = some m → s.stealable die m = none) →
    (neighbours die clu)[at_ k]? = some n → s.stealable die n = some (key, b) → s.spawnQ key = b :: more →
    let h := (b.count + 1) / 2
    let s' : State := { s with polls := s.polls.set 0 (die * 27 + clu) (at_ (k + 1)) }
    let t := s'.setSpawnQ key (if b.count ≤ h then more else { b with first := b.first + h, count := b.count - h } :: more)
    let mine := spawnKey die clu b.region.cls
    Happens s (.spawnSteal die clu) (t.setSpawnQ mine ({ b with count := h } :: t.spawnQ mine))) ∧
  ∀ (s : State) (w : Workgroup), s.wgOf w.id = some w → w.st = .exiting → w.entry = none → s.owed w = false →
    ∃ t, exec (.workgroupGone w.id) s = .next t ∧ t = s.goneWg w ∧ (∀ v ∈ t.wgs, v.id ≠ w.id) ∧ ∀ g ∈ t.groups, g.wg ≠ w.id

/-- R311, R314, R448: a free walker takes the oldest ready node of its die; a kernel node's batch is enqueued whole once its
region's budget admits it; a loop node ends with 0 at its limit, with + where its condition is 0, and else runs its child
again; a wait node ends once its word is the stamp; a completed node is passed on, and a kernel node whose workgroups are
gone posts its record.

R308 to R310, R346, R436: the oldest waiting record of a ring is written, those of its mailboxes that had no ring yet among them,
and then leaves it; a ring is tested for its
interrupt; a consumer index is written, clears the interrupt and tests it; a doorbell write posts a slot whose revision is
the bound one, and else posts a record of kind 4 (revision) or 5 (overrun); the reply area is freed. -/
def Obligations.NodeRingAndMailboxTurns : Prop :=
  (∀ (s : State) (die : Nat) (n : ReadyNode), s.ready.find? (fun n => n.die == die) = some n → s.dieDown die = false →
    (s.walkers.filter fun k => k.die == die).length < 27 →
    let t : State := ({ s with
      ready := s.ready.filter fun m => m != n, nextId := s.nextId + 1
      walkers := s.walkers ++ [{ id := s.nextId, die := die, ctx := n.ctx, frames := [], done := none, kernel := none }] } :
        State).drainUpdates
    (n.failed = false → Happens s (.walkerNodeStart die) (t.enterNode nodeFuel s.nextId n.block)) ∧
    (n.failed = true → Happens s (.walkerNodeStart die)
      ((t.updWalker s.nextId fun k => { k with frames := [⟨n.block, 0, 0, 0, []⟩] }).nodeEnds s.nextId .neg))) ∧
  (∀ (s : State) (id : Nat) (k : Walker), s.walkerOf id = some k → s.dieDown k.die = false →
    (∀ n b c t, k.kernel.bind s.knodeOf = some n → n.batch = some b → s.batchCluster k.die n.region = some c →
      s.counted n.region + b.count ≤ n.region.budget → s.enqueueBatch k.die c { b with time := s.time } = some t →
      Happens s (.kernelNodeEnqueue id) (t.updKnode n.id fun n => { n with batch := none })) ∧
    (∀ f rest, k.frames = f :: rest → k.done = none → f.kind = 3 →
      (f.words.getD 2 0 ≤ f.iter → Happens s (.loopIteration id) (s.nodeEnds id .zero)) ∧
      (¬f.words.getD 2 0 ≤ f.iter → ∀ v r, s.readRegion k.die k.ctx f.block = .ok (v, r) →
        (∀ c, v.paramRead k r (f.words.getD 1 0) = .error c →
          Happens s (.loopIteration id) (v.paramFault k r f.block (f.words.getD 1 0) c)) ∧
        ∀ y z, v.paramRead k r (f.words.getD 1 0) = .ok (y, z) →
          (z = 0 → Happens s (.loopIteration id) (y.nodeEnds id .pos)) ∧
          (∀ x u, z ≠ 0 → y.nodeLink k f.block 2 = .ok (x, 0) →
            let here := x.updWalker id fun k => { k with frames := { f with iter := f.iter + 1 } :: rest }
            here.structWrite (structWho k.die k.ctx) (f.block + 144) [((f.iter + 1 : Nat) : Int)] = .ok u →
            Happens s (.loopIteration id) u) ∧
          (∀ c, z ≠ 0 → y.nodeLink k f.block 2 = .error c → Happens s (.loopIteration id) (y.nodeEnds id .neg)) ∧
          ∀ x c, z ≠ 0 → c ≠ 0 → y.nodeLink k f.block 2 = .ok (x, c) → Happens s (.loopIteration id)
            ((x.updWalker id fun k => { k with frames := { f with child := c } :: k.frames.drop 1 }).enterNode nodeFuel id c))) ∧
    (∀ f rest, k.frames = f :: rest → k.done = none → f.kind = 5 → ∀ v r, s.readRegion k.die k.ctx f.block = .ok (v, r) →
      (∀ c, v.paramRead k r (f.words.getD 1 0) = .error c →
        Happens s (.waitNodeRead id) (v.paramFault k r f.block (f.words.getD 1 0) c)) ∧
      ∀ y z, v.paramRead k r (f.words.getD 1 0) = .ok (y, z) →
        Happens s (.waitNodeRead id) (if z = f.words.getD 2 0 then y.nodeEnds id .pos else y)) ∧
    (∀ f rest t, k.frames = f :: rest → k.done = some t → Happens s (.nodeCompletion id) (s.passOn k f rest t)) ∧
    ∀ n, k.done = none → k.kernel.bind s.knodeOf = some n → n.ended = false → n.batch = none →
      (∀ w ∈ s.wgs, w.node ≠ some n.id) → (∀ q ∈ s.spawns, ∀ b ∈ q.2, b.node ≠ some n.id) →
      (∀ r ∈ s.refusals, r.record.node ≠ some n.id) →
      let status : Trit := n.status.getD (if n.faults = 0 then .pos else .neg)
      Happens s (.nodeCompletion id) ((s.updKnode n.id fun n => { n with ended := true }).ringQueue k.ctx (.walker k.id)
        [n.region.number.val, status.val + 3, n.cause + 19683 * n.faults, n.block, n.placed, 0, 0])) ∧
  (∀ (s : State) (ctx : Nat) (r : Ring) (e : Poster × List Word) (more : List (Poster × List Word)),
    let s0 := s.rootRecords ctx
    s0.rings.find? (fun r => r.ctx.num == ctx) = some r → s0.ringWaits r.ctx = e :: more →
    (∀ wg hw, e.1 = .group wg hw → Happens s (.eventRingPost ctx) s ∧ Happens s (.ringPostRetry ctx) s) ∧
    ∀ t, s0.ringPost r.ctx.homeDie r.ctx (e.2.map (·.val)) = some t →
    let u := t.updRing r.ctx fun r => { r with waiting := more }
    (e.1 = .agent → Happens s (.eventRingPost ctx) u ∧ Happens s (.ringPostRetry ctx) u) ∧
    ∀ id k, e.1 = .walker id → u.walkerOf id = some k →
      let v := u.nodeEnds id (match k.kernel.bind u.knodeOf with
        | some n => n.result
        | none => .pos)
      Happens s (.eventRingPost ctx) v ∧ Happens s (.ringPostRetry ctx) v) ∧
  (∀ (s : State) (ctx : Nat) (r : Ring), s.rings.find? (fun r => r.ctx.num == ctx) = some r →
    Happens s (.ringTimeThreshold ctx) (s.ringSignal r.ctx.homeDie r.ctx)) ∧
  (∀ (s t : State) (ctx : Nat) (c : Ctx) (v : Int), ctx ≤ 728 → s.context ctx = some c → v.natAbs ≤ 3812798742493 →
    s.structWrite (structWho c.homeDie c) (c.rootBlock + 102) [v] = .ok t →
    Happens s (.consumerIndexWrite ctx v) ((t.updRing c fun r => { r with irq := false }).ringSignal c.homeDie c)) ∧
  (∀ (s : State) (ctx : Nat) (v : Int), ctx ≤ 728 → s.context ctx = none → v.natAbs ≤ 3812798742493 →
    Happens s (.consumerIndexWrite ctx v) { s with consumers := s.consumers.insert ctx (Word.ofInt v) }) ∧
  (∀ (s : State) (n slot : Nat) (v : Int) (ctx : Nat) (rev : Int), n ≤ 26 → slot ≤ 8 → v.natAbs ≤ 3812798742493 →
    (s.box n).bound = some (ctx, rev) →
    let b := s.box n
    let bell := b.words.get (Word.ofInt 0) (27 * slot + 26)
    let got := fld (b.words.get (Word.ofInt 0) (27 * slot)).val 0 8
    (bell ≠ Word.ofInt 0 → Happens s (.mailboxDoorbellWrite n slot v) (s.boxRecord ctx 5 [n, slot])) ∧
    (bell = Word.ofInt 0 → v ≠ 0 → got ≠ rev → Happens s (.mailboxDoorbellWrite n slot v) (s.boxRecord ctx 4 [n, got, rev])) ∧
    (bell = Word.ofInt 0 → v ≠ 0 → got = rev → ∃ t, exec (.mailboxDoorbellWrite n slot v) s = .next t ∧
      (t.box n).posted = b.posted ++ [slot] ∧ (t.box n).words.get (Word.ofInt 0) (27 * slot + 26) = Word.ofInt v ∧
      (∀ j, j ≠ 27 * slot + 26 → (t.box n).words.get (Word.ofInt 0) j = b.words.get (Word.ofInt 0) j) ∧ SameMemory s t)) ∧
  ∀ (s : State) (n : Nat), n ≤ 26 → ∃ t, exec (.replyAreaFree n) s = .next t ∧ (t.box n).reply.get (Word.ofInt 0) 26 = Word.ofInt 0 ∧
    (∀ j, j ≠ 26 → (t.box n).reply.get (Word.ofInt 0) j = (s.box n).reply.get (Word.ofInt 0) j) ∧
    (t.box n).posted = (s.box n).posted ∧ SameMemory s t

/-! ## Turns of pre-emption (16_traps_and_preemption.md) and of the memory licence (R318) -/

/-- R125, R361 to R371, R318: a mark reaches a core; a deadline stops the groups that have not yielded; a stopped workgroup that
is drained takes the lowest free entry in state 0 (the lowest is the model's choice, log 25), has its image written, and is
suspended once none of its arrivals is held (R368); a save that would read an uncorrectable error fails (the model's reading,
log 65); a mark whose workgroups are saved or gone is removed with their number; a resume begins
once there is room, copies its image back, drains what is held for it in order, and ends once nothing is held for it or on its
way and its bins have room; an arrival meets its entry. The licence of a core follows, every 81 cycles, the lines lost in the last 2,187 cycles: 81
below 81, 27 below 243, else 9; its starting point moves every 2,187 cycles. -/
def Obligations.PreemptionTurns : Prop :=
  (∀ (s : State) (w : Workgroup), s.wgOf w.id = some w →
    let groups := s.groups.filter fun g => g.wg == w.id
    (w.preq = false → w.st ≠ .suspended → w.save = .none → s.marked w.region = true →
      Happens s (.preemptMarkArrival w.id) (s.markArrives w.id)) ∧
    (w.save = .stopping → (∃ g ∈ groups, g.isStopped = false) →
      (w.ctxsv = true ∨ w.preqAt + w.region.deadline ≤ s.cycles (coreClu w.core)) → (∀ t ∈ s.tabWrites, t.wg ≠ w.id) →
      Happens s (.preemptDeadline w.id)
        (({ s with groups := s.groups.map fun g => if (g.wg == w.id && !g.isStopped) then g.force else g } : State).updWg w.id
          fun w => { w with forced := true })) ∧
    (w.st = .resident → s.dieDown w.core.die = false →
      (w.save = .stopping → (∀ g ∈ groups, g.isStopped = true) →
        let t := s.drainUnit w
        (t.drained w = false → Happens s (.workgroupSave w.id) t) ∧
        (t.drained w = true → (∀ j, j < 243 → SMap.find? (t.coreAt (coreIdx w.core)).divs j ≠ none) →
          Happens s (.workgroupSave w.id) t) ∧
        (∀ n, t.drained w = true → n < 243 → SMap.find? (t.coreAt (coreIdx w.core)).divs n = none →
          (∀ j, j < n → SMap.find? (t.coreAt (coreIdx w.core)).divs j ≠ none) →
          let late := t.overrun w
          let u := t.chargeOverrun w late
          let d : DivEntry :=
            { st := .zero, ctx := w.region.ctx.num, gran := w.gran, grans := w.grans
              shadow := w.image + (w.kernel.sections.shadow : Int), wg := w.id }
          let v := ((u.updCore (coreIdx w.core) fun c => { c with divs := SMap.insert c.divs n d }).emptySets (coreIdx w.core)
            w.id).updWg w.id fun v => { v with save := .saving, entry := some n, img := some w.image }
          u.dieDown w.core.die = false →
            (∀ x, v.imageWrite w 0 (w.header 1 n late) = .ok x → Happens s (.workgroupSave w.id) x) ∧
            ∀ f, v.imageWrite w 0 (w.header 1 n late) = .error f → Happens s (.workgroupSave w.id) (v.imageFails w f))) ∧
      (w.save = .saving →
        (∀ f, s.imageStruck w = some f → Happens s (.workgroupSave w.id) (s.imageFails w f)) ∧
        (∀ t, s.imageStruck w = none → s.putImage w = .ok t →
          Happens s (.workgroupSave w.id) (t.updWg w.id fun w => { w with save := .written })) ∧
        ∀ f, s.imageStruck w = none → s.putImage w = .error f → Happens s (.workgroupSave w.id) (s.imageFails w f)) ∧
      (w.save = .written →
        let t := s.drainHold (coreIdx w.core)
        ∀ v, t.wgOf w.id = some v →
          ((∃ a ∈ (t.coreAt (coreIdx w.core)).hold, a.wg = w.id) → Happens s (.workgroupSave w.id) t) ∧
          ((∀ a ∈ (t.coreAt (coreIdx w.core)).hold, a.wg ≠ w.id) →
            (∀ f, t.imageWrite v 0 [2] = .error f → Happens s (.workgroupSave w.id) (t.imageFails v f)) ∧
            ∀ x, t.imageWrite v 0 [2] = .ok x → Happens s (.workgroupSave w.id) (t.endSave v)))) ∧
    (s.dieDown w.core.die = false →
      (w.resuming = true → w.st = .suspended → s.canRestore w = true → s.marked w.region = false →
        Happens s (.workgroupResume w.id) (s.beginRestore w)) ∧
      (w.st ≠ .suspended → w.save = .restoring →
        (∀ t, s.takeImage w = .ok t →
          Happens s (.workgroupResume w.id) (t.updWg w.id fun v => { v with save := .entered })) ∧
        ∀ f, s.takeImage w = .error f → Happens s (.workgroupResume w.id) (s.imageFails w f)) ∧
      (w.st ≠ .suspended → w.save = .entered →
        let t := s.drainHold (coreIdx w.core)
        let there := t.coreAt (coreIdx w.core)
        ∀ v, t.wgOf w.id = some v →
          ((∃ a ∈ there.hold, a.wg = w.id) ∨ (∃ a ∈ t.arrivals, a.1 = coreIdx w.core ∧ a.2.wg = w.id) ∨
            81 < there.bins.length + v.bins.length → Happens s (.workgroupResume w.id) t) ∧
          ((∀ a ∈ there.hold, a.wg ≠ w.id) → (∀ a ∈ t.arrivals, a.1 = coreIdx w.core → a.2.wg ≠ w.id) →
            there.bins.length + v.bins.length ≤ 81 →
            Happens s (.workgroupResume w.id) (t.finishRestore v))))) ∧
  (∀ (s : State) (m : Mark), s.marks.find? (fun k => k.id == m.id) = some m → (∀ w ∈ m.waiting, s.wgOf w = none) →
    let die := m.ctx.homeDie
    let t := s.drainUpdates
    let u := (t.orFatal die (t.structWrite (structWho die m.ctx) (m.block + 51) [m.saved])).drainUpdates
    let v : State := { u with marks := u.marks.filter fun k => k.id != m.id }
    Happens s (.preemptMarkRemoval m.id) { v with wgs := v.wgs.map fun w =>
      if (w.preq && w.st == .exiting && !v.marked w.region) then { w with preq := false } else w }) ∧
  (∀ (s : State) (core : CoreRef) (a : Arrival) (before after : List (Nat × Arrival)),
    let k := coreIdx core
    s.arrivals = before ++ (k, a) :: after → (∀ e ∈ before, e.1 ≠ k) →
    let t : State := { s with arrivals := before ++ after }
    let entry := List.find? (α := Nat × DivEntry) (fun e => e.2.wg == a.wg) (s.coreAt k).divs
    (entry = none → Happens s (.divertedArrival core) (t.applyDirect k a)) ∧
    ∀ n d w, entry = some (n, d) → s.wgOf a.wg = some w →
      (d.st ≠ .neg → (s.coreAt k).hold.length < 729 →
        Happens s (.divertedArrival core) (t.updCore k fun c => { c with hold := c.hold ++ [a] })) ∧
      (d.st = .neg →
        (∀ u, t.applyArrival ⟨some w, k, some d⟩ a = .ok u → Happens s (.divertedArrival core) u) ∧
        ∀ f, t.applyArrival ⟨some w, k, some d⟩ a = .error f →
          Happens s (.divertedArrival core) ((t.discardArrival a).imageFails w f))) ∧
  ∀ (s : State) (core : CoreRef),
    let k := coreIdx core
    let now := s.cycles (k / 9)
    let recent := (s.coreAt k).lost.filter fun t => decide (now < t + 2187)
    let n := recent.length
    ((s.coreAt k).reviewed + 81 ≤ now → ∃ t, exec (.licenceReview core) s = .next t ∧
      (t.coreAt k).licence = (if n < 81 then 81 else if n < 243 then 27 else 9) ∧ (t.coreAt k).lost = recent ∧
      (t.coreAt k).reviewed = now ∧ SameMemory s t ∧ t.groups = s.groups) ∧
    ((s.coreAt k).rotated + 2187 ≤ now → ∃ t, exec (.licenceRotation core) s = .next t ∧
      (t.coreAt k).rotation = (s.coreAt k).rotation + 1 ∧ (t.coreAt k).rotated = now ∧ SameMemory s t ∧ t.groups = s.groups)

/-! ## Turns of the host and of the package (27_host_and_package.md) -/

/-- R121, R308, R413, R427, R435, R436, R439, R440, R442 to R445: the time count rises; retries are counted; an island's clock is set.
Host writes of whole elements reach the nonce, the link words and free mailbox words; host reads give the identity 729, zeros
for the nonce, and the words of links and mailboxes as they stand; windows and the raw packed window read
or write the bytes of memory; a link transfer starts unless one runs, sends whole slots, and ends with 0 or −1; a quote is
asked for and made; booting dies boot; a reset clears all but what the device has sent, with vector 729 for each die whose status
changes to booting; a die takes a fatal error. -/
def Obligations.HostTurns : Prop :=
  ∀ s : State,
    (∃ t, exec .timeCountTick s = .next t ∧ t.time = s.time + 1 ∧ SameMemory s t ∧ t.groups = s.groups ∧ t.wgs = s.wgs) ∧
    (∀ island n, island < 144 → 1 ≤ n → n ≤ 9 → ∃ t, exec (.clockThrottle island n) s = .next t ∧
      SMap.get 9 t.clocks island = n ∧ (∀ j, j ≠ island → SMap.get 9 t.clocks j = SMap.get 9 s.clocks j) ∧
      t = { s with clocks := t.clocks }) ∧
    (∀ link, link < 9 → Happens s (.xgRetry link) (s.bump 11 0 link 1)) ∧
    (∀ die peer, die < 4 → peer < 4 → die ≠ peer → Happens s (.ucieFlitRetry die peer) (s.bump 10 die peer 1)) ∧
    (∀ off bytes, 64 ≤ off → off + bytes.length ≤ 96 → ∃ t, exec (.hostRegisterWrite 0 off bytes) s = .next t ∧
      (∀ j b, off + j < 96 → bytes[j]? = some b → SMap.get 0 t.nonce (off + j - 64) = b) ∧
      (∀ n, n < off - 64 ∨ off - 64 + bytes.length ≤ n → SMap.get 0 t.nonce n = SMap.get 0 s.nonce n) ∧
      t = { s with nonce := t.nonce }) ∧
    (∀ off bytes,
      let later := elements (off + (96 - off)) (bytes.drop (96 - off))
      (∀ es, later = some es →
        Happens s (.hostRegisterWrite 0 off bytes) (es.foldl (fun t e => t.putRegister e.1 e.2) (s.putNonce off bytes))) ∧
      (later = none → off < 96 → 64 < off + bytes.length → Happens s (.hostRegisterWrite 0 off bytes) (s.putNonce off bytes))) ∧
    (∀ link n v, link < 9 → n < 4 → (n = 3 → v ≠ 1) → ∃ t, s.putRegister (512 + 32 * link + 8 * n) v = t ∧
      t.links.get (Word.ofInt 0) (4 * link + n) = Word.ofInt v ∧ t = { s with links := t.links }) ∧
    (s.hostRead 0 0 8 = some [217, 2, 0, 0, 0, 0, 0, 0] ∧ s.hostRead 0 64 32 = some (List.replicate 32 0) ∧
      (∀ n, n < 36 → s.hostRead 0 (512 + 8 * n) 8 = some (intBytes 8 (s.links.get (Word.ofInt 0) n).val)) ∧
      ∀ m n, m ≤ 26 → n < 270 → s.hostRead 1 (2160 * m + 8 * n) 8 = some (intBytes 8
        (if n < 243 then (s.box m).words.get (Word.ofInt 0) n else (s.box m).reply.get (Word.ofInt 0) (n - 243)).val)) ∧
    (∀ off bytes e, elements off bytes = some [e] → Happens s (.hostRegisterWrite 1 off bytes)
      (match (s.putMailWord e.1 e.2).2 with
        | none => (s.putMailWord e.1 e.2).1
        | some f => (s.putMailWord e.1 e.2).1.overruns [f])) ∧
    (s.attest = Word.ofInt 0 → Happens s .attestationRequest { s with attest := Word.ofInt 1 }) ∧
    (s.attest ≠ Word.ofInt 0 → ∃ t, exec .quoteReady s = .next t ∧ t.attest = Word.ofInt 0 ∧
      t.quote = s.quoteBody ++ (List.range 32).map (Config.signature s.quoteBody) ∧
      t.sign = ((List.range 32).map fun i => Config.signature s.quoteBody (32 + i)) ∧ (∀ i, i < 32 → s.quoteBody[i]? = some (SMap.get 0 s.nonce i)) ∧
      t = { s with attest := t.attest, quote := t.quote, sign := t.sign }) ∧
    (∀ off (acc : HostAccess) w,
      let n : Nat := match acc with
        | .read n => n
        | .write bs => bs.length
      s.window (off / 2 ^ 38) = some w → off / 2 ^ 38 ≤ 26 → w.valid = true → w.world ≠ 1 →
      off % 2 ^ 38 + n ≤ w.len → off % 2 ^ 38 < w.len →
      Happens s (.hostBinaryWindowAccess off acc) (s.hostBytes w.die w.lp (w.base + off % 2 ^ 38) acc)) ∧
    (∀ off n, off / 2 ^ 41 < 4 → off % 2 ^ 40 + n ≤ tierLines (off / 2 ^ 40 % 2 == 1) * 160 → s.dieDown (off / 2 ^ 41) = false →
      (∀ l ∈ slotsOf (off % 2 ^ 40) n, s.inCarve (off / 2 ^ 41) (off / 2 ^ 40 % 2 == 1) l = false) →
      let lp := off / 2 ^ 40 % 2 == 1
      let bursts (write : Bool) : State := ((slotsOf (off % 2 ^ 40) n).foldl (fun t l => t.settleSlot (off / 2 ^ 41) lp l) s).slotBursts
        (off / 2 ^ 41) lp (slotsOf (off % 2 ^ 40) n) write
      let t := bursts false
      Happens s (.hostRawPackedAccess off (.read n)) { t with hostReads := t.hostReads ++
        [some ((List.range n).map fun i => t.dramByte (off / 2 ^ 41) lp (off % 2 ^ 40 + i))] } ∧
      ∀ bs, bs.length = n →
        Happens s (.hostRawPackedAccess off (.write bs)) ((bursts true).writeDram (off / 2 ^ 41) lp (off % 2 ^ 40) bs)) ∧
    (∀ link, link ≤ 8 →
      let v (i : Nat) : Int := (s.links.get (Word.ofInt 0) (4 * link + i)).val
      ((∀ t ∈ s.transfers, t.link ≠ link) → Happens s (.xgLinkTransfer link)
        { s with transfers := s.transfers ++ [⟨link, v 0, v 1, v 2⟩]
                 links := s.links.set (Word.ofInt 0) (4 * link + 3) (Word.ofInt 1) }) ∧
      ∀ x, s.transfers.find? (fun t => t.link == link) = some x →
        let t : State := { s with transfers := s.transfers.filter fun y => y.link != link }
        let bell (u : State) (d : Int) : State := { u with links := u.links.set (Word.ofInt 0) (4 * link + 3) (Word.ofInt d) }
        (¬(spanOk x.src x.len = true ∧ spanOk x.dst x.len = true) → Happens s (.xgTransferComplete link) (bell t (-1))) ∧
        ((spanOk x.src x.len = true ∧ spanOk x.dst x.len = true) → Happens s (.xgTransferComplete link)
          (let u := t.sentBytes x.src x.len
           bell { u.1 with xgOut := u.1.xgOut ++ [(link, x.dst.toNat, u.2)] } 0))) ∧
    Happens s .powerOnBoot ((List.range 4).foldl (fun t die => if t.dieStatus.getD die 0 = 1 then t.bootDie die else t) s) ∧
    Happens s .deviceReset { State.reset with
      agenda := s.agenda, turns := s.turns, free := s.free, stamp := s.stamp, nextId := s.nextId
      irqs := s.irqs ++ (s.dieStatus.filter fun d => d != 1).map fun _ => 729
      hostReads := s.hostReads, xgOut := s.xgOut } ∧
    ∀ die, die < 4 → Happens s (.dieFatalError die) (s.dieFatal die) ∧ Happens s (.temperatureTrip die) (s.dieFatal die) ∧
      ((s.dieFatal die).dieDown die = true ∨ s.dieStatus.length ≤ die) ∧
      (s.dieDown die = false → (∀ w ∈ (s.dieFatal die).wgs, w.core.die ≠ die) ∧ 729 ∈ (s.dieFatal die).irqs)

/-! ## Words, turns and checks (04_instruction_words.md, 03_execution.md) -/

/-- R84 to R99: words written out from the encodings of the spec decode to the instructions that they stand for. -/
def Obligations.SpecWordsDecode : Prop :=
  let word (a b c : Int) : Int := a + 19683 * b + 19683 * 19683 * c
  decodeWord (word (-4234) (-5467) (-33)) = .ok (.add ⟨.t, .g 2, .g 0, .imm (Trits.ofInt 4 (-7)), .neg 2⟩) ∧
  decodeWord (word 4430 (-5431) 2673) =
    .ok (.stStrong ⟨.virt, .w, .strong ⟨false, .neg, .pkg⟩, 6, 4, .always, 1⟩) ∧
  decodeWord (word 331 (-324) 0) = .ok (.bar ⟨4, .scr⟩) ∧
  decodeWord (word 82 (-360) 405) = .ok (.cpy ⟨0, 0⟩) ∧
  decodeWord (word (-4270) 6233 0) = .ok (.fmtset ⟨2, .g 4, .imm (Trits.ofInt 4 9)⟩) ∧
  decodeWord (word (-6460) 3317 0) = .ok (.ratset ⟨1, 4, .imm (Trits.ofInt 4 5)⟩) ∧
  decodeWord (word 2283 (-346) 0) = .ok (.cntrd ⟨.g 5, 2⟩) ∧
  decodeWord (word (-700) 392 0) = .ok (.shfld ⟨1, .g 4, .g 3, .imm (Trits.ofInt 4 1), .always⟩) ∧
  decodeWord (word (-8636) (-7609) (-2224)) = .ok (.mpass ⟨0, .g 5, 3, .neg 1⟩) ∧
  decodeWord (word (-2) 0 0) = .ok .resume ∧
  decodeWord (word 3538 1524 0) = .ok (.lit (Trits.ofInt 22 123459))

/-- R84 to R99: every well-formed word instruction has a word of 27 trits, which decodes to it with every operand; and a word
that decodes to an instruction is the word of that instruction, which is well formed. -/
def Obligations.DecodeOfEncode : Prop :=
  (∀ i : Instr, i.wellFormed = true → i.isEvent = false →
    ∃ v : Int, encode i = some v ∧ v.natAbs ≤ maxMag 27 ∧ decodeWord v = .ok i) ∧
  ∀ (v : Int) (i : Instr), v.natAbs ≤ maxMag 27 → decodeWord v = .ok i →
    i.wellFormed = true ∧ i.isEvent = false ∧ encode i = some v

/-- R60, R61, R96, R100, R101, R422: a turn of a slot fetches the word at the PC of the group that runs on it, from a line of its run
where it has one, and executes the instruction that the word decodes to; a word that is none traps with its cause, and so
do a fetch that fails, a run of 27 words and a misaligned PC. A held word is executed again. A turn of an event executes the
event, and one of a copy moves its slice. Without a turn nothing happens. After a turn the slices of the last-level caches settle
(R217, R241): where none holds a bad line, or more lines than it has room for, that changes nothing. -/
def Obligations.StepRunsTurns : Prop :=
  ∀ (s : State) (rest : List Turn),
    (∀ sl, s.agenda = .word sl :: rest →
      let u : State := { s with agenda := rest, turns := s.turns + 1, cur := sl }
      (u.running sl = none → step s = .next u.settle) ∧
      ∀ w g, u.running sl = some (w, g) →
        let pc := g.wordPc.val
        let all : Lane → Trits 3 := fun _ => Trits.ofInt 3 13
        let zero : Word := Word.ofInt 0
        (∀ i, g.run.held = some i → step s = settled (exec i u)) ∧
        (g.run.held = none → g.run.again = none → g.resuming = none → g.run.active ≠ [] →
          (27 ≤ g.run.count → step s = .next (u.takeFault g.ref zero all { cause := 4 }).settle) ∧
          (g.run.count < 27 → pc % 3 ≠ 0 → step s = .next (u.takeFault g.ref zero all { cause := 12 }).settle) ∧
          (g.run.count < 27 → pc % 3 = 0 →
            (∀ l, g.run.lines.find? (fun l => l.line == pc / 81) = some l →
              let t (n : Nat) : Int := (l.trytes.getD ((pc % 81).toNat + n) (Tryte.ofInt 0)).val
              l.trytes.length = 81 →
              u.fetchWord w g.ref g.run pc = .ok (u, t 0 + 19683 * t 1 + 19683 * 19683 * t 2)) ∧
            (∀ c, u.fetchWord w g.ref g.run pc = .error c → step s = .next (u.takeFault g.ref zero all { cause := c }).settle) ∧
            ∀ t v, u.fetchWord w g.ref g.run pc = .ok (t, v) →
              (∀ i, decodeWord v = .ok i → step s = settled (exec i t)) ∧
              ∀ e, decodeWord v = .error e →
                let r := if g.run.lits = 0 ∨ (Fields.ofWord v).op = 116 then t.readTable w (Fields.ofWord v) (Fields.ofWord v).b
                  else (t, {})
                step s = .next ((r.1.takeFault g.ref (Word.ofInt v) ((predOf (Fields.ofWord v)).getD .always).eff
                  (illegalFail w g.run.lits e r.2.refused)).settle)))) ∧
    (∀ i, s.agenda = .event i :: rest → i.isEvent = true →
      step s = settled (exec i { s with agenda := rest, turns := s.turns + 1 })) ∧
    (∀ c n, s.agenda = .slice c n :: rest →
      step s = .next ((({ s with agenda := rest, turns := s.turns + 1 } : State).sliceTurn c n).settle)) ∧
    (∀ (t : State) (f : Fault) (r : Refusal), settled (.next t) = .next t.settle ∧ settled (.fault f) = .fault f ∧
      settled (.refused r) = .refused r) ∧
    (∀ t : State, (∀ e ∈ t.llc, e.2.bad = []) →
      (∀ die n, ((t.inSlice die n).map fun l => lineCount l.key).foldl (· + ·) 0 ≤ 2187) → t.settle = t) ∧
    (s.agenda = [] → Config.turn s.turns = none → step s = .next { s with turns := s.turns + 1 }) ∧
    ∀ t, s.agenda = [] → Config.turn s.turns = some t → step s = step { s with agenda := [t] }

/-- R94, R100, R101, R190, R208, R318, R372, R446: the checks of a word, in their order: cause 4 for a run of 27 words; cause 1,
detail 3, for an index of a table, or for formats that MLOAD, MLOADP or MSTORE refuses, where no LIT gives the immediate; cause 1,
detail 5, for a register or tile beyond the allocation; cause 3 for a wrong LIT or a value out of range; cause 1, detail 3, for
refused formats that a LIT names; cause 5 for a privileged word of user code, a write of a read-only register or a handler word
outside handler state; cause 6 for a word that the mode does not allow; for MRD, of a tile that is not in flight (cause 16,
`MatrixReadsBeginAndSpansTrap`), as for all others, cause 17 for a register with a result pending in a checked kernel; cause 15 for a
register with a soft error. A word whose wait slot is full, or that the licence or an earlier acquire keeps back, leaves no trace but
the table entries that its core has read. An opcode that no row has is illegal with cause 1, detail 1, and opcode 0 with cause 2. -/
def Obligations.ChecksTrapInOrder : Prop :=
  (∀ v : Int, v.natAbs ≤ maxMag 27 →
    (wrapInt 5 v = 0 → ∃ e, decodeWord v = .error e ∧ e.cause = 2 ∧ e.details = [if v = 0 then 9 else 10]) ∧
    (wrapInt 5 v ≠ 0 → (∀ r ∈ opRows, r.op ≠ wrapInt 5 v) → ∃ e, decodeWord v = .error e ∧ e.cause = 1 ∧ e.details = [1])) ∧
  ∀ (s : State) (w : Workgroup) (g : Group) (i : Instr), s.running s.cur = some (w, g) → i.isEvent = false →
    i.wellFormed = true →
    let t := (s.tableFor w g i).1
    let refused := (s.tableFor w g i).2.refused
    let traps (f : Fail) : Prop := exec i s = .next (t.takeFault g.ref (wordOf i) i.pred.eff f)
    let lits := if g.run.again.isSome then 0 else g.run.lits
    let lit := litCheck i g.wordPay lits g.run.again.isSome
    let early := (∃ f, lit = some f ∧ f.cause = 1 ∧ lits = 0) ∨ (refused = true ∧ (i.immTop = none ∨ lits = 0))
    let privileged := (i.supervisorOnly = true ∧ w.region.supervisor = false) ∨ i.writesReadOnly = true ∨
      (i.handlerOnly = true ∧ g.handler = none)
    let pending := w.kernel.checked = true ∧ g.pend.any (pendTouches g g.run.active w.kernel.width i) = true
    let past := (g.run.again.map (·.past)).getD false
    let idle := ∀ a, i = .mrd a → (s.unitAt (coreClu w.core)).busy (w.tileAt a.tile.val) = none ∨
      (g.run.again.map (·.perf)).getD false = true
    ((∀ a, i ≠ .mload a) → (∀ a, i ≠ .mloadp a) → (∀ a, i ≠ .mstoreKeep a) → (∀ a, i ≠ .mstoreZero a) → t = s ∧ refused = false) ∧
    (27 ≤ g.run.count → past = false → traps { cause := 4 }) ∧
    (g.run.count < 27 ∨ past = true →
      (early → traps { cause := 1, detail := 3 }) ∧
      (¬early → overAlloc w i = true → traps { cause := 1, detail := 5 }) ∧
      (∀ f, ¬early → overAlloc w i = false → lit = some f → traps f) ∧
      (i.litUse = .none → g.run.again = none → 0 < g.run.lits → ¬early → overAlloc w i = false → traps { cause := 3 }) ∧
      (lit = none → overAlloc w i = false → refused = true → traps { cause := 1, detail := 3 }) ∧
      (lit = none → overAlloc w i = false → refused = false →
        (privileged → traps { cause := 5 }) ∧
        (¬privileged → i.modeViolation w.kernel.reforming = true → traps { cause := 6 }) ∧
        (idle → ¬privileged → i.modeViolation w.kernel.reforming = false →
          (pending → traps { cause := 17 }) ∧
          (¬pending → readsBad t g g.run.active w.kernel.width i = true → traps { cause := 15 }) ∧
          (¬pending → readsBad t g g.run.active w.kernel.width i = false →
            (t.issueOf w g i).slotFull = true ∨
              (i.needsLicence = true ∧ (t.licensed w = false ∨ (t.issueOf w g i).heldBack = true)) → exec i s = .next t))))

/-! ## Registers, memory and reset -/

/-- R62, R113, R117 to R123, R134 to R190: what the fixed-latency words of a group with nothing pending leave as it was: every register
but those of their destinations, every flag but those that the spec names, every pending word, every wait slot, all memory,
every other group, and all state beside but for programmable counters and the marks of soft errors. Where the run ends with the word,
its last lanes having parked at a return point (R175), the temporaries are 0 and the rest is as said. TIDX, TJOIN and XPERM
may read a table, so of them it says the registers and the words in flight alone. -/
def Obligations.RegisterWordsFrame : Prop :=
  ∀ (s t : State) (w : Workgroup) (g h h' : Group),
    g.pend = [] → s.groupOf g.ref = some h → t.groupOf g.ref = some h' →
    let none_ (a b : Flags) : Prop := b = a
    let saturates (a b : Flags) : Prop := b = { a with saturate := b.saturate }
    let divides (a b : Flags) : Prop := b = { a with divzero := b.divzero }
    let floats (a b : Flags) : Prop := b.divzero = a.divzero
    let invalid (a b : Flags) : Prop := b = { a with invalid := b.invalid }
    let runEnds : Prop := h'.phase ≠ h.phase
    let same (l : Nat) (gs hs ks : List Nat) : Prop :=
      (¬runEnds → SameRegisters (h.lane l) (h'.lane l) gs hs ks) ∧
      (runEnds → SameRegisters { h.lane l with h := [] } (h'.lane l) gs [] ks)
    let kept : Prop := (∀ n, h'.rdW n = h.rdW n) ∧ h'.pend = h.pend ∧ h'.handler = h.handler
    let regs (i : Instr) (gs hs ks : List Nat) (fl : Flags → Flags → Prop) : Prop := Issues s w g i → exec i s = .next t →
      (∀ n, h'.rdS n = h.rdS n) ∧ kept ∧
      ∀ l, same l gs hs ks ∧ (h'.lane l).rng = (h.lane l).rng ∧
        (h'.lane l).timeHi = (h.lane l).timeHi ∧ fl (h.lane l).fs (h'.lane l).fs
    let rest (i : Instr) : Prop := Issues s w g i → exec i s = .next t →
      SameMemory s t ∧ SameButGroups s t ∧ SameOtherGroups s t g.ref
    let frame (i : Instr) (ty : Ty) (d : Reg) (ks : List Nat) (fl : Flags → Flags → Prop) : Prop :=
      regs i (Reg.gNums ty d) (Reg.hNums d) ks fl ∧ rest i
    (∀ a : Op3, let plain (i : Instr) : Prop := frame i a.ty a.d [] none_
      plain (.add a) ∧ plain (.sub a) ∧ plain (.mul a) ∧ plain (.mulh a) ∧ plain (.mad a) ∧ plain (.min a) ∧ plain (.max a) ∧
      plain (.clamp a) ∧ plain (.tmin a) ∧ plain (.tmax a) ∧ plain (.tsum3 a) ∧ plain (.tprd a) ∧ plain (.tcns a) ∧
      plain (.shl a) ∧ plain (.shr a) ∧ plain (.rot a) ∧ plain (.cnt a) ∧ plain (.sel3 a) ∧
      frame (.adds a) a.ty a.d [] saturates ∧ frame (.subs a) a.ty a.d [] saturates ∧
      frame (.divn a) a.ty a.d [] divides ∧ frame (.divz a) a.ty a.d [] divides ∧ frame (.divf a) a.ty a.d [] divides ∧
      frame (.remn a) a.ty a.d [] divides ∧ frame (.remz a) a.ty a.d [] divides ∧ frame (.remf a) a.ty a.d [] divides ∧
      frame (.fadd a) a.ty a.d [] floats ∧ frame (.fsub a) a.ty a.d [] floats ∧ frame (.fmul a) a.ty a.d [] floats ∧
      frame (.fma a) a.ty a.d [] floats ∧ frame (.fmin a) a.ty a.d [] floats ∧ frame (.fmax a) a.ty a.d [] floats ∧
      frame (.fscl a) a.ty a.d [] floats ∧ frame (.itof a) a.ty a.d [] floats) ∧
    (∀ a : Op2, frame (.neg a) a.ty a.d [] none_ ∧ frame (.abs a) a.ty a.d [] none_ ∧ frame (.sgn a) a.ty a.d [] none_ ∧
      frame (.lead a) a.ty a.d [] none_ ∧ frame (.fabs a) a.ty a.d [] none_ ∧ frame (.fneg a) a.ty a.d [] none_ ∧
      frame (.fcls a) a.ty a.d [] none_ ∧ frame (.fexn a) a.ty a.d [] none_ ∧ frame (.ftrn a) a.ty a.d [] floats ∧
      frame (.fflr a) a.ty a.d [] floats ∧ frame (.fcel a) a.ty a.d [] floats) ∧
    (∀ a : Op0, frame (.ext a) .w a.d [] none_ ∧ frame (.ins a) .w a.d [] none_ ∧ frame (.unpk3 a) .t a.d [] none_ ∧
      frame (.splat a) .t a.d [] none_ ∧ frame (.pack3 a) .t a.d [] saturates ∧ frame (.fdot a) .w a.d [] floats) ∧
    (∀ a, frame (.mov a) a.ty a.d [] none_) ∧ (∀ a, frame (.lea a) .w a.d [] none_) ∧
    (∀ a, frame (.cvtw a) .w a.d [] saturates) ∧ (∀ a, frame (.bcst a) a.ty a.d [] none_) ∧
    (∀ a : ReduArgs, frame (.redu a) a.ty a.d [] (if a.ty = .w ∨ a.ty = .t then none_ else floats)) ∧
    (∀ a : ScanArgs, frame (.scan a) a.ty a.d [] (if a.ty = .w ∨ a.ty = .t then none_ else floats)) ∧
    (∀ a, frame (.ftoi a) a.ty a.d [] floats) ∧
    (∀ a, frame (.bcvt a) (if a.fmt = .fp64 then .f81 else .w) a.d [] floats) ∧
    (∀ a : FcvtArgs, regs (.fcvt a)
      (if a.src = .f9 ∧ a.ty = .f27 then [a.d.num, a.d.num + 1, a.d.num + 2]
        else if a.src = .f9 ∧ a.ty = .f81 then [0, 3, 6].flatMap fun j => gRun (a.d.num + j) true else Reg.gNums a.ty a.d)
      (Reg.hNums a.d) [] floats ∧ rest (.fcvt a)) ∧
    (∀ a : CmpArgs, let sets (i : Instr) (fl : Flags → Flags → Prop) : Prop := regs i [] [] [a.kd.val] fl ∧ rest i
      sets (.cmp a) none_ ∧ sets (.tst a) none_ ∧ sets (.fcmp a) invalid) ∧
    (∀ a : PsetArgs, regs (.pset a) [] [] [a.kd.val] none_ ∧ rest (.pset a)) ∧
    (∀ a : VoteArgs, regs (.vote a) [] [] [a.kd.val] none_ ∧ rest (.vote a)) ∧
    (∀ a : SwriteKArgs, regs (.swritePredicate a) [] [] [a.kd.val] none_ ∧ rest (.swritePredicate a)) ∧
    (∀ a : ShflArgs, frame (.shfl a) .w a.d [a.kn.val] none_ ∧ frame (.shfld a) .w a.d [a.kn.val] none_ ∧
      frame (.shflt a) .w a.d [a.kn.val] none_) ∧
    (∀ a : XpermArgs, regs (.xperm a) (Reg.gNums .w a.d) (Reg.hNums a.d) [a.kn.val] none_) ∧
    (∀ a : IdxArgs, regs (.tidx a) ((List.range 5).map (a.d.val + ·)) [] [a.kn.val] none_ ∧
      regs (.tjoin a) [a.d.val] [] [a.kn.val] none_) ∧
    (∀ a, frame (.sreadPredicate a) .w a.d [] none_) ∧
    (∀ a : SreadArgs, rest (.sread a) ∧ (Issues s w g (.sread a) → exec (.sread a) s = .next t →
      (∀ n, h'.rdS n = h.rdS n) ∧ kept ∧ ∀ l, same l (Reg.gNums .w a.d) (Reg.hNums a.d) [] ∧ (h'.lane l).rng = (h.lane l).rng ∧
        (h'.lane l).fs = (h.lane l).fs ∧ (a.num.val ≠ 9 → a.num.val ≠ 10 → (h'.lane l).timeHi = (h.lane l).timeHi))) ∧
    (∀ p, regs (.lit p) [] [] [] none_ ∧ rest (.lit p)) ∧ (regs .nop [] [] [] none_ ∧ rest .nop) ∧
    (∀ a : RngArgs, rest (.rng a) ∧ (Issues s w g (.rng a) → exec (.rng a) s = .next t →
      (∀ n, h'.rdS n = h.rdS n) ∧ kept ∧ ∀ l, same l (Reg.gNums .w a.d) (Reg.hNums a.d) [] ∧ (h'.lane l).fs = (h.lane l).fs ∧
        (h'.lane l).timeHi = (h.lane l).timeHi ∧ (l ∉ g.run.active → (h'.lane l).rng = (h.lane l).rng))) ∧
    (∀ a : SwriteArgs, rest (.swrite a) ∧ (Issues s w g (.swrite a) → exec (.swrite a) s = .next t →
      (∀ n, h'.rdS n = h.rdS n) ∧ kept ∧ ∀ l, same l [] [] [] ∧ (h'.lane l).timeHi = (h.lane l).timeHi ∧
        (a.num.val ≠ 12 → (h'.lane l).fs = (h.lane l).fs) ∧ (a.num.val = 12 → (h'.lane l).rng = (h.lane l).rng) ∧
        (l ∉ g.run.active → (h'.lane l).fs = (h.lane l).fs ∧ (h'.lane l).rng = (h.lane l).rng))) ∧
    ∀ a : MoviArgs, rest (.movi a) ∧ (Issues s w g (.movi a) → exec (.movi a) s = .next t →
      (∀ n, n ≠ a.sd.val → h'.rdS n = h.rdS n) ∧ kept ∧ ∀ l, same l [] [] [] ∧ (h'.lane l).rng = (h.lane l).rng ∧
        (h'.lane l).timeHi = (h.lane l).timeHi ∧ (h'.lane l).fs = (h.lane l).fs)

/-- R112, R113, R217 to R222, R226: a register, a tryte of a scratchpad or of chip scratchpad, or a byte of DRAM that is written reads
as written, and no other changes; g0, s0 and k0 read 0, 0 and all + whatever is written. -/
def Obligations.StoresReadBack : Prop :=
  (∀ (s : State) (core off core' off' : Nat) (v : Tryte), off < 531441 → off' < 531441 →
    (s.scrSet core off v).scrGet core' off' = if core' = core ∧ off' = off then v else s.scrGet core' off') ∧
  (∀ (s : State) (die off die' off' : Nat) (v : Tryte), off < 14348907 → off' < 14348907 →
    (s.chipSet die off v).chipGet die' off' = if die' = die ∧ off' = off then v else s.chipGet die' off') ∧
  (∀ (s : State) (die die' : Nat) (lp lp' : Bool) (byte byte' : Nat) (bs : List Byte),
    byte + bs.length ≤ 2 ^ 40 → byte' < 2 ^ 40 →
    (s.writeDram die lp byte bs).dramAt die' lp' byte' =
      if die' = die ∧ lp' = lp ∧ byte ≤ byte' ∧ byte' < byte + bs.length then bs[byte' - byte]? else s.dramAt die' lp' byte') ∧
  (∀ (l : Lane) (n m : Nat) (v : Word),
    (l.wrG n v).rdG m = (if m = 0 then Word.ofInt 0 else if m = n then v else l.rdG m) ∧
    (l.wrH n v).rdH m = (if m = n then v else l.rdH m)) ∧
  (∀ (l : Lane) (n m : Nat) (v : Trits 3),
    (l.wrK n v).rdK m = if m = 0 then Trits.ofInt 3 13 else if m = n then v else l.rdK m) ∧
  ∀ (g : Group) (n m : Nat) (v : Word) (k : Nat),
    (g.wrS n v).rdS m = (if m = 0 then Word.ofInt 0 else if m = n then v else g.rdS m) ∧
    (g.wrW n k).rdW m = if m = n then k else g.rdW m

/-- R191, R192, R407, R423, R441, R443, Table 5: the state after a device reset. The counters of kinds 36 to 39 are words of memory (R428).
That memory lists nothing, and the licence of 81, are the model's choices (logs 3 and 5). -/
def Obligations.ResetState : Prop :=
  let s := State.reset
  let zero : Word := Word.ofInt 0
  Memory.wf s = true ∧ s.time = 0 ∧ (∀ kind die inst, kind < 36 ∨ 39 < kind → s.counter kind die inst = 0) ∧
  (∀ n, s.windows.get zero n = zero) ∧ (∀ n, (s.box n).bound = none) ∧
  (∀ core, (s.coreAt core).tlb = [] ∧ (s.coreAt core).l1 = [] ∧ (s.coreAt core).icache = [] ∧ (s.coreAt core).divs = [] ∧
    (s.coreAt core).hold = [] ∧ (s.coreAt core).licence = 81) ∧
  s.llc = [] ∧ (∀ clu, s.ctlbs.get [] clu = []) ∧ (∀ die lp byte, s.dramAt die lp byte = none) ∧
  (∀ clu, (s.unitAt clu).pl0.tag = zero ∧ (s.unitAt clu).pl1.tag = zero ∧ (s.unitAt clu).counter = Word.ofInt 1) ∧
  s.wgs = [] ∧ s.groups = [] ∧ ∀ die, die < 4 → s.dieStatus.getD die 0 = 1

/-- The canonical form of memory is an invariant: from a state whose memory has it, a step that goes on leaves a state whose
memory has it. -/
def Obligations.EveryStepKeepsMemoryForm : Prop :=
  ∀ s t : State, Memory.wf s = true → step s = .next t → Memory.wf t = true
end

