-- ==== Sys2Proof/Laws/Issue.lean ====
section
/-! SUPPORT. What the issue of a word can do: a word that passes its checks completes with its effect, traps, or holds its
group; a check that fails traps; and a word that stalls leaves no trace. -/

namespace Sys2Proof.Machine

/-- No check fails of a word that passes. -/
theorem checkWord_of_passes {s : State} {w : Workgroup} {g : Group} {i : Instr} (h : Passes s w g i) :
    checkWord s w g i none = none := by
  obtain ⟨h1, h2, h3, h4, h5, h6, h7, h8, h9, h10⟩ := h
  simp only [Group.wordPay] at h3
  have hrun : ¬(27 ≤ g.run.count ∧ (Option.map (fun x => x.past) g.run.again).getD false = false) := by
    rintro ⟨ha, hb⟩
    rcases h1 with h | h
    · omega
    · simp [h] at hb
  have hsup : (i.supervisorOnly && !w.region.supervisor) = false := by
    cases hs : i.supervisorOnly <;> simp_all
  have hhand : (i.handlerOnly && g.handler.isNone) = false := by
    cases hs : i.handlerOnly
    · rfl
    · simpa using h7 hs
  have hpend : (w.kernel.checked && g.pend.any (pendTouches g g.run.active w.kernel.width i)) = false := by
    cases hs : w.kernel.checked
    · rfl
    · simpa using h9 hs
  simp [checkWord, hrun, h2, h3, h4, hsup, h6, hhand, h8, hpend, h10]

variable {s : State} {w : Workgroup} {g : Group} {i : Instr} {eff : Issue → Eff}

/-- The outcome of a word that issues is that of its effect. -/
theorem runWord_issues (h : Issues s w g i) :
    runWord i s eff = .next (match eff (s.issueOf w g i) with
      | .done s' => (s.issueOf w g i).after s'
      | .trap f => (s.issueOf w g i).s0.takeFault g.ref (wordOf i) i.pred.eff f
      | .trapIn s' f => s'.takeFault g.ref (wordOf i) i.pred.eff f
      | .stall => s
      | .hold s' => s'.updGroup g.ref fun g => { g with run := { g.run with held := some i } }) := by
  obtain ⟨hr, hp, hs, hl⟩ := h
  have hg : ((s.issueOf w g i).slotFull || (i.needsLicence && (!s.licensed w || (s.issueOf w g i).heldBack))) = false := by
    rw [hs]
    cases hn : i.needsLicence
    · rfl
    · simp [hl hn]
  simp only [runWord, hr, State.issueWord, checkWord_of_passes hp, hg, Bool.false_eq_true, if_false]
  all_goals (cases eff (s.issueOf w g i) <;> rfl)

theorem runWord_done {s' : State} (h : Issues s w g i) (he : eff (s.issueOf w g i) = .done s') :
    runWord i s eff = .next ((s.issueOf w g i).after s') := by rw [runWord_issues h, he]

theorem runWord_trap {f : Fail} (h : Issues s w g i) (he : eff (s.issueOf w g i) = .trap f) :
    runWord i s eff = .next ((s.issueOf w g i).s0.takeFault g.ref (wordOf i) i.pred.eff f) := by rw [runWord_issues h, he]

theorem runWord_trapIn {s' : State} {f : Fail} (h : Issues s w g i) (he : eff (s.issueOf w g i) = .trapIn s' f) :
    runWord i s eff = .next (s'.takeFault g.ref (wordOf i) i.pred.eff f) := by rw [runWord_issues h, he]

theorem runWord_stall (h : Issues s w g i) (he : eff (s.issueOf w g i) = .stall) : runWord i s eff = .next s := by
  rw [runWord_issues h, he]

theorem runWord_hold {s' : State} (h : Issues s w g i) (he : eff (s.issueOf w g i) = .hold s') :
    runWord i s eff = .next (s'.updGroup g.ref fun g => { g with run := { g.run with held := some i } }) := by
  rw [runWord_issues h, he]

/-- A word of which a check fails takes the trap of that check. -/
theorem runWord_check {f : Fail} (hr : s.running s.cur = some (w, g)) (hc : checkWord s w g i none = some f) :
    runWord i s eff = .next (s.takeFault g.ref (wordOf i) i.pred.eff f) := by
  simp only [runWord, hr, State.issueWord, hc]

/-- A word that waits for its slot, for the licence or for an earlier acquire leaves no trace. -/
theorem runWord_waits (hr : s.running s.cur = some (w, g)) (hc : checkWord s w g i none = none)
    (hw : (s.issueOf w g i).slotFull = true ∨ (i.needsLicence = true ∧ (s.licensed w = false ∨ (s.issueOf w g i).heldBack = true))) :
    runWord i s eff = .next s := by
  have hg : ((s.issueOf w g i).slotFull || (i.needsLicence && (!s.licensed w || (s.issueOf w g i).heldBack))) = true := by
    rcases hw with h | ⟨h, h'⟩
    · simp [h]
    · rcases h' with h' | h' <;> simp [h, h']
  simp only [runWord, hr, State.issueWord, hc, hg, if_true]

/-- The meaning of a word where no group runs is nothing. -/
theorem runWord_idle (hr : s.running s.cur = none) : runWord i s eff = .next s := by simp only [runWord, hr]

/-- An event that can happen does. -/
theorem runEvent_some {f : State → Option State} {t : State} (h : f s = some t) : runEvent s f = .next t := by
  simp [runEvent, h]

/-- An event that cannot happen leaves the state. -/
theorem runEvent_none {f : State → Option State} (h : f s = none) : runEvent s f = .next s := by simp [runEvent, h]

/-! ## The fields of an issue -/

@[simp] theorem issueOf_w (s : State) (w : Workgroup) (g : Group) (i : Instr) : (s.issueOf w g i).w = w := rfl
@[simp] theorem issueOf_r (s : State) (w : Workgroup) (g : Group) (i : Instr) : (s.issueOf w g i).r = g.ref := rfl
@[simp] theorem issueOf_i (s : State) (w : Workgroup) (g : Group) (i : Instr) : (s.issueOf w g i).i = i := rfl
@[simp] theorem issueOf_pc (s : State) (w : Workgroup) (g : Group) (i : Instr) : (s.issueOf w g i).pc = g.wordPc := rfl
@[simp] theorem issueOf_pay (s : State) (w : Workgroup) (g : Group) (i : Instr) : (s.issueOf w g i).pay = g.wordPay := rfl
@[simp] theorem issueOf_active (s : State) (w : Workgroup) (g : Group) (i : Instr) :
    (s.issueOf w g i).active = g.run.active := rfl
@[simp] theorem issueOf_again (s : State) (w : Workgroup) (g : Group) (i : Instr) :
    (s.issueOf w g i).again = g.run.again := rfl

/-! ## A word of a group with nothing pending -/

/-- The operands of a word of a group with nothing pending are those of the group, and the word has issued in a state that
differs in that group and in the programmable counters. -/
theorem issueOf_of_nil (h : g.pend = []) :
    s.issueOf w g i =
      { s0 := s, s := (s.updGroup g.ref fun g => g.advance g.wordPc).progEvent (coreIdx w.core) 1 (some w.region.ctx.num),
        w := w, g := g, r := g.ref, i := i, pc := g.wordPc, pay := g.wordPay, active := g.run.active, again := g.run.again } := by
  simp [State.issueOf, h]

end Sys2Proof.Machine
end

