-- ==== Sys2Proof/Laws/Control.lean ====
section
/-! SUPPORT. What a transfer of control does (Issue.transfer, Issue.jump): a misaligned target traps, and otherwise every active
lane moves, and the group goes on with all of them or with those of one PC. -/

namespace Sys2Proof.Machine

variable {x : Issue} {s : State} {c : Choice} {p : Nat → Int} {target : Nat → Bool}

/-- No target is misaligned. -/
theorem no_bad_target {xs : List Nat} (h : ∀ l ∈ xs, target l = true → p l % 3 = 0) :
    ((xs.map fun l => (l, p l, target l)).filter fun e => e.2.2 && e.2.1 % 3 != 0) = [] := by
  rw [List.filter_eq_nil_iff]
  intro e he
  obtain ⟨l, hl, rfl⟩ := List.mem_map.1 he
  cases ht : target l with
  | false => simp
  | true => simp [h l hl ht]

/-- A transfer whose targets are aligned moves every active lane. -/
theorem transfer_moves (h : ∀ l ∈ x.active, target l = true → p l % 3 = 0) :
    x.transfer s c (x.active.map fun l => (l, p l, target l)) =
      .done (
        let moved := s.updGroup x.r fun g => g.updLanes x.active fun l lane => { lane with pc := Word.ofInt (p l) }
        if x.active.all fun l => p l == p x.low then moved
        else
          let pc := c.pick (x.active.map fun l => (l, p l))
          let told := match c with
            | .uniform => (moved.bump 28 x.w.core.die (coreIdx x.w.core % 243) 1).progEvent (coreIdx x.w.core) 12
                (some x.w.region.ctx.num)
            | _ => moved
          told.updGroup x.r fun g => { g with run := { g.run with active := x.active.filter fun l => p l == pc } }) := by
  have hm : (fun (g : Group) => (x.active.map fun l => (l, p l)).foldl
      (fun g e => g.updLane e.1 fun l => { l with pc := Word.ofInt e.2 }) g) =
      fun g => g.updLanes x.active fun l lane => { lane with pc := Word.ofInt (p l) } := by
    funext g; simp only [Group.updLanes, List.foldl_map]
  have hall : ((x.active.map fun l => (l, p l)).all fun e => e.2 == ((x.active.map fun l => (l, p l)).headD (0, 0)).2) =
      x.active.all fun l => p l == p x.low := by
    cases ha : x.active with
    | nil => rfl
    | cons a as => simp [Issue.low, ha, List.all_map, Function.comp_def]
  have hf : ∀ pc : Int, (((x.active.map fun l => (l, p l)).filter fun e => e.2 == pc).map fun e => e.1) =
      x.active.filter fun l => p l == pc := by
    intro pc; simp [List.filter_map, Function.comp_def, List.map_map]
  have hp : ((x.active.map fun l => (l, p l, target l)).map fun e => (e.1, e.2.1)) = x.active.map fun l => (l, p l) := by
    simp [Function.comp_def]
  simp only [Issue.transfer, no_bad_target h, List.isEmpty_nil, Bool.not_true, Bool.false_eq_true, if_false, hp, hm, hall]
  split
  · rfl
  · simp only [hf]
    all_goals (cases c <;> rfl)

/-- A transfer with a misaligned target traps, and no lane moves. -/
theorem transfer_traps (h : (x.active.filter fun l => target l && p l % 3 != 0) ≠ []) :
    x.transfer s c (x.active.map fun l => (l, p l, target l)) =
      .trap { cause := 12, lanes := (x.active.filter fun l => target l && p l % 3 != 0).map fun l => (l, 12) } := by
  have hb : ((x.active.map fun l => (l, p l, target l)).filter fun e => e.2.2 && e.2.1 % 3 != 0) =
      (x.active.filter fun l => target l && p l % 3 != 0).map fun l => (l, p l, target l) := by
    simp [List.filter_map, Function.comp_def]
  have hne : (!((x.active.filter fun l => target l && p l % 3 != 0).map fun l => (l, p l, target l)).isEmpty) = true := by
    simpa using h
  simp only [Issue.transfer, hb, hne, if_true, List.map_map, Function.comp_def]

/-- The lanes and PCs of a jump. -/
theorem jump_eq {choice : List Nat → List Nat → Choice} {sel : Nat → Bool} {dest : Nat → Int} :
    x.jump s choice sel dest =
      x.transfer s (choice (x.active.filter sel) (x.active.filter fun l => !sel l))
        (x.active.map fun l => (l, if sel l then dest l else x.at_ 1, sel l)) := by
  simp only [Issue.jump, List.partition_eq_filter_filter]
  congr 1
  refine List.map_congr_left fun l _ => ?_
  cases sel l <;> rfl

/-- R85: an aligned PC and a whole number of words give an aligned PC. -/
theorem at_aligned (h : x.pc.val % 3 = 0) (n : Int) : x.at_ n % 3 = 0 := by
  have h3 : ((3 ^ 27 : Nat) : Int) = 3 * 2541865828329 := by norm_num
  have hM : (maxMag 27 : Int) = 3812798742493 := by decide
  simp only [Issue.at_, wrapInt, h3, hM]
  omega

end Sys2Proof.Machine
end

