-- ==== Sys2Proof/Laws/Map.lean ====
section
/-! SUPPORT. Sparse maps: reads after writes, and that every operation keeps the canonical form. -/

namespace Sys2Proof.Machine

section
variable {α : Type}

theorem risingFrom_mono {lo lo' : Nat} {m : SMap α} (h : risingFrom lo m = true) (hle : lo' ≤ lo) :
    risingFrom lo' m = true := by
  cases m with
  | nil => rfl
  | cons e rest =>
    simp only [risingFrom, Bool.and_eq_true, decide_eq_true_eq] at h ⊢
    exact ⟨Nat.le_trans hle h.1, h.2⟩

/-- Every key of a rising map is at its bound or above. -/
theorem risingFrom_le {lo : Nat} {m : SMap α} (h : risingFrom lo m = true) {e : Nat × α} (he : e ∈ m) : lo ≤ e.1 := by
  induction m generalizing lo with
  | nil => cases he
  | cons x rest ih =>
    simp only [risingFrom, Bool.and_eq_true, decide_eq_true_eq] at h
    rcases List.mem_cons.mp he with rfl | hm
    · exact h.1
    · have := ih h.2 hm; omega

theorem SMap.get_below (d : α) {lo n : Nat} {m : SMap α} (h : risingFrom lo m = true) (hn : n < lo) : SMap.get d m n = d := by
  induction m generalizing lo with
  | nil => rfl
  | cons e rest ih =>
    simp only [risingFrom, Bool.and_eq_true, decide_eq_true_eq] at h
    have h1 : e.1 ≠ n := by omega
    simp only [SMap.get, h1, if_false]
    exact ih h.2 (by omega)

theorem SMap.find?_below {lo n : Nat} {m : SMap α} (h : risingFrom lo m = true) (hn : n < lo) : SMap.find? m n = none := by
  induction m generalizing lo with
  | nil => rfl
  | cons e rest ih =>
    simp only [risingFrom, Bool.and_eq_true, decide_eq_true_eq] at h
    have h1 : e.1 ≠ n := by omega
    simp only [SMap.find?, h1, if_false]
    exact ih h.2 (by omega)

theorem risingFrom_filter {lo : Nat} {m : SMap α} (p : Nat × α → Bool) (h : risingFrom lo m = true) :
    risingFrom lo (m.filter p : SMap α) = true := by
  induction m generalizing lo with
  | nil => rfl
  | cons e rest ih =>
    simp only [risingFrom, Bool.and_eq_true, decide_eq_true_eq] at h
    simp only [List.filter]
    split
    · simp only [risingFrom, Bool.and_eq_true, decide_eq_true_eq]; exact ⟨h.1, ih h.2⟩
    · exact risingFrom_mono (ih h.2) (by omega)

/-! ## insert and erase -/

theorem SMap.insert_rising {lo n : Nat} (x : α) {m : SMap α} (h : risingFrom lo m = true) (hn : lo ≤ n) :
    risingFrom lo (SMap.insert m n x) = true := by
  induction m generalizing lo with
  | nil => simpa [SMap.insert, risingFrom] using hn
  | cons e rest ih =>
    have h' := h
    simp only [risingFrom, Bool.and_eq_true, decide_eq_true_eq] at h'
    simp only [SMap.insert]
    split
    · rename_i hk; subst hk; simpa [risingFrom] using h'
    · split
      · rename_i hne hlt
        simp only [risingFrom, Bool.and_eq_true, decide_eq_true_eq]
        exact ⟨hn, hlt, h'.2⟩
      · rename_i hne hlt
        simp only [risingFrom, Bool.and_eq_true, decide_eq_true_eq]
        exact ⟨h'.1, ih h'.2 (by omega)⟩

theorem SMap.erase_rising {lo n : Nat} {m : SMap α} (h : risingFrom lo m = true) : risingFrom lo (SMap.erase m n) = true :=
  risingFrom_filter _ h

theorem SMap.mem_insert {n : Nat} {x : α} {m : SMap α} {e : Nat × α} (h : e ∈ SMap.insert m n x) : e ∈ m ∨ e = (n, x) := by
  induction m with
  | nil => exact .inr (List.mem_singleton.mp h)
  | cons y rest ih =>
    simp only [SMap.insert] at h
    split at h
    · rcases List.mem_cons.mp h with h | h
      · exact .inr h
      · exact .inl (List.mem_cons_of_mem _ h)
    · split at h
      · rcases List.mem_cons.mp h with h | h
        · exact .inr h
        · exact .inl h
      · rcases List.mem_cons.mp h with h | h
        · exact .inl (h ▸ List.mem_cons_self)
        · exact (ih h).imp (List.mem_cons_of_mem _) id

theorem SMap.mem_erase {n : Nat} {m : SMap α} {e : Nat × α} (h : e ∈ SMap.erase m n) : e ∈ m := (List.mem_filter.mp h).1

theorem SMap.get_insert_same (d : α) (m : SMap α) (n : Nat) (x : α) : SMap.get d (SMap.insert m n x) n = x := by
  induction m with
  | nil => simp [SMap.insert, SMap.get]
  | cons e rest ih =>
    simp only [SMap.insert]
    split
    · simp [SMap.get]
    · split
      · simp [SMap.get]
      · simp [SMap.get, *]

theorem SMap.get_insert_other (d : α) (m : SMap α) {n k : Nat} (x : α) (hk : k ≠ n) :
    SMap.get d (SMap.insert m n x) k = SMap.get d m k := by
  induction m with
  | nil => simp [SMap.insert, SMap.get, Ne.symm hk]
  | cons e rest ih =>
    simp only [SMap.insert]
    split
    · rename_i he; subst he; simp only [SMap.get, Ne.symm hk, if_false]
    · split
      · simp only [SMap.get, Ne.symm hk, if_false]
      · simp only [SMap.get, ih]

theorem SMap.get_erase_same (d : α) (m : SMap α) (n : Nat) : SMap.get d (SMap.erase m n) n = d := by
  induction m with
  | nil => rfl
  | cons e rest ih =>
    simp only [SMap.erase] at ih ⊢
    by_cases he : e.1 = n
    · rw [List.filter_cons_of_neg (by simp [he])]; exact ih
    · rw [List.filter_cons_of_pos (by simp [he])]; simpa [he, SMap.get] using ih

theorem SMap.get_erase_other (d : α) (m : SMap α) {n k : Nat} (hk : k ≠ n) :
    SMap.get d (SMap.erase m n) k = SMap.get d m k := by
  induction m with
  | nil => rfl
  | cons e rest ih =>
    simp only [SMap.erase] at ih ⊢
    by_cases he : e.1 = n
    · rw [List.filter_cons_of_neg (by simp [he])]; simp [he, SMap.get, Ne.symm hk, ih]
    · rw [List.filter_cons_of_pos (by simp [he])]; simp [SMap.get, ih]

/-! ## set -/

variable [DecidableEq α]

theorem SMap.wf_iff (d : α) (m : SMap α) : SMap.wf d m = true ↔ risingFrom 0 m = true ∧ ∀ e ∈ m, e.2 ≠ d := by
  simp [SMap.wf, List.all_eq_true]

theorem SMap.set_wf (d : α) {m : SMap α} (n : Nat) (x : α) (h : SMap.wf d m = true) : SMap.wf d (SMap.set d m n x) = true := by
  rw [SMap.wf_iff] at h ⊢
  simp only [SMap.set]
  split
  · exact ⟨SMap.erase_rising h.1, fun e he => h.2 e (SMap.mem_erase he)⟩
  · rename_i hx
    refine ⟨SMap.insert_rising x h.1 (Nat.zero_le n), fun e he => ?_⟩
    rcases SMap.mem_insert he with he | rfl
    · exact h.2 e he
    · exact hx

@[simp] theorem SMap.get_set_same (d : α) (m : SMap α) (n : Nat) (x : α) : SMap.get d (SMap.set d m n x) n = x := by
  simp only [SMap.set]
  split
  · rename_i hx; rw [hx]; exact SMap.get_erase_same d m n
  · exact SMap.get_insert_same d m n x

theorem SMap.get_set_other (d : α) (m : SMap α) {n k : Nat} (x : α) (hk : k ≠ n) :
    SMap.get d (SMap.set d m n x) k = SMap.get d m k := by
  simp only [SMap.set]
  split
  · exact SMap.get_erase_other d m hk
  · exact SMap.get_insert_other d m x hk

theorem SMap.wf_nil (d : α) : SMap.wf d ([] : SMap α) = true := rfl

omit [DecidableEq α] in
theorem SMap.ext_from (d : α) {m m' : SMap α} {lo : Nat} (h : risingFrom lo m = true) (h' : risingFrom lo m' = true)
    (hd : ∀ e ∈ m, e.2 ≠ d) (hd' : ∀ e ∈ m', e.2 ≠ d) (heq : ∀ n, SMap.get d m n = SMap.get d m' n) : m = m' := by
  induction m generalizing m' lo with
  | nil =>
    cases m' with
    | nil => rfl
    | cons e rest => exact absurd (by simpa [SMap.get] using (heq e.1).symm) (hd' e List.mem_cons_self)
  | cons e rest ih =>
    cases m' with
    | nil => exact absurd (by simpa [SMap.get] using heq e.1) (hd e List.mem_cons_self)
    | cons e' rest' =>
      simp only [risingFrom, Bool.and_eq_true, decide_eq_true_eq] at h h'
      have hk : e.1 = e'.1 := by
        rcases Nat.lt_trichotomy e.1 e'.1 with hlt | heq' | hgt
        · have h1 : e'.1 ≠ e.1 := by omega
          exact absurd (by simpa [SMap.get, h1, SMap.get_below d h'.2 (show e.1 < e'.1 + 1 by omega)] using heq e.1) (hd e List.mem_cons_self)
        · exact heq'
        · have h1 : e.1 ≠ e'.1 := by omega
          exact absurd (by simpa [SMap.get, h1, SMap.get_below d h.2 (show e'.1 < e.1 + 1 by omega)] using (heq e'.1).symm) (hd' e' List.mem_cons_self)
      have hv : e.2 = e'.2 := by simpa [SMap.get, hk] using heq e.1
      have he : e = e' := Prod.ext hk hv
      subst he
      congr 1
      refine ih h.2 h'.2 (fun x hx => hd x (List.mem_cons_of_mem _ hx)) (fun x hx => hd' x (List.mem_cons_of_mem _ hx))
        fun n => ?_
      by_cases hn : n < e.1 + 1
      · rw [SMap.get_below d h.2 hn, SMap.get_below d h'.2 hn]
      · have h1 : e.1 ≠ n := by omega
        simpa [SMap.get, h1] using heq n

/-- Two maps in canonical form with the same readings are one list. -/
theorem SMap.wf_ext (d : α) {m m' : SMap α} (h : SMap.wf d m = true) (h' : SMap.wf d m' = true)
    (heq : ∀ n, SMap.get d m n = SMap.get d m' n) : m = m' := by
  rw [SMap.wf_iff] at h h'
  exact SMap.ext_from d h.1 h'.1 h.2 h'.2 heq

/-! ## filter, clear and runs -/

theorem SMap.filter_wf (d : α) {m : SMap α} (p : Nat × α → Bool) (h : SMap.wf d m = true) :
    SMap.wf d (m.filter p : SMap α) = true := by
  rw [SMap.wf_iff] at h ⊢
  exact ⟨risingFrom_filter p h.1, fun e he => h.2 e (List.mem_filter.mp he).1⟩

theorem SMap.clear_wf (d : α) {m : SMap α} (lo hi : Nat) (h : SMap.wf d m = true) : SMap.wf d (SMap.clear m lo hi) = true :=
  SMap.filter_wf d _ h

omit [DecidableEq α] in
theorem zipRun_rising (xs : List α) (n k lo : Nat) (rest : SMap α) (hlo : lo ≤ n + k)
    (hr : risingFrom (n + k + xs.length) rest = true) :
    risingFrom lo (((List.range' k xs.length).zipWith (fun i x => (n + i, x)) xs) ++ rest : SMap α) = true := by
  induction xs generalizing k lo with
  | nil => simpa using risingFrom_mono hr (by simpa using hlo)
  | cons x xs ih =>
    simp only [List.length_cons, List.range'_succ, List.zipWith_cons_cons, List.cons_append, risingFrom, Bool.and_eq_true,
      decide_eq_true_eq]
    exact ⟨hlo, ih (k + 1) (n + k + 1) (by omega) (by simpa [Nat.add_assoc, Nat.add_comm 1] using hr)⟩

omit [DecidableEq α] in
/-- Of a map whose keys are n and above, what lies outside a run from n lies above it. -/
theorem risingFrom_drop {n len : Nat} {m : SMap α} (h : risingFrom n m = true) :
    risingFrom (n + len) (m.filter (fun e => decide (e.1 < n) || decide (n + len ≤ e.1)) : SMap α) = true := by
  suffices ∀ lo, n ≤ lo → risingFrom lo m = true →
      risingFrom (n + len) (m.filter (fun e => decide (e.1 < n) || decide (n + len ≤ e.1)) : SMap α) = true from
    this n (Nat.le_refl n) h
  clear h
  induction m with
  | nil => intros; rfl
  | cons e rest ih =>
    intro lo hlo h
    simp only [risingFrom, Bool.and_eq_true, decide_eq_true_eq] at h
    simp only [List.filter]
    split
    · rename_i hb
      have hb' : n + len ≤ e.1 := by simp at hb; omega
      simp only [risingFrom, Bool.and_eq_true, decide_eq_true_eq]
      exact ⟨hb', risingFrom_filter _ h.2⟩
    · exact ih (e.1 + 1) (by omega) h.2

omit [DecidableEq α] in
theorem SMap.insertRun_rising {lo n : Nat} (xs : List α) {m : SMap α} (h : risingFrom lo m = true) (hn : lo ≤ n) :
    risingFrom lo (SMap.insertRun m n xs) = true := by
  induction m generalizing lo with
  | nil =>
    have := zipRun_rising xs n 0 lo [] (by omega) rfl
    simpa [SMap.insertRun, List.range_eq_range'] using this
  | cons e rest ih =>
    have h' := h
    simp only [risingFrom, Bool.and_eq_true, decide_eq_true_eq] at h'
    simp only [SMap.insertRun]
    split
    · rename_i hlt
      simp only [risingFrom, Bool.and_eq_true, decide_eq_true_eq]
      exact ⟨h'.1, ih h'.2 hlt⟩
    · rename_i hlt
      have he : risingFrom n (e :: rest : SMap α) = true := by
        simp only [risingFrom, Bool.and_eq_true, decide_eq_true_eq]; exact ⟨by omega, h'.2⟩
      have := zipRun_rising xs n 0 lo ((e :: rest).filter fun x => decide (x.1 < n) || decide (n + xs.length ≤ x.1)) (by omega)
        (by simpa using risingFrom_drop (len := xs.length) he)
      simpa only [List.range_eq_range', Nat.add_zero] using this

/-! ## Reading a run back -/

omit [DecidableEq α] in
theorem SMap.find?_zip_in (xs : List α) (n k i : Nat) (rest : SMap α) (hi : i < xs.length) :
    SMap.find? (((List.range' k xs.length).zipWith (fun i x => (n + i, x)) xs) ++ rest : SMap α) (n + k + i) = xs[i]? := by
  induction xs generalizing k i with
  | nil => simp at hi
  | cons x xs ih =>
    simp only [List.length_cons, List.range'_succ, List.zipWith_cons_cons, List.cons_append, SMap.find?]
    cases i with
    | zero => simp
    | succ i =>
      have h1 : n + k ≠ n + k + (i + 1) := by omega
      simp only [h1, if_false, List.getElem?_cons_succ]
      rw [← ih (k + 1) i (by simpa using hi)]
      congr 1
      omega

omit [DecidableEq α] in
theorem SMap.find?_zip_out (xs : List α) (n k j : Nat) (rest : SMap α) (hj : j < n + k ∨ n + k + xs.length ≤ j) :
    SMap.find? (((List.range' k xs.length).zipWith (fun i x => (n + i, x)) xs) ++ rest : SMap α) j = SMap.find? rest j := by
  induction xs generalizing k with
  | nil => rfl
  | cons x xs ih =>
    simp only [List.length_cons] at hj
    simp only [List.length_cons, List.range'_succ, List.zipWith_cons_cons, List.cons_append, SMap.find?]
    have h1 : n + k ≠ j := by omega
    simp only [h1, if_false]
    exact ih (k + 1) (by omega)

omit [DecidableEq α] in
/-- Dropping a run of keys leaves every key outside it. -/
theorem SMap.find?_drop (m : SMap α) {n len j : Nat} (hj : j < n ∨ n + len ≤ j) :
    SMap.find? (m.filter (fun e => decide (e.1 < n) || decide (n + len ≤ e.1)) : SMap α) j = SMap.find? m j := by
  induction m with
  | nil => rfl
  | cons e rest ih =>
    simp only [List.filter]
    split
    · simp only [SMap.find?, ih]
    · rename_i hb
      have h1 : e.1 ≠ j := by simp at hb; omega
      simp only [SMap.find?, h1, if_false, ih]

omit [DecidableEq α] in
/-- A run that is listed reads back inside it. -/
theorem SMap.find?_insertRun_in (m : SMap α) (n i : Nat) (xs : List α) (hi : i < xs.length) :
    SMap.find? (SMap.insertRun m n xs) (n + i) = xs[i]? := by
  induction m with
  | nil =>
    have := SMap.find?_zip_in xs n 0 i [] hi
    simpa [SMap.insertRun, List.range_eq_range'] using this
  | cons e rest ih =>
    simp only [SMap.insertRun]
    split
    · rename_i hlt
      have h1 : e.1 ≠ n + i := by omega
      simp only [SMap.find?, h1, if_false, ih]
    · have := SMap.find?_zip_in xs n 0 i ((e :: rest).filter fun x => decide (x.1 < n) || decide (n + xs.length ≤ x.1)) hi
      simpa only [List.range_eq_range', Nat.add_zero] using this

omit [DecidableEq α] in
/-- A run that is listed leaves every key outside it. -/
theorem SMap.find?_insertRun_out (m : SMap α) {n j : Nat} (xs : List α) (hj : j < n ∨ n + xs.length ≤ j) :
    SMap.find? (SMap.insertRun m n xs) j = SMap.find? m j := by
  induction m with
  | nil => simpa [SMap.insertRun, List.range_eq_range', SMap.find?] using SMap.find?_zip_out xs n 0 j [] (by omega)
  | cons e rest ih =>
    simp only [SMap.insertRun]
    split
    · simp only [SMap.find?, ih]
    · have := SMap.find?_zip_out xs n 0 j ((e :: rest).filter fun x => decide (x.1 < n) || decide (n + xs.length ≤ x.1)) (by omega)
      rw [SMap.find?_drop _ hj] at this
      simpa only [List.range_eq_range', Nat.add_zero] using this

end

end Sys2Proof.Machine
end

