-- ==== Sys2Proof/Laws/Memory.lean ====
section
/-! SUPPORT. Every memory operation of Store.lean, Access.lean and Elem.lean keeps the canonical form of memory, and reads
after writes of its three stores. -/

namespace Sys2Proof.Machine

/-! ## The three stores -/

theorem Memory.wf_iff (s : State) :
    Memory.wf s = true ↔ risingFrom 0 s.dram = true ∧ SMap.wf zeroT s.scr = true ∧ SMap.wf zeroT s.chip = true := by
  simp [Memory.wf, and_assoc]

theorem Memory.wf_reset : Memory.wf State.reset = true := rfl

/-- The form rests on the three stores alone. -/
theorem Memory.wf_congr {s t : State} (h1 : t.dram = s.dram) (h2 : t.scr = s.scr) (h3 : t.chip = s.chip) :
    Memory.wf t = Memory.wf s := by simp [Memory.wf, h1, h2, h3]

@[simp] theorem scrSet_wf {s : State} (core off : Nat) (v : Tryte) (h : Memory.wf s = true) :
    Memory.wf (s.scrSet core off v) = true := by
  rw [Memory.wf_iff] at h ⊢
  exact ⟨h.1, SMap.set_wf zeroT _ v h.2.1, h.2.2⟩

@[simp] theorem chipSet_wf {s : State} (die off : Nat) (v : Tryte) (h : Memory.wf s = true) :
    Memory.wf (s.chipSet die off v) = true := by
  rw [Memory.wf_iff] at h ⊢
  exact ⟨h.1, h.2.1, SMap.set_wf zeroT _ v h.2.2⟩

@[simp] theorem writeDram_wf {s : State} (die : Nat) (lp : Bool) (byte : Nat) (bs : List Byte) (h : Memory.wf s = true) :
    Memory.wf (s.writeDram die lp byte bs) = true := by
  rw [Memory.wf_iff] at h ⊢
  exact ⟨SMap.insertRun_rising bs h.1 (Nat.zero_le _), h.2.1, h.2.2⟩

@[simp] theorem writeSlot_wf {s : State} (die : Nat) (lp : Bool) (slot kind : Nat) (line : List Int)
    (h : Memory.wf s = true) : Memory.wf (s.writeSlot die lp slot kind line) = true := by
  simp [State.writeSlot, h]

theorem scrGet_scrSet_same {s : State} (core off : Nat) (v : Tryte) :
    (s.scrSet core off v).scrGet core off = v :=
  SMap.get_set_same zeroT _ _ v

theorem scrGet_scrSet_other {s : State} {core off core' off' : Nat} (v : Tryte)
    (hne : core' * scrSize + off' ≠ core * scrSize + off) : (s.scrSet core off v).scrGet core' off' = s.scrGet core' off' :=
  SMap.get_set_other zeroT _ v hne

@[simp] theorem chipGet_chipSet_same {s : State} (die off : Nat) (v : Tryte) :
    (s.chipSet die off v).chipGet die off = v :=
  SMap.get_set_same zeroT _ _ v

theorem chipGet_chipSet_other {s : State} {die off die' off' : Nat} (v : Tryte)
    (hne : die' * chipSize + off' ≠ die * chipSize + off) : (s.chipSet die off v).chipGet die' off' = s.chipGet die' off' :=
  SMap.get_set_other zeroT _ v hne

theorem dramAt_writeDram_in {s : State} (die : Nat) (lp : Bool) (byte i : Nat) (bs : List Byte) (hi : i < bs.length) :
    (s.writeDram die lp byte bs).dramAt die lp (byte + i) = bs[i]? := by
  simp only [State.dramAt, State.writeDram, dramKey, ← Nat.add_assoc]
  exact SMap.find?_insertRun_in s.dram _ i bs hi

theorem dramAt_writeDram_out {s : State} {die die' : Nat} {lp lp' : Bool} {byte byte' : Nat} (bs : List Byte)
    (hne : dramKey die' lp' byte' < dramKey die lp byte ∨ dramKey die lp byte + bs.length ≤ dramKey die' lp' byte') :
    (s.writeDram die lp byte bs).dramAt die' lp' byte' = s.dramAt die' lp' byte' :=
  SMap.find?_insertRun_out _ bs hne

/-! ## Operations beside the three stores -/

@[simp] theorem updCore_wf (s : State) (core : Nat) (f : CoreState → CoreState) :
    Memory.wf (s.updCore core f) = Memory.wf s := rfl
@[simp] theorem updGroup_wf (s : State) (r : GroupRef) (f : Group → Group) : Memory.wf (s.updGroup r f) = Memory.wf s := rfl
@[simp] theorem updWg_wf (s : State) (id : Nat) (f : Workgroup → Workgroup) : Memory.wf (s.updWg id f) = Memory.wf s := rfl
@[simp] theorem updUnit_wf (s : State) (clu : Nat) (f : MatUnit → MatUnit) : Memory.wf (s.updUnit clu f) = Memory.wf s := rfl
@[simp] theorem bump_wf (s : State) (k d i n : Nat) : Memory.wf (s.bump k d i n) = Memory.wf s := rfl
@[simp] theorem burst_wf (s : State) (d c : Nat) (w : Bool) : Memory.wf (s.burst d c w) = Memory.wf s := rfl
@[simp] theorem pick_wf (s : State) (k : Nat) : Memory.wf (s.pick k).2 = Memory.wf s := rfl
@[simp] theorem flip_wf (s : State) : Memory.wf s.flip.2 = Memory.wf s := rfl
@[simp] theorem progEvent_wf (s : State) (core code : Nat) (ctx : Option Nat) :
    Memory.wf (s.progEvent core code ctx) = Memory.wf s := by
  simp only [State.progEvent]; split <;> rfl
@[simp] theorem llcPut_wf (s : State) (die : Nat) (l : LLine) : Memory.wf (s.llcPut die l) = Memory.wf s := by
  simp only [State.llcPut]; split <;> rfl
@[simp] theorem llcDrop_wf (s : State) (die : Nat) (k : LineKey) : Memory.wf (s.llcDrop die k) = Memory.wf s := rfl
@[simp] theorem dropUpdates_wf (s : State) (a b : Nat) (k : LineKey) (ts : List Nat) :
    Memory.wf (s.dropUpdates a b k ts) = Memory.wf s := rfl
@[simp] theorem sendUpdates_wf (s : State) (die : Nat) (p : LinePlace) (vals : List (Nat × Tryte)) :
    Memory.wf (s.sendUpdates die p vals) = Memory.wf s := rfl
@[simp] theorem repairRegs_wf (s : State) (r : GroupRef) (ls : List Nat) (rs : List RegName) : Memory.wf (s.repairRegs r ls rs) = Memory.wf s := rfl
@[simp] theorem wakeHalts_wf (s : State) (p : Workgroup → Bool) : Memory.wf (s.wakeHalts p) = Memory.wf s := rfl

theorem foldl_burst_wf (xs : List Nat) (s : State) (d c : Nat) :
    Memory.wf (xs.foldl (fun s _ => s.burst d c false) s) = Memory.wf s := by
  induction xs generalizing s with
  | nil => rfl
  | cons x xs ih => simpa using ih (s.burst d c false)

/-- A fold of steps that keep the form keeps it. -/
theorem foldl_wf {β : Type} {f : State → β → State} (hf : ∀ s b, Memory.wf s = true → Memory.wf (f s b) = true) (xs : List β)
    {s : State} (h : Memory.wf s = true) : Memory.wf (xs.foldl f s) = true := by
  induction xs generalizing s with
  | nil => exact h
  | cons x xs ih => exact ih (hf s x h)

theorem foldl_fst_wf {β γ : Type} {f : State × γ → β → State × γ}
    (hf : ∀ a b, Memory.wf a.1 = true → Memory.wf (f a b).1 = true) (xs : List β) {a : State × γ} (h : Memory.wf a.1 = true) :
    Memory.wf (xs.foldl f a).1 = true := by
  induction xs generalizing a with
  | nil => exact h
  | cons x xs ih => exact ih (hf a x h)

theorem foldE_wf {β ε : Type} {f : State → β → Except ε State}
    (hf : ∀ s b t, f s b = .ok t → Memory.wf s = true → Memory.wf t = true) (xs : List β) {s t : State}
    (he : foldE f s xs = .ok t) (h : Memory.wf s = true) : Memory.wf t = true := by
  induction xs generalizing s with
  | nil => simp only [foldE, Except.ok.injEq] at he; exact he ▸ h
  | cons x xs ih =>
    simp only [foldE] at he
    split at he
    · rename_i s' hs; exact ih he (hf s x s' hs h)
    · exact absurd he (by simp)

/-- What a chain of steps that may fail passes through. -/
theorem bind_ok {ε α β : Type} {a : Except ε α} {f : α → Except ε β} {b : β} (h : (a >>= f) = .ok b) :
    ∃ x, a = .ok x ∧ f x = .ok b := by
  cases a with
  | error e => exact absurd h (by simp [bind, Except.bind])
  | ok x => exact ⟨x, rfl, h⟩

/-! ## The last-level caches -/

@[simp] theorem readBursts_wf (s : State) (d c n : Nat) : Memory.wf (s.readBursts d c n) = Memory.wf s := foldl_burst_wf _ s d c

theorem fetchSlots_wf {s t : State} {p : LinePlace} {l : LLine} (he : s.fetchSlots p = .ok (t, l)) (h : Memory.wf s = true) :
    Memory.wf t = true := by
  obtain ⟨slots, -, he⟩ := bind_ok he
  simp only at he
  split at he
  · split at he
    · exact absurd he (by simp)
    · simp only [Except.ok.injEq, Prod.mk.injEq] at he
      rw [← he.1, readBursts_wf]; exact h
  · simp only [Except.ok.injEq, Prod.mk.injEq] at he
    rw [← he.1, readBursts_wf]; exact h

theorem fetchLine_wf {s t : State} {p : LinePlace} {l : LLine} (he : s.fetchLine p = .ok (t, l)) (h : Memory.wf s = true) :
    Memory.wf t = true := by
  simp only [State.fetchLine] at he
  split at he
  · simp only [State.fetchBytesLine, Except.ok.injEq, Prod.mk.injEq] at he
    rw [← he.1, burst_wf]; exact h
  · exact fetchSlots_wf he h

@[simp] theorem refusedFill_wf (s : State) (p : LinePlace) : Memory.wf (s.refusedFill p) = Memory.wf s := by
  simp only [State.refusedFill]
  split
  · rfl
  · split
    · rfl
    · exact readBursts_wf _ _ _ _

theorem homeLine_wf {s t : State} {p : LinePlace} {whole : Bool} {l : LLine} (he : s.homeLine p whole = some (t, l))
    (h : Memory.wf s = true) : Memory.wf t = true := by
  simp only [State.homeLine] at he
  split at he
  · simp only [Option.some.injEq, Prod.mk.injEq] at he; exact he.1 ▸ h
  split at he
  · simp only [Option.some.injEq, Prod.mk.injEq] at he; exact he.1 ▸ h
  · cases hf : s.fetchLine p with
    | error e => rw [hf] at he; exact absurd he (by simp [Except.toOption])
    | ok x => rw [hf] at he; simp only [Except.toOption, Option.some.injEq] at he; subst he; exact fetchLine_wf hf h

theorem applyUpdate_wf {s : State} (n : Nat) (h : Memory.wf s = true) : Memory.wf (s.applyUpdate n) = true := by
  have h' : ∀ us, Memory.wf { s with copyUpdates := us } = true := fun _ => h
  simp only [State.applyUpdate]
  split
  · exact h
  split
  · split
    · exact h' _
    · rename_i hl
      have hs := homeLine_wf hl (h' _)
      have key : ∀ t : State, Memory.wf t = true → ∀ a b k l ts us,
          Memory.wf { (t.llcPut a l).dropUpdates a b k ts with copyUpdates := us } = true := by
        intro t ht a b k l ts us
        exact (Memory.wf_congr (s := (t.llcPut a l).dropUpdates a b k ts) rfl rfl rfl).trans (by simpa using ht)
      exact key _ hs _ _ _ _ _ _
  · split
    · exact h' _
    · rw [llcPut_wf]; exact h' _

theorem drainFuel_wf (n : Nat) {s : State} (pick : State → Option Nat) (h : Memory.wf s = true) :
    Memory.wf (drainFuel n s pick) = true := by
  induction n generalizing s with
  | zero => exact h
  | succ n ih =>
    simp only [drainFuel]
    split
    · exact h
    · exact ih (applyUpdate_wf _ h)

theorem drainWhere_wf {s : State} (p : CopyUpdate → Bool) (h : Memory.wf s = true) : Memory.wf (s.drainWhere p) = true :=
  drainFuel_wf _ _ h

@[simp] theorem drainUpdates_wf {s : State} (h : Memory.wf s = true) : Memory.wf s.drainUpdates = true := drainWhere_wf _ h
@[simp] theorem drainLine_wf {s : State} (die : Nat) (k : LineKey) (h : Memory.wf s = true) :
    Memory.wf (s.drainLine die k) = true := drainWhere_wf _ h
@[simp] theorem drainKey_wf {s : State} (k : LineKey) (h : Memory.wf s = true) : Memory.wf (s.drainKey k) = true :=
  drainWhere_wf _ h
@[simp] theorem drainFor_wf {s : State} (die : Nat) (dies : List Nat) (ls : Lines) (h : Memory.wf s = true) :
    Memory.wf (s.drainFor die dies ls) = true := drainFuel_wf _ _ h

@[simp] theorem llcDropAll_wf (s : State) (k : LineKey) : Memory.wf (s.llcDropAll k) = Memory.wf s := rfl

theorem evictPacked_wf {s t : State} {die : Nat} {l : LLine} (he : s.evictPacked die l = some t) (h : Memory.wf s = true) :
    Memory.wf t = true := by
  simp only [State.evictPacked] at he
  split at he
  · exact absurd he (by simp)
  split at he
  · simp only [Option.some.injEq] at he; rw [← he, llcDrop_wf]; exact h
  split at he
  · simp only [Option.some.injEq] at he; rw [← he, llcDropAll_wf, burst_wf]; exact writeDram_wf _ _ _ _ h
  split at he
  · simp only [Option.some.injEq] at he; rw [← he, llcDropAll_wf, burst_wf]; exact writeSlot_wf _ _ _ _ _ h
  · simp only [Option.some.injEq] at he; rw [← he]; simpa using h

@[simp] theorem flushKey_wf {s : State} (k : LineKey) (h : Memory.wf s = true) : Memory.wf (s.flushKey k) = true := by
  have h1 := drainKey_wf k h
  simp only [State.flushKey]
  generalize hu : ({ s.drainKey k with llc := (s.drainKey k).llc.filter fun e => !(e.2.key == k && e.1 != k.die && e.2.bad.isEmpty) } :
    State) = u
  have h2 : Memory.wf u = true := hu ▸ h1
  cases he : (u.llcFind k.die k).bind (u.evictPacked k.die) with
  | none => simpa only [Option.getD_none] using h2
  | some t =>
    obtain ⟨l, -, hl⟩ := Option.bind_eq_some_iff.mp he
    simpa only [Option.getD_some] using evictPacked_wf hl h2

@[simp] theorem separate_wf {s : State} (k : LineKey) (h : Memory.wf s = true) : Memory.wf (s.separate k) = true := by
  simp only [State.separate]; split
  · exact flushKey_wf _ h
  · exact h

theorem homeEnsure_wf {s t : State} {p : LinePlace} (he : s.homeEnsure p = .ok t) (h : Memory.wf s = true) :
    Memory.wf t = true := by
  simp only [State.homeEnsure] at he
  split at he
  · simp only [Except.ok.injEq] at he; exact he ▸ h
  obtain ⟨x, hx, he⟩ := bind_ok he
  simp only [Except.ok.injEq] at he
  rw [← he, llcPut_wf]; exact fetchLine_wf hx (separate_wf _ h)

theorem llcEnsure_wf {s t : State} {die : Nat} {p : LinePlace} (he : s.llcEnsure die p = .ok t) (h : Memory.wf s = true) :
    Memory.wf t = true := by
  simp only [State.llcEnsure] at he
  split at he
  · exact absurd he (by simp)
  split at he
  · simp only [Except.ok.injEq] at he; exact he ▸ h
  split at he
  · exact homeEnsure_wf he h
  obtain ⟨s1, h1, he⟩ := bind_ok he
  have hs1 := drainWhere_wf (fun u => u.src == p.key.die && u.dst == lineDie p.key die) (homeEnsure_wf h1 (drainWhere_wf _ h))
  split at he
  · exact absurd he (by simp)
  split at he
  · exact absurd he (by simp)
  · simp only [Except.ok.injEq] at he; rw [← he, llcPut_wf]; exact hs1

theorem llcRead_wf {s t : State} {die : Nat} {p : LinePlace} {ts : List Nat} {vs : List Tryte}
    (he : s.llcRead die p ts = .ok (t, vs)) (h : Memory.wf s = true) : Memory.wf t = true := by
  obtain ⟨s1, h1, he⟩ := bind_ok he
  have hs1 := llcEnsure_wf h1 h
  split at he
  · exact absurd he (by simp)
  split at he
  · exact absurd he (by simp)
  · simp only [Except.ok.injEq, Prod.mk.injEq] at he; exact he.1 ▸ hs1

theorem llcBlank_wf {s t : State} {die : Nat} {p : LinePlace} (he : s.llcBlank die p = .ok t) (h : Memory.wf s = true) :
    Memory.wf t = true := by
  simp only [State.llcBlank] at he
  split at he
  · exact absurd he (by simp)
  split at he
  · simp only [Except.ok.injEq] at he; exact he ▸ h
  · simp only [Except.ok.injEq] at he; rw [← he]; exact separate_wf _ h

theorem llcWrite_wf {s t : State} {die : Nat} {p : LinePlace} {vals : List (Nat × Tryte)}
    (he : s.llcWrite die p vals = .ok t) (h : Memory.wf s = true) : Memory.wf t = true := by
  simp only [State.llcWrite] at he
  obtain ⟨s1, h1, he⟩ := bind_ok he
  have hs1 : Memory.wf s1 = true := by
    split at h1
    · exact llcBlank_wf h1 h
    · exact llcEnsure_wf h1 h
  split at he
  · exact absurd he (by simp)
  · simp only [Except.ok.injEq] at he; rw [← he]; simpa using hs1

theorem homeRead_wf {s t : State} {die : Nat} {p : LinePlace} {ts : List Nat} {vs : List Tryte}
    (he : s.homeRead die p ts = .ok (t, vs)) (h : Memory.wf s = true) : Memory.wf t = true := by
  simp only [State.homeRead] at he
  refine llcRead_wf he ?_
  split
  · exact h
  · exact drainLine_wf _ _ h

theorem homeWrite_wf {s t : State} {p : LinePlace} {vals : List (Nat × Tryte)} (he : s.homeWrite p vals = .ok t)
    (h : Memory.wf s = true) : Memory.wf t = true := by
  obtain ⟨s1, h1, he⟩ := bind_ok he
  simp only [Except.ok.injEq] at he
  rw [← he]; exact drainLine_wf _ _ (llcWrite_wf h1 h)

theorem dropBytes_wf {s : State} (die : Nat) (lp : Bool) (byte n : Nat) (h : Memory.wf s = true) :
    Memory.wf (s.dropBytes die lp byte n) = true :=
  foldl_wf (fun _ k h => flushKey_wf k h) _ h

/-! ## Walks and structures -/

theorem placeWord_wf {s t : State} {die : Nat} {p : LinePlace} {v : Int} (he : s.placeWord die p = .ok (t, v))
    (h : Memory.wf s = true) : Memory.wf t = true := by
  obtain ⟨x, hx, he⟩ := bind_ok he
  simp only [Except.ok.injEq, Prod.mk.injEq] at he
  exact he.1 ▸ llcRead_wf hx h

theorem walkFrom_wf (fuel : Nat) {s t : State} {w : Who} {tab pn : Int} {level : Nat} {e : TlbEntry}
    (he : walkFrom fuel s w tab pn level = .ok (t, e)) (h : Memory.wf s = true) : Memory.wf t = true := by
  induction fuel generalizing s tab level with
  | zero => exact absurd he (by simp [walkFrom])
  | succ fuel ih =>
    simp only [walkFrom] at he
    obtain ⟨p, -, he⟩ := bind_ok he
    obtain ⟨x, hx, he⟩ := bind_ok he
    have hs := placeWord_wf hx h
    split at he
    · exact absurd he (by simp)
    split at he
    · exact ih he hs
    split at he
    · exact absurd he (by simp)
    · simp only [Except.ok.injEq, Prod.mk.injEq] at he; exact he.1 ▸ hs

theorem walk_wf {s t : State} {w : Who} {pn : Int} {e : TlbEntry} (he : s.walk w pn = .ok (t, e)) (h : Memory.wf s = true) :
    Memory.wf t = true := by
  simp only [State.walk] at he
  split at he
  · exact absurd he (by simp)
  · exact walkFrom_wf 3 he h

theorem walkFor_wf {s t : State} {w : Who} {pn : Int} {e : TlbEntry} (he : s.walkFor w pn = .ok (t, e))
    (h : Memory.wf s = true) : Memory.wf t = true := by
  simp only [State.walkFor] at he
  split at he
  · exact walk_wf he (by simpa using h)
  · exact walk_wf he h

theorem setLeaf_wf {s t : State} {w : Who} {e : TlbEntry} {r : Option TlbEntry} {i : Nat} (he : s.setLeaf w e i = .ok (t, r))
    (h : Memory.wf s = true) : Memory.wf t = true := by
  simp only [State.setLeaf] at he
  obtain ⟨p, -, he⟩ := bind_ok he
  obtain ⟨x, hx, he⟩ := bind_ok he
  have hs := homeRead_wf hx h
  split at he
  · simp only [Except.ok.injEq, Prod.mk.injEq] at he; exact he.1 ▸ hs
  obtain ⟨s1, h1, he⟩ := bind_ok he
  simp only [Except.ok.injEq, Prod.mk.injEq] at he
  exact he.1 ▸ homeWrite_wf h1 hs

theorem markLeaf_wf {s t : State} {w : Who} {pn : Int} {e e' : TlbEntry} {i : Nat} (he : s.markLeaf w pn e i = .ok (t, e'))
    (h : Memory.wf s = true) : Memory.wf t = true := by
  simp only [State.markLeaf] at he
  split at he
  · simp only [Except.ok.injEq, Prod.mk.injEq] at he; exact he.1 ▸ h
  obtain ⟨x, hx, he⟩ := bind_ok he
  have hs := setLeaf_wf hx h
  split at he
  · simp only [Except.ok.injEq, Prod.mk.injEq] at he; exact he.1 ▸ hs
  obtain ⟨y, hy, he⟩ := bind_ok he
  have hs := walkFor_wf hy (drainUpdates_wf hs)
  split at he
  · simp only [Except.ok.injEq, Prod.mk.injEq] at he; exact he.1 ▸ hs
  obtain ⟨z, hz, he⟩ := bind_ok he
  simp only [Except.ok.injEq, Prod.mk.injEq] at he
  exact he.1 ▸ setLeaf_wf hz hs

theorem structPlace_wf {s t : State} {w : Who} {va : Int} {p : LinePlace} (he : s.structPlace w va = .ok (t, p))
    (h : Memory.wf s = true) : Memory.wf t = true := by
  obtain ⟨x, hx, he⟩ := bind_ok he
  obtain ⟨q, -, he⟩ := bind_ok he
  simp only [Except.ok.injEq, Prod.mk.injEq] at he
  exact he.1 ▸ walk_wf hx h

theorem structRead_wf (n : Nat) {s t : State} {w : Who} {va : Int} {vs : List Int}
    (he : s.structRead w va n = .ok (t, vs)) (h : Memory.wf s = true) : Memory.wf t = true := by
  induction n generalizing s t va vs with
  | zero => simp only [State.structRead, Except.ok.injEq, Prod.mk.injEq] at he; exact he.1 ▸ h
  | succ n ih =>
    simp only [State.structRead] at he
    obtain ⟨x, hx, he⟩ := bind_ok he
    obtain ⟨y, hy, he⟩ := bind_ok he
    obtain ⟨z, hz, he⟩ := bind_ok he
    simp only [Except.ok.injEq, Prod.mk.injEq] at he
    exact he.1 ▸ ih hz (placeWord_wf hy (structPlace_wf hx h))

theorem structWriteFuel_wf (n : Nat) {s t : State} {w : Who} {va : Int} {vs : List Int}
    (he : State.structWriteFuel n s w va vs = .ok t) (h : Memory.wf s = true) : Memory.wf t = true := by
  induction n generalizing s t va vs with
  | zero => simp only [State.structWriteFuel, Except.ok.injEq] at he; exact he ▸ h
  | succ n ih =>
    cases vs with
    | nil => simp only [State.structWriteFuel, Except.ok.injEq] at he; exact he ▸ h
    | cons v vs =>
      simp only [State.structWriteFuel] at he
      obtain ⟨x, hx, he⟩ := bind_ok he
      obtain ⟨y, hy, he⟩ := bind_ok he
      exact ih he (llcWrite_wf hy (structPlace_wf hx h))

theorem structWrite_wf {s t : State} {w : Who} {va : Int} {vs : List Int} (he : s.structWrite w va vs = .ok t)
    (h : Memory.wf s = true) : Memory.wf t = true := structWriteFuel_wf _ he h

/-! ## Translation -/

theorem addCapped_wf {α : Type} (s : State) (cap : Nat) (xs : List α) (x : α) :
    Memory.wf (s.addCapped cap xs x).2 = Memory.wf s := by
  simp only [State.addCapped]; split <;> rfl

@[simp] theorem coreEnter_wf {s : State} (core : Nat) (e : TlbEntry) (h : Memory.wf s = true) :
    Memory.wf (s.coreEnter core e) = true := by
  simp only [State.coreEnter]
  rw [updCore_wf, addCapped_wf]; exact h

@[simp] theorem tlbEnter_wf {s : State} (core : Nat) (e : TlbEntry) (h : Memory.wf s = true) :
    Memory.wf (s.tlbEnter core e) = true := by
  simp only [State.tlbEnter]
  have key : ∀ (t : State) m, Memory.wf t = true → Memory.wf { t with ctlbs := m } = true := fun _ _ ht => ht
  refine key _ _ ?_
  rw [addCapped_wf]; exact coreEnter_wf _ _ h

theorem enterLeaf_wf {s t : State} {w : Who} {core : Nat} {pn : Int} {e e' : TlbEntry}
    (he : s.enterLeaf w core pn e = .ok (t, e')) (h : Memory.wf s = true) : Memory.wf t = true := by
  obtain ⟨x, hx, he⟩ := bind_ok he
  simp only [Except.ok.injEq, Prod.mk.injEq] at he
  rw [← he.1]
  exact tlbEnter_wf _ _ (markLeaf_wf hx h)

theorem leafHeld_wf {s t : State} {w : Who} {core : Nat} {pn : Int} {e e' : TlbEntry} (he : s.leafHeld w core pn e = .ok (t, e'))
    (h : Memory.wf s = true) : Memory.wf t = true := by
  simp only [State.leafHeld] at he
  split at he
  · rename_i s' e' hw
    split at he
    · simp only [Except.ok.injEq, Prod.mk.injEq] at he; exact he.1 ▸ h
    · split at he
      · simp only [Except.ok.injEq, Prod.mk.injEq] at he; rw [← he.1]; simpa using h
      · have hs' := walkFor_wf hw h
        exact enterLeaf_wf he hs'
  · split at he
    · simp only [Except.ok.injEq, Prod.mk.injEq] at he; rw [← he.1]; simpa using h
    · exact absurd he (by simp)

theorem leafOf_wf {s t : State} {w : Who} {pn : Int} {e : TlbEntry} (he : s.leafOf w pn = .ok (t, e))
    (h : Memory.wf s = true) : Memory.wf t = true := by
  simp only [State.leafOf] at he
  split at he
  · exact walk_wf he h
  split at he
  · exact leafHeld_wf he h
  split at he
  · exact leafHeld_wf he (coreEnter_wf _ _ (by simpa using h))
  · obtain ⟨x, hx, he⟩ := bind_ok he
    exact enterLeaf_wf he (walkFor_wf hx (by simpa using h))

@[simp] theorem refusedAccess_wf {s : State} (w : Who) (len : Nat) (va : Int) (h : Memory.wf s = true) :
    Memory.wf (s.refusedAccess w len va) = true := by
  simp only [State.refusedAccess]
  split
  · exact h
  split
  · exact leafOf_wf ‹_› h
  · exact h
  · rw [progEvent_wf]; split
    · exact h
    · simpa using h

theorem leafForWrite_wf {s t : State} {w : Who} {pn : Int} {e e' : TlbEntry} (he : s.leafForWrite w pn e = .ok (t, e'))
    (h : Memory.wf s = true) : Memory.wf t = true := by
  simp only [State.leafForWrite] at he
  split at he
  · simp only [Except.ok.injEq, Prod.mk.injEq] at he; exact he.1 ▸ h
  obtain ⟨x, hx, he⟩ := bind_ok he
  obtain ⟨y, hy, he⟩ := bind_ok he
  have hs : Memory.wf y.1 = true := markLeaf_wf hy (walkFor_wf hx h)
  split at he
  · exact enterLeaf_wf he hs
  · simp only [Except.ok.injEq, Prod.mk.injEq] at he; exact he.1 ▸ hs

theorem attrEntry_wf {s t : State} {w : Who} {i : Nat} {v : Int} (he : s.attrEntry w i = .ok (t, v))
    (h : Memory.wf s = true) : Memory.wf t = true := by
  simp only [State.attrEntry] at he
  split at he
  · simp only [Except.ok.injEq, Prod.mk.injEq] at he; exact he.1 ▸ h
  obtain ⟨x, hx, he⟩ := bind_ok he
  have hs := structRead_wf 1 hx h
  split at he
  all_goals
    simp only [Except.ok.injEq, Prod.mk.injEq] at he
    rw [← he.1]; simpa using hs

theorem placeOf_wf {s t : State} {w : Who} {e : TlbEntry} {len : Nat} {va : Int} {r : Place × Int × Bool}
    (he : s.placeOf w e len va = .ok (t, r)) (h : Memory.wf s = true) : Memory.wf t = true := by
  obtain ⟨x, hx, he⟩ := bind_ok he
  have hs := attrEntry_wf hx h
  simp only at he
  split at he
  · exact absurd he (by simp)
  split at he
  · split at he
    · exact absurd he (by simp)
    · split at he
      · exact absurd he (by simp)
      · simp only [Except.ok.injEq, Prod.mk.injEq] at he; exact he.1 ▸ hs
  · obtain ⟨q, -, he⟩ := bind_ok he
    simp only [Except.ok.injEq, Prod.mk.injEq] at he; exact he.1 ▸ hs

theorem translate_wf {s t : State} {w : Who} {k : AccKind} {len : Nat} {va : Int} {p : Place}
    (he : s.translate w k len va = .ok (t, p)) (h : Memory.wf s = true) : Memory.wf t = true := by
  simp only [State.translate] at he
  split at he
  · exact absurd he (by simp)
  obtain ⟨x, hx, he⟩ := bind_ok he
  obtain ⟨y, hy, he⟩ := bind_ok he
  have hs := placeOf_wf hy (leafOf_wf hx h)
  split at he
  · exact absurd he (by simp)
  split at he
  · exact absurd he (by simp)
  · exact absurd he (by simp)
  split at he
  · obtain ⟨a, ha, he⟩ := bind_ok he
    obtain ⟨b, hb, he⟩ := bind_ok he
    have hb' := placeOf_wf hb (leafForWrite_wf ha hs)
    split at he
    · exact absurd he (by simp)
    split at he
    · exact absurd he (by simp)
    · simp only [Except.ok.injEq, Prod.mk.injEq] at he; exact he.1 ▸ hb'
  · simp only [Except.ok.injEq, Prod.mk.injEq] at he; exact he.1 ▸ hs

theorem resolveVirt_wf {s t : State} {w : Who} {k : AccKind} {len : Nat} {va : Int} {ps : List Place}
    (he : s.resolveVirt w k len va = .ok (t, ps)) (h : Memory.wf s = true) : Memory.wf t = true := by
  simp only [State.resolveVirt] at he
  split at he
  · exact absurd he (by simp)
  obtain ⟨x, hx, he⟩ := bind_ok he
  obtain ⟨y, -, he⟩ := bind_ok he
  simp only [Except.ok.injEq, Prod.mk.injEq] at he
  exact he.1 ▸ translate_wf hx h

theorem resolve_wf {s t : State} {w : Workgroup} {sp : Space} {thread len : Nat} {k : AccKind} {addr : Int}
    {ps : List Place} (he : s.resolve w sp thread k len addr = .ok (t, ps)) (h : Memory.wf s = true) :
    Memory.wf t = true := by
  have run : ∀ p : Place, (do let ps ← p.span len; Except.ok (s, ps) : Except Nat (State × List Place)) = .ok (t, ps) →
      Memory.wf t = true := by
    intro p hp
    obtain ⟨y, -, hp⟩ := bind_ok hp
    simp only [Except.ok.injEq, Prod.mk.injEq] at hp
    exact hp.1 ▸ h
  simp only [State.resolve] at he
  split at he
  · exact absurd he (by simp)
  split at he
  · exact resolveVirt_wf he h
  · split at he
    · exact run _ he
    split at he
    · simp only [Except.ok.injEq, Prod.mk.injEq] at he; exact he.1 ▸ h
    · exact absurd he (by simp)
  · split at he
    · exact run _ he
    · exact absurd he (by simp)
  · split at he
    · exact absurd he (by simp)
    split at he
    · exact run _ he
    split at he
    · exact run _ he
    · exact absurd he (by simp)
  · split at he
    · split at he
      · exact absurd he (by simp)
      · exact run _ he
    · exact absurd he (by simp)

end Sys2Proof.Machine
end

