-- ==== Sys2Proof/Laws/Elements.lean ====
section
/-! SUPPORT. The L1, windows, stores and structures: every operation of Elem.lean, fault records and fatal errors keep the
canonical form of memory. -/

namespace Sys2Proof.Machine

@[simp] theorem l1Remove_wf (s : State) (core i : Nat) : Memory.wf (s.l1Remove core i) = Memory.wf s := rfl
@[simp] theorem dropClean_wf (s : State) (core : Nat) (ls : Lines) : Memory.wf (s.dropClean core ls) = Memory.wf s := rfl
@[simp] theorem l1Patch_wf (s : State) (core : Nat) (k : LineKey) (vals : List (Nat × Tryte)) :
    Memory.wf (s.l1Patch core k vals) = Memory.wf s := by
  simp only [State.l1Patch]; split <;> rfl

@[simp] theorem charge_wf (s : State) (node : Option Nat) (cause : Nat) : Memory.wf (s.charge node cause) = Memory.wf s := by
  simp only [State.charge]; split <;> rfl

@[simp] theorem noteLate_wf (s : State) (r : FaultRec) (reg : Region) : Memory.wf (s.noteLate r reg) = Memory.wf s := by
  rw [State.noteLate, charge_wf]; rfl

@[simp] theorem markBad_wf (s : State) (die : Nat) (p : LinePlace) : Memory.wf (s.markBad die p) = Memory.wf s := by
  simp only [State.markBad]; split
  · rfl
  · rw [llcPut_wf]

@[simp] theorem noteLost_wf {s : State} (l : L1Line) (c : Nat) (h : Memory.wf s = true) : Memory.wf (s.noteLost l c) = true :=
  foldl_wf (fun s n hs => by rw [noteLate_wf]; exact hs) _ h

/-- What a step that may fail leaves after a step that cannot. -/
theorem map_ok {ε α β : Type} {a : Except ε α} {f : α → β} {b : β} (h : a.map f = .ok b) : ∃ x, a = .ok x ∧ f x = b := by
  cases a with
  | error e => exact absurd h (by simp [Except.map])
  | ok x => exact ⟨x, rfl, by simpa [Except.map] using h⟩

@[simp] theorem writeBackAt_wf {s : State} (core i : Nat) (h : Memory.wf s = true) :
    Memory.wf (s.writeBackAt core i) = true := by
  simp only [State.writeBackAt]
  split
  · exact h
  split
  · exact h
  split
  · rename_i he
    split at he
    · exact llcWrite_wf he (by simpa using h)
    · obtain ⟨x, hx, he⟩ := map_ok he
      rw [← he, markBad_wf]
      exact llcEnsure_wf hx (by simpa using h)
  · exact noteLost_wf _ _ (by simpa using h)

@[simp] theorem cleanLine_wf {s : State} (core ctx : Nat) (vline : Int) (h : Memory.wf s = true) :
    Memory.wf (s.cleanLine core ctx vline) = true := by
  simp only [State.cleanLine]; split
  · exact h
  · exact writeBackAt_wf _ _ h

@[simp] theorem flushLine_wf {s : State} (core ctx : Nat) (vline : Int) (h : Memory.wf s = true) :
    Memory.wf (s.flushLine core ctx vline) = true := by
  simp only [State.flushLine]; split
  · exact h
  · simpa using writeBackAt_wf _ _ h

@[simp] theorem cleanLines_wf {s : State} (core : Nat) (ls : Lines) (h : Memory.wf s = true) :
    Memory.wf (s.cleanLines core ls) = true := foldl_wf (fun _ _ h => writeBackAt_wf _ _ h) _ h

@[simp] theorem cleanL1_wf {s : State} (core : Nat) (h : Memory.wf s = true) : Memory.wf (s.cleanL1 core) = true :=
  cleanLines_wf core allLines h

@[simp] theorem flushL1_wf {s : State} (core : Nat) (h : Memory.wf s = true) : Memory.wf (s.flushL1 core) = true := by
  simpa [State.flushL1] using cleanL1_wf core h

@[simp] theorem evictL1_wf {s : State} (core i : Nat) (h : Memory.wf s = true) : Memory.wf (s.evictL1 core i) = true := by
  simp only [State.evictL1]; split
  · exact h
  · simpa using writeBackAt_wf _ _ h

@[simp] theorem missL1_wf (s : State) (core ctx : Nat) (vline : Int) : Memory.wf (s.missL1 core ctx vline) = Memory.wf s := by
  simp only [State.missL1]; split <;> simp

@[simp] theorem l1Alloc_wf {s : State} (core : Nat) (p : LinePlace) (h : Memory.wf s = true) :
    Memory.wf (s.l1Alloc core p) = true := by
  simp only [State.l1Alloc]
  rw [updCore_wf]
  split
  · exact h
  · exact evictL1_wf _ _ (by simpa using h)

theorem checkL1_wf {s t : State} {core n : Nat} {p : LinePlace} (he : s.checkL1 core p n = .ok t) :
    Memory.wf t = Memory.wf s := by
  simp only [State.checkL1] at he
  split at he
  · simp only [Except.ok.injEq] at he; rw [he]
  split at he
  · simp only [Except.ok.injEq] at he; rw [he]
  split at he
  · simp only [Except.ok.injEq] at he; rw [he]
  split at he
  · exact absurd he (by simp)
  · simp only [Except.ok.injEq] at he; rw [← he, bump_wf, updCore_wf]

@[simp] theorem l1Forget_wf (s : State) (core : Nat) (p : LinePlace) (n : Nat) :
    Memory.wf (s.l1Forget core p n) = Memory.wf s := by
  simp only [State.l1Forget]; split <;> rfl

@[simp] theorem l1Merge_wf (s : State) (core : Nat) (p : LinePlace) (held : List (Option Tryte)) (ts : List Tryte) (n : Nat) :
    Memory.wf (s.l1Merge core p held ts n).1 = Memory.wf s := by
  simp only [State.l1Merge]; split <;> rfl

theorem l1Read_wf {s t : State} {core n : Nat} {p : LinePlace} {vs : List Tryte} (he : s.l1Read core p n = .ok (t, vs))
    (h : Memory.wf s = true) : Memory.wf t = true := by
  obtain ⟨s0, h0, he⟩ := bind_ok he
  replace h0 : Memory.wf s0 = true := (checkL1_wf h0).trans h
  simp only at he
  split at he
  · simp only [Except.ok.injEq, Prod.mk.injEq] at he; exact he.1 ▸ h0
  obtain ⟨x, hx, he⟩ := bind_ok he
  have h1 : Memory.wf x.1 = true := by
    refine llcRead_wf hx ?_
    split
    · simpa using h0
    · exact h0
  simp only [Except.ok.injEq] at he
  rw [show t = (t, vs).1 from rfl, ← he, l1Merge_wf]
  split
  · exact l1Alloc_wf _ _ h1
  · exact h1

@[simp] theorem l1Write_wf {s : State} (core : Nat) (wide : Bool) (p : LinePlace) (v : Tryte) (b : Option StoreNote)
    (h : Memory.wf s = true) : Memory.wf (s.l1Write core wide p v b) = true := by
  have h0 : Memory.wf (if (s.l1Index core p.ctx.num p.vline).isSome then s
      else (s.missL1 core p.ctx.num p.vline).l1Alloc core p) = true := by
    split
    · exact h
    · exact l1Alloc_wf _ _ (by simpa using h)
  simp only [State.l1Write]
  split
  · exact h0
  · rw [updCore_wf]; exact h0

/-! ## Elements -/

theorem shadowGet_wf {s t : State} {die : Nat} {c : Ctx} {va : Int} {v : Tryte} (he : s.shadowGet die c va = .ok (t, v))
    (h : Memory.wf s = true) : Memory.wf t = true := by
  obtain ⟨x, hx, he⟩ := bind_ok he
  obtain ⟨y, hy, he⟩ := bind_ok he
  simp only [Except.ok.injEq, Prod.mk.injEq] at he
  exact he.1 ▸ llcRead_wf hy (structPlace_wf hx h)

theorem shadowSet_wf {s t : State} {die : Nat} {c : Ctx} {va : Int} {v : Tryte} (he : s.shadowSet die c va v = .ok t)
    (h : Memory.wf s = true) : Memory.wf t = true := by
  obtain ⟨x, hx, he⟩ := bind_ok he
  exact homeWrite_wf he (structPlace_wf hx h)

theorem readTryte_wf {s t : State} {p : Place} {v : Tryte} (he : s.readTryte p = .ok (t, v)) (h : Memory.wf s = true) :
    Memory.wf t = true := by
  simp only [State.readTryte] at he
  split at he
  · split at he
    · exact absurd he (by simp)
    · simp only [Except.ok.injEq, Prod.mk.injEq] at he; exact he.1 ▸ h
  · simp only [Except.ok.injEq, Prod.mk.injEq] at he; exact he.1 ▸ h
  · split at he
    · exact absurd he (by simp)
    · simp only [Except.ok.injEq, Prod.mk.injEq] at he; exact he.1 ▸ h
  · split at he
    · split at he
      · exact shadowGet_wf he h
      · simp only [Except.ok.injEq, Prod.mk.injEq] at he; exact he.1 ▸ h
    · simp only [Except.ok.injEq, Prod.mk.injEq] at he; exact he.1 ▸ h
  · obtain ⟨x, hx, he⟩ := bind_ok he
    simp only [Except.ok.injEq, Prod.mk.injEq] at he
    exact he.1 ▸ llcRead_wf hx h
  · simp only [Except.ok.injEq, Prod.mk.injEq] at he; exact he.1 ▸ h

theorem readTrytes_wf (ps : List Place) {a b : State × List Tryte}
    (he : ps.foldlM (fun (acc : State × List Tryte) p => do
      let (s, t) ← acc.1.readTryte p
      (.ok (s, acc.2 ++ [t]) : Except Nat (State × List Tryte))) a = .ok b) (h : Memory.wf a.1 = true) :
    Memory.wf b.1 = true := by
  induction ps generalizing a with
  | nil => simp only [List.foldlM_nil, pure, Except.pure, Except.ok.injEq] at he; exact he ▸ h
  | cons p ps ih =>
    rw [List.foldlM_cons] at he
    obtain ⟨x, hx, he⟩ := bind_ok he
    obtain ⟨y, hy, hx⟩ := bind_ok hx
    simp only [Except.ok.injEq] at hx
    exact ih he (hx ▸ readTryte_wf hy h)

theorem windowBytes_wf {s t : State} {die n : Nat} {p : LinePlace} {bs : List Byte}
    (he : s.windowBytes die p n = .ok (t, bs)) (h : Memory.wf s = true) : Memory.wf t = true := by
  obtain ⟨x, hx, he⟩ := bind_ok he
  simp only [Except.ok.injEq, Prod.mk.injEq] at he
  exact he.1 ▸ llcRead_wf hx h

theorem putWindow_wf {s t : State} {die : Nat} {p : LinePlace} {bs : List Byte} (he : s.putWindow die p bs = .ok t)
    (h : Memory.wf s = true) : Memory.wf t = true := llcWrite_wf he h

theorem readWindow_wf {die : Nat} (ps : List Place) {s t : State} {vs : List Tryte}
    (he : State.readWindow die s ps = .ok (t, vs)) (h : Memory.wf s = true) : Memory.wf t = true := by
  induction ps generalizing s t vs with
  | nil => simp only [State.readWindow, Except.ok.injEq, Prod.mk.injEq] at he; exact he.1 ▸ h
  | cons p ps ih =>
    cases p
    case window q view k =>
      simp only [State.readWindow] at he
      split at he
      · obtain ⟨x, hx, he⟩ := bind_ok he
        split at he
        · exact absurd he (by simp)
        · obtain ⟨y, hy, he⟩ := bind_ok he
          simp only [Except.ok.injEq, Prod.mk.injEq] at he
          exact he.1 ▸ ih hy (windowBytes_wf hx h)
      · exact ih he h
    all_goals exact ih he h

theorem strongRead_wf {s t : State} {w : Who} {p : LinePlace} {n : Nat} {vs : List Tryte}
    (he : s.strongRead w p n = .ok (t, vs)) (h : Memory.wf s = true) : Memory.wf t = true := by
  simp only [State.strongRead] at he
  refine llcRead_wf he ?_
  split
  · rw [l1Forget_wf]; exact cleanLine_wf _ _ _ h
  · exact h

theorem readElem_wf {s t : State} {w : Who} {strong : Bool} {ps : List Place} {vs : List Tryte}
    (he : s.readElem w strong ps = .ok (t, vs)) (h : Memory.wf s = true) : Memory.wf t = true := by
  simp only [State.readElem] at he
  split at he
  · exact readWindow_wf ps he h
  · split at he
    · exact strongRead_wf he h
    · split at he
      · split at he
        · exact l1Read_wf he h
        · exact llcRead_wf he h
      · exact llcRead_wf he h
  · exact readTrytes_wf ps he h

@[simp] theorem writeTryte_wf {s : State} (wide : Bool) (p : Place) (v : Tryte) (h : Memory.wf s = true) :
    Memory.wf (s.writeTryte wide p v).1 = true := by
  simp only [State.writeTryte]
  split
  · split
    · exact scrSet_wf _ _ _ h
    · exact scrSet_wf _ _ _ h
  · split
    · exact h
    split
    · exact chipSet_wf _ _ _ h
    · exact chipSet_wf _ _ _ h
  · exact h

theorem storeView_wf {s t : State} {die : Nat} {p : LinePlace} {view : View} {ts : List Tryte}
    (he : s.storeView die p view ts = .ok t) (h : Memory.wf s = true) : Memory.wf t = true := by
  simp only [State.storeView] at he
  split at he
  · exact putWindow_wf he h
  · exact absurd he (by simp)

theorem storeWindow_wf (die : Nat) (es : List StoreElem) {s : State} (h : Memory.wf s = true) :
    Memory.wf (storeWindow die s es).1 = true := by
  induction es generalizing s with
  | nil => exact h
  | cons e rest ih =>
    simp only [storeWindow]
    split
    · split
      · exact ih (storeView_wf ‹_› h)
      · exact ih h
    · exact ih h

theorem storeLine_wf {s : State} (w : Who) (p : LinePlace) (es : List StoreElem) (h : Memory.wf s = true) :
    Memory.wf (s.storeLine w p es).1 = true := by
  simp only [State.storeLine]
  split
  · rename_i he
    have ht := llcWrite_wf he h
    split
    · simpa using ht
    · exact ht
  · rw [refusedFill_wf]; exact h

theorem storeL1_wf {s : State} (w : Who) (strong wide : Bool) (b : StoreElem → Option StoreNote) (e : StoreElem)
    (h : Memory.wf s = true) : Memory.wf (State.storeL1 w strong wide b s e) = true := by
  simp only [State.storeL1]
  split
  · split
    · exact l1Write_wf _ _ _ _ _ h
    · exact h
  · exact h

theorem storeChip_wf (wide : Bool) (acc : State × List StoreFail) (e : StoreElem) (h : Memory.wf acc.1 = true) :
    Memory.wf (storeChip wide acc e).1 = true := writeTryte_wf wide e.place e.val h

theorem storeLlc_wf (w : Who) (direct : List StoreElem) (acc : State × List StoreFail) (p : LinePlace)
    (h : Memory.wf acc.1 = true) : Memory.wf (storeLlc w direct acc p).1 = true := storeLine_wf w p direct h

theorem performStores_wf {s : State} (w : Who) (strong wide : Bool) (b : StoreElem → Option StoreNote) (es : List StoreElem)
    (h : Memory.wf s = true) : Memory.wf (s.performStores w strong wide b es).1 = true := by
  simp only [State.performStores]
  refine foldl_fst_wf (storeLlc_wf w _) _ ?_
  have h3 := storeWindow_wf w.die es (foldl_fst_wf (storeChip_wf wide) es
    (foldl_wf (fun s e hs => storeL1_wf w strong wide b e hs) es h) (a := (_, [])))
  split
  · exact foldl_wf (fun s p hs => cleanLine_wf _ _ _ hs) _ h3
  · exact h3

/-! ## Fault records and fatal errors -/

theorem breakBarrier_wf {s : State} (w : Workgroup) (sp : Space) (addr : Int) (h : Memory.wf s = true) :
    Memory.wf (breakBarrier s w sp addr) = true := by
  simp only [breakBarrier]
  split
  · exact h
  · rename_i he
    split
    · exact resolve_wf he h
    · rename_i hr
      exact performStores_wf _ _ _ _ _ (readElem_wf hr (resolve_wf he h))

@[simp] theorem dieFatal_wf {s : State} (die : Nat) (h : Memory.wf s = true) : Memory.wf (s.dieFatal die) = true := by
  simp only [State.dieFatal]
  split
  · exact h
  · have key : Memory.wf (((s.toBreak die).filter fun b => b.2.1 == .virt || b.2.1 == .chip).foldl
        (fun s b => breakBarrier s b.1 b.2.1 b.2.2) s) = true :=
      foldl_wf (fun s b hs => breakBarrier_wf b.1 b.2.1 b.2.2 hs) _ h
    exact key

@[simp] theorem updDfq_wf (s : State) (r : Region) (f : Dfq → Dfq) : Memory.wf (s.updDfq r f) = Memory.wf s := by
  simp only [State.updDfq]; split <;> rfl

@[simp] theorem enterRecord_wf {s : State} (die : Nat) (reg : Region) (r : FaultRec) (h : Memory.wf s = true) :
    Memory.wf (s.enterRecord die reg r) = true := by
  simp only [State.enterRecord]
  split
  · exact h
  · split
    · exact structWrite_wf ‹_› (by simpa using h)
    · exact dieFatal_wf _ (by simpa using h)

@[simp] theorem appendRecord_wf {s : State} (die : Nat) (reg : Region) (r : FaultRec) (h : Memory.wf s = true) :
    Memory.wf (s.appendRecord die reg r) = true := enterRecord_wf _ _ _ (by rw [charge_wf]; exact h)

/-! ## Traps -/

theorem orphan_wf {s : State} (w : Workgroup) (h : Memory.wf s = true) : Memory.wf (s.orphan w) = true := by
  simp only [State.orphan]
  exact foldl_wf (fun s c hs => foldl_wf (fun s j hs => appendRecord_wf _ _ _ hs) _ hs) _ h

@[simp] theorem emptySets_wf (s : State) (core wg : Nat) : Memory.wf (s.emptySets core wg) = Memory.wf s := rfl

@[simp] theorem settleExit_wf {s : State} (wg : Nat) (h : Memory.wf s = true) : Memory.wf (s.settleExit wg) = true := by
  simp only [State.settleExit]
  split
  · exact h
  split
  · exact orphan_wf _ (by simpa using h)
  · exact h

@[simp] theorem retireRecs_wf (s : State) (r : GroupRef) : Memory.wf (s.retireRecs r) = Memory.wf s := by
  simp only [State.retireRecs]; split
  · rfl
  · split <;> rfl

@[simp] theorem ceaseGroup_wf (s : State) (r : GroupRef) : Memory.wf (s.ceaseGroup r) = Memory.wf s := by
  simp only [State.ceaseGroup]; split
  · split <;> rfl
  · rfl

@[simp] theorem exitLanes_wf {s : State} (r : GroupRef) (is : List Nat) (h : Memory.wf s = true) :
    Memory.wf (s.exitLanes r is) = true := settleExit_wf _ (by simpa using h)

@[simp] theorem endThreads_wf {s : State} (wg : Nat) (h : Memory.wf s = true) : Memory.wf (s.endThreads wg) = true := by
  simp only [State.endThreads]
  refine settleExit_wf _ ?_
  have hf := foldl_wf (f := fun (s : State) (g : Group) => (s.retireRecs g.ref).ceaseGroup g.ref)
    (fun s g hs => by simpa using hs)
  split
  · rw [updWg_wf, updCore_wf]; exact hf _ h
  · exact hf _ h

@[simp] theorem forceNode_wf (s : State) (node : Option Nat) (t : Trit) : Memory.wf (s.forceNode node t) = Memory.wf s := rfl

@[simp] theorem completePend_wf (s : State) (r : GroupRef) (p : Pending) : Memory.wf (s.completePend r p) = Memory.wf s := by
  simp only [State.completePend]
  have hs (c : Bool) (a b : State) : Memory.wf (if c = true then a else b) = if c = true then Memory.wf a else Memory.wf b := by
    cases c <;> rfl
  split <;> split <;> simp [hs]

theorem writeFrames_wf {s t : State} {w : Workgroup} {g : Group} {es : List ReEntry} {cause : Nat} {detail : Int}
    {count : Nat} (he : s.writeFrames w g es cause detail count = .ok t) (h : Memory.wf s = true) : Memory.wf t = true := by
  refine foldE_wf (fun s j t hj hs => ?_) _ he h
  obtain ⟨x, hx, hj⟩ := bind_ok hj
  exact foldE_wf (fun s e t ht hs => structWrite_wf ht hs) _ hj (structWrite_wf hx hs)

@[simp] theorem doubleTrap_wf {s : State} (w : Workgroup) (g : Group) (t : TrapReq) (h : Memory.wf s = true) :
    Memory.wf (s.doubleTrap w g t) = true := endThreads_wf _ (by simpa using foldl_wf (fun s r hs => appendRecord_wf _ _ _ hs) _ h)

@[simp] theorem withdraw_wf (s : State) (r : GroupRef) (ids : List Nat) : Memory.wf (s.withdraw r ids) = Memory.wf s := by
  simp only [State.withdraw]; split <;> rfl

/-- Taking a trap keeps the canonical form of memory. -/
@[simp] theorem trapEnter_wf {s : State} (r : GroupRef) (t : TrapReq) (h : Memory.wf s = true) :
    Memory.wf (s.trapEnter r t) = true := by
  simp only [State.trapEnter]
  split
  · split
    · exact doubleTrap_wf _ _ _ (by simpa using h)
    · have hf : ∀ ps : List Pending, Memory.wf (ps.foldl (fun s p => s.completePend r p)
          (s.progEvent (coreIdx ‹Workgroup›.core) 9 (some (‹Workgroup›).region.ctx.num))) = true :=
        fun ps => foldl_wf (fun s p hs => by simpa using hs) ps (by simpa using h)
      split
      · exact dieFatal_wf _ (by rw [withdraw_wf]; exact hf _)
      · rename_i he
        have hs := fun ps ids => (withdraw_wf _ r ids).trans (hf ps)
        exact (updGroup_wf _ _ _).trans (writeFrames_wf he (hs _ _))
  · exact h

end Sys2Proof.Machine
end

