-- ==== Sys2Proof/Laws/Matrix.lean ====
section
/-! SUPPORT. The matrix words: what entering the queues of a group does, and when it waits. -/

namespace Sys2Proof.Machine

/-- Whether every queue that operations enter has room for them. -/
theorem queue_room {u : MatUnit} {wg : Nat} {ops : List (Nat × MatOp)} :
    ((ops.map (·.1)).eraseDups.all fun h => u.room wg h (ops.filter fun o => o.1 == h).length) = true ↔
      ∀ h ∈ ops.map (·.1),
        (u.queue.filter fun e => e.wg == wg && e.hw == h).length + (ops.filter fun o => o.1 == h).length ≤ 27 := by
  simp [List.all_eq_true, MatUnit.room]

/-- Operations with room enter their queues. -/
theorem queueWord_done {x : Issue} {t : State} {ops : List (Nat × MatOp)}
    (h : ∀ h ∈ ops.map (·.1), ((t.unitAt (coreClu x.w.core)).queue.filter fun e => e.wg == x.r.wg && e.hw == h).length +
      (ops.filter fun o => o.1 == h).length ≤ 27) :
    x.queueWord t ops = .done (x.enqueue t ops) := by
  simp only [Issue.queueWord]
  rw [if_pos (queue_room.2 h)]

/-- Operations without room wait. -/
theorem queueWord_stall {x : Issue} {t : State} {ops : List (Nat × MatOp)}
    (h : ¬∀ h ∈ ops.map (·.1), ((t.unitAt (coreClu x.w.core)).queue.filter fun e => e.wg == x.r.wg && e.hw == h).length +
      (ops.filter fun o => o.1 == h).length ≤ 27) :
    x.queueWord t ops = .stall := by
  simp only [Issue.queueWord]
  rw [if_neg (fun e => h (queue_room.1 e))]

end Sys2Proof.Machine
end

