-- ==== Sys2Proof/Laws/Settle.lean ====
section
/-! SUPPORT. What a turn leaves the last-level caches in: evictions and State.settle keep the canonical form of memory, and
State.settle leaves a state alone whose caches are neither full nor bad. -/

namespace Sys2Proof.Machine

theorem orFatal_wf {s : State} (die : Nat) (r : Except Nat State) (h : Memory.wf s = true)
    (hr : ∀ t, r = .ok t → Memory.wf t = true) : Memory.wf (s.orFatal die r) = true := by
  simp only [State.orFatal]
  split
  · exact hr _ rfl
  · exact dieFatal_wf _ h

theorem codecCounters_wf {s t : State} {die : Nat} {l : LLine} {exact_ : Bool} {cut : Int}
    (he : s.codecCounters die l exact_ cut = .ok t) (h : Memory.wf s = true) : Memory.wf t = true := by
  obtain ⟨x, hx, he⟩ := bind_ok he
  obtain ⟨y, hy, he⟩ := bind_ok he
  exact homeWrite_wf he (homeRead_wf hy (structPlace_wf hx h))

@[simp] theorem encodeOut_wf {s : State} (l : LLine) (h : Memory.wf s = true) : Memory.wf (s.encodeOut l) = true := by
  simp only [State.encodeOut]
  refine orFatal_wf _ _ ?_ fun t ht => codecCounters_wf ht ?_
  all_goals
    rw [llcDrop_wf]
    exact foldl_wf (fun s x hs => by rw [burst_wf]; exact writeSlot_wf _ _ _ _ _ hs) _ h

/-- A line that leaves a last-level cache keeps the form. -/
theorem evictLine_wf {s t : State} {die : Nat} {k : LineKey} (he : s.evictLine die k = some t) (h : Memory.wf s = true) :
    Memory.wf t = true := by
  simp only [State.evictLine, Option.bind_eq_bind, Option.bind_eq_some_iff] at he
  obtain ⟨l, -, he⟩ := he
  split at he
  · split at he
    · exact absurd he (by simp)
    split at he
    · simp only [Option.some.injEq] at he; rw [← he]; exact encodeOut_wf _ h
    · simp only [Option.some.injEq] at he; rw [← he]; simpa using h
  · exact evictPacked_wf he h

@[simp] theorem settleBad_wf {s : State} (die : Nat) (h : Memory.wf s = true) : Memory.wf (s.settleBad die) = true := by
  simp only [State.settleBad]
  split
  · exact dieFatal_wf _ h
  · exact h

/-- What may happen or not keeps the form where what happens does. -/
theorem getD_wf {o : Option State} {s : State} (h : Memory.wf s = true) (ho : ∀ t, o = some t → Memory.wf t = true) :
    Memory.wf (o.getD s) = true := by
  cases o with
  | none => exact h
  | some t => exact ho t rfl

@[simp] theorem trimSlice_wf (fuel : Nat) {s : State} (die n : Nat) (h : Memory.wf s = true) :
    Memory.wf (trimSlice fuel s die n) = true := by
  induction fuel generalizing s with
  | zero => exact h
  | succ fuel ih =>
    simp only [trimSlice]
    split
    · exact h
    split
    · split
      · exact h
      · exact ih (drainUpdates_wf h)
    · refine ih (getD_wf (by simpa using h) fun t ht => ?_)
      obtain ⟨l, -, hl⟩ := Option.bind_eq_some_iff.1 ht
      exact evictLine_wf hl (by simpa using h)

/-- What every turn leaves in the caches keeps the form. -/
@[simp] theorem settle_wf {s : State} (h : Memory.wf s = true) : Memory.wf s.settle = true := by
  have hb : Memory.wf (if (s.llc.map fun e => e.2.bad.length).foldl (· + ·) 0 < 28 then s
      else (List.range 4).foldl State.settleBad s) = true := by
    split
    · exact h
    · exact foldl_wf (fun s die hs => settleBad_wf die hs) _ h
  have go (u : State) (hu : Memory.wf u = true) : Memory.wf (if 3 * u.llc.length ≤ 2187 then u
      else (List.range 4).foldl (fun s die =>
        (List.range 192).foldl (fun s n => trimSlice s.llc.length s die n) s) u) = true := by
    split
    · exact hu
    · exact foldl_wf (fun s die hs => foldl_wf (fun s n hs => trimSlice_wf _ die n hs) _ hs) _ hu
  exact go _ hb

/-- Caches that hold few lines, and fewer than 28 of them bad, stay as they are. -/
theorem settle_self {s : State} (hb : (s.llc.map fun e => e.2.bad.length).foldl (· + ·) 0 < 28)
    (hl : 3 * s.llc.length ≤ 2187) : s.settle = s := by
  simp only [State.settle, hb, hl, if_true]

/-- The step after a turn that goes on. -/
theorem step_of_turn {s t u : State} {n : Turn} (ht : s.nextTurn = (some n, t)) (h : takeTurn n t = .next u) :
    step s = .next u.settle := by
  simp only [step, ht, h, settled]

end Sys2Proof.Machine
end

