-- ==== Sys2Proof/Laws/State.lean ====
section
/-! SUPPORT. What each named update of the state leaves as it was and what it changes, one lemma for each field, so that no
later proof unfolds a record update. -/

namespace Sys2Proof.Machine

/-! ### A group (State.updGroup) -/

section
variable {s : State} {r : GroupRef} {f : Group → Group}

@[simp] theorem State.updGroup_agenda : (s.updGroup r f).agenda = s.agenda := rfl
@[simp] theorem State.updGroup_turns : (s.updGroup r f).turns = s.turns := rfl
@[simp] theorem State.updGroup_free : (s.updGroup r f).free = s.free := rfl
@[simp] theorem State.updGroup_cur : (s.updGroup r f).cur = s.cur := rfl
@[simp] theorem State.updGroup_stamp : (s.updGroup r f).stamp = s.stamp := rfl
@[simp] theorem State.updGroup_nextId : (s.updGroup r f).nextId = s.nextId := rfl
@[simp] theorem State.updGroup_time : (s.updGroup r f).time = s.time := rfl
@[simp] theorem State.updGroup_wgs : (s.updGroup r f).wgs = s.wgs := rfl
@[simp] theorem State.updGroup_groups : (s.updGroup r f).groups =
    s.groups.map fun g => if g.wg == r.wg && g.hw == r.hw then f g else g := rfl
@[simp] theorem State.updGroup_cores : (s.updGroup r f).cores = s.cores := rfl
@[simp] theorem State.updGroup_units : (s.updGroup r f).units = s.units := rfl
@[simp] theorem State.updGroup_scr : (s.updGroup r f).scr = s.scr := rfl
@[simp] theorem State.updGroup_chip : (s.updGroup r f).chip = s.chip := rfl
@[simp] theorem State.updGroup_dram : (s.updGroup r f).dram = s.dram := rfl
@[simp] theorem State.updGroup_llc : (s.updGroup r f).llc = s.llc := rfl
@[simp] theorem State.updGroup_ctlbs : (s.updGroup r f).ctlbs = s.ctlbs := rfl
@[simp] theorem State.updGroup_copyUpdates : (s.updGroup r f).copyUpdates = s.copyUpdates := rfl
@[simp] theorem State.updGroup_bad : (s.updGroup r f).bad = s.bad := rfl
@[simp] theorem State.updGroup_windows : (s.updGroup r f).windows = s.windows := rfl
@[simp] theorem State.updGroup_counters : (s.updGroup r f).counters = s.counters := rfl
@[simp] theorem State.updGroup_world : (s.updGroup r f).world = s.world := rfl
@[simp] theorem State.updGroup_errata : (s.updGroup r f).errata = s.errata := rfl
@[simp] theorem State.updGroup_tabWrites : (s.updGroup r f).tabWrites = s.tabWrites := rfl
@[simp] theorem State.updGroup_barriers : (s.updGroup r f).barriers = s.barriers := rfl
@[simp] theorem State.updGroup_kernels : (s.updGroup r f).kernels = s.kernels := rfl
@[simp] theorem State.updGroup_spawns : (s.updGroup r f).spawns = s.spawns := rfl
@[simp] theorem State.updGroup_polls : (s.updGroup r f).polls = s.polls := rfl
@[simp] theorem State.updGroup_ready : (s.updGroup r f).ready = s.ready := rfl
@[simp] theorem State.updGroup_walkers : (s.updGroup r f).walkers = s.walkers := rfl
@[simp] theorem State.updGroup_knodes : (s.updGroup r f).knodes = s.knodes := rfl
@[simp] theorem State.updGroup_contexts : (s.updGroup r f).contexts = s.contexts := rfl
@[simp] theorem State.updGroup_consumers : (s.updGroup r f).consumers = s.consumers := rfl
@[simp] theorem State.updGroup_partitions : (s.updGroup r f).partitions = s.partitions := rfl
@[simp] theorem State.updGroup_rings : (s.updGroup r f).rings = s.rings := rfl
@[simp] theorem State.updGroup_unrooted : (s.updGroup r f).unrooted = s.unrooted := rfl
@[simp] theorem State.updGroup_mailboxes : (s.updGroup r f).mailboxes = s.mailboxes := rfl
@[simp] theorem State.updGroup_dfqs : (s.updGroup r f).dfqs = s.dfqs := rfl
@[simp] theorem State.updGroup_late : (s.updGroup r f).late = s.late := rfl
@[simp] theorem State.updGroup_refusals : (s.updGroup r f).refusals = s.refusals := rfl
@[simp] theorem State.updGroup_copies : (s.updGroup r f).copies = s.copies := rfl
@[simp] theorem State.updGroup_arrivals : (s.updGroup r f).arrivals = s.arrivals := rfl
@[simp] theorem State.updGroup_marks : (s.updGroup r f).marks = s.marks := rfl
@[simp] theorem State.updGroup_dieStatus : (s.updGroup r f).dieStatus = s.dieStatus := rfl
@[simp] theorem State.updGroup_nonce : (s.updGroup r f).nonce = s.nonce := rfl
@[simp] theorem State.updGroup_attest : (s.updGroup r f).attest = s.attest := rfl
@[simp] theorem State.updGroup_quote : (s.updGroup r f).quote = s.quote := rfl
@[simp] theorem State.updGroup_sign : (s.updGroup r f).sign = s.sign := rfl
@[simp] theorem State.updGroup_links : (s.updGroup r f).links = s.links := rfl
@[simp] theorem State.updGroup_transfers : (s.updGroup r f).transfers = s.transfers := rfl
@[simp] theorem State.updGroup_irqs : (s.updGroup r f).irqs = s.irqs := rfl
@[simp] theorem State.updGroup_hostReads : (s.updGroup r f).hostReads = s.hostReads := rfl
@[simp] theorem State.updGroup_xgOut : (s.updGroup r f).xgOut = s.xgOut := rfl
@[simp] theorem State.updGroup_clocks : (s.updGroup r f).clocks = s.clocks := rfl
@[simp] theorem State.updGroup_lags : (s.updGroup r f).lags = s.lags := rfl

end

/-! ### A workgroup (State.updWg) -/

section
variable {s : State} {id : Nat} {f : Workgroup → Workgroup}

@[simp] theorem State.updWg_agenda : (s.updWg id f).agenda = s.agenda := rfl
@[simp] theorem State.updWg_turns : (s.updWg id f).turns = s.turns := rfl
@[simp] theorem State.updWg_free : (s.updWg id f).free = s.free := rfl
@[simp] theorem State.updWg_cur : (s.updWg id f).cur = s.cur := rfl
@[simp] theorem State.updWg_stamp : (s.updWg id f).stamp = s.stamp := rfl
@[simp] theorem State.updWg_nextId : (s.updWg id f).nextId = s.nextId := rfl
@[simp] theorem State.updWg_time : (s.updWg id f).time = s.time := rfl
@[simp] theorem State.updWg_wgs : (s.updWg id f).wgs =
    s.wgs.map fun w => if w.id == id then f w else w := rfl
@[simp] theorem State.updWg_groups : (s.updWg id f).groups = s.groups := rfl
@[simp] theorem State.updWg_cores : (s.updWg id f).cores = s.cores := rfl
@[simp] theorem State.updWg_units : (s.updWg id f).units = s.units := rfl
@[simp] theorem State.updWg_scr : (s.updWg id f).scr = s.scr := rfl
@[simp] theorem State.updWg_chip : (s.updWg id f).chip = s.chip := rfl
@[simp] theorem State.updWg_dram : (s.updWg id f).dram = s.dram := rfl
@[simp] theorem State.updWg_llc : (s.updWg id f).llc = s.llc := rfl
@[simp] theorem State.updWg_ctlbs : (s.updWg id f).ctlbs = s.ctlbs := rfl
@[simp] theorem State.updWg_copyUpdates : (s.updWg id f).copyUpdates = s.copyUpdates := rfl
@[simp] theorem State.updWg_bad : (s.updWg id f).bad = s.bad := rfl
@[simp] theorem State.updWg_windows : (s.updWg id f).windows = s.windows := rfl
@[simp] theorem State.updWg_counters : (s.updWg id f).counters = s.counters := rfl
@[simp] theorem State.updWg_world : (s.updWg id f).world = s.world := rfl
@[simp] theorem State.updWg_errata : (s.updWg id f).errata = s.errata := rfl
@[simp] theorem State.updWg_tabWrites : (s.updWg id f).tabWrites = s.tabWrites := rfl
@[simp] theorem State.updWg_barriers : (s.updWg id f).barriers = s.barriers := rfl
@[simp] theorem State.updWg_kernels : (s.updWg id f).kernels = s.kernels := rfl
@[simp] theorem State.updWg_spawns : (s.updWg id f).spawns = s.spawns := rfl
@[simp] theorem State.updWg_polls : (s.updWg id f).polls = s.polls := rfl
@[simp] theorem State.updWg_ready : (s.updWg id f).ready = s.ready := rfl
@[simp] theorem State.updWg_walkers : (s.updWg id f).walkers = s.walkers := rfl
@[simp] theorem State.updWg_knodes : (s.updWg id f).knodes = s.knodes := rfl
@[simp] theorem State.updWg_contexts : (s.updWg id f).contexts = s.contexts := rfl
@[simp] theorem State.updWg_consumers : (s.updWg id f).consumers = s.consumers := rfl
@[simp] theorem State.updWg_partitions : (s.updWg id f).partitions = s.partitions := rfl
@[simp] theorem State.updWg_rings : (s.updWg id f).rings = s.rings := rfl
@[simp] theorem State.updWg_unrooted : (s.updWg id f).unrooted = s.unrooted := rfl
@[simp] theorem State.updWg_mailboxes : (s.updWg id f).mailboxes = s.mailboxes := rfl
@[simp] theorem State.updWg_dfqs : (s.updWg id f).dfqs = s.dfqs := rfl
@[simp] theorem State.updWg_late : (s.updWg id f).late = s.late := rfl
@[simp] theorem State.updWg_refusals : (s.updWg id f).refusals = s.refusals := rfl
@[simp] theorem State.updWg_copies : (s.updWg id f).copies = s.copies := rfl
@[simp] theorem State.updWg_arrivals : (s.updWg id f).arrivals = s.arrivals := rfl
@[simp] theorem State.updWg_marks : (s.updWg id f).marks = s.marks := rfl
@[simp] theorem State.updWg_dieStatus : (s.updWg id f).dieStatus = s.dieStatus := rfl
@[simp] theorem State.updWg_nonce : (s.updWg id f).nonce = s.nonce := rfl
@[simp] theorem State.updWg_attest : (s.updWg id f).attest = s.attest := rfl
@[simp] theorem State.updWg_quote : (s.updWg id f).quote = s.quote := rfl
@[simp] theorem State.updWg_sign : (s.updWg id f).sign = s.sign := rfl
@[simp] theorem State.updWg_links : (s.updWg id f).links = s.links := rfl
@[simp] theorem State.updWg_transfers : (s.updWg id f).transfers = s.transfers := rfl
@[simp] theorem State.updWg_irqs : (s.updWg id f).irqs = s.irqs := rfl
@[simp] theorem State.updWg_hostReads : (s.updWg id f).hostReads = s.hostReads := rfl
@[simp] theorem State.updWg_xgOut : (s.updWg id f).xgOut = s.xgOut := rfl
@[simp] theorem State.updWg_clocks : (s.updWg id f).clocks = s.clocks := rfl
@[simp] theorem State.updWg_lags : (s.updWg id f).lags = s.lags := rfl

end

/-! ### A core (State.updCore) -/

section
variable {s : State} {core : Nat} {f : CoreState → CoreState}

@[simp] theorem State.updCore_agenda : (s.updCore core f).agenda = s.agenda := rfl
@[simp] theorem State.updCore_turns : (s.updCore core f).turns = s.turns := rfl
@[simp] theorem State.updCore_free : (s.updCore core f).free = s.free := rfl
@[simp] theorem State.updCore_cur : (s.updCore core f).cur = s.cur := rfl
@[simp] theorem State.updCore_stamp : (s.updCore core f).stamp = s.stamp := rfl
@[simp] theorem State.updCore_nextId : (s.updCore core f).nextId = s.nextId := rfl
@[simp] theorem State.updCore_time : (s.updCore core f).time = s.time := rfl
@[simp] theorem State.updCore_wgs : (s.updCore core f).wgs = s.wgs := rfl
@[simp] theorem State.updCore_groups : (s.updCore core f).groups = s.groups := rfl
@[simp] theorem State.updCore_cores : (s.updCore core f).cores =
    s.cores.set .empty core (f (s.coreAt core)) := rfl
@[simp] theorem State.updCore_units : (s.updCore core f).units = s.units := rfl
@[simp] theorem State.updCore_scr : (s.updCore core f).scr = s.scr := rfl
@[simp] theorem State.updCore_chip : (s.updCore core f).chip = s.chip := rfl
@[simp] theorem State.updCore_dram : (s.updCore core f).dram = s.dram := rfl
@[simp] theorem State.updCore_llc : (s.updCore core f).llc = s.llc := rfl
@[simp] theorem State.updCore_ctlbs : (s.updCore core f).ctlbs = s.ctlbs := rfl
@[simp] theorem State.updCore_copyUpdates : (s.updCore core f).copyUpdates = s.copyUpdates := rfl
@[simp] theorem State.updCore_bad : (s.updCore core f).bad = s.bad := rfl
@[simp] theorem State.updCore_windows : (s.updCore core f).windows = s.windows := rfl
@[simp] theorem State.updCore_counters : (s.updCore core f).counters = s.counters := rfl
@[simp] theorem State.updCore_world : (s.updCore core f).world = s.world := rfl
@[simp] theorem State.updCore_errata : (s.updCore core f).errata = s.errata := rfl
@[simp] theorem State.updCore_tabWrites : (s.updCore core f).tabWrites = s.tabWrites := rfl
@[simp] theorem State.updCore_barriers : (s.updCore core f).barriers = s.barriers := rfl
@[simp] theorem State.updCore_kernels : (s.updCore core f).kernels = s.kernels := rfl
@[simp] theorem State.updCore_spawns : (s.updCore core f).spawns = s.spawns := rfl
@[simp] theorem State.updCore_polls : (s.updCore core f).polls = s.polls := rfl
@[simp] theorem State.updCore_ready : (s.updCore core f).ready = s.ready := rfl
@[simp] theorem State.updCore_walkers : (s.updCore core f).walkers = s.walkers := rfl
@[simp] theorem State.updCore_knodes : (s.updCore core f).knodes = s.knodes := rfl
@[simp] theorem State.updCore_contexts : (s.updCore core f).contexts = s.contexts := rfl
@[simp] theorem State.updCore_consumers : (s.updCore core f).consumers = s.consumers := rfl
@[simp] theorem State.updCore_partitions : (s.updCore core f).partitions = s.partitions := rfl
@[simp] theorem State.updCore_rings : (s.updCore core f).rings = s.rings := rfl
@[simp] theorem State.updCore_unrooted : (s.updCore core f).unrooted = s.unrooted := rfl
@[simp] theorem State.updCore_mailboxes : (s.updCore core f).mailboxes = s.mailboxes := rfl
@[simp] theorem State.updCore_dfqs : (s.updCore core f).dfqs = s.dfqs := rfl
@[simp] theorem State.updCore_late : (s.updCore core f).late = s.late := rfl
@[simp] theorem State.updCore_refusals : (s.updCore core f).refusals = s.refusals := rfl
@[simp] theorem State.updCore_copies : (s.updCore core f).copies = s.copies := rfl
@[simp] theorem State.updCore_arrivals : (s.updCore core f).arrivals = s.arrivals := rfl
@[simp] theorem State.updCore_marks : (s.updCore core f).marks = s.marks := rfl
@[simp] theorem State.updCore_dieStatus : (s.updCore core f).dieStatus = s.dieStatus := rfl
@[simp] theorem State.updCore_nonce : (s.updCore core f).nonce = s.nonce := rfl
@[simp] theorem State.updCore_attest : (s.updCore core f).attest = s.attest := rfl
@[simp] theorem State.updCore_quote : (s.updCore core f).quote = s.quote := rfl
@[simp] theorem State.updCore_sign : (s.updCore core f).sign = s.sign := rfl
@[simp] theorem State.updCore_links : (s.updCore core f).links = s.links := rfl
@[simp] theorem State.updCore_transfers : (s.updCore core f).transfers = s.transfers := rfl
@[simp] theorem State.updCore_irqs : (s.updCore core f).irqs = s.irqs := rfl
@[simp] theorem State.updCore_hostReads : (s.updCore core f).hostReads = s.hostReads := rfl
@[simp] theorem State.updCore_xgOut : (s.updCore core f).xgOut = s.xgOut := rfl
@[simp] theorem State.updCore_clocks : (s.updCore core f).clocks = s.clocks := rfl
@[simp] theorem State.updCore_lags : (s.updCore core f).lags = s.lags := rfl

end

/-! ### A matrix unit (State.updUnit) -/

section
variable {s : State} {clu : Nat} {f : MatUnit → MatUnit}

@[simp] theorem State.updUnit_agenda : (s.updUnit clu f).agenda = s.agenda := rfl
@[simp] theorem State.updUnit_turns : (s.updUnit clu f).turns = s.turns := rfl
@[simp] theorem State.updUnit_free : (s.updUnit clu f).free = s.free := rfl
@[simp] theorem State.updUnit_cur : (s.updUnit clu f).cur = s.cur := rfl
@[simp] theorem State.updUnit_stamp : (s.updUnit clu f).stamp = s.stamp := rfl
@[simp] theorem State.updUnit_nextId : (s.updUnit clu f).nextId = s.nextId := rfl
@[simp] theorem State.updUnit_time : (s.updUnit clu f).time = s.time := rfl
@[simp] theorem State.updUnit_wgs : (s.updUnit clu f).wgs = s.wgs := rfl
@[simp] theorem State.updUnit_groups : (s.updUnit clu f).groups = s.groups := rfl
@[simp] theorem State.updUnit_cores : (s.updUnit clu f).cores = s.cores := rfl
@[simp] theorem State.updUnit_units : (s.updUnit clu f).units =
    s.units.set .reset clu (f (s.unitAt clu)) := rfl
@[simp] theorem State.updUnit_scr : (s.updUnit clu f).scr = s.scr := rfl
@[simp] theorem State.updUnit_chip : (s.updUnit clu f).chip = s.chip := rfl
@[simp] theorem State.updUnit_dram : (s.updUnit clu f).dram = s.dram := rfl
@[simp] theorem State.updUnit_llc : (s.updUnit clu f).llc = s.llc := rfl
@[simp] theorem State.updUnit_ctlbs : (s.updUnit clu f).ctlbs = s.ctlbs := rfl
@[simp] theorem State.updUnit_copyUpdates : (s.updUnit clu f).copyUpdates = s.copyUpdates := rfl
@[simp] theorem State.updUnit_bad : (s.updUnit clu f).bad = s.bad := rfl
@[simp] theorem State.updUnit_windows : (s.updUnit clu f).windows = s.windows := rfl
@[simp] theorem State.updUnit_counters : (s.updUnit clu f).counters = s.counters := rfl
@[simp] theorem State.updUnit_world : (s.updUnit clu f).world = s.world := rfl
@[simp] theorem State.updUnit_errata : (s.updUnit clu f).errata = s.errata := rfl
@[simp] theorem State.updUnit_tabWrites : (s.updUnit clu f).tabWrites = s.tabWrites := rfl
@[simp] theorem State.updUnit_barriers : (s.updUnit clu f).barriers = s.barriers := rfl
@[simp] theorem State.updUnit_kernels : (s.updUnit clu f).kernels = s.kernels := rfl
@[simp] theorem State.updUnit_spawns : (s.updUnit clu f).spawns = s.spawns := rfl
@[simp] theorem State.updUnit_polls : (s.updUnit clu f).polls = s.polls := rfl
@[simp] theorem State.updUnit_ready : (s.updUnit clu f).ready = s.ready := rfl
@[simp] theorem State.updUnit_walkers : (s.updUnit clu f).walkers = s.walkers := rfl
@[simp] theorem State.updUnit_knodes : (s.updUnit clu f).knodes = s.knodes := rfl
@[simp] theorem State.updUnit_contexts : (s.updUnit clu f).contexts = s.contexts := rfl
@[simp] theorem State.updUnit_consumers : (s.updUnit clu f).consumers = s.consumers := rfl
@[simp] theorem State.updUnit_partitions : (s.updUnit clu f).partitions = s.partitions := rfl
@[simp] theorem State.updUnit_rings : (s.updUnit clu f).rings = s.rings := rfl
@[simp] theorem State.updUnit_unrooted : (s.updUnit clu f).unrooted = s.unrooted := rfl
@[simp] theorem State.updUnit_mailboxes : (s.updUnit clu f).mailboxes = s.mailboxes := rfl
@[simp] theorem State.updUnit_dfqs : (s.updUnit clu f).dfqs = s.dfqs := rfl
@[simp] theorem State.updUnit_late : (s.updUnit clu f).late = s.late := rfl
@[simp] theorem State.updUnit_refusals : (s.updUnit clu f).refusals = s.refusals := rfl
@[simp] theorem State.updUnit_copies : (s.updUnit clu f).copies = s.copies := rfl
@[simp] theorem State.updUnit_arrivals : (s.updUnit clu f).arrivals = s.arrivals := rfl
@[simp] theorem State.updUnit_marks : (s.updUnit clu f).marks = s.marks := rfl
@[simp] theorem State.updUnit_dieStatus : (s.updUnit clu f).dieStatus = s.dieStatus := rfl
@[simp] theorem State.updUnit_nonce : (s.updUnit clu f).nonce = s.nonce := rfl
@[simp] theorem State.updUnit_attest : (s.updUnit clu f).attest = s.attest := rfl
@[simp] theorem State.updUnit_quote : (s.updUnit clu f).quote = s.quote := rfl
@[simp] theorem State.updUnit_sign : (s.updUnit clu f).sign = s.sign := rfl
@[simp] theorem State.updUnit_links : (s.updUnit clu f).links = s.links := rfl
@[simp] theorem State.updUnit_transfers : (s.updUnit clu f).transfers = s.transfers := rfl
@[simp] theorem State.updUnit_irqs : (s.updUnit clu f).irqs = s.irqs := rfl
@[simp] theorem State.updUnit_hostReads : (s.updUnit clu f).hostReads = s.hostReads := rfl
@[simp] theorem State.updUnit_xgOut : (s.updUnit clu f).xgOut = s.xgOut := rfl
@[simp] theorem State.updUnit_clocks : (s.updUnit clu f).clocks = s.clocks := rfl
@[simp] theorem State.updUnit_lags : (s.updUnit clu f).lags = s.lags := rfl

end

/-! ### A tryte of scratchpad (State.scrSet) -/

section
variable {s : State} {core off : Nat} {v : Tryte}

@[simp] theorem State.scrSet_agenda : (s.scrSet core off v).agenda = s.agenda := rfl
@[simp] theorem State.scrSet_turns : (s.scrSet core off v).turns = s.turns := rfl
@[simp] theorem State.scrSet_free : (s.scrSet core off v).free = s.free := rfl
@[simp] theorem State.scrSet_cur : (s.scrSet core off v).cur = s.cur := rfl
@[simp] theorem State.scrSet_stamp : (s.scrSet core off v).stamp = s.stamp := rfl
@[simp] theorem State.scrSet_nextId : (s.scrSet core off v).nextId = s.nextId := rfl
@[simp] theorem State.scrSet_time : (s.scrSet core off v).time = s.time := rfl
@[simp] theorem State.scrSet_wgs : (s.scrSet core off v).wgs = s.wgs := rfl
@[simp] theorem State.scrSet_groups : (s.scrSet core off v).groups = s.groups := rfl
@[simp] theorem State.scrSet_cores : (s.scrSet core off v).cores = s.cores := rfl
@[simp] theorem State.scrSet_units : (s.scrSet core off v).units = s.units := rfl
@[simp] theorem State.scrSet_scr : (s.scrSet core off v).scr =
    s.scr.set zeroT (core * scrSize + off) v := rfl
@[simp] theorem State.scrSet_chip : (s.scrSet core off v).chip = s.chip := rfl
@[simp] theorem State.scrSet_dram : (s.scrSet core off v).dram = s.dram := rfl
@[simp] theorem State.scrSet_llc : (s.scrSet core off v).llc = s.llc := rfl
@[simp] theorem State.scrSet_ctlbs : (s.scrSet core off v).ctlbs = s.ctlbs := rfl
@[simp] theorem State.scrSet_copyUpdates : (s.scrSet core off v).copyUpdates = s.copyUpdates := rfl
@[simp] theorem State.scrSet_bad : (s.scrSet core off v).bad = s.bad := rfl
@[simp] theorem State.scrSet_windows : (s.scrSet core off v).windows = s.windows := rfl
@[simp] theorem State.scrSet_counters : (s.scrSet core off v).counters = s.counters := rfl
@[simp] theorem State.scrSet_world : (s.scrSet core off v).world = s.world := rfl
@[simp] theorem State.scrSet_errata : (s.scrSet core off v).errata = s.errata := rfl
@[simp] theorem State.scrSet_tabWrites : (s.scrSet core off v).tabWrites = s.tabWrites := rfl
@[simp] theorem State.scrSet_barriers : (s.scrSet core off v).barriers = s.barriers := rfl
@[simp] theorem State.scrSet_kernels : (s.scrSet core off v).kernels = s.kernels := rfl
@[simp] theorem State.scrSet_spawns : (s.scrSet core off v).spawns = s.spawns := rfl
@[simp] theorem State.scrSet_polls : (s.scrSet core off v).polls = s.polls := rfl
@[simp] theorem State.scrSet_ready : (s.scrSet core off v).ready = s.ready := rfl
@[simp] theorem State.scrSet_walkers : (s.scrSet core off v).walkers = s.walkers := rfl
@[simp] theorem State.scrSet_knodes : (s.scrSet core off v).knodes = s.knodes := rfl
@[simp] theorem State.scrSet_contexts : (s.scrSet core off v).contexts = s.contexts := rfl
@[simp] theorem State.scrSet_consumers : (s.scrSet core off v).consumers = s.consumers := rfl
@[simp] theorem State.scrSet_partitions : (s.scrSet core off v).partitions = s.partitions := rfl
@[simp] theorem State.scrSet_rings : (s.scrSet core off v).rings = s.rings := rfl
@[simp] theorem State.scrSet_unrooted : (s.scrSet core off v).unrooted = s.unrooted := rfl
@[simp] theorem State.scrSet_mailboxes : (s.scrSet core off v).mailboxes = s.mailboxes := rfl
@[simp] theorem State.scrSet_dfqs : (s.scrSet core off v).dfqs = s.dfqs := rfl
@[simp] theorem State.scrSet_late : (s.scrSet core off v).late = s.late := rfl
@[simp] theorem State.scrSet_refusals : (s.scrSet core off v).refusals = s.refusals := rfl
@[simp] theorem State.scrSet_copies : (s.scrSet core off v).copies = s.copies := rfl
@[simp] theorem State.scrSet_arrivals : (s.scrSet core off v).arrivals = s.arrivals := rfl
@[simp] theorem State.scrSet_marks : (s.scrSet core off v).marks = s.marks := rfl
@[simp] theorem State.scrSet_dieStatus : (s.scrSet core off v).dieStatus = s.dieStatus := rfl
@[simp] theorem State.scrSet_nonce : (s.scrSet core off v).nonce = s.nonce := rfl
@[simp] theorem State.scrSet_attest : (s.scrSet core off v).attest = s.attest := rfl
@[simp] theorem State.scrSet_quote : (s.scrSet core off v).quote = s.quote := rfl
@[simp] theorem State.scrSet_sign : (s.scrSet core off v).sign = s.sign := rfl
@[simp] theorem State.scrSet_links : (s.scrSet core off v).links = s.links := rfl
@[simp] theorem State.scrSet_transfers : (s.scrSet core off v).transfers = s.transfers := rfl
@[simp] theorem State.scrSet_irqs : (s.scrSet core off v).irqs = s.irqs := rfl
@[simp] theorem State.scrSet_hostReads : (s.scrSet core off v).hostReads = s.hostReads := rfl
@[simp] theorem State.scrSet_xgOut : (s.scrSet core off v).xgOut = s.xgOut := rfl
@[simp] theorem State.scrSet_clocks : (s.scrSet core off v).clocks = s.clocks := rfl
@[simp] theorem State.scrSet_lags : (s.scrSet core off v).lags = s.lags := rfl

end

/-! ### A tryte of chip scratchpad (State.chipSet) -/

section
variable {s : State} {die off : Nat} {v : Tryte}

@[simp] theorem State.chipSet_agenda : (s.chipSet die off v).agenda = s.agenda := rfl
@[simp] theorem State.chipSet_turns : (s.chipSet die off v).turns = s.turns := rfl
@[simp] theorem State.chipSet_free : (s.chipSet die off v).free = s.free := rfl
@[simp] theorem State.chipSet_cur : (s.chipSet die off v).cur = s.cur := rfl
@[simp] theorem State.chipSet_stamp : (s.chipSet die off v).stamp = s.stamp := rfl
@[simp] theorem State.chipSet_nextId : (s.chipSet die off v).nextId = s.nextId := rfl
@[simp] theorem State.chipSet_time : (s.chipSet die off v).time = s.time := rfl
@[simp] theorem State.chipSet_wgs : (s.chipSet die off v).wgs = s.wgs := rfl
@[simp] theorem State.chipSet_groups : (s.chipSet die off v).groups = s.groups := rfl
@[simp] theorem State.chipSet_cores : (s.chipSet die off v).cores = s.cores := rfl
@[simp] theorem State.chipSet_units : (s.chipSet die off v).units = s.units := rfl
@[simp] theorem State.chipSet_scr : (s.chipSet die off v).scr = s.scr := rfl
@[simp] theorem State.chipSet_chip : (s.chipSet die off v).chip =
    s.chip.set zeroT (die * chipSize + off) v := rfl
@[simp] theorem State.chipSet_dram : (s.chipSet die off v).dram = s.dram := rfl
@[simp] theorem State.chipSet_llc : (s.chipSet die off v).llc = s.llc := rfl
@[simp] theorem State.chipSet_ctlbs : (s.chipSet die off v).ctlbs = s.ctlbs := rfl
@[simp] theorem State.chipSet_copyUpdates : (s.chipSet die off v).copyUpdates = s.copyUpdates := rfl
@[simp] theorem State.chipSet_bad : (s.chipSet die off v).bad = s.bad := rfl
@[simp] theorem State.chipSet_windows : (s.chipSet die off v).windows = s.windows := rfl
@[simp] theorem State.chipSet_counters : (s.chipSet die off v).counters = s.counters := rfl
@[simp] theorem State.chipSet_world : (s.chipSet die off v).world = s.world := rfl
@[simp] theorem State.chipSet_errata : (s.chipSet die off v).errata = s.errata := rfl
@[simp] theorem State.chipSet_tabWrites : (s.chipSet die off v).tabWrites = s.tabWrites := rfl
@[simp] theorem State.chipSet_barriers : (s.chipSet die off v).barriers = s.barriers := rfl
@[simp] theorem State.chipSet_kernels : (s.chipSet die off v).kernels = s.kernels := rfl
@[simp] theorem State.chipSet_spawns : (s.chipSet die off v).spawns = s.spawns := rfl
@[simp] theorem State.chipSet_polls : (s.chipSet die off v).polls = s.polls := rfl
@[simp] theorem State.chipSet_ready : (s.chipSet die off v).ready = s.ready := rfl
@[simp] theorem State.chipSet_walkers : (s.chipSet die off v).walkers = s.walkers := rfl
@[simp] theorem State.chipSet_knodes : (s.chipSet die off v).knodes = s.knodes := rfl
@[simp] theorem State.chipSet_contexts : (s.chipSet die off v).contexts = s.contexts := rfl
@[simp] theorem State.chipSet_consumers : (s.chipSet die off v).consumers = s.consumers := rfl
@[simp] theorem State.chipSet_partitions : (s.chipSet die off v).partitions = s.partitions := rfl
@[simp] theorem State.chipSet_rings : (s.chipSet die off v).rings = s.rings := rfl
@[simp] theorem State.chipSet_unrooted : (s.chipSet die off v).unrooted = s.unrooted := rfl
@[simp] theorem State.chipSet_mailboxes : (s.chipSet die off v).mailboxes = s.mailboxes := rfl
@[simp] theorem State.chipSet_dfqs : (s.chipSet die off v).dfqs = s.dfqs := rfl
@[simp] theorem State.chipSet_late : (s.chipSet die off v).late = s.late := rfl
@[simp] theorem State.chipSet_refusals : (s.chipSet die off v).refusals = s.refusals := rfl
@[simp] theorem State.chipSet_copies : (s.chipSet die off v).copies = s.copies := rfl
@[simp] theorem State.chipSet_arrivals : (s.chipSet die off v).arrivals = s.arrivals := rfl
@[simp] theorem State.chipSet_marks : (s.chipSet die off v).marks = s.marks := rfl
@[simp] theorem State.chipSet_dieStatus : (s.chipSet die off v).dieStatus = s.dieStatus := rfl
@[simp] theorem State.chipSet_nonce : (s.chipSet die off v).nonce = s.nonce := rfl
@[simp] theorem State.chipSet_attest : (s.chipSet die off v).attest = s.attest := rfl
@[simp] theorem State.chipSet_quote : (s.chipSet die off v).quote = s.quote := rfl
@[simp] theorem State.chipSet_sign : (s.chipSet die off v).sign = s.sign := rfl
@[simp] theorem State.chipSet_links : (s.chipSet die off v).links = s.links := rfl
@[simp] theorem State.chipSet_transfers : (s.chipSet die off v).transfers = s.transfers := rfl
@[simp] theorem State.chipSet_irqs : (s.chipSet die off v).irqs = s.irqs := rfl
@[simp] theorem State.chipSet_hostReads : (s.chipSet die off v).hostReads = s.hostReads := rfl
@[simp] theorem State.chipSet_xgOut : (s.chipSet die off v).xgOut = s.xgOut := rfl
@[simp] theorem State.chipSet_clocks : (s.chipSet die off v).clocks = s.clocks := rfl
@[simp] theorem State.chipSet_lags : (s.chipSet die off v).lags = s.lags := rfl

end

/-! ### Bytes of DRAM (State.writeDram) -/

section
variable {s : State} {die : Nat} {lp : Bool} {byte : Nat} {bytes : List Byte}

@[simp] theorem State.writeDram_agenda : (s.writeDram die lp byte bytes).agenda = s.agenda := rfl
@[simp] theorem State.writeDram_turns : (s.writeDram die lp byte bytes).turns = s.turns := rfl
@[simp] theorem State.writeDram_free : (s.writeDram die lp byte bytes).free = s.free := rfl
@[simp] theorem State.writeDram_cur : (s.writeDram die lp byte bytes).cur = s.cur := rfl
@[simp] theorem State.writeDram_stamp : (s.writeDram die lp byte bytes).stamp = s.stamp := rfl
@[simp] theorem State.writeDram_nextId : (s.writeDram die lp byte bytes).nextId = s.nextId := rfl
@[simp] theorem State.writeDram_time : (s.writeDram die lp byte bytes).time = s.time := rfl
@[simp] theorem State.writeDram_wgs : (s.writeDram die lp byte bytes).wgs = s.wgs := rfl
@[simp] theorem State.writeDram_groups : (s.writeDram die lp byte bytes).groups = s.groups := rfl
@[simp] theorem State.writeDram_cores : (s.writeDram die lp byte bytes).cores = s.cores := rfl
@[simp] theorem State.writeDram_units : (s.writeDram die lp byte bytes).units = s.units := rfl
@[simp] theorem State.writeDram_scr : (s.writeDram die lp byte bytes).scr = s.scr := rfl
@[simp] theorem State.writeDram_chip : (s.writeDram die lp byte bytes).chip = s.chip := rfl
@[simp] theorem State.writeDram_dram : (s.writeDram die lp byte bytes).dram =
    SMap.insertRun s.dram (dramKey die lp byte) bytes := rfl
@[simp] theorem State.writeDram_llc : (s.writeDram die lp byte bytes).llc = s.llc := rfl
@[simp] theorem State.writeDram_ctlbs : (s.writeDram die lp byte bytes).ctlbs = s.ctlbs := rfl
@[simp] theorem State.writeDram_copyUpdates : (s.writeDram die lp byte bytes).copyUpdates = s.copyUpdates := rfl
@[simp] theorem State.writeDram_bad : (s.writeDram die lp byte bytes).bad = s.bad := rfl
@[simp] theorem State.writeDram_windows : (s.writeDram die lp byte bytes).windows = s.windows := rfl
@[simp] theorem State.writeDram_counters : (s.writeDram die lp byte bytes).counters = s.counters := rfl
@[simp] theorem State.writeDram_world : (s.writeDram die lp byte bytes).world = s.world := rfl
@[simp] theorem State.writeDram_errata : (s.writeDram die lp byte bytes).errata = s.errata := rfl
@[simp] theorem State.writeDram_tabWrites : (s.writeDram die lp byte bytes).tabWrites = s.tabWrites := rfl
@[simp] theorem State.writeDram_barriers : (s.writeDram die lp byte bytes).barriers = s.barriers := rfl
@[simp] theorem State.writeDram_kernels : (s.writeDram die lp byte bytes).kernels = s.kernels := rfl
@[simp] theorem State.writeDram_spawns : (s.writeDram die lp byte bytes).spawns = s.spawns := rfl
@[simp] theorem State.writeDram_polls : (s.writeDram die lp byte bytes).polls = s.polls := rfl
@[simp] theorem State.writeDram_ready : (s.writeDram die lp byte bytes).ready = s.ready := rfl
@[simp] theorem State.writeDram_walkers : (s.writeDram die lp byte bytes).walkers = s.walkers := rfl
@[simp] theorem State.writeDram_knodes : (s.writeDram die lp byte bytes).knodes = s.knodes := rfl
@[simp] theorem State.writeDram_contexts : (s.writeDram die lp byte bytes).contexts = s.contexts := rfl
@[simp] theorem State.writeDram_consumers : (s.writeDram die lp byte bytes).consumers = s.consumers := rfl
@[simp] theorem State.writeDram_partitions : (s.writeDram die lp byte bytes).partitions = s.partitions := rfl
@[simp] theorem State.writeDram_rings : (s.writeDram die lp byte bytes).rings = s.rings := rfl
@[simp] theorem State.writeDram_unrooted : (s.writeDram die lp byte bytes).unrooted = s.unrooted := rfl
@[simp] theorem State.writeDram_mailboxes : (s.writeDram die lp byte bytes).mailboxes = s.mailboxes := rfl
@[simp] theorem State.writeDram_dfqs : (s.writeDram die lp byte bytes).dfqs = s.dfqs := rfl
@[simp] theorem State.writeDram_late : (s.writeDram die lp byte bytes).late = s.late := rfl
@[simp] theorem State.writeDram_refusals : (s.writeDram die lp byte bytes).refusals = s.refusals := rfl
@[simp] theorem State.writeDram_copies : (s.writeDram die lp byte bytes).copies = s.copies := rfl
@[simp] theorem State.writeDram_arrivals : (s.writeDram die lp byte bytes).arrivals = s.arrivals := rfl
@[simp] theorem State.writeDram_marks : (s.writeDram die lp byte bytes).marks = s.marks := rfl
@[simp] theorem State.writeDram_dieStatus : (s.writeDram die lp byte bytes).dieStatus = s.dieStatus := rfl
@[simp] theorem State.writeDram_nonce : (s.writeDram die lp byte bytes).nonce = s.nonce := rfl
@[simp] theorem State.writeDram_attest : (s.writeDram die lp byte bytes).attest = s.attest := rfl
@[simp] theorem State.writeDram_quote : (s.writeDram die lp byte bytes).quote = s.quote := rfl
@[simp] theorem State.writeDram_sign : (s.writeDram die lp byte bytes).sign = s.sign := rfl
@[simp] theorem State.writeDram_links : (s.writeDram die lp byte bytes).links = s.links := rfl
@[simp] theorem State.writeDram_transfers : (s.writeDram die lp byte bytes).transfers = s.transfers := rfl
@[simp] theorem State.writeDram_irqs : (s.writeDram die lp byte bytes).irqs = s.irqs := rfl
@[simp] theorem State.writeDram_hostReads : (s.writeDram die lp byte bytes).hostReads = s.hostReads := rfl
@[simp] theorem State.writeDram_xgOut : (s.writeDram die lp byte bytes).xgOut = s.xgOut := rfl
@[simp] theorem State.writeDram_clocks : (s.writeDram die lp byte bytes).clocks = s.clocks := rfl
@[simp] theorem State.writeDram_lags : (s.writeDram die lp byte bytes).lags = s.lags := rfl

end

/-! ### A counter (State.bump) -/

section
variable {s : State} {kind die inst n : Nat}

@[simp] theorem State.bump_agenda : (s.bump kind die inst n).agenda = s.agenda := rfl
@[simp] theorem State.bump_turns : (s.bump kind die inst n).turns = s.turns := rfl
@[simp] theorem State.bump_free : (s.bump kind die inst n).free = s.free := rfl
@[simp] theorem State.bump_cur : (s.bump kind die inst n).cur = s.cur := rfl
@[simp] theorem State.bump_stamp : (s.bump kind die inst n).stamp = s.stamp := rfl
@[simp] theorem State.bump_nextId : (s.bump kind die inst n).nextId = s.nextId := rfl
@[simp] theorem State.bump_time : (s.bump kind die inst n).time = s.time := rfl
@[simp] theorem State.bump_wgs : (s.bump kind die inst n).wgs = s.wgs := rfl
@[simp] theorem State.bump_groups : (s.bump kind die inst n).groups = s.groups := rfl
@[simp] theorem State.bump_cores : (s.bump kind die inst n).cores = s.cores := rfl
@[simp] theorem State.bump_units : (s.bump kind die inst n).units = s.units := rfl
@[simp] theorem State.bump_scr : (s.bump kind die inst n).scr = s.scr := rfl
@[simp] theorem State.bump_chip : (s.bump kind die inst n).chip = s.chip := rfl
@[simp] theorem State.bump_dram : (s.bump kind die inst n).dram = s.dram := rfl
@[simp] theorem State.bump_llc : (s.bump kind die inst n).llc = s.llc := rfl
@[simp] theorem State.bump_ctlbs : (s.bump kind die inst n).ctlbs = s.ctlbs := rfl
@[simp] theorem State.bump_copyUpdates : (s.bump kind die inst n).copyUpdates = s.copyUpdates := rfl
@[simp] theorem State.bump_bad : (s.bump kind die inst n).bad = s.bad := rfl
@[simp] theorem State.bump_windows : (s.bump kind die inst n).windows = s.windows := rfl
@[simp] theorem State.bump_counters : (s.bump kind die inst n).counters =
    s.counters.set 0 (counterKey kind die inst) (min counterMax (s.counter kind die inst + n)) := rfl
@[simp] theorem State.bump_world : (s.bump kind die inst n).world = s.world := rfl
@[simp] theorem State.bump_errata : (s.bump kind die inst n).errata = s.errata := rfl
@[simp] theorem State.bump_tabWrites : (s.bump kind die inst n).tabWrites = s.tabWrites := rfl
@[simp] theorem State.bump_barriers : (s.bump kind die inst n).barriers = s.barriers := rfl
@[simp] theorem State.bump_kernels : (s.bump kind die inst n).kernels = s.kernels := rfl
@[simp] theorem State.bump_spawns : (s.bump kind die inst n).spawns = s.spawns := rfl
@[simp] theorem State.bump_polls : (s.bump kind die inst n).polls = s.polls := rfl
@[simp] theorem State.bump_ready : (s.bump kind die inst n).ready = s.ready := rfl
@[simp] theorem State.bump_walkers : (s.bump kind die inst n).walkers = s.walkers := rfl
@[simp] theorem State.bump_knodes : (s.bump kind die inst n).knodes = s.knodes := rfl
@[simp] theorem State.bump_contexts : (s.bump kind die inst n).contexts = s.contexts := rfl
@[simp] theorem State.bump_consumers : (s.bump kind die inst n).consumers = s.consumers := rfl
@[simp] theorem State.bump_partitions : (s.bump kind die inst n).partitions = s.partitions := rfl
@[simp] theorem State.bump_rings : (s.bump kind die inst n).rings = s.rings := rfl
@[simp] theorem State.bump_unrooted : (s.bump kind die inst n).unrooted = s.unrooted := rfl
@[simp] theorem State.bump_mailboxes : (s.bump kind die inst n).mailboxes = s.mailboxes := rfl
@[simp] theorem State.bump_dfqs : (s.bump kind die inst n).dfqs = s.dfqs := rfl
@[simp] theorem State.bump_late : (s.bump kind die inst n).late = s.late := rfl
@[simp] theorem State.bump_refusals : (s.bump kind die inst n).refusals = s.refusals := rfl
@[simp] theorem State.bump_copies : (s.bump kind die inst n).copies = s.copies := rfl
@[simp] theorem State.bump_arrivals : (s.bump kind die inst n).arrivals = s.arrivals := rfl
@[simp] theorem State.bump_marks : (s.bump kind die inst n).marks = s.marks := rfl
@[simp] theorem State.bump_dieStatus : (s.bump kind die inst n).dieStatus = s.dieStatus := rfl
@[simp] theorem State.bump_nonce : (s.bump kind die inst n).nonce = s.nonce := rfl
@[simp] theorem State.bump_attest : (s.bump kind die inst n).attest = s.attest := rfl
@[simp] theorem State.bump_quote : (s.bump kind die inst n).quote = s.quote := rfl
@[simp] theorem State.bump_sign : (s.bump kind die inst n).sign = s.sign := rfl
@[simp] theorem State.bump_links : (s.bump kind die inst n).links = s.links := rfl
@[simp] theorem State.bump_transfers : (s.bump kind die inst n).transfers = s.transfers := rfl
@[simp] theorem State.bump_irqs : (s.bump kind die inst n).irqs = s.irqs := rfl
@[simp] theorem State.bump_hostReads : (s.bump kind die inst n).hostReads = s.hostReads := rfl
@[simp] theorem State.bump_xgOut : (s.bump kind die inst n).xgOut = s.xgOut := rfl
@[simp] theorem State.bump_clocks : (s.bump kind die inst n).clocks = s.clocks := rfl
@[simp] theorem State.bump_lags : (s.bump kind die inst n).lags = s.lags := rfl

end

/-! ### A late record (State.noteLate) -/

section
variable {s : State} {r : FaultRec} {reg : Region}

@[simp] theorem State.noteLate_agenda : (s.noteLate r reg).agenda = s.agenda := by
  unfold State.noteLate State.charge; split <;> rfl
@[simp] theorem State.noteLate_turns : (s.noteLate r reg).turns = s.turns := by
  unfold State.noteLate State.charge; split <;> rfl
@[simp] theorem State.noteLate_free : (s.noteLate r reg).free = s.free := by
  unfold State.noteLate State.charge; split <;> rfl
@[simp] theorem State.noteLate_cur : (s.noteLate r reg).cur = s.cur := by
  unfold State.noteLate State.charge; split <;> rfl
@[simp] theorem State.noteLate_stamp : (s.noteLate r reg).stamp = s.stamp := by
  unfold State.noteLate State.charge; split <;> rfl
@[simp] theorem State.noteLate_nextId : (s.noteLate r reg).nextId = s.nextId := by
  unfold State.noteLate State.charge; split <;> rfl
@[simp] theorem State.noteLate_time : (s.noteLate r reg).time = s.time := by
  unfold State.noteLate State.charge; split <;> rfl
@[simp] theorem State.noteLate_wgs : (s.noteLate r reg).wgs = s.wgs := by
  unfold State.noteLate State.charge; split <;> rfl
@[simp] theorem State.noteLate_groups : (s.noteLate r reg).groups = s.groups := by
  unfold State.noteLate State.charge; split <;> rfl
@[simp] theorem State.noteLate_cores : (s.noteLate r reg).cores = s.cores := by
  unfold State.noteLate State.charge; split <;> rfl
@[simp] theorem State.noteLate_units : (s.noteLate r reg).units = s.units := by
  unfold State.noteLate State.charge; split <;> rfl
@[simp] theorem State.noteLate_scr : (s.noteLate r reg).scr = s.scr := by
  unfold State.noteLate State.charge; split <;> rfl
@[simp] theorem State.noteLate_chip : (s.noteLate r reg).chip = s.chip := by
  unfold State.noteLate State.charge; split <;> rfl
@[simp] theorem State.noteLate_dram : (s.noteLate r reg).dram = s.dram := by
  unfold State.noteLate State.charge; split <;> rfl
@[simp] theorem State.noteLate_llc : (s.noteLate r reg).llc = s.llc := by
  unfold State.noteLate State.charge; split <;> rfl
@[simp] theorem State.noteLate_ctlbs : (s.noteLate r reg).ctlbs = s.ctlbs := by
  unfold State.noteLate State.charge; split <;> rfl
@[simp] theorem State.noteLate_copyUpdates : (s.noteLate r reg).copyUpdates = s.copyUpdates := by
  unfold State.noteLate State.charge; split <;> rfl
@[simp] theorem State.noteLate_bad : (s.noteLate r reg).bad = s.bad := by
  unfold State.noteLate State.charge; split <;> rfl
@[simp] theorem State.noteLate_windows : (s.noteLate r reg).windows = s.windows := by
  unfold State.noteLate State.charge; split <;> rfl
@[simp] theorem State.noteLate_counters : (s.noteLate r reg).counters = s.counters := by
  unfold State.noteLate State.charge; split <;> rfl
@[simp] theorem State.noteLate_world : (s.noteLate r reg).world = s.world := by
  unfold State.noteLate State.charge; split <;> rfl
@[simp] theorem State.noteLate_errata : (s.noteLate r reg).errata = s.errata := by
  unfold State.noteLate State.charge; split <;> rfl
@[simp] theorem State.noteLate_tabWrites : (s.noteLate r reg).tabWrites = s.tabWrites := by
  unfold State.noteLate State.charge; split <;> rfl
@[simp] theorem State.noteLate_barriers : (s.noteLate r reg).barriers = s.barriers := by
  unfold State.noteLate State.charge; split <;> rfl
@[simp] theorem State.noteLate_kernels : (s.noteLate r reg).kernels = s.kernels := by
  unfold State.noteLate State.charge; split <;> rfl
@[simp] theorem State.noteLate_spawns : (s.noteLate r reg).spawns = s.spawns := by
  unfold State.noteLate State.charge; split <;> rfl
@[simp] theorem State.noteLate_polls : (s.noteLate r reg).polls = s.polls := by
  unfold State.noteLate State.charge; split <;> rfl
@[simp] theorem State.noteLate_ready : (s.noteLate r reg).ready = s.ready := by
  unfold State.noteLate State.charge; split <;> rfl
@[simp] theorem State.noteLate_walkers : (s.noteLate r reg).walkers = s.walkers := by
  unfold State.noteLate State.charge; split <;> rfl
@[simp] theorem State.noteLate_contexts : (s.noteLate r reg).contexts = s.contexts := by
  unfold State.noteLate State.charge; split <;> rfl
@[simp] theorem State.noteLate_consumers : (s.noteLate r reg).consumers = s.consumers := by
  unfold State.noteLate State.charge; split <;> rfl
@[simp] theorem State.noteLate_partitions : (s.noteLate r reg).partitions = s.partitions := by
  unfold State.noteLate State.charge; split <;> rfl
@[simp] theorem State.noteLate_rings : (s.noteLate r reg).rings = s.rings := by
  unfold State.noteLate State.charge; split <;> rfl
@[simp] theorem State.noteLate_unrooted : (s.noteLate r reg).unrooted = s.unrooted := by
  unfold State.noteLate State.charge; split <;> rfl
@[simp] theorem State.noteLate_mailboxes : (s.noteLate r reg).mailboxes = s.mailboxes := by
  unfold State.noteLate State.charge; split <;> rfl
@[simp] theorem State.noteLate_dfqs : (s.noteLate r reg).dfqs = s.dfqs := by
  unfold State.noteLate State.charge; split <;> rfl
@[simp] theorem State.noteLate_refusals : (s.noteLate r reg).refusals = s.refusals := by
  unfold State.noteLate State.charge; split <;> rfl
@[simp] theorem State.noteLate_copies : (s.noteLate r reg).copies = s.copies := by
  unfold State.noteLate State.charge; split <;> rfl
@[simp] theorem State.noteLate_arrivals : (s.noteLate r reg).arrivals = s.arrivals := by
  unfold State.noteLate State.charge; split <;> rfl
@[simp] theorem State.noteLate_marks : (s.noteLate r reg).marks = s.marks := by
  unfold State.noteLate State.charge; split <;> rfl
@[simp] theorem State.noteLate_dieStatus : (s.noteLate r reg).dieStatus = s.dieStatus := by
  unfold State.noteLate State.charge; split <;> rfl
@[simp] theorem State.noteLate_nonce : (s.noteLate r reg).nonce = s.nonce := by
  unfold State.noteLate State.charge; split <;> rfl
@[simp] theorem State.noteLate_attest : (s.noteLate r reg).attest = s.attest := by
  unfold State.noteLate State.charge; split <;> rfl
@[simp] theorem State.noteLate_quote : (s.noteLate r reg).quote = s.quote := by
  unfold State.noteLate State.charge; split <;> rfl
@[simp] theorem State.noteLate_sign : (s.noteLate r reg).sign = s.sign := by
  unfold State.noteLate State.charge; split <;> rfl
@[simp] theorem State.noteLate_links : (s.noteLate r reg).links = s.links := by
  unfold State.noteLate State.charge; split <;> rfl
@[simp] theorem State.noteLate_transfers : (s.noteLate r reg).transfers = s.transfers := by
  unfold State.noteLate State.charge; split <;> rfl
@[simp] theorem State.noteLate_irqs : (s.noteLate r reg).irqs = s.irqs := by
  unfold State.noteLate State.charge; split <;> rfl
@[simp] theorem State.noteLate_hostReads : (s.noteLate r reg).hostReads = s.hostReads := by
  unfold State.noteLate State.charge; split <;> rfl
@[simp] theorem State.noteLate_xgOut : (s.noteLate r reg).xgOut = s.xgOut := by
  unfold State.noteLate State.charge; split <;> rfl
@[simp] theorem State.noteLate_clocks : (s.noteLate r reg).clocks = s.clocks := by
  unfold State.noteLate State.charge; split <;> rfl
@[simp] theorem State.noteLate_lags : (s.noteLate r reg).lags = s.lags := by
  unfold State.noteLate State.charge; split <;> rfl

end

/-! ### A mailbox (State.setBox) -/

section
variable {s : State} {n : Nat} {b : Mailbox}

@[simp] theorem State.setBox_agenda : (s.setBox n b).agenda = s.agenda := rfl
@[simp] theorem State.setBox_turns : (s.setBox n b).turns = s.turns := rfl
@[simp] theorem State.setBox_free : (s.setBox n b).free = s.free := rfl
@[simp] theorem State.setBox_cur : (s.setBox n b).cur = s.cur := rfl
@[simp] theorem State.setBox_stamp : (s.setBox n b).stamp = s.stamp := rfl
@[simp] theorem State.setBox_nextId : (s.setBox n b).nextId = s.nextId := rfl
@[simp] theorem State.setBox_time : (s.setBox n b).time = s.time := rfl
@[simp] theorem State.setBox_wgs : (s.setBox n b).wgs = s.wgs := rfl
@[simp] theorem State.setBox_groups : (s.setBox n b).groups = s.groups := rfl
@[simp] theorem State.setBox_cores : (s.setBox n b).cores = s.cores := rfl
@[simp] theorem State.setBox_units : (s.setBox n b).units = s.units := rfl
@[simp] theorem State.setBox_scr : (s.setBox n b).scr = s.scr := rfl
@[simp] theorem State.setBox_chip : (s.setBox n b).chip = s.chip := rfl
@[simp] theorem State.setBox_dram : (s.setBox n b).dram = s.dram := rfl
@[simp] theorem State.setBox_llc : (s.setBox n b).llc = s.llc := rfl
@[simp] theorem State.setBox_ctlbs : (s.setBox n b).ctlbs = s.ctlbs := rfl
@[simp] theorem State.setBox_copyUpdates : (s.setBox n b).copyUpdates = s.copyUpdates := rfl
@[simp] theorem State.setBox_bad : (s.setBox n b).bad = s.bad := rfl
@[simp] theorem State.setBox_windows : (s.setBox n b).windows = s.windows := rfl
@[simp] theorem State.setBox_counters : (s.setBox n b).counters = s.counters := rfl
@[simp] theorem State.setBox_world : (s.setBox n b).world = s.world := rfl
@[simp] theorem State.setBox_errata : (s.setBox n b).errata = s.errata := rfl
@[simp] theorem State.setBox_tabWrites : (s.setBox n b).tabWrites = s.tabWrites := rfl
@[simp] theorem State.setBox_barriers : (s.setBox n b).barriers = s.barriers := rfl
@[simp] theorem State.setBox_kernels : (s.setBox n b).kernels = s.kernels := rfl
@[simp] theorem State.setBox_spawns : (s.setBox n b).spawns = s.spawns := rfl
@[simp] theorem State.setBox_polls : (s.setBox n b).polls = s.polls := rfl
@[simp] theorem State.setBox_ready : (s.setBox n b).ready = s.ready := rfl
@[simp] theorem State.setBox_walkers : (s.setBox n b).walkers = s.walkers := rfl
@[simp] theorem State.setBox_knodes : (s.setBox n b).knodes = s.knodes := rfl
@[simp] theorem State.setBox_contexts : (s.setBox n b).contexts = s.contexts := rfl
@[simp] theorem State.setBox_consumers : (s.setBox n b).consumers = s.consumers := rfl
@[simp] theorem State.setBox_partitions : (s.setBox n b).partitions = s.partitions := rfl
@[simp] theorem State.setBox_rings : (s.setBox n b).rings = s.rings := rfl
@[simp] theorem State.setBox_unrooted : (s.setBox n b).unrooted = s.unrooted := rfl
@[simp] theorem State.setBox_mailboxes : (s.setBox n b).mailboxes =
    s.mailboxes.set .empty n b := rfl
@[simp] theorem State.setBox_dfqs : (s.setBox n b).dfqs = s.dfqs := rfl
@[simp] theorem State.setBox_late : (s.setBox n b).late = s.late := rfl
@[simp] theorem State.setBox_refusals : (s.setBox n b).refusals = s.refusals := rfl
@[simp] theorem State.setBox_copies : (s.setBox n b).copies = s.copies := rfl
@[simp] theorem State.setBox_arrivals : (s.setBox n b).arrivals = s.arrivals := rfl
@[simp] theorem State.setBox_marks : (s.setBox n b).marks = s.marks := rfl
@[simp] theorem State.setBox_dieStatus : (s.setBox n b).dieStatus = s.dieStatus := rfl
@[simp] theorem State.setBox_nonce : (s.setBox n b).nonce = s.nonce := rfl
@[simp] theorem State.setBox_attest : (s.setBox n b).attest = s.attest := rfl
@[simp] theorem State.setBox_quote : (s.setBox n b).quote = s.quote := rfl
@[simp] theorem State.setBox_sign : (s.setBox n b).sign = s.sign := rfl
@[simp] theorem State.setBox_links : (s.setBox n b).links = s.links := rfl
@[simp] theorem State.setBox_transfers : (s.setBox n b).transfers = s.transfers := rfl
@[simp] theorem State.setBox_irqs : (s.setBox n b).irqs = s.irqs := rfl
@[simp] theorem State.setBox_hostReads : (s.setBox n b).hostReads = s.hostReads := rfl
@[simp] theorem State.setBox_xgOut : (s.setBox n b).xgOut = s.xgOut := rfl
@[simp] theorem State.setBox_clocks : (s.setBox n b).clocks = s.clocks := rfl
@[simp] theorem State.setBox_lags : (s.setBox n b).lags = s.lags := rfl

end

/-! ### A copy (State.updCopy) -/

section
variable {s : State} {id : Nat} {f : Copy → Copy}

@[simp] theorem State.updCopy_agenda : (s.updCopy id f).agenda = s.agenda := rfl
@[simp] theorem State.updCopy_turns : (s.updCopy id f).turns = s.turns := rfl
@[simp] theorem State.updCopy_free : (s.updCopy id f).free = s.free := rfl
@[simp] theorem State.updCopy_cur : (s.updCopy id f).cur = s.cur := rfl
@[simp] theorem State.updCopy_stamp : (s.updCopy id f).stamp = s.stamp := rfl
@[simp] theorem State.updCopy_nextId : (s.updCopy id f).nextId = s.nextId := rfl
@[simp] theorem State.updCopy_time : (s.updCopy id f).time = s.time := rfl
@[simp] theorem State.updCopy_wgs : (s.updCopy id f).wgs = s.wgs := rfl
@[simp] theorem State.updCopy_groups : (s.updCopy id f).groups = s.groups := rfl
@[simp] theorem State.updCopy_cores : (s.updCopy id f).cores = s.cores := rfl
@[simp] theorem State.updCopy_units : (s.updCopy id f).units = s.units := rfl
@[simp] theorem State.updCopy_scr : (s.updCopy id f).scr = s.scr := rfl
@[simp] theorem State.updCopy_chip : (s.updCopy id f).chip = s.chip := rfl
@[simp] theorem State.updCopy_dram : (s.updCopy id f).dram = s.dram := rfl
@[simp] theorem State.updCopy_llc : (s.updCopy id f).llc = s.llc := rfl
@[simp] theorem State.updCopy_ctlbs : (s.updCopy id f).ctlbs = s.ctlbs := rfl
@[simp] theorem State.updCopy_copyUpdates : (s.updCopy id f).copyUpdates = s.copyUpdates := rfl
@[simp] theorem State.updCopy_bad : (s.updCopy id f).bad = s.bad := rfl
@[simp] theorem State.updCopy_windows : (s.updCopy id f).windows = s.windows := rfl
@[simp] theorem State.updCopy_counters : (s.updCopy id f).counters = s.counters := rfl
@[simp] theorem State.updCopy_world : (s.updCopy id f).world = s.world := rfl
@[simp] theorem State.updCopy_errata : (s.updCopy id f).errata = s.errata := rfl
@[simp] theorem State.updCopy_tabWrites : (s.updCopy id f).tabWrites = s.tabWrites := rfl
@[simp] theorem State.updCopy_barriers : (s.updCopy id f).barriers = s.barriers := rfl
@[simp] theorem State.updCopy_kernels : (s.updCopy id f).kernels = s.kernels := rfl
@[simp] theorem State.updCopy_spawns : (s.updCopy id f).spawns = s.spawns := rfl
@[simp] theorem State.updCopy_polls : (s.updCopy id f).polls = s.polls := rfl
@[simp] theorem State.updCopy_ready : (s.updCopy id f).ready = s.ready := rfl
@[simp] theorem State.updCopy_walkers : (s.updCopy id f).walkers = s.walkers := rfl
@[simp] theorem State.updCopy_knodes : (s.updCopy id f).knodes = s.knodes := rfl
@[simp] theorem State.updCopy_contexts : (s.updCopy id f).contexts = s.contexts := rfl
@[simp] theorem State.updCopy_consumers : (s.updCopy id f).consumers = s.consumers := rfl
@[simp] theorem State.updCopy_partitions : (s.updCopy id f).partitions = s.partitions := rfl
@[simp] theorem State.updCopy_rings : (s.updCopy id f).rings = s.rings := rfl
@[simp] theorem State.updCopy_unrooted : (s.updCopy id f).unrooted = s.unrooted := rfl
@[simp] theorem State.updCopy_mailboxes : (s.updCopy id f).mailboxes = s.mailboxes := rfl
@[simp] theorem State.updCopy_dfqs : (s.updCopy id f).dfqs = s.dfqs := rfl
@[simp] theorem State.updCopy_late : (s.updCopy id f).late = s.late := rfl
@[simp] theorem State.updCopy_refusals : (s.updCopy id f).refusals = s.refusals := rfl
@[simp] theorem State.updCopy_copies : (s.updCopy id f).copies =
    s.copies.map fun c => if c.id == id then f c else c := rfl
@[simp] theorem State.updCopy_arrivals : (s.updCopy id f).arrivals = s.arrivals := rfl
@[simp] theorem State.updCopy_marks : (s.updCopy id f).marks = s.marks := rfl
@[simp] theorem State.updCopy_dieStatus : (s.updCopy id f).dieStatus = s.dieStatus := rfl
@[simp] theorem State.updCopy_nonce : (s.updCopy id f).nonce = s.nonce := rfl
@[simp] theorem State.updCopy_attest : (s.updCopy id f).attest = s.attest := rfl
@[simp] theorem State.updCopy_quote : (s.updCopy id f).quote = s.quote := rfl
@[simp] theorem State.updCopy_sign : (s.updCopy id f).sign = s.sign := rfl
@[simp] theorem State.updCopy_links : (s.updCopy id f).links = s.links := rfl
@[simp] theorem State.updCopy_transfers : (s.updCopy id f).transfers = s.transfers := rfl
@[simp] theorem State.updCopy_irqs : (s.updCopy id f).irqs = s.irqs := rfl
@[simp] theorem State.updCopy_hostReads : (s.updCopy id f).hostReads = s.hostReads := rfl
@[simp] theorem State.updCopy_xgOut : (s.updCopy id f).xgOut = s.xgOut := rfl
@[simp] theorem State.updCopy_clocks : (s.updCopy id f).clocks = s.clocks := rfl
@[simp] theorem State.updCopy_lags : (s.updCopy id f).lags = s.lags := rfl

end

/-! ### A kernel node (State.updKnode) -/

section
variable {s : State} {id : Nat} {f : KNode → KNode}

@[simp] theorem State.updKnode_agenda : (s.updKnode id f).agenda = s.agenda := rfl
@[simp] theorem State.updKnode_turns : (s.updKnode id f).turns = s.turns := rfl
@[simp] theorem State.updKnode_free : (s.updKnode id f).free = s.free := rfl
@[simp] theorem State.updKnode_cur : (s.updKnode id f).cur = s.cur := rfl
@[simp] theorem State.updKnode_stamp : (s.updKnode id f).stamp = s.stamp := rfl
@[simp] theorem State.updKnode_nextId : (s.updKnode id f).nextId = s.nextId := rfl
@[simp] theorem State.updKnode_time : (s.updKnode id f).time = s.time := rfl
@[simp] theorem State.updKnode_wgs : (s.updKnode id f).wgs = s.wgs := rfl
@[simp] theorem State.updKnode_groups : (s.updKnode id f).groups = s.groups := rfl
@[simp] theorem State.updKnode_cores : (s.updKnode id f).cores = s.cores := rfl
@[simp] theorem State.updKnode_units : (s.updKnode id f).units = s.units := rfl
@[simp] theorem State.updKnode_scr : (s.updKnode id f).scr = s.scr := rfl
@[simp] theorem State.updKnode_chip : (s.updKnode id f).chip = s.chip := rfl
@[simp] theorem State.updKnode_dram : (s.updKnode id f).dram = s.dram := rfl
@[simp] theorem State.updKnode_llc : (s.updKnode id f).llc = s.llc := rfl
@[simp] theorem State.updKnode_ctlbs : (s.updKnode id f).ctlbs = s.ctlbs := rfl
@[simp] theorem State.updKnode_copyUpdates : (s.updKnode id f).copyUpdates = s.copyUpdates := rfl
@[simp] theorem State.updKnode_bad : (s.updKnode id f).bad = s.bad := rfl
@[simp] theorem State.updKnode_windows : (s.updKnode id f).windows = s.windows := rfl
@[simp] theorem State.updKnode_counters : (s.updKnode id f).counters = s.counters := rfl
@[simp] theorem State.updKnode_world : (s.updKnode id f).world = s.world := rfl
@[simp] theorem State.updKnode_errata : (s.updKnode id f).errata = s.errata := rfl
@[simp] theorem State.updKnode_tabWrites : (s.updKnode id f).tabWrites = s.tabWrites := rfl
@[simp] theorem State.updKnode_barriers : (s.updKnode id f).barriers = s.barriers := rfl
@[simp] theorem State.updKnode_kernels : (s.updKnode id f).kernels = s.kernels := rfl
@[simp] theorem State.updKnode_spawns : (s.updKnode id f).spawns = s.spawns := rfl
@[simp] theorem State.updKnode_polls : (s.updKnode id f).polls = s.polls := rfl
@[simp] theorem State.updKnode_ready : (s.updKnode id f).ready = s.ready := rfl
@[simp] theorem State.updKnode_walkers : (s.updKnode id f).walkers = s.walkers := rfl
@[simp] theorem State.updKnode_knodes : (s.updKnode id f).knodes =
    s.knodes.map fun k => if k.id == id then f k else k := rfl
@[simp] theorem State.updKnode_contexts : (s.updKnode id f).contexts = s.contexts := rfl
@[simp] theorem State.updKnode_consumers : (s.updKnode id f).consumers = s.consumers := rfl
@[simp] theorem State.updKnode_partitions : (s.updKnode id f).partitions = s.partitions := rfl
@[simp] theorem State.updKnode_rings : (s.updKnode id f).rings = s.rings := rfl
@[simp] theorem State.updKnode_unrooted : (s.updKnode id f).unrooted = s.unrooted := rfl
@[simp] theorem State.updKnode_mailboxes : (s.updKnode id f).mailboxes = s.mailboxes := rfl
@[simp] theorem State.updKnode_dfqs : (s.updKnode id f).dfqs = s.dfqs := rfl
@[simp] theorem State.updKnode_late : (s.updKnode id f).late = s.late := rfl
@[simp] theorem State.updKnode_refusals : (s.updKnode id f).refusals = s.refusals := rfl
@[simp] theorem State.updKnode_copies : (s.updKnode id f).copies = s.copies := rfl
@[simp] theorem State.updKnode_arrivals : (s.updKnode id f).arrivals = s.arrivals := rfl
@[simp] theorem State.updKnode_marks : (s.updKnode id f).marks = s.marks := rfl
@[simp] theorem State.updKnode_dieStatus : (s.updKnode id f).dieStatus = s.dieStatus := rfl
@[simp] theorem State.updKnode_nonce : (s.updKnode id f).nonce = s.nonce := rfl
@[simp] theorem State.updKnode_attest : (s.updKnode id f).attest = s.attest := rfl
@[simp] theorem State.updKnode_quote : (s.updKnode id f).quote = s.quote := rfl
@[simp] theorem State.updKnode_sign : (s.updKnode id f).sign = s.sign := rfl
@[simp] theorem State.updKnode_links : (s.updKnode id f).links = s.links := rfl
@[simp] theorem State.updKnode_transfers : (s.updKnode id f).transfers = s.transfers := rfl
@[simp] theorem State.updKnode_irqs : (s.updKnode id f).irqs = s.irqs := rfl
@[simp] theorem State.updKnode_hostReads : (s.updKnode id f).hostReads = s.hostReads := rfl
@[simp] theorem State.updKnode_xgOut : (s.updKnode id f).xgOut = s.xgOut := rfl
@[simp] theorem State.updKnode_clocks : (s.updKnode id f).clocks = s.clocks := rfl
@[simp] theorem State.updKnode_lags : (s.updKnode id f).lags = s.lags := rfl

end

/-! ### Registers of a lane (Lane.wrG, wrH, wrK) -/

section
variable {l : Lane} {n : Nat} {v : Word}

@[simp] theorem Lane.wrG_thread : (l.wrG n v).thread = l.thread := by
  unfold Lane.wrG; split <;> rfl
@[simp] theorem Lane.wrG_st : (l.wrG n v).st = l.st := by
  unfold Lane.wrG; split <;> rfl
@[simp] theorem Lane.wrG_pc : (l.wrG n v).pc = l.pc := by
  unfold Lane.wrG; split <;> rfl
@[simp] theorem Lane.wrG_skip : (l.wrG n v).skip = l.skip := by
  unfold Lane.wrG; split <;> rfl
@[simp] theorem Lane.wrG_h : (l.wrG n v).h = l.h := by
  unfold Lane.wrG; split <;> rfl
@[simp] theorem Lane.wrG_k : (l.wrG n v).k = l.k := by
  unfold Lane.wrG; split <;> rfl
@[simp] theorem Lane.wrG_fs : (l.wrG n v).fs = l.fs := by
  unfold Lane.wrG; split <;> rfl
@[simp] theorem Lane.wrG_rng : (l.wrG n v).rng = l.rng := by
  unfold Lane.wrG; split <;> rfl
@[simp] theorem Lane.wrG_timeHi : (l.wrG n v).timeHi = l.timeHi := by
  unfold Lane.wrG; split <;> rfl
@[simp] theorem Lane.wrG_bank : (l.wrG n v).bank = l.bank := by
  unfold Lane.wrG; split <;> rfl

end

/-! ### Run temporaries of a lane -/

section
variable {l : Lane} {n : Nat} {v : Word}

@[simp] theorem Lane.wrH_thread : (l.wrH n v).thread = l.thread := rfl
@[simp] theorem Lane.wrH_st : (l.wrH n v).st = l.st := rfl
@[simp] theorem Lane.wrH_pc : (l.wrH n v).pc = l.pc := rfl
@[simp] theorem Lane.wrH_skip : (l.wrH n v).skip = l.skip := rfl
@[simp] theorem Lane.wrH_g : (l.wrH n v).g = l.g := rfl
@[simp] theorem Lane.wrH_h : (l.wrH n v).h =
    l.h.set zeroW n v := rfl
@[simp] theorem Lane.wrH_k : (l.wrH n v).k = l.k := rfl
@[simp] theorem Lane.wrH_fs : (l.wrH n v).fs = l.fs := rfl
@[simp] theorem Lane.wrH_rng : (l.wrH n v).rng = l.rng := rfl
@[simp] theorem Lane.wrH_timeHi : (l.wrH n v).timeHi = l.timeHi := rfl
@[simp] theorem Lane.wrH_bank : (l.wrH n v).bank = l.bank := rfl

end

/-! ### Predicate registers of a lane -/

section
variable {l : Lane} {n : Nat} {v : Trits 3}

@[simp] theorem Lane.wrK_thread : (l.wrK n v).thread = l.thread := by
  unfold Lane.wrK; split <;> rfl
@[simp] theorem Lane.wrK_st : (l.wrK n v).st = l.st := by
  unfold Lane.wrK; split <;> rfl
@[simp] theorem Lane.wrK_pc : (l.wrK n v).pc = l.pc := by
  unfold Lane.wrK; split <;> rfl
@[simp] theorem Lane.wrK_skip : (l.wrK n v).skip = l.skip := by
  unfold Lane.wrK; split <;> rfl
@[simp] theorem Lane.wrK_g : (l.wrK n v).g = l.g := by
  unfold Lane.wrK; split <;> rfl
@[simp] theorem Lane.wrK_h : (l.wrK n v).h = l.h := by
  unfold Lane.wrK; split <;> rfl
@[simp] theorem Lane.wrK_fs : (l.wrK n v).fs = l.fs := by
  unfold Lane.wrK; split <;> rfl
@[simp] theorem Lane.wrK_rng : (l.wrK n v).rng = l.rng := by
  unfold Lane.wrK; split <;> rfl
@[simp] theorem Lane.wrK_timeHi : (l.wrK n v).timeHi = l.timeHi := by
  unfold Lane.wrK; split <;> rfl
@[simp] theorem Lane.wrK_bank : (l.wrK n v).bank = l.bank := by
  unfold Lane.wrK; split <;> rfl

end

/-! ### Scalar registers of a group (Group.wrS) -/

section
variable {g : Group} {n : Nat} {v : Word}

@[simp] theorem Group.wrS_wg : (g.wrS n v).wg = g.wg := by
  unfold Group.wrS; split <;> rfl
@[simp] theorem Group.wrS_hw : (g.wrS n v).hw = g.hw := by
  unfold Group.wrS; split <;> rfl
@[simp] theorem Group.wrS_slot : (g.wrS n v).slot = g.slot := by
  unfold Group.wrS; split <;> rfl
@[simp] theorem Group.wrS_lanes : (g.wrS n v).lanes = g.lanes := by
  unfold Group.wrS; split <;> rfl
@[simp] theorem Group.wrS_w : (g.wrS n v).w = g.w := by
  unfold Group.wrS; split <;> rfl
@[simp] theorem Group.wrS_pend : (g.wrS n v).pend = g.pend := by
  unfold Group.wrS; split <;> rfl
@[simp] theorem Group.wrS_calls : (g.wrS n v).calls = g.calls := by
  unfold Group.wrS; split <;> rfl
@[simp] theorem Group.wrS_phase : (g.wrS n v).phase = g.phase := by
  unfold Group.wrS; split <;> rfl
@[simp] theorem Group.wrS_run : (g.wrS n v).run = g.run := by
  unfold Group.wrS; split <;> rfl
@[simp] theorem Group.wrS_mask : (g.wrS n v).mask = g.mask := by
  unfold Group.wrS; split <;> rfl
@[simp] theorem Group.wrS_lastStart : (g.wrS n v).lastStart = g.lastStart := by
  unfold Group.wrS; split <;> rfl
@[simp] theorem Group.wrS_placed : (g.wrS n v).placed = g.placed := by
  unfold Group.wrS; split <;> rfl
@[simp] theorem Group.wrS_ceded : (g.wrS n v).ceded = g.ceded := by
  unfold Group.wrS; split <;> rfl
@[simp] theorem Group.wrS_handler : (g.wrS n v).handler = g.handler := by
  unfold Group.wrS; split <;> rfl
@[simp] theorem Group.wrS_resuming : (g.wrS n v).resuming = g.resuming := by
  unfold Group.wrS; split <;> rfl
@[simp] theorem Group.wrS_saveFrame : (g.wrS n v).saveFrame = g.saveFrame := by
  unfold Group.wrS; split <;> rfl
@[simp] theorem Group.wrS_noRecord : (g.wrS n v).noRecord = g.noRecord := by
  unfold Group.wrS; split <;> rfl
@[simp] theorem Group.wrS_cpys : (g.wrS n v).cpys = g.cpys := by
  unfold Group.wrS; split <;> rfl
@[simp] theorem Group.wrS_stale : (g.wrS n v).stale = g.stale := by
  unfold Group.wrS; split <;> rfl

end

/-! ### Wait slots of a group (Group.wrW) -/

section
variable {g : Group} {n v : Nat}

@[simp] theorem Group.wrW_wg : (g.wrW n v).wg = g.wg := rfl
@[simp] theorem Group.wrW_hw : (g.wrW n v).hw = g.hw := rfl
@[simp] theorem Group.wrW_slot : (g.wrW n v).slot = g.slot := rfl
@[simp] theorem Group.wrW_lanes : (g.wrW n v).lanes = g.lanes := rfl
@[simp] theorem Group.wrW_s : (g.wrW n v).s = g.s := rfl
@[simp] theorem Group.wrW_w : (g.wrW n v).w =
    g.w.set 0 n v := rfl
@[simp] theorem Group.wrW_pend : (g.wrW n v).pend = g.pend := rfl
@[simp] theorem Group.wrW_calls : (g.wrW n v).calls = g.calls := rfl
@[simp] theorem Group.wrW_phase : (g.wrW n v).phase = g.phase := rfl
@[simp] theorem Group.wrW_run : (g.wrW n v).run = g.run := rfl
@[simp] theorem Group.wrW_mask : (g.wrW n v).mask = g.mask := rfl
@[simp] theorem Group.wrW_lastStart : (g.wrW n v).lastStart = g.lastStart := rfl
@[simp] theorem Group.wrW_placed : (g.wrW n v).placed = g.placed := rfl
@[simp] theorem Group.wrW_ceded : (g.wrW n v).ceded = g.ceded := rfl
@[simp] theorem Group.wrW_handler : (g.wrW n v).handler = g.handler := rfl
@[simp] theorem Group.wrW_resuming : (g.wrW n v).resuming = g.resuming := rfl
@[simp] theorem Group.wrW_saveFrame : (g.wrW n v).saveFrame = g.saveFrame := rfl
@[simp] theorem Group.wrW_noRecord : (g.wrW n v).noRecord = g.noRecord := rfl
@[simp] theorem Group.wrW_cpys : (g.wrW n v).cpys = g.cpys := rfl
@[simp] theorem Group.wrW_stale : (g.wrW n v).stale = g.stale := rfl

end

/-! ### A lane of a group (Group.updLane) -/

section
variable {g : Group} {i : Nat} {f : Lane → Lane}

@[simp] theorem Group.updLane_wg : (g.updLane i f).wg = g.wg := rfl
@[simp] theorem Group.updLane_hw : (g.updLane i f).hw = g.hw := rfl
@[simp] theorem Group.updLane_slot : (g.updLane i f).slot = g.slot := rfl
@[simp] theorem Group.updLane_lanes : (g.updLane i f).lanes =
    updAt g.lanes i f := rfl
@[simp] theorem Group.updLane_s : (g.updLane i f).s = g.s := rfl
@[simp] theorem Group.updLane_w : (g.updLane i f).w = g.w := rfl
@[simp] theorem Group.updLane_pend : (g.updLane i f).pend = g.pend := rfl
@[simp] theorem Group.updLane_calls : (g.updLane i f).calls = g.calls := rfl
@[simp] theorem Group.updLane_phase : (g.updLane i f).phase = g.phase := rfl
@[simp] theorem Group.updLane_run : (g.updLane i f).run = g.run := rfl
@[simp] theorem Group.updLane_mask : (g.updLane i f).mask = g.mask := rfl
@[simp] theorem Group.updLane_lastStart : (g.updLane i f).lastStart = g.lastStart := rfl
@[simp] theorem Group.updLane_placed : (g.updLane i f).placed = g.placed := rfl
@[simp] theorem Group.updLane_ceded : (g.updLane i f).ceded = g.ceded := rfl
@[simp] theorem Group.updLane_handler : (g.updLane i f).handler = g.handler := rfl
@[simp] theorem Group.updLane_resuming : (g.updLane i f).resuming = g.resuming := rfl
@[simp] theorem Group.updLane_saveFrame : (g.updLane i f).saveFrame = g.saveFrame := rfl
@[simp] theorem Group.updLane_noRecord : (g.updLane i f).noRecord = g.noRecord := rfl
@[simp] theorem Group.updLane_cpys : (g.updLane i f).cpys = g.cpys := rfl
@[simp] theorem Group.updLane_stale : (g.updLane i f).stale = g.stale := rfl

end

end Sys2Proof.Machine
end

