-- ==== Sys2Proof/Tests/Slice0.lean ====
section
/-! SUPPORT. Tests: ill-formed terms that the checks refuse, words written out from the spec's encodings, single steps
with results from the spec's examples, and for every obligation states that meet its hypotheses. -/

namespace Sys2Proof.Tests

open Sys2Proof Sys2Proof.Machine

set_option Elab.async false

/-! ## WellFormed: one ill-formed term for each check -/

def im (v : Int) : Trits 4 := Trits.ofInt 4 v

/-- R91, R153: an accepted type. -/
theorem test_illFormed_types :
    [Instr.add ⟨.f9, .g 0, .g 1, .g 2, .always⟩, .neg ⟨.f27, .g 0, .g 1, .always⟩, .cmp ⟨.f81, 0, .g 1, .g 2, .always⟩,
      .fadd ⟨.w, .g 0, .g 1, .g 2, .always⟩, .fneg ⟨.t, .g 0, .g 1, .always⟩, .fcmp ⟨.w, 0, .g 1, .g 2, .always⟩,
      .fsqt ⟨.w, 0, 1, .always, 0⟩, .fdiv ⟨.t, 0, 1, .g 2, .always, 0⟩, .ftoi ⟨.t, .floor, .g 0, .g 1, .always⟩,
      .movi ⟨.f9, 0, .g 1, .always⟩, .bcst ⟨.t, .g 0, .g 1, .s 0, .always⟩,
      .ldu ⟨.virt, .f81, .weak (im 0), 0, 1, .always, 0⟩].all (fun i => !i.wellFormed) = true := by decide

/-- R89: two run temporaries as sources, or one where the h map does not reach. -/
theorem test_illFormed_hMap :
    [Instr.sub ⟨.w, .g 0, .h 1, .h 2, .always⟩, .ext ⟨.g 0, .h 1, .h 2, .always⟩, .tst ⟨.w, 0, .h 1, .h 2, .always⟩,
      .fmul ⟨.f27, .g 0, .h 1, .h 2, .always⟩, .fcmp ⟨.f27, 0, .h 1, .h 2, .always⟩, .lea ⟨0, .g 0, .h 1, .h 2, .always⟩,
      .cvtw ⟨.wrap, .g 0, .h 1, .h 2, .always⟩, .shfl ⟨0, .g 0, .h 1, .h 2, .always⟩, .calli ⟨.g 0, .h 1, .h 2, .always⟩,
      .jmpi ⟨.h 1, .h 2, .always⟩, .cwb ⟨.h 1, .h 2, .always⟩, .fmtset ⟨0, .h 1, .h 2⟩, .tidx ⟨0, 0, 1, .h 2, .always⟩,
      .tjoin ⟨0, 0, 1, .h 2, .always⟩, .shpset ⟨0, 0, .h 1⟩, .fdiv ⟨.f27, 0, 1, .h 2, .always, 0⟩].all
      (fun i => !i.wellFormed) = true := by decide

/-- R19, R153, R162, R168: TF81 triples. -/
theorem test_illFormed_triples :
    [Instr.fadd ⟨.f81, .g 1, .g 3, .g 6, .always⟩, .fadd ⟨.f81, .g 0, .g 4, .g 6, .always⟩,
      .fadd ⟨.f81, .g 0, .g 3, .s 6, .always⟩, .fadd ⟨.f81, .g 0, .g 3, .h 6, .always⟩, .fabs ⟨.f81, .h 0, .g 3, .always⟩,
      .fcmp ⟨.f81, 0, .g 2, .g 3, .always⟩, .mov ⟨.f81, .g 0, .g 1, .always⟩, .fsin ⟨.f81, 0, 2, .always, 0⟩,
      .fdiv ⟨.f81, 0, 3, .g 5, .always, 0⟩, .fcvt ⟨.f81, .f9, .g 75, .g 0, .always⟩, .fcvt ⟨.f9, .f27, .g 0, .g 79, .always⟩,
      .fcvt ⟨.f81, .w, .g 0, .g 3, .always⟩, .ftoi ⟨.f81, .zero, .g 0, .g 1, .always⟩, .bcvt ⟨true, .fp64, .g 0, .g 1, .always⟩,
      .bcst ⟨.f81, .g 0, .g 1, .s 0, .always⟩, .redu ⟨.f81, .add, .g 1, .g 3, .always⟩,
      .scan ⟨.f81, .add, true, .g 0, .g 1, .always⟩, .ld ⟨.virt, .f81, .weak (im 0), 1, 4, .always, 0⟩].all
      (fun i => !i.wellFormed) = true := by decide

/-- R86: spans of registers inside their file. -/
theorem test_illFormed_spans :
    [Instr.tidx ⟨0, 77, 1, .g 2, .always⟩, .tjoin ⟨0, 1, 77, .g 2, .always⟩, .shpset ⟨0, 76, .g 1⟩, .evpost 24,
      .ratset ⟨0, 26, .s 1⟩, .winset ⟨0, 25, .s 1⟩, .bari ⟨25, 0, .scr⟩,
      .cas ⟨.virt, .add, false, .rlx, .pkg, 80, 1, .always, 0⟩].all (fun i => !i.wellFormed) = true := by decide

/-- R90, R98, R138, R145: words that need a predicate, and PSET's first source. -/
theorem test_illFormed_predicates :
    [Instr.sel3 ⟨.w, .g 0, .g 1, .g 2, .always⟩, .brp ⟨.zero, .always, Trits.ofInt 12 0⟩,
      .b3 ⟨.zero, .always, Trits.ofInt 6 0, Trits.ofInt 6 0⟩, .pset ⟨.copy, 0, some 1, .k 2, .always⟩,
      .pset ⟨.neg, 0, some 1, .k 2, .always⟩, .pset ⟨.tmin, 0, none, .k 2, .always⟩].all
      (fun i => !i.wellFormed) = true := by decide

/-- R267 to R269, R282, R339: spaces and qualifiers. -/
theorem test_illFormed_accesses :
    [Instr.ldStrong ⟨.priv, .w, .strong ⟨false, .zero, .pkg⟩, 0, 1, .always, 0⟩,
      .ld ⟨.virt, .w, .strong ⟨false, .zero, .pkg⟩, 0, 1, .always, 0⟩, .ldStrong ⟨.virt, .w, .weak (im 0), 0, 1, .always, 0⟩,
      .ldStrong ⟨.virt, .w, .strong ⟨false, .neg, .pkg⟩, 0, 1, .always, 0⟩,
      .ldStrong ⟨.virt, .w, .strong ⟨true, .zero, .pkg⟩, 0, 1, .always, 0⟩,
      .stStrong ⟨.virt, .w, .strong ⟨false, .pos, .pkg⟩, 0, 1, .always, 0⟩,
      .stStrong ⟨.virt, .w, .strong ⟨true, .neg, .pkg⟩, 0, 1, .always, 0⟩,
      .stu ⟨.virt, .w, .strong ⟨false, .pos, .pkg⟩, 0, 1, .always, 0⟩,
      .atom ⟨.priv, .add, false, .rlx, .pkg, 0, 1, .always, 0⟩, .cas ⟨.virt, .max, false, .rlx, .pkg, 0, 1, .always, 0⟩,
      .waitm ⟨0, 1, .priv, im 0⟩, .bari ⟨0, 3, .priv⟩, .bar ⟨0, .priv⟩, .bara ⟨0, 1, .priv⟩, .barw ⟨0, 1, .priv⟩].all
      (fun i => !i.wellFormed) = true := by decide

/-- R99, R446: masks and selectors. -/
theorem test_illFormed_immediates :
    [Instr.endrun (Trits.ofInt 9 (-1)), .yield (Trits.ofInt 9 2), .mbrx ⟨.g 0, .imm (im 27)⟩,
      .mbtxBind ⟨0, .g 1, .imm (im (-1))⟩, .cntsel ⟨0, 1, .imm (im 9)⟩].all (fun i => !i.wellFormed) = true := by decide

/-! ## Decoding: words written out from the spec's field tables -/

/-- The word of R84, Table 1: trits of op, var, d, a, b, k, ks, w, wm, bm, from t0 up, t26 = 0. -/
def word (op var d a b k ks w wm bm : Int) : Int :=
  op + 243 * var + 2187 * d + 177147 * a + 14348907 * b + 1162261467 * k + 10460353203 * ks + 31381059609 * w +
    282429536481 * wm + 847288609443 * bm

/-- Register fields (R86): a 4-trit field holds n - 40, a 2-trit field n - 4. -/
def n4 (n : Int) : Int := n - 40
def n2 (n : Int) : Int := n - 4

/-- Words with no predicate and no wait: the fields op, var, d, a, b and bm. -/
def plain (op var d a b bm : Int) : Int := word op var d a b 0 0 0 0 bm

def decodesTo (l : List (Int × Instr)) : Bool :=
  l.all fun x => match decodeWord x.1 with
    | .ok i => decide (i = x.2)
    | .error _ => false

/-- 06_integer_instructions.md, Table 1; type codes w 0, t 1. The h map is t22 of b, and t23 of d (R89). -/
theorem test_decode_integer1 : decodesTo [
    (-107 + 243 * 123459, .lit (Trits.ofInt 22 123459)),
    (word (-106) 0 (n4 1) 0 (n4 8) 0 0 0 0 (-1), .mov ⟨.w, .g 1, .s 8, .always⟩),
    (plain (-105) 1 (n4 26) 0 (-40) 0, .movi ⟨.t, 26, .imm (im (-40)), .always⟩),
    (plain (-104) 3 (n4 7) (n4 8) (n4 9) 1, .lea ⟨3, .g 7, .g 8, .g 9, .always⟩),
    (word (-103) 1 (n4 2) (n4 0) (-7) (n2 2) (-1) 0 0 0, .add ⟨.t, .g 2, .g 0, .imm (im (-7)), .neg 2⟩),
    (word (-102) 0 (n4 80) (n4 79) (n4 78) (n2 8) 1 0 0 1, .sub ⟨.w, .g 80, .g 79, .g 78, .pos 8⟩),
    (plain (-101) 0 (n4 1) (n4 2) 40 0, .adds ⟨.w, .g 1, .g 2, .imm (im 40), .always⟩),
    (plain (-100) 1 (n4 1) (n4 2) (n4 0) (-1), .subs ⟨.t, .g 1, .g 2, .s 0, .always⟩),
    (plain (-99) 0 (n4 1) (n4 2) 0 0, .neg ⟨.w, .g 1, .g 2, .always⟩),
    (plain (-98) 1 (n4 1) (n4 2) 0 0, .abs ⟨.t, .g 1, .g 2, .always⟩),
    (plain (-97) 0 (n4 1) (n4 2) 0 0, .sgn ⟨.w, .g 1, .g 2, .always⟩),
    (plain (-96) 0 (n4 1) (n4 2) (n4 3) 1, .mul ⟨.w, .g 1, .g 2, .g 3, .always⟩),
    (plain (-95) 1 (n4 1) (n4 2) (n4 3) 1, .mulh ⟨.t, .g 1, .g 2, .g 3, .always⟩),
    (plain (-109) 0 (n4 1) (n4 2) (n4 3) 1, .mad ⟨.w, .g 1, .g 2, .g 3, .always⟩),
    (plain (-110) 0 (n4 1) (n4 2) (n4 3) 1, .divn ⟨.w, .g 1, .g 2, .g 3, .always⟩),
    (plain (-111) 0 (n4 1) (n4 2) (n4 3) 1, .divz ⟨.w, .g 1, .g 2, .g 3, .always⟩),
    (plain (-112) 0 (n4 1) (n4 2) (n4 3) 1, .divf ⟨.w, .g 1, .g 2, .g 3, .always⟩),
    (plain (-113) 1 (n4 1) (n4 2) (n4 3) 1, .remn ⟨.t, .g 1, .g 2, .g 3, .always⟩),
    (plain (-114) 1 (n4 1) (n4 2) (n4 3) 1, .remz ⟨.t, .g 1, .g 2, .g 3, .always⟩),
    (plain (-115) 1 (n4 1) (n4 2) (n4 3) 1, .remf ⟨.t, .g 1, .g 2, .g 3, .always⟩)] = true := by decide

theorem test_decode_integer2 : decodesTo [
    (plain (-116) 0 (n4 1) (n4 2) (n4 3) 1, .min ⟨.w, .g 1, .g 2, .g 3, .always⟩),
    (plain (-117) 0 (n4 1) (n4 2) (n4 3) 1, .max ⟨.w, .g 1, .g 2, .g 3, .always⟩),
    (plain (-118) 0 (n4 1) (n4 2) (n4 3) 1, .clamp ⟨.w, .g 1, .g 2, .g 3, .always⟩),
    (plain (-80) 0 (n4 1) (n4 2) (n4 3) 1, .tmin ⟨.w, .g 1, .g 2, .g 3, .always⟩),
    (plain (-79) 0 (n4 1) (n4 2) (n4 3) 1, .tmax ⟨.w, .g 1, .g 2, .g 3, .always⟩),
    (plain (-78) 1 (n4 1) (n4 2) (n4 3) 1, .tsum3 ⟨.t, .g 1, .g 2, .g 3, .always⟩),
    (plain (-77) 1 (n4 1) (n4 2) (n4 3) 1, .tprd ⟨.t, .g 1, .g 2, .g 3, .always⟩),
    (plain (-76) 1 (n4 1) (n4 2) (n4 3) 1, .tcns ⟨.t, .g 1, .g 2, .g 3, .always⟩),
    (plain (-75) 0 (n4 1) (n4 2) 2 0, .shl ⟨.w, .g 1, .g 2, .imm (im 2), .always⟩),
    (plain (-74) 0 (n4 1) (n4 2) 2 0, .shr ⟨.w, .g 1, .g 2, .imm (im 2), .always⟩),
    (plain (-73) 0 (n4 1) (n4 2) (-2) 0, .rot ⟨.w, .g 1, .g 2, .imm (im (-2)), .always⟩),
    (plain (-72) 0 (n4 1) (n4 2) (n4 3) 1, .ext ⟨.g 1, .g 2, .g 3, .always⟩),
    (plain (-71) 0 (n4 1) (n4 2) (n4 3) 1, .ins ⟨.g 1, .g 2, .g 3, .always⟩),
    (plain (-70) 0 (n4 1) (n4 2) 1 0, .cnt ⟨.w, .g 1, .g 2, .imm (im 1), .always⟩),
    (plain (-69) 0 (n4 1) (n4 2) 0 0, .lead ⟨.w, .g 1, .g 2, .always⟩),
    (plain (-68) 0 (n4 8) (n4 2) (n4 3) 1, .cmp ⟨.w, 8, .g 2, .g 3, .always⟩),
    (plain (-82) 1 (n4 0) (n4 2) 4 0, .tst ⟨.t, 0, .g 2, .imm (im 4), .always⟩),
    (word (-83) 0 (n4 1) (n4 2) (n4 3) (n2 5) 1 0 0 1, .sel3 ⟨.w, .g 1, .g 2, .g 3, .pos 5⟩),
    (plain (-84) 0 (n4 1) 0 (n4 2) 1, .pset ⟨.copy, 1, none, .k 2, .always⟩),
    (plain (-84) 1 (n4 1) (n4 3) (n4 2) 1, .pset ⟨.tmin, 1, some 3, .k 2, .always⟩),
    (plain (-84) (-3) (n4 1) 0 (-13) 0, .pset ⟨.neg, 1, none, .imm (im (-13)), .always⟩),
    (plain (-53) 0 (n4 1) (n4 2) 0 0, .cvtw ⟨.widen, .g 1, .g 2, .imm (im 0), .always⟩),
    (plain (-53) 1 (n4 1) (n4 2) 2 0, .cvtw ⟨.wrap, .g 1, .g 2, .imm (im 2), .always⟩),
    (plain (-53) (-1) (n4 1) (n4 2) 2 0, .cvtw ⟨.sat, .g 1, .g 2, .imm (im 2), .always⟩),
    (plain (-52) 0 (n4 1) (n4 2) (n4 3) 1, .pack3 ⟨.g 1, .g 2, .g 3, .always⟩),
    (plain (-51) 0 (n4 1) (n4 2) 2 0, .unpk3 ⟨.g 1, .g 2, .imm (im 2), .always⟩),
    (plain (-48) 0 (n4 1) (n4 2) 2 0, .splat ⟨.g 1, .g 2, .imm (im 2), .always⟩),
    (plain (-50) (n2 6) (n4 76) (n4 2) (n4 3) 1, .tidx ⟨6, 76, 2, .g 3, .always⟩),
    (plain (-49) (n2 6) (n4 1) (n4 76) (n4 3) (-1), .tjoin ⟨6, 1, 76, .s 3, .always⟩)] = true := by decide

/-- R89: the w field holds + in t22 where a is a run temporary, − where b is, and + in t23 where d is. -/
theorem test_decode_hMap : decodesTo [
    (word (-103) 0 (n4 2) (n4 1) (n4 3) 0 0 1 0 1, .add ⟨.w, .g 2, .h 1, .g 3, .always⟩),
    (word (-103) 0 (n4 2) (n4 1) (n4 3) 0 0 (-1) 0 1, .add ⟨.w, .g 2, .g 1, .h 3, .always⟩),
    (word (-103) 0 (n4 2) (n4 1) (n4 3) 0 0 4 0 1, .add ⟨.w, .h 2, .h 1, .g 3, .always⟩)] = true := by decide

/-- 07_float_instructions.md, Table 1; type codes f27 -1, f9 2, f81 -2. -/
theorem test_decode_float1 : decodesTo [
    (plain (-26) (-1) (n4 1) (n4 2) (n4 3) 1, .fadd ⟨.f27, .g 1, .g 2, .g 3, .always⟩),
    (plain (-25) (-2) (n4 0) (n4 3) (n4 78) 1, .fsub ⟨.f81, .g 0, .g 3, .g 78, .always⟩),
    (plain (-24) 2 (n4 1) (n4 2) (n4 3) (-1), .fmul ⟨.f9, .g 1, .g 2, .s 3, .always⟩),
    (plain (-23) (-1) (n4 1) (n4 2) (n4 3) 1, .fma ⟨.f27, .g 1, .g 2, .g 3, .always⟩),
    (plain (-22) (-1) (n4 1) (n4 2) (n4 3) 1, .fmin ⟨.f27, .g 1, .g 2, .g 3, .always⟩),
    (plain (-21) (-1) (n4 1) (n4 2) (n4 3) 1, .fmax ⟨.f27, .g 1, .g 2, .g 3, .always⟩),
    (plain (-20) 2 (n4 1) (n4 2) 0 0, .fabs ⟨.f9, .g 1, .g 2, .always⟩),
    (plain (-19) (-2) (n4 3) (n4 6) 0 0, .fneg ⟨.f81, .g 3, .g 6, .always⟩),
    (plain (-18) (-1) (n4 4) (n4 2) (n4 3) 1, .fcmp ⟨.f27, 4, .g 2, .g 3, .always⟩),
    (plain (-17) (-1) (n4 1) (n4 2) 0 0, .fcls ⟨.f27, .g 1, .g 2, .always⟩),
    (plain (-16) (-1) (n4 1) (n4 2) (-5) 0, .fscl ⟨.f27, .g 1, .g 2, .imm (im (-5)), .always⟩),
    (plain (-15) (-1) (n4 1) (n4 2) 0 0, .fexn ⟨.f27, .g 1, .g 2, .always⟩),
    (plain (-14) (-1) (n4 1) (n4 2) 0 0, .ftrn ⟨.f27, .g 1, .g 2, .always⟩),
    (plain (-28) (-1) (n4 1) (n4 2) 0 0, .fflr ⟨.f27, .g 1, .g 2, .always⟩),
    (plain (-29) (-1) (n4 1) (n4 2) 0 0, .fcel ⟨.f27, .g 1, .g 2, .always⟩),
    (plain (-30) (-2) (n4 72) (n4 1) 2 0, .fcvt ⟨.f81, .f9, .g 72, .g 1, .always⟩),
    (plain (-31) 2 (n4 1) (n4 2) (-1) 0, .ftoi ⟨.f9, .floor, .g 1, .g 2, .always⟩),
    (plain (-31) (-1) (n4 1) (n4 2) 2 0, .ftoi ⟨.f27, .zero, .g 1, .g 2, .always⟩),
    (plain (-32) (-1) (n4 1) (n4 2) 0 0, .itof ⟨.f27, .g 1, .g 2, .imm (im 0), .always⟩),
    (plain (-37) 2 (n4 1) (n4 2) (n4 3) 1, .fdot ⟨.g 1, .g 2, .g 3, .always⟩),
    (plain (-38) 1 (n4 1) (n4 2) 3 0, .bcvt ⟨true, .fp32, .g 1, .g 2, .always⟩),
    (plain (-38) (-1) (n4 3) (n4 6) 4 0, .bcvt ⟨false, .fp64, .g 3, .g 6, .always⟩)] = true := by decide

theorem test_decode_float2 : decodesTo [
    (word (-33) (-1) (n4 1) (n4 2) (n4 3) 0 0 (n2 8) 1 (-1), .fdiv ⟨.f27, 1, 2, .s 3, .always, 8⟩),
    (word (-34) (-2) (n4 3) (n4 6) 0 (n2 3) 1 (n2 0) 1 0, .fsqt ⟨.f81, 3, 6, .pos 3, 0⟩),
    (word (-35) (-1) (n4 1) (n4 2) 0 0 0 (n2 4) 1 0, .frcp ⟨.f27, 1, 2, .always, 4⟩),
    (word (-36) (-1) (n4 1) (n4 2) 0 0 0 (n2 4) 1 0, .frsq ⟨.f27, 1, 2, .always, 4⟩),
    (word 39 (-1) (n4 1) (n4 2) 0 0 0 (n2 4) 1 0, .fex3 ⟨.f27, 1, 2, .always, 4⟩),
    (word 40 (-1) (n4 1) (n4 2) 0 0 0 (n2 4) 1 0, .flg3 ⟨.f27, 1, 2, .always, 4⟩),
    (word 26 2 (n4 1) (n4 2) 0 0 0 (n2 4) 1 0, .fexe ⟨.f9, 1, 2, .always, 4⟩),
    (word 25 2 (n4 1) (n4 2) 0 0 0 (n2 4) 1 0, .flge ⟨.f9, 1, 2, .always, 4⟩),
    (word 24 (-1) (n4 1) (n4 2) 0 0 0 (n2 4) 1 0, .fsin ⟨.f27, 1, 2, .always, 4⟩),
    (word 23 (-1) (n4 1) (n4 2) 0 0 0 (n2 4) 1 0, .fcos ⟨.f27, 1, 2, .always, 4⟩),
    (word 22 (-1) (n4 1) (n4 2) 0 0 0 (n2 4) 1 0, .ftnh ⟨.f27, 1, 2, .always, 4⟩)] = true := by decide

/-- 08_control_and_lane_instructions.md; a branch holds its offset in t7..t18 and its hint in t24 (R97 to R99). -/
theorem test_decode_control : decodesTo [
    (1 + 2187 * (-300) + 282429536481, .br ⟨.pos, Trits.ofInt 12 (-300)⟩),
    (2 + 2187 * 6 + 1162261467 * n2 3 + 10460353203, .brp ⟨.zero, .pos 3, Trits.ofInt 12 6⟩),
    (3 + 2187 * (-5) + 1594323 * 364 + 1162261467 * n2 0 - 10460353203 - 282429536481,
      .b3 ⟨.neg, .neg 0, Trits.ofInt 6 (-5), Trits.ofInt 6 364⟩),
    (4 + 2187 * 265720, .call ⟨.zero, Trits.ofInt 12 265720⟩),
    (plain 5 0 (n4 1) (n4 2) (n4 3) 1, .calli ⟨.g 1, .g 2, .g 3, .always⟩),
    (plain 6 0 0 (n4 2) 0 0, .ret ⟨.g 2, .always⟩),
    (plain 7 0 0 (n4 2) 3 0, .jmpi ⟨.g 2, .imm (im 3), .always⟩),
    (plain 11 0 (n4 1) 0 (-9) 0, .loop ⟨.zero, .g 1, im (-9), .always⟩),
    (8 + 2187 * 9841, .endrun (Trits.ofInt 9 9841)),
    (13 + 2187 * 1, .yield (Trits.ofInt 9 1)),
    (9, .reform), (word 10 0 0 0 0 (n2 1) 1 0 0 0, .exit (.pos 1)), (12, .nop),
    (plain 28 (n2 2) (n4 1) (n4 2) (n4 3) 1, .shfl ⟨2, .g 1, .g 2, .g 3, .always⟩),
    (plain 29 (n2 1) (n4 4) (n4 3) 1 0, .shfld ⟨1, .g 4, .g 3, .imm (im 1), .always⟩),
    (plain 30 (n2 8) (n4 1) (n4 2) 13 0, .shflt ⟨8, .g 1, .g 2, .imm (im 13), .always⟩),
    (plain 31 (n2 2) (n4 1) (n4 2) (n4 26) (-1), .xperm ⟨2, .g 1, .g 2, .s 26, .always⟩),
    (plain 33 0 (n4 1) (n4 2) 7 0, .bcst ⟨.w, .g 1, .g 2, .imm (im 7), .always⟩),
    (plain 32 (-1) (n4 8) (n4 2) 0 0, .vote ⟨.any, 8, .g 2, .always⟩),
    (plain 34 0 (n4 1) (n4 2) 1 0, .redu ⟨.w, .max, .g 1, .g 2, .always⟩),
    (plain 35 (-1) (n4 1) (n4 2) 3 0, .scan ⟨.f27, .add, true, .g 1, .g 2, .always⟩),
    (plain 36 0 (n4 1) 0 0 0, .rng ⟨.g 1, .always⟩),
    (plain 37 0 (n4 1) 0 14 0, .sread ⟨.g 1, 14, .always⟩),
    (plain 37 1 (n4 1) (n4 8) 0 0, .sreadPredicate ⟨.g 1, 8, .always⟩),
    (plain 38 0 0 (n4 2) 5 0, .swrite ⟨5, .g 2, .always⟩),
    (plain 38 1 (n4 8) (n4 2) 0 0, .swritePredicate ⟨8, .g 2, .always⟩)] = true := by decide

/-- 09_matrix_unit.md. -/
theorem test_decode_matrix : decodesTo [
    (plain 109 0 (n4 1) (n4 2) (-13) 0, .mload ⟨1, 2, im (-13)⟩),
    (plain 110 (n2 3) (n4 1) (n4 2) 13 0, .mloadp ⟨3, 1, 2, im 13⟩),
    (plain 111 0 0 (n4 26) 0 0, .mact 26),
    (word 112 0 (n4 0) (n4 5) (n4 3) (n2 1) (-1) 0 0 (-1), .mpass ⟨0, .g 5, 3, .neg 1⟩),
    (plain 113 0 (n4 4) 0 0 0, .mzero 4),
    (word 114 0 (n4 80) (n4 26) (n4 3) 0 0 (n2 2) 1 (-1), .mrd ⟨80, 26, .s 3, .always, 2⟩),
    (plain 115 0 (n4 1) (n4 2) 26 0, .mwr ⟨1, .g 2, .imm (im 26), .always⟩),
    (plain 116 0 (n4 1) (n4 2) 6 0, .mstoreKeep ⟨1, 2, 6⟩),
    (plain 116 1 (n4 1) (n4 2) 0 0, .mstoreZero ⟨1, 2, 0⟩),
    (word 117 (-1) (n4 1) 0 2 0 0 (n2 0) 1 0, .mstat ⟨.done, 1, 2, .always, 0⟩)] = true := by decide

/-- 12_memory_instructions.md, Tables 2 to 8: t25 and t6 hold the space code, t5 the width; an access has wm = +. -/
theorem test_decode_memory : decodesTo [
    (word 55 0 (n4 6) (n4 4) (-40) 0 0 (n2 1) 1 0, .ld ⟨.virt, .w, .weak (im (-40)), 6, 4, .always, 1⟩),
    (word 55 (1 + 3 * (-1)) (n4 6) (n4 4) 7 0 0 (n2 1) 1 0, .ld ⟨.priv, .t, .weak (im 7), 6, 4, .always, 1⟩),
    (word 55 (-1 + 3 * 1) (n4 6) (n4 4) 7 0 0 (n2 1) 1 0, .ld ⟨.scr, .f81, .weak (im 7), 6, 4, .always, 1⟩),
    (word 55 0 (n4 6) (n4 4) (1 + 9 * 1 + 27 * 1) 0 0 (n2 1) 1 1,
      .ldStrong ⟨.virt, .w, .strong ⟨true, .pos, .pair⟩, 6, 4, .always, 1⟩),
    (word 56 (3 * (-1)) (n4 6) (n4 4) 7 0 0 (n2 1) 1 1, .st ⟨.clu, .w, .weak (im 7), 6, 4, .always, 1⟩),
    (word 56 0 (n4 6) (n4 4) (2 - 9) 0 0 (n2 1) 1 1, .stStrong ⟨.virt, .w, .strong ⟨false, .neg, .pkg⟩, 6, 4, .always, 1⟩),
    (word 56 (3 * (-1)) (n4 6) (n4 4) (3 - 9) 0 0 (n2 1) 1 (-1),
      .stStrong ⟨.chip, .w, .strong ⟨false, .neg, .sys⟩, 6, 4, .always, 1⟩),
    (word 57 (3 * 1) (n4 6) (n4 4) 7 0 0 (n2 1) 1 (-1), .ldu ⟨.chip, .w, .weak (im 7), 6, 4, .always, 1⟩),
    (word 58 0 (n4 6) (n4 4) (-4) 0 0 (n2 1) 1 (-1), .stu ⟨.scr, .w, .strong ⟨false, .zero, .thread⟩, 6, 4, .always, 1⟩),
    (word 59 (-3) (n4 6) (n4 4) 2 0 0 (n2 1) 1 (-1), .atom ⟨.virt, .add, false, .rlx, .pkg, 6, 4, .always, 1⟩),
    (word 60 2 (n4 6) (n4 4) (-4 + 9 * (-3)) 0 0 (n2 1) 1 1,
      .atomr ⟨.chip, .tmax, true, .acqrel, .thread, 6, 4, .always, 1⟩),
    (word 61 3 (n4 6) (n4 4) (-2 + 9 * 2) 0 0 (n2 1) 1 (-1), .cas ⟨.scr, .add, false, .acqrel, .wgrp, 6, 4, .always, 1⟩),
    (plain 62 0 0 0 (3 + 9 * (-3)) 0, .fence ⟨.sc, .sys⟩),
    (word 63 3 (n4 6) (n4 4) 40 0 0 0 0 0, .waitm ⟨6, 4, .scr, im 40⟩),
    (plain 64 0 0 (n4 4) 3 0, .cwb ⟨.g 4, .imm (im 3), .always⟩), (plain 64 1 0 0 0 0, .cwbAll),
    (plain 65 0 0 (n4 4) (n4 3) (-1), .cinv ⟨.g 4, .s 3, .always⟩), (plain 65 1 0 0 0 0, .cinvAll),
    (plain 66 0 0 (n4 4) (n4 3) 1, .pref ⟨.g 4, .g 3, .always⟩),
    (plain 66 1 0 (n4 4) (n4 3) 1, .prefLlc ⟨.g 4, .g 3, .always⟩)] = true := by decide

/-- 15_async_instructions.md. -/
theorem test_decode_async : decodesTo [
    (word 82 0 0 (n4 0) 0 0 0 (n2 0) 1 0, .cpy ⟨0, 0⟩), (word 85 0 0 (n4 9) 0 0 0 (n2 8) 1 0, .cpys ⟨9, 8⟩),
    (word 84 0 0 (n4 9) 0 0 0 (n2 8) 1 0, .cpyf ⟨9, 8⟩), (word 83 2 0 (n4 9) 0 0 0 (n2 8) 1 0, .cpyl ⟨9, 2, 8⟩),
    (word 83 (-1) 0 (n4 9) 0 0 0 (n2 8) 1 0, .cpylFlush ⟨9, 0, 8⟩),
    (word 86 0 (n4 1) (n4 9) 0 0 0 (n2 8) 1 0, .spawn ⟨1, 9, 8⟩),
    (word 86 1 (n4 1) (n4 9) 0 0 0 (n2 8) 1 0, .spawnCoresident ⟨1, 9, 8⟩),
    (plain 87 0 (n4 24) (n4 9) 0 0, .bari ⟨24, 9, .virt⟩), (plain 88 1 0 (n4 4) 0 0, .bar ⟨4, .scr⟩),
    (plain 89 2 (n4 1) (n4 9) 0 0, .bara ⟨1, 9, .clu⟩), (plain 90 3 0 (n4 9) (n4 2) (-1), .barw ⟨9, 2, .chip⟩),
    (plain 91 0 (n4 1) 0 26 0, .mbrx ⟨.g 1, .imm (im 26)⟩),
    (plain 92 0 (n4 8) (n4 1) 26 0, .mbtxReply ⟨8, .g 1, .imm (im 26)⟩),
    (plain 92 1 (n4 8) (n4 1) (n4 3) (-1), .mbtxBind ⟨8, .g 1, .s 3⟩),
    (plain 92 (-1) (n4 8) (n4 1) 0 0, .mbtxUnbind ⟨8, .g 1, .imm (im 0)⟩),
    (plain 93 0 0 (n4 23) 0 0, .evpost 23), (plain 94 0 (n4 1) (n4 9) 0 0, .rwalk ⟨1, 9⟩),
    (plain 80 0 (n4 1) (n4 9) 2 0, .rstat ⟨1, 9, 2⟩)] = true := by decide

/-- 16_traps_and_preemption.md. -/
theorem test_decode_trap : decodesTo [
    (plain (-1) 0 0 0 (-13) 0, .trap (im (-13))), (-2, .resume),
    (plain (-3) 0 (n4 5) 0 0 0, .dfpopRead (.g 5)), (plain (-3) 1 (n4 5) 0 0 0, .dfpopRetry (.g 5)),
    (plain (-3) (-1) (n4 5) 0 0 0, .dfpopSkip (.g 5)), (plain (-4) 0 0 0 40 0, .halt (im 40)),
    (plain 118 0 (n4 5) (n4 2) 13 0, .rqrd ⟨.g 5, 2, 13⟩), (plain 119 0 (n4 5) (n4 2) 0 0, .rqwr ⟨.g 5, 2, 0⟩),
    (plain 120 0 0 (n4 2) 0 0, .rqdrop 2), (plain 106 0 (n4 1) (n4 2) 0 0, .preempt ⟨1, 2⟩),
    (plain 121 0 (n4 1) (n4 2) 0 0, .ctxsv ⟨1, 2⟩), (plain 107 0 (n4 1) (n4 2) 0 0, .ctxld ⟨1, 2⟩),
    (plain 105 0 (n4 1) (n4 2) 0 0, .divsetQuery ⟨1, 2⟩), (plain 105 (-1) (n4 1) (n4 2) 0 0, .divsetRelease ⟨1, 2⟩)] =
    true := by decide

/-- 17_compute_tables.md, 18_system_tables.md, 19_counters.md. -/
theorem test_decode_tables : decodesTo [
    (plain 104 0 (n4 2) (n4 4) 9 0, .fmtset ⟨2, .g 4, .imm (im 9)⟩),
    (plain 103 0 (n4 2) (n4 75) 9 0, .shpset ⟨2, 75, .imm (im 9)⟩),
    (plain 102 0 (n4 2) (n4 4) (n4 3) 1, .xpset ⟨2, .g 4, .g 3⟩),
    (plain 101 0 (n4 1) (n4 4) 5 0, .ratset ⟨1, 4, .imm (im 5)⟩),
    (plain 100 0 (n4 1) (n4 24) (n4 5) (-1), .winset ⟨1, 24, .s 5⟩),
    (plain 99 0 0 (n4 1) (n4 2) (-1), .tlbinv 1 2), (plain 99 1 0 (n4 0) (n4 2) (-1), .tlbinvCtx 2), (98, .tlbfl),
    (plain 97 0 0 (n4 1) 0 0, .icinv ⟨.g 1, .imm (im 0), .always⟩), (plain 97 1 0 0 0 0, .icinvAll),
    (plain 96 0 (n4 5) (n4 2) 0 0, .cntrd ⟨.g 5, 2⟩), (plain 108 0 (n4 1) (n4 2) 0 0, .cntclr ⟨1, 2⟩),
    (plain 95 0 (n4 1) (n4 2) 8 0, .cntsel ⟨1, 2, .imm (im 8)⟩)] = true := by decide

/-- R100, R101, R103: words that are no instruction, and the detail code of each: an unassigned opcode 1, a reserved
t26 2, an f-type of an integer word 3, a wait mode 4, a register beyond its file 5. -/
theorem test_decode_illegal :
    ([plain (-108) 0 0 0 0 0, plain 12 0 0 0 0 0 + 2541865828329, plain (-103) 2 (n4 1) (n4 2) (n4 3) 1,
      word (-103) 0 (n4 1) (n4 2) (n4 3) 0 0 0 1 1, plain (-105) 0 (n4 27) 0 0 0].map fun v =>
        match decodeWord v with
        | .ok _ => none
        | .error e => some e.details) = [some [1], some [2], some [3], some [4], some [5]] := by decide
/-! ## States for the tests: one workgroup of 27 threads on the first core, its group in a run with two active lanes -/

def kern : Kernel := { loadKernel with threads := 27 }
def wk : Workgroup := { loadWorkgroup 0 ⟨0, 0, 0⟩ with kernel := kern }
def lane (n : Nat) : Lane := { Lane.absent with thread := n, st := .ready }
def gr : Machine.Group :=
  { loadGroup 0 0 0 with lanes := (List.range 27).map lane, run := { Run.none with active := [0, 1] } }
def base : State := { State.reset with nextId := 1, wgs := [wk], groups := [gr], dieStatus := [0, 0, 0, 0] }
/-- The base state with its workgroup and group changed. -/
def tweak (fw : Workgroup → Workgroup) (fg : Machine.Group → Machine.Group) : State :=
  { base with wgs := [fw wk], groups := [fg gr] }
/-- The base state with the lanes of its group changed. -/
def lanesAs (f : Nat → Lane → Lane) : State :=
  tweak id fun g => { g with lanes := (List.range 27).map fun n => f n (lane n) }

/-- The base state with a workgroup of all of its core's scratchpad. -/
def big (fg : Machine.Group → Machine.Group) : State :=
  tweak (fun w => { w with grans := 243, kernel := { w.kernel with scratch := 531441 } }) fg

/-- A word issues in a state, and more holds of its workgroup, its group and its issue. -/
def meets (s : State) (i : Instr) (p : Workgroup → Machine.Group → Issue → Bool) : Bool :=
  match s.running s.cur with
  | some (w, g) => decide (Passes s w g i) && !(s.issueOf w g i).slotFull && (!i.needsLicence || (s.licensed w && !(s.issueOf w g i).heldBack)) &&
      p w g (s.issueOf w g i)
  | none => false

theorem meets_issues {s : State} {i : Instr} {p : Workgroup → Machine.Group → Issue → Bool} (h : meets s i p = true) :
    ∃ w g, Issues s w g i ∧ p w g (s.issueOf w g i) = true := by
  unfold meets at h
  split at h
  · rename_i w g hr
    simp only [Bool.and_eq_true, decide_eq_true_eq, Bool.not_eq_true', Bool.or_eq_true] at h
    obtain ⟨⟨⟨h1, h2⟩, h3⟩, h4⟩ := h
    refine ⟨w, g, ⟨hr, h1, h2, fun hn => ?_⟩, h4⟩
    rcases h3 with h | h
    · simp [hn] at h
    · simpa using h
  · exact absurd h (by simp)

/-- Words that all issue in a state. -/
def allIssue (s : State) (l : List Instr) : Bool := l.all fun i => meets s i fun _ _ _ => true

def isSome {α : Type} (x : Option α) : Bool := x.isSome

/-- The level 1 leaf that maps virtual page 0 and its neighbours to the page 3^12 of the packed HBM4E tier of die 0, readable,
writable, dirty and accessed, with attribute entry 0 (R230, R401). -/
def leafWord : Int := 3 ^ 18 + 3 ^ 19 + 3 ^ 20 + 3 ^ 21 + 3 ^ 22 + 3 ^ 23 + 3 ^ 12

/-- A last-level line with words at trytes of it. -/
def heldLine (slot : Nat) (ws : List (Nat × Int)) : Nat × LLine :=
  let ts : List Tryte := (List.range 81).map fun i =>
    ((ws.find? fun w => w.1 / 3 == i / 3).map fun w => Tryte.ofInt (dropInt (9 * (i % 3)) w.2)).getD (Tryte.ofInt 0)
  (0, { key := ⟨false, 0, false, slot, 1, false⟩, trytes := ts, dirty := false, bad := [], chan := 0, shape := .one, tab := 0, entry := 0,
        ctx := wk.region.ctx })

/-- The last-level line of a virtual line under `leafWord`. -/
def virtLine (va : Int) (ws : List (Nat × Int)) : Nat × LLine := heldLine ((10460353203 + va) / 81).toNat ws

/-- A state whose workgroups translate by `leafWord`, with lines of memory held in the last-level cache. -/
def virt (s : State) (ls : List (Nat × LLine)) : State :=
  { s with llc := heldLine 13 [(39, leafWord)] :: ls
           cores := [(0, { CoreState.empty with attrs := [⟨0, 0, Word.ofInt (3 ^ 26)⟩] })] }

def asUser (w : Workgroup) : Workgroup := { w with region := { w.region with supervisor := false } }

/-- The base group with all g registers n of its lanes at v. -/
def allG (n : Nat) (v : Int) (g : Machine.Group) : Machine.Group :=
  { g with lanes := g.lanes.map fun l => l.wrG n (Word.ofInt v) }

/-- n lines of memory from a virtual address, with words of them by number. -/
def virtSpan (va : Int) (n : Nat) (ws : List (Nat × Int)) : List (Nat × LLine) :=
  (List.range n).map fun (k : Nat) => virtLine (va + 81 * (k : Int)) ((ws.filter fun w => w.1 / 27 == k).map fun w => (3 * (w.1 % 27), w.2))

/-- A root block (R409, R410) for address -243: world +, supervisor, budget 5, save stride 3^14, frames at 0, tables at 8100,
context 0 with one die; the ring of R309 has 81 records at 16200. -/
def rootWords : List (Nat × Int) :=
  [(4, 88573), (5, 12), (6, 5), (8, -4860), (10, 8100), (12, 100), (14, -19683), (18, 4782969), (29, 1), (30, 16200), (31, 4)]
def rootRegion : Region :=
  { loadRegion with block := -243, budget := 5, budgetBlock := -243, comptab := 8100, dfq := -4860, deadline := 100, save := -19683,
                    stride := 4782969, ancestors := [-243], ctx := { loadRegion.ctx with rootBlock := -243 } }
def rooted (w : Workgroup) : Workgroup := { w with region := rootRegion }
/-- A state whose workgroup has that region, in memory too. -/
def home (fw : Workgroup → Workgroup) (fg : Machine.Group → Machine.Group) (ls : List (Nat × LLine)) : State :=
  virt (tweak (fun w => fw (rooted w)) fg) (virtSpan (-243) 3 rootWords ++ ls)

/-- A core whose diversion unit holds what reaches granule 9 (R367). -/
def holding : SMap CoreState := [(0, { CoreState.empty with divs := [(0, ⟨.zero, 0, 9, 1, 0, 0⟩)] })]

/-! ## Witnesses: each statement's hypotheses met by a state -/

theorem witness_IntegerArithmeticResults :
    (allIssue base [.add ⟨.t, .g 2, .g 0, .imm (im (-7)), .neg 2⟩, .sub ⟨.w, .h 8, .h 0, .g 80, .always⟩,
      .adds ⟨.w, .g 1, .g 1, .s 26, .always⟩, .subs ⟨.t, .g 1, .g 2, .g 3, .pos 0⟩, .mul ⟨.w, .g 80, .g 80, .g 80, .always⟩,
      .mulh ⟨.w, .g 0, .g 1, .g 2, .always⟩, .mad ⟨.w, .g 1, .g 2, .g 3, .always⟩, .min ⟨.w, .g 1, .g 2, .g 3, .always⟩,
      .max ⟨.t, .g 1, .g 2, .g 3, .always⟩, .clamp ⟨.w, .g 1, .g 2, .g 3, .always⟩, .neg ⟨.w, .g 1, .g 2, .always⟩,
      .abs ⟨.t, .g 1, .g 2, .always⟩, .sgn ⟨.w, .h 1, .g 2, .always⟩]) = true := by decide +kernel

theorem witness_DivisionByThreeRules :
    allIssue base ([Instr.divn, .divz, .divf, .remn, .remz, .remf].map fun i => i ⟨.w, .g 1, .g 2, .g 3, .always⟩) = true := by
  decide +kernel

/-- The hypothesis of the trit functions: f keeps trits. -/
theorem witness_TritFunctionsByPosition :
    (∀ x y : Int, x.natAbs ≤ 1 → y.natAbs ≤ 1 → ((fun a b : Int => a * b) x y).natAbs ≤ 1) ∧
    allIssue base ([Instr.tmin, .tmax, .tsum3, .tprd, .tcns].map fun i => i ⟨.t, .g 1, .g 2, .imm (im 40), .always⟩) = true := by
  refine ⟨fun x y hx hy => ?_, by decide +kernel⟩
  simp only [Int.natAbs_mul]
  calc x.natAbs * y.natAbs ≤ 1 * 1 := Nat.mul_le_mul hx hy
    _ = 1 := rfl

theorem witness_ShiftFieldAndCountResults :
    allIssue base (([Instr.shl, .shr, .rot, .cnt].map fun i => i ⟨.w, .g 1, .g 2, .imm (im 27), .always⟩) ++
      [.lead ⟨.w, .g 1, .g 2, .always⟩, .ext ⟨.g 1, .g 2, .g 3, .always⟩, .ins ⟨.g 1, .g 2, .g 3, .always⟩]) = true ∧
    (0 : Int).natAbs ≤ maxMag 27 := by decide +kernel

theorem witness_PredicateAndSelectResults :
    allIssue base [.cmp ⟨.w, 8, .g 2, .g 3, .always⟩, .tst ⟨.t, 1, .g 2, .imm (im 8), .always⟩,
      .sel3 ⟨.w, .g 1, .g 2, .g 3, .pos 5⟩, .pset ⟨.copy, 1, none, .k 2, .always⟩,
      .pset ⟨.tsum3, 1, some 3, .imm (im 13), .always⟩] = true := by decide +kernel

theorem witness_MoveAndPackResults :
    allIssue base [.mov ⟨.f81, .g 3, .g 6, .always⟩, .lea ⟨4, .g 1, .g 2, .g 3, .always⟩,
      .cvtw ⟨.widen, .g 1, .g 2, .imm (im 2), .always⟩, .cvtw ⟨.wrap, .g 1, .g 2, .imm (im 0), .always⟩,
      .cvtw ⟨.sat, .g 1, .g 2, .imm (im 1), .always⟩, .pack3 ⟨.g 1, .g 2, .g 3, .always⟩, .unpk3 ⟨.g 1, .g 2, .g 3, .always⟩,
      .splat ⟨.g 1, .g 2, .g 3, .always⟩] = true ∧
    meets base (.movi ⟨.w, 5, .g 1, .always⟩) (fun _ _ x => x.active == [0, 1]) = true ∧
    meets (tweak id fun g => { g with run := { g.run with active := [] } }) (.movi ⟨.w, 5, .g 1, .always⟩)
      (fun _ _ x => x.active == []) = true ∧
    meets base (.lit (Trits.ofInt 22 5)) (fun _ _ x => (x.s0.groupOf x.r).isSome) = true := by decide +kernel

theorem witness_OneTryteIsWritten :
    (80 : Fin 81).val ≠ 0 ∧ 2 < 3 ∧ ((-9841 : Int), ({} : Flags)).1.natAbs ≤ 9841 := by decide

theorem witness_TensorIndexResults :
    allIssue base [.tidx ⟨6, 76, 2, .g 3, .always⟩, .tjoin ⟨6, 1, 76, .s 3, .always⟩] = true := by decide +kernel

/-- A shape of extents 9, 5, 4 and its last index. -/
theorem witness_JoinUndoesSplit :
    let sh : Shape := ⟨[9, 5, 4]⟩
    sh.extents.length ≤ 5 ∧ (∀ e ∈ sh.extents, 1 ≤ e) ∧ sh.product ≤ counterMax ∧ (0 : Int) ≤ 179 ∧ 179 < sh.product := by
  decide

/-- A nonzero value in range, for both sides of the exponent of the lowest trit kept. -/
theorem witness_RoundingToNearestIsNeverATie :
    (1 : Int) ≠ 0 ∧ (1 : Int).natAbs ≤ 3 ^ 20000 ∧ ((3 : Int) ^ 20000).natAbs ≤ 3 ^ 20000 ∧ leadPos (3 ^ 20000) + (-20000) ≤ tf81.etop ∧ leadPos 1 + (-300) ≤ tf27.etop ∧
    Max.max (leadPos 1 + 0) tf27.emin - (tf27.n - 1) ≤ 0 ∧ (-300 : Int) < Max.max (leadPos 1 + (-300)) tf27.emin - (tf27.n - 1) ∧
    tf27 ∈ [tf9, tf27, tf81] := by decide +kernel

theorem witness_FloatArithmeticResults :
    allIssue base (([Instr.fadd, .fsub, .fmul, .fma, .fmin, .fmax].map fun i => i ⟨.f81, .g 78, .g 3, .g 6, .always⟩) ++
      ([Instr.fadd, .fsub, .fmul, .fma, .fmin, .fmax].map fun i => i ⟨.f9, .h 8, .g 3, .s 6, .pos 1⟩) ++
      ([Instr.fabs, .fneg, .fcls].map fun i => i ⟨.f27, .g 1, .g 3, .always⟩) ++ [.fcmp ⟨.f27, 8, .g 1, .g 2, .always⟩]) =
      true := by decide +kernel

theorem witness_FloatConversionResults :
    allIssue base ([.fscl ⟨.f27, .g 1, .g 2, .imm (im (-5)), .always⟩, .itof ⟨.f9, .g 1, .g 2, .g 3, .always⟩] ++
      ([Instr.fexn, .ftrn, .fflr, .fcel].map fun i => i ⟨.f27, .g 1, .g 3, .always⟩) ++
      [.fcvt ⟨.f81, .f9, .g 72, .g 1, .always⟩, .fcvt ⟨.f27, .f9, .g 1, .g 4, .always⟩, .fcvt ⟨.f9, .f81, .g 1, .g 9, .always⟩,
        .fcvt ⟨.f9, .f27, .g 1, .g 9, .always⟩, .fcvt ⟨.f9, .f9, .g 1, .h 2, .always⟩, .fcvt ⟨.f81, .f27, .g 3, .g 1, .always⟩,
        .fcvt ⟨.f27, .f81, .g 3, .g 6, .always⟩, .ftoi ⟨.f81, .ceil, .g 3, .g 6, .always⟩, .fdot ⟨.g 1, .g 2, .g 3, .always⟩,
        .bcvt ⟨true, .fp64, .g 3, .g 6, .always⟩, .bcvt ⟨false, .fp64, .g 3, .g 6, .always⟩,
        .bcvt ⟨true, .bf16n, .g 3, .g 6, .always⟩, .bcvt ⟨false, .bf16, .g 3, .g 6, .always⟩]) = true := by decide +kernel

theorem witness_LongFloatsIssue :
    (Instr.fdiv ⟨.f27, 1, 2, .s 3, .always, 8⟩ :: ([Instr.fsqt, .frcp, .frsq, .fex3, .flg3, .fexe, .flge, .fsin, .fcos,
      .ftnh].map fun i => i ⟨.f27, 1, 2, .always, 4⟩)).all (fun i => meets base i fun _ _ x => x.anyActive) = true := by
  decide +kernel

theorem witness_FunctionEdges : (-1 : Int) ≠ 0 ∧ (-1 : Int) < 0 ∧ tf81 ∈ [tf27, tf81] := by decide +kernel

/-- Transfers by 1 word, to targets at word addresses, with every hint. -/
theorem witness_TransfersMoveEachLane :
    ([.br ⟨.pos, Trits.ofInt 12 1⟩, .brp ⟨.neg, .pos 1, Trits.ofInt 12 6⟩, .b3 ⟨.neg, .neg 0, Trits.ofInt 6 (-5), Trits.ofInt 6 364⟩,
      .call ⟨.zero, Trits.ofInt 12 265720⟩, .loop ⟨.zero, .g 1, im (-9), .always⟩] : List Instr).all
      (fun i => meets base i fun _ _ x => decide (x.pc.val % 3 = 0)) = true ∧
    meets base (.ret ⟨.g 2, .always⟩) (fun _ _ x => x.active.all fun l => decide ((x.reg (.g 2) l).val % 3 = 0)) = true ∧
    meets base (.jmpi ⟨.g 2, .imm (im 40), .always⟩) (fun _ _ x => x.active.all fun l =>
      decide (wrapInt 27 ((x.reg (.g 2) l).val + 3 * x.src (.imm (im 40)) l) % 3 = 0)) = true := by decide +kernel

/-- CALLI with one target for all, and with a target for each lane. -/
theorem witness_IndirectCallsOpenRecords :
    let targets (x : Issue) : List Int := x.active.map fun l => wrapInt 27 ((x.reg (.g 2) l).val + 3 * x.src (.imm (im 0)) l)
    let i : Instr := .calli ⟨.g 1, .g 2, .imm (im 0), .always⟩
    meets base i (fun _ _ x => x.again.isNone && targets x == [0, 0]) = true ∧
    meets (lanesAs fun n l => l.wrG 2 (Word.ofInt (3 * n))) i (fun w g x => x.again.isNone && targets x == [0, 3] &&
      !w.kernel.reforming && decide (g.calls.length < 9)) = true := by decide +kernel

theorem witness_RunsEnd :
    allIssue base [.endrun (Trits.ofInt 9 9841), .yield (Trits.ofInt 9 1), .exit (.pos 1), .exit .always, .nop] = true ∧
    allIssue (tweak (fun w => { w with kernel := { w.kernel with reforming := true } }) id) [.reform] = true := by decide +kernel

theorem witness_LanesExchange :
    allIssue base (([Instr.shfl, .shfld, .shflt].map fun i => i ⟨2, .g 1, .g 2, .g 3, .always⟩) ++
      [.xperm ⟨2, .g 1, .g 2, .s 26, .always⟩, .bcst ⟨.w, .g 1, .g 2, .imm (im 26), .always⟩, .vote ⟨.maj, 8, .g 2, .always⟩,
        .redu ⟨.f27, .add, .g 1, .g 2, .always⟩, .scan ⟨.t, .max, true, .g 1, .g 2, .always⟩]) = true := by decide +kernel

theorem witness_SpecialRegistersReadAndWrite :
    allIssue base [.rng ⟨.g 1, .always⟩, .sreadPredicate ⟨.g 1, 8, .always⟩, .swrite ⟨12, .g 2, .always⟩, .swrite ⟨13, .g 2, .always⟩,
      .swritePredicate ⟨8, .g 2, .always⟩] = true ∧
    ([0, 9, 10, 14] : List (Fin 15)).all (fun n => meets base (.sread ⟨.g 1, n, .always⟩) fun _ g _ => g.pend == []) = true := by
  decide +kernel

/-- Words of the matrix unit with valid operands: the room of an empty queue; a full queue; a dead tag and a live one. -/
def fullUnit : MatUnit :=
  { MatUnit.reset with queue := (List.range 27).map fun n => ⟨n, 0, 0, Word.ofInt 0, .zero 0, false, false⟩ }
def liveUnit : MatUnit := { MatUnit.reset with pl0 := { MatUnit.reset.pl0 with tag := Word.ofInt 7 } }

/-- Spans at offset 0 and at the last that fits, 531441 − 177147. -/
theorem witness_MatrixWordsEnterQueues :
    let span (off : Int) (len : Nat) (w : Workgroup) : Bool :=
      off % 81 == 0 && decide (0 ≤ off) && decide (off + len ≤ (w.runLen : Int))
    let loads (i : Instr) (s : State) : Bool := meets s i fun w g x => match (x.s.descriptorOf w (x.imm (im 0))).2 with
      | some d => span (g.rdS 2).val d.imageLen w && d.wf.q == 0 && decide (9 ≤ d.wf.w)
      | none => false
    let at_ (v : Int) : State := big fun g => g.wrS 2 (Word.ofInt v)
    let full : State := { at_ 0 with units := [(0, fullUnit)] }
    let tagged : State := { (big fun g => g.wrS 3 (Word.ofInt 7)) with units := [(0, liveUnit)] }
    [at_ 0, at_ 354294, full].all (fun s => loads (.mload ⟨1, 2, im 0⟩) s && loads (.mloadp ⟨8, 1, 2, im 0⟩) s &&
      meets s (.mzero 26) (fun _ _ _ => true) &&
      ([0, 40] : List Int).all (fun b => meets s (.mwr ⟨1, .g 2, .imm (im b), .always⟩) fun _ _ x =>
        decide (0 ≤ x.simm (.imm (im b))) && x.active != []) &&
      ([.mstoreKeep ⟨1, 2, 6⟩, .mstoreZero ⟨1, 2, 6⟩] : List Instr).all (fun i => meets s i fun w g x =>
        match (x.s.fmtAt w 6).2 with
        | some f => storeOk 6 f && span (g.rdS 1).val (27 * storeRow f) w
        | none => false)) = true ∧
    meets (big fun g => g.wrS 3 (Word.ofInt 5)) (.mact 3) (fun w g x => decide ((x.s.unitAt (coreClu w.core)).tagState (g.rdS 3) = .retired)) = true ∧
    meets tagged (.mact 3) (fun w g x => !decide ((x.s.unitAt (coreClu w.core)).tagState (g.rdS 3) = .retired)) = true ∧
    meets (big fun g => g.wrS 3 (Word.ofInt 5)) (.mpass ⟨0, .g 5, 3, .always⟩) (fun w g x => ((x.s.unitAt (coreClu w.core)).descOf (g.rdS 3)).isNone) = true ∧
    meets tagged (.mpass ⟨0, .g 5, 3, .always⟩) (fun w g x => match (x.s.unitAt (coreClu w.core)).descOf (g.rdS 3) with
      | some d => x.active.all fun l => span (x.reg (.g 5) l).val d.rowLen w
      | none => false) = true := by decide +kernel

theorem witness_MatrixReadsBeginAndSpansTrap :
    let full : State := { base with units := [(0, fullUnit)] }
    let off (n : Nat) (v : Int) : State := big fun g => g.wrS n (Word.ofInt v)
    let mrd : Instr := .mrd ⟨80, 0, .s 4, .always, 2⟩
    let inUse (s : State) (w : Workgroup) : Bool := (s.unitAt (coreClu w.core)).queue.any fun e => e.op.tile == some (w.tileAt 0)
    let bad (o : Int) (len : Nat) (w : Workgroup) : Bool := decide (o % 81 ≠ 0 ∨ o < 0 ∨ o + len > (w.runLen : Int))
    meets full mrd (fun w _ x => x.again.isNone && inUse full w) = true ∧
    [(-1 : Int), 729].all (fun v => meets (off 4 v) mrd fun w _ x => x.again.isNone && !inUse (off 4 v) w &&
      decide (x.simm (.s 4) < 0 ∨ x.simm (.s 4) > 728)) = true ∧
    [(0 : Int), 728].all (fun v => meets (off 4 v) mrd fun w _ x => x.again.isNone && !inUse (off 4 v) w && x.anyActive &&
      decide (0 ≤ x.simm (.s 4) ∧ x.simm (.s 4) ≤ 728)) = true ∧
    meets base (.mstat ⟨.consumed, 1, 2, .always, 0⟩) (fun _ _ x => x.again.isNone && x.anyActive) = true ∧
    [(80 : Int), -81, 354375].all (fun v => [Instr.mload ⟨1, 2, im 0⟩, .mloadp ⟨0, 1, 2, im 0⟩].all fun i =>
      meets (off 2 v) i fun w g x => match (x.s.descriptorOf w (x.imm (im 0))).2 with
        | some d => bad (g.rdS 2).val d.imageLen w && d.wf.q == 0 && decide (1 ≤ d.wf.w)
        | none => false) = true ∧
    [(1 : Int), -81, 531360].all (fun v => meets { (big fun g => allG 5 v (g.wrS 3 (Word.ofInt 7))) with units := [(0, liveUnit)] }
      (.mpass ⟨0, .g 5, 3, .always⟩) fun w g x =>
      match (x.s.unitAt (coreClu w.core)).descOf (g.rdS 3) with
        | some d => x.active.any fun l => bad (x.reg (.g 5) l).val d.rowLen w
        | none => false) = true ∧
    [(-1 : Int), 729].all (fun v => meets (off 4 v) (.mwr ⟨1, .g 2, .s 4, .always⟩) fun _ _ x =>
      decide (x.simm (.s 4) < 0 ∨ x.simm (.s 4) > 728)) = true := by decide +kernel

/-- A slice of 27 trytes of private space for each thread. -/
def privBase (a : Int) : State := tweak (fun w => { w with grans := 2, kernel := { w.kernel with priv := 27 } }) (allG 4 a)

/-- The accesses of a form: the elements that a check refuses, and what the reads give. -/
def refusedBy (x : Issue) (sp : Space) (k : AccKind) (wd : Width) (lanes : List Nat) (addr : Nat → Int) : List Bad :=
  (x.resolveAll x.s0 sp k wd (x.memParts lanes addr (fun _ => Word.ofInt 0) (fun _ => Word.ofInt 0) fun _ => Word.ofInt 0)).2.2

/-- Loads and stores that all pass; that a check refuses (an address past the run, R273); and a load of a word with a soft
error, which the read refuses. -/
theorem witness_LoadsAndStoresBegin :
    let at_ (v : Int) : State := tweak id fun g => (allG 4 v g).wrS 4 (Word.ofInt v)
    let form : AccForm := .weak (im 0)
    let strong : AccForm := .strong ⟨false, .zero, .pkg⟩
    let acq : AccForm := .strong ⟨true, .pos, .pkg⟩
    let lds : List (Instr × AccKind) := [(.ld ⟨.scr, .t, form, 6, 4, .always, 1⟩, .read),
      (.ldStrong ⟨.scr, .w, acq, 6, 4, .always, 1⟩, .read), (.st ⟨.scr, .w, form, 6, 4, .always, 1⟩, .write),
      (.stStrong ⟨.scr, .w, strong, 6, 4, .always, 1⟩, .write)]
    let unis : List (Instr × AccKind) := [(.ldu ⟨.scr, .w, form, 6, 4, .always, 1⟩, .read),
      (.stu ⟨.scr, .w, strong, 6, 4, .always, 1⟩, .write)]
    lds.all (fun i => [(0, true), (2184, true), (2187, false)].all fun (a : Int × Bool) =>
      meets (at_ a.1) i.1 fun _ _ x => x.again.isNone && x.anyActive &&
        (refusedBy x .scr i.2 .w x.active fun l => ((x.g.lane l).rdG 4).val).isEmpty == a.2) = true ∧
    unis.all (fun i => [(2184, true), (2187, false)].all fun (a : Int × Bool) =>
      meets (at_ a.1) i.1 fun _ _ x => x.again.isNone && x.anyActive &&
        (refusedBy x .scr i.2 .w (x.active.take 1) fun _ => (x.g.rdS 4).val).isEmpty == a.2) = true ∧
    [true, false].all (fun b => meets { (at_ 0) with bad := { (at_ 0).bad with scr := if b then [] else [0] } }
      (.ld ⟨.scr, .w, form, 6, 4, .always, 1⟩) fun _ g x =>
        let parts := x.memParts x.active (fun _ => 0) (fun _ => Word.ofInt 0) (fun _ => Word.ofInt 0) fun _ => Word.ofInt 0
        let r := x.resolveAll x.s0 .scr .read .w parts
        r.2.2.isEmpty && (x.readAll (r.1.settleOver g.ref r.2.1) false .w parts r.2.1).2.2.isEmpty == b) = true := by
  decide +kernel

/-- The first and the last aligned place of a run and of a slice. -/
theorem witness_ScratchpadAccesses :
    [(0 : Int), 18].all (fun v => [Width.w, .t, .f81].all fun wd =>
      meets (privBase v) (.ld ⟨.priv, wd, .weak (im 0), 6, 4, .always, 1⟩) (fun w g x => g.pend == [] && x.again.isNone &&
        x.anyActive && decide x.active.Nodup && decide (w.grans ≤ 243 ∧ w.kernel.priv ≤ 531441) &&
        x.active.all fun l => decide (((x.g.lane l).rdG 4).val % 9 = 0 ∧ 0 ≤ ((x.g.lane l).rdG 4).val ∧
          ((x.g.lane l).rdG 4).val + 9 ≤ (w.kernel.priv : Int)))) = true ∧
    [(0 : Int), 2178].all (fun v => [Width.w, .t, .f81].all fun wd =>
      meets (tweak id (allG 4 v)) (.st ⟨.scr, wd, .weak (im 0), 6, 4, .always, 1⟩) (fun w g x => g.pend == [] && x.again.isNone &&
        x.anyActive && decide x.active.Nodup && x.active.all fun l => decide (((x.g.lane l).rdG 4).val % 9 = 0 ∧
          0 ≤ ((x.g.lane l).rdG 4).val ∧ ((x.g.lane l).rdG 4).val + 9 ≤ w.grans * 2187))) = true ∧
    base.bad.scr = [] := by decide +kernel

theorem witness_MisalignedAddressesTrap :
    [Instr.jmpi ⟨.g 4, .imm (im 0), .always⟩, .ret ⟨.g 4, .always⟩].all (fun i => meets (tweak id (allG 4 1)) i fun _ _ x =>
      x.active.any fun l => (x.pred l).trit 0 == 1 && ((x.g.lane l).rdG 4).val % 3 != 0) = true ∧
    [(1 : Int), 2].all (fun v => [Width.w, .f81].all fun wd =>
      [Instr.ld ⟨.scr, wd, .weak (im 0), 6, 4, .always, 1⟩, .st ⟨.scr, wd, .weak (im 0), 6, 4, .always, 1⟩,
        .ldStrong ⟨.chip, wd, .strong ⟨false, .zero, .die⟩, 6, 4, .always, 1⟩,
        .stStrong ⟨.clu, wd, .strong ⟨false, .neg, .die⟩, 6, 4, .always, 1⟩].all fun i =>
        meets (tweak id (allG 4 v)) i fun _ _ x => x.again.isNone && decide x.active.Nodup && x.active != [] &&
          x.active.all fun l => (x.pred l).trit 0 == 1 && ((x.g.lane l).rdG 4).val % 3 != 0) = true := by decide +kernel

/-- A pending store of a group, with the trytes it is to write. -/
def pendOf (i : Instr) (performed : Bool) (lanes : List PendLane) (stores : List StoreElem) : Pending :=
  { id := 5, word := wordOf i, pc := Word.ofInt 0, payload := 0, slot := 1, counted := true, set := lanes.map fun l => l.lane,
    lanes := lanes, performed := performed, stores := stores, todo := [] }
def pendBase (p : Pending) : State := tweak id fun g => { g with pend := [p], w := [(1, 1)] }
def ref : GroupRef := ⟨0, 0⟩

theorem witness_ScratchpadStoresComplete :
    let p := pendOf (.st ⟨.scr, .t, .weak (im 0), 6, 4, .always, 1⟩) false [PendLane.new 0 (Trits.ofInt 3 1)]
      [⟨0, 0, .scr 0 531440, Tryte.ofInt 7⟩]
    let s := pendBase p
    s.wgOf 0 = some wk ∧ (s.groupOf ref).isSome = true ∧ s.dieDown 0 = false ∧ wk.entry = none ∧
      p.instr = some (.st ⟨.scr, .t, .weak (im 0), 6, 4, .always, 1⟩) ∧ s.bad.scr = [] ∧ s.divAt 0 531440 = none ∧
      p.lanes.all (fun l => decide (l.flags = .none)) = true := by decide +kernel

/-- Atomics that pass, a release among them; one that a check refuses; and one of a word with a soft error. -/
theorem witness_AtomicsPerform :
    let at_ (v : Int) (bad : List Nat) : State := { (tweak id (allG 4 v)) with bad := ⟨[], bad, []⟩ }
    let atoms (o : MemOrder) : List Instr := [.atom ⟨.scr, .add, false, o, .pkg, 6, 4, .always, 1⟩,
      .atomr ⟨.scr, .tmax, false, o, .thread, 6, 4, .always, 1⟩, .cas ⟨.scr, .add, false, o, .pkg, 6, 4, .always, 1⟩]
    let parts (x : Issue) : List PendLane := x.memParts x.active (fun l => ((x.g.lane l).rdG 4).val)
      (fun l => (x.g.lane l).rdG 6) (fun _ => Word.ofInt 0) fun _ => Word.ofInt 0
    [MemOrder.rlx, .acq, .rel, .acqrel].all (fun o => (atoms o).all fun i =>
      [((0 : Int), ([] : List Nat), true, true), (2184, [], true, true), (2187, [], false, true), (0, [0], true, false)].all fun c =>
        meets (at_ c.1 c.2.1) i fun _ _ x => x.again.isNone && x.anyActive && !x.g.pend.any Pending.waitsDiverted &&
          let r := x.resolveAll x.s0 .scr .atomic .w (parts x)
          r.2.2.isEmpty == c.2.2.1 && (x.atomProbe r.1 .w (parts x) r.2.1).isEmpty == c.2.2.2 && !r.1.overWaits x.r r.2.1 &&
            (!c.2.2.1 || !c.2.2.2 || (List.range (r.2.1.length + 1)).all fun k =>
              (x.atomAll .add false .w r.1 (parts x) (r.2.1.take k)).2.2.isEmpty)) = true := by decide +kernel

theorem witness_ScratchpadAtomicsInLaneOrder :
    [(0 : Int), 2184].all (fun v => [Instr.atom ⟨.scr, .tmin, false, .rlx, .pkg, 6, 4, .always, 1⟩,
      .atomr ⟨.scr, .exch, false, .rlx, .thread, 6, 4, .always, 1⟩, .cas ⟨.scr, .add, false, .rlx, .pkg, 6, 4, .always, 1⟩].all
      fun i => meets (tweak id (allG 4 v)) i fun w g x => g.pend == [] && x.again.isNone && x.active != [] &&
        decide x.active.Nodup && x.active.all fun l => decide (((x.g.lane l).rdG 4).val % 3 = 0 ∧
          ((x.g.lane l).rdG 4).val + 3 ≤ w.grans * 2187)) = true ∧ base.bad.scr = [] := by decide +kernel

/-- A fence with and without an earlier access pending; WAITM of a word that differs from the expected value, that equals it,
and that lies outside the run. -/
theorem witness_FencesAndMonitorWaits :
    let st : Pending := pendOf (.st ⟨.scr, .t, .weak (im 0), 6, 4, .always, 1⟩) false [] [⟨0, 0, .scr 0 0, Tryte.ofInt 7⟩]
    let waits (a v : Int) : State := tweak id fun g => (g.wrS 4 (Word.ofInt a)).wrS 6 (Word.ofInt v)
    let waitm : Instr := .waitm ⟨6, 4, .scr, im 40⟩
    let read (x : Issue) (w : Workgroup) (g : Machine.Group) : Except Nat (State × Option Int) :=
      x.s0.monitorRead w g.ref .scr (x.g.lane 0).thread (x.g.rdS 4).val
    [FenceKind.acq, .rel, .acqrel, .sc].all (fun k => [(base, false), (pendBase st, true)].all fun c =>
      meets c.1 (.fence ⟨k, .pkg⟩) fun _ _ x => x.g.pend.any Pending.fenced == c.2) = true ∧
    meets (waits 0 1) waitm (fun w g x => x.again.isNone && match read x w g with
      | .ok (_, some v) => v != 1
      | _ => false) = true ∧
    meets (waits 2184 0) waitm (fun w g x => x.again.isNone && match read x w g with
      | .ok (_, some v) => v == 0
      | _ => false) = true ∧
    meets (waits 2187 0) waitm (fun w g x => x.again.isNone && match read x w g with
      | .error _ => true
      | _ => false) = true ∧
    meets { (waits 19683 0) with cores := holding } (.waitm ⟨6, 4, .clu, im 0⟩) (fun w g x => x.again.isNone &&
      match x.s0.monitorRead w g.ref .clu (x.g.lane 0).thread (x.g.rdS 4).val with
      | .ok (_, none) => true
      | _ => false) = true := by decide +kernel

theorem witness_CacheWordsAct :
    allIssue base [.cwb ⟨.g 4, .imm (im 3), .always⟩, .cwbAll, .cinv ⟨.g 4, .s 3, .always⟩, .cinvAll,
      .pref ⟨.g 4, .g 3, .pos 1⟩, .prefLlc ⟨.g 4, .g 3, .always⟩] = true := by decide +kernel

/-- Requests that are misaligned, past the run, and sound; a collective that is open, one that is not started, and none. -/
theorem witness_EngineWordsIssue :
    let at_ (v : Int) : State := big fun g => g.wrS 9 (Word.ofInt v)
    let copy (seq : Nat) (started : Bool) : Copy :=
      { id := 7, wg := 0, engine := 0, owner := wk, form := .cpy, seq := seq, need := 2, slices := [], pc := Word.ofInt 0, waits := [],
        started := started, view := none, box := none, wrote := [], stage := 0, parked := false, reread := false }
    [Instr.cpys ⟨9, 8⟩, .cpyf ⟨9, 8⟩, .cpyl ⟨9, 2, 8⟩, .cpylFlush ⟨9, 0, 8⟩, .cpy ⟨9, 8⟩].all (fun i =>
      [(1 : Int), 531441, -27, 0, 531414].all fun v => meets (at_ v) i fun _ g _ => (g.rdS 9).val == v) = true ∧
    [Instr.spawn ⟨1, 9, 8⟩, .spawnCoresident ⟨1, 9, 8⟩].all (fun i => meets base i fun _ _ _ => true) = true ∧
    [[copy 0 false], [copy 1 false], [copy 1 true], []].all (fun cs => meets { (at_ 0) with copies := cs } (.cpy ⟨9, 8⟩) fun _ g x =>
      g.cpys == 0 && (x.s0.copies == cs)) = true := by decide +kernel

/-- The words of a barrier object in scratchpad from tryte o. -/
def barrierAt (o : Nat) (ws : List Int) : SMap Tryte :=
  (List.range (3 * ws.length)).foldl (fun m i => SMap.set (Tryte.ofInt 0) m (o + i)
    (Tryte.ofInt (dropInt (9 * (i % 3)) (ws.getD (i / 3) 0)))) []

/-- A sound object, a broken one, and one outside the run; a sound arrival that is the last and one that is not. -/
theorem witness_BarrierWords :
    let obj (ws : List Int) (a : Int) (token : Int) : State :=
      { (tweak id fun g => (g.wrS 4 (Word.ofInt a)).wrS 2 (Word.ofInt token)) with scr := barrierAt 0 ws }
    let sound : List Int := [3, 2, 5, 0, 0, 0, 0, 0, 0]
    let broken : List Int := [3, 2, 5 - 3 ^ 26, 0, 0, 0, 0, 0, 0]
    let passes (x : Issue) (k : AccKind) : Bool :=
      match x.s0.resolve x.w .scr (x.g.lane 0).thread k 27 (x.g.rdS 4).val with
      | .ok _ => true
      | .error _ => false
    let phase (s : State) (w : Workgroup) (g : Machine.Group) : Option Int :=
      match s.monitorRead w g.ref .scr 0 ((g.rdS 4).val + 6) with
      | .ok (_, some v) => some v
      | _ => none
    let arrives (x : Issue) : Option Int :=
      match x.s0.resolve x.w .scr (x.g.lane 0).thread .atomic 27 (x.g.rdS 4).val with
      | .ok (t, ps) =>
        match ((t.settleStores x.r fun _ => true).releaseAt x.w .pkg).arriveAt x.w.who (ps.map (t.placeNow x.w.id)) with
        | .ok (_, ph) => ph
        | .error _ => none
      | .error _ => none
    (5 : Int).natAbs ≤ maxMag 27 ∧ tritAt 5 26 = 0 ∧
    [(0 : Int), 2160].all (fun a => [Instr.bari ⟨20, 4, .scr⟩, .bar ⟨4, .scr⟩, .bara ⟨1, 4, .scr⟩, .barw ⟨4, 2, .scr⟩].all fun i =>
      meets (obj sound a 5) i fun _ _ x => x.again.isNone && passes x .atomic && passes x .write && passes x .read) = true ∧
    [(1 : Int), 2187].all (fun a => [Instr.bari ⟨20, 4, .scr⟩, .bar ⟨4, .scr⟩, .bara ⟨1, 4, .scr⟩, .barw ⟨4, 2, .scr⟩].all fun i =>
      meets (obj sound a 5) i fun _ _ x => !passes x .atomic && !passes x .write && !passes x .read) = true ∧
    [Instr.bar ⟨4, .scr⟩, .bara ⟨1, 4, .scr⟩].all (fun i => meets (obj sound 0 5) i (fun _ _ x => arrives x == some 5) &&
      meets (obj broken 0 5) i fun _ _ x => arrives x == none) = true ∧
    meets (obj sound 0 5) (.barw ⟨4, 2, .scr⟩) (fun w g x => phase x.s0 w g == some (g.rdS 2).val) = true ∧
    meets (obj sound 0 4) (.barw ⟨4, 2, .scr⟩) (fun w g x => phase x.s0 w g == some 5 && (g.rdS 2).val == 4) = true ∧
    meets (obj broken 0 5) (.barw ⟨4, 2, .scr⟩) (fun w g x => phase x.s0 w g == some (5 - 3 ^ 26)) = true ∧
    [Instr.bar ⟨4, .clu⟩, .bara ⟨1, 4, .clu⟩, .barw ⟨4, 2, .clu⟩].all (fun i => meets { (obj sound 19683 5) with cores := holding } i
      fun w g x => (match x.s0.resolve w .clu (x.g.lane 0).thread .atomic 27 (x.g.rdS 4).val with
        | .ok (t, ps) => t.waitsAt (ps.map (t.placeNow w.id))
        | .error _ => false) && match x.s0.monitorRead w g.ref .clu (x.g.lane 0).thread ((x.g.rdS 4).val + 6) with
        | .ok (_, none) => true
        | _ => false) = true := by decide +kernel

/-- Mailboxes in range and past it; bound with a posted slot, and not; a busy reply area and a free one; bindings that are
refused and accepted. -/
theorem witness_MailboxWords :
    let boxes (b : Mailbox) : State := { base with mailboxes := [(26, b)] }
    let bound : Mailbox := { Mailbox.empty with bound := some (0, 1), posted := [8], words := [(27 * 8 + 26, Word.ofInt 1)] }
    let busy : Mailbox := { Mailbox.empty with reply := [(26, Word.ofInt 1)] }
    let regs (c rev : Int) : State := lanesAs fun n l => l.wrG 1 (Word.ofInt (if n = 0 then c else if n = 1 then rev else 0))
    let sel (v : Int) : State := tweak id fun g => g.wrS 3 (Word.ofInt v)
    [Mailbox.empty, bound, busy].all (fun b => allIssue (boxes b) [.mbrx ⟨.g 2, .imm (im 26)⟩, .mbtxReply ⟨8, .g 1, .imm (im 26)⟩,
      .mbtxBind ⟨8, .g 1, .imm (im 26)⟩, .mbtxUnbind ⟨8, .g 1, .imm (im 26)⟩]) = true ∧
    ((boxes bound).box 26).posted = [8] ∧ ((boxes busy).box 26).reply.get (Word.ofInt 0) 26 ≠ Word.ofInt 0 ∧
    [(-1 : Int), 27, 0, 26].all (fun v => [Instr.mbrx ⟨.g 2, .s 3⟩, .mbtxReply ⟨8, .g 1, .s 3⟩, .mbtxBind ⟨8, .g 1, .s 3⟩,
      .mbtxUnbind ⟨8, .g 1, .s 3⟩].all fun i => meets (sel v) i fun _ _ x => x.simm (.s 3) == v) = true ∧
    [((0 : Int), (1 : Int)), (728, 9841), (729, 1), (0, 0)].all (fun c => meets (regs c.1 c.2) (.mbtxBind ⟨8, .g 1, .imm (im 0)⟩)
      fun _ _ x => (x.reg (.g 1) 0).val == c.1 && (x.reg (.g 1) 1).val == c.2) = true := by decide +kernel

/-- A ring with room and a full one; a node's address that translates and one that does not. -/
theorem witness_PostsAndNodeWords :
    let ring (prod : Int) : State := virt (tweak rooted id) (virtSpan (-243) 3 (rootWords ++ [(33, prod)]) ++ virtSpan 16200 3 [])
    let post (x : Issue) : Bool := (((x.s0.settleStores x.r fun _ => true).releaseAt x.w .sys).ringPost x.w.core.die x.w.region.ctx
      ([0, 10, 0] ++ (List.range 4).map fun n => (x.g.rdS (23 + n)).val)).isSome
    let node (a : Int) : State := home id (fun g => g.wrS 9 (Word.ofInt a)) (virtSpan (-486) 3 [])
    let far : Int := 193710245 * 19683
    let passes (x : Issue) (w : Workgroup) (g : Machine.Group) : Bool :=
      match x.s0.resolveVirt w.who .read 3 (g.rdS 9).val with
      | .ok _ => true
      | .error _ => false
    meets (ring 0) (.evpost 23) (fun w _ x => ((x.s0.ringOf w.region.ctx).waiting == []) && post x) = true ∧
    meets (ring 81) (.evpost 23) (fun _ _ x => !post x) = true ∧
    [Instr.rwalk ⟨1, 9⟩, .rstat ⟨1, 9, 2⟩].all (fun i => meets (node (-486)) i (fun w g x => passes x w g) &&
      meets (node far) i fun w g x => !passes x w g) = true := by decide +kernel

/-- A trap with one entry at its head, in a region whose handler stands at 300 and whose frames can be written; one in handler
state, and one without a handler. -/
def handled (w : Workgroup) : Workgroup := { rooted w with region := { rootRegion with handler := Word.ofInt 300 } }
def handler0 : Handler :=
  { cause := 12, busyOn := none, sets := [[0, 1]], issued := [false], past := [false], copies := [none], calls := [],
    active := [0, 1], boundary := false }
def inHandler (g : Machine.Group) : Machine.Group := { g with handler := some handler0 }
def entry0 : ReEntry :=
  { pc := Word.ofInt 0, word := Word.ofInt 12, payload := 0, cause := 12, detail := 0, slot := false, perf := false, set := [0, 1],
    issued := false, past := false, lanes := [], rec_ := [], copy := none }
def frame0 (ws : List (Nat × Int)) : List (Nat × LLine) := virtSpan 0 19 ws

theorem witness_TrapsEnterTheHandler :
    let s := virt (tweak handled id) (frame0 [])
    let h := virt (tweak handled inHandler) (frame0 [])
    (s.wgOf 0).any (fun w => decide (w.region.handler.val ≠ 0) && (s.groupOf ref).any fun g => g.handler.isNone && g.pend == [] &&
      match (s.progEvent (coreIdx w.core) 9 (some w.region.ctx.num)).writeFrames w g [entry0] 12 0 1 with
      | .ok _ => true
      | .error _ => false) = true ∧
    (h.groupOf ref).any (fun g => g.handler.isSome) = true ∧ (base.wgOf 0).any (fun w => decide (w.region.handler.val = 0)) = true ∧
    base.groups.any (fun g => g.wg == wk.id) = true := by decide +kernel

/-- A part of an entry for lane 26. -/
theorem witness_FrameLayout :
    26 < 27 ∧ 8 < 9 ∧ ([PendLane.new 26 (Trits.ofInt 3 13)].find? fun l => l.lane == 0 + 26).isSome = true := by decide +kernel

theorem witness_TrapAndResume :
    let h := virt (tweak handled inHandler) (frame0 [])
    meets base (.trap (im (-13))) (fun _ _ x => !x.g.pend.any Pending.isBound) = true ∧
    meets (pendBase (pendOf (.ld ⟨.scr, .t, .weak (im 0), 6, 4, .always, 1⟩) false [] [])) (.trap (im (-13)))
      (fun _ _ x => x.g.pend.any Pending.isBound) = true ∧
    meets h .resume (fun w g x => match x.g.handler with
      | none => false
      | some k => match x.s.resumed w x.g k with
        | .error _ => false
        | .ok b => match (x.s.updGroup g.ref fun _ => b).putItem w x.g 0 0 with
          | .ok _ => true
          | .error _ => false) = true := by decide +kernel

/-- A frame with one entry: items of the group and of the lanes, an entry that is not there, an item that may not be written;
queues without a record, with one that no group awaits, and with one that the group awaits. -/
def handlerWith (e : Int) (depth : Int) : State :=
  virt (tweak handled fun g => inHandler (g.wrS 2 (Word.ofInt e))) (frame0 [(0, depth), (301, 12)])
def record (wg : Option Nat) : FaultRec :=
  { cause := 8, inner := 0, parked := false, retired := false, pc := 0, region := Word.ofInt 0, wgIndex := Word.ofInt 0, hw := 0,
    lanes := [], addr := 0, laySrc := 0, layDst := 0, coord := [], time := 0, wg := wg, node := none, copy := none, deferred := false }

theorem witness_ReplayQueueWords :
    [((-1 : Int), (0 : Fin 14)), (-1, 13), (0, 3), (0, 10), (1, 0), (-2, 0), (0, 11)].all (fun c =>
      meets (handlerWith c.1 1) (.rqrd ⟨.g 5, 2, c.2⟩) fun w g x => (g.rdS 2).val == c.1 &&
        match x.s.frameItem w x.g 0 with
        | .ok n => n == 1
        | .error _ => false) = true ∧
    [((-1 : Int), (2 : Fin 14)), (-1, 13), (-1, 0), (0, 2), (0, 9), (0, 0), (1, 2)].all (fun c =>
      meets (handlerWith c.1 1) (.rqwr ⟨.g 5, 2, c.2⟩) fun _ g _ => (g.rdS 2).val == c.1) = true ∧
    [(0 : Int), 1, -1].all (fun e => meets (handlerWith e 1) (.rqdrop 2) fun _ g _ => (g.rdS 2).val == e) = true ∧
    meets (handlerWith 0 1) (.rqdrop 2) (fun w _ x => match x.g.handler with
      | none => false
      | some k => match x.s.entryAt w x.g 0 k with
        | .ok y => y.rec_ == []
        | .error _ => false) = true ∧
    [([] : List FaultRec), [record none], [record (some 0)]].all (fun rs => [Instr.dfpopRead (.g 5), .dfpopRetry (.g 5), .dfpopSkip (.g 5)].all
      fun i => meets { (handlerWith 0 0) with dfqs := [⟨-4860, rootRegion.ctx, rs, 1⟩] } i fun w _ x =>
        ((x.s.dfqOf w.region).map (·.recs)) == some rs) = true := by decide +kernel

/-- A region block that is sound, one that is malformed, an address that does not translate; images of a resident and of a
suspended workgroup and of none; diversion entries, and an index past the last. -/
theorem witness_PreemptionWords :
    let at_ (v : Int) (f : Workgroup → Workgroup) (ls : List (Nat × LLine)) : State :=
      home f (fun g => g.wrS 2 (Word.ofInt v)) ls
    let region (x : Issue) (w : Workgroup) (g : Machine.Group) : Nat :=
      match x.s0.resolveVirt w.who .read 3 (g.rdS 2).val with
      | .error _ => 0
      | .ok (t, _) => match t.readRegion w.core.die w.region.ctx (g.rdS 2).val with
        | .ok _ => 1
        | .error _ => 2
    let other : Workgroup := { rooted wk with id := 9, st := .suspended, saveIdx := 1 }
    let image (x : Issue) (w : Workgroup) (g : Machine.Group) : Option WgSt :=
      (x.s.wgs.find? fun v => v.region.ctx.num == w.region.ctx.num && v.image == (g.rdS 2).val).map (·.st)
    let words : List (Nat × Int) := (List.range 27).zip (other.header 2 0 0)
    let two : State := at_ (-19683 + 4782969) id (virtSpan (-19683 + 4782969) 1 words)
    let divs (e : Int) (d : Trit) : State := { (at_ e id []) with cores := [(0, { CoreState.empty with divs := [(5, ⟨d, 0, 9, 1, 0, 0⟩)] })] }
    allIssue base [.halt (im 40), .halt (im 0)] = true ∧
    [((-243 : Int), 1), (193710245 * 19683, 0), (-486, 2)].all (fun c =>
      meets (at_ c.1 id (virtSpan (-486) 3 [])) (.preempt ⟨1, 2⟩) fun w g x => region x w g == c.2) = true ∧
    meets (at_ (-19683) id []) (.ctxsv ⟨1, 2⟩) (fun w g x => image x w g == some .resident) = true ∧
    meets (at_ 0 id []) (.ctxsv ⟨1, 2⟩) (fun w g x => image x w g == none) = true ∧
    meets { two with wgs := two.wgs ++ [other] } (.ctxld ⟨1, 2⟩) (fun w g x => image x w g == some .suspended &&
      match x.s.structRead (structWho w.core.die w.region.ctx) (g.rdS 2).val 27 with
      | .ok (t, vs) => t.imaged w.region.ctx.num (g.rdS 2).val == some other && other.headerOk vs
      | .error _ => false) = true ∧
    [((5 : Int), Trit.neg), (5, .zero), (4, .neg), (242 + 19683 * 242, .neg), (243, .neg), (-1, .neg)].all (fun c =>
      [Instr.divsetQuery ⟨1, 2⟩, .divsetRelease ⟨1, 2⟩].all fun i => meets (divs c.1 c.2) i fun _ g _ => (g.rdS 2).val == c.1) = true := by
  decide +kernel

/-- Indexes at both ends of their range and past them, sound values and refused ones, and a region without tables. -/
theorem witness_TableWords :
    let tables (fw : Workgroup → Workgroup) (fg : Machine.Group → Machine.Group) : State :=
      virt (tweak (fun w => fw (rooted w)) fg) (virtSpan 8100 1 [] ++ virtSpan 9477 2 [] ++ virtSpan 10287 1 [] ++ virtSpan 16767 1 [] ++
        virtSpan (-8100) 1 [])
    let put (i : Instr) (off : Nat) (n : Nat) (s : State) : Bool := meets s i fun w _ x => (x.s.putEntry w off (List.replicate n 0)).isSome
    let sel (b : Int) (g : Machine.Group) : Machine.Group := allG 7 b g
    let none_ (w : Workgroup) : Workgroup := { w with region := { w.region with comptab := 0 } }
    [((9 : Int), 0), (26, 51)].all (fun c => put (.fmtset ⟨2, .g 4, .g 7⟩) c.2 1 (tables id (sel c.1))) = true ∧
    (fmtOfWord 0).isSome = false ∧ (fmtOfWord (3 ^ 15 + 9)).isSome = true ∧
    [((0 : Int), 81), (80, 1521)].all (fun c => put (.shpset ⟨2, 40, .g 7⟩) c.2 6 (virt (tweak rooted (sel c.1)) (virtSpan 8100 20 []))) = true ∧
    [((0 : Int), 2187), (80, 8667)].all (fun c => put (.xpset ⟨2, .g 4, .g 7⟩) c.2 27 (tables id (sel c.1))) = true ∧
    [Instr.fmtset ⟨2, .g 4, .g 7⟩, .shpset ⟨2, 40, .g 7⟩, .xpset ⟨2, .g 4, .g 7⟩].all (fun i => [(8 : Int), 27, 81, -1].all fun v =>
      meets (tables none_ (sel v)) i fun w _ x => x.src (.g 7) 0 == v && (x.s.putEntry w 0 [0]).isNone) = true ∧
    [((-8100 : Int), (0 : Int), (3 : Int) ^ 26, true), (-8100, 26, 0, true), (8100, 0, 0, false), (-8101, 0, 0, false), (-8100, 27, 0, false),
      (-8100, -1, 0, false), (-8100, 0, 1, false)].all (fun c =>
        meets (tables id fun g => ((g.wrS 4 (Word.ofInt c.1)).wrS 5 (Word.ofInt c.2.2.1)).wrS 6 (Word.ofInt c.2.1)) (.ratset ⟨1, 4, .s 6⟩)
          fun w g x => x.simm (.s 6) == c.2.1 && (!c.2.2.2 ||
            match x.s.structWrite (structWho w.core.die w.region.ctx) ((g.rdS 4).val + 3 * c.2.1) [(g.rdS 5).val] with
            | .ok _ => true
            | .error _ => false)) = true ∧
    (attrOf (3 ^ 26)).isSome = true ∧ (attrOf 1).isSome = false ∧
    [((0 : Int), (0 : Int)), (26, 0), (27, 0), (-1, 0), (0, 8)].all (fun c => meets (tables id fun g => (g.wrS 6 (Word.ofInt c.1)).wrS 24
      (Word.ofInt c.2)) (.winset ⟨1, 24, .s 6⟩) fun _ g x => x.simm (.s 6) == c.1 &&
        (windowOf (g.rdS 24).val (g.rdS 25).val (g.rdS 26).val).isSome == (c.2 == 0)) = true := by decide +kernel

/-- R392: a word that writes the table block holds its group; the write is complete at its second turn. -/
def tabled : State := virt (tweak rooted (allG 7 9)) (virtSpan 8100 1 [])
def oneTab (s : State) (off : Nat) : State := { s with tabWrites := [⟨0, 0, 8100, 0, off, [Word.ofInt 0]⟩] }
theorem witness_TableWords_second :
    [(tabled, 0, true), (tweak rooted (allG 7 9), 0, false)].all (fun c => meets (oneTab c.1 c.2.1) (.fmtset ⟨2, .g 4, .g 7⟩) fun w _ x =>
      (x.s0.tabWrites.find? fun t => t.wg == 0 && t.hw == 0).isSome &&
        (({ x.s with tabWrites := [] } : State).putEntry w c.2.1 [0]).isSome == c.2.2) = true := by decide +kernel
theorem test_fmtset :
    (match exec (.fmtset ⟨2, .g 4, .g 7⟩) tabled with
      | .next t => (match exec (.fmtset ⟨2, .g 4, .g 7⟩) t with
        | .next u => some (t.tabWrites.length, u.tabWrites.length, (u.groupOf ref).map fun g => ((g.lane 0).rdK 2).trit 0)
        | _ => none)
      | _ => none) = some (1, 0, some 1) := by decide +kernel

theorem witness_TranslationCacheWords :
    [(0 : Int), 728, -1, 729].all (fun n => [Instr.tlbinv 4 2, .tlbinvCtx 2].all fun i => meets (tweak id fun g => g.wrS 2 (Word.ofInt n)) i
      fun _ g _ => (g.rdS 2).val == n) = true ∧
    allIssue base [.tlbfl, .icinv ⟨.g 4, .imm (im 3), .always⟩, .icinvAll] = true := by decide +kernel

/-- Counters at both ends of the map, invalid addresses, guarded kinds, and selectors that user code may set and may not. -/
theorem witness_CounterWords :
    let at_ (sup : Bool) (v b : Int) : State := home (fun w => { w with region := { w.region with supervisor := sup } })
      (fun g => (g.wrS 2 (Word.ofInt v)).wrS 6 (Word.ofInt b)) []
    let value (x : Issue) (w : Workgroup) (v : Int) : Bool := match counterOf w.region.ctx v with
      | none => false
      | some k => match x.s.counterValue w k with
        | .ok _ => true
        | .error _ => false
    (3 < 4 ∧ 511 < 512) ∧
    [(1 : Int), 5 + 729 * 407, 40 + 729 * 8, 39].all (fun v => meets (at_ true v 0) (.cntrd ⟨.g 5, 2⟩) fun w _ x => value x w v) = true ∧
    [(0 : Int), 5 + 729 * 408, 41, -1].all (fun v => meets (at_ true v 0) (.cntrd ⟨.g 5, 2⟩) fun w _ _ => (counterOf w.region.ctx v).isNone) =
      true ∧
    [(true, (1 : Int)), (false, 1), (true, 36), (false, 36), (false, 0)].all (fun c => meets (at_ c.1 c.2 0) (.cntclr ⟨1, 2⟩) fun w g _ =>
      w.region.supervisor == c.1 && (g.rdS 2).val == c.2) = true ∧
    [(true, (12 : Int), (8 : Int)), (true, 0, 0), (true, 13, 0), (true, 12, 9), (false, 12, 0), (false, 12 + 729, 8)].all (fun c =>
      meets (at_ c.1 c.2.1 c.2.2) (.cntsel ⟨1, 2, .s 6⟩) fun w g x => w.region.supervisor == c.1 && (g.rdS 2).val == c.2.1 &&
        x.simm (.s 6) == c.2.2) = true := by decide +kernel

/-! ### Long words without an active element, re-issued words, and words that wait -/

/-- Lanes whose predicate register 4 holds 0 in lane 0 and − in lane 1: no element is active, and lane 1's are zeroed (R117, R118). -/
def idleLanes : State := lanesAs fun n l => l.wrK 4 (Trits.ofInt 3 (if n = 0 then 0 else -13))
def accForm : AccForm := .weak (im 0)
def strongForm : AccForm := .strong ⟨false, .zero, .pkg⟩

theorem witness_LongWordsWithoutAnActiveElement :
    ([.ld ⟨.scr, .w, accForm, 6, 4, .pos 4, 1⟩, .ld ⟨.scr, .t, accForm, 6, 4, .pos 4, 1⟩, .ldStrong ⟨.virt, .f81, strongForm, 6, 4, .pos 4, 1⟩,
      .ldu ⟨.scr, .w, accForm, 6, 4, .pos 4, 1⟩, .st ⟨.scr, .t, accForm, 6, 4, .pos 4, 1⟩, .stStrong ⟨.scr, .w, strongForm, 6, 4, .pos 4, 1⟩,
      .stu ⟨.scr, .w, accForm, 6, 4, .pos 4, 1⟩, .atom ⟨.scr, .add, false, .rel, .pkg, 6, 4, .pos 4, 1⟩,
      .atomr ⟨.scr, .add, true, .rlx, .pkg, 6, 4, .pos 4, 1⟩, .cas ⟨.scr, .add, false, .rlx, .pkg, 6, 4, .pos 4, 1⟩,
      .mrd ⟨80, 0, .imm (im 0), .pos 4, 2⟩, .mstat ⟨.consumed, 1, 2, .pos 4, 0⟩, .fdiv ⟨.f81, 3, 6, .g 9, .pos 4, 8⟩,
      .fsqt ⟨.f9, 1, 2, .pos 4, 4⟩] : List Instr).all
      (fun i => meets idleLanes i fun _ _ x => x.active != [] && !x.anyActive) = true := by decide +kernel

/-- R118, R275: a load with no active element zeroes its destination where the trit is −, keeps it where it is 0, and takes no slot. -/
theorem test_ld_inactive : let i : Instr := .ld ⟨.scr, .w, accForm, 6, 4, .pos 4, 1⟩
    let s : State := lanesAs fun n l => (l.wrK 4 (Trits.ofInt 3 (if n = 0 then 0 else -13))).wrG 6 (Word.ofInt 7)
    (match exec i s with
      | .next t => (t.groupOf ⟨0, 0⟩).map fun g => (((g.lane 0).rdG 6).val, ((g.lane 1).rdG 6).val, g.rdW 1, g.pend.length)
      | _ => none) = some (7, 0, 0, 0) := by decide +kernel

/-- A word that RESUME issues again, whose entry says what it had done. -/
def reissued (i : Instr) (perf issued : Bool) (payload : Int) : State :=
  let part (l : Nat) : PendLane := { PendLane.new l (Trits.ofInt 3 13) with addr := 3 * l, d0 := Word.ofInt 5, r0 := Word.ofInt 9 }
  let e : ReEntry :=
    { pc := Word.ofInt 0, word := wordOf i, payload := payload, cause := 12, detail := 0, slot := false, perf := perf, set := [0, 1],
      issued := issued, past := true, lanes := [part 0, part 1], rec_ := [], copy := none }
  tweak id fun g => { g with run := { g.run with again := some e } }

theorem witness_ReissuedWords :
    ([.ld ⟨.scr, .w, accForm, 6, 4, .always, 1⟩, .ldStrong ⟨.scr, .w, strongForm, 6, 4, .always, 1⟩,
      .ldu ⟨.scr, .w, accForm, 6, 4, .always, 1⟩, .atom ⟨.scr, .add, false, .rel, .pkg, 6, 4, .always, 1⟩,
      .atomr ⟨.scr, .add, true, .rlx, .pkg, 6, 4, .always, 1⟩, .cas ⟨.scr, .add, false, .rlx, .pkg, 6, 4, .always, 1⟩,
      .mrd ⟨80, 0, .imm (im 0), .always, 2⟩, .mstat ⟨.consumed, 1, 2, .always, 0⟩] : List Instr).all (fun i =>
        meets (reissued i true true 0) i (fun _ _ x => x.anyActive && (x.results.map (·.map (·.lane))) == some [0, 1]) &&
        meets (reissued i false true 0) i (fun _ _ x => x.anyActive && x.results.isNone && x.again.isSome) &&
        meets (reissued i false false 0) i fun _ _ x => x.anyActive && x.results.isNone && x.again.isSome) = true ∧
    ([.waitm ⟨6, 4, .scr, im 40⟩, .barw ⟨4, 2, .scr⟩] : List Instr).all (fun i =>
      meets (reissued i false true 0) i (fun _ _ x => ((x.captured 0).map fun p => (p.addr, p.d0.val)) == some (0, 5)) &&
      meets (reissued i false false 0) i fun _ _ x => (x.captured 0).isNone && x.again.isSome) = true ∧
    [(true, [(0 : Int), 3]), (false, [0, 0])].all (fun c => let i : Instr := .calli ⟨.g 1, .g 2, .imm (im 0), .always⟩
      meets (reissued i false c.1 0) i fun _ _ x => (x.again.map (·.issued)) == some c.1 &&
        (x.active.map fun l => match x.again with
          | some e => if e.issued then ((lanePart e.lanes l).map (·.addr)).getD 0 else (x.reg (.g 2) l).val
          | none => 1) == c.2) = true ∧
    [(0 : Int), 5].all (fun p => meets (reissued (.lit (Trits.ofInt 22 7)) false false p) (.lit (Trits.ofInt 22 7)) fun _ _ x =>
      x.again.isSome && x.pay == p) = true := by decide +kernel

/-- R376: a load that had been performed before its trap is pending again with what it had read. -/
theorem test_ld_reissued : let i : Instr := .ld ⟨.scr, .w, accForm, 6, 4, .always, 1⟩
    (match exec i (reissued i true true 0) with
      | .next t => (t.groupOf ⟨0, 0⟩).map fun g => g.pend.map fun p => (p.performed, p.lanes.map (·.r0.val))
      | _ => none) = some [(true, [9, 9])] := by decide +kernel

/-- A group with words pending, the next number above theirs. -/
def inFlight (f : State → State) (ps : List Pending) : State :=
  let s := f { (tweak rooted fun g => { g with pend := ps, w := [(1, ps.length)] }) with nextId := 9 }
  { s with nextId := 9 }
/-- A load at a diversion unit, and a release store after it, to the tryte 0 of the scratchpad. -/
def loadAway : Pending :=
  { id := 5, word := wordOf (.ld ⟨.scr, .w, accForm, 6, 4, .always, 1⟩), pc := Word.ofInt 0, payload := 0, slot := 1, counted := true, set := [],
    lanes := [], performed := false, stores := [], todo := [] }
def releaseAway : Pending :=
  { loadAway with id := 6, word := wordOf (.stStrong ⟨.scr, .w, .strong ⟨false, .neg, .pkg⟩, 6, 4, .always, 1⟩),
                  stores := [⟨0, 0, .scr 0 0, Tryte.ofInt 7⟩] }
/-- An atomic with an element to be performed. -/
def atomLeft : Pending :=
  { loadAway with word := wordOf (.atom ⟨.scr, .add, false, .rlx, .pkg, 6, 4, .always, 1⟩),
                  lanes := [PendLane.new 26 (Trits.ofInt 3 13)], todo := [⟨26, 0, [.scr 0 0, .scr 0 1, .scr 0 2]⟩] }

def setS (n : Nat) (v : Int) (s : State) : State := { s with groups := s.groups.map fun g => g.wrS n (Word.ofInt v) }

theorem witness_WordsThatWait :
    ([.atom ⟨.scr, .add, false, .rel, .pkg, 6, 4, .always, 1⟩, .cas ⟨.scr, .add, false, .acqrel, .pkg, 6, 4, .always, 1⟩,
      .cpys ⟨9, 8⟩, .cpyf ⟨9, 8⟩, .cpyl ⟨9, 2, 8⟩, .cpylFlush ⟨9, 0, 8⟩, .cpy ⟨9, 8⟩, .spawn ⟨1, 9, 8⟩, .spawnCoresident ⟨1, 9, 8⟩,
      .bari ⟨20, 4, .scr⟩, .bar ⟨4, .scr⟩, .bara ⟨1, 4, .scr⟩, .fence ⟨.rel, .pkg⟩, .mbtxReply ⟨8, .g 1, .imm (im 0)⟩, .evpost 23] :
      List Instr).all (fun i => meets (inFlight id [loadAway]) i fun _ _ x => x.releaseWaits) = true ∧
    (meets (inFlight (fun s => virt (setS 9 (-486) s) (virtSpan (-486) 3 [])) [loadAway])
      (.rwalk ⟨1, 9⟩) fun w g x => x.releaseWaits && match x.s0.resolveVirt w.who .read 3 (g.rdS 9).val with
        | .ok _ => true
        | .error _ => false) = true ∧
    ([(.ld ⟨.scr, .w, accForm, 6, 4, .always, 1⟩, .read), (.atomr ⟨.scr, .add, false, .rlx, .pkg, 6, 4, .always, 1⟩, .atomic)] :
      List (Instr × AccKind)).all (fun i => meets (inFlight id [loadAway, releaseAway]) i.1 fun _ _ x =>
        let parts := x.memParts x.active (fun _ => 0) (fun _ => Word.ofInt 0) (fun _ => Word.ofInt 0) fun _ => Word.ofInt 0
        let r := x.resolveAll x.s0 .scr i.2 .w parts
        r.2.2.isEmpty && r.1.overWaits x.r r.2.1 && x.again.isNone && x.anyActive) = true ∧
    ([.winset ⟨1, 24, .imm (im 0)⟩, .ratset ⟨1, 4, .imm (im 0)⟩, .tlbinv 4 2, .tlbinvCtx 2, .tlbfl] : List Instr).all (fun i =>
      [[atomLeft], [loadAway, releaseAway]].all fun ps => meets (inFlight (setS 4 (-8100)) ps) i fun _ _ x => x.s0.unsettled) = true ∧
    (windowOf 0 0 0).isSome = true := by decide +kernel

/-! ### Turns of the scheduler -/

def bounded (g : Machine.Group) : Machine.Group := { g with phase := .boundary, run := .none }
def monitor (i : Instr) (deadline : Option Nat) : Monitor :=
  { instr := i, pc := Word.ofInt 0, payload := 0, addr := 0, token := 0, last := Word.ofInt 0, deadline := deadline, fault := none }
def sl0 : SlotRef := ⟨⟨0, 0, 0⟩, 0⟩

/-- A group at a boundary, one with a lane passed over 27 times, one with a record due, a woken one; and running ones, with and
without a held word. -/
theorem witness_RunsStartAndWordsRetry :
    let free (s : State) : Bool := match s.pickGroup sl0 with
      | some g => (s.groupOf g.ref == some g) && !s.dieDown 0 && g.slots.all fun n => (s.running ⟨sl0.core, n⟩).isNone
      | none => false
    let late := tweak id fun g => bounded { g with lanes := (List.range 27).map fun n => { lane n with skip := if n = 3 then 27 else 0 } }
    let due : State := { (tweak rooted bounded) with dfqs := [⟨-4860, rootRegion.ctx, [record (some 0)], 1⟩] }
    let woken := tweak id fun g => { g with phase := .woken (monitor (.halt (im 0)) none), run := { Run.none with active := [0] } }
    [tweak id bounded, late, due, woken].all free = true ∧
    ((tweak id bounded).groupOf ref).any (fun g => ((tweak id bounded).recordFor wk g).isNone && g.resuming.isNone && g.calls == []) = true ∧
    (due.wgOf 0).any (fun w => (due.groupOf ref).any fun g => (due.recordFor w g).isSome) = true ∧
    (base.running sl0).any (fun p => p.2.run.held.isNone) = true ∧
    ((tweak id fun g => { g with run := { g.run with held := some .nop } }).running sl0).any (fun p => p.2.run.held.isSome) = true := by
  decide +kernel

/-- A workgroup of n threads on a core with bins. -/
def roomy (l : List Bin) (n : Nat) : State :=
  { base with wgs := [{ wk with kernel := { kern with threads := n } }], cores := [(0, { CoreState.empty with bins := l })] }

/-- A group that is filing; bins with 25 and 26 threads, and none, of workgroups with and without room; a bin at its age. -/
theorem witness_ThreadsAreFiledAndDrawn :
    let filing := tweak id fun g => { g with phase := .reforming, w := [(1, 0)] }
    let bin (n : Nat) : Bin := ⟨0, Word.ofInt 0, (List.range n).map lane, 0⟩
    let bins (l : List Bin) : State := { base with cores := [(0, { CoreState.empty with bins := l })] }
    (filing.groupOf ref).any (fun g => decide (g.phase = .reforming) && g.w.all fun e => e.2 == 0) = true ∧
    (filing.wgOf 0).any (fun w => decide (w.st = .resident) && decide (w.save ≠ .restoring)) = true ∧
    [25, 26].all (fun n => decide (((bins [bin n]).coreAt 0).bins[0]? = some (bin n)) && (bin n).threads.length == n &&
      (bin n).pc == (lane 5).pc && (bin n).wg == 0) = true ∧
    ((bins []).coreAt 0).bins.length < 81 ∧
    ((filing.wgOf 0).any fun w => decide (w.save ≠ .entered)) = true ∧
    (filing.coreAt 0).bins.length + [0, 1].length ≤ 81 ∧
    [true, false].all (fun q => ((tweak (fun w => { w with preq := q }) id).wgOf 0).any (fun w => base.drawable w == !q)) = true ∧
    ((roomy [bin 9] 54).wgOf 0).any (fun w => decide (w.st = .resident) && decide (w.save = .none) && !w.preq &&
      decide (((roomy [bin 9] 54).groupsOf 0).length < w.kernel.groups) &&
      decide ((bin 9).since + w.kernel.binAge ≤ (roomy [bin 9] 54).cycles (coreClu w.core))) = true ∧ 27 ≤ (bin 27).threads.length := by
  decide +kernel

/-- R70: the filing of a REFORM takes its threads from the group to a bin; R71: a bin that has waited long enough becomes a
group, whose idle lanes are absent. -/
theorem test_reform_filing :
    (match exec (.reformFiling ref) (tweak id fun g => { g with phase := .reforming, w := [(1, 0)] }) with
      | .next t => some ((t.coreAt 0).bins.map fun b => (b.pc.val, b.threads.map (·.thread)), (t.groupOf ref).map fun g => g.live.length)
      | _ => none) = some ([(0, [0, 1])], some 25) := by decide +kernel
theorem test_bin_age :
    (match exec (.binAgeLimit ⟨0, 0, 0⟩ 0) (roomy [⟨0, Word.ofInt 9, [lane 40, lane 31], 0⟩] 54) with
      | .next t => some ((t.groupOf ⟨0, 1⟩).map fun g => (g.live, g.phase, (g.lane 0).thread), (t.coreAt 0).bins.length)
      | _ => none) = some (some ([0, 1], .boundary, 40), 0) := by decide +kernel

/-- Waiting groups: WAITM of a word that changed and that has not, outside the run, and past its time; a barrier that moved on,
that did not, and that is broken; HALT past its time. -/
theorem witness_MonitorWaitsEnd :
    let waits (m : Monitor) (ws : List Int) : State := { (tweak id fun g => { g with phase := .waiting m, run := { Run.none with active := [0] } }) with
      scr := barrierAt 0 ws }
    let waitm : Instr := .waitm ⟨6, 4, .scr, im 0⟩
    let read (m : Monitor) (ws : List Int) (off : Int) : Option (Option Int) :=
      match (waits m ws).monitorRead wk ref .scr 0 (m.addr + off) with
      | .ok (_, v) => v.map some
      | .error _ => some none
    [monitor waitm (some 0), monitor (.bar ⟨4, .scr⟩) none, monitor (.barw ⟨4, 2, .scr⟩) none, monitor (.halt (im 1)) (some 0)].all (fun m =>
      ((waits m []).wgOf 0).isSome && ((waits m []).groupOf ref).any fun g => decide (g.phase = .waiting m)) = true ∧
    read (monitor waitm none) [1] 0 = some (some 1) ∧ read (monitor waitm none) [0] 0 = some (some 0) ∧
    read { monitor waitm none with addr := 2187 } [] 0 = some none ∧
    read (monitor (.bar ⟨4, .scr⟩) none) [3, 2, 1] 6 = some (some 1) ∧ read (monitor (.bar ⟨4, .scr⟩) none) [3, 2, 0] 6 = some (some 0) ∧
    read (monitor (.bar ⟨4, .scr⟩) none) [3, 2, -(3 ^ 26)] 6 = some (some (-(3 ^ 26))) ∧ tritAt (-(3 ^ 26)) 26 = -1 ∧
    read { monitor (.barw ⟨4, 2, .scr⟩) none with addr := 2187 } [] 6 = some none := by decide +kernel

/-- Pending words of each kind, performed where the statement says so; spawns of 0, 1, 531441 and 531442 workgroups, with and
without room in the budget, the image stride and an empty cluster. -/
theorem witness_LongWordsComplete :
    let part : PendLane := { PendLane.new 0 (Trits.ofInt 3 13) with addr := 1 }
    let holds (p : Pending) : Bool := ((pendBase p).wgOf 0).any (fun w => w.entry.isNone) && !(pendBase p).dieDown 0 &&
      (((pendBase p).groupOf ref).bind fun g => g.pend[0]?) == some p
    let q : Qual := ⟨true, .pos, .pkg⟩
    ([.ld ⟨.scr, .t, .weak (im 0), 6, 4, .always, 1⟩, .ldStrong ⟨.scr, .w, .strong q, 6, 4, .always, 1⟩,
      .ldu ⟨.scr, .w, .strong q, 6, 4, .always, 1⟩, .ldu ⟨.scr, .w, .weak (im 0), 6, 4, .always, 1⟩,
      .atomr ⟨.scr, .add, false, .acq, .pkg, 6, 4, .always, 1⟩, .cas ⟨.scr, .add, false, .acqrel, .pkg, 6, 4, .always, 1⟩,
      .atom ⟨.scr, .add, false, .rlx, .pkg, 6, 4, .always, 1⟩] : List Instr).all (fun i =>
        holds (pendOf i true [part] []) && (pendOf i true [part] []).instr == some i) = true ∧
    ([.st ⟨.scr, .t, .weak (im 0), 6, 4, .always, 1⟩, .stStrong ⟨.scr, .t, .strong ⟨false, .neg, .pkg⟩, 6, 4, .always, 1⟩,
      .stu ⟨.scr, .w, .weak (im 0), 6, 4, .always, 1⟩, .mrd ⟨80, 0, .s 4, .always, 2⟩, .cpy ⟨9, 8⟩, .cpys ⟨9, 8⟩, .cpyf ⟨9, 8⟩,
      .cpyl ⟨9, 2, 8⟩, .cpylFlush ⟨9, 2, 8⟩, .spawn ⟨1, 9, 8⟩, .spawnCoresident ⟨1, 9, 8⟩] : List Instr).all (fun i =>
        holds (pendOf i false [part] []) && (pendOf i false [part] []).instr == some i) = true ∧
    (pendOf (.fsqt ⟨.f27, 1, 2, .always, 1⟩) true [part] []).isFloat = true ∧
    (pendOf (.stStrong ⟨.scr, .t, .strong ⟨false, .neg, .pkg⟩, 6, 4, .always, 1⟩) false [part] []).isRelease = true ∧
    [MstatWhen.now, .done, .consumed].all (fun m => holds (pendOf (.mstat ⟨m, 1, 0, .always, 0⟩) false [part] []) &&
      (base.unitAt 0).statDue gr 5 m) = true ∧
    ((pendOf (.ld ⟨.scr, .w, .weak (im 0), 6, 4, .always, 1⟩) true [part] []).dest.any fun d => !d.toS && d.words == 1 && d.byWord &&
      d.num != 0) = true ∧
    (pendOf (.st ⟨.scr, .w, .weak (im 0), 6, 4, .always, 1⟩) true [part] []).dest = none ∧
    kern.imageSize > loadRegion.stride ∧ kern.imageSize ≤ rootRegion.stride ∧
    (tweak rooted id).fitsEmpty 0 0 { rootRegion with cls := .pos } kern 1 = true ∧
    (tweak rooted id).fitsEmpty 0 0 { rootRegion with cls := .pos } kern 531441 = false ∧
    (tweak rooted id).counted rootRegion + 4 ≤ rootRegion.budget ∧ (tweak rooted id).counted rootRegion + 5 > rootRegion.budget ∧
    ((tweak rooted id).spawnQ (spawnKey 0 0 .zero)).length < 243 := by decide +kernel

/-! ### Turns of the memories, the copies and the matrix unit -/

/-- Pages that translate and do not; a packed place, and the place of a page with a coded entry; lines of L1 and of the
last-level cache, clean, dirty and coded; an update, a refusal and a record; soft errors. -/
theorem witness_MemoryTurns :
    let m : State := virt base (virtSpan 0 1 [])
    let coded : Int := 3 ^ 26 + 3 ^ 9 + 3 ^ 14
    let mc : State := { m with cores := [(0, { CoreState.empty with attrs := [⟨0, 0, Word.ofInt coded⟩] })] }
    let mw : State := { m with cores := [(0, { CoreState.empty with attrs := [⟨0, 0, Word.ofInt (3 ^ 26 - 3 ^ 9)⟩] })],
                               windows := [(0, Word.ofInt (13 * 0 + 3 ^ 11)), (1, Word.ofInt 0), (2, Word.ofInt (2 ^ 36))] }
    let place : LinePlace := { key := ⟨false, 0, false, 129140040, 1, false⟩, tryte := 0, chan := 0, ctx := loadRegion.ctx, vline := 0, l1 := true,
                               shape := .one, tab := 0, entry := 0 }
    let l1 : L1Line := ⟨0, 7, place, [], [], [], []⟩
    let walks (s : State) (pn : Int) : Bool := match s.leafOf wk.who pn with
      | .ok _ => true
      | .error _ => false
    let line (dirty isCoded bytes : Bool) : LLine := { (virtLine 0 []).2 with dirty := dirty, key := ⟨isCoded, 0, false, 5, 1, bytes⟩ }
    let lates (r : Option Nat) : State := { base with late := [(record r, loadRegion)] }
    ((([0, 5] : List Int)).all (walks m) && !walks m 193710245) = true ∧ (m.tlbFind 0 0 0).isNone = true ∧ (m.wgOf 0).isSome = true ∧
    (match m.resolveVirt wk.who .read 1 0 with
      | .ok (t, .line p :: _) => !p.key.coded && (match t.llcEnsure 0 p with
        | .ok _ => true
        | .error _ => false)
      | _ => false) = true ∧
    (match mc.resolveVirt wk.who .read 1 0 with
      | .ok (_, .line p :: _) => p.key.coded
      | _ => false) = true ∧
    ({ base with cores := [(0, { CoreState.empty with l1 := [l1] })] } : State).l1Index 0 0 7 = some 0 ∧
    (match mw.resolveVirt wk.who .read 1 0 with
      | .ok (t, .window p _ _ :: _) => p.key.bytes && (match t.llcEnsure 0 p with
        | .ok _ => true
        | .error _ => false)
      | _ => false) = true ∧
    [(true, true, false), (true, false, false), (false, false, false), (false, true, false), (true, false, true)].all (fun c =>
      ({ base with llc := [(0, line c.1 c.2.1 c.2.2)] } : State).llcFind 0 (line c.1 c.2.1 c.2.2).key == some (line c.1 c.2.1 c.2.2) &&
        (line c.1 c.2.1 c.2.2).bad == []) = true ∧
    (({ base with copyUpdates := [⟨0, 1, place, []⟩] } : State).copyUpdates[0]?).isSome = true ∧
    (({ base with refusals := [⟨record none, loadRegion⟩] } : State).refusals[0]?).isSome = true ∧
    [none, some 0].all (fun r => ((lates r).late[0]? == some (record r, loadRegion)) && ((lates r).dfqOf loadRegion).isNone) = true ∧
    (3 < 4 ∧ 4 < 5 ∧ 26 < 27 ∧ 1 ≤ 80 ∧ 8 ≤ 8 ∧ 1 ≤ 26) ∧ (base.groupOf ref).any (fun g => decide (26 < g.lanes.length)) = true := by decide +kernel

/-- A request whose two layouts describe one element of T9 in scratchpad, with the control word given. -/
def copyScr (ctl : Int) : SMap Tryte :=
  barrierAt 0 ([0, 0, 81, 81, 0, 0, 0, 0, ctl] ++ List.replicate 18 0 ++ [1, 3] ++ List.replicate 14 0 ++ [1])
def copyWith (slices : List Slice) (started : Bool) (view : Option CopyView) (stage : Nat) : Copy :=
  { id := 7, wg := 0, engine := 0, owner := wk, form := .cpys, seq := 0, need := slices.length, slices := slices, pc := Word.ofInt 0,
    waits := [], started := started, view := view, box := some [1], wrote := [], stage := stage, parked := false, reread := false }
def slice (st : SliceSt) (req : Int) : Slice := ⟨0, req, 0, st, 0, none, []⟩
def viewWith (ctl : Int) : CopyView :=
  ⟨([0, 0, 81, 81, 0, 0, 0, 0, ctl] : List Int).map Word.ofInt, (([1, 3] : List Int) ++ List.replicate 14 0 ++ [1]).map Word.ofInt,
    (([1, 3] : List Int) ++ List.replicate 14 0 ++ [1]).map Word.ofInt, some tf9, some tf9⟩

/-- A copy that starts, one whose slices name different requests, one whose request is malformed; a slice that fails, one that
is stolen; and a copy that is done at each of its steps. -/
theorem witness_CopyTurns :
    let s (ctl : Int) (c : Copy) : State := { (home id id (virtSpan (-4860) 4 [])) with scr := copyScr ctl, copies := [c] }
    let start (reqs : List Int) : Copy := copyWith (reqs.map (slice .waiting)) false none 0
    let view (ctl req : Int) : Nat := match (s ctl (start [req])).readView (start [req]) req with
      | (_, some (v, none)) => if (s ctl (start [req])).triggered (start [req]) v then 2 else 1
      | (_, none) => 0
      | (_, some (_, some _)) => 3
    let done (ctl : Int) (stage : Nat) : Copy := copyWith [slice .done 0] true (some (viewWith ctl)) stage
    (s 10 (start [0])).copyOf 7 = some (start [0]) ∧ view 10 0 = 2 ∧ view (10 + 3 ^ 12) 0 = 3 ∧
    (start [0, 27]).slices.any (fun x => x.req != 0) = true ∧
    (s 10 (copyWith [slice .running 0] true (some { viewWith 10 with request := ([59049, 0, 81, 81, 0, 0, 0, 0, 10] : List Int).map Word.ofInt }) 0)).sliceFails
      7 0 = true ∧
    (copyWith [slice .waiting 0] true none 0).slices[0]? = some (slice .waiting 0) ∧ base.dieDown (coreDie (0 / 9 * 9 + 8)) = false ∧
    [(10, 0), (10 + 3 ^ 8, 0), (10 + 3 ^ 9, 1), (10 + 3 ^ 10, 2), (10 + 3 ^ 8 + 3 ^ 9 + 3 ^ 10, 3)].all (fun c =>
      (done c.1 c.2).started && !(done c.1 c.2).parked && (done c.1 c.2).slices.all fun x => decide (x.st = .done)) = true ∧
    (({ done (10 + 3 ^ 9) 1 with slices := [slice .done 0] } : Copy).sliceCtx 0).any (fun x =>
      ((s (10 + 3 ^ 9) (done (10 + 3 ^ 9) 1)).checkElems x).isSome) = true := by decide +kernel

/-- A copy between two T9 elements of the scratchpad: it starts by its words, its one slice moves and is done; a waiting slice
goes to an idle engine. -/
theorem witness_CopyTurns_start :
    let s : State := { (home id id []) with scr := copyScr 10, copies := [copyWith [slice .waiting 0] false none 0] }
    let tryte (o : Int) : Int := (s.scrGet 0 (0 + o.toNat)).val
    let words (o : Int) (n : Nat) : List Int := (List.range n).map fun (i : Nat) =>
      tryte (o + 3 * (i : Int)) + 19683 * tryte (o + 3 * (i : Int) + 1) + 19683 * 19683 * tryte (o + 3 * (i : Int) + 2)
    s.bad.scr = [] ∧ words 0 9 = [0, 0, 81, 81, 0, 0, 0, 0, 10] ∧ requestOk (words 0 9) false = true ∧
    (layoutOf (words 81 27) false false).any (fun l => (layoutOf (words 81 27) true false).any fun m =>
      (fixedFmt l.fmt).any fun f => (recordCause .cpys (words 0 9) l m (some f) (some f)).isNone) = true := by decide +kernel

/-- A copy whose slice runs at its first element, which lies past the granted run: in the source (0) or the destination (1). -/
def badView (n : Nat) : CopyView :=
  { viewWith 10 with request := (([0, 0, 81, 81, 0, 0, 0, 0, 10] : List Int).set n 59049).map Word.ofInt }
def badRun (n : Nat) : Copy := copyWith [slice .running 0] true (some (badView n)) 0
def copying (c : Copy) : State := { (home id id (virtSpan (-4860) 20 [])) with scr := copyScr 10, copies := [c] }
/-- The copy that a turn leaves: started, at which step, parked, and of each slice its state and engine. -/
def copyAfter (s : State) (i : Instr) : Option (Option (Bool × Nat × Bool × List (SliceSt × Nat))) :=
  match exec i s with
  | .next t => some ((t.copyOf 7).map fun c => (c.started, c.stage, c.parked, c.slices.map fun x => (x.st, x.engine)))
  | _ => none

theorem witness_CopyTurns_faults :
    [0, 1].all (fun n => (badRun n).slices[0]?.any (fun x => decide (x.st = .running)) && ((badRun n).sliceCtx 0).any fun y =>
      (badRun n).range y.box 0 == (0, 1) && y.writes 0 && (badRun n).wrote == [] && !(copying (badRun n)).engineWaits (badRun n) &&
        !(copying (badRun n)).engineSends (badRun n) && [y.batch (y.open_ 0) 0, y.batch (y.left 0 1) 0].all fun is =>
          match y.readOlds (copying (badRun n)) is [] with
          | .error e => e.isSome
          | .ok (some _) => false
          | .ok none => match y.writeBatch (copying (badRun n)) is [] with
            | .error e => e.isSome
            | .ok _ => false) = true := by decide +kernel
/-- R326, R328 to R330, R334: a copy starts, a slice that fails is parked (one read afresh, too), a waiting slice goes to another
engine, and a copy whose slices are done ends, or is read again first. -/
theorem test_copy_turns :
    ([(copyWith [slice .waiting 0] false none 0, .copyStart 7, some (true, 0, false, [(.waiting, 0)])),
      (badRun 0, .copySliceFault 7 0, some (true, 0, false, [(.parked, 0)])),
      (badRun 1, .copySliceFault 7 0, some (true, 0, false, [(.parked, 0)])),
      (copyWith [slice .retry 81] true none 0, .copySliceFault 7 0, some (true, 0, false, [(.parked, 0)])),
      (copyWith [slice .waiting 0] true none 0, .copySliceSteal 7 0 4, some (true, 0, false, [(.waiting, 4)])),
      (copyWith [slice .done 0] true (some (viewWith 10)) 0, .copyComplete 7, none),
      ({ copyWith [slice .done 0] true (some (viewWith 10)) 0 with reread := true }, .copyComplete 7, some (true, 0, false, [(.done, 0)]))] :
      List (Copy × Instr × Option (Bool × Nat × Bool × List (SliceSt × Nat)))).all
        (fun c => copyAfter (copying c.1) c.2.1 == some c.2.2) = true := by decide +kernel

/-- Units with each operation at the head of a queue; granted operations that run. -/
def matEntry (op : MatOp) (granted consumed : Bool) : MatEntry := ⟨1, 0, 0, Word.ofInt 0, op, consumed, granted⟩
def unitWith (es : List MatEntry) (u : MatUnit) : State := { base with units := [(0, { u with queue := es })] }

theorem witness_MatrixTurns :
    let d := MatUnit.reset.pl0.desc
    let live : MatUnit := { MatUnit.reset with pl1 := { MatUnit.reset.pl1 with tag := Word.ofInt 8 }, pending := [(Word.ofInt 9, 0)] }
    let row (tag : Int) (rows : List (Nat × Int)) : MatOp := .row (Word.ofInt tag) 0 0 rows [1] 243
    let head (op : MatOp) (g c : Bool) (u : MatUnit) : Bool :=
      let s := unitWith [matEntry op g c] u
      ((s.unitAt 0).queue.find? (fun e => e.wg == ref.wg && e.hw == ref.hw) == some (matEntry op g c)) && (s.wgOf 0).isSome && !s.dieDown 0
    [MatOp.load (Word.ofInt 9) 0 d none, .act (Word.ofInt 0), .act (Word.ofInt 5), .act (Word.ofInt 8), .zero 80, .write 0 26 [(728, Word.ofInt 1)],
      .store 0 0 tf9 true, row 0 [], row 5 [(0, 0)], row 0 [(0, 0)]].all (fun op => head op false false live) = true ∧
    live.tagState (Word.ofInt 0) = .stationary ∧ live.tagState (Word.ofInt 5) = .retired ∧ live.tagState (Word.ofInt 8) = .shadow ∧
    MatUnit.reset.pl1.tag = Word.ofInt 0 ∧
    [MatOp.load (Word.ofInt 9) 0 d none, row 0 [(0, 0)]].all (fun op => (((unitWith [matEntry op true false] live).unitAt 0).queue.find?
      (fun x => x.inQueue ref && x.granted && !x.consumed && (x.isLoad || x.isPass))).isSome) = true ∧
    [live, MatUnit.reset].all (fun u => (((unitWith [matEntry (.load (Word.ofInt 9) 0 d none) true true] u).unitAt 0).queue.find? (fun x =>
      x.isLoad && x.granted)).any (·.consumed)) = true ∧
    (matEntry (row 0 [(0, 0)]) true true).isPass = true ∧ head (.store 0 0 tf9 true) true false live = true := by decide +kernel

/-! ### Turns of the queues, of pre-emption and of the host -/

/-- A batch of an urgent region whose block is in memory, on an empty cluster; a neighbour's batch of four; a workgroup that has
exited. -/
def urgent : Region := { rootRegion with cls := .pos }
def batch (n : Nat) : Batch :=
  { region := urgent, kernel := { loadKernel with tiles := 1, regs := 1 }, first := 0, count := n, launch := [], coresident := false,
    node := none, time := 0 }
def queued (clu : Nat) (c : Trit) (b : Batch) : State :=
  { (virt State.reset (virtSpan (-243) 3 ((5, 13) :: rootWords))) with dieStatus := [0, 0, 0, 0], spawns := [(spawnKey 0 clu c, [b])] }

theorem witness_PlacementTurns :
    let s := queued 0 .pos (batch 2)
    let t := queued 1 .zero (batch 4)
    let gone : State := { base with wgs := [{ wk with st := .exiting }] }
    (s.dieDown 0 = false ∧ s.spawnQ (spawnKey 0 0 .pos) = [batch 2] ∧ s.marked urgent = false) ∧
    (match s.readRegion 0 urgent.ctx urgent.block with
      | .ok (u, r) => r.cls == .pos && ((u.roomsFor 0 0 r (batch 2).kernel 1 u.holders).any fun m => m.length == 1)
      | .error _ => false) = true ∧
    [Trit.neg, .zero, .pos].all (fun c => t.spawnQ (spawnKey 0 0 c) == []) = true ∧
    (t.holders.filter fun w => w.core == ⟨0, 0, 8⟩).length < 27 ∧
    (t.polls.get 0 0 = 0 ∧ (neighbours 0 0)[0]? = some (0, 1) ∧ t.stealable 0 (0, 1) = some (spawnKey 0 1 .zero, batch 4)) ∧
    (gone.wgOf 0).any (fun w => decide (w.st = .exiting) && w.entry.isNone && !gone.owed w) = true := by decide +kernel

/-- A ready node and a free walker; walkers at a kernel node with its batch, at loop and wait nodes, at a completed node, and at a
kernel node whose workgroups are gone; rings with a record waiting; mailboxes with each answer to a doorbell. -/
theorem witness_NodeRingAndMailboxTurns :
    let c := rootRegion.ctx
    let walker (kind : Nat) (iter : Nat) (done : Option Trit) (kernel : Option Nat) : Walker :=
      { id := 3, die := 0, ctx := c, frames := [⟨-243, kind, 0, iter, [0, 16200, 1]⟩], done := done, kernel := kernel }
    let knode (b : Option Batch) : KNode :=
      { id := 4, walker := 3, block := -243, region := rootRegion, batch := b, placed := 0, faults := 0, cause := 0, status := none, gone := 0,
        ended := false }
    let node (k : Walker) (n : Option KNode) (ws : List (Nat × Int)) : State :=
      { (virt (tweak rooted id) (virtSpan (-243) 3 (rootWords ++ ws) ++ virtSpan 16200 81 [(0, 7)] ++ virtSpan 0 1 [(0, 3 ^ 26)])) with
        walkers := [k], knodes := n.toList }
    let param (s : State) (k : Walker) (va : Int) : Option Int := match s.paramRead k rootRegion va with
      | .ok (_, v) => some v
      | .error _ => none
    let ring (by_ : Poster) : State := { (node (walker 2 0 none none) none []) with
      rings := [⟨c, [(by_, List.replicate 7 (Word.ofInt 0))], [], false⟩] }
    let box (bell rev : Int) : State := { base with mailboxes := [(26,
      { Mailbox.empty with bound := some (0, 9)
                           words := (if bell = 0 then [(216, Word.ofInt rev)] else [(216, Word.ofInt rev), (242, Word.ofInt bell)]) })] }
    [true, false].all (fun f => (({ base with ready := [⟨0, -243, c, f⟩] } : State).ready.find? fun n => n.die == 0).any fun n =>
      n.failed == f) = true ∧
    ((node (walker 2 0 none (some 4)) (some (knode (some (batch 1)))) []).batchCluster 0 rootRegion).isSome = true ∧
    ((node (walker 2 0 none (some 4)) (some (knode (some (batch 1)))) []).enqueueBatch 0 0 (batch 1)).isSome = true ∧
    (node (walker 2 0 none (some 4)) (some (knode (some (batch 4)))) []).counted rootRegion + 4 ≤ rootRegion.budget ∧
    [(0, false), (1, true)].all (fun x => (walker 3 x.1 none none).frames.all fun f => decide (f.words.getD 2 0 ≤ (f.iter : Int)) == x.2) =
      true ∧
    (match (node (walker 3 0 none none) none []).readRegion 0 c (-243) with
      | .ok (_, r) => r.block == -243
      | .error _ => false) = true ∧
    param (node (walker 3 0 none none) none []) (walker 3 0 none none) 16200 = some 7 ∧
    param (node (walker 3 0 none none) none []) (walker 3 0 none none) (193710245 * 19683) = none ∧
    ((node (walker 3 0 none none) none []).rootRecords 0).rings == [] ∧
    param (node (walker 3 0 none none) none []) (walker 3 0 none none) 16203 = some 0 ∧
    [(0 : Int), -486].all (fun child => match (node (walker 3 0 none none) none [(2, child)]).nodeLink (walker 3 0 none none) (-243) 2 with
      | .ok (_, v) => v == child
      | .error _ => false) = true ∧
    ((node (walker 2 0 none (some 4)) (some (knode none)) []).wgs.all fun w => w.node.isNone) = true ∧
    [Poster.agent, .walker 3, .group 0 0].all (fun b => ((ring b).rings.find? fun r => r.ctx.num == 0).isSome && ((ring b).walkerOf 3).isSome &&
      ((ring b).ringPost c.homeDie c (List.replicate 7 0)).isSome) = true ∧
    ((ring .agent).context 0 = some c ∧ (728 : Nat) ≤ 728) ∧
    (match (ring .agent).structWrite (structWho c.homeDie c) (c.rootBlock + 102) [1] with
      | .ok _ => true
      | .error _ => false) = true ∧
    [((1 : Int), (9 : Int)), (0, 8), (0, 9)].all (fun x => (((box x.1 x.2).box 26).words.get (Word.ofInt 0) 242).val == x.1 &&
      (((box x.1 x.2).box 26).words.get (Word.ofInt 0) 216).val == x.2 && (((box x.1 x.2).box 26).bound == some (0, 9))) = true := by
  decide +kernel

/-- A marked region; a workgroup past its deadline, one whose groups have stopped and is drained, one that is not, one that is
restored; a mark whose workgroups are gone; arrivals with no entry, a holding one, and a diverting one. -/
theorem witness_PreemptionTurns :
    let mark (ws : List Nat) : Mark := ⟨2, -243, rootRegion.ctx, ws, 0⟩
    let marked : State := { (home id id []) with marks := [mark [0]] }
    let saving (stopped : Bool) (pend : List Pending) : State := home (fun w => { w with save := .stopping, preq := true, preqAt := 0 })
      (fun g => { g with phase := if stopped then .stopped else .boundary, run := .none, pend := pend }) []
    let late : State := { (saving false []) with time := 100 }
    let float := pendOf (.fsqt ⟨.f27, 1, 2, .always, 1⟩) true [] []
    let restoring (st : WgSt) (save : SaveSt) : State := home (fun w => { w with st := st, save := save }) id []
    let arrival : Arrival := ⟨0, 0, .data 0 [Tryte.ofInt 5] none⟩
    let arrives (d : Option Trit) : State := { base with arrivals := [(3, arrival), (0, arrival)], cores := match d with
      | none => []
      | some d => [(0, { CoreState.empty with divs := [(0, ⟨d, 0, 0, 1, 0, 0⟩)] })] }
    (marked.wgOf 0).any (fun w => !w.preq && decide (w.save = .none) && marked.marked w.region) = true ∧
    ((late.wgOf 0).any (fun w => decide (w.save = .stopping) && decide (w.preqAt + w.region.deadline ≤ late.cycles (coreClu w.core)) && late.tabWrites.isEmpty) &&
      late.groups.any fun g => !g.isStopped) = true ∧
    [([], true), ([float], false)].all (fun x => let s := saving true x.1
      (s.wgOf 0).any fun w => (s.groups.all fun g => g.isStopped) && (s.drainUnit w).drained w == x.2 &&
        (SMap.find? ((s.drainUnit w).coreAt 0).divs 0).isNone) = true ∧
    (((restoring .suspended .restoring).wgOf 0).any fun w => (restoring .suspended .restoring).canRestore w && w.resuming &&
      !(restoring .suspended .restoring).marked w.region) = true ∧
    (((restoring .resident .restoring).wgOf 0).any fun w => decide (w.st ≠ .suspended) && decide (w.save = .restoring) &&
      match (restoring .resident .restoring).takeImage w with
      | .ok _ => false
      | .error _ => true) = true ∧
    (((restoring .resident .entered).drainHold 0).wgOf 0).any (fun w => decide (w.save = .entered) && decide (w.bins.length = 0)) = true ∧
    (((restoring .resident .entered).drainHold 0).coreAt 0).bins.length + 0 ≤ 81 ∧
    ({ base with time := 2187 } : State).cycles 0 = 2187 ∧ ((base.coreAt 0).reviewed + 81 ≤ 2187 ∧ (base.coreAt 0).rotated + 2187 ≤ 2187) ∧
    (({ marked with marks := [mark []] } : State).marks.find? fun k => k.id == 2) = some (mark []) ∧
    [none, some Trit.zero, some .neg].all (fun d => ((arrives d).arrivals == [(3, arrival)] ++ (0, arrival) :: []) &&
      (List.find? (α := Nat × DivEntry) (fun e => e.2.wg == 0) ((arrives d).coreAt 0).divs).isSome == d.isSome) = true ∧
    (match (virt (arrives (some .neg)) (virtSpan 0 1 [])).applyArrival ⟨some wk, 0, some ⟨.neg, 0, 0, 1, 0, 0⟩⟩ arrival with
      | .ok _ => true
      | .error _ => false) = true ∧
    (match (arrives (some .neg)).applyArrival ⟨some wk, 0, some ⟨.neg, 0, 0, 1, 193710245 * 19683, 0⟩⟩ arrival with
      | .ok _ => false
      | .error _ => true) = true := by decide +kernel

/-- Whole elements at both ends of the windows, a valid window, a raw range, a link that is idle and one that runs, spans that are
sound and not, a quote under way, and a die that runs. -/
theorem witness_HostTurns :
    let zeros (n : Nat) : List Byte := List.replicate n 0
    let win : State := { base with windows := [(0, Word.ofInt (3 ^ 11)), (1, Word.ofInt 0), (2, Word.ofInt 160)] }
    let links (v : List Int) : State := { base with links := (List.range v.length).zip (v.map Word.ofInt), transfers := [⟨0, v.getD 0 0, 0, 160⟩] }
    (elements 512 (zeros 16)).any (fun es => es.length == 2) = true ∧ (elements 0 (zeros 8)).any (fun es => es.length == 1) = true ∧
    base.attest = Word.ofInt 0 ∧ ({ base with attest := Word.ofInt 1 } : State).attest ≠ Word.ofInt 0 ∧
    (win.window 0).any (fun w => w.valid && w.world != 1 && decide (0 + 160 ≤ w.len)) = true ∧
    (0 % 2 ^ 40 + 160 ≤ tierLines (0 / 2 ^ 40 % 2 == 1) * 160 ∧ base.dieDown (0 / 2 ^ 41) = false) ∧
    (slotsOf 0 160).all (fun l => !base.inCarve 0 false l) = true ∧
    (spanOk 0 160 = true ∧ spanOk 1 160 = false) ∧ ((links [0]).transfers.find? fun t => t.link == 0).isSome = true ∧
    (links [0]).transfers.all (fun t => t.link != 8) = true := by decide +kernel

/-! ### More witnesses: calls, traps with words in flight, saves, checks -/

/-- A group at a boundary with one call record, whose held lanes await their targets; lanes 0 and 1 are out, and have parked. -/
def calling (held : List (Nat × Int)) (parked : List Nat) (g : Machine.Group) : Machine.Group :=
  let c : CallRec := { word := wordOf (.calli ⟨.g 1, .g 2, .imm (im 0), .always⟩), payload := 0, ret := Word.ofInt 3,
                       held := held.map fun e => (e.1, Word.ofInt e.2), out := [0, 1], parked := parked }
  let g := bounded g
  let g := g.updLanes parked fun _ l => { l with st := .parked }
  { g.updLanes (held.map (·.1)) (fun _ l => { l with st := .held }) with calls := [c] }

theorem witness_RunsStartAndWordsRetry_calls :
    [([(2, 9), (3, 12)], [0, 1], none), ([(2, 9)], [0], none), ([(2, 10)], [0, 1], some 12), ([(2, 11)], [0, 1], some 23), ([], [0, 1], none)].all
      (fun (c : List (Nat × Int) × List Nat × Option Nat) => ((tweak id (calling c.1 c.2.1)).pickGroup sl0).any fun g =>
        g.resuming.isNone && decide (g.phase = .boundary) && (g.releaseDue.2.map (·.1)) == c.2.2) = true ∧
    ((calling [(2, 9), (3, 12)] [0, 1] gr).releaseAt 0).1.calls.map (fun c => (c.held.map (·.1), c.out)) = [([3], [0, 1, 2])] := by
  decide +kernel

/-- R176: CALLI of which every target is misaligned, of which the least is, and of which only a held one is. -/
theorem witness_MisalignedAddressesTrap_calls :
    let i : Instr := .calli ⟨.g 1, .g 2, .imm (im 0), .always⟩
    let goals (x : Issue) : List Int := x.active.map fun l => wrapInt 27 ((x.reg (.g 2) l).val + 3 * x.src (.imm (im 0)) l)
    meets (tweak id (allG 2 1)) i (fun _ _ x => x.again.isNone && goals x == [1, 1]) = true ∧
    [(1 : Int), 2].all (fun v => meets (lanesAs fun n l => l.wrG 2 (Word.ofInt (if n = 0 then v else 3))) i fun w g x =>
      x.again.isNone && goals x == [v, 3] && !w.kernel.reforming && decide (g.calls.length < 9)) = true ∧
    meets (reissued i false true 0) i (fun _ _ x => x.again.any (·.issued)) = true := by decide +kernel

/-- A trap while a load, a performed atomic, an atomic that is not, and a long float are in flight. -/
theorem witness_TrapsEnterTheHandler_inFlight :
    let part (l : Nat) : PendLane := PendLane.new l (Trits.ofInt 3 13)
    let ps : List Pending := [{ loadAway with id := 1, lanes := [part 0] },
      { loadAway with id := 2, word := wordOf (.atomr ⟨.scr, .add, false, .rlx, .pkg, 6, 4, .always, 1⟩), performed := true, lanes := [part 1] },
      { loadAway with id := 3, word := wordOf (.cas ⟨.scr, .add, false, .rlx, .pkg, 6, 4, .always, 1⟩), lanes := [part 1] },
      { loadAway with id := 4, word := wordOf (.fsqt ⟨.f27, 1, 2, .always, 1⟩), performed := true, lanes := [part 0] }]
    let s := virt (tweak handled fun g => { g with pend := ps, w := [(1, 4)] }) (virtSpan 0 33 [])
    (s.wgOf 0).any (fun w => (s.groupOf ref).any fun g =>
      let landed := (g.pend.filter Pending.isFloat).foldl (fun s p => s.completePend ref p)
        (s.progEvent (coreIdx w.core) 9 (some w.region.ctx.num))
      (landed.groupOf ref).any fun h => ((h.pend.map (·.id)) == [1, 2, 3]) &&
        match (landed.withdraw ref [1, 2]).writeFrames w h [entry0, entry0, entry0] 12 0 1 with
        | .ok _ => true
        | .error _ => false) = true := by decide +kernel

/-- R351 to R353: a trap captures the load that is in flight as an entry behind its own. -/
theorem test_trap_captures :
    let s := virt (tweak handled fun g => { g with pend := [{ loadAway with id := 1 }], w := [(1, 1)] }) (virtSpan 0 33 [])
    let t := s.trapEnter ref { cause := 12, detail := 0, head := some entry0, behind := [], boundary := false, pc := Word.ofInt 0,
                               active := [0, 1], count := 1 }
    ((t.groupOf ref).map fun g => (g.pend.length, g.rdW 1, g.handler.map fun h => (h.sets.length, h.past))) =
      some (0, 1, some (2, [false, true])) := by decide +kernel

/-- A workgroup that is saved: its entry taken, its image written or struck, an arrival held or none; and one that is restored
with an arrival on its way. -/
theorem witness_PreemptionTurns_saves :
    let k : Kernel := { kern with tiles := 0, regs := 1 }
    let w0 (st : SaveSt) (w : Workgroup) : Workgroup := { w with save := st, preq := true, kernel := k, entry := some 0, img := some w.image }
    let arrival : Arrival := ⟨0, 0, .data 0 [Tryte.ofInt 5] none⟩
    let state (st : SaveSt) (bad : List Nat) (hold : List Arrival) : State := { (home (w0 st) (fun g => { g with phase := .stopped, run := .none })
      (virtSpan (-19683) 1 [])) with bad := ⟨[], bad, []⟩, cores := [(0, { CoreState.empty with
        attrs := [⟨0, 0, Word.ofInt (3 ^ 26)⟩], divs := [(0, ⟨.zero, 0, 0, 1, 0, 0⟩)], hold := hold })] }
    let saving := state .saving [] []
    (saving.wgOf 0).any (fun w => decide (w.st = .resident) && decide (w.save = .saving) && (saving.imageStruck w).isNone) = true ∧
    ((state .saving [0] []).wgOf 0).any (fun w => ((state .saving [0] []).imageStruck w).any fun f => f.1 == 15) = true ∧
    let other (s : State) : State := { s with wgs := s.wgs ++ [{ wk with id := 9, save := .saving }] }
    [([], true), ([{ arrival with wg := 9 }, arrival], false)].all (fun (c : List Arrival × Bool) =>
      let s := (other (state .written [] c.1)).drainHold 0
      (s.wgOf 0).any fun w => decide (w.save = .written) && ((s.coreAt 0).hold.all fun a => a.wg != w.id) == c.2 &&
        match s.imageWrite w 0 [2] with
        | .ok _ => true
        | .error _ => false) = true ∧
    (let s := state .stopping [] [];
      (s.wgOf 0).any fun w => (s.groups.all fun g => g.isStopped) && decide (w.save = .stopping) && (s.drainUnit w).drained w &&
        (SMap.find? ((s.drainUnit w).coreAt 0).divs 0).isSome && (SMap.find? ((s.drainUnit w).coreAt 0).divs 1).isNone &&
        !((s.drainUnit w).chargeOverrun w ((s.drainUnit w).overrun w)).dieDown 0 &&
        match ((s.drainUnit w).chargeOverrun w ((s.drainUnit w).overrun w)).imageWrite w 0 (w.header 1 1 0) with
        | .ok _ => true
        | .error _ => false) = true ∧
    (let s : State := { state .entered [] [] with arrivals := [(0, arrival)] };
      (s.drainHold 0).arrivals.any fun a => a.1 == 0 && a.2.wg == 0) = true := by decide +kernel

/-- Words whose formats are refused, with and without a LIT; an MRD whose tile is in use; an illegal word whose formats are read. -/
theorem witness_ChecksTrapInOrder_formats :
    let run (s : State) (p : Workgroup → Machine.Group → Bool) : Bool := (s.running s.cur).any fun x => p x.1 x.2
    let lits (n : Nat) (g : Machine.Group) : Machine.Group := { g with run := { g.run with lits := n, payload := 0 } }
    let refused (s : State) (i : Instr) (n : Nat) : Bool := run s fun w g => (s.tableFor w g i).2.refused && g.run.lits == n &&
      !overAlloc w i && (litCheck i g.wordPay g.run.lits false).isNone
    refused base (.mload ⟨1, 2, im 26⟩) 0 = true ∧ refused (tweak id (lits 1)) (.mload ⟨1, 2, im 26⟩) 1 = true ∧
    refused base (.mloadp ⟨8, 1, 2, im 3⟩) 0 = true ∧ refused base (.mstoreKeep ⟨1, 2, 26⟩) 0 = true ∧
    run base (fun w g => !(base.tableFor w g (.mload ⟨1, 2, im 0⟩)).2.refused) = true ∧
    (let full : State := { base with units := [(0, fullUnit)] };
      run full fun w _ => ((full.unitAt (coreClu w.core)).busy (w.tileAt 0)).isSome && ((base.unitAt 0).busy (w.tileAt 0)).isNone) = true ∧
    (Fields.ofWord (wordOf (.mstoreKeep ⟨1, 2, 26⟩)).val).op = 116 := by decide +kernel

/-- Pending words of which elements are left; an MSTAT whose item is known but not written; the drop of TLB entries. -/
theorem witness_LongWordsComplete_left :
    let s := pendBase { atomLeft with id := 5 }
    let l : Pending := { loadAway with todo := [⟨26, 0, [.scr 0 0, .scr 0 1, .scr 0 2]⟩], lanes := [PendLane.new 26 (Trits.ofInt 3 13)] }
    let part (p : Pending) : PendLane := (lanePart p.lanes 26).getD (PendLane.new 26 (Trits.ofInt 3 0))
    (match s.atomOne wk ref 5 .add false .w (part atomLeft) ⟨26, 0, [.scr 0 0, .scr 0 1, .scr 0 2]⟩ with
      | .ok (_, some ts) => ts.length == 3
      | _ => false) = true ∧
    (match (pendBase l).readOne wk ref 5 ⟨26, 0, [.scr 0 0, .scr 0 1, .scr 0 2]⟩ with
      | .ok (_, some ts) => ts.length == 3
      | _ => false) = true ∧
    [atomLeft, l].all (fun p => !p.performed && p.todo != [] && p.instr.isSome) = true ∧ s.tabWrites = [] ∧
    [true, false].all (fun b => ((pendBase { pendOf (.mstat ⟨.now, 1, 0, .always, 0⟩) b [PendLane.new 0 (Trits.ofInt 3 13)] [] with id := 5 }).groupOf
      ref).any fun g => g.pend.any fun p => p.performed == b) = true ∧
    (pendBase releaseAway).releaseWaits ref 6 = false ∧ (inFlight id [loadAway, releaseAway]).releaseWaits ref 6 = true := by decide +kernel

theorem witness_MemoryTurns_tlb :
    let e : TlbEntry := { ctx := 0, page := 0, level := 1, leaf := Word.ofInt leafWord, pa := 0 }
    let s : State := { base with cores := [(0, { CoreState.empty with tlb := [e] })], ctlbs := [(0, [e])] }
    0 < (s.coreAt 0).tlb.length ∧ 0 < (s.ctlbs.get [] 0).length ∧ (match exec (.softError (.tlb ⟨0, 0, 0⟩ false 0)) s with
      | .next t => some ((t.coreAt 0).tlb.length, (t.ctlbs.get [] 0).length, t.counter 9 0 4)
      | _ => none) = some (0, 1, 1) := by decide +kernel

/-- A word after which the run ends: the active lanes come to the return point of their record, and others are held. -/
theorem witness_RegisterWordsFrame_runEnds :
    let c : CallRec :=
      { word := Word.ofInt 0, payload := 0, ret := Word.ofInt 3, held := [(2, Word.ofInt 9)], out := [0, 1], parked := [] }
    let s := tweak id fun g => { g with lanes := (g.lanes.map fun l => l.wrH 0 (Word.ofInt 7)), calls := [c] }
    let r : List (Option (Bool × Int)) := [Instr.nop, .sread ⟨.g 1, 9, .always⟩, .fcvt ⟨.f27, .f9, .g 72, .g 1, .always⟩].map fun i =>
      match exec i s with
      | .next t => (t.groupOf ref).map fun h => (decide (h.phase = .running), ((h.lane 0).rdH 0).val)
      | _ => none
    r = [some (false, 0), some (false, 0), some (false, 0)] := by decide +kernel

/-- A consumer index of a context that nothing has met; a ring whose oldest record is a group's. -/
theorem witness_NodeRingAndMailboxTurns_unmet :
    base.context 5 = none ∧ (3812798742493 : Int).natAbs ≤ 3812798742493 ∧
    (match exec (.consumerIndexWrite 5 7) base with
      | .next t => SMap.find? t.consumers 5
      | _ => none) = some (Word.ofInt 7) := by decide +kernel

/-! ### Words, turns, checks, registers and memory -/

/-- A turn of each kind: a word of a line at hand, a fetch that fails, a run of 27 words, a misaligned PC, a word that is none. -/
theorem witness_StepRunsTurns :
    let u (f : Machine.Group → Machine.Group) : State := { (tweak id f) with agenda := [], turns := 1, cur := sl0 }
    let fetch (s : State) : Option Int := (s.running sl0).bind fun p => match s.fetchWord p.1 p.2.ref p.2.run p.2.wordPc.val with
      | .ok (_, v) => some v
      | .error _ => none
    let line (v : Int) : State := u fun g => { g with run := g.run.withWord 0 v }
    let far : State := u fun g => { g with lanes := g.lanes.map fun l => { l with pc := Word.ofInt (193710245 * 19683) } }
    fetch (line 12) = some 12 ∧ fetch far = none ∧ (decodeFields (Fields.ofWord 12)).toBool = true ∧
    (decodeFields (Fields.ofWord 0)).toBool = false ∧
    ((u fun g => { g with run := { g.run with count := 27 } }).running sl0).any (fun p => decide (27 ≤ p.2.run.count)) = true ∧
    ((u fun g => { g with lanes := g.lanes.map fun l => { l with pc := Word.ofInt 1 } }).running sl0).any (fun p =>
      decide (p.2.wordPc.val % 3 ≠ 0)) = true ∧
    ((u fun g => { g with run := { g.run with held := some .nop } }).running sl0).any (fun p => p.2.run.held == some .nop) = true ∧
    ({ base with agenda := [.event .timeCountTick, .slice 7 0] } : State).agenda = .event .timeCountTick :: [.slice 7 0] := by decide +kernel

theorem witness_StepRunsTurns_empty : Config.turn 0 = none ∨ ∃ t, Config.turn 0 = some t := by
  cases Config.turn 0 with
  | none => exact .inl rfl
  | some t => exact .inr ⟨t, rfl⟩

/-- Each check fails in some state, and no earlier one does. -/
theorem witness_ChecksTrapInOrder :
    let run (s : State) (p : Workgroup → Machine.Group → Bool) : Bool := (s.running s.cur).any fun x => p x.1 x.2
    let lit (i : Instr) (g : Machine.Group) : Option Fail := litCheck i g.wordPay (if g.run.again.isSome then 0 else g.run.lits) g.run.again.isSome
    let add : Instr := .add ⟨.w, .g 80, .g 1, .g 2, .always⟩
    let small (w : Workgroup) : Workgroup := { w with kernel := { w.kernel with regs := 1, checked := true } }
    let lits (n : Nat) (g : Machine.Group) : Machine.Group := { g with run := { g.run with lits := n, payload := 5 } }
    let full : State := tweak id fun g => { g with w := [(4, 26)] }
    let late : State := { base with wgs := [{ wk with placed := 1 }, { wk with id := 9 }], cores := [(0, { CoreState.empty with licence := 9 })],
                                    groups := gr :: (List.range 9).map fun n => { bounded gr with wg := 9, hw := n } }
    let pends (g : Machine.Group) : Machine.Group := { g with pend := [pendOf (.fsqt ⟨.f27, 1, 2, .always, 1⟩) true [PendLane.new 0 (Trits.ofInt 3 13)] []] }
    run (tweak id fun g => { g with run := { g.run with count := 27 } }) (fun _ g => g.run.count == 27 && !g.run.behind) = true ∧
    run (tweak small id) (fun w g => (lit add g).isNone && overAlloc w add) = true ∧
    run (tweak id (lits 1)) (fun w g => (lit add g).isSome && !overAlloc w add && add.litUse == .none) = true ∧
    run (tweak asUser id) (fun w g => (lit .tlbfl g).isNone && !overAlloc w .tlbfl && Instr.supervisorOnly .tlbfl && !w.region.supervisor) = true ∧
    (Instr.writesReadOnly (.swrite ⟨0, .g 1, .always⟩) = true ∧ Instr.handlerOnly .resume = true) ∧
    run base (fun w _ => Instr.modeViolation .reform w.kernel.reforming) = true ∧
    run (tweak (fun w => { w with kernel := { w.kernel with checked := true } }) pends) (fun w g => w.kernel.checked &&
      g.pend.any (pendTouches g g.run.active 27 (.neg ⟨.w, .g 1, .g 1, .always⟩))) = true ∧
    run { base with bad := ⟨[(0, 0, 0, .g 1)], [], []⟩ } (fun _ g => readsBad { base with bad := ⟨[(0, 0, 0, .g 1)], [], []⟩ } g g.run.active
      27 (.neg ⟨.w, .g 2, .g 1, .always⟩)) = true ∧
    (∀ v ∈ ([0, 243, -108] : List Int), v.natAbs ≤ maxMag 27) ∧ (∀ r ∈ opRows, r.op ≠ -108) ∧
    run full (fun w g => (full.issueOf w g (.fsqt ⟨.f27, 1, 2, .always, 4⟩)).slotFull) = true ∧
    run late (fun w _ => Instr.needsLicence (.ld ⟨.scr, .w, .weak (im 0), 6, 4, .always, 1⟩) && !late.licensed w) = true := by decide +kernel

/-- R240: an error in an h, k or s register, too, stops the word that reads it, and no other. -/
theorem test_struck_registers :
    let meets (r : RegName) (i : Instr) : Bool := readsBad { base with bad := ⟨[(0, 0, 0, r)], [], []⟩ } gr [0] 27 i
    (meets (.h 1) (.neg ⟨.w, .g 2, .h 1, .always⟩) && meets (.k 3) (.neg ⟨.w, .g 2, .g 1, .pos 3⟩) &&
      meets (.s 4) (.add ⟨.w, .g 2, .g 1, .s 4, .always⟩) && !meets (.h 1) (.neg ⟨.w, .h 1, .h 2, .always⟩) &&
      !meets (.k 3) (.neg ⟨.w, .g 2, .g 1, .always⟩)) = true := by decide +kernel

/-- The frames of words that go on in the base state. -/
theorem witness_RegisterWordsFrame :
    gr.pend = [] ∧ (base.groupOf gr.ref).isSome = true ∧
    ([.add ⟨.t, .g 2, .g 0, .imm (im (-7)), .neg 2⟩, .tidx ⟨6, 76, 2, .g 3, .always⟩, .rng ⟨.g 1, .always⟩, .swrite ⟨12, .g 2, .always⟩,
      .movi ⟨.w, 5, .g 1, .always⟩, .fcvt ⟨.f81, .f9, .g 72, .g 1, .always⟩, .nop] : List Instr).all (fun i =>
      meets base i fun _ g _ => match exec i base with
        | .next t => (t.groupOf g.ref).isSome
        | _ => false) = true := by decide +kernel

/-- The boundaries of the memories. -/
theorem witness_StoresReadBack :
    (531440 < 531441 ∧ 14348906 < 14348907) ∧ (2 ^ 40 - 1) + ([0] : List Byte).length ≤ 2 ^ 40 ∧ (2 ^ 40 - 1 : Nat) < 2 ^ 40 := by decide

theorem witness_DecodeOfEncode :
    (Instr.wellFormed .nop = true ∧ Instr.isEvent .nop = false) ∧ (12 : Int).natAbs ≤ maxMag 27 ∧ decodesTo [(12, .nop)] = true := by
  decide +kernel

/-- A step that goes on from a state whose memory has its form. -/
theorem witness_EveryStepKeepsMemoryForm :
    Memory.wf State.reset = true ∧ (match step { base with agenda := [.event .timeCountTick] } with
      | .next t => t.time == 1
      | _ => false) = true := by decide +kernel

/-! ## Single steps, with the spec's examples or values calculated by hand from its rules -/

/-- The group after a word, none where the machine does not go on. -/
def after (s : State) (i : Instr) : Option Machine.Group :=
  match exec i s with
  | .next t => t.groupOf ref
  | _ => none
def gAfter (s : State) (i : Instr) (n l : Nat) : Option Int := (after s i).map fun g => ((g.lane l).rdG n).val
def kAfter (s : State) (i : Instr) (n l : Nat) : Option (List Int) :=
  (after s i).map fun g => [((g.lane l).rdK n).trit 0, ((g.lane l).rdK n).trit 1, ((g.lane l).rdK n).trit 2]
def flagsAfter (s : State) (i : Instr) (l : Nat) : Option Flags := (after s i).map fun g => (g.lane l).fs
/-- Lanes whose registers g2 and g3 hold A and B. -/
def two (a b : Int) : State := lanesAs fun _ l => (l.wrG 2 (Word.ofInt a)).wrG 3 (Word.ofInt b)
def op3 : Op3 := ⟨.w, .g 1, .g 2, .g 3, .always⟩

/-- 01_values.md: in T9, 9,841 + 1 wraps to −9,841; the saturating form gives 9,841 and sets saturate. -/
theorem test_add_wraps : gAfter (two 9841 1) (.add ⟨.t, .g 1, .g 2, .g 3, .always⟩) 1 0 = some (-9841) := by decide +kernel
theorem test_adds_clamps :
    gAfter (two 9841 1) (.adds ⟨.t, .g 1, .g 2, .g 3, .always⟩) 1 0 = some 9841 ∧
    flagsAfter (two 9841 1) (.adds ⟨.t, .g 1, .g 2, .g 3, .always⟩) 1 = some { saturate := true } := by decide +kernel
/-- R117: a lane whose predicate trit is − is zeroed. -/
theorem test_sub_zeroes : gAfter (lanesAs fun _ l => (l.wrG 1 (Word.ofInt 7)).wrK 4 (Trits.ofInt 3 (-13)))
    (.sub ⟨.w, .g 1, .g 2, .imm (im 3), .pos 4⟩) 1 1 = some 0 := by decide +kernel
/-- 06, after R136: MUL.t and MULH.t of 100 and 200 give 317 and 1. -/
theorem test_mul : gAfter (two 100 200) (.mul ⟨.t, .g 1, .g 2, .g 3, .always⟩) 1 0 = some 317 := by decide +kernel
theorem test_mulh : gAfter (two 100 200) (.mulh ⟨.t, .g 1, .g 2, .g 3, .always⟩) 1 0 = some 1 := by decide +kernel
/-- 06, Table 3, column by column. -/
theorem test_divisions : ([(7, 2, [3, 1, 3, 1, 3, 1]), (-7, 2, [-3, -1, -3, -1, -4, 1]), (7, -2, [-3, 1, -3, 1, -4, -1]),
    (8, 3, [3, -1, 2, 2, 2, 2]), (-8, 3, [-3, 1, -2, -2, -3, 1]), (5, 0, [0, 0, 0, 0, 0, 0])] : List (Int × Int × List Int)).all
    (fun r => ([Instr.divn, .remn, .divz, .remz, .divf, .remf].map fun i => gAfter (two r.1 r.2.1) (i op3) 1 0) == r.2.2.map some) = true := by
  decide +kernel
theorem test_divzero : flagsAfter (two 5 0) (.remz op3) 0 = some { divzero := true } := by decide +kernel
/-- 06: 100 shifted right by 2 is 11, and −100 is −11. -/
theorem test_shr : gAfter (two 100 2) (.shr op3) 1 0 = some 11 ∧ gAfter (two (-100) 2) (.shr op3) 1 0 = some (-11) := by decide +kernel
/-- 06: EXT of 1000 at 3, length 4, is 37; LEAD gives 6 and CNT of the zeros 23. -/
theorem test_ext : gAfter (two 1000 111) (.ext ⟨.g 1, .g 2, .g 3, .always⟩) 1 0 = some 37 := by decide +kernel
theorem test_lead : gAfter (two 1000 0) (.lead ⟨.w, .g 1, .g 2, .always⟩) 1 0 = some 6 := by decide +kernel
theorem test_cnt : gAfter (two 1000 0) (.cnt op3) 1 0 = some 23 := by decide +kernel
/-- R143: the sign of A − B in every trit. -/
theorem test_cmp : kAfter (two 3 5) (.cmp ⟨.w, 4, .g 2, .g 3, .always⟩) 4 0 = some [-1, -1, -1] := by decide +kernel
/-- 06: `pset k4, copy, 5` sets k4 to −, −, +. -/
theorem test_pset : kAfter base (.pset ⟨.copy, 4, none, .imm (im 5), .always⟩) 4 0 = some [-1, -1, 1] := by decide +kernel
/-- 06: PACK3 of the trytes 5, −20 and 13 into tryte 0 is 13·729 − 13·27 + 5, with saturate. -/
theorem test_pack3 :
    gAfter (two (5 - 20 * 19683 + 13 * 387420489) 0) (.pack3 ⟨.g 1, .g 2, .imm (im 0), .always⟩) 1 0 = some 9131 ∧
    flagsAfter (two (5 - 20 * 19683 + 13 * 387420489) 0) (.pack3 ⟨.g 1, .g 2, .imm (im 0), .always⟩) 0 = some { saturate := true } := by
  decide +kernel
/-- 06, the table of splitting indices. -/
theorem test_tidx : splitIndex ⟨[9, 5, 4]⟩ 100 = (0, [1, 1, 2, 0, 0]) ∧ splitIndex ⟨[9, 5, 4]⟩ (-7) = (-1, [2, 4, 3, 0, 0]) ∧
    splitIndex ⟨[9, 5, 4]⟩ 200 = (1, [2, 2, 0, 0, 0]) := by decide +kernel
theorem test_tjoin : (joinIndex ⟨[9, 5, 4]⟩ [2, 4, 3, 0, 0]).2 = 173 := by decide +kernel
/-- R93: a LIT joins its payload to the pending one; the next word starts from it. -/
theorem test_lit : (after base (.lit (Trits.ofInt 22 5))).map (fun g => (g.run.payload, g.run.lits, g.run.count)) = some (5, 1, 1) := by
  decide +kernel

/-- TF27 codes of small integers, by ITOF (R164). -/
def f27 (v : Int) : Int := (tf27.round (.fin v 0) false).1
theorem test_itof : gAfter (two 6 0) (.itof ⟨.f27, .g 1, .g 2, .imm (im 0), .always⟩) 1 0 = some (f27 6) ∧
    (tf27.decode (f27 6)).cmp (.fin 6 0) = 0 := by decide +kernel
theorem test_fadd : gAfter (two (f27 2) (f27 3)) (.fadd ⟨.f27, .g 1, .g 2, .g 3, .always⟩) 1 0 = some (f27 5) := by decide +kernel
theorem test_fmul : gAfter (two (f27 2) (f27 (-3))) (.fmul ⟨.f27, .g 1, .g 2, .g 3, .always⟩) 1 0 = some (f27 (-6)) := by decide +kernel
/-- R155: +Inf − Inf is NaN, with invalid. -/
theorem test_fsub_invalid : flagsAfter (two (tf27.infCode false) (tf27.infCode false)) (.fsub ⟨.f27, .g 1, .g 2, .g 3, .always⟩) 0 =
    some { invalid := true } := by decide +kernel
/-- 07, quotients into integers: −5 / 2 is inexact, and its FTOI is −2, −3, −2, −2. -/
theorem test_fdiv_ftoi :
    let q := fnDiv tf27 (.fin (-5) 0) (.fin 2 0)
    q.2.inexact = true ∧ [RoundMode.nearest, .floor, .ceil, .zero].map (fun m => gAfter (two q.1 0)
      (.ftoi ⟨.f27, m, .g 1, .g 2, .always⟩) 1 0) = [some (-2), some (-3), some (-2), some (-2)] := by decide +kernel
/-- 02: the scale 2 is the SC9 code 99, a TF9 code too (R39). -/
theorem test_scale : ((⟨9, 5, 0, .scale⟩ : Fmt).decode 99).cmp (.fin 2 0) = 0 := by decide +kernel

/-- R171: a branch goes to PC + 3·offset; CALL links PC + 3 in g8. -/
theorem test_br : (after base (.br ⟨.zero, Trits.ofInt 12 (-4)⟩)).map (fun g => ((g.lane 1).pc.val, (g.lane 2).pc.val)) = some (-12, 0) := by
  decide +kernel
theorem test_call : gAfter base (.call ⟨.zero, Trits.ofInt 12 40⟩) 8 0 = some 3 := by decide +kernel
/-- R172, R69: lanes of both trits part, and the unhinted branch goes on with the least PC. -/
theorem test_brp_parts : (after (lanesAs fun n l => l.wrK 1 (Trits.ofInt 3 (if n = 0 then 13 else -13)))
    (.brp ⟨.zero, .pos 1, Trits.ofInt 12 5⟩)).map (fun g => (g.run.active, (g.lane 0).pc.val, (g.lane 1).pc.val)) = some ([1], 15, 3) := by
  decide +kernel
/-- R172, R354: a target that is no word address traps; with no handler, every thread ends. -/
theorem test_jmpi_misaligned : (after (home id (allG 2 1) (virtSpan (-4860) 4 [])) (.jmpi ⟨.g 2, .imm (im 0), .always⟩)).map (·.live) =
    some [] := by decide +kernel
/-- R178: ENDRUN waits for the slots of its mask. -/
theorem test_endrun : (after base (.endrun (Trits.ofInt 9 (1 + 3)))).map (fun g => (g.mask, g.phase, g.run.active)) =
    some ([0, 1], .boundary, []) := by decide +kernel
theorem test_exit : (after base (.exit .always)).map (fun g => ((g.lane 0).st, (g.lane 2).st)) = some (.exited, .ready) := by decide +kernel

/-- 08, a shuffle across thirds: g3 is 100 plus the lane, SHFLD by 1. -/
def thirds (width : Nat) : State :=
  tweak (fun w => { w with kernel := { w.kernel with width := width } })
    fun g => { g with lanes := (List.range 27).map fun n => (lane n).wrG 3 (Word.ofInt (100 + n)), run := { g.run with active := List.range 27 } }
theorem test_shfld9 : [7, 8, 9, 17, 26].map (gAfter (thirds 9) (.shfld ⟨1, .g 4, .g 3, .imm (im 1), .always⟩) 4) =
    [some 108, some 108, some 110, some 117, some 126] := by decide +kernel
theorem test_shfld27 : [7, 8, 9, 17, 26].map (gAfter (thirds 27) (.shfld ⟨1, .g 4, .g 3, .imm (im 1), .always⟩) 4) =
    [some 108, some 109, some 110, some 118, some 126] ∧
    kAfter (thirds 27) (.shfld ⟨1, .g 4, .g 3, .imm (im 1), .always⟩) 1 26 = some [0, 0, 0] := by decide +kernel
/-- R187, R188: the votes of +, +, −, and their sums. -/
def votes : State := tweak id fun g =>
  { g with lanes := (List.range 27).map fun n => (lane n).wrG 2 (Word.ofInt (if n = 2 then -5 else 4)), run := { g.run with active := [0, 1, 2] } }
theorem test_vote : [VoteFn.all, .any, .maj].map (fun f => kAfter votes (.vote ⟨f, 3, .g 2, .always⟩) 3 1) =
    [some [-1, -1, -1], some [1, 1, 1], some [1, 1, 1]] := by decide +kernel
theorem test_redu : gAfter votes (.redu ⟨.w, .add, .g 1, .g 2, .always⟩) 1 0 = some 3 := by decide +kernel
theorem test_scan : [0, 1, 2].map (gAfter votes (.scan ⟨.w, .add, true, .g 1, .g 2, .always⟩) 1) = [some 0, some 4, some 8] := by decide +kernel
/-- R189: the step of the random state is 2,862,933,555,778·s + 1. -/
theorem test_rng : (after base (.rng ⟨.g 1, .always⟩)).map (fun g => (g.lane 0).rng.val) = some 1 := by decide +kernel
/-- R120: sr.lane and sr.third of lane 17 under width 9 (R76). -/
theorem test_sread : [0, 1].map (fun n => gAfter (thirds 9) (.sread ⟨.g 1, n, .always⟩) 1 17) = [some 8, some 1] := by decide +kernel

/-- R192: MLOAD takes tag 1 at reset, and the counter goes on. -/
theorem test_mload : (match exec (.mload ⟨1, 2, im 0⟩) (big id) with
    | .next t => (t.groupOf ref).map fun g => ((g.rdS 1).val, (t.unitAt 0).counter.val, (t.unitAt 0).queue.length)
    | _ => none) = some (1, 2, 1) := by decide +kernel
/-- R276, R275: a store is performed when it completes, a load lands when it completes; slot 1 counts it. -/
def stored : State := match exec (.st ⟨.scr, .w, .weak (im 6), 6, 4, .always, 1⟩) (lanesAs fun n l => (l.wrG 4 (Word.ofInt (3 * n))).wrG 6 (Word.ofInt (70 + n))) with
  | .next t => t
  | _ => base
theorem test_st_begins : (stored.groupOf ref).map (fun g => (g.rdW 1, g.pend.length)) = some (1, 1) ∧ (stored.scrGet 0 6).val = 0 := by decide +kernel
theorem test_st_completes : (match exec (.memoryWriteComplete ref 0) stored with
    | .next t => some ((t.scrGet 0 6).val, (t.scrGet 0 9).val, (t.groupOf ref).map fun g => g.rdW 1)
    | _ => none) = some (70, 71, some 0) := by decide +kernel
theorem test_ld : (match exec (.ld ⟨.scr, .t, .weak (im 0), 6, 4, .always, 1⟩) { base with scr := [(0, Tryte.ofInt 5), (1, Tryte.ofInt 6)] } with
    | .next t => (match exec (.memoryReadComplete ref 0) t with
      | .next u => (u.groupOf ref).map fun g => ((g.lane 1).rdG 6).val
      | _ => none)
    | _ => none) = some (5 + 6 * 19683) := by decide +kernel
/-- R274: lanes of one address perform in ascending order; the first takes 0 and the second what the first wrote. -/
theorem test_atom : meets (tweak id (allG 6 5)) (.atomr ⟨.scr, .add, false, .rlx, .pkg, 6, 4, .always, 1⟩) (fun _ _ x =>
    let parts := x.memParts x.active (fun l => ((x.g.lane l).rdG 4).val) (fun l => (x.g.lane l).rdG 6) (fun _ => Word.ofInt 0)
      fun _ => Word.ofInt 0
    let r := x.resolveAll x.s0 .scr .atomic .w parts
    let done := x.atomAll .add false .w r.1 parts r.2.1
    (done.2.1.map fun p => p.r0.val) == [0, 5] && (done.1.scrGet 0 0).val == 10) = true := by decide +kernel
/-- R340: the last arrival of a phase sets `left` to `expect` and raises the phase. -/
theorem test_bara : barrierStep [3, 1, 5, 0, 0, 0, 0, 0, 0] = some ([3, 3, 6, 0, 0, 0, 0, 0, 0], 5) := by decide
/-- R351, R374: TRAP enters the handler in a boundary, its live lanes at the handler's entry. -/
theorem test_trap : (after (virt (tweak handled id) (frame0 [])) (.trap (im 5))).map (fun g => ((g.lane 0).pc.val, (g.lane 26).pc.val,
    g.handler.map (·.cause), g.phase)) = some (300, 300, some 22, .boundary) := by decide +kernel
/-- R375: RESUME of a frame with no entries leaves handler state. -/
theorem test_resume : (after (virt (tweak handled inHandler) (frame0 [])) .resume).map (fun g => (g.handler, g.phase, g.noRecord)) =
    some (none, .boundary, true) := by decide +kernel
/-- R428: an address that names no counter reads −3,812,798,742,493. -/
theorem test_cntrd : gAfter base (.cntrd ⟨.g 5, 2⟩) 5 0 = some (-3812798742493) := by decide +kernel
/-- R407: WINSET writes the three words of a window. -/
theorem test_winset : (match exec (.winset ⟨1, 24, .imm (im 26)⟩) (tweak id fun g => (g.wrS 24 (Word.ofInt 3)).wrS 25 (Word.ofInt 8)) with
    | .next t => (t.groupOf ref).map fun g => ((g.rdS 1).val, (t.windows.get (Word.ofInt 0) 78).val, (t.windows.get (Word.ofInt 0) 79).val)
    | _ => none) = some (1, 3, 8) := by decide +kernel
/-- R436: a host read of the register window gives 729 first and zeros for the nonce, and no data where nothing is mapped. -/
theorem test_host_read : base.hostRead 0 0 8 = some [217, 2, 0, 0, 0, 0, 0, 0] ∧
    ({ base with nonce := [(0, 7)] } : State).hostRead 0 64 2 = some [0, 0] ∧ base.hostRead 0 300 1 = none ∧
    ({ base with mailboxes := [(1, { Mailbox.empty with reply := [(1, Word.ofInt (-2))] })] } : State).hostRead 1 4112 2 = some [254, 255] := by
  decide +kernel
/-- R419: WINSET writes the byte line of the old window back and drops it. -/
theorem test_winset_drops :
    let line : LLine := { (virtLine 0 []).2 with
      dirty := true, key := ⟨false, 0, false, 5, 1, true⟩, trytes := List.replicate 160 (Tryte.ofInt 7) }
    let old := ((base.windows.set (Word.ofInt 0) 78 (Word.ofInt 3)).set (Word.ofInt 0) 79 (Word.ofInt 800)).set (Word.ofInt 0) 80
      (Word.ofInt 160)
    let s : State := { tweak id fun g => (g.wrS 24 (Word.ofInt 3)).wrS 25 (Word.ofInt 8) with llc := [(0, line)], windows := old }
    (match exec (.winset ⟨1, 24, .imm (im 26)⟩) s with
    | .next t => some ((t.windows.get (Word.ofInt 0) 79).val, t.llc.length, t.dramByte 0 false 800, t.dram.length)
    | _ => none) = some (8, 0, 7, 160) := by decide +kernel
/-- A privileged word of user code takes cause 5 (R100), and ends the threads where there is no handler (R354). -/
theorem test_privilege : (after (home asUser id (virtSpan (-4860) 4 [])) .tlbfl).map (fun g => g.live) = some [] := by decide +kernel
/-- The first step after reset runs the word that is placed for it: NOP is 12, and t0..t4 of 12 are 0, +, +, 0, 0. -/
theorem test_step_runs_word : decodeTableWord 54 (1 * 4 + 1 * 16) = some .nop ∧ (match step (State.reset.withFetchWord 54 20) with
    | .next t => (t.groups.head?).map fun g => ((g.lane 0).pc.val, g.run.count)
    | _ => none) = some (3, 1) := by decide +kernel
/-- R443: the time count and the events that change nothing else. -/
theorem test_tick : (match exec .timeCountTick base with
    | .next t => some (t.time, t.groups == base.groups)
    | _ => none) = some (1, true) := by decide +kernel

end Sys2Proof.Tests
end

section
/-! Rounding of a finite expansion (01_values.md R25 to R27): the trits that a balanced expansion keeps are the nearest
integer, because the trits below them always stand for less than half of the weight of the lowest one kept. -/

namespace Sys2Proof.Machine

/-! ## Dropping low trits (R13) -/

theorem wrapInt_add_dropInt (n : Nat) (v : Int) : wrapInt n v + dropInt n v * 3 ^ n = v := by
  have h := Int.emod_add_mul_ediv (v + maxMag n) ((3 ^ n : Nat) : Int)
  push_cast at h
  simp only [wrapInt, dropInt, Nat.cast_pow, Nat.cast_ofNat]
  linarith

theorem natAbs_wrapInt_le (n : Nat) (v : Int) : (wrapInt n v).natAbs ≤ maxMag n := by
  obtain ⟨hlo, hhi⟩ := wrapInt_range n v
  omega

/-- Of a multiple k·3^n and a string of n trits, dropping n trits leaves k. -/
theorem dropInt_mul_add {n : Nat} {r : Int} (hr : r.natAbs ≤ maxMag n) (k : Int) : dropInt n (k * 3 ^ n + r) = k := by
  have h2 := two_maxMag n
  have hp : ((3 ^ n : Nat) : Int) ≠ 0 := by positivity
  have hrest : (r + maxMag n) / ((3 ^ n : Nat) : Int) = 0 := Int.ediv_eq_zero_of_lt (by omega) (by omega)
  have hsum : k * 3 ^ n + r + maxMag n = (r + maxMag n) + k * ((3 ^ n : Nat) : Int) := by push_cast; ring
  rw [dropInt, hsum, Int.add_mul_ediv_right _ _ hp, hrest, zero_add]

theorem wrapInt_mul_add {n : Nat} {r : Int} (hr : r.natAbs ≤ maxMag n) (k : Int) : wrapInt n (k * 3 ^ n + r) = r := by
  have h := wrapInt_add_dropInt n (k * 3 ^ n + r)
  rw [dropInt_mul_add hr] at h
  linarith

theorem natAbs_le_maxMag_iff {n : Nat} {v : Int} : v.natAbs ≤ maxMag n ↔ 2 * v.natAbs + 1 ≤ 3 ^ n := by
  have h2 := two_maxMag n
  omega

theorem natAbs_mul_three_pow (v : Int) (k : Nat) : (v * 3 ^ k).natAbs = v.natAbs * 3 ^ k := by
  rw [Int.natAbs_mul, Int.natAbs_pow]
  rfl

theorem natAbs_mul_pow_le {n : Nat} {v : Int} (hv : v.natAbs ≤ maxMag n) (k : Nat) :
    (v * 3 ^ k).natAbs ≤ maxMag (n + k) := by
  rw [natAbs_le_maxMag_iff] at *
  calc 2 * (v * 3 ^ k).natAbs + 1 ≤ (2 * v.natAbs + 1) * 3 ^ k := by
        have hp : 0 < 3 ^ k := by positivity
        rw [natAbs_mul_three_pow]
        linarith
    _ ≤ 3 ^ n * 3 ^ k := Nat.mul_le_mul_right _ hv
    _ = 3 ^ (n + k) := (pow_add 3 n k).symm

/-- Dropping k trits of n + k leaves n. -/
theorem natAbs_dropInt_le {n k : Nat} {v : Int} (hv : v.natAbs ≤ maxMag (n + k)) : (dropInt k v).natAbs ≤ maxMag n := by
  have hw := natAbs_le_maxMag_iff.1 (natAbs_wrapInt_le k v)
  have hsplit : (dropInt k v).natAbs * 3 ^ k ≤ v.natAbs + (wrapInt k v).natAbs := by
    have h := wrapInt_add_dropInt k v
    rw [← natAbs_mul_three_pow]
    omega
  rw [natAbs_le_maxMag_iff, pow_add] at hv
  have hlt : (2 * (dropInt k v).natAbs) * 3 ^ k < (3 ^ n + 1) * 3 ^ k := by linarith
  have hle := Nat.lt_of_mul_lt_mul_right hlt
  have h2 := two_maxMag n
  omega

/-! ## The leading trit (R142) -/

/-- The search for a power of three ends at the least one, when it begins at or below it and has fuel enough. -/
theorem upPow_eq_clog {fuel n x : Nat} (hlo : n ≤ Nat.clog 3 x) (hhi : Nat.clog 3 x ≤ n + fuel) :
    upPow fuel n x = Nat.clog 3 x := by
  induction fuel generalizing n with
  | zero => exact le_antisymm hlo hhi
  | succ fuel ih =>
    rw [upPow]
    split
    · next h => exact le_antisymm hlo (Nat.clog_le_of_le_pow h)
    · next h =>
      have hlt := (Nat.lt_clog_iff_pow_lt (by decide)).2 (not_le.1 h)
      exact ih hlt (by omega)

/-- Powers of two bases compare as one known pair of them does: a^p ≤ b^q bounds log a / log b by q / p. -/
theorem pow_le_pow_of_ratio {a b p q i j : Nat} (ha : 0 < a) (hq : q ≠ 0) (h : a ^ p ≤ b ^ q) (hij : i * q ≤ p * j) :
    a ^ i ≤ b ^ j := by
  refine (Nat.pow_le_pow_iff_left hq).1 ?_
  calc (a ^ i) ^ q = a ^ (i * q) := (pow_mul a i q).symm
    _ ≤ a ^ (p * j) := Nat.pow_le_pow_right ha hij
    _ = (a ^ p) ^ j := pow_mul a p j
    _ ≤ (b ^ q) ^ j := Nat.pow_le_pow_left h j
    _ = (b ^ j) ^ q := pow_right_comm b q j

/-- The bounds of log 2 / log 3 that the start and the fuel of tritLen need, by two of its convergents: it lies
between 306/485, above 0.63092, and 665/1054, below 0.63093. -/
theorem pow_306_le_and_pow_1054_le : 3 ^ 306 ≤ 2 ^ 485 ∧ 2 ^ 1054 ≤ 3 ^ 665 := by decide +kernel

theorem tritLen_eq_clog (v : Int) : tritLen v = Nat.clog 3 (2 * v.natAbs + 1) := by
  obtain ⟨hbelow, habove⟩ := pow_306_le_and_pow_1054_le
  have hx : 2 * v.natAbs + 1 ≠ 0 := by omega
  apply upPow_eq_clog
  · refine (Nat.pow_le_pow_iff_right (by decide : 1 < 3)).1 ?_
    calc 3 ^ (Nat.log2 (2 * v.natAbs + 1) * 63092 / 100000)
        ≤ 2 ^ Nat.log2 (2 * v.natAbs + 1) := pow_le_pow_of_ratio (by decide) (by decide) hbelow (by omega)
      _ ≤ 2 * v.natAbs + 1 := Nat.log2_self_le hx
      _ ≤ 3 ^ Nat.clog 3 (2 * v.natAbs + 1) := Nat.le_pow_clog (by decide) _
  · refine Nat.clog_le_of_le_pow ?_
    calc 2 * v.natAbs + 1 ≤ 2 ^ (Nat.log2 (2 * v.natAbs + 1) + 1) := Nat.lt_log2_self.le
      _ ≤ _ := pow_le_pow_of_ratio (by decide) (by decide) habove (by omega)

/-- tritLen is the least number of trits that hold the value. -/
theorem tritLen_le_iff {v : Int} {n : Nat} : tritLen v ≤ n ↔ v.natAbs ≤ maxMag n := by
  rw [tritLen_eq_clog, Nat.clog_le_iff_le_pow (by decide), natAbs_le_maxMag_iff]

theorem natAbs_le_maxMag_tritLen (v : Int) : v.natAbs ≤ maxMag (tritLen v) := tritLen_le_iff.1 le_rfl

/-! ## The significand kept -/

/-- The significand of m·3^e over the weight 3^c: exact where c is not above e, and the trits at c and above it
otherwise. -/
def keptSig (m e c : Int) : Int := if c ≤ e then m * 3 ^ (e - c).toNat else dropInt (c - e).toNat m

theorem keptSig_of_le {m e c : Int} (h : c ≤ e) : keptSig m e c = m * 3 ^ (e - c).toNat := if_pos h

theorem keptSig_of_lt {m e c : Int} (h : e < c) : keptSig m e c = dropInt (c - e).toNat m := if_neg (by omega)

/-- What is kept fits n trits when the leading trit is less than n places above c. -/
theorem natAbs_keptSig_le {m e c : Int} {n : Nat} (h : leadPos m + e < c + n) : (keptSig m e c).natAbs ≤ maxMag n := by
  unfold leadPos at h
  rcases le_or_gt c e with hce | hce
  · rw [keptSig_of_le hce]
    refine tritLen_le_iff.1 (le_trans ?_ (by omega : tritLen m + (e - c).toNat ≤ n))
    exact tritLen_le_iff.2 (natAbs_mul_pow_le (natAbs_le_maxMag_tritLen m) _)
  · rw [keptSig_of_lt hce]
    exact natAbs_dropInt_le (tritLen_le_iff.1 (by omega))

/-- The error of what is kept is the value of the trits dropped. -/
theorem sub_keptSig_mul_pow {m e c : Int} (h : e < c) :
    m - keptSig m e c * 3 ^ (c - e).toNat = wrapInt (c - e).toNat m := by
  rw [keptSig_of_lt h, sub_eq_iff_eq_add, wrapInt_add_dropInt]

/-- R25: the trits dropped stand for less than half of the weight of the lowest trit kept, so that no tie arises. -/
theorem two_mul_keptSig_error_lt {m e c : Int} (h : e < c) :
    2 * (m - keptSig m e c * 3 ^ (c - e).toNat).natAbs < 3 ^ (c - e).toNat := by
  rw [sub_keptSig_mul_pow h]
  exact natAbs_le_maxMag_iff.1 (natAbs_wrapInt_le _ m)

/-- R27: inexact tells that a trit dropped is nonzero, which is that the significand kept is not the exact value. -/
theorem wrapInt_ne_zero_iff_ne_keptSig {m e c : Int} (h : e < c) :
    wrapInt (c - e).toNat m ≠ 0 ↔ m ≠ keptSig m e c * 3 ^ (c - e).toNat := by
  rw [← sub_keptSig_mul_pow h, sub_ne_zero]

/-! ## Codes and rounding of a format -/

/-- A significand of n trits at a finite exponent is read back from its code (R16, R34). -/
theorem Fmt.decode_pack {f : Fmt} (hq : f.q ≠ 0) (hp : f.policy ≠ .scale) {sig ex : Int} (hsig : sig.natAbs ≤ maxMag f.n)
    (hex : ex ≤ f.etop) : f.decode (f.pack sig ex) = .fin sig (ex - (f.n - 1)) := by
  have htop : ¬(f.policy = .infnan ∧ ex - f.o = maxMag f.q) := by
    rintro ⟨hinf, heq⟩
    simp only [Fmt.etop, hq, hinf, if_true, if_false] at hex
    omega
  simp [Fmt.decode, Fmt.pack, hq, hp, htop, wrapInt_mul_add hsig, dropInt_mul_add hsig]

/-- R25 to R27 of a value in range, where no special code is met: the code of the significand kept, 0 for none, with
inexact for the trits dropped, and underflow the only other flag. -/
theorem Fmt.roundFin_of_inRange {f : Fmt} (hp : f.policy ≠ .scale) {m e c : Int} (hlead : leadPos m + e ≤ f.etop)
    (hc : c = max (leadPos m + e) f.emin - (f.n - 1)) :
    ∃ under : Bool, f.roundFin m e false =
      (if keptSig m e c = 0 then 0 else f.pack (keptSig m e c) (max (leadPos m + e) f.emin),
        { inexact := decide (e < c) && wrapInt (c - e).toNat m != 0, underflow := under }) := by
  simp only [Fmt.roundFin, hp, false_and, if_false, not_lt.2 hlead, Bool.false_or, pow3, ge_iff_le, ← hc]
  change ∃ under : Bool, (if keptSig m e c = 0 then _ else _) = _
  by_cases hzero : keptSig m e c = 0
  · exact ⟨true, by rw [if_pos hzero, if_pos hzero]⟩
  · rw [if_neg hzero, if_neg hzero]
    exact ⟨_, rfl⟩

/-- The three float formats (R17 to R19) hold exponent trits and finite exponents, and are no scale format. -/
theorem floatFormat_shape : ∀ f ∈ [tf9, tf27, tf81], f.q ≠ 0 ∧ f.policy ≠ .scale ∧ f.emin ≤ f.etop := by decide

/-- Settles O10: the significand is the one kept at the weight of the lowest trit that the format has at the value's
exponent, and what is dropped below it is less than half of that weight. The bound on |m| is not needed: tritLen finds the
leading trit of every integer (tritLen_le_iff). -/
theorem roundingToNearestIsNeverATie : Obligations.RoundingToNearestIsNeverATie := by
  intro f hf m e hm _ hlead c r
  obtain ⟨hq, hp, hrange⟩ := floatFormat_shape f hf
  obtain ⟨under, hround⟩ := Fmt.roundFin_of_inRange hp hlead (c := c) rfl
  have hr : r = _ := (if_neg hm).trans hround
  have hfits : (keptSig m e c).natAbs ≤ maxMag f.n := natAbs_keptSig_le (by omega)
  refine ⟨keptSig m e c, hfits, ?code, fun hce => ⟨keptSig_of_le hce, ?fits⟩,
    fun hce => ⟨two_mul_keptSig_error_lt hce, ?inexact⟩, ?flags⟩
  case code =>
    by_cases hzero : keptSig m e c = 0
    · simp [hr, hzero]
    · simp only [hr, hzero, if_false]
      exact Fmt.decode_pack hq hp hfits (max_le hlead hrange)
  case fits => simp [hr, not_lt.2 hce]
  case inexact =>
    rw [hr, ← wrapInt_ne_zero_iff_ne_keptSig hce]
    simp [hce]
  case flags => simp [hr]

end Sys2Proof.Machine
end

section
/-! Packed lines that leave every last-level cache (10_memories.md R225, R241): which entries stay, and that a cache may still
hold the line where it lists the line more than once. -/

namespace Sys2Proof.Machine

theorem State.llcFind_eq_none_iff {s : State} {die : Nat} {k : LineKey} :
    s.llcFind die k = none ↔ ∀ e ∈ s.llc, e.1 = die → e.2.key ≠ k := by
  simp [State.llcFind]

/-- R225, R241: the entries that stay when a line leaves every cache are those of other lines, and the copies of other dies
that are held bad. -/
theorem State.mem_llcDropAll_iff {s : State} {k : LineKey} {e : Nat × LLine} :
    e ∈ (s.llcDropAll k).llc ↔ e ∈ s.llc ∧ (e.2.key = k → e.1 ≠ k.die ∧ e.2.bad ≠ []) := by
  simp [State.llcDropAll, imp_iff_not_or]

/-- A die is rid of a line that leaves every cache when it is the home die or lists no copy of it held bad. -/
theorem State.llcFind_llcDropAll_eq_none_iff {s : State} {k : LineKey} {die : Nat} :
    (s.llcDropAll k).llcFind die k = none ↔ die = k.die ∨ ∀ e ∈ s.llc, e.1 = die → e.2.key = k → e.2.bad = [] := by
  rw [State.llcFind_eq_none_iff]
  constructor
  · intro hnone
    by_cases hhome : die = k.die
    · exact .inl hhome
    · refine .inr fun e he hdie hkey => by_contra fun hbad => ?_
      exact hnone e (State.mem_llcDropAll_iff.2 ⟨he, fun _ => ⟨hdie ▸ hhome, hbad⟩⟩) hdie hkey
  · rintro hgood e he hdie hkey
    obtain ⟨hmem, hstays⟩ := State.mem_llcDropAll_iff.1 he
    obtain ⟨haway, hbad⟩ := hstays hkey
    rcases hgood with hhome | hgood
    · exact haway (hdie.trans hhome)
    · exact hbad (hgood e hmem hdie hkey)

/-! ## A line listed twice -/

/-- The clean packed line of slot 0 of the HBM of die 0, held bad in the thirds named. -/
def slotZeroLine (bad : List Nat) : LLine :=
  { key := ⟨false, 0, false, 0, 1, false⟩, trytes := List.replicate 81 zeroT, dirty := false, bad := bad, chan := 0,
    shape := .one, tab := 0, entry := 0, ctx := ⟨0, 0, 0, 0, 0, []⟩ }

/-- Die 0 is home to a line of which the cache of die 1 lists two copies, and the second of these is held bad. -/
def twoCopiesOneBad : State :=
  { State.reset with llc := [(0, slotZeroLine []), (1, slotZeroLine []), (1, slotZeroLine [0])] }

/-- What the clause on a line's copies asks is met in that state: llcFind meets the good copy alone. -/
theorem twoCopiesOneBad_llcFind :
    ∀ die < 2, twoCopiesOneBad.llcFind die (slotZeroLine []).key = some (slotZeroLine []) := by decide +kernel

/-- Refutes O46: the clause that a line which leaves its home die leaves each die d asks that the copy which llcFind finds on
d, the first listed, is not held bad. The state is not bound to list a line once for each die: in twoCopiesOneBad a later copy
of die 1 is held bad, and by R241 it stays (State.mem_llcDropAll_iff). What the clause would have to ask is in
State.llcFind_llcDropAll_eq_none_iff. -/
theorem not_memoryTurns : ¬ Obligations.MemoryTurns := by
  unfold Obligations.MemoryTurns
  rintro ⟨-, -, -, -, hevict, -⟩
  obtain ⟨-, -, -, -, -, hgone⟩ := hevict twoCopiesOneBad 0 (slotZeroLine []).key (slotZeroLine [])
    (twoCopiesOneBad_llcFind 0 (by decide)) rfl rfl (by simp [twoCopiesOneBad, State.reset])
  have hfirst : ∀ j, twoCopiesOneBad.llcFind 1 (slotZeroLine []).key = some j → j.bad = [] := by
    intro j hj
    rw [twoCopiesOneBad_llcFind 1 (by decide), Option.some.injEq] at hj
    exact hj ▸ rfl
  rcases State.llcFind_llcDropAll_eq_none_iff.1 (hgone rfl 1 hfirst) with hhome | hgood
  · exact absurd hhome (by decide)
  · exact absurd (hgood (1, slotZeroLine [0]) (by simp [twoCopiesOneBad]) rfl rfl) (by decide)

end Sys2Proof.Machine
end

section
/-! Rules of the state's operations: what a read gives after an update of a list, a core, a group or a lane, and what the
counting of an event leaves as it was. -/

namespace Sys2Proof.Machine

/-! ## Lists -/

theorem updAt_eq_modify {α : Type} (xs : List α) (n : Nat) (f : α → α) : updAt xs n f = xs.modify n f := by
  induction xs generalizing n with
  | nil => simp [updAt]
  | cons x xs ih => cases n <;> simp [updAt, ih]

theorem dropAt_eq_eraseIdx {α : Type} (xs : List α) (n : Nat) : dropAt xs n = xs.eraseIdx n := by
  rw [dropAt, List.eraseIdx_eq_take_drop_succ]

theorem indexOf?_eq_findIdx? {α : Type} (p : α → Bool) (xs : List α) : indexOf? p xs = xs.findIdx? p := by
  induction xs with
  | nil => rfl
  | cons x xs ih => simp only [indexOf?, List.findIdx?_cons, ih]

/-! ## Memory -/

/-- States with the same scratchpads, chip scratchpads and DRAM have the same memory. -/
theorem sameMemory_of_eq {s t : State} (hscr : t.scr = s.scr) (hchip : t.chip = s.chip) (hdram : t.dram = s.dram) :
    SameMemory s t := by
  refine ⟨fun core off => ?_, fun die off => ?_, fun die lp byte => ?_⟩
  · simp only [State.scrGet, hscr]
  · simp only [State.chipGet, hchip]
  · simp only [State.dramByte, State.dramAt, hdram]

theorem sameMemory_trans {s t u : State} (h : SameMemory s t) (h' : SameMemory t u) : SameMemory s u := by
  obtain ⟨hscr, hchip, hdram⟩ := h
  obtain ⟨hscr', hchip', hdram'⟩ := h'
  exact ⟨fun _ _ => (hscr' _ _).trans (hscr _ _), fun _ _ => (hchip' _ _).trans (hchip _ _),
    fun _ _ _ => (hdram' _ _ _).trans (hdram _ _ _)⟩

/-! ## Cores -/

@[simp] theorem coreAt_updCore_same (s : State) (core : Nat) (f : CoreState → CoreState) :
    (s.updCore core f).coreAt core = f (s.coreAt core) := by simp [State.coreAt]

theorem coreAt_updCore_other {s : State} {core core' : Nat} (f : CoreState → CoreState) (h : core' ≠ core) :
    (s.updCore core f).coreAt core' = s.coreAt core' := by simp [State.coreAt, SMap.get_set_other _ _ _ h]

/-- R429: an event changes the programmable counters of its core alone. -/
theorem progEvent_eq (s : State) (core code : Nat) (ctx : Option Nat) :
    s.progEvent core code ctx = s ∨ ∃ ps, s.progEvent core code ctx = s.updCore core fun c => { c with progs := ps } := by
  simp only [State.progEvent]
  split
  exacts [.inr ⟨_, rfl⟩, .inl rfl]

section
variable (s : State) (core code : Nat) (ctx : Option Nat)

theorem progEvent_cores : s.progEvent core code ctx = { s with cores := (s.progEvent core code ctx).cores } := by
  rcases progEvent_eq s core code ctx with h | ⟨ps, h⟩ <;> rw [h]; rfl

@[simp] theorem progEvent_groups : (s.progEvent core code ctx).groups = s.groups := by rw [progEvent_cores]
@[simp] theorem progEvent_wgs : (s.progEvent core code ctx).wgs = s.wgs := by rw [progEvent_cores]
@[simp] theorem progEvent_scr : (s.progEvent core code ctx).scr = s.scr := by rw [progEvent_cores]
@[simp] theorem progEvent_chip : (s.progEvent core code ctx).chip = s.chip := by rw [progEvent_cores]
@[simp] theorem progEvent_dram : (s.progEvent core code ctx).dram = s.dram := by rw [progEvent_cores]
@[simp] theorem progEvent_bad : (s.progEvent core code ctx).bad = s.bad := by rw [progEvent_cores]
@[simp] theorem progEvent_groupOf (r : GroupRef) : (s.progEvent core code ctx).groupOf r = s.groupOf r := by
  simp [State.groupOf]
@[simp] theorem progEvent_wgOf (id : Nat) : (s.progEvent core code ctx).wgOf id = s.wgOf id := by simp [State.wgOf]

/-- A core differs after an event in its programmable counters alone. -/
theorem progEvent_coreAt (core' : Nat) : (s.progEvent core code ctx).coreAt core' =
    { s.coreAt core' with progs := ((s.progEvent core code ctx).coreAt core').progs } := by
  rcases progEvent_eq s core code ctx with h | ⟨ps, h⟩
  · rw [h]
  · rw [h]
    by_cases hc : core' = core
    · subst hc; simp
    · rw [coreAt_updCore_other _ hc]

end

/-! ## Groups -/

/-- What a group reference reads after an update of a group that leaves the references as they are. -/
theorem groupOf_updGroup {s : State} {r q : GroupRef} {f : Group → Group} (hf : ∀ g, (f g).ref = g.ref) :
    (s.updGroup r f).groupOf q = (s.groupOf q).map fun g => if q = r then f g else g := by
  obtain ⟨rw, rh⟩ := r
  obtain ⟨qw, qh⟩ := q
  have href : ∀ g : Group, (f g).wg = g.wg ∧ (f g).hw = g.hw := fun g => by simpa [Group.ref] using hf g
  simp only [State.groupOf, State.updGroup_groups]
  induction s.groups with
  | nil => rfl
  | cons g gs ih =>
    by_cases hq : g.wg = qw ∧ g.hw = qh
    · obtain ⟨rfl, rfl⟩ := hq
      by_cases hr : g.wg = rw ∧ g.hw = rh
      · obtain ⟨rfl, rfl⟩ := hr
        simp [href]
      · simp [hr]
    · by_cases hr : g.wg = rw ∧ g.hw = rh
      · obtain ⟨rfl, rfl⟩ := hr
        simpa [href, hq] using ih
      · simpa [hr, hq] using ih

@[simp] theorem groupOf_updGroup_same {s : State} {r : GroupRef} {f : Group → Group} (hf : ∀ g, (f g).ref = g.ref) :
    (s.updGroup r f).groupOf r = (s.groupOf r).map f := by simp [groupOf_updGroup hf]

theorem groupOf_updGroup_other {s : State} {r q : GroupRef} {f : Group → Group} (hf : ∀ g, (f g).ref = g.ref) (h : q ≠ r) :
    (s.updGroup r f).groupOf q = s.groupOf q := by simp [groupOf_updGroup hf, h]

theorem ref_beq (g : Group) (r : GroupRef) : (g.ref == r) = (g.wg == r.wg && g.hw == r.hw) := by
  cases r
  rw [Bool.eq_iff_iff]
  simp [Group.ref]

theorem ref_of_groupOf {s : State} {r : GroupRef} {g : Group} (h : s.groupOf r = some g) : g.ref = r := by
  have := List.find?_some h
  simp only [Bool.and_eq_true, beq_iff_eq] at this
  simp [Group.ref, this]

theorem id_of_wgOf {s : State} {id : Nat} {w : Workgroup} (h : s.wgOf id = some w) : w.id = id := by
  simpa using List.find?_some h

/-! ## Registers (R112, R113) -/

/-- R112: what a g register reads after a write. -/
theorem rdG_wrG (l : Lane) (n m : Nat) (v : Word) :
    (l.wrG n v).rdG m = if m = 0 then zeroW else if m = n then v else l.rdG m := by
  by_cases hm : m = 0
  · simp [Lane.rdG, hm]
  by_cases hn : n = 0
  · simp [Lane.rdG, Lane.wrG, hn, hm]
  by_cases hmn : m = n
  · subst hmn; simp [Lane.rdG, Lane.wrG, hm]
  · simp [Lane.rdG, Lane.wrG, hm, hn, hmn, SMap.get_set_other]

/-- R112: what a k register reads after a write. -/
theorem rdK_wrK (l : Lane) (n m : Nat) (v : Trits 3) :
    (l.wrK n v).rdK m = if m = 0 then kAll else if m = n then v else l.rdK m := by
  by_cases hm : m = 0
  · simp [Lane.rdK, hm]
  by_cases hn : n = 0
  · simp [Lane.rdK, Lane.wrK, hn, hm]
  by_cases hmn : m = n
  · subst hmn; simp [Lane.rdK, Lane.wrK, hm]
  · simp [Lane.rdK, Lane.wrK, hm, hn, hmn, SMap.get_set_other]

theorem rdH_wrH (l : Lane) (n m : Nat) (v : Word) : (l.wrH n v).rdH m = if m = n then v else l.rdH m := by
  by_cases hmn : m = n
  · subst hmn; simp [Lane.rdH, Lane.wrH]
  · simp [Lane.rdH, Lane.wrH, hmn, SMap.get_set_other]

theorem rdW_wrW (g : Group) (n m v : Nat) : (g.wrW n v).rdW m = if m = n then v else g.rdW m := by
  by_cases hmn : m = n
  · subst hmn; simp [Group.rdW]
  · simp [Group.rdW, hmn, SMap.get_set_other]

/-! ## Lanes -/

theorem lane_updLane (g : Group) (i j : Nat) (f : Lane → Lane) :
    (g.updLane i f).lane j = if j = i ∧ i < g.lanes.length then f (g.lane i) else g.lane j := by
  simp only [Group.lane, Group.updLane_lanes, updAt_eq_modify, List.getD_eq_getElem?_getD, List.getElem?_modify]
  by_cases hij : i = j
  · subst hij
    by_cases hlt : i < g.lanes.length
    · simp [hlt]
    · simp [hlt]
  · simp [hij, Ne.symm hij]

@[simp] theorem updAt_length {α : Type} (xs : List α) (n : Nat) (f : α → α) : (updAt xs n f).length = xs.length := by
  simp [updAt_eq_modify]

/-- An update of lanes changes the lanes of a group alone. -/
theorem updLanes_lanes (g : Group) (is : List Nat) (f : Nat → Lane → Lane) :
    g.updLanes is f = { g with lanes := (g.updLanes is f).lanes } := by
  induction is generalizing g with
  | nil => rfl
  | cons i is ih => simpa [Group.updLanes] using ih (g.updLane i (f i))

section
variable (g : Group) (is : List Nat) (f : Nat → Lane → Lane)

@[simp] theorem updLanes_wg : (g.updLanes is f).wg = g.wg := by rw [updLanes_lanes]
@[simp] theorem updLanes_hw : (g.updLanes is f).hw = g.hw := by rw [updLanes_lanes]
@[simp] theorem updLanes_s : (g.updLanes is f).s = g.s := by rw [updLanes_lanes]
@[simp] theorem updLanes_w : (g.updLanes is f).w = g.w := by rw [updLanes_lanes]
@[simp] theorem updLanes_pend : (g.updLanes is f).pend = g.pend := by rw [updLanes_lanes]
@[simp] theorem updLanes_calls : (g.updLanes is f).calls = g.calls := by rw [updLanes_lanes]
@[simp] theorem updLanes_phase : (g.updLanes is f).phase = g.phase := by rw [updLanes_lanes]
@[simp] theorem updLanes_run : (g.updLanes is f).run = g.run := by rw [updLanes_lanes]
@[simp] theorem updLanes_handler : (g.updLanes is f).handler = g.handler := by rw [updLanes_lanes]
@[simp] theorem updLanes_resuming : (g.updLanes is f).resuming = g.resuming := by rw [updLanes_lanes]
@[simp] theorem updLanes_noRecord : (g.updLanes is f).noRecord = g.noRecord := by rw [updLanes_lanes]
@[simp] theorem updLanes_ref : (g.updLanes is f).ref = g.ref := by simp [Group.ref]

end

end Sys2Proof.Machine
end

section
/-! Transfers of control (08_control_and_lane_instructions.md R171 to R177): which lanes a divergent group goes on with, and each
transfer as one jump or one transfer of its lanes. -/

namespace Sys2Proof.Machine

variable {s : State} {w : Workgroup} {g : Group} {i : Instr}

/-- The lanes by which a transfer's choice goes (R69): none where it is left to the PCs. -/
def Choice.named : Choice → List Nat
  | .first ls => ls
  | .uniform => []

/-- Whether a transfer whose lanes part counts as one without a hint (Table 2). -/
def Choice.isUniform : Choice → Bool
  | .first _ => false
  | .uniform => true

/-- R69: among the PCs of the active lanes, a choice of some of them takes their least, and a choice of none the least of all. -/
theorem Choice.pick_eq {c : Choice} {active : List Nat} {next : Nat → Int} {sel : Nat → Bool}
    (h : c.named = [] ∨ c.named = active.filter sel) :
    c.pick (active.map fun l => (l, next l)) =
      match c.named with
      | [] => leastInt (active.map next)
      | ls => leastInt (ls.map next) := by
  have hall : (active.map fun l => (l, next l)).map (·.2) = active.map next := by simp [Function.comp_def]
  cases c with
  | uniform => simp [Choice.pick, Choice.named, hall]
  | first ls =>
    rcases h with h | h
    · simp only [Choice.named] at h
      simp [Choice.pick, Choice.named, h, hall]
    · simp only [Choice.named] at h
      subst h
      have hf : ((active.map fun l => (l, next l)).filter fun e => (active.filter sel).contains e.1) =
          (active.filter sel).map fun l => (l, next l) := by
        rw [List.filter_map]
        congr 1
        refine List.filter_congr fun l hl => ?_
        simp [hl]
      simp only [Choice.pick, Choice.named, hf, hall]
      cases active.filter sel with
      | nil => rfl
      | cons a as => simp [Function.comp_def]

/-- A word whose effect is a transfer of aligned targets does what Transfers says, of the lanes that its choice names. -/
theorem transfers_of_transfer {before : Issue → State} {next : Issue → Nat → Int} {first : Issue → List Nat} {counts : Bool}
    {eff : Issue → Eff} {target sel : Nat → Bool} {c : Choice} (h : Issues s w g i) (hexec : exec i s = runWord i s eff)
    (heff : eff (s.issueOf w g i) = (s.issueOf w g i).transfer (before (s.issueOf w g i)) c
      ((s.issueOf w g i).active.map fun l => (l, next (s.issueOf w g i) l, target l)))
    (haligned : ∀ l ∈ (s.issueOf w g i).active, target l = true → next (s.issueOf w g i) l % 3 = 0)
    (hnamed : c.named = first (s.issueOf w g i)) (hcounts : c.isUniform = counts)
    (hsel : c.named = [] ∨ c.named = (s.issueOf w g i).active.filter sel) :
    Transfers s w g i before next first counts := by
  subst hcounts
  show exec i s = _
  rw [hexec, runWord_done h (heff.trans (transfer_moves haligned))]
  simp only [Choice.pick_eq hsel, hnamed]
  cases c <;> rfl


/-- A word that selects lanes to jump does what Transfers says. -/
theorem transfers_of_jump {before : Issue → State} {next : Issue → Nat → Int} {first : Issue → List Nat} {counts : Bool}
    {eff : Issue → Eff} {sel : Nat → Bool} {dest : Nat → Int} {choice : List Nat → List Nat → Choice} (h : Issues s w g i)
    (hexec : exec i s = runWord i s eff)
    (heff : eff (s.issueOf w g i) = (s.issueOf w g i).jump (before (s.issueOf w g i)) choice sel dest)
    (hnext : ∀ l, next (s.issueOf w g i) l = if sel l then dest l else (s.issueOf w g i).at_ 1)
    (haligned : ∀ l ∈ (s.issueOf w g i).active, sel l = true → dest l % 3 = 0)
    (hnamed : (choice ((s.issueOf w g i).active.filter sel) ((s.issueOf w g i).active.filter fun l => !sel l)).named =
      first (s.issueOf w g i))
    (hcounts : (choice ((s.issueOf w g i).active.filter sel) ((s.issueOf w g i).active.filter fun l => !sel l)).isUniform = counts)
    (hsel : first (s.issueOf w g i) = [] ∨ ∃ p, first (s.issueOf w g i) = (s.issueOf w g i).active.filter p) :
    Transfers s w g i before next first counts := by
  have hmoves : ∀ l ∈ (s.issueOf w g i).active, sel l = true → next (s.issueOf w g i) l % 3 = 0 := by
    intro l hl hs
    simpa [hnext, hs] using haligned l hl hs
  obtain ⟨p, hp⟩ : ∃ p, first (s.issueOf w g i) = [] ∨ first (s.issueOf w g i) = (s.issueOf w g i).active.filter p := by
    rcases hsel with h | ⟨p, h⟩
    exacts [⟨fun _ => true, .inl h⟩, ⟨p, .inr h⟩]
  refine transfers_of_transfer h hexec (heff.trans ?_) hmoves hnamed hcounts (hnamed ▸ hp)
  simp only [jump_eq, hnext]

/-- The lanes that a hint names (R69, Table 2): those that transfer, those that fall through, or none. -/
def hintNames (hint : Trit) (taken fell : List Nat) : List Nat :=
  match hint with
  | .pos => taken
  | .neg => fell
  | .zero => []

theorem named_hintChoice (hint : Trit) (taken fell : List Nat) :
    (hintChoice hint taken fell).named = hintNames hint taken fell := by cases hint <;> rfl

theorem isUniform_hintChoice (hint : Trit) (taken fell : List Nat) :
    (hintChoice hint taken fell).isUniform = (hint == .zero) := by cases hint <;> rfl

theorem hintNames_filter (hint : Trit) (active : List Nat) (p q : Nat → Bool) :
    hintNames hint (active.filter p) (active.filter q) = [] ∨
      ∃ r, hintNames hint (active.filter p) (active.filter q) = active.filter r := by
  cases hint
  exacts [.inr ⟨q, rfl⟩, .inl rfl, .inr ⟨p, rfl⟩]

/-- A jump by a hint does what Transfers says of the lanes that the hint names. -/
theorem transfers_of_hinted_jump {before : Issue → State} {next : Issue → Nat → Int} {hint : Trit} {eff : Issue → Eff}
    {sel : Issue → Nat → Bool} {dest : Nat → Int} (h : Issues s w g i) (hexec : exec i s = runWord i s eff)
    (heff : eff (s.issueOf w g i) = (s.issueOf w g i).jump (before (s.issueOf w g i)) (hintChoice hint) (sel (s.issueOf w g i)) dest)
    (hnext : ∀ l, next (s.issueOf w g i) l = if sel (s.issueOf w g i) l then dest l else (s.issueOf w g i).at_ 1)
    (haligned : ∀ l, dest l % 3 = 0) :
    Transfers s w g i before next
      (fun x => hintNames hint (x.active.filter (sel x)) (x.active.filter fun l => !sel x l)) (hint == .zero) :=
  transfers_of_jump h hexec heff hnext (fun l _ _ => haligned l) (named_hintChoice ..) (isUniform_hintChoice ..)
    (hintNames_filter ..)

/-- A jump that goes on with the lanes that jump does what Transfers says of them. -/
theorem transfers_of_taken_jump {before : Issue → State} {next : Issue → Nat → Int} {eff : Issue → Eff}
    {dest : Nat → Int} (h : Issues s w g i) (hexec : exec i s = runWord i s eff)
    (heff : eff (s.issueOf w g i) = (s.issueOf w g i).jump (before (s.issueOf w g i)) (fun taken _ => .first taken)
      (s.issueOf w g i).selects dest)
    (hnext : ∀ l, next (s.issueOf w g i) l = if (s.issueOf w g i).selects l then dest l else (s.issueOf w g i).at_ 1)
    (haligned : ∀ l ∈ (s.issueOf w g i).active, (s.issueOf w g i).selects l = true → dest l % 3 = 0) :
    Transfers s w g i before next (fun x => x.active.filter x.selects) false :=
  transfers_of_jump h hexec heff hnext haligned rfl rfl (.inr ⟨_, rfl⟩)

/-- R98: the two halves of the payload of B3. -/
theorem fld_halves (v : Int) : fld v 0 10 = wrapInt 11 v ∧ fld v 11 21 = wrapInt 11 (dropInt 11 v) := by
  simp [fld, dropInt, maxMag]

/-- Settles O15: BR, BRP, CALL and LOOP are jumps by a hint (transfers_of_hinted_jump), RET and JMPI jumps that go on with the
lanes that jump (transfers_of_taken_jump), and B3 a transfer by the trit of each lane; targets that are offsets from an aligned
PC are aligned (at_aligned). -/
theorem transfersMoveEachLane : Obligations.TransfersMoveEachLane := by
  intro s w g word hinted
  have hhinted : hinted = hintNames := by
    funext hint taken fell
    cases hint <;> rfl
  simp only [hhinted]
  refine ⟨?br, ?brp, ?b3, ?call, ?ret, ?jmpi, ?loop⟩
  case br =>
    intro a h hpc
    simpa using transfers_of_hinted_jump (next := fun x _ => word x (x.pay * 3 ^ 12 + a.off.val)) (before := (·.s))
      (hint := a.hint) (sel := fun _ _ => true) h rfl rfl (fun _ => rfl) fun _ => at_aligned hpc _
  case brp =>
    intro a h hpc
    refine transfers_of_hinted_jump (sel := Issue.selects) h rfl rfl (fun l => ?_) fun _ => at_aligned hpc _
    simp [Issue.selects, word]; rfl
  case b3 =>
    intro a h hpc
    obtain ⟨hm, hp⟩ := fld_halves (s.issueOf w g (.b3 a)).pay
    refine transfers_of_transfer (c := match a.hint with
        | .zero => .uniform
        | hint => .first ((s.issueOf w g (.b3 a)).active.filter fun l => ((s.issueOf w g (.b3 a)).pred l).trit 0 == hint.val))
      (sel := fun l => ((s.issueOf w g (.b3 a)).pred l).trit 0 == a.hint.val)
      (target := fun l => let t := ((s.issueOf w g (.b3 a)).pred l).trit 0; t == 1 || t == -1) h rfl ?_ (fun l _ _ => ?_)
      ?_ ?_ ?_
    · dsimp only
      rw [hm, hp]
      congr 1
      refine List.map_congr_left fun l _ => ?_
      by_cases hpos : ((s.issueOf w g (.b3 a)).pred l).trit 0 = 1
      · simp [hpos]; rfl
      by_cases hneg : ((s.issueOf w g (.b3 a)).pred l).trit 0 = -1
      · simp [hneg]; rfl
      · simp [hpos, hneg]; rfl
    · split_ifs <;> exact at_aligned hpc _
    all_goals cases a.hint <;> simp [Choice.named, Choice.isUniform]
  case call =>
    intro a h hpc
    simpa using transfers_of_hinted_jump (next := fun x _ => word x (x.pay * 3 ^ 12 + a.off.val))
      (before := fun x => x.eachLane fun _ lane => lane.wrG 8 (Word.ofInt (word x 1)))
      (hint := a.hint) (sel := fun _ _ => true) h rfl rfl (fun _ => rfl) fun _ => at_aligned hpc _
  case ret =>
    intro a h hal
    refine transfers_of_taken_jump h rfl rfl (fun l => ?_) fun l hl hs => hal l hl (by simpa [Issue.selects] using hs)
    simp [Issue.selects]; rfl
  case jmpi =>
    intro a h hal
    refine transfers_of_taken_jump h rfl rfl (fun l => ?_) fun l hl hs => hal l hl (by simpa [Issue.selects] using hs)
    simp [Issue.selects]; rfl
  case loop =>
    intro a h hpc
    exact transfers_of_hinted_jump (sel := fun x l => x.selects l && decide (wrapInt 27 ((x.reg a.d l).val - 1) > 0))
      h rfl rfl (fun _ => rfl) fun _ => at_aligned hpc _

end Sys2Proof.Machine
end

section
/-! The ends of a run (R178 to R182) and the exchanges of a sub-group (R76, R183 to R188). -/

namespace Sys2Proof.Machine

/-- Settles O17: each of these words has one effect, the one that the statement gives. -/
theorem runsEnd : Obligations.RunsEnd := by
  intro s w g ended
  refine ⟨fun m h => ?endrun, fun m h => ?yield, fun h => ?reform, fun p h => ?exit, fun h => runWord_done h rfl⟩
  case endrun =>
    refine (runWord_done h rfl).trans ?_
    cases hp : w.preq <;> simp [ended, Group.endRun, Group.clearH, hp]
  case yield =>
    refine (runWord_done h rfl).trans ?_
    cases hp : w.preq <;> simp [ended, Group.endRun, Group.clearH, hp]
  case reform => exact runWord_done h rfl
  case exit =>
    refine runWord_done h ?_
    simp only [List.partition_eq_filter_filter]
    rfl

/-- R76: the sub-group of a lane, of 9, 27 or 81 lanes. -/
theorem Issue.sub_eq (x : Issue) (l : Nat) :
    x.sub l = (if x.w.kernel.width = 9 then l / 9 * 9 else 0,
      if x.w.kernel.width = 9 then 9 else if x.w.kernel.width = 81 then 81 else 27) := by
  simp only [Issue.sub]
  split_ifs <;> rfl

theorem minInt_eq_min : minInt = Min.min := by
  funext a b
  simp only [minInt]
  split <;> omega

theorem maxInt_eq_max : maxInt = Max.max := by
  funext a b
  simp only [maxInt]
  split <;> omega

/-- Settles O18: the words take their values from the sub-group of each lane (Issue.sub_eq), through the source lanes that are
live or the lanes that are active in it. -/
theorem lanesExchange : Obligations.LanesExchange := by
  intro s w g width base from_ takes peers terms
  have hsub : ∀ i l, (s.issueOf w g i).sub l = (base l, width) := fun i l => Issue.sub_eq _ l
  have hfrom : ∀ i l q, (s.issueOf w g i).source l q = from_ (s.issueOf w g i) l q := by
    intro i l q
    simp only [Issue.source, hsub]
    rfl
  have hpeers : ∀ i l, (s.issueOf w g i).peers l = peers (s.issueOf w g i) l := by
    intro i l
    simp only [Issue.peers, hsub]
    rfl
  refine ⟨?shfl, ?shfld, ?shflt, ?xperm, ?bcst, ?vote, ?redu, ?scan⟩ <;> intro a h <;> refine runWord_done h ?_
  case shfl => simp only [Issue.exchange, hfrom]; rfl
  case shfld => simp only [Issue.exchange, Issue.position, hfrom, hsub]; rfl
  case shflt => simp only [Issue.exchange, Issue.position, hfrom, hsub]; rfl
  case xperm =>
    have hplaces : ∀ ps : List Int, (fun l => (s.issueOf w g (.xperm a)).source l
        (ps.getD ((s.issueOf w g (.xperm a)).position l) (-1))) =
        fun l => from_ (s.issueOf w g (.xperm a)) l (ps.getD (l - base l) (-1)) := by
      intro ps
      funext l
      simp only [Issue.position, hfrom, hsub]
    have hany : ((s.issueOf w g (.xperm a)).active.any fun l => ((s.issueOf w g (.xperm a)).pred l).trit 0 == 1) =
      (s.issueOf w g (.xperm a)).active.any (s.issueOf w g (.xperm a)).selects := rfl
    simp only [hany, issueOf_w]
    generalize (if (s.issueOf w g (.xperm a)).active.any (s.issueOf w g (.xperm a)).selects = true then _ else _) = read
    obtain ⟨t, none | ps⟩ := read
    · rfl
    · show Issue.exchange { s.issueOf w g (.xperm a) with s := t } a.kn.val a.d a.a (fun l =>
        (s.issueOf w g (.xperm a)).source l (ps.getD ((s.issueOf w g (.xperm a)).position l) (-1))) = _
      rw [hplaces]
      rfl
  case bcst => simp only [Issue.putAll, hfrom]; rfl
  case vote =>
    simp only [Issue.putKAll, hpeers, voteTrit, minInt_eq_min, maxInt_eq_max]
    cases a.fn <;> rfl
  case redu => simp only [Issue.putAll, Issue.terms, hpeers]; rfl
  case scan => simp only [Issue.putAll, Issue.terms, hpeers]; rfl
end Sys2Proof.Machine
end

section
/-! The step (03_execution.md R60, R61; log 1): which turn is taken, what a turn of a slot fetches, and when the last-level
caches settle as they are. -/

namespace Sys2Proof.Machine

/-! ## Turns -/

/-- The step that takes the head of the agenda. -/
theorem step_agenda {s : State} {t : Turn} {rest : List Turn} (h : s.agenda = t :: rest) :
    step s = settled (takeTurn t { s with agenda := rest, turns := s.turns + 1 }) := by
  simp only [step, State.nextTurn, h]

/-- The step of a machine with an empty agenda takes the turn that Config names, if any. -/
theorem step_empty {s : State} (h : s.agenda = []) :
    step s = match Config.turn s.turns with
      | some t => settled (takeTurn t { s with turns := s.turns + 1 })
      | none => .next { s with turns := s.turns + 1 } := by
  simp only [step, State.nextTurn, h]
  cases Config.turn s.turns <;> rfl

/-- What a turn of a slot comes to: an instruction is executed, or the state is the whole turn. -/
def takeWord : NextWord → Host.Outcome State Fault Refusal
  | .exec i t => exec i t
  | .stop t => .next t

/-- A turn of a slot on which a group runs is its next word. -/
theorem takeTurn_word {s : State} {sl : SlotRef} {w : Workgroup} {g : Group}
    (h : ({ s with cur := sl } : State).running sl = some (w, g)) :
    takeTurn (.word sl) s = takeWord (({ s with cur := sl } : State).nextWord w g) := by
  simp only [takeTurn, h]
  rfl

/-! ## Fetching (R60, R100, R422) -/

/-- A group that is not re-issuing an entry, nor holds a word, fetches its next word. -/
theorem nextWord_fetches {s : State} {w : Workgroup} {g : Group} (hheld : g.run.held = none) (hagain : g.run.again = none)
    (hres : g.resuming = none) : s.nextWord w g = s.fetchNext w g := by
  simp only [State.nextWord, hheld, hagain, hres]

/-- R5: three trytes of a list, the lowest first. -/
theorem ofTrytes_drop_take {ts : List Tryte} {n : Nat} (h : n + 3 ≤ ts.length) :
    ofTrytes ((ts.drop n).take 3) = (ts.getD n (Tryte.ofInt 0)).val + 19683 * (ts.getD (n + 1) (Tryte.ofInt 0)).val +
      19683 * 19683 * (ts.getD (n + 2) (Tryte.ofInt 0)).val := by
  have hthree : (ts.drop n).take 3 = [ts[n], ts[n + 1], ts[n + 2]] := by
    rw [List.drop_eq_getElem_cons (by omega), List.drop_eq_getElem_cons (by omega), List.drop_eq_getElem_cons (by omega)]
    rfl
  simp only [hthree, ofTrytes, List.foldr_cons, List.foldr_nil, List.getD_eq_getElem?_getD,
    List.getElem?_eq_getElem (show n < ts.length by omega), List.getElem?_eq_getElem (show n + 1 < ts.length by omega),
    List.getElem?_eq_getElem (show n + 2 < ts.length by omega), Option.getD_some]
  ring

/-- R422: a word of a line that the run has fetched is read from that line. -/
theorem fetchWord_of_line {s : State} {w : Workgroup} {r : GroupRef} {run : Run} {pc : Int} {l : FLine}
    (hline : run.lines.find? (fun l => l.line == pc / 81) = some l) (hpc : pc % 3 = 0) (hlen : l.trytes.length = 81) :
    s.fetchWord w r run pc = .ok (s, (l.trytes.getD ((pc % 81).toNat) (Tryte.ofInt 0)).val +
      19683 * (l.trytes.getD ((pc % 81).toNat + 1) (Tryte.ofInt 0)).val +
      19683 * 19683 * (l.trytes.getD ((pc % 81).toNat + 2) (Tryte.ofInt 0)).val) := by
  simp only [State.fetchWord, hline]
  rw [ofTrytes_drop_take (by omega)]

section
variable {s : State} {w : Workgroup} {g : Group}

/-- R100, step 1: a run of 27 words traps. -/
theorem fetchNext_full (hactive : g.run.active ≠ []) (hcount : 27 ≤ g.run.count) :
    s.fetchNext w g = .stop (s.takeFault g.ref zeroW (fun _ => kAll) { cause := 4 }) := by
  simp [State.fetchNext, hactive, hcount]

/-- R85: a misaligned PC traps. -/
theorem fetchNext_misaligned (hactive : g.run.active ≠ []) (hcount : g.run.count < 27) (hpc : g.wordPc.val % 3 ≠ 0) :
    s.fetchNext w g = .stop (s.takeFault g.ref zeroW (fun _ => kAll) { cause := 12 }) := by
  simp [State.fetchNext, hactive, Nat.not_le.2 hcount, hpc]

/-- R100, step 2: a fetch that fails traps with its cause. -/
theorem fetchNext_error {c : Nat} (hactive : g.run.active ≠ []) (hcount : g.run.count < 27) (hpc : g.wordPc.val % 3 = 0)
    (hfetch : s.fetchWord w g.ref g.run g.wordPc.val = .error c) :
    s.fetchNext w g = .stop (s.takeFault g.ref zeroW (fun _ => kAll) { cause := c }) := by
  simp [State.fetchNext, hactive, Nat.not_le.2 hcount, hpc, hfetch]

/-- A word that is fetched is decoded. -/
theorem fetchNext_ok {t : State} {v : Int} (hactive : g.run.active ≠ []) (hcount : g.run.count < 27)
    (hpc : g.wordPc.val % 3 = 0) (hfetch : s.fetchWord w g.ref g.run g.wordPc.val = .ok (t, v)) :
    s.fetchNext w g = t.decodeNext w g.ref v (if g.run.again.isSome then 1 else g.run.lits) := by
  simp [State.fetchNext, hactive, Nat.not_le.2 hcount, hpc, hfetch]

end

/-! ## The last-level caches after a turn (R217, R241) -/

/-- A slice that holds no more lines than it has room for loses none. -/
theorem trimSlice_self {fuel die n : Nat} {s : State}
    (h : ((s.inSlice die n).map fun l => lineCount l.key).foldl (· + ·) 0 ≤ 2187) : trimSlice fuel s die n = s := by
  cases fuel with
  | zero => rfl
  | succ fuel => simp only [trimSlice, h, if_true]

/-- A fold of steps that leave a state leaves it. -/
theorem foldl_self {α β : Type} {f : α → β → α} {a : α} (xs : List β) (h : ∀ x ∈ xs, f a x = a) : xs.foldl f a = a := by
  induction xs with
  | nil => rfl
  | cons x xs ih => rw [List.foldl_cons, h x (by simp), ih fun y hy => h y (by simp [hy])]

/-- Caches without a bad line and with room for what each slice holds settle as they are. -/
theorem settle_of_room {s : State} (hbad : ∀ e ∈ s.llc, e.2.bad = [])
    (hroom : ∀ die n, ((s.inSlice die n).map fun l => lineCount l.key).foldl (· + ·) 0 ≤ 2187) : s.settle = s := by
  have hnone : (s.llc.map fun e => e.2.bad.length).foldl (· + ·) 0 = 0 := by
    rw [List.foldl_map]
    exact foldl_self _ fun e he => by simp [hbad e he]
  simp only [State.settle, hnone, show (0 : Nat) < 28 by omega, if_true]
  split
  · rfl
  · exact foldl_self _ fun die _ => foldl_self _ fun n _ => trimSlice_self (hroom die n)

/-- Settles O55: the turn at the head of the agenda is taken, and else the one that Config names (step_agenda, step_empty); a turn of a
slot fetches by R100's first steps (the fetchNext lemmas) unless its group holds a word; and settle_of_room says when the
caches settle as they are. -/
theorem stepRunsTurns : Obligations.StepRunsTurns := by
  intro s rest
  refine ⟨?word, ?event, ?slice, fun t f r => ⟨rfl, rfl, rfl⟩, fun t => settle_of_room, ?idle, ?config⟩
  case word =>
    intro sl hagenda u
    refine ⟨fun hidle => ?_, fun w g hruns => ?_⟩
    · rw [step_agenda hagenda]
      simp only [takeTurn, show ({ s with agenda := rest, turns := s.turns + 1, cur := sl } : State).running sl = none from hidle]
      rfl
    have hstep : step s = settled (takeWord (u.nextWord w g)) := by
      rw [step_agenda hagenda, takeTurn_word (s := { s with agenda := rest, turns := s.turns + 1 }) hruns]
    intro pc all zero
    refine ⟨fun i hheld => ?_, fun hheld hagain hres hactive => ?_⟩
    · simp only [hstep, State.nextWord, hheld, takeWord]
    rw [nextWord_fetches hheld hagain hres] at hstep
    refine ⟨fun hfull => ?_, fun hcount hpc => ?_, fun hcount hpc => ⟨fun l hl hlen => fetchWord_of_line hl hpc hlen,
      fun c hfetch => ?_, fun t v hfetch => ?_⟩⟩
    · rw [hstep, fetchNext_full hactive hfull]; rfl
    · rw [hstep, fetchNext_misaligned hactive hcount hpc]; rfl
    · rw [hstep, fetchNext_error hactive hcount hpc hfetch]; rfl
    rw [fetchNext_ok hactive hcount hpc hfetch, hagain] at hstep
    refine ⟨fun i hi => ?_, fun e he => ?_⟩
    · simp only [hstep, State.decodeNext, hi, takeWord]
    · rw [hstep, State.decodeNext, he]; rfl
  case event =>
    intro i hagenda hevent
    rw [step_agenda hagenda]
    simp only [takeTurn, hevent, if_true]
  case slice =>
    intro c n hagenda
    rw [step_agenda hagenda]; rfl
  case idle =>
    intro hagenda hturn
    simp only [step_empty hagenda, hturn]
  case config =>
    intro t hagenda hturn
    simp only [step_empty hagenda, hturn]
    rw [step_agenda (s := { s with agenda := [t] }) rfl]
    cases s
    simp_all

end Sys2Proof.Machine
end

section
/-! The start of a run (08_control_and_lane_instructions.md R175, 03_execution.md R68): a call subset that is released moves its
lanes to their target before the issue PC of the run is chosen. -/

namespace Sys2Proof.Machine

/-- A group at a run boundary, of one lane at PC 0 that a call record holds for the target 9. -/
def heldForNine : Group :=
  { loadGroup 0 0 0 with
    phase := .boundary, run := .none, lanes := [{ Lane.absent with st := .held }]
    calls := [{ word := zeroW, payload := 0, ret := Word.ofInt 3, held := [(0, Word.ofInt 9)], out := [], parked := [] }] }

/-- A machine with that group alone. -/
def nineDue : State :=
  { State.reset with wgs := [loadWorkgroup 0 ⟨0, 0, 0⟩], groups := [heldForNine] }

/-- The lane's subset is due: it is released to its target, and no record of the call closes. -/
theorem heldForNine_releaseDue :
    heldForNine.releaseDue = ((heldForNine.releaseAt 0).1, none) ∧
      ({ (heldForNine.releaseAt 0).1 with run := .none } : Group).closeCalls.lanes = [{ Lane.absent with st := .ready, pc := Word.ofInt 9 }] := by
  decide +kernel

/-- The run that starts goes on with the lane that was released. -/
theorem nineDue_runStart :
    (match exec (.runStart ⟨⟨0, 0, 0⟩, 0⟩) nineDue with
      | .next t => (t.groupOf heldForNine.ref).map (·.run.active)
      | _ => none) = some [0] := by decide +kernel

/-- What the statement's premises ask of that machine. -/
theorem nineDue_free :
    nineDue.wgOf 0 = some (loadWorkgroup 0 ⟨0, 0, 0⟩) ∧ nineDue.pickGroup ⟨⟨0, 0, 0⟩, 0⟩ = some heldForNine ∧
      nineDue.groupOf heldForNine.ref = some heldForNine ∧ nineDue.dieDown 0 = false ∧
      (∀ n ∈ heldForNine.slots, nineDue.running ⟨⟨0, 0, 0⟩, n⟩ = none) ∧
      nineDue.recordFor (loadWorkgroup 0 ⟨0, 0, 0⟩) heldForNine = none := by decide +kernel

/-- Refutes O42: the clause on the lanes that a run starts with takes their PCs before the call subsets that are due are released
(g.lane, where the issue PC is taken from k.lane), so that it leaves out every lane that has just been released to a target away
from its PC. In nineDue the run starts with that lane (nineDue_runStart), as R68 and R175 say. -/
theorem not_runsStartAndWordsRetry : ¬ Obligations.RunsStartAndWordsRetry := by
  unfold Obligations.RunsStartAndWordsRetry
  rintro ⟨-, -, hturns⟩
  obtain ⟨hwg, hpick, hgroup, hdie, hslots, hrecord⟩ := nineDue_free
  obtain ⟨hreleased, hlanes⟩ := heldForNine_releaseDue
  obtain ⟨hstarts, -⟩ := hturns nineDue ⟨⟨0, 0, 0⟩, 0⟩ _ heldForNine hwg
  obtain ⟨-, -, -, -, hruns⟩ := hstarts hpick hgroup hdie hslots
  obtain ⟨-, hruns⟩ := hruns _ rfl hrecord rfl hreleased
  simp only [Group.lane, hlanes] at hruns
  obtain ⟨t, h, pc, hexec, hh, -, hleast, -, hrun⟩ := hruns (by decide +kernel)
  obtain ⟨-, hrun, -⟩ := hrun
  have hpc : pc = (Word.ofInt 9).val := by simpa using (hleast (by decide +kernel)).1
  have hstart := nineDue_runStart
  rw [hexec] at hstart
  simp only [hh, Option.map_some, Option.some.injEq, hrun, hpc] at hstart
  exact absurd hstart (by decide +kernel)

end Sys2Proof.Machine
end

section
/-! Bins (03_execution.md R70 to R74): where a thread is filed, when a bin is drawn, and the group that it becomes. -/

namespace Sys2Proof.Machine

/-! ## Filing a thread (R71) -/

/-- Filing into a bin does not touch what a draw goes by. -/
@[simp] theorem drawable_updCore (s : State) (core : Nat) (f : CoreState → CoreState) (w : Workgroup) :
    (s.updCore core f).drawable w = s.drawable w := rfl

@[simp] theorem updCore_wgOf (s : State) (core : Nat) (f : CoreState → CoreState) (id : Nat) :
    (s.updCore core f).wgOf id = s.wgOf id := rfl

/-- The state after bin n of a core has taken one thread more. -/
def State.intoBin (s : State) (core n : Nat) (l : Lane) : State :=
  s.updCore core fun c => { c with bins := c.bins.modify n fun b => { b with threads := b.threads ++ [l] } }

/-- A thread joins the first bin of its key with room. -/
theorem fileThread_joins {s : State} {core wg n : Nat} {l : Lane} {b : Bin}
    (hfirst : ∀ j, j < n → ∀ c, (s.coreAt core).bins[j]? = some c → c.wg ≠ wg ∨ c.pc ≠ l.pc ∨ 27 ≤ c.threads.length)
    (hn : (s.coreAt core).bins[n]? = some b) (hwg : b.wg = wg) (hpc : b.pc = l.pc) (hroom : b.threads.length < 27) :
    s.fileThread core wg l = some ((s.intoBin core n l).drawFull core n) := by
  have hindex : indexOf? (fun (b : Bin) => b.wg == wg && b.pc == l.pc && decide (b.threads.length < 27)) (s.coreAt core).bins =
      some n := by
    rw [indexOf?_eq_findIdx?, List.findIdx?_eq_some_iff_getElem]
    obtain ⟨hlt, hb⟩ := List.getElem?_eq_some_iff.1 hn
    refine ⟨hlt, by simp [hb, hwg, hpc, hroom], fun j hj => ?_⟩
    have := hfirst j hj _ (List.getElem?_eq_getElem (by omega))
    simp only [Bool.not_eq_true, Bool.and_eq_false_iff, beq_eq_false_iff_ne, decide_eq_false_iff_not, Nat.not_lt]
    tauto
  simp only [State.fileThread, hindex, State.intoBin, updAt_eq_modify]

/-- A thread that no bin takes opens a bin where fewer than 81 are in use. -/
theorem fileThread_opens {s : State} {core wg : Nat} {l : Lane}
    (hnone : ∀ b ∈ (s.coreAt core).bins, b.wg ≠ wg ∨ b.pc ≠ l.pc ∨ 27 ≤ b.threads.length)
    (hroom : (s.coreAt core).bins.length < 81) :
    s.fileThread core wg l =
      some (s.updCore core fun c => { c with bins := c.bins ++ [⟨wg, l.pc, [l], s.cycles (core / 9)⟩] }) := by
  have hindex : indexOf? (fun (b : Bin) => b.wg == wg && b.pc == l.pc && decide (b.threads.length < 27)) (s.coreAt core).bins =
      none := by
    rw [indexOf?_eq_findIdx?, List.findIdx?_eq_none_iff]
    intro b hb
    have := hnone b hb
    simp only [Bool.and_eq_false_iff, beq_eq_false_iff_ne, decide_eq_false_iff_not, Nat.not_lt]
    tauto
  simp only [State.fileThread, hindex, State.freeBin, hroom, if_true, Option.map_some]

/-- A bin that is drawn becomes a group of its workgroup. -/
theorem drawBin_eq {s : State} {core n : Nat} {b : Bin} {w : Workgroup} (hb : (s.coreAt core).bins[n]? = some b)
    (hw : s.wgOf b.wg = some w) :
    s.drawBin core n =
      { s.updCore core fun c => { c with bins := c.bins.eraseIdx n } with
        groups := s.groups ++ [freshGroup w ((s.updCore core fun c => { c with bins := c.bins.eraseIdx n }).freeHw b.wg)
          (freshSlot b.threads) s.stamp b.threads]
        stamp := s.stamp + 1 } := by
  simp only [State.drawBin, hb, updCore_wgOf, hw, dropAt_eq_eraseIdx]
  rfl

/-- A bin that is not full is not drawn. -/
theorem drawFull_of_room {s : State} {core n : Nat} {b : Bin} (hb : (s.coreAt core).bins[n]? = some b)
    (h : b.threads.length < 27) : s.drawFull core n = s := by
  simp [State.drawFull, hb, Nat.not_le.2 h]

/-- A full bin is drawn where its workgroup may draw. -/
theorem drawFull_of_full {s : State} {core n : Nat} {b : Bin} {w : Workgroup} (hb : (s.coreAt core).bins[n]? = some b)
    (hw : s.wgOf b.wg = some w) (h : 27 ≤ b.threads.length) :
    s.drawFull core n = if s.drawable w = true then s.drawBin core n else s := by
  simp [State.drawFull, hb, State.binDrawable, hw, h]

/-- What the bin that a thread joins holds then. -/
theorem intoBin_bins {s : State} {core n : Nat} {l : Lane} {b : Bin} (hn : (s.coreAt core).bins[n]? = some b) :
    ((s.intoBin core n l).coreAt core).bins = (s.coreAt core).bins.set n { b with threads := b.threads ++ [l] } := by
  simp only [State.intoBin, coreAt_updCore_same]
  rw [List.modify_eq_set_getElem?, hn]
  rfl

theorem intoBin_bin {s : State} {core n : Nat} {l : Lane} {b : Bin} (hn : (s.coreAt core).bins[n]? = some b) :
    ((s.intoBin core n l).coreAt core).bins[n]? = some { b with threads := b.threads ++ [l] } := by
  obtain ⟨hlt, -⟩ := List.getElem?_eq_some_iff.1 hn
  rw [intoBin_bins hn, List.getElem?_set_self hlt]

/-- A draw changes no memory, and leaves no more bins. -/
theorem drawBin_keeps (s : State) (core n : Nat) :
    SameMemory s (s.drawBin core n) ∧ ((s.drawBin core n).coreAt core).bins.length ≤ (s.coreAt core).bins.length := by
  have hdropped : ((s.updCore core fun c => { c with bins := dropAt c.bins n }).coreAt core).bins.length ≤
      (s.coreAt core).bins.length := by
    simp only [coreAt_updCore_same, dropAt_eq_eraseIdx]
    exact List.length_eraseIdx_le ..
  simp only [State.drawBin]
  split
  · exact ⟨sameMemory_of_eq rfl rfl rfl, le_rfl⟩
  · split
    · exact ⟨sameMemory_of_eq rfl rfl rfl, hdropped⟩
    · exact ⟨sameMemory_of_eq rfl rfl rfl, hdropped⟩

theorem drawFull_keeps (s : State) (core n : Nat) :
    SameMemory s (s.drawFull core n) ∧ ((s.drawFull core n).coreAt core).bins.length ≤ (s.coreAt core).bins.length := by
  simp only [State.drawFull]
  split
  · split
    exacts [drawBin_keeps s core n, ⟨sameMemory_of_eq rfl rfl rfl, le_rfl⟩]
  · exact ⟨sameMemory_of_eq rfl rfl rfl, le_rfl⟩

/-- Where fewer than 81 bins are in use a thread is filed, no memory changes and at most one bin more is in use. -/
theorem fileThread_of_room {s : State} {core wg : Nat} (l : Lane) (hroom : (s.coreAt core).bins.length < 81) :
    ∃ t, s.fileThread core wg l = some t ∧ SameMemory s t ∧ (t.coreAt core).bins.length ≤ (s.coreAt core).bins.length + 1 := by
  simp only [State.fileThread, State.freeBin, hroom, if_true, Option.map_some]
  split
  case h_1 n _ =>
    obtain ⟨hmem, hbins⟩ := drawFull_keeps (s.updCore core fun c =>
      { c with bins := updAt c.bins n fun b => { b with threads := b.threads ++ [l] } }) core n
    refine ⟨_, rfl, hmem, hbins.trans ?_⟩
    simp [updAt_eq_modify]
  case h_2 => exact ⟨_, rfl, sameMemory_of_eq rfl rfl rfl, by simp⟩

/-- Threads are filed one after the other where the bins in use and the threads are at most 81 together. -/
theorem fileThreads_of_room {core wg : Nat} (ls : List Lane) {s : State} (hroom : (s.coreAt core).bins.length + ls.length ≤ 81) :
    ∃ t, ls.foldlM (fun (t : State) l => t.fileThread core wg { l with h := [] }) s = some t ∧ SameMemory s t := by
  induction ls generalizing s with
  | nil => exact ⟨s, rfl, sameMemory_of_eq rfl rfl rfl⟩
  | cons l ls ih =>
    rw [List.length_cons] at hroom
    obtain ⟨u, hu, hmem, hbins⟩ := fileThread_of_room (wg := wg) { l with h := [] } (show (s.coreAt core).bins.length < 81 by omega)
    obtain ⟨t, ht, hmem'⟩ := ih (s := u) (by omega)
    exact ⟨t, by rw [List.foldlM_cons, hu]; exact ht, sameMemory_trans hmem hmem'⟩

/-! ## The words of the statement -/

/-- A bin that the thread fills is drawn as a group of the bin's threads and the new one. -/
theorem fileThread_fills {s : State} {core wg n : Nat} {l : Lane} {b : Bin} {w : Workgroup}
    (hfirst : ∀ j, j < n → ∀ c, (s.coreAt core).bins[j]? = some c → c.wg ≠ wg ∨ c.pc ≠ l.pc ∨ 27 ≤ c.threads.length)
    (hn : (s.coreAt core).bins[n]? = some b) (hwg : b.wg = wg) (hpc : b.pc = l.pc) (hfull : b.threads.length = 26)
    (hw : s.wgOf wg = some w) :
    s.fileThread core wg l =
      some (if s.drawable w = true then (s.intoBin core n l).drawBin core n else s.intoBin core n l) := by
  rw [fileThread_joins hfirst hn hwg hpc (by omega), drawFull_of_full (intoBin_bin hn) (w := w) (hwg ▸ hw) (by simp [hfull])]
  rfl

/-- Settles O43: a thread is filed by fileThread_joins, fileThread_fills or fileThread_opens, a REFORM files its threads one
after the other (fileThreads_of_room), and a bin that is drawn is a fresh group (drawBin_eq). -/
theorem threadsAreFiledAndDrawn : Obligations.ThreadsAreFiledAndDrawn := by
  refine ⟨?reform, ?joins, ?opens, ?aged⟩
  case reform =>
    intro s r w g hw hg hphase hres hrestoring hentered hentry hslots left taken filed
    have hstays : (w.st != .resident) = false ∧ w.resuming = false ∧ (g.w.all fun e => e.2 == 0) = true := by
      simpa [Workgroup.resuming, hres, hrestoring, hentered] using hslots
    have hfile : s.reformFile r = filed := by
      obtain ⟨hst, hback, hzero⟩ := hstays
      simp only [State.reformFile, hw, hg, hphase, hst, hback, hzero, hentry, Option.bind_eq_bind, Option.bind_some, filed, taken]
      have hleft : (g.updLanes g.run.active fun _ _ => Lane.absent).endRun [] = left := by
        simp [left, Group.endRun]
      have hothers : ∀ h : Group, (!(h.wg == r.wg && h.hw == r.hw)) = (h.ref != r) := fun h => by
        rw [← ref_beq, bne]
      simp only [hleft, hothers, List.isEmpty_iff]
      rfl
    have hhappens : ∀ t, filed = some t → Happens s (.reformFiling r) t := fun t ht =>
      runEvent_some (f := (·.reformFile r)) (hfile.trans ht)
    refine ⟨hhappens, fun hroom => ?_⟩
    have htaken : SameMemory s taken ∧ taken.coreAt (coreIdx w.core) = s.coreAt (coreIdx w.core) := by
      simp only [taken]
      split
      exacts [⟨sameMemory_of_eq rfl rfl rfl, rfl⟩, ⟨sameMemory_of_eq rfl rfl rfl, rfl⟩]
    obtain ⟨hmem, hcore⟩ := htaken
    obtain ⟨t, ht, hmem'⟩ := fileThreads_of_room (core := coreIdx w.core) (wg := w.id) (g.run.active.map g.lane) (s := taken)
      (by simpa [hcore] using hroom)
    exact ⟨t, ht, hhappens t ht, sameMemory_trans hmem hmem'⟩
  case joins =>
    intro s core wg l n b bins hfirst hn hwg hpc
    refine ⟨fun hroom => ?_, fun w hfull hw hdraw => ?_, fun w hfull hw hdraw => ?_⟩
    · rw [fileThread_joins hfirst hn hwg hpc (by omega), drawFull_of_room (intoBin_bin hn) (by simp; omega)]
      exact ⟨_, rfl, intoBin_bins hn, rfl⟩
    · rw [fileThread_fills hfirst hn hwg hpc hfull hw, if_pos hdraw, drawBin_eq (intoBin_bin hn) (w := w) (hwg ▸ hw)]
      refine ⟨_, _, rfl, rfl, ?_, rfl, rfl, rfl, ?_⟩
      · have hcore : ∀ (t : State) gs stamp, ({ t with groups := gs, stamp := stamp } : State).coreAt core = t.coreAt core :=
          fun _ _ _ => rfl
        rw [hcore, coreAt_updCore_same, intoBin_bins hn, List.eraseIdx_set_eq]
      · simp [freshGroup, hfull]
    · rw [fileThread_fills hfirst hn hwg hpc hfull hw, if_neg (by simp [hdraw])]
      exact ⟨_, rfl, intoBin_bins hn, rfl⟩
  case opens =>
    intro s core wg l bins hnone hroom
    exact ⟨_, fileThread_opens hnone hroom, by simp [bins], rfl⟩
  case aged =>
    intro s core n b w hb hw hres hrestoring hentered hpreq hgroups hdue
    have hdraw : s.drawable w = true := by
      simp [State.drawable, Workgroup.resuming, hres, hrestoring, hentered, hpreq, hgroups]
    have haged : s.binAged core n = some (s.drawBin (coreIdx core) n) := by
      have hready : ¬(s.cycles (coreClu w.core) < b.since + w.kernel.binAge ∧ b.threads.length < 27) := by omega
      simp [State.binAged, hb, hw, hdraw, hready]
    rw [drawBin_eq hb hw] at haged
    exact ⟨_, _, runEvent_some (f := (·.binAged core n)) haged, rfl, rfl, rfl, by simp [State.coreAt],
      sameMemory_of_eq rfl rfl rfl, rfl⟩

end Sys2Proof.Machine
end

section
/-! The turns of a distributor (14_queues.md R312, R316; 03_execution.md R81, R82): a placement, a steal, and the end of a workgroup
that has exited. -/

namespace Sys2Proof.Machine

/-! ## Placement (R81, R312) -/

/-- The workgroup that number i of a batch becomes in a room. -/
def State.placedWg (s : State) (die clu : Nat) (b : Batch) (r : Region) (m : Room) (i : Nat) : Workgroup :=
  { m.taken die clu r b.kernel with
    id := s.nextId, index := Word.ofInt (b.first + (i : Int)), saveIdx := s.freeIndex r, placed := s.stamp, launch := b.launch
    node := b.node }

/-- R56, R78: how many groups a workgroup of a kernel is placed with. -/
def Kernel.launched (k : Kernel) : Nat := if k.width = 81 then k.groups / 3 else k.groups

section
variable (s : State) (die clu : Nat) (b : Batch) (r : Region) (m : Room) (i : Nat)

theorem placeOne_wgs : (s.placeOne die clu b r m i).wgs = s.wgs ++ [s.placedWg die clu b r m i] := rfl

theorem placeOne_groups : (s.placeOne die clu b r m i).groups =
    s.groups ++ (List.range b.kernel.launched).map (launchGroup (s.placedWg die clu b r m i) (m.banks.map BankRun.slot) s.stamp) := rfl

theorem placeOne_scr : (s.placeOne die clu b r m i).scr =
    s.scr.clear (coreIdx ⟨die, clu, m.core⟩ * scrSize + m.gran * granule)
      (coreIdx ⟨die, clu, m.core⟩ * scrSize + m.gran * granule + b.kernel.granules * granule) := rfl

end

/-- The state after the first workgroup of the head batch of a queue has taken a room. -/
def State.placeHead (s : State) (die clu key : Nat) (b : Batch) (q : List Batch) (r : Region) (m : Room) : State :=
  let t := (s.setSpawnQ key (tookFrom (b :: q) 0 1)).placeOne die clu b r m 0
  { t with stamp := t.stamp + 1 }

/-- The queue that loses some of its first batch. -/
theorem tookFrom_zero (b : Batch) (q : List Batch) (n : Nat) :
    tookFrom (b :: q) 0 n = if b.count ≤ n then q else { b with first := b.first + n, count := b.count - n } :: q := by
  simp [tookFrom, dropAt, updAt]

theorem placeHead_spawnQ (s : State) (die clu key : Nat) (b : Batch) (q : List Batch) (r : Region) (m : Room) :
    (s.placeHead die clu key b q r m).spawnQ key =
      if b.count ≤ 1 then q else { b with first := b.first + 1, count := b.count - 1 } :: q :=
  calc (s.placeHead die clu key b q r m).spawnQ key
    _ = (s.setSpawnQ key (tookFrom (b :: q) 0 1)).spawnQ key := rfl
    _ = tookFrom (b :: q) 0 1 := SMap.get_set_same ..
    _ = _ := tookFrom_zero ..

/-- A queue without a batch places nothing. -/
theorem placeFrom_nil {s : State} {die clu key : Nat} (h : s.spawnQ key = []) : s.placeFrom die clu key = none := by
  simp [State.placeFrom, h, indexOf?]

/-- The head batch of a queue places its first workgroup in the room found for it. -/
theorem placeFrom_cons {s u : State} {die clu key : Nat} {b : Batch} {q : List Batch} {r : Region} {m : Room}
    (hq : s.spawnQ key = b :: q) (hmark : s.marked b.region = false) (hone : b.coresident = false)
    (hregion : s.readRegion die b.region.ctx b.region.block = .ok (u, r))
    (hroom : u.roomsFor die clu r b.kernel 1 u.holders = some [m]) :
    s.placeFrom die clu key =
      some (u.placeHead die clu key b q r m) := by
  simp [State.placeFrom, State.placeHead, hq, indexOf?, hmark, hone, hregion, hroom, List.range_succ]

/-- R312: the first class of a distributor whose queue is not empty places. -/
theorem placement_of_first {s t : State} {die clu : Nat} {c : Trit} (hdie : die < 4) (hclu : clu < 27) (hup : s.dieDown die = false)
    (hhigher : ∀ c' : Trit, c.val < c'.val → s.spawnQ (spawnKey die clu c') = [])
    (hplace : s.placeFrom die clu (spawnKey die clu c) = some t) : s.placement die clu = some t := by
  have hskip : ∀ c' : Trit, c.val < c'.val → s.placeFrom die clu (spawnKey die clu c') = none := fun c' h =>
    placeFrom_nil (hhigher c' h)
  simp only [State.placement, hup, show ¬(die > 3) by omega, show ¬(clu > 26) by omega, Bool.false_eq_true, or_self, if_false]
  cases c with
  | pos => simp [hplace]
  | zero => simp [hplace, hskip .pos (by decide)]
  | neg => simp [hplace, hskip .pos (by decide), hskip .zero (by decide)]

/-- A cleared run of a map reads as the default. -/
theorem SMap.get_clear {α : Type} (d : α) (m : SMap α) {lo hi n : Nat} (hlo : lo ≤ n) (hhi : n < hi) :
    SMap.get d (m.clear lo hi) n = d := by
  induction m with
  | nil => rfl
  | cons e m ih =>
    simp only [SMap.clear, List.filter_cons] at ih ⊢
    split
    next hkept =>
      have hne : e.1 ≠ n := by
        simp only [Bool.or_eq_true, decide_eq_true_eq] at hkept
        omega
      simp only [SMap.get, hne, if_false, ih]
    next => exact ih

/-- R81: the run of a workgroup that is placed reads 0. -/
theorem placeOne_scrGet {s : State} {die clu : Nat} {b : Batch} {r : Region} {m : Room} {i o : Nat} (hlo : m.gran * 2187 ≤ o)
    (hhi : o < (m.gran + b.kernel.granules) * 2187) :
    (s.placeOne die clu b r m i).scrGet (coreIdx ⟨die, clu, m.core⟩) o = Tryte.ofInt 0 := by
  rw [State.scrGet, placeOne_scr]
  refine SMap.get_clear _ _ ?_ ?_ <;> simp only [granule] <;> omega

/-- R112, R124: a lane of a workgroup at placement holds no thread, or one that is ready at the kernel's entry. -/
theorem launchLane_fresh (w : Workgroup) (thread bank : Nat) :
    (launchLane w thread bank).st = .bornExited ∨
      ((launchLane w thread bank).st = .ready ∧ (launchLane w thread bank).pc = w.kernel.entry ∧
        (launchLane w thread bank).thread < w.kernel.threads ∧
        (launchLane w thread bank).rng =
          Word.ofInt (w.region.seed.val + 3 ^ 13 * w.index.val + (launchLane w thread bank).thread) ∧
        (launchLane w thread bank).fs = .none ∧
        ∀ n, (launchLane w thread bank).rdG n = Word.ofInt 0 ∧ (launchLane w thread bank).rdH n = Word.ofInt 0 ∧
          (n ≠ 0 → (launchLane w thread bank).rdK n = Trits.ofInt 3 0)) := by
  by_cases h : thread < w.kernel.threads
  · refine .inr ?_
    rw [show launchLane w thread bank = _ from if_pos h]
    refine ⟨rfl, rfl, h, rfl, rfl, fun n => ⟨?_, rfl, fun hn => ?_⟩⟩
    · simp only [Lane.rdG]; split <;> rfl
    · simp only [Lane.rdK, hn, if_false]; rfl
  · exact .inl (by simp [launchLane, h, Lane.absent])

/-- R81, R112: the groups of a workgroup that is placed. -/
theorem launchGroup_lanes {w : Workgroup} {slots : List Nat} {stamp j : Nat} {l : Lane} (h : l ∈ (launchGroup w slots stamp j).lanes) :
    ∃ thread bank, l = launchLane w thread bank := by
  simp only [launchGroup, List.mem_map] at h
  obtain ⟨i, -, rfl⟩ := h
  exact ⟨_, _, rfl⟩

/-! ## Stealing (R316) -/

theorem neighbours_length {die : Nat} (clu : Nat) (hdie : die < 4) : (neighbours die clu).length = 107 := by
  have : ∀ d < 4, ((List.range 4).filter (· != d)).length = 3 := by decide
  simp [neighbours, List.length_flatMap, this die hdie]

theorem headKey_none {s : State} {die clu : Nat} (h : ∀ c : Trit, s.spawnQ (spawnKey die clu c) = []) : s.headKey die clu = none := by
  simp [State.headKey, h]

/-- Where the lowest of a range meets a test that none below it does, it is found. -/
theorem find?_range_eq {n k : Nat} {p : Nat → Bool} (hk : k < n) (hp : p k = true) (hbelow : ∀ i < k, p i = false) :
    (List.range n).find? p = some k := by
  rw [List.find?_range_eq_some]
  exact ⟨hp, by simpa using hk, fun j hj => by simpa using hbelow j hj⟩

/-- R316: the batch that an idle distributor takes: of the first neighbour in turn that has one to take. -/
theorem stealBatch_eq {s : State} {die clu key k : Nat} {n : Nat × Nat} {b : Batch} (hdie : die < 4) (hup : s.dieDown die = false)
    (hidle : ∀ c : Trit, s.spawnQ (spawnKey die clu c) = [])
    (hslot : ∃ c, c < 9 ∧ (s.holders.filter fun w => w.core == ⟨die, clu, c⟩).length < 27) (hk : k < 107)
    (hbelow : ∀ i m, i < k → (neighbours die clu)[(s.polls.get 0 (die * 27 + clu) + i) % 107]? = some m → s.stealable die m = none)
    (hn : (neighbours die clu)[(s.polls.get 0 (die * 27 + clu) + k) % 107]? = some n)
    (hsteal : s.stealable die n = some (key, b)) :
    s.stealBatch die clu =
      some (let h := (b.count + 1) / 2
        let s' : State := { s with polls := s.polls.set 0 (die * 27 + clu) ((s.polls.get 0 (die * 27 + clu) + k + 1) % 107) }
        let t := s'.setSpawnQ key (tookFrom (s'.spawnQ key) 0 h)
        let mine := spawnKey die clu b.region.cls
        t.setSpawnQ mine ({ b with count := h } :: t.spawnQ mine)) := by
  have hlen := neighbours_length clu hdie
  have hfirst : (List.range 107).find? (fun i =>
      ((neighbours die clu)[(s.polls.get 0 (die * 27 + clu) + i) % 107]?.bind (s.stealable die)).isSome) = some k := by
    refine find?_range_eq hk (by simp [hn, hsteal]) fun i hi => ?_
    cases hm : (neighbours die clu)[(s.polls.get 0 (die * 27 + clu) + i) % 107]? with
    | none => rfl
    | some m => simp [hbelow i m hi hm]
  have hroom : ((List.range 9).any fun c => decide ((((s.holders.filter fun w => w.core.die == die && w.core.cluster == clu).filter
      fun w => w.core.core == c)).length < 27)) = true := by
    obtain ⟨c, hc, hfew⟩ := hslot
    refine List.any_eq_true.2 ⟨c, by simpa using hc, ?_⟩
    rw [decide_eq_true_eq, List.filter_filter]
    refine lt_of_eq_of_lt (congrArg List.length (List.filter_congr fun w _ => ?_)) hfew
    obtain ⟨d, cl, co⟩ := w.core
    rw [Bool.eq_iff_iff]
    simp
    tauto
  simp only [State.stealBatch, hup, headKey_none hidle, hroom, hlen, hfirst, hn, hsteal, Option.isSome_none, Bool.not_true,
    Bool.or_self, Bool.false_eq_true, if_false, Option.bind_eq_bind, Option.bind_some]
  rfl

/-! ## The turns of the statement -/

/-- Settles O49: the first class with a batch places (placement_of_first, placeFrom_cons), an idle distributor takes from the first
neighbour in turn that has a batch to take (stealBatch_eq), and goneWg leaves neither a workgroup nor a group of its number. -/
theorem placementTurns : Obligations.PlacementTurns := by
  refine ⟨?places, ?steals, ?gone⟩
  case places =>
    intro s u die clu c b q r m hdie hclu hup hhigher hq hmark hone hregion hroom
    have hplaced := placement_of_first hdie hclu hup hhigher (placeFrom_cons hq hmark hone hregion hroom)
    let v := u.setSpawnQ (spawnKey die clu c) (tookFrom (b :: q) 0 1)
    let w := v.placedWg die clu b r m 0
    have hindex : w.index = Word.ofInt b.first := by simp [w, State.placedWg]
    refine ⟨_, w, (List.range b.kernel.launched).map (launchGroup w (m.banks.map BankRun.slot) v.stamp),
      runEvent_some (f := (·.placement die clu)) hplaced, rfl, rfl, rfl, rfl, rfl, hindex, rfl, rfl, placeHead_spawnQ .., ?zeroed,
      rfl, ?groups⟩
    case zeroed => exact fun o hlo hhi => placeOne_scrGet hlo hhi
    case groups =>
      intro g hg
      obtain ⟨j, -, rfl⟩ := List.mem_map.1 hg
      refine ⟨rfl, rfl, rfl, rfl, fun _ => rfl, fun l hl => ?_⟩
      obtain ⟨thread, bank, rfl⟩ := launchGroup_lanes hl
      have hlane := launchLane_fresh w thread bank
      rw [hindex] at hlane
      exact hlane
  case steals =>
    intro s die clu key k n b more hdie hclu hup hidle hslot at_ hk hbelow hn hsteal hkey h s' t mine
    refine runEvent_some (f := fun s => if die < 4 ∧ clu < 27 then s.stealBatch die clu else none) ?_
    rw [if_pos ⟨hdie, hclu⟩, stealBatch_eq hdie hup hidle hslot hk hbelow hn hsteal]
    have hleft : tookFrom (s'.spawnQ key) 0 h =
        if b.count ≤ h then more else { b with first := b.first + h, count := b.count - h } :: more := by
      rw [show s'.spawnQ key = b :: more from hkey, tookFrom_zero]
    simp only [t, ← hleft]
    rfl
  case gone =>
    intro s w hw hst hentry howed
    have hgone : s.workgroupGone w.id = some (s.goneWg w) := by
      simp [State.workgroupGone, hw, hst, hentry, howed]
    refine ⟨_, runEvent_some (f := (·.workgroupGone w.id)) hgone, rfl, fun v hv => ?_, fun g hg => ?_⟩
    · simpa using (List.mem_filter.1 hv).2
    · simpa using (List.mem_filter.1 hg).2

end Sys2Proof.Machine
end

section
/-! The completion of an atomic that is an acquire (10_memories.md R252, 03_execution.md R63): the clean lines of its core's L1 leave. -/

namespace Sys2Proof.Machine

/-- An ATOM with an acquire of the package's scope, performed and not yet complete. -/
def acquireDone : Pending :=
  { id := 5, word := wordOf (.atom ⟨.scr, .add, false, .acq, .pkg, 6, 4, .always, 1⟩), pc := zeroW, payload := 0, slot := 1
    counted := true, set := [], lanes := [], performed := true, stores := [], todo := [] }

/-- A clean line of an L1. -/
def cleanLine : L1Line :=
  { ctx := 0, line := 7
    home := { key := ⟨false, 0, false, 5, 1, false⟩, tryte := 0, chan := 0, ctx := (loadWorkgroup 0 ⟨0, 0, 0⟩).region.ctx, vline := 7
              l1 := true, shape := .one, tab := 0, entry := 0 }
    trytes := [], dirty := [], bad := [], by_ := [] }

/-- A machine with one group, of that atomic, whose core holds that line. -/
def acquireDue : State :=
  { State.reset with wgs := [loadWorkgroup 0 ⟨0, 0, 0⟩], groups := [{ loadGroup 0 0 0 with pend := [acquireDone] }]
                     cores := [(0, { CoreState.empty with l1 := [cleanLine] })] }

/-- What the statement's premises ask of that machine. -/
theorem acquireDue_pending :
    acquireDue.wgOf 0 = some (loadWorkgroup 0 ⟨0, 0, 0⟩) ∧ acquireDue.dieDown 0 = false ∧
      acquireDone.instr = some (.atom ⟨.scr, .add, false, .acq, .pkg, 6, 4, .always, 1⟩) := by decide +kernel

/-- The core's L1 is empty once the atomic has completed. -/
theorem acquireDue_completes :
    (match exec (.memoryWriteComplete ⟨0, 0⟩ 0) acquireDue with
      | .next t => (t.coreAt 0).l1
      | _ => [cleanLine]) = [] := by decide +kernel

/-- Without the acquire the line would still be held. -/
theorem acquireDue_completePend : ((acquireDue.completePend ⟨0, 0⟩ acquireDone).coreAt 0).l1 = [cleanLine] := by decide +kernel

/-- Refutes O45: the clause on ATOM leaves out its acquire, which the clauses on ATOMR, CAS and the strong loads have. In
acquireDue an ATOM of order acq completes and the clean line of its core's L1 leaves (acquireDue_completes), as R252 says. -/
theorem not_longWordsComplete : ¬ Obligations.LongWordsComplete := by
  unfold Obligations.LongWordsComplete
  rintro ⟨-, hturns⟩
  obtain ⟨hwg, hdie, hinstr⟩ := acquireDue_pending
  obtain ⟨hperformed, -⟩ := hturns acquireDue ⟨0, 0⟩ 0 _ _ acquireDone hwg rfl rfl hdie rfl
  obtain ⟨-, -, -, -, -, hatom⟩ := hperformed rfl
  have hcompletes := acquireDue_completes
  rw [hatom _ hinstr] at hcompletes
  exact absurd (acquireDue_completePend.symm.trans hcompletes) (by simp)

end Sys2Proof.Machine
end

section
/-! The word of an instruction reads back (04_instruction_words.md R84 to R91): for the long-latency words, what the decoder makes
of the word that the encoder gives. -/

namespace Sys2Proof.Machine

/-! ## Strings of trits (R13) -/

theorem dropInt_low {n : Nat} {r : Int} (hr : r.natAbs ≤ maxMag n) (k : Int) : dropInt n (r + 3 ^ n * k) = k := by
  rw [add_comm, mul_comm, dropInt_mul_add hr]

theorem wrapInt_low {n : Nat} {r : Int} (hr : r.natAbs ≤ maxMag n) (k : Int) : wrapInt n (r + 3 ^ n * k) = r := by
  rw [add_comm, mul_comm, wrapInt_mul_add hr]

theorem wrapInt_of_natAbs_le {n : Nat} {r : Int} (hr : r.natAbs ≤ maxMag n) : wrapInt n r = r := by
  simpa using wrapInt_low hr 0

theorem natAbs_low_le {n m : Nat} {r k : Int} (hr : r.natAbs ≤ maxMag n) (hk : k.natAbs ≤ maxMag m) :
    (r + 3 ^ n * k).natAbs ≤ maxMag (n + m) := by
  have hn := two_maxMag n
  have hmul : (3 ^ n * k).natAbs = k.natAbs * 3 ^ n := by rw [mul_comm, natAbs_mul_three_pow]
  have hle : k.natAbs * 3 ^ n ≤ maxMag m * 3 ^ n := Nat.mul_le_mul_right _ hk
  rw [natAbs_le_maxMag_iff]
  calc 2 * (r + 3 ^ n * k).natAbs + 1 ≤ 2 * maxMag n + 1 + 2 * (maxMag m * 3 ^ n) := by omega
    _ = (2 * maxMag m + 1) * 3 ^ n := by rw [hn]; ring
    _ = 3 ^ (n + m) := by rw [two_maxMag, pow_add, mul_comm]

/-- Trits dropped in two goes. -/
theorem dropInt_dropInt (m n : Nat) (v : Int) : dropInt n (dropInt m v) = dropInt (m + n) v := by
  have hlow := natAbs_low_le (natAbs_wrapInt_le m v) (natAbs_wrapInt_le n (dropInt m v))
  have hsplit : v = wrapInt m v + 3 ^ m * wrapInt n (dropInt m v) + 3 ^ (m + n) * dropInt n (dropInt m v) := by
    have hm := wrapInt_add_dropInt m v
    have hn := wrapInt_add_dropInt n (dropInt m v)
    rw [pow_add]
    linear_combination -hm - 3 ^ m * hn
  conv_rhs => rw [hsplit]
  exact (dropInt_low hlow _).symm

/-! ## Fields (R84) -/

/-- Each field of a word fits its trits. -/
structure Fits (f : Fields) : Prop where
  op : f.op.natAbs ≤ maxMag 5
  var : f.var.natAbs ≤ maxMag 2
  d : f.d.natAbs ≤ maxMag 4
  a : f.a.natAbs ≤ maxMag 4
  b : f.b.natAbs ≤ maxMag 4
  k : f.k.natAbs ≤ maxMag 2
  ks : f.ks.natAbs ≤ maxMag 1
  w : f.w.natAbs ≤ maxMag 2
  wm : f.wm.natAbs ≤ maxMag 1
  bm : f.bm.natAbs ≤ maxMag 1
  x : f.x.natAbs ≤ maxMag 1

theorem natAbs_word_le {f : Fields} (h : Fits f) : f.word.natAbs ≤ maxMag 27 := by
  obtain ⟨hop, hvar, hd, ha, hb, hk, hks, hw, hwm, hbm, hx⟩ := h
  exact natAbs_low_le (n := 5) (m := 22) hop <| natAbs_low_le (n := 2) (m := 20) hvar <| natAbs_low_le (n := 4) (m := 16) hd <|
    natAbs_low_le (n := 4) (m := 12) ha <| natAbs_low_le (n := 4) (m := 8) hb <| natAbs_low_le (n := 2) (m := 6) hk <|
    natAbs_low_le (n := 1) (m := 5) hks <| natAbs_low_le (n := 2) (m := 3) hw <| natAbs_low_le (n := 1) (m := 2) hwm <|
    natAbs_low_le (n := 1) (m := 1) hbm hx

theorem ofWord_word {f : Fields} (h : Fits f) : Fields.ofWord f.word = f := by
  obtain ⟨hop, hvar, hd, ha, hb, hk, hks, hw, hwm, hbm, hx⟩ := h
  have h5 := dropInt_low hop (f.var + 3 ^ 2 * (f.d + 3 ^ 4 * (f.a + 3 ^ 4 * (f.b + 3 ^ 4 * (f.k + 3 ^ 2 * (f.ks + 3 ^ 1 * (f.w +
    3 ^ 2 * (f.wm + 3 ^ 1 * (f.bm + 3 ^ 1 * f.x)))))))))
  have h7 := (congrArg (dropInt 2) h5).trans (dropInt_low hvar _)
  have h11 := (congrArg (dropInt 4) h7).trans (dropInt_low hd _)
  have h15 := (congrArg (dropInt 4) h11).trans (dropInt_low ha _)
  have h19 := (congrArg (dropInt 4) h15).trans (dropInt_low hb _)
  have h21 := (congrArg (dropInt 2) h19).trans (dropInt_low hk _)
  have h22 := (congrArg (dropInt 1) h21).trans (dropInt_low hks _)
  have h24 := (congrArg (dropInt 2) h22).trans (dropInt_low hw _)
  have h25 := (congrArg (dropInt 1) h24).trans (dropInt_low hwm _)
  have h26 := (congrArg (dropInt 1) h25).trans (dropInt_low hbm _)
  simp only [dropInt_dropInt, Nat.reduceAdd] at h7 h11 h15 h19 h21 h22 h24 h25 h26
  have hword : f.word = f.op + 3 ^ 5 * (f.var + 3 ^ 2 * (f.d + 3 ^ 4 * (f.a + 3 ^ 4 * (f.b + 3 ^ 4 * (f.k + 3 ^ 2 * (f.ks +
      3 ^ 1 * (f.w + 3 ^ 2 * (f.wm + 3 ^ 1 * (f.bm + 3 ^ 1 * f.x))))))))) := by simp only [Fields.word, pow_one]
  simp only [Fields.ofWord, hword, h5, h7, h11, h15, h19, h21, h22, h24, h25, h26, wrapInt_low hop, wrapInt_low hvar, wrapInt_low hd,
    wrapInt_low ha, wrapInt_low hb, wrapInt_low hk, wrapInt_low hks, wrapInt_low hw, wrapInt_low hwm, wrapInt_low hbm,
    wrapInt_of_natAbs_le hx]

/-! ## The decoder (R84, R100) -/

/-- An instruction whose row reads its fields back is what its word decodes to. -/
theorem decodeWord_wordOf {i : Instr} {f : Fields} {r : OpRow} (hf : i.fields = some f) (hfits : Fits f)
    (hr : findRow opRows f.op = some r) (hb : r.build f = some i) (hwf : i.wellFormed = true) :
    decodeWord (wordOf i).val = .ok i := by
  have hval : (wordOf i).val = f.word := by
    simp only [wordOf, encode, hf, Option.map_some, Option.getD_some, Word.ofInt, Trits.ofInt,
      wrapInt_of_natAbs_le (natAbs_word_le hfits)]
  simp [decodeWord, hval, ofWord_word hfits, decodeFields, hr, hb, hwf, hf]

theorem instr_of_wordOf {p : Pending} {i : Instr} (hp : p.word = wordOf i) (h : decodeWord (wordOf i).val = .ok i) :
    p.instr = some i := by simp only [Pending.instr, hp, h]

/-! ## Fields that are read back (R86 to R91) -/

theorem finOf_val {n : Nat} (k : Fin n) {v : Int} (h : v = k.val) : finOf n v = some k := by
  subst h
  simp [finOf]

theorem gOf_encG (n : Fin 81) : gOf (encG n) = some n := finOf_val n (by simp [encG])
theorem sOf_encS (n : Fin 27) : sOf (encS n) = some n := finOf_val n (by simp [encS])
theorem kn2Of_sub (n : Fin 9) : kn2Of (n.val - 4) = some n := finOf_val n (by simp)
theorem tyOf_code (ty : Ty) : tyOf ty.code = some ty := by cases ty <;> rfl
theorem widthOf_code (wd : Width) : widthOf wd.code = some wd := by cases wd <;> rfl
theorem whenOf_code (t : MstatWhen) : whenOf t.code = some t := by cases t <;> rfl
theorem atomOpOf_code (o : AtomOp) : atomOpOf o.code = some o := by cases o <;> rfl
theorem tqOf_code (t : Bool) (o : MemOrder) : tqOf (tqCode t o) = some (t, o) := by cases t <;> cases o <;> rfl
theorem scopeOf_code (sc : Scope) : Sys2Proof.scopeOf sc.code = some sc := by cases sc <;> rfl

theorem trits_ofInt_val {n : Nat} (v : Trits n) : Trits.ofInt n v.val = v := by
  obtain ⟨v, hv⟩ := v
  simp only [Trits.ofInt, Trits.mk.injEq]
  exact wrapInt_of_natAbs_le (by omega)

theorem natAbs_encG (n : Fin 81) : (encG n).natAbs ≤ maxMag 4 := by simp only [encG, maxMag]; omega
theorem natAbs_encS (n : Fin 27) : (encS n).natAbs ≤ maxMag 4 := by simp only [encS, maxMag]; omega
theorem natAbs_encW (n : Fin 9) : (encW n).natAbs ≤ maxMag 2 := by simp only [encW, maxMag]; omega
theorem natAbs_trits {n : Nat} (v : Trits n) : v.val.natAbs ≤ maxMag n := by have := v.ok; omega

theorem natAbs_pred (p : Pred) : p.k.natAbs ≤ maxMag 2 ∧ p.ks.natAbs ≤ maxMag 1 := by
  cases p <;> simp only [Pred.k, Pred.ks, maxMag] <;> omega

/-- R90: the predicate of a word. -/
theorem predOf_fields {f : Fields} {p : Pred} (hk : f.k = p.k) (hks : f.ks = p.ks) : predOf f = some p := by
  cases p <;> simp [predOf, hk, hks, Pred.k, Pred.ks, kn2Of_sub]

/-- R88: the second source of a long-latency word. -/
theorem longSrcOf_fields {f : Fields} {b : Src} (hb : f.b = b.field) (hbm : f.bm = b.mode) (h : b.isH = false) :
    longSrcOf f = some b := by
  cases b with
  | g n => simpa [longSrcOf, hb, hbm, Src.field, Src.mode, encG] using gOf_encG n
  | h n => simp [Src.isH] at h
  | s n => simpa [longSrcOf, hb, hbm, Src.field, Src.mode, encS] using sOf_encS n
  | imm v => simp [longSrcOf, hb, hbm, Src.field, Src.mode, Fields.imm, trits_ofInt_val]

theorem simmOf_fields {f : Fields} {b : SImm} (hb : f.b = b.field) (hbm : f.bm = b.mode) : simmOf f = some b := by
  cases b with
  | s n => simpa [simmOf, hb, hbm, SImm.field, SImm.mode, encS] using sOf_encS n
  | imm v => simp [simmOf, hb, hbm, SImm.field, SImm.mode, Fields.imm, trits_ofInt_val]

theorem natAbs_src (b : Src) : b.field.natAbs ≤ maxMag 4 ∧ b.mode.natAbs ≤ maxMag 1 := by
  cases b with
  | imm v => exact ⟨natAbs_trits v, by simp [Src.mode]⟩
  | _ => simp only [Src.field, Src.mode, maxMag]; omega

theorem natAbs_simm (b : SImm) : b.field.natAbs ≤ maxMag 4 ∧ b.mode.natAbs ≤ maxMag 1 := by
  cases b with
  | imm v => exact ⟨natAbs_trits v, by simp [SImm.mode]⟩
  | _ => simp only [SImm.field, SImm.mode, maxMag]; omega

/-- R268, Table 4. -/
theorem qualOf_code (q : Qual) : qualOf q.code = some q := by
  obtain ⟨remote, order, scope⟩ := q
  cases scope <;> cases order <;> cases remote <;> rfl

theorem natAbs_form (form : AccForm) : form.field.natAbs ≤ maxMag 4 := by
  cases form with
  | weak v => exact natAbs_trits v
  | strong q =>
    obtain ⟨remote, order, scope⟩ := q
    cases scope <;> cases order <;> cases remote <;> decide

/-- R267, Table 3: the space and the form of a word of the access map. -/
theorem accOf_fields {f : Fields} {sp : Space} {form : AccForm} (hcode : f.spaceCode = form.spaceCode sp) (hb : f.b = form.field)
    (hok : form.okSpace sp = true) : accOf f = some (sp, form) := by
  cases form with
  | weak v =>
    have hweak : weakSpaceOf sp.weakCode = some sp := by cases sp <;> rfl
    simp only [accOf, hcode, AccForm.spaceCode, hweak, hb, AccForm.field, Fields.imm, trits_ofInt_val]
  | strong q =>
    have hstrong : weakSpaceOf sp.strongCode = none ∧ strongSpaceOf sp.strongCode = some sp := by
      cases sp with
      | priv => simp [AccForm.okSpace] at hok
      | _ => exact ⟨rfl, rfl⟩
    simp only [accOf, hcode, AccForm.spaceCode, hstrong, hb, AccForm.field, qualOf_code]
    rfl

/-- The space code and the width of a word of the access map. -/
theorem spaceCode_fields {f : Fields} {c : Int} {wd : Width} (hvar : f.var = wd.code + 3 * wrapInt 1 c) (hbm : f.bm = dropInt 1 c) :
    f.spaceCode = c ∧ wrapInt 1 f.var = wd.code := by
  have hwd : wd.code.natAbs ≤ maxMag 1 := by cases wd <;> decide
  have hsplit := wrapInt_add_dropInt 1 c
  have hdrop := dropInt_low hwd (wrapInt 1 c)
  have hwrap := wrapInt_low hwd (wrapInt 1 c)
  rw [pow_one] at hsplit hdrop hwrap
  rw [Fields.spaceCode, hvar, hbm, hdrop, hwrap]
  exact ⟨by linarith, rfl⟩

/-! ## The long-latency words -/

theorem fits_longF {op var d a b bm : Int} {w : Fin 9} {p : Pred} (hop : op.natAbs ≤ maxMag 5) (hvar : var.natAbs ≤ maxMag 2)
    (hd : d.natAbs ≤ maxMag 4) (ha : a.natAbs ≤ maxMag 4) (hb : b.natAbs ≤ maxMag 4) (hbm : bm.natAbs ≤ maxMag 1) :
    Fits (longF op var d a b bm w p) := by
  obtain ⟨hk, hks⟩ := natAbs_pred p
  exact ⟨hop, hvar, hd, ha, hb, hk, hks, natAbs_encW w, by simp [longF, maxMag], hbm, by simp [longF]⟩

theorem natAbs_ty (ty : Ty) : ty.code.natAbs ≤ maxMag 2 := by cases ty <;> decide

/-- The long floats of one source. -/
theorem decodeWord_flong {mk : FlongArgs → Instr} {op : Int} {a : FlongArgs} (hop : op.natAbs ≤ maxMag 5)
    (hfields : (mk a).fields = some (encFlong op a))
    (hrow : ∃ r, findRow opRows op = some r ∧ r.build = fun f => (flongOf f).map mk) (hwf : (mk a).wellFormed = true) :
    decodeWord (wordOf (mk a)).val = .ok (mk a) := by
  obtain ⟨r, hr, hbuild⟩ := hrow
  refine decodeWord_wordOf hfields (fits_longF hop (natAbs_ty _) (natAbs_encG _) (natAbs_encG _) (by decide) (by decide)) hr ?_ hwf
  have hp : predOf (encFlong op a) = some a.p := predOf_fields rfl rfl
  simp only [hbuild, flongOf, hp]
  simp [encFlong, longF, tyOf_code, gOf_encG, wOf, encW, kn2Of_sub]

theorem decodeWord_fdiv {a : FdivArgs} (hwf : (Instr.fdiv a).wellFormed = true) :
    decodeWord (wordOf (.fdiv a)).val = .ok (.fdiv a) := by
  obtain ⟨hb, hbm⟩ := natAbs_src a.b
  have hh : a.b.isH = false := by
    simp only [Instr.wellFormed, FdivArgs.ok, Bool.and_eq_true, Bool.not_eq_true'] at hwf
    exact hwf.1.2
  refine decodeWord_wordOf rfl (fits_longF (by decide) (natAbs_ty _) (natAbs_encG _) (natAbs_encG _) hb hbm) rfl ?_ hwf
  have hp : predOf (longF (-33) a.ty.code (encG a.d) (encG a.a) a.b.field a.b.mode a.w a.p) = some a.p := predOf_fields rfl rfl
  have hsrc : longSrcOf (longF (-33) a.ty.code (encG a.d) (encG a.a) a.b.field a.b.mode a.w a.p) = some a.b :=
    longSrcOf_fields rfl rfl hh
  simp only [hp, hsrc]
  simp [longF, tyOf_code, gOf_encG, wOf, encW, kn2Of_sub]

theorem decodeWord_mrd {a : MrdArgs} : decodeWord (wordOf (.mrd a)).val = .ok (.mrd a) := by
  obtain ⟨hb, hbm⟩ := natAbs_simm a.b
  refine decodeWord_wordOf rfl (fits_longF (by decide) (by decide) (natAbs_encG _) (natAbs_encS _) hb hbm) rfl ?_ rfl
  have hp : predOf (longF 114 0 (encG a.d) (encS a.tile) a.b.field a.b.mode a.w a.p) = some a.p := predOf_fields rfl rfl
  have hrow : simmOf (longF 114 0 (encG a.d) (encS a.tile) a.b.field a.b.mode a.w a.p) = some a.b := simmOf_fields rfl rfl
  simp only [hp, hrow]
  simp [longF, sOf_encS, gOf_encG, wOf, encW, kn2Of_sub]

theorem decodeWord_mstat {a : MstatArgs} : decodeWord (wordOf (.mstat a)).val = .ok (.mstat a) := by
  have hwhen : a.when_.code.natAbs ≤ maxMag 2 := by cases a.when_ <;> decide
  have hitem : ((a.item.val : Nat) : Int).natAbs ≤ maxMag 4 := by simp only [maxMag]; omega
  refine decodeWord_wordOf rfl (fits_longF (by decide) hwhen (natAbs_encG _) (by decide) hitem (by decide)) rfl ?_ rfl
  have hp : predOf (longF 117 a.when_.code (encG a.d) 0 a.item.val 0 a.w a.p) = some a.p := predOf_fields rfl rfl
  have hread : finOf 3 ((a.item.val : Nat) : Int) = some a.item := finOf_val _ rfl
  simp only [hp]
  simp [longF, whenOf_code, gOf_encG, hread, wOf, encW, kn2Of_sub]

/-! ### Accesses (R267, R269) -/

theorem fits_accF {op d a : Int} {sp : Space} {wd : Width} {form : AccForm} {w : Fin 9} {p : Pred} (hop : op.natAbs ≤ maxMag 5)
    (hd : d.natAbs ≤ maxMag 4) (ha : a.natAbs ≤ maxMag 4) : Fits (accF op sp wd form d a (encW w) 1 p) := by
  obtain ⟨hk, hks⟩ := natAbs_pred p
  have hwd : wd.code.natAbs ≤ maxMag 1 := by cases wd <;> decide
  have hcode : (form.spaceCode sp).natAbs ≤ maxMag (1 + 1) := by
    cases form <;> simp only [AccForm.spaceCode] <;> cases sp <;> decide
  have hvar := natAbs_low_le hwd (natAbs_wrapInt_le 1 (form.spaceCode sp))
  rw [pow_one] at hvar
  exact ⟨hop, hvar, hd, ha, natAbs_form form, hk, hks, natAbs_encW w, by simp [accF, maxMag], natAbs_dropInt_le hcode, by simp [accF]⟩

/-- The words of the access map with g registers. -/
theorem decodeWord_mem {i : Instr} {op : Int} {a : MemArgs} (hop : op.natAbs ≤ maxMag 5) (hfields : i.fields = some (encMem op a))
    (hrow : ∃ r, findRow opRows op = some r ∧ (memOf (encMem op a) = some a → r.build (encMem op a) = some i))
    (hok : a.form.okSpace a.space = true) (hwf : i.wellFormed = true) : decodeWord (wordOf i).val = .ok i := by
  obtain ⟨r, hr, hbuild⟩ := hrow
  refine decodeWord_wordOf hfields (fits_accF hop (natAbs_encG _) (natAbs_encG _)) hr (hbuild ?_) hwf
  have hp : predOf (encMem op a) = some a.p := predOf_fields rfl rfl
  obtain ⟨hcode, hwd⟩ := spaceCode_fields (f := encMem op a) (c := a.form.spaceCode a.space) (wd := a.wd) rfl rfl
  have hacc : accOf (encMem op a) = some (a.space, a.form) := accOf_fields hcode rfl hok
  simp only [memOf, hp, hacc, hwd, widthOf_code]
  simp [encMem, accF, gOf_encG, wOf, encW, kn2Of_sub]

/-- The uniform words of the access map. -/
theorem decodeWord_uni {i : Instr} {op : Int} {a : UniArgs} (hop : op.natAbs ≤ maxMag 5) (hfields : i.fields = some (encUni op a))
    (hrow : ∃ r, findRow opRows op = some r ∧ (uniOf (encUni op a) = some a → r.build (encUni op a) = some i))
    (hok : a.form.okSpace a.space = true) (hwf : i.wellFormed = true) : decodeWord (wordOf i).val = .ok i := by
  obtain ⟨r, hr, hbuild⟩ := hrow
  refine decodeWord_wordOf hfields (fits_accF hop (natAbs_encS _) (natAbs_encS _)) hr (hbuild ?_) hwf
  have hp : predOf (encUni op a) = some a.p := predOf_fields rfl rfl
  obtain ⟨hcode, hwd⟩ := spaceCode_fields (f := encUni op a) (c := a.form.spaceCode a.space) (wd := a.wd) rfl rfl
  have hacc : accOf (encUni op a) = some (a.space, a.form) := accOf_fields hcode rfl hok
  simp only [uniOf, hp, hacc, hwd, widthOf_code]
  simp [encUni, accF, sOf_encS, wOf, encW, kn2Of_sub]

theorem mem_ok {a : MemArgs} {strong load : Bool} (h : a.ok strong load = true) :
    a.form.isStrong = strong ∧ a.form.okSpace a.space = true := by
  simp only [MemArgs.ok, Bool.and_eq_true, beq_iff_eq] at h
  obtain ⟨⟨⟨hform, hspace⟩, -⟩, -⟩ := h
  exact ⟨hform, hspace⟩

theorem uni_ok {a : UniArgs} {load : Bool} (h : a.ok load = true) : a.form.okSpace a.space = true := by
  simp only [UniArgs.ok, Bool.and_eq_true] at h
  obtain ⟨⟨hspace, -⟩, -⟩ := h
  exact hspace

theorem decodeWord_ld {a : MemArgs} (h : a.ok false true = true) : decodeWord (wordOf (.ld a)).val = .ok (.ld a) :=
  decodeWord_mem (op := 55) (by decide) rfl ⟨_, rfl, fun hb => by simp [hb, (mem_ok h).1]⟩ (mem_ok h).2 h

theorem decodeWord_ldStrong {a : MemArgs} (h : a.ok true true = true) :
    decodeWord (wordOf (.ldStrong a)).val = .ok (.ldStrong a) :=
  decodeWord_mem (op := 55) (by decide) rfl ⟨_, rfl, fun hb => by simp [hb, (mem_ok h).1]⟩ (mem_ok h).2 h

theorem decodeWord_st {a : MemArgs} (h : a.ok false false = true) : decodeWord (wordOf (.st a)).val = .ok (.st a) :=
  decodeWord_mem (op := 56) (by decide) rfl ⟨_, rfl, fun hb => by simp [hb, (mem_ok h).1]⟩ (mem_ok h).2 h

theorem decodeWord_stStrong {a : MemArgs} (h : a.ok true false = true) :
    decodeWord (wordOf (.stStrong a)).val = .ok (.stStrong a) :=
  decodeWord_mem (op := 56) (by decide) rfl ⟨_, rfl, fun hb => by simp [hb, (mem_ok h).1]⟩ (mem_ok h).2 h

theorem decodeWord_ldu {a : UniArgs} (h : a.ok true = true) : decodeWord (wordOf (.ldu a)).val = .ok (.ldu a) :=
  decodeWord_uni (op := 57) (by decide) rfl ⟨_, rfl, fun hb => by simp [hb]⟩ (uni_ok h) h

theorem decodeWord_stu {a : UniArgs} (h : a.ok false = true) : decodeWord (wordOf (.stu a)).val = .ok (.stu a) :=
  decodeWord_uni (op := 58) (by decide) rfl ⟨_, rfl, fun hb => by simp [hb]⟩ (uni_ok h) h

/-- The codes of the spaces and operations of an atomic (R269). -/
theorem atomCode_read {sp : Space} (h : sp ≠ .priv) (o : AtomOp) : (6 * sp.vCode + o.code - 12).natAbs ≤ maxMag (1 + 2) ∧
    spaceVOf ((6 * sp.vCode + o.code).fdiv 6) = some sp ∧ atomOpOf ((6 * sp.vCode + o.code).fmod 6) = some o := by
  cases sp with
  | priv => exact absurd rfl h
  | _ => cases o <;> exact ⟨by decide, rfl, rfl⟩

/-- R269: the words of the atomic map. -/
theorem decodeWord_atomic {i : Instr} {op : Int} {a : AtomArgs} (hop : op.natAbs ≤ maxMag 5) (hfields : i.fields = some (encAtom op a))
    (hrow : ∃ r, findRow opRows op = some r ∧ (atomOf (encAtom op a) = some a → r.build (encAtom op a) = some i))
    (hspace : a.space ≠ .priv) (hwf : i.wellFormed = true) : decodeWord (wordOf i).val = .ok i := by
  obtain ⟨r, hr, hbuild⟩ := hrow
  obtain ⟨hk, hks⟩ := natAbs_pred a.p
  obtain ⟨hcode, hsp, ho⟩ := atomCode_read hspace a.op
  have hsc : a.scope.code.natAbs ≤ maxMag 2 := by cases a.scope <;> decide
  have htq : (tqCode a.tryte a.order).natAbs ≤ maxMag 2 := by cases a.tryte <;> cases a.order <;> decide
  have hfits : Fits (encAtom op a) := ⟨hop, natAbs_wrapInt_le _ _, natAbs_encG _, natAbs_encG _, natAbs_low_le hsc htq, hk, hks,
    natAbs_encW _, by simp [encAtom, maxMag], natAbs_dropInt_le hcode, by simp [encAtom]⟩
  refine decodeWord_wordOf hfields hfits hr (hbuild ?_) hwf
  have hp : predOf (encAtom op a) = some a.p := predOf_fields rfl rfl
  have ham : (encAtom op a).atomicCode + 12 = 6 * a.space.vCode + a.op.code := by
    have hsplit := wrapInt_add_dropInt 2 (6 * a.space.vCode + a.op.code - 12)
    simp only [Fields.atomicCode, encAtom]
    linarith
  have hscope : wrapInt 2 (encAtom op a).b = a.scope.code := wrapInt_low hsc _
  have horder : dropInt 2 (encAtom op a).b = tqCode a.tryte a.order := dropInt_low hsc _
  simp only [atomOf, hp, ham, hsp, ho, hscope, horder, tqOf_code, scopeOf_code]
  simp [encAtom, gOf_encG, wOf, encW, kn2Of_sub]

theorem atom_ok {a : AtomArgs} (h : a.ok = true) : a.space ≠ .priv := by simpa [AtomArgs.ok] using h

theorem decodeWord_atom {a : AtomArgs} (h : a.ok = true) : decodeWord (wordOf (.atom a)).val = .ok (.atom a) :=
  decodeWord_atomic (op := 59) (by decide) rfl ⟨_, rfl, fun hb => by simp [hb]⟩ (atom_ok h) h

theorem decodeWord_atomr {a : AtomArgs} (h : a.ok = true) : decodeWord (wordOf (.atomr a)).val = .ok (.atomr a) :=
  decodeWord_atomic (op := 60) (by decide) rfl ⟨_, rfl, fun hb => by simp [hb]⟩ (atom_ok h) h

theorem decodeWord_cas {a : AtomArgs} (h : a.okCas = true) : decodeWord (wordOf (.cas a)).val = .ok (.cas a) := by
  have hspace : a.space ≠ .priv := by
    simp only [AtomArgs.okCas, Bool.and_eq_true, bne_iff_ne] at h
    exact h.1.1
  exact decodeWord_atomic (op := 61) (by decide) rfl ⟨_, rfl, fun hb => by simp [hb]⟩ hspace h

end Sys2Proof.Machine
end

section
/-! A long-latency word with no active element (03_execution.md R63, 05_registers.md R118): its inactive elements are written as it
issues, under the trits of its lanes, and it takes no wait slot. -/

namespace Sys2Proof.Machine

/-- What a long-latency word with no active element writes, as a word that lands at once. -/
def Issue.idle (x : Issue) : Pending :=
  { id := x.s.nextId, word := wordOf x.i, pc := x.pc, payload := x.pay, slot := x.i.slotOf.getD 0,
    counted := (x.again.map (·.slot)).getD false, set := x.active, todo := [],
    lanes := x.active.map fun j => PendLane.new j (x.pred j), performed := true, stores := [] }

theorem empty_eq (x : Issue) : x.empty = .done (x.s.updGroup x.r fun g => (g.landAll x.idle).release x.idle) := rfl

/-! ## What lands of a part that holds nothing -/

theorem trits_ext {n : Nat} {a b : Trits n} (h : a.val = b.val) : a = b := by
  obtain ⟨a, ha⟩ := a
  obtain ⟨b, hb⟩ := b
  simpa using h

/-- A string of three trits is given by its trits. -/
theorem trits_three (p : Trits 3) : Trits.ofInt 3 (p.trit 0 + 3 * p.trit 1 + 9 * p.trit 2) = p := by
  have hsum : p.trit 0 + 3 * p.trit 1 + 9 * p.trit 2 = p.val := by
    have h0 := wrapInt_add_dropInt 1 p.val
    have h1 := wrapInt_add_dropInt 1 (dropInt 1 p.val)
    have hlast : wrapInt 1 (dropInt 2 p.val) = dropInt 2 p.val :=
      wrapInt_of_natAbs_le (natAbs_dropInt_le (n := 1) (k := 2) (natAbs_trits p))
    have hzero : dropInt 0 p.val = p.val := by simp [dropInt, maxMag]
    rw [dropInt_dropInt] at h1
    simp only [Trits.trit, tritAt, hlast, hzero]
    linarith
  rw [hsum, trits_ofInt_val]

theorem governs_new (j : Nat) (p : Trits 3) (byWord : Bool) : (PendLane.new j p).governs byWord = p := by
  cases byWord
  · simpa [PendLane.governs, PendLane.new] using trits_three p
  · simp [PendLane.governs, PendLane.new]

/-- The registers that a landing result is written to, in their order. -/
def LongDest.written (d : LongDest) : List Nat :=
  if d.words = 3 ∧ d.num ≠ 0 then [d.num, d.num + 1, d.num + 2] else [d.num]

theorem land_new (j : Nat) (p : Trits 3) (d : LongDest) (x : Lane) : (PendLane.new j p).land d x =
    d.written.foldl (fun x n => x.wrG n (mergeBy d.byWord p (x.rdG n) zeroW)) x := by
  simp only [PendLane.land, governs_new, LongDest.written]
  split <;> rfl

theorem updLane_self (g : Group) (i : Nat) : (g.updLane i fun x => { x with fs := x.fs.or Flags.none }) = g := by
  have hid : (fun x : Lane => { x with fs := x.fs.or Flags.none }) = id := by
    funext x
    simp [Flags.or, Flags.none]
  simp only [Group.updLane, hid, updAt_eq_modify, List.modify_id]

/-- No flag is raised by parts that hold none. -/
theorem flags_new (g : Group) (js : List Nat) (p : Nat → Trits 3) :
    (js.map fun j => PendLane.new j (p j)).foldl (fun g (l : PendLane) => g.updLane l.lane fun x => { x with fs := x.fs.or l.flags }) g
      = g := by
  induction js with
  | nil => rfl
  | cons j js ih => exact (congrArg (fun h => List.foldl _ h _) (updLane_self g j)).trans ih

variable {x : Issue} {h : Group}

theorem landAll_idle_none (hd : x.idle.dest = none) : h.landAll x.idle = h := by
  simp only [Group.landAll, hd]
  exact flags_new ..

/-- In the lanes of a word whose destination is g registers, the elements that a trit − governs are zeroed. -/
theorem landAll_idle_g {d : LongDest} (hd : x.idle.dest = some d) (hs : d.toS = false) :
    h.landAll x.idle = zeroDead d.written d.byWord x h := by
  simp only [Group.landAll, hd, hs, Bool.false_eq_true, if_false]
  refine (flags_new ..).trans ?_
  simp only [Issue.idle, List.foldl_map]
  congr 1
  funext g j
  exact congrArg (g.updLane j) (funext (land_new j (x.pred j) d))

theorem landAll_idle_s {d : LongDest} (hd : x.idle.dest = some d) (hs : d.toS = true) :
    h.landAll x.idle = match x.active with
      | [] => h
      | l :: _ => h.wrS d.num (mergeBy d.byWord (x.pred l) (h.rdS d.num) zeroW) := by
  simp only [Group.landAll, hd, hs, if_true]
  refine (flags_new ..).trans ?_
  simp only [Issue.idle]
  cases x.active with
  | nil => rfl
  | cons l ls =>
    simp only [List.map_cons, governs_new]
    rfl

/-- Where a word of one register or of three has no active element, a triple at g0 is as a single g0: nothing is written. -/
theorem zeroDead_written (d words : Nat) (three byWord : Bool) (hwords : words = if three then 3 else 1) :
    zeroDead (LongDest.written ⟨false, d, words, byWord⟩) byWord = zeroDead (gRun d three) byWord := by
  subst hwords
  have hzero : ∀ (p : Trits 3) (lane : Lane), lane.wrG 0 (mergeBy byWord p (lane.rdG 0) zeroW) = lane := by simp [Lane.wrG]
  cases three with
  | false => simp [LongDest.written, gRun]
  | true =>
    by_cases hd : d = 0
    · subst hd
      funext x h
      simp [LongDest.written, gRun, zeroDead, hzero]
    · simp [LongDest.written, gRun, hd]

/-- R356: the count that the entry of a re-issued word holds is released. -/
theorem release_idle {n : Nat} (hslot : x.i.slotOf = some n) : h.release x.idle = match x.again, x.i.slotOf with
    | some e, some n => if e.slot then h.wrW n (h.rdW n - 1) else h
    | _, _ => h := by
  simp only [Group.release, Issue.idle, hslot]
  cases x.again <;> rfl

/-! ## The issue of a word with no active element -/

/-- The clause of a long-latency word with no active element, from what it writes then. -/
theorem zeroesAtIssue {s : State} {w : Workgroup} {g : Group} {i : Instr} {zero : Issue → Group → Group} {eff : Issue → Eff} {n : Nat}
    (hi : Issues s w g i) (hexec : exec i s = runWord i s eff)
    (hempty : (s.issueOf w g i).anyActive = false → eff (s.issueOf w g i) = (s.issueOf w g i).empty) (hslot : i.slotOf = some n)
    (hzero : ∀ h, h.landAll (s.issueOf w g i).idle = zero (s.issueOf w g i) h) : ZeroesAtIssue s w g i zero := by
  intro hidle
  rw [Leaves, hexec, runWord_done hi ((hempty hidle).trans (empty_eq _))]
  refine congrArg (fun f => Host.Outcome.next ((s.issueOf w g i).after ((s.issueOf w g i).s.updGroup (s.issueOf w g i).r f))) ?_
  funext h
  rw [release_idle (n := n) hslot, hzero]
  rfl

/-- A word that issues is well formed. -/
theorem wellFormed_of_issues {s : State} {w : Workgroup} {g : Group} {i : Instr} (h : Issues s w g i) : i.wellFormed = true := by
  obtain ⟨-, ⟨-, hwf, -⟩, -⟩ := h
  exact hwf

/-- The word that is met with no active element is that of its instruction. -/
theorem idle_dest {s : State} {w : Workgroup} {g : Group} {i : Instr} (h : decodeWord (wordOf i).val = .ok i) :
    (s.issueOf w g i).idle.dest = longDest i := by
  have hinstr : (s.issueOf w g i).idle.instr = some i := instr_of_wordOf rfl h
  simp only [Pending.dest, hinstr, Option.bind_some]

end Sys2Proof.Machine
end

section
/-! The long floats as they issue (07_float_instructions.md R151, R166). -/

namespace Sys2Proof.Machine

theorem tyFmt_eq (ty : Ty) : (if ty = .f9 then tf9 else if ty = .f81 then tf81 else tf27) = tyFmt ty := by cases ty <;> rfl

theorem decided_iff {x : Issue} {ty : Ty} {f : Nat → Nat → Option (Int × Flags)} :
    x.decided ty f = true ↔ ∀ l ∈ x.active, ∀ j ∈ ty.elems, (x.pred l).trit j = 1 → (f l j).isSome = true := by
  simp only [Issue.decided, List.all_eq_true, Bool.or_eq_true, bne_iff_ne, ne_eq, imp_iff_not_or]

/-- What O13 says of a long float: with an active element it begins with its results, or is met again while one of them is not
known, and without one it zeroes. -/
def LongFloatBegins (s : State) (w : Workgroup) (g : Group) (i : Instr) (d : Nat) (ty : Ty)
    (v : Issue → Nat → Nat → Option (Int × Flags)) : Prop :=
  let x := s.issueOf w g i
  let known : Prop := ∀ l ∈ x.active, ∀ j ∈ ty.elems, (x.pred l).trit j = 1 → (v x l j).isSome = true
  (x.anyActive = true → known → Leaves s w g i fun x =>
    x.begin x.s (x.active.map fun l => floatPart x ty l fun j => (v x l j).getD (0, {})) true []) ∧
  (x.anyActive = true → ¬known → Stalls s i) ∧
  ZeroesAtIssue s w g i (zeroDead (gRun d (ty == .f81)) (ty != .f9))

section
variable {s : State} {w : Workgroup} {g : Group}

theorem longFloat_begins {i : Instr} {d : Nat} {ty : Ty} {n : Nat} {v : Issue → Nat → Nat → Option (Int × Flags)} (hi : Issues s w g i)
    (hexec : exec i s = runWord i s fun x => x.longFloat ty (v x)) (hslot : i.slotOf = some n)
    (hdecode : decodeWord (wordOf i).val = .ok i) (hdest : longDest i = some ⟨false, d, if ty = .f81 then 3 else 1, ty != .f9⟩) :
    LongFloatBegins s w g i d ty v := by
  refine ⟨fun hactive hknown => ?_, fun hactive hknown => ?_, ?_⟩
  · refine hexec.trans (runWord_done hi ?_)
    simp only [Issue.longFloat, hactive, decided_iff.2 hknown, Bool.not_true, Bool.false_eq_true, if_false, if_true]
  · have hundecided : ¬(s.issueOf w g i).decided ty (v (s.issueOf w g i)) = true := fun h => hknown (decided_iff.1 h)
    refine hexec.trans (runWord_stall hi ?_)
    simp only [Issue.longFloat, hactive, hundecided, Bool.not_true, Bool.false_eq_true, if_false]
  · refine zeroesAtIssue hi hexec (fun hidle => by simp [Issue.longFloat, hidle]) hslot fun h => ?_
    rw [landAll_idle_g ((idle_dest hdecode).trans hdest) rfl]
    rw [zeroDead_written d _ (ty == .f81) _ (by cases ty <;> rfl)]

/-- The long floats of one source. -/
theorem flong_begins {a : FlongArgs} {mk : FlongArgs → Instr} {op : Int} {n : Nat} {f : Issue → Fmt → Int → FVal → Option (Int × Flags)}
    (hop : op.natAbs ≤ maxMag 5) (hfields : (mk a).fields = some (encFlong op a))
    (hrow : ∃ r, findRow opRows op = some r ∧ r.build = fun f => (flongOf f).map mk)
    (hexec : exec (mk a) s = runWord (mk a) s fun x => x.longFloat1 a (f x)) (hslot : (mk a).slotOf = some n)
    (hdest : longDest (mk a) = some ⟨false, a.d.val, if a.ty = .f81 then 3 else 1, a.ty != .f9⟩) (fmt : Fmt)
    (hfmt : fmt = tyFmt a.ty) (hi : Issues s w g (mk a)) :
    LongFloatBegins s w g (mk a) a.d.val a.ty fun x l j =>
      f x fmt (x.elem a.ty (.g a.a) l j) (fmt.decode (x.elem a.ty (.g a.a) l j)) := by
  subst hfmt
  exact longFloat_begins hi hexec hslot (decodeWord_flong hop hfields hrow (wellFormed_of_issues hi)) hdest

end

/-- Settles O13: a long float's effect is one branch on whether it has an active element and whether each of its results is known
(longFloat_begins); what it zeroes without one is what its word's destination would take. -/
theorem longFloatsIssue : Obligations.LongFloatsIssue := by
  unfold Obligations.LongFloatsIssue
  intro s w g fmt begins one
  refine ⟨fun a hi => ?_, fun a => ⟨?_, ?_, ?_, ?_, ?_, ?_, ?_, ?_, ?_, ?_⟩⟩
  · refine longFloat_begins (v := fun x l j => some (fnDiv (fmt a.ty) ((fmt a.ty).decode (x.elem a.ty (.g a.a) l j))
      ((fmt a.ty).decode (x.elemB a.ty a.b l j)))) hi ?_ rfl (decodeWord_fdiv (wellFormed_of_issues hi)) rfl
    simp only [fmt, tyFmt_eq]
    rfl
  · exact flong_begins (op := -34) (f := fun _ f _ v => some (fnSqrt f v)) (by decide) rfl ⟨_, rfl, rfl⟩ rfl rfl rfl _ (tyFmt_eq _)
  · exact flong_begins (op := -35) (f := fun _ f _ v => some (fnRecip f v)) (by decide) rfl ⟨_, rfl, rfl⟩ rfl rfl rfl _ (tyFmt_eq _)
  · exact flong_begins (op := -36) (f := fun _ f _ v => some (fnRsqrt f v)) (by decide) rfl ⟨_, rfl, rfl⟩ rfl rfl rfl _ (tyFmt_eq _)
  · exact flong_begins (op := 39) (f := fun x f c v => fnExp f 39 c true v x.fuel) (by decide) rfl ⟨_, rfl, rfl⟩ rfl rfl rfl _ (tyFmt_eq _)
  · exact flong_begins (op := 40) (f := fun x f c v => fnLog f 40 c true v x.fuel) (by decide) rfl ⟨_, rfl, rfl⟩ rfl rfl rfl _ (tyFmt_eq _)
  · exact flong_begins (op := 26) (f := fun x f c v => fnExp f 26 c false v x.fuel) (by decide) rfl ⟨_, rfl, rfl⟩ rfl rfl rfl _ (tyFmt_eq _)
  · exact flong_begins (op := 25) (f := fun x f c v => fnLog f 25 c false v x.fuel) (by decide) rfl ⟨_, rfl, rfl⟩ rfl rfl rfl _ (tyFmt_eq _)
  · exact flong_begins (op := 24) (f := fun x f c v => fnTrig f 24 c false v x.fuel) (by decide) rfl ⟨_, rfl, rfl⟩ rfl rfl rfl _ (tyFmt_eq _)
  · exact flong_begins (op := 23) (f := fun x f c v => fnTrig f 23 c true v x.fuel) (by decide) rfl ⟨_, rfl, rfl⟩ rfl rfl rfl _ (tyFmt_eq _)
  · exact flong_begins (op := 22) (f := fun x f c v => fnTanh f 22 c v x.fuel) (by decide) rfl ⟨_, rfl, rfl⟩ rfl rfl rfl _ (tyFmt_eq _)

end Sys2Proof.Machine
end

section
/-! Loads, stores and atomics as they issue (12_memory_instructions.md R271 to R280). -/

namespace Sys2Proof.Machine

/-! ## Faults of the checks (R236, R356) -/

/-- A word that takes its count as it traps. -/
def Issue.counted (x : Issue) (t : State) : State :=
  match x.i.slotOf with
  | some n => if (x.again.map (·.slot)).getD false then t else t.updGroup x.r fun h => h.wrW n (h.rdW n + 1)
  | none => t

/-- The fault of elements that a check or an access refused, by lane. -/
def refusal (parts : List PendLane) (b : Bad) (more : List Bad) (slot : Bool) : Fail :=
  { cause := b.cause, addr := b.addr, lanes := (b :: more).map fun b => (b.lane, b.cause), cap := parts, slot := slot, issued := true }

theorem memFault_eq (x : Issue) (t : State) (parts : List PendLane) (b : Bad) (more : List Bad) :
    x.memFault t parts (b :: more) = .trapIn (x.counted t) (refusal parts b more x.i.slotOf.isSome) := rfl

/-! ## Loads (R275) -/

/-- What a load whose elements pass their checks does before it reads them: earlier stores of its group to the same trytes are
performed, and a remote acquire is flushed. -/
def Issue.beforeRead (x : Issue) (q : Option Qual) (t : State) (es : List MemElem) : State :=
  match q with
  | some q => if q.remote then (t.settleOver x.r es).remoteFlush x.w q.scope else t.settleOver x.r es
  | none => t.settleOver x.r es

section
variable {x : Issue} {sp : Space} {wd : Width} {q : Option Qual} {one : Bool} {addr : Nat → Int} {t u : State} {es : List MemElem}
  {ps : List PendLane} {b : Bad} {more : List Bad}

/-- The parts of a load. -/
def Issue.loadParts (x : Issue) (addr : Nat → Int) : List PendLane :=
  x.memParts x.active addr (fun _ => zeroW) (fun _ => zeroW) (fun _ => zeroW)

theorem load_idle (h : x.anyActive = false) : x.load sp wd q one addr = x.empty := by simp [Issue.load, h]

theorem load_again (h : x.anyActive = true) (hr : x.results = some ps) :
    x.load sp wd q one addr = .done (x.begin (x.next x.s0) ps true []) := by simp [Issue.load, h, hr]

theorem load_refused (h : x.anyActive = true) (hr : x.results = none)
    (hc : x.resolveAll x.s0 sp .read wd (acting one (x.loadParts addr)) = (t, es, b :: more)) :
    x.load sp wd q one addr = .trapIn (x.counted t) (refusal (x.loadParts addr) b more x.i.slotOf.isSome) := by
  rw [← memFault_eq]
  simp only [Issue.loadParts] at hc
  simp [Issue.load, h, hr, hc, Issue.loadParts]

section
variable (h : x.anyActive = true) (hr : x.results = none)
  (hc : x.resolveAll x.s0 sp .read wd (acting one (x.loadParts addr)) = (t, es, []))
include h hr hc

theorem load_waits (ho : t.overWaits x.r es = true) : x.load sp wd q one addr = .stall := by
  simp only [Issue.loadParts] at hc
  simp [Issue.load, h, hr, hc, ho]

theorem load_of_found (ho : t.overWaits x.r es = false) : x.load sp wd q one addr =
    let r := x.readAll (x.beforeRead q t es) q.isSome wd (x.loadParts addr) es
    if !r.2.2.isEmpty then x.memFault r.1 r.2.1 r.2.2
    else .done (x.begin (x.sendLoads (x.next r.1) es) r.2.1 (!es.any MemElem.isDiverted) []) := by
  simp only [Issue.loadParts] at hc
  simp only [Issue.load, h, hr, hc, ho, Bool.not_true, Bool.false_eq_true, if_false, List.isEmpty_nil]
  rfl

/-- A load whose elements are read, but for those that go to diversion units. -/
theorem load_reads (ho : t.overWaits x.r es = false)
    (hread : x.readAll (x.beforeRead q t es) q.isSome wd (x.loadParts addr) es = (u, ps, [])) :
    x.load sp wd q one addr = .done (x.begin (x.sendLoads (x.next u) es) ps (!es.any MemElem.isDiverted) []) := by
  simp [load_of_found h hr hc ho, hread]

theorem load_fails (ho : t.overWaits x.r es = false)
    (hread : x.readAll (x.beforeRead q t es) q.isSome wd (x.loadParts addr) es = (u, ps, b :: more)) :
    x.load sp wd q one addr = .trapIn (x.counted u) (refusal ps b more x.i.slotOf.isSome) := by
  simp [load_of_found h hr hc ho, hread, memFault_eq]

end

/-! ## Stores (R276) -/

/-- The parts of a store. -/
def Issue.storeParts (x : Issue) (addr : Nat → Int) (d : Nat → Nat → Word) : List PendLane :=
  x.memParts x.active addr (d 0) (d 1) (d 2)

variable {d : Nat → Nat → Word}

theorem store_idle (h : x.anyActive = false) : x.store sp wd one addr d = x.empty := by simp [Issue.store, h]

theorem store_begins (h : x.anyActive = true)
    (hc : x.resolveAll x.s0 sp .write wd (acting one (x.storeParts addr d)) = (t, es, [])) :
    x.store sp wd one addr d =
      .done (x.begin (x.next t) (x.storeParts addr d) false (es.flatMap fun m => m.stores wd (x.storeParts addr d))) := by
  simp only [Issue.storeParts] at hc
  simp [Issue.store, h, hc, Issue.storeParts]

theorem store_refused (h : x.anyActive = true)
    (hc : x.resolveAll x.s0 sp .write wd (acting one (x.storeParts addr d)) = (t, es, b :: more)) :
    x.store sp wd one addr d = .trapIn (x.counted t) (refusal (x.storeParts addr d) b more x.i.slotOf.isSome) := by
  rw [← memFault_eq]
  simp only [Issue.storeParts] at hc
  simp [Issue.store, h, hc, Issue.storeParts]

end

/-- Settles O22: a load or a store is one branch on its active elements, its captured results, the checks of its elements and, for a
load, the release it comes after and the reads (load_idle to load_fails, store_idle to store_refused). -/
theorem loadsAndStoresBegin : Obligations.LoadsAndStoresBegin := by
  unfold Obligations.LoadsAndStoresBegin
  intro s w g zero address qual counted fails loads stores data dead
  have hloads : ∀ (i : Instr) (base : Issue → Nat → Int) {sp : Space} {wd : Width} {form : AccForm} {one : Bool}
      {zeroed : Issue → Group → Group} {n : Nat},
      exec i s = (runWord i s fun x => x.load sp wd (AccForm.qual form) one fun l => x.address form (base x l)) →
      i.slotOf = some n →
      (Issues s w g i → ∀ h : Group, h.landAll (s.issueOf w g i).idle = zeroed (s.issueOf w g i) h) →
      loads i sp wd form one base zeroed := by
    intro i base sp wd form one zeroed n hexec hslot hzero hi
    have hsome : (s.issueOf w g i).i.slotOf.isSome = true := by simp [hslot]
    refine ⟨zeroesAtIssue hi hexec load_idle hslot (hzero hi),
      fun ps hactive hr => hexec.trans (runWord_done hi (load_again hactive hr)), fun hactive hr => ⟨fun t es hc => ⟨?_, ?_⟩, ?_⟩⟩
    · exact fun ho => hexec.trans (runWord_stall hi (load_waits hactive hr hc ho))
    · refine fun ho => ⟨fun u ps hread => ?_, fun u ps b more hread => ?_⟩
      · exact hexec.trans (runWord_done hi (load_reads hactive hr hc ho (by cases form <;> exact hread)))
      · have htrap := hexec.trans (runWord_trapIn hi (load_fails hactive hr hc ho (by cases form <;> exact hread)))
        rwa [hsome] at htrap
    · intro t es b more hc
      have htrap := hexec.trans (runWord_trapIn hi (load_refused hactive hr hc))
      rwa [hsome] at htrap
  have hstores : ∀ (i : Instr) (base : Issue → Nat → Int) {sp : Space} {wd : Width} {form : AccForm} {one : Bool}
      {d : Issue → Nat → Nat → Word} {n : Nat},
      exec i s = (runWord i s fun x => x.store sp wd one (fun l => x.address form (base x l)) (d x)) → i.slotOf = some n →
      (Issues s w g i → ∀ h : Group, h.landAll (s.issueOf w g i).idle = h) → stores i sp wd form one base d := by
    intro i base sp wd form one d n hexec hslot hzero hi
    have hsome : (s.issueOf w g i).i.slotOf.isSome = true := by simp [hslot]
    refine ⟨zeroesAtIssue hi hexec store_idle hslot (hzero hi), fun hactive => ⟨fun t es hc => ?_, fun t es b more hc => ?_⟩⟩
    · exact hexec.trans (runWord_done hi (store_begins hactive hc))
    · have htrap := hexec.trans (runWord_trapIn hi (store_refused hactive hc))
      rwa [hsome] at htrap
  have hwf := fun {i : Instr} (hi : Issues s w g i) => wellFormed_of_issues hi
  refine ⟨fun a => ?_, fun a => ?_, fun a => ?_, fun a => ?_, fun a => ?_, fun a => ?_⟩
  · refine hloads (.ld a) (fun x l => ((x.g.lane l).rdG a.a.val).val) rfl rfl fun hi h => ?_
    rw [landAll_idle_g ((idle_dest (decodeWord_ld (hwf hi))).trans rfl) rfl,
      zeroDead_written _ _ (a.wd == .f81) _ (by cases a.wd <;> rfl)]
  · refine hloads (.ldStrong a) (fun x l => ((x.g.lane l).rdG a.a.val).val) rfl rfl fun hi h => ?_
    rw [landAll_idle_g ((idle_dest (decodeWord_ldStrong (hwf hi))).trans rfl) rfl,
      zeroDead_written _ _ (a.wd == .f81) _ (by cases a.wd <;> rfl)]
  · refine hloads (.ldu a) (fun x _ => (x.g.rdS a.sa.val).val) rfl rfl fun hi h => ?_
    rw [landAll_idle_s ((idle_dest (decodeWord_ldu (hwf hi))).trans rfl) rfl]
    rfl
  · exact hstores (.st a) (fun x l => ((x.g.lane l).rdG a.a.val).val) rfl rfl fun hi h =>
      landAll_idle_none ((idle_dest (decodeWord_st (hwf hi))).trans rfl)
  · exact hstores (.stStrong a) (fun x l => ((x.g.lane l).rdG a.a.val).val) rfl rfl fun hi h =>
      landAll_idle_none ((idle_dest (decodeWord_stStrong (hwf hi))).trans rfl)
  · exact hstores (.stu a) (fun x _ => (x.g.rdS a.sa.val).val) rfl rfl fun hi h =>
      landAll_idle_none ((idle_dest (decodeWord_stu (hwf hi))).trans rfl)

end Sys2Proof.Machine
end

section
/-! Atomics as they issue (12_memory_instructions.md R279, R280). -/

namespace Sys2Proof.Machine

section
variable {x : Issue} {a : AtomArgs} {cas : Bool} {t u v : State} {es : List MemElem} {ps : List PendLane} {b : Bad} {more : List Bad}
  {k : Nat}

/-- The width of an atomic's elements. -/
def atomWidth (a : AtomArgs) : Width := if a.tryte then .t else .w

/-- The parts of an atomic. -/
def Issue.atomParts (x : Issue) (a : AtomArgs) (cas : Bool) : List PendLane :=
  x.memParts x.active (fun l => (x.greg a.a.val l).val) (fun l => x.greg a.d.val l)
    (fun l => if cas then x.greg (a.d.val + 1) l else zeroW) (fun _ => zeroW)

/-- What an atomic whose elements pass their checks does before it is performed: a release acts, or earlier stores of its group to
the same trytes are performed. -/
def Issue.beforeAtom (x : Issue) (a : AtomArgs) (t : State) (es : List MemElem) : State :=
  if MemOrder.releases a.order then (t.settleStores x.r fun _ => true).releaseAt x.w a.scope else t.settleOver x.r es

theorem atomic_idle (h : x.anyActive = false) : x.atomic a cas = x.empty := by simp [Issue.atomic, h]

theorem atomic_again (h : x.anyActive = true) (hr : x.results = some ps) :
    x.atomic a cas = .done (x.begin (x.next x.s0) ps true []) := by simp [Issue.atomic, h, hr]

section
variable (h : x.anyActive = true) (hr : x.results = none)
include h hr

theorem atomic_waits (hrel : MemOrder.releases a.order = true) (hwaits : x.releaseWaits = true) : x.atomic a cas = .stall := by
  simp [Issue.atomic, h, hr, hrel, hwaits]

variable (hw : MemOrder.releases a.order = true → x.releaseWaits = false)
include hw

theorem atomic_refused (hc : x.resolveAll x.s0 a.space .atomic (atomWidth a) (x.atomParts a cas) = (t, es, b :: more)) :
    x.atomic a cas = .trapIn (x.counted t) (refusal (x.atomParts a cas) b more x.i.slotOf.isSome) := by
  have hgoes : (MemOrder.releases a.order && x.releaseWaits) = false := by simpa using hw
  rw [← memFault_eq]
  simp only [Issue.atomParts, atomWidth] at hc
  simp [Issue.atomic, h, hr, hgoes, hc, Issue.atomParts]

variable (hc : x.resolveAll x.s0 a.space .atomic (atomWidth a) (x.atomParts a cas) = (t, es, []))
include hc

theorem atomic_overWaits (ho : t.overWaits x.r es = true) : x.atomic a cas = .stall := by
  have hgoes : (MemOrder.releases a.order && x.releaseWaits) = false := by simpa using hw
  simp only [Issue.atomParts, atomWidth] at hc
  simp [Issue.atomic, h, hr, hgoes, hc, ho]

variable (ho : t.overWaits x.r es = false)
include ho

theorem atomic_of_found : x.atomic a cas =
    let met := x.beforeAtom a t es
    let bad := x.atomProbe met (atomWidth a) (x.atomParts a cas) es
    if !bad.isEmpty then x.memFault met (x.atomParts a cas) bad
    else
      let n := met.atomSplit es
      let r := x.atomAll a.op cas (atomWidth a) n.2 (x.atomParts a cas) (es.take n.1)
      if !r.2.2.isEmpty then x.memFault r.1 r.2.1 r.2.2
      else .done (x.begin (x.next r.1) r.2.1 (n.1 == es.length && !es.any MemElem.isDiverted) [] (es.drop n.1)) := by
  have hgoes : (MemOrder.releases a.order && x.releaseWaits) = false := by simpa using hw
  simp only [Issue.atomParts, atomWidth] at hc
  simp only [Issue.atomic, h, hr, hgoes, hc, ho, Bool.not_true, Bool.false_eq_true, if_false, List.isEmpty_nil]
  rfl

theorem atomic_fails_probe (hp : x.atomProbe (x.beforeAtom a t es) (atomWidth a) (x.atomParts a cas) es = b :: more) :
    x.atomic a cas = .trapIn (x.counted (x.beforeAtom a t es)) (refusal (x.atomParts a cas) b more x.i.slotOf.isSome) := by
  simp [atomic_of_found h hr hw hc ho, hp, memFault_eq]

section
variable (hp : x.atomProbe (x.beforeAtom a t es) (atomWidth a) (x.atomParts a cas) es = [])
  (hk : (x.beforeAtom a t es).atomSplit es = (k, u))
include hp hk

/-- An atomic of which as many elements are performed as a free value says. -/
theorem atomic_performs (hall : x.atomAll a.op cas (atomWidth a) u (x.atomParts a cas) (es.take k) = (v, ps, [])) :
    x.atomic a cas = .done (x.begin (x.next v) ps (k == es.length && !es.any MemElem.isDiverted) [] (es.drop k)) := by
  simp [atomic_of_found h hr hw hc ho, hp, hk, hall]

theorem atomic_fails (hall : x.atomAll a.op cas (atomWidth a) u (x.atomParts a cas) (es.take k) = (v, ps, b :: more)) :
    x.atomic a cas = .trapIn (x.counted v) (refusal ps b more x.i.slotOf.isSome) := by
  simp [atomic_of_found h hr hw hc ho, hp, hk, hall, memFault_eq]

end

end

end

/-- Settles O26: an atomic is one branch on its active elements, its captured results, its release, the checks of its elements, the
probe of their lines and the elements performed (atomic_idle to atomic_fails). -/
theorem atomicsPerform : Obligations.AtomicsPerform := by
  unfold Obligations.AtomicsPerform
  intro s w g a wd releases fails performs dead
  have hreleases : MemOrder.releases a.order = releases := by
    simp only [releases]
    cases a.order <;> rfl
  have hperforms : ∀ (i : Instr) (cas : Bool) {zeroed : Issue → Group → Group} {n : Nat},
      exec i s = runWord i s (·.atomic a cas) → i.slotOf = some n →
      (Issues s w g i → ∀ h : Group, h.landAll (s.issueOf w g i).idle = zeroed (s.issueOf w g i) h) →
      performs i cas zeroed := by
    intro i cas zeroed n hexec hslot hzero hi
    refine ⟨zeroesAtIssue hi hexec atomic_idle hslot (hzero hi),
      fun ps hactive hr => hexec.trans (runWord_done hi (atomic_again hactive hr)),
      fun hactive hr hrel hwaits => hexec.trans (runWord_stall hi (atomic_waits hactive hr (hreleases.trans hrel) hwaits)),
      fun hactive hr hw => ?_⟩
    rw [← hreleases] at hw
    refine ⟨fun t es b more hc => ?_, fun t es hc => ⟨fun ho => ?_, fun ho => ⟨fun b more hp => ?_, fun hp k u hk => ⟨fun v ps hall => ?_,
      fun v ps b more hall => ?_⟩⟩⟩⟩
    · exact hexec.trans (runWord_trapIn hi (atomic_refused hactive hr hw hc))
    · exact hexec.trans (runWord_stall hi (atomic_overWaits hactive hr hw hc ho))
    · rw [← hreleases] at hp ⊢
      exact hexec.trans (runWord_trapIn hi (atomic_fails_probe hactive hr hw hc ho hp))
    · rw [← hreleases] at hp hk
      exact hexec.trans (runWord_done hi (atomic_performs hactive hr hw hc ho hp hk hall))
    · rw [← hreleases] at hp hk
      exact hexec.trans (runWord_trapIn hi (atomic_fails hactive hr hw hc ho hp hk hall))
  have hwf := fun {i : Instr} (hi : Issues s w g i) => wellFormed_of_issues hi
  have hzero (i : Instr) (hi : Issues s w g i) (hdecode : decodeWord (wordOf i).val = .ok i)
      (hdest : longDest i = some ⟨false, a.d.val, 1, !a.tryte⟩) (h : Group) :
      h.landAll (s.issueOf w g i).idle = dead (s.issueOf w g i) h := by
    exact landAll_idle_g ((idle_dest hdecode).trans hdest) rfl
  refine ⟨?_, ?_, ?_⟩
  · exact hperforms (.atom a) false rfl rfl fun hi h => landAll_idle_none ((idle_dest (decodeWord_atom (hwf hi))).trans rfl)
  · exact hperforms (.atomr a) false rfl rfl fun hi => hzero _ hi (decodeWord_atomr (hwf hi)) rfl
  · exact hperforms (.cas a) true rfl rfl fun hi => hzero _ hi (decodeWord_cas (hwf hi)) rfl

end Sys2Proof.Machine
end

section
/-! Matrix words as they issue (09_matrix_unit.md R199, R209, R214, R216): reads of tiles and status, and the spans that trap. -/

namespace Sys2Proof.Machine

variable {s u : State} {w : Workgroup} {g : Group} {i : Instr} {eff : Issue → Eff} {f : Fail}

/-! ## Words whose own unit is asked before they issue (R100, R208) -/

/-- A word that passes its checks otherwise takes the trap that its own unit finds. -/
theorem checkWord_busy (h : Passes s w g i) (hf : f.cause ≠ 1) : checkWord s w g i (some f) = some f := by
  obtain ⟨hcount, hwf, hlit, halloc, hsup, hread, hhandler, hmode, -, -⟩ := h
  simp only [Group.wordPay] at hlit
  have hrun : ¬(27 ≤ g.run.count ∧ (Option.map (fun x => x.past) g.run.again).getD false = false) := by
    rintro ⟨hlate, hpast⟩
    rcases hcount with h | h
    · omega
    · simp [h] at hpast
  have hsupervisor : (i.supervisorOnly && !w.region.supervisor) = false := by
    cases hs : i.supervisorOnly <;> simp_all
  have hhandled : (i.handlerOnly && g.handler.isNone) = false := by
    cases hs : i.handlerOnly
    · rfl
    · simpa using hhandler hs
  simp [checkWord, hrun, hwf, hlit, halloc, hsupervisor, hread, hhandled, hmode, hf]

/-- The trap of a word that issues in a state other than that of its turn. -/
theorem issueWord_trap (h : IssuesAfter s u w g i) (he : eff (u.issueOf w g i) = .trap f) :
    u.issueWord w g i none eff = (u.issueOf w g i).s0.takeFault g.ref (wordOf i) i.pred.eff f := by
  obtain ⟨-, hp, hslot, hlicence⟩ := h
  have hgoes : ((u.issueOf w g i).slotFull || (i.needsLicence && (!u.licensed w || (u.issueOf w g i).heldBack))) = false := by
    rw [hslot]
    cases hn : i.needsLicence
    · rfl
    · simp [hlicence hn]
  simp only [State.issueWord, checkWord_of_passes hp, hgoes, he, Bool.false_eq_true, if_false]

/-- The trap of a word whose formats are read before it issues. -/
theorem runTableWord_trap {r : TableRead} {effOf : TableRead → Issue → Eff} (h : IssuesAfter s u w g i)
    (hread : s.tableFor w g i = (u, r)) (hr : r.refused = false) (he : effOf r (u.issueOf w g i) = .trap f) :
    runTableWord i s effOf = .next ((u.issueOf w g i).s0.takeFault g.ref (wordOf i) i.pred.eff f) := by
  obtain ⟨hrunning, -⟩ := id h
  simp only [runTableWord, hrunning, hread, hr, Bool.false_eq_true, if_false, issueWord_trap h he]

/-! ## Loads and stores of the matrix unit (R209) -/

/-- R446: the descriptor of a load that passes its checks lies in 0 to 1457. -/
theorem desc_range {b : Int} (h : IssuesAfter s u w g i) (huse : i.litUse = .imm 27 b) (htop : i.immTop = some 1457) :
    0 ≤ g.wordPay * 81 + b ∧ g.wordPay * 81 + b ≤ 1457 := by
  obtain ⟨-, ⟨-, -, hlit, -⟩, -⟩ := h
  simp only [litCheck, huse, htop] at hlit
  split at hlit
  · simp at hlit
  · by_contra hout
    rw [if_pos (by omega)] at hlit
    simp at hlit

theorem matLoad_trap {x : Issue} {sd sa : Nat} {planes : Option Nat} {r : TableRead} {d : MatDesc} {c : Nat} (hd : r.desc = some d)
    (hc : spanCause x.w (x.g.rdS sa).val d.imageLen 8 = some c) : x.matLoad sd sa planes r = .trap { cause := c } := by
  simp only [Issue.matLoad, hd, hc]

theorem matStore_trap {x : Issue} {a : MstoreArgs} {zero : Bool} {r : TableRead} {fm : Fmt} {c : Nat} (hf : r.fmt = some fm)
    (hc : spanCause x.w (x.g.rdS a.sd.val).val (27 * storeRow fm) 9 = some c) : x.matStore a zero r = .trap { cause := c } := by
  simp only [Issue.matStore, hf, hc]

section
variable {d : MatDesc}

/-- What MLOAD reads of the format entries. -/
theorem tableFor_mload {a : MloadArgs} (hrange : 0 ≤ g.wordPay * 81 + a.desc.val ∧ g.wordPay * 81 + a.desc.val ≤ 1457)
    (hd : s.descriptorOf w (g.wordPay * 81 + a.desc.val) = (u, some d)) :
    s.tableFor w g (.mload a) = (u, { refused := false, desc := some d }) := by
  have hin : ¬(g.wordPay * 81 + a.desc.val < 0 ∨ 1457 < g.wordPay * 81 + a.desc.val) := by omega
  simp [State.tableFor, Instr.fields, fixF, State.readTable, hd, hin]

theorem tableFor_mloadp {a : MloadpArgs} (hrange : 0 ≤ g.wordPay * 81 + a.desc.val ∧ g.wordPay * 81 + a.desc.val ≤ 1457)
    (hd : s.descriptorOf w (g.wordPay * 81 + a.desc.val) = (u, some d)) (hq : d.wf.q = 0) (hplanes : a.planes.val + 1 ≤ d.wf.w) :
    s.tableFor w g (.mloadp a) = (u, { refused := false, desc := some d }) := by
  have hin : ¬(g.wordPay * 81 + a.desc.val < 0 ∨ 1457 < g.wordPay * 81 + a.desc.val) := by omega
  have hw : ¬(d.wf.w : Int) < a.planes.val - 4 + 5 := by omega
  simp [State.tableFor, Instr.fields, fixF, State.readTable, hd, hin, hq, hw]

end

/-- What MSTORE reads of the format entries. -/
theorem tableFor_mstore {a : MstoreArgs} {fm : Fmt} (hi : i = .mstoreKeep a ∨ i = .mstoreZero a)
    (hf : s.fmtAt w a.fmt.val = (u, some fm)) (hok : storeOk a.fmt.val fm = true) :
    s.tableFor w g i = (u, { refused := false, fmt := some fm }) := by
  have hin : ((a.fmt.val : Nat) : Int) ≤ 26 := by omega
  rcases hi with rfl | rfl <;> simp [State.tableFor, Instr.fields, fixF, State.readTable, hin, hf, hok]

/-! ## Reads of tiles and status (R214, R216) -/

/-- What an MRD does as it issues, its tile with no operation in flight. -/
def Issue.mrdEff (x : Issue) (s : State) (w : Workgroup) (a : MrdArgs) : Eff :=
  let b := x.simm a.b
  if b < 0 ∨ b > 728 then .trap { cause := 1, detail := 3 }
  else if !x.anyActive then x.empty
  else match x.results with
    | some ps => .done (x.begin x.s ps true [])
    | none => .done (x.begin x.s (x.active.map fun l => { PendLane.new l (x.pred l) with
        r0 := (s.unitAt (coreClu w.core)).tiles.get zeroW (tileKey (w.tileAt a.tile.val) (b.toNat % 27) (27 * (b.toNat / 27) + l % 27)) })
        true [])

/-- R67: what the unit finds of the tile of an MRD. -/
def tileInUse (s : State) (w : Workgroup) (g : Group) (a : MrdArgs) : Option Fail :=
  if (g.run.again.map (·.perf)).getD false then none
  else ((s.unitAt (coreClu w.core)).busy (w.tileAt a.tile.val)).map fun e =>
    { cause := 16, busyOn := some ⟨a.tile.val, e.hw, e.pc, e.op.mnemonic⟩ }

theorem exec_mrd {a : MrdArgs} (hr : s.running s.cur = some (w, g)) :
    exec (.mrd a) s = .next (s.issueWord w g (.mrd a) (tileInUse s w g a) fun x => x.mrdEff s w a) := by
  refine Eq.trans (b := execMrd a s) rfl ?_
  rw [execMrd, hr]
  rfl

theorem exec_mrd_free {a : MrdArgs} (hr : s.running s.cur = some (w, g)) (hfree : tileInUse s w g a = none) :
    exec (.mrd a) s = runWord (.mrd a) s fun x => x.mrdEff s w a := by
  rw [exec_mrd hr, hfree, runWord, hr]

/-- The clause of O21 on MRD. -/
theorem mrd_begins {a : MrdArgs} (hi : Issues s w g (.mrd a)) :
    let x := s.issueOf w g (.mrd a)
    let b := x.simm a.b
    let u := s.unitAt (coreClu w.core)
    let tile := w.tileAt a.tile.val
    let oldest := u.queue.find? fun e => e.op.tile == some tile
    let performed : Prop := ∃ e, x.again = some e ∧ e.perf = true
    (¬performed → ∀ e, oldest = some e →
      exec (.mrd a) s = .next (s.takeFault g.ref (wordOf (.mrd a)) (Instr.mrd a).pred.eff
        { cause := 16, busyOn := some ⟨a.tile.val, e.hw, e.pc, e.op.mnemonic⟩ })) ∧
    (performed ∨ oldest = none →
      (b < 0 ∨ b > 728 → Traps s w g (.mrd a) { cause := 1, detail := 3 }) ∧
      (0 ≤ b → b ≤ 728 →
        ZeroesAtIssue s w g (.mrd a) (zeroDead [a.d.val] true) ∧
        (∀ ps, x.anyActive = true → x.results = some ps → Leaves s w g (.mrd a) fun x => x.begin x.s ps true []) ∧
        (x.anyActive = true → x.results = none → Leaves s w g (.mrd a) fun x =>
          x.begin x.s (x.active.map fun l => { PendLane.new l (x.pred l) with
            r0 := u.tiles.get (Word.ofInt 0) (tile * 19683 + b.toNat % 27 * 729 + (27 * (b.toNat / 27) + l % 27)) }) true []))) := by
  intro x b u tile oldest performed
  obtain ⟨hrunning, hpasses, -⟩ := id hi
  have hperformed : performed ↔ (g.run.again.map (·.perf)).getD false = true := by
    simp only [performed, x, issueOf_again]
    cases g.run.again <;> simp
  refine ⟨fun hnot e he => ?_, fun hfree => ?_⟩
  · have hbusy : tileInUse s w g a = some { cause := 16, busyOn := some ⟨a.tile.val, e.hw, e.pc, e.op.mnemonic⟩ } := by
      rw [tileInUse, if_neg (fun h => hnot (hperformed.2 h)), show (s.unitAt (coreClu w.core)).busy (w.tileAt a.tile.val) = some e from he]
      rfl
    rw [exec_mrd hrunning, hbusy, State.issueWord, checkWord_busy hpasses (by simp)]
  · have hnone : tileInUse s w g a = none := by
      rcases hfree with h | h
      · rw [tileInUse, if_pos (hperformed.1 h)]
      · rw [tileInUse, show (s.unitAt (coreClu w.core)).busy (w.tileAt a.tile.val) = none from h]
        split <;> rfl
    have hexec := exec_mrd_free hrunning hnone
    refine ⟨fun hout => hexec.trans (runWord_trap hi ?_), fun hlow hhigh => ?_⟩
    · rw [Issue.mrdEff, if_pos hout]
    have hin : ¬((s.issueOf w g (.mrd a)).simm a.b < 0 ∨ (s.issueOf w g (.mrd a)).simm a.b > 728) := by
      simp only [b, x] at hlow hhigh
      omega
    refine ⟨zeroesAtIssue hi hexec (fun hidle => ?_) rfl fun h => ?_, fun ps hactive hr => hexec.trans (runWord_done hi ?_),
      fun hactive hr => hexec.trans (runWord_done hi ?_)⟩
    · simp only [Issue.mrdEff, hin, hidle, Bool.not_false, if_true, if_false]
    · exact landAll_idle_g ((idle_dest decodeWord_mrd).trans rfl) rfl
    · simp only [x] at hactive hr
      simp only [Issue.mrdEff, hin, hactive, hr, Bool.not_true, Bool.false_eq_true, if_false]
    · simp only [x] at hactive hr
      simp only [Issue.mrdEff, hin, hactive, hr, Bool.not_true, Bool.false_eq_true, if_false]
      rfl

/-- The clause of O21 on MSTAT. -/
theorem mstat_begins {a : MstatArgs} (hi : Issues s w g (.mstat a)) :
    let x := s.issueOf w g (.mstat a)
    ZeroesAtIssue s w g (.mstat a) (zeroDead [a.d.val] true) ∧
    (∀ ps, x.anyActive = true → x.results = some ps → Leaves s w g (.mstat a) fun x => x.begin x.s ps true []) ∧
    (x.anyActive = true → x.results = none →
      Leaves s w g (.mstat a) fun x => x.begin x.s (x.active.map fun l => PendLane.new l (x.pred l)) false []) := by
  have hexec : exec (.mstat a) s = execMstat a s := rfl
  rw [execMstat] at hexec
  refine ⟨zeroesAtIssue hi hexec (fun hidle => ?_) rfl fun h => landAll_idle_g ((idle_dest decodeWord_mstat).trans rfl) rfl,
    fun ps hactive hr => hexec.trans (runWord_done hi ?_), fun hactive hr => hexec.trans (runWord_done hi ?_)⟩
  · simp only [hidle, Bool.not_false, if_true]
  · simp only [hactive, hr, Bool.not_true, Bool.false_eq_true, if_false]
  · simp only [hactive, hr, Bool.not_true, Bool.false_eq_true, if_false]

/-- Settles O21: MRD and MSTAT by the branches of their effects (mrd_begins, mstat_begins), and the spans by the cause that the
unit finds of them once the formats are read. -/
theorem matrixReadsBeginAndSpansTrap : Obligations.MatrixReadsBeginAndSpansTrap := by
  unfold Obligations.MatrixReadsBeginAndSpansTrap
  intro s w g
  refine ⟨fun a => mrd_begins, fun a => mstat_begins, ?_⟩
  intro refused bad stores
  refine ⟨?_, ?_, ?_, ?_, ?_, ?_⟩
  · intro a u fm c hf hi hok hc
    exact runTableWord_trap (effOf := fun r x => x.matStore a false r) hi (tableFor_mstore (.inl rfl) hf hok) rfl (matStore_trap rfl hc)
  · intro a u fm c hf hi hok hc
    exact runTableWord_trap (effOf := fun r x => x.matStore a true r) hi (tableFor_mstore (.inr rfl) hf hok) rfl (matStore_trap rfl hc)
  · intro a u d c hd hi hc
    exact runTableWord_trap (effOf := fun r x => x.matLoad a.sd.val a.sa.val none r) hi
      (tableFor_mload (desc_range hi rfl rfl) hd) rfl (matLoad_trap rfl hc)
  · intro a u d c hd hi hq hplanes hc
    exact runTableWord_trap (effOf := fun r x => x.matLoad a.sd.val a.sa.val (some (a.planes.val + 1)) r) hi
      (tableFor_mloadp (desc_range hi rfl rfl) hd hq hplanes) rfl (matLoad_trap rfl hc)
  · intro a hi x d hd fails l c rest hfails
    refine Eq.trans (b := execMpass a s) rfl (runWord_trap hi ?_)
    have hbad : (((s.issueOf w g (.mpass a)).active.filter (s.issueOf w g (.mpass a)).selects).filterMap fun l =>
        (spanCause w ((s.issueOf w g (.mpass a)).reg a.a l).val d.rowLen 8).map fun c => (l, c)) = (l, c) :: rest := hfails
    simp only [x] at hd
    rw [hfails]
    simp only [issueOf_w, hd, hbad]
  · intro a hi hout
    refine Eq.trans (b := execMwr a s) rfl (runWord_trap hi ?_)
    simp only [hout, if_true]

end Sys2Proof.Machine
end

section
/-! The checks of a word as it issues, in their order (04_instruction_words.md R100), and what the decoder reports of an opcode that
names no instruction. -/

namespace Sys2Proof.Machine

/-! ## Opcodes without a row (R100, R101) -/

theorem findRow_eq_none {rows : List OpRow} {op : Int} (h : ∀ r ∈ rows, r.op ≠ op) : findRow rows op = none := by
  induction rows with
  | nil => rfl
  | cons r rows ih =>
    rw [findRow, if_neg (h r (by simp))]
    exact ih fun q hq => h q (by simp [hq])

/-- R84: the fields of a word make the word. -/
theorem word_ofWord {v : Int} (h : v.natAbs ≤ maxMag 27) : (Fields.ofWord v).word = v := by
  have hstep (n m : Nat) : wrapInt m (dropInt n v) + 3 ^ m * dropInt (n + m) v = dropInt n v := by
    rw [← dropInt_dropInt, mul_comm]
    exact wrapInt_add_dropInt m (dropInt n v)
  have hlast : wrapInt 1 (dropInt 26 v) = dropInt 26 v := wrapInt_of_natAbs_le (natAbs_dropInt_le (n := 1) h)
  have hfirst : wrapInt 5 v + 3 ^ 5 * dropInt 5 v = v := by
    rw [mul_comm]
    exact wrapInt_add_dropInt 5 v
  have h1 := hstep 5 2
  have h2 := hstep 7 4
  have h3 := hstep 11 4
  have h4 := hstep 15 4
  have h5 := hstep 19 2
  have h6 := hstep 21 1
  have h7 := hstep 22 2
  have h8 := hstep 24 1
  have h9 := hstep 25 1
  simp only [Nat.reduceAdd, pow_one] at h1 h2 h3 h4 h5 h6 h7 h8 h9
  simp only [Fields.word, Fields.ofWord, hlast, h1, h2, h3, h4, h5, h6, h7, h8, h9, hfirst]

theorem decodeWord_op_zero {v : Int} (h : v.natAbs ≤ maxMag 27) (hop : wrapInt 5 v = 0) :
    decodeWord v = .error ⟨2, [if v = 0 then 9 else 10], 0, 0, false⟩ := by
  have hzero : (Fields.ofWord v).op = 0 := hop
  have hrow : findRow opRows 0 = none := by decide +kernel
  simp only [decodeWord, decodeFields, illegalOf, hzero, hrow, word_ofWord h, if_true]

theorem decodeWord_op_unknown {v : Int} (hop : wrapInt 5 v ≠ 0) (hrow : ∀ r ∈ opRows, r.op ≠ wrapInt 5 v) :
    decodeWord v = .error ⟨1, [1], 0, 0, false⟩ := by
  have hnone : findRow opRows (Fields.ofWord v).op = none := findRow_eq_none hrow
  have hne : (Fields.ofWord v).op ≠ 0 := hop
  simp only [decodeWord, decodeFields, illegalOf, hnone, hne, if_false]

/-! ## How every word issues (R100, R208) -/

variable {s t : State} {w : Workgroup} {g : Group} {i : Instr} {busy : Option Fail}

/-- A word that names no formats reads no table entry before it issues. -/
theorem tableFor_other (h1 : ∀ a, i ≠ .mload a) (h2 : ∀ a, i ≠ .mloadp a) (h3 : ∀ a, i ≠ .mstoreKeep a) (h4 : ∀ a, i ≠ .mstoreZero a) :
    s.tableFor w g i = (s, {}) := by
  cases i
  case mload a => exact absurd rfl (h1 a)
  case mloadp a => exact absurd rfl (h2 a)
  case mstoreKeep a => exact absurd rfl (h3 a)
  case mstoreZero a => exact absurd rfl (h4 a)
  case lit p =>
    have hop : (Fields.ofWord (-107 + 3 ^ 5 * p.val)).op = -107 := wrapInt_low (n := 5) (by decide) _
    simp only [State.tableFor, Instr.fields, State.readTable, hop]
    rfl
  all_goals rfl

/-- R214: an MRD's tile has no operation in flight, or its entry had been performed. -/
def TileIdle (s : State) (w : Workgroup) (g : Group) (i : Instr) : Prop :=
  ∀ a, i = .mrd a → (s.unitAt (coreClu w.core)).busy (w.tileAt a.tile.val) = none ∨ (g.run.again.map (·.perf)).getD false = true

/-- A word issues after what it reads of the tables, with what its own unit finds: formats that it refuses, or for MRD a tile in
use. -/
def IssuesWith (s : State) (w : Workgroup) (g : Group) (i : Instr) (busy : Option Fail) (eff : Issue → Eff) : Prop :=
  exec i s = .next ((s.tableFor w g i).1.issueWord w g i busy eff) ∧
    (busy.any fun f => f.cause == 1) = (s.tableFor w g i).2.refused ∧
    (TileIdle s w g i → (s.tableFor w g i).2.refused = false → busy = none)

theorem issuesWith_of_runTableWord {effOf : TableRead → Issue → Eff} (hr : s.running s.cur = some (w, g))
    (hexec : exec i s = runTableWord i s effOf) : ∃ busy eff, IssuesWith s w g i busy eff := by
  refine ⟨if (s.tableFor w g i).2.refused then some { cause := 1, detail := 3 } else none, effOf (s.tableFor w g i).2, ?_, ?_, ?_⟩
  · rw [hexec, runTableWord, hr]
  · cases (s.tableFor w g i).2.refused <;> rfl
  · intro _ hrefused
    rw [hrefused]
    rfl

theorem issuesWith_of_runWord {eff : Issue → Eff} (hr : s.running s.cur = some (w, g)) (hexec : exec i s = runWord i s eff)
    (hother : s.tableFor w g i = (s, {})) : ∃ busy eff, IssuesWith s w g i busy eff :=
  ⟨none, eff, by rw [hexec, runWord, hr, hother], by rw [hother]; rfl, fun _ _ => rfl⟩

theorem tileInUse_any {a : MrdArgs} : ((tileInUse s w g a).any fun f => f.cause == 1) = false := by
  rw [tileInUse]
  split
  · rfl
  · rw [Option.any_map, Option.any_eq_false]
    intro e _
    rfl

theorem tileInUse_of_idle {a : MrdArgs} (h : TileIdle s w g (.mrd a)) : tileInUse s w g a = none := by
  rw [tileInUse]
  split
  · rfl
  next hperf =>
    rw [(h a rfl).resolve_right hperf]
    rfl

theorem exec_word (hr : s.running s.cur = some (w, g)) (hev : i.isEvent = false) : ∃ busy eff, IssuesWith s w g i busy eff := by
  cases i
  case mload a => exact issuesWith_of_runTableWord (effOf := fun r x => x.matLoad a.sd.val a.sa.val none r) hr rfl
  case mloadp a => exact issuesWith_of_runTableWord (effOf := fun r x => x.matLoad a.sd.val a.sa.val (some (a.planes.val + 1)) r) hr rfl
  case mstoreKeep a => exact issuesWith_of_runTableWord (effOf := fun r x => x.matStore a false r) hr rfl
  case mstoreZero a => exact issuesWith_of_runTableWord (effOf := fun r x => x.matStore a true r) hr rfl
  case mrd a => exact ⟨tileInUse s w g a, _, exec_mrd hr, tileInUse_any, fun hidle _ => tileInUse_of_idle hidle⟩
  case lit p => exact issuesWith_of_runWord hr rfl (tableFor_other (by simp) (by simp) (by simp) (by simp))
  all_goals cases hev
  all_goals exact issuesWith_of_runWord hr rfl rfl

/-! ## The order of the checks (R100) -/

theorem issueWord_check {eff : Issue → Eff} {f : Fail} (hc : checkWord t w g i busy = some f) :
    t.issueWord w g i busy eff = t.takeFault g.ref (wordOf i) i.pred.eff f := by
  simp only [State.issueWord, hc]

theorem issueWord_waits {eff : Issue → Eff} (hc : checkWord t w g i busy = none) (hw : (t.issueOf w g i).slotFull = true ∨
    (i.needsLicence = true ∧ (t.licensed w = false ∨ (t.issueOf w g i).heldBack = true))) : t.issueWord w g i busy eff = t := by
  have hkept : ((t.issueOf w g i).slotFull || (i.needsLicence && (!t.licensed w || (t.issueOf w g i).heldBack))) = true := by
    rcases hw with h | ⟨h, h'⟩
    · simp [h]
    · rcases h' with h' | h' <;> simp [h, h']
  simp only [State.issueWord, hc, hkept, if_true]

/-- The checks of steps 6 to 8: privilege, mode, what the unit finds of a tile, pending results and soft errors. -/
def checkRest (t : State) (w : Workgroup) (g : Group) (i : Instr) (busy : Option Fail) : Option Fail :=
  if (i.supervisorOnly && !w.region.supervisor) || i.writesReadOnly || (i.handlerOnly && g.handler.isNone) then some { cause := 5 }
  else if i.modeViolation w.kernel.reforming then some { cause := 6 }
  else busy.or (if w.kernel.checked && g.pend.any (pendTouches g g.run.active w.kernel.width i) then some { cause := 17 }
    else if readsBad t g g.run.active w.kernel.width i then some { cause := 15 } else none)

/-- The check of a word's LITs and immediate. -/
def wordLit (g : Group) (i : Instr) : Option Fail :=
  litCheck i g.wordPay (if g.run.again.isSome then 0 else g.run.lits) g.run.again.isSome

/-- Whether step 4 fails: an index out of range, or formats refused, of an immediate that no LIT makes. -/
def failsEarly (g : Group) (i : Instr) (refused : Bool) : Bool :=
  (match wordLit g i with
    | some f => f.cause == 1 && (if g.run.again.isSome then 0 else g.run.lits) == 0
    | none => false) || (refused && (i.immTop.isNone || (if g.run.again.isSome then 0 else g.run.lits) == 0))

/-- R100: the checks of a word within its run, in their order. -/
theorem checkWord_eq (hcount : g.run.count < 27 ∨ (g.run.again.map (·.past)).getD false = true) (hwf : i.wellFormed = true) :
    checkWord t w g i busy =
      if failsEarly g i (busy.any fun f => f.cause == 1) then some { cause := 1, detail := 3 }
      else if overAlloc w i then some { cause := 1, detail := 5 }
      else (wordLit g i).or (if busy.any (fun f => f.cause == 1) then some { cause := 1, detail := 3 } else checkRest t w g i busy) := by
  have hrun : ¬(g.run.count ≥ 27 ∧ (!(g.run.again.map (·.past)).getD false) = true) := by
    rintro ⟨hlate, hpast⟩
    rcases hcount with h | h
    · omega
    · simp [h] at hpast
  simp only [checkWord, hrun, hwf, if_false, Bool.not_true, Bool.false_eq_true]
  change (if failsEarly g i (busy.any fun f => f.cause == 1) then _ else _) = _
  refine congrArg (fun e => if failsEarly g i (busy.any fun f => f.cause == 1) then _ else if overAlloc w i then _ else e) ?_
  change (match wordLit g i with
    | some f => some f
    | none => _) = _
  cases wordLit g i with
  | some f => rfl
  | none =>
    cases busy <;> rfl

theorem failsEarly_iff {refused : Bool} : failsEarly g i refused = true ↔
    (∃ f, wordLit g i = some f ∧ f.cause = 1 ∧ (if g.run.again.isSome then 0 else g.run.lits) = 0) ∨
      (refused = true ∧ (i.immTop = none ∨ (if g.run.again.isSome then 0 else g.run.lits) = 0)) := by
  rw [failsEarly]
  cases wordLit g i <;> simp

/-- A run of 27 words (R61). -/
theorem checkWord_late (hcount : 27 ≤ g.run.count) (hpast : (g.run.again.map (·.past)).getD false = false) :
    checkWord t w g i busy = some { cause := 4 } := by
  have hrun : g.run.count ≥ 27 ∧ (!(g.run.again.map (·.past)).getD false) = true := ⟨hcount, by rw [hpast]; rfl⟩
  simp only [checkWord, hrun, and_self, if_true]

/-- R96: a LIT before a word that takes none. -/
theorem wordLit_of_none (huse : i.litUse = .none) (hagain : g.run.again = none) (hlits : 0 < g.run.lits) :
    wordLit g i = some { cause := 3 } := by
  simp [wordLit, litCheck, huse, hagain, hlits]

/-- Settles O56: every word issues through the one chain of checks (exec_word, checkWord_eq), of which each clause names the first
that fails. -/
theorem checksTrapInOrder : Obligations.ChecksTrapInOrder := by
  unfold Obligations.ChecksTrapInOrder
  refine ⟨fun v hv => ⟨fun hop => ⟨_, decodeWord_op_zero hv hop, rfl, rfl⟩, fun hop hrow => ⟨_, decodeWord_op_unknown hop hrow, rfl, rfl⟩⟩,
    ?_⟩
  intro s w g i hr hev hwf t refused traps lits lit early privileged pending past idle
  obtain ⟨busy, eff, hexec, hunit, hidle⟩ := exec_word hr hev
  have htraps : ∀ f, checkWord t w g i busy = some f → traps f := fun f hc => hexec.trans (congrArg _ (issueWord_check hc))
  refine ⟨fun h1 h2 h3 h4 => ?_, fun hcount hpast => htraps _ (checkWord_late hcount hpast), fun hcount => ?_⟩
  · simp only [t, refused, tableFor_other h1 h2 h3 h4, and_self]
  have hearly : failsEarly g i refused = true ↔ early := failsEarly_iff
  have hcheck : checkWord t w g i busy = if early then some { cause := 1, detail := 3 }
      else if overAlloc w i then some { cause := 1, detail := 5 }
      else lit.or (if refused then some { cause := 1, detail := 3 } else checkRest t w g i busy) := by
    rw [checkWord_eq hcount hwf, hunit]
    simp only [← hearly]
    rfl
  refine ⟨fun he => htraps _ ?_, fun he ha => htraps _ ?_, fun f he ha hl => htraps _ ?_, fun huse hagain hlits he ha => htraps _ ?_,
    fun hl ha href => htraps _ ?_, fun hl ha href => ?_⟩
  · rw [hcheck, if_pos he]
  · rw [hcheck, if_neg he, if_pos ha]
  · simp [hcheck, he, ha, hl]
  · simp [hcheck, he, ha, show lit = some { cause := 3 } from wordLit_of_none huse hagain hlits]
  · simp [hcheck, ha, hl, href]
  have hlate : ¬early := by simp [early, hl, href]
  have hrest : checkWord t w g i busy = checkRest t w g i busy := by simp [hcheck, hlate, ha, hl, href]
  have hpriv : ((i.supervisorOnly && !w.region.supervisor) || i.writesReadOnly || (i.handlerOnly && g.handler.isNone)) = true ↔
      privileged := by simp [privileged, or_assoc]
  refine ⟨fun hp => htraps _ ?_, fun hp hm => htraps _ ?_, fun hi hp hm => ?_⟩
  · rw [hrest, checkRest, if_pos (hpriv.2 hp)]
  · rw [hrest, checkRest, if_neg (fun h => hp (hpriv.1 h)), if_pos hm]
  have hlast : checkWord t w g i busy = if pending then some { cause := 17 }
      else if readsBad t g g.run.active w.kernel.width i then some { cause := 15 } else none := by
    rw [hrest, checkRest, if_neg (fun h => hp (hpriv.1 h)), hm, hidle hi href]
    simp [pending]
  refine ⟨fun hpend => htraps _ ?_, fun hpend hb => htraps _ ?_, fun hpend hb hw => ?_⟩
  · rw [hlast, if_pos hpend]
  · rw [hlast, if_neg hpend, if_pos hb]
  · exact hexec.trans (congrArg _ (issueWord_waits (by rw [hlast, if_neg hpend, hb]; rfl) hw))

end Sys2Proof.Machine
end

section
/-! What a fixed-latency word of a group with nothing pending leaves as it was: a relation of lanes that no move of a lane breaks is
carried through the issue, the word's own effect and the settling of calls. -/

namespace Sys2Proof.Machine

/-! ## Relations of lanes and of groups -/

/-- A relation of a lane before and after, by its number, that any move and parking of the lane keeps. -/
structure LaneRule (R : Nat → Lane → Lane → Prop) : Prop where
  refl : ∀ i l, R i l l
  trans : ∀ {i a b c}, R i a b → R i b c → R i a c
  moved : ∀ i l pc st, R i l { l with pc := pc, st := st }

/-- A group keeps the s registers of S, its wait slots, its pending words, its handler state and its phase, and its lanes are related
by R. -/
structure Keeps (S : Nat → Prop) (R : Nat → Lane → Lane → Prop) (g g' : Group) : Prop where
  ref : g'.ref = g.ref
  scalar : ∀ n, S n → g'.rdS n = g.rdS n
  count : ∀ n, g'.rdW n = g.rdW n
  pend : g'.pend = g.pend
  handler : g'.handler = g.handler
  phase : g'.phase = g.phase
  lane : ∀ i, R i (g.lane i) (g'.lane i)

section
variable {S : Nat → Prop} {R : Nat → Lane → Lane → Prop} (hR : LaneRule R)
include hR

/-- What a group's run, progress of RESUME and calls are does not matter. -/
theorem keeps_run (g : Group) (run : Run) (resuming : Option Resuming) (calls : List CallRec) :
    Keeps S R g { g with run := run, resuming := resuming, calls := calls } :=
  ⟨rfl, fun _ _ => rfl, fun _ => rfl, rfl, rfl, rfl, fun i => hR.refl i _⟩

theorem keeps_refl (g : Group) : Keeps S R g g := keeps_run hR g g.run g.resuming g.calls

theorem keeps_trans {a b c : Group} (h : Keeps S R a b) (h' : Keeps S R b c) : Keeps S R a c where
  ref := h'.ref.trans h.ref
  scalar n hn := (h'.scalar n hn).trans (h.scalar n hn)
  count n := (h'.count n).trans (h.count n)
  pend := h'.pend.trans h.pend
  handler := h'.handler.trans h.handler
  phase := h'.phase.trans h.phase
  lane i := hR.trans (h.lane i) (h'.lane i)

theorem keeps_updLane {f : Lane → Lane} (g : Group) (i : Nat) (hf : ∀ l, R i l (f l)) : Keeps S R g (g.updLane i f) where
  ref := rfl
  scalar _ _ := rfl
  count _ := rfl
  pend := rfl
  handler := rfl
  phase := rfl
  lane j := by
    rw [lane_updLane]
    split
    case isTrue h => obtain ⟨rfl, -⟩ := h; exact hf _
    case isFalse => exact hR.refl _ _

theorem keeps_updLanes {f : Nat → Lane → Lane} {is : List Nat} (g : Group) (hf : ∀ i ∈ is, ∀ l, R i l (f i l)) :
    Keeps S R g (g.updLanes is f) := by
  induction is generalizing g with
  | nil => exact keeps_refl hR g
  | cons i is ih =>
    exact keeps_trans hR (keeps_updLane hR g i (hf i (by simp))) (ih _ fun j hj => hf j (by simp [hj]))

theorem keeps_advance (g : Group) (pc : Word) : Keeps S R g (g.advance pc) := by
  unfold Group.advance
  split
  · exact keeps_run hR g _ _ _
  · exact keeps_trans hR (keeps_updLanes hR g fun i _ l => hR.moved i l _ l.st) (keeps_run hR _ _ _ _)

theorem keeps_parkMoved (g : Group) (moved : List Nat) : Keeps S R g (g.parkMoved moved) := by
  unfold Group.parkMoved
  induction moved generalizing g with
  | nil => exact keeps_refl hR g
  | cons i is ih =>
    rw [List.foldl_cons]
    refine keeps_trans hR ?_ (ih _)
    split
    · dsimp only
      split
      · exact keeps_trans hR (keeps_updLane hR g i fun l => hR.moved i l l.pc _) (keeps_run hR _ _ _ _)
      · exact keeps_refl hR g
    · exact keeps_refl hR g

theorem keeps_closeCalls (g : Group) : Keeps S R g g.closeCalls := by
  unfold Group.closeCalls
  refine keeps_trans hR (keeps_run hR g _ _ _) (keeps_updLanes hR _ fun i _ l => ?_)
  split
  · exact hR.moved i l l.pc _
  · exact hR.refl i l

/-- R175: the settling of calls keeps what a word keeps, and may end the run. -/
theorem settleCalls_keeps (g : Group) (moved : List Nat) :
    ∃ k, Keeps S R g k ∧ (g.settleCalls moved = k ∨ k.phase = .running ∧ g.settleCalls moved = k.endRun []) := by
  unfold Group.settleCalls
  split
  · exact ⟨g, keeps_refl hR g, .inl rfl⟩
  · refine ⟨_, keeps_trans hR (keeps_parkMoved hR g moved) (keeps_closeCalls hR _), ?_⟩
    dsimp only
    split
    case isTrue h =>
      obtain ⟨hrunning, -⟩ := Bool.and_eq_true_iff.1 h
      exact .inr ⟨beq_iff_eq.1 hrunning, rfl⟩
    case isFalse => exact .inl rfl

end

theorem endRun_ref (g : Group) (mask : List Nat) : (g.endRun mask).ref = g.ref := rfl

theorem settleCalls_ref (g : Group) (moved : List Nat) : (g.settleCalls moved).ref = g.ref := by
  have hR : LaneRule fun _ _ _ => True := ⟨fun _ _ => trivial, fun _ _ => trivial, fun _ _ _ _ => trivial⟩
  obtain ⟨k, hk, h | ⟨-, h⟩⟩ := settleCalls_keeps (S := fun _ => True) hR g moved
  · rw [h, hk.ref]
  · rw [h, endRun_ref, hk.ref]

theorem advance_ref (g : Group) (pc : Word) : (g.advance pc).ref = g.ref := by
  have hR : LaneRule fun _ _ _ => True := ⟨fun _ _ => trivial, fun _ _ => trivial, fun _ _ _ _ => trivial⟩
  exact (keeps_advance (S := fun _ => True) hR g pc).ref

/-- The temporaries of a group whose run has ended are 0 (R62). -/
theorem lane_endRun (g : Group) (mask : List Nat) (i : Nat) : (g.endRun mask).lane i = { g.lane i with h := [] } := by
  simp only [Group.lane, Group.endRun, Group.clearH, List.getD_eq_getElem?_getD, List.getElem?_map]
  cases g.lanes[i]? <;> rfl

/-! ## What follows a word -/

/-- Only the marks of soft errors tell two states apart. -/
def SameButMarks (s t : State) : Prop := t = { s with bad := { s.bad with regs := t.bad.regs } }

theorem sameButMarks_trans {s t u : State} (h : SameButMarks s t) (h' : SameButMarks t u) : SameButMarks s u := by
  unfold SameButMarks at *
  rw [h', h]

theorem sameButMarks_foldl {α : Type} {f : State → α → State} (hf : ∀ s a, SameButMarks s (f s a)) (xs : List α) (s : State) :
    SameButMarks s (xs.foldl f s) := by
  induction xs generalizing s with
  | nil => rfl
  | cons x xs ih => exact sameButMarks_trans (hf s x) (ih _)

/-- R175, R240: what follows a word settles the calls of its group, and beside that clears marks of soft errors alone. -/
theorem after_eq (x : Issue) (u : State) : SameButMarks (u.updGroup x.r fun h => h.settleCalls x.active) (x.after u) := by
  unfold Issue.after
  dsimp only
  split
  · rfl
  · refine sameButMarks_trans (sameButMarks_foldl ?lanes _ _) (sameButMarks_foldl ?scalars _ _)
    case lanes => exact fun _ _ => rfl
    case scalars => intro u r; split <;> rfl

theorem sameButMarks_groupOf {s t : State} (h : SameButMarks s t) (r : GroupRef) : t.groupOf r = s.groupOf r := by rw [h]; rfl

/-! ## A word of a group with nothing pending -/

section
variable {s t : State} {w : Workgroup} {g : Group} {i : Instr} {eff : Issue → Eff} {F : Group → Group}

/-- The state after a word that has changed its group by F. -/
theorem next_of_done {u : State} (hi : Issues s w g i) (hexec : exec i s = runWord i s eff)
    (heff : eff (s.issueOf w g i) = .done (u.updGroup g.ref F)) (ht : exec i s = .next t) :
    SameButMarks ((u.updGroup g.ref F).updGroup g.ref fun h => h.settleCalls g.run.active) t := by
  rw [hexec, runWord_done hi heff] at ht
  cases ht
  exact after_eq (s.issueOf w g i) _

/-- The group of the word, after it: what its effect keeps it keeps, and its run may have ended. -/
theorem group_of_done {S : Nat → Prop} {R : Nat → Lane → Lane → Prop} (hR : LaneRule R) {h h' : Group} {u : State}
    (hpend : g.pend = []) (hh : s.groupOf g.ref = some h) (hh' : t.groupOf g.ref = some h') (hi : Issues s w g i)
    (hexec : exec i s = runWord i s eff) (heff : eff (s.issueOf w g i) = .done (u.updGroup g.ref F))
    (hu : u.groups = (s.issueOf w g i).s.groups) (hF : ∀ k, Keeps S R k (F k)) (ht : exec i s = .next t) :
    ∃ k, Keeps S R h k ∧ (h' = k ∨ k.phase = .running ∧ h' = k.endRun []) := by
  have hissued : u.groupOf g.ref = some (h.advance h.wordPc) := by
    rw [State.groupOf, hu, issueOf_of_nil hpend]
    exact (progEvent_groupOf ..).trans (by rw [groupOf_updGroup_same fun g => advance_ref g g.wordPc, hh]; rfl)
  have hsettled : t.groupOf g.ref = some ((F (h.advance h.wordPc)).settleCalls g.run.active) := by
    rw [sameButMarks_groupOf (next_of_done hi hexec heff ht), groupOf_updGroup_same fun g => settleCalls_ref g _,
      groupOf_updGroup_same fun g => (hF g).ref, hissued]
    rfl
  obtain rfl : h' = _ := Option.some.inj (hh'.symm.trans hsettled)
  obtain ⟨k, hk, hcases⟩ := settleCalls_keeps (S := S) hR (F (h.advance h.wordPc)) g.run.active
  exact ⟨k, keeps_trans hR (keeps_trans hR (keeps_advance hR h _) (hF _)) hk, hcases⟩

/-- A word that changes its group alone leaves memory, the other groups and all state beside as they were, but for programmable
counters and the marks of soft errors. -/
theorem rest_of_done (hpend : g.pend = []) (hi : Issues s w g i) (hexec : exec i s = runWord i s eff)
    (heff : eff (s.issueOf w g i) = .done ((s.issueOf w g i).s.updGroup g.ref F)) (hF : ∀ k, (F k).ref = k.ref)
    (ht : exec i s = .next t) : SameMemory s t ∧ SameButGroups s t ∧ SameOtherGroups s t g.ref := by
  have hmarks := next_of_done hi hexec heff ht
  rw [issueOf_of_nil hpend] at hmarks
  dsimp only at hmarks
  rw [progEvent_cores] at hmarks
  have hcores : t.cores = ((s.updGroup g.ref fun g => g.advance g.wordPc).progEvent (coreIdx w.core) 1 (some w.region.ctx.num)).cores := by
    rw [hmarks]; rfl
  refine ⟨?memory, ⟨?fields, fun core => ?_⟩, fun q hq => ?_⟩
  case memory => exact sameMemory_of_eq (by rw [hmarks]; rfl) (by rw [hmarks]; rfl) (by rw [hmarks]; rfl)
  case fields => rw [hmarks]; rfl
  · simp only [State.coreAt, hcores]
    exact progEvent_coreAt _ _ _ _ core
  · rw [sameButMarks_groupOf hmarks, groupOf_updGroup_other (fun g => settleCalls_ref g _) hq, groupOf_updGroup_other hF hq]
    exact groupOf_updGroup_other (fun g => advance_ref g g.wordPc) hq

end

end Sys2Proof.Machine
end

section
/-! What the writing of a result keeps of a lane: the registers that are not its destination, and the flags that its operation does not
raise (R117, R123). -/

namespace Sys2Proof.Machine

/-! ## Flags -/

/-- A relation of the flags before and after that is kept by doing nothing and by going on. -/
structure FlagRule (fl : Flags → Flags → Prop) : Prop where
  refl : ∀ a, fl a a
  trans : ∀ {a b c}, fl a b → fl b c → fl a c

/-- Raising the flags f is in a rule. -/
def Raises (fl : Flags → Flags → Prop) (f : Flags) : Prop := ∀ a, fl a (a.or f)

/-- No flag changes. -/
def NoFlags (a b : Flags) : Prop := b = a
/-- Saturate alone changes. -/
def OnlySaturate (a b : Flags) : Prop := b = { a with saturate := b.saturate }
/-- Divzero alone changes. -/
def OnlyDivzero (a b : Flags) : Prop := b = { a with divzero := b.divzero }
/-- Invalid alone changes. -/
def OnlyInvalid (a b : Flags) : Prop := b = { a with invalid := b.invalid }
/-- Divzero does not change. -/
def NotDivzero (a b : Flags) : Prop := b.divzero = a.divzero

theorem flagRule_noFlags : FlagRule NoFlags := ⟨fun _ => rfl, fun h h' => Eq.trans h' h⟩
theorem flagRule_onlySaturate : FlagRule OnlySaturate :=
  ⟨fun _ => rfl, fun h h' => by rw [OnlySaturate] at *; rw [h', h]⟩
theorem flagRule_onlyDivzero : FlagRule OnlyDivzero :=
  ⟨fun _ => rfl, fun h h' => by rw [OnlyDivzero] at *; rw [h', h]⟩
theorem flagRule_onlyInvalid : FlagRule OnlyInvalid :=
  ⟨fun _ => rfl, fun h h' => by rw [OnlyInvalid] at *; rw [h', h]⟩
theorem flagRule_notDivzero : FlagRule NotDivzero := ⟨fun _ => rfl, fun h h' => Eq.trans h' h⟩

theorem or_none (a : Flags) : a.or {} = a := by simp [Flags.or]

theorem raises_none {fl : Flags → Flags → Prop} (hfl : FlagRule fl) : Raises fl {} := fun a => by rw [or_none]; exact hfl.refl a
theorem raises_saturate (b : Bool) : Raises OnlySaturate { saturate := b } := fun a => by simp [OnlySaturate, Flags.or]
theorem raises_divzero (b : Bool) : Raises OnlyDivzero { divzero := b } := fun a => by simp [OnlyDivzero, Flags.or]
theorem raises_notDivzero {f : Flags} (h : f.divzero = false) : Raises NotDivzero f := fun a => by simp [NotDivzero, Flags.or, h]

/-! ## Lanes -/

/-- A lane keeps its thread and bank, its registers but those listed, and, where that is said, its random state and the latched high
part of the time; its flags change by a rule. -/
structure LaneKeeps (gs hs ks : List Nat) (fl : Flags → Flags → Prop) (seeded timed : Prop) (l l' : Lane) : Prop where
  regs : SameRegisters l l' gs hs ks
  rng : seeded → l'.rng = l.rng
  time : timed → l'.timeHi = l.timeHi
  flags : fl l.fs l'.fs

section
variable {gs hs ks : List Nat} {fl : Flags → Flags → Prop} {seeded timed : Prop}

theorem laneKeeps_refl (hfl : FlagRule fl) (l : Lane) : LaneKeeps gs hs ks fl seeded timed l l :=
  ⟨⟨fun _ _ => rfl, fun _ _ => rfl, fun _ _ => rfl, rfl, rfl, rfl⟩, fun _ => rfl, fun _ => rfl, hfl.refl _⟩

theorem laneKeeps_trans (hfl : FlagRule fl) {a b c : Lane} (h : LaneKeeps gs hs ks fl seeded timed a b)
    (h' : LaneKeeps gs hs ks fl seeded timed b c) : LaneKeeps gs hs ks fl seeded timed a c := by
  obtain ⟨⟨hg, hh, hk, hthread, hbank, hskip⟩, hrng, htime, hflags⟩ := h
  obtain ⟨⟨hg', hh', hk', hthread', hbank', hskip'⟩, hrng', htime', hflags'⟩ := h'
  exact ⟨⟨fun n hn => (hg' n hn).trans (hg n hn), fun n hn => (hh' n hn).trans (hh n hn),
      fun n hn => (hk' n hn).trans (hk n hn), hthread'.trans hthread, hbank'.trans hbank, hskip'.trans hskip⟩,
    fun hs => (hrng' hs).trans (hrng hs), fun ht => (htime' ht).trans (htime ht), hfl.trans hflags hflags'⟩

/-- The lanes of a group keep what the rule of each says. -/
theorem laneRule_keeps {fl : Nat → Flags → Flags → Prop} {seeded : Nat → Prop} (hfl : ∀ i, FlagRule (fl i)) :
    LaneRule fun i => LaneKeeps gs hs ks (fl i) (seeded i) timed where
  refl i := laneKeeps_refl (hfl i)
  trans := fun {i} => laneKeeps_trans (hfl i)
  moved i _ _ _ := ⟨⟨fun _ _ => rfl, fun _ _ => rfl, fun _ _ => rfl, rfl, rfl, rfl⟩, fun _ => rfl, fun _ => rfl, (hfl i).refl _⟩

/-! ### Writes of registers -/

theorem wrG_keeps (hfl : FlagRule fl) {n : Nat} (hn : n = 0 ∨ n ∈ gs) (l : Lane) (v : Word) :
    LaneKeeps gs hs ks fl seeded timed l (l.wrG n v) := by
  have hrd : ∀ m, m ∉ gs → (l.wrG n v).rdG m = l.rdG m := fun m hm => by
    rw [rdG_wrG]
    rcases hn with rfl | hn
    · by_cases h0 : m = 0 <;> simp [h0, Lane.rdG]
    · have hmn : m ≠ n := fun h => hm (h ▸ hn)
      by_cases h0 : m = 0 <;> simp [h0, hmn, Lane.rdG]
  by_cases h0 : n = 0
  · rw [Lane.wrG, if_pos h0]
    exact laneKeeps_refl hfl l
  · rw [Lane.wrG, if_neg h0] at hrd ⊢
    exact ⟨⟨hrd, fun _ _ => rfl, fun _ _ => rfl, rfl, rfl, rfl⟩, fun _ => rfl, fun _ => rfl, hfl.refl _⟩

theorem wrH_keeps (hfl : FlagRule fl) {n : Nat} (hn : n ∈ hs) (l : Lane) (v : Word) :
    LaneKeeps gs hs ks fl seeded timed l (l.wrH n v) := by
  refine ⟨⟨fun _ _ => rfl, fun m hm => ?_, fun _ _ => rfl, rfl, rfl, rfl⟩, fun _ => rfl, fun _ => rfl, hfl.refl _⟩
  have hmn : m ≠ n := fun h => hm (h ▸ hn)
  rw [rdH_wrH, if_neg hmn]

theorem wrK_keeps (hfl : FlagRule fl) {n : Nat} (hn : n ∈ ks) (l : Lane) (v : Trits 3) :
    LaneKeeps gs hs ks fl seeded timed l (l.wrK n v) := by
  have hrd : ∀ m, m ∉ ks → (l.wrK n v).rdK m = l.rdK m := fun m hm => by
    have hmn : m ≠ n := fun h => hm (h ▸ hn)
    rw [rdK_wrK, if_neg hmn]
    by_cases h0 : m = 0 <;> simp [h0, Lane.rdK]
  by_cases h0 : n = 0
  · rw [Lane.wrK, if_pos h0]
    exact laneKeeps_refl hfl l
  · rw [Lane.wrK, if_neg h0] at hrd ⊢
    exact ⟨⟨fun _ _ => rfl, fun _ _ => rfl, hrd, rfl, rfl, rfl⟩, fun _ => rfl, fun _ => rfl, hfl.refl _⟩

theorem fs_keeps (l : Lane) {f : Flags} (hf : fl l.fs f) : LaneKeeps gs hs ks fl seeded timed l { l with fs := f } :=
  ⟨⟨fun _ _ => rfl, fun _ _ => rfl, fun _ _ => rfl, rfl, rfl, rfl⟩, fun _ => rfl, fun _ => rfl, hf⟩

theorem rng_keeps (hfl : FlagRule fl) (l : Lane) (v : Word) (h : ¬seeded) : LaneKeeps gs hs ks fl seeded timed l { l with rng := v } :=
  ⟨⟨fun _ _ => rfl, fun _ _ => rfl, fun _ _ => rfl, rfl, rfl, rfl⟩, fun hs => absurd hs h, fun _ => rfl, hfl.refl _⟩

theorem timeHi_keeps (hfl : FlagRule fl) (l : Lane) (v : Option Word) (h : ¬timed) :
    LaneKeeps gs hs ks fl seeded timed l { l with timeHi := v } :=
  ⟨⟨fun _ _ => rfl, fun _ _ => rfl, fun _ _ => rfl, rfl, rfl, rfl⟩, fun _ => rfl, fun ht => absurd ht h, hfl.refl _⟩

/-- A triple at g0 is discarded (R113). -/
theorem wrTriple_keeps (hfl : FlagRule fl) {n : Nat} (hn : ∀ m ∈ gRun n true, m ∈ gs) (l : Lane) (v : Int) :
    LaneKeeps gs hs ks fl seeded timed l (l.wrTriple n v) := by
  unfold Lane.wrTriple
  by_cases h0 : n = 0
  · rw [if_pos h0]
    exact laneKeeps_refl hfl l
  · rw [if_neg h0]
    simp only [gRun, if_true, if_neg h0] at hn
    have hwr (m : Nat) (hm : m ∈ [n, n + 1, n + 2]) (l : Lane) (v : Word) : LaneKeeps gs hs ks fl seeded timed l (l.wrG m v) :=
      wrG_keeps hfl (.inr (hn m hm)) l v
    exact laneKeeps_trans hfl (laneKeeps_trans hfl (hwr n (by simp) _ _) (hwr (n + 1) (by simp) _ _)) (hwr (n + 2) (by simp) _ _)

/-! ### Results -/

/-- A word written to a destination of one register. -/
theorem wr_keeps {ty : Ty} (hfl : FlagRule fl) (hty : ty ≠ .f81) (d : Reg) (l : Lane) (v : Word) :
    LaneKeeps (Reg.gNums ty d) (Reg.hNums d) ks fl seeded timed l (l.wr d v) := by
  cases d with
  | g n => exact wrG_keeps (n := n.val) hfl (.inr (by simp [Reg.gNums, gRun, hty])) l v
  | h n => exact wrH_keeps hfl (List.mem_singleton.2 rfl) l v

/-- The flags of the active elements are raised. -/
theorem raised_keeps (hfl : FlagRule fl) {f : Nat → Flags} (hf : ∀ j, Raises fl (f j)) (p : Trits 3) (js : List Nat) (a : Flags) :
    fl a (js.foldl (fun a j => if p.trit j = 1 then a.or (f j) else a) a) := by
  induction js generalizing a with
  | nil => exact hfl.refl a
  | cons j js ih =>
    refine hfl.trans ?_ (ih _)
    dsimp only
    split
    · exact hf j a
    · exact hfl.refl a

/-- R117, R123: what `put` keeps; a triple has no run temporary for destination. -/
theorem put_keeps {ty : Ty} {d : Reg} (hfl : FlagRule fl) (hd : ty = .f81 → d.isH = false) (l : Lane) (p : Trits 3)
    {f : Nat → Int × Flags} (hf : ∀ j, Raises fl (f j).2) :
    LaneKeeps (Reg.gNums ty d) (Reg.hNums d) ks fl seeded timed l (l.put ty d p f) := by
  unfold Lane.put
  refine laneKeeps_trans hfl (fs_keeps l (raised_keeps hfl hf p ty.elems l.fs)) ?_
  dsimp only
  by_cases hty : ty = .f81
  · subst hty
    rw [if_pos rfl]
    split
    · exact laneKeeps_refl hfl _
    · cases d with
      | g n => exact wrTriple_keeps hfl (fun _ hm => hm) _ _
      | h n => exact absurd (hd rfl) (by simp [Reg.isH])
  · rw [if_neg hty]
    split
    · exact wr_keeps hfl hty d _ _
    · exact wr_keeps hfl hty d _ _

theorem putK_keeps (hfl : FlagRule fl) {kd : Nat} (hk : kd ∈ ks) (l : Lane) (p : Trits 3) (byWord : Bool) (f : Nat → Int) :
    LaneKeeps gs hs ks fl seeded timed l (l.putK kd p byWord f) := by
  unfold Lane.putK
  dsimp only
  split
  · split
    · exact laneKeeps_refl hfl l
    · exact wrK_keeps hfl hk l _
  · exact wrK_keeps hfl hk l _

theorem putTryte_keeps {ty : Ty} {d : Reg} (hfl : FlagRule fl) (hty : ty ≠ .f81) (l : Lane) (p : Trits 3) (c : Nat)
    {v : Int × Flags} (hv : Raises fl v.2) :
    LaneKeeps (Reg.gNums ty d) (Reg.hNums d) ks fl seeded timed l (l.putTryte d p c v) := by
  unfold Lane.putTryte
  refine laneKeeps_trans hfl (fs_keeps l ?_) (wr_keeps hfl hty d _ _)
  split
  · exact hv l.fs
  · exact hfl.refl _

theorem laneKeeps_foldl {α : Type} (hfl : FlagRule fl) {f : Lane → α → Lane} {xs : List α} (l : Lane)
    (hf : ∀ x ∈ xs, ∀ l, LaneKeeps gs hs ks fl seeded timed l (f l x)) : LaneKeeps gs hs ks fl seeded timed l (xs.foldl f l) := by
  induction xs generalizing l with
  | nil => exact laneKeeps_refl hfl l
  | cons x xs ih => exact laneKeeps_trans hfl (hf x (by simp) l) (ih _ fun y hy => hf y (by simp [hy]))

/-- R162, Table 5: the three registers or triples that a spread TF9 word writes. -/
theorem spread_keeps (hfl : FlagRule fl) {toF81 : Bool} {d : Nat}
    (hd : ∀ j ∈ [0, 1, 2], ∀ m ∈ (if toF81 then gRun (d + 3 * j) true else [d + j]), m ∈ gs) (l : Lane) (p : Trits 3)
    {f : Nat → Int × Flags} (hf : ∀ j, Raises fl (f j).2) : LaneKeeps gs hs ks fl seeded timed l (l.spread toF81 d p f) := by
  unfold Lane.spread
  refine laneKeeps_foldl hfl l fun j hj l => ?_
  have hraised : LaneKeeps gs hs ks fl seeded timed l (if p.trit j = 1 then { l with fs := l.fs.or (f j).2 } else l) := by
    split
    · exact fs_keeps l (hf j _)
    · exact laneKeeps_refl hfl l
  refine laneKeeps_trans hfl hraised ?_
  dsimp only
  generalize (if p.trit j = 1 then { l with fs := l.fs.or (f j).2 } else l) = m
  cases toF81 with
  | true =>
    rw [if_pos rfl]
    by_cases h0 : p.trit j = 0
    · rw [if_pos h0]
      exact laneKeeps_refl hfl m
    · rw [if_neg h0]
      exact wrTriple_keeps hfl (hd j hj) m _
  | false => exact wrG_keeps hfl (.inr (hd j hj (d + j) (by simp))) _ _

/-- R149, R150: the registers that an index result writes. -/
theorem putIndex_keeps (hfl : FlagRule fl) {d kn : Nat} {vs : List Int} (hd : ∀ i, i < vs.length → d + i ∈ gs) (hk : kn ∈ ks)
    (l : Lane) (p : Trits 3) (range : Int) : LaneKeeps gs hs ks fl seeded timed l (l.putIndex d kn p vs range) := by
  unfold Lane.putIndex
  refine laneKeeps_trans hfl (laneKeeps_foldl hfl l fun i hi l => ?_) (putK_keeps hfl hk _ _ _ _)
  exact wrG_keeps hfl (.inr (hd i (List.mem_range.1 hi))) l _

end

end Sys2Proof.Machine
end

section
/-! The reading of a table entry changes no group: what it does is fill and settle lines of the last-level caches, and keep the entry
in its core's copies (R225, R385). -/

namespace Sys2Proof.Machine

/-! ## The last-level caches -/

@[simp] theorem burst_groups (s : State) (die chan : Nat) (write : Bool) : (s.burst die chan write).groups = s.groups := rfl

@[simp] theorem writeSlot_groups (s : State) (die : Nat) (lp : Bool) (slot kind : Nat) (line : List Int) :
    (s.writeSlot die lp slot kind line).groups = s.groups := rfl

@[simp] theorem llcPut_groups (s : State) (die : Nat) (l : LLine) : (s.llcPut die l).groups = s.groups := by
  unfold State.llcPut
  split <;> rfl

@[simp] theorem llcDropAll_groups (s : State) (k : LineKey) : (s.llcDropAll k).groups = s.groups := rfl

theorem foldl_groups {α : Type} {f : State → α → State} (hf : ∀ s a, (f s a).groups = s.groups) (xs : List α) (s : State) :
    (xs.foldl f s).groups = s.groups := by
  induction xs generalizing s with
  | nil => rfl
  | cons x xs ih => exact (ih _).trans (hf s x)

@[simp] theorem readBursts_groups (s : State) (die chan n : Nat) : (s.readBursts die chan n).groups = s.groups :=
  foldl_groups (f := fun s _ => s.burst die chan false) (fun s _ => burst_groups s die chan false) _ s

variable {s t : State}

theorem fetchLine_groups {p : LinePlace} {l : LLine} (h : s.fetchLine p = .ok (t, l)) : t.groups = s.groups := by
  unfold State.fetchLine at h
  split at h
  · cases h; rfl
  · obtain ⟨slots, -, h⟩ := bind_ok h
    dsimp only at h
    split at h
    · split at h
      · cases h
      · cases h; exact readBursts_groups ..
    · cases h; exact readBursts_groups ..

theorem homeLine_groups {p : LinePlace} {whole : Bool} {l : LLine} (h : s.homeLine p whole = some (t, l)) : t.groups = s.groups := by
  unfold State.homeLine at h
  split at h
  · cases h; rfl
  · split at h
    · cases h; rfl
    · cases hf : s.fetchLine p with
      | error c => rw [hf] at h; cases h
      | ok x => rw [hf] at h; cases h; exact fetchLine_groups hf

@[simp] theorem applyUpdate_groups (s : State) (n : Nat) : (s.applyUpdate n).groups = s.groups := by
  unfold State.applyUpdate
  split
  · rfl
  · dsimp only
    split
    · split
      · rfl
      · next hl =>
        have hgroups := homeLine_groups hl
        exact (llcPut_groups ..).trans hgroups
    · split
      · rfl
      · exact llcPut_groups ..

theorem drainFuel_groups (n : Nat) (pick : State → Option Nat) (s : State) : (drainFuel n s pick).groups = s.groups := by
  induction n generalizing s with
  | zero => rfl
  | succ n ih =>
    unfold drainFuel
    split
    · rfl
    · exact (ih _).trans (applyUpdate_groups ..)

@[simp] theorem drainWhere_groups (s : State) (p : CopyUpdate → Bool) : (s.drainWhere p).groups = s.groups := drainFuel_groups ..

theorem evictPacked_groups {die : Nat} {l : LLine} (h : s.evictPacked die l = some t) : t.groups = s.groups := by
  unfold State.evictPacked at h
  dsimp only at h
  split_ifs at h <;> cases h <;> rfl

/-- A line that may stay changes no group. -/
theorem leave_groups (s : State) (die : Nat) (k : LineKey) :
    (((s.llcFind die k).bind (s.evictPacked die)).getD s).groups = s.groups := by
  cases he : (s.llcFind die k).bind (s.evictPacked die) with
  | none => rfl
  | some t =>
    obtain ⟨l, -, hl⟩ := Option.bind_eq_some_iff.1 he
    exact evictPacked_groups hl

@[simp] theorem flushKey_groups (s : State) (k : LineKey) : (s.flushKey k).groups = s.groups :=
  (leave_groups _ k.die k).trans (drainWhere_groups ..)

@[simp] theorem separate_groups (s : State) (k : LineKey) : (s.separate k).groups = s.groups := by
  unfold State.separate
  split
  · exact flushKey_groups ..
  · rfl

theorem homeEnsure_groups {p : LinePlace} (h : s.homeEnsure p = .ok t) : t.groups = s.groups := by
  unfold State.homeEnsure at h
  split at h
  · cases h; rfl
  · obtain ⟨x, hx, h⟩ := bind_ok h
    cases h
    exact (llcPut_groups ..).trans ((fetchLine_groups hx).trans (separate_groups ..))

theorem llcEnsure_groups {die : Nat} {p : LinePlace} (h : s.llcEnsure die p = .ok t) : t.groups = s.groups := by
  unfold State.llcEnsure at h
  dsimp only at h
  split at h
  · cases h
  split at h
  · cases h; rfl
  split at h
  · exact homeEnsure_groups h
  obtain ⟨u, hu, h⟩ := bind_ok h
  have hgroups := (homeEnsure_groups hu).trans (drainWhere_groups ..)
  split at h
  · cases h
  split at h
  · cases h
  · cases h
    exact (llcPut_groups ..).trans ((drainWhere_groups ..).trans hgroups)

theorem llcRead_groups {die : Nat} {p : LinePlace} {ts : List Nat} {vs : List Tryte} (h : s.llcRead die p ts = .ok (t, vs)) :
    t.groups = s.groups := by
  obtain ⟨u, hu, h⟩ := bind_ok h
  split at h
  · cases h
  split at h
  · cases h
  · cases h; exact llcEnsure_groups hu

/-! ## Structures and tables -/

theorem placeWord_groups {die : Nat} {p : LinePlace} {v : Int} (h : s.placeWord die p = .ok (t, v)) : t.groups = s.groups := by
  obtain ⟨x, hx, h⟩ := bind_ok h
  cases h
  exact llcRead_groups hx

theorem walkFrom_groups {fuel : Nat} {w : Who} {tab pn : Int} {level : Nat} {e : TlbEntry}
    (h : walkFrom fuel s w tab pn level = .ok (t, e)) : t.groups = s.groups := by
  induction fuel generalizing s tab level with
  | zero => cases h
  | succ fuel ih =>
    obtain ⟨p, -, h⟩ := bind_ok h
    obtain ⟨x, hx, h⟩ := bind_ok h
    have hgroups := placeWord_groups hx
    dsimp only at h
    split_ifs at h
    · exact (ih h).trans hgroups
    · cases h; exact hgroups

theorem structPlace_groups {w : Who} {va : Int} {p : LinePlace} (h : s.structPlace w va = .ok (t, p)) : t.groups = s.groups := by
  obtain ⟨x, hx, h⟩ := bind_ok h
  obtain ⟨q, -, h⟩ := bind_ok h
  cases h
  unfold State.walk at hx
  split at hx
  · cases hx
  · exact walkFrom_groups hx

theorem structRead_groups {n : Nat} {w : Who} {va : Int} {vs : List Int} (h : s.structRead w va n = .ok (t, vs)) :
    t.groups = s.groups := by
  induction n generalizing s t va vs with
  | zero => cases h; rfl
  | succ n ih =>
    obtain ⟨x, hx, h⟩ := bind_ok h
    obtain ⟨y, hy, h⟩ := bind_ok h
    obtain ⟨z, hz, h⟩ := bind_ok h
    cases h
    exact (ih hz).trans ((placeWord_groups hy).trans (structPlace_groups hx))

@[simp] theorem entryNow_groups (s : State) (w : Workgroup) (off n : Nat) : (s.entryNow w off n).1.groups = s.groups := by
  unfold State.entryNow
  dsimp only
  split
  · rfl
  · split
    · rfl
    · split
      · rfl
      · next h =>
        have hgroups := structRead_groups h
        exact hgroups

@[simp] theorem tableEntry_groups (s : State) (w : Workgroup) (off n : Nat) : (s.tableEntry w off n).1.groups = s.groups := by
  unfold State.tableEntry
  split
  · exact entryNow_groups ..
  · dsimp only
    split
    · rfl
    · exact entryNow_groups ..

@[simp] theorem shapeAt_groups (s : State) (w : Workgroup) (b : Int) : (s.shapeAt w b).1.groups = s.groups := by
  unfold State.shapeAt
  split
  · rfl
  · exact tableEntry_groups ..

@[simp] theorem patternAt_groups (s : State) (w : Workgroup) (b : Int) : (s.patternAt w b).1.groups = s.groups := by
  unfold State.patternAt
  split
  · rfl
  · exact tableEntry_groups ..

/-- The shapes that a word reads. -/
theorem shapes_groups (x : Issue) (b : Src) : (x.shapes b).1.groups = x.s.groups := by
  unfold Issue.shapes
  generalize ((x.active.filter fun l => (x.pred l).trit 0 == 1).map (x.src b)).eraseDups = vs
  suffices h : ∀ (vs : List Int) (acc : State × List (Int × Shape)), (vs.foldl (fun (acc : State × List (Int × Shape)) v =>
      let (s, sh) := acc.1.shapeAt x.w v
      (s, acc.2 ++ [(v, sh)])) acc).1.groups = acc.1.groups from h vs _
  intro vs acc
  induction vs generalizing acc with
  | nil => rfl
  | cons v vs ih => exact (ih _).trans (shapeAt_groups ..)

end Sys2Proof.Machine
end

section
/-! The frame of the register words by the shape of their effect: the flags that an operation raises, and words that write one
destination. -/

namespace Sys2Proof.Machine

/-! ## The flags of operations -/

theorem satInt_raises (n : Nat) (v : Int) : Raises OnlySaturate (satInt n v).2 := by
  unfold satInt
  split
  · exact raises_saturate true
  · split
    · exact raises_saturate true
    · exact raises_none flagRule_onlySaturate

theorem or_raises {fl : Flags → Flags → Prop} (hfl : FlagRule fl) {f f' : Flags} (h : Raises fl f) (h' : Raises fl f') :
    Raises fl (f.or f') := fun a => by
  have hassoc : a.or (f.or f') = (a.or f).or f' := by simp [Flags.or, Bool.or_assoc]
  rw [hassoc]
  exact hfl.trans (h a) (h' _)

theorem packN3_raises (v : Int) : Raises OnlySaturate (packN3 v).2 :=
  or_raises flagRule_onlySaturate
    (or_raises flagRule_onlySaturate (satInt_raises _ _) (satInt_raises _ _)) (satInt_raises _ _)

theorem fnDivide_raises (q : Int → Int → Int) (n : Nat) (a b d : Int) : Raises OnlyDivzero (fnDivide q n a b d).2 := by
  unfold fnDivide
  split
  · exact raises_divzero true
  · exact raises_none flagRule_onlyDivzero

theorem fnRemain_raises (q : Int → Int → Int) (n : Nat) (a b d : Int) : Raises OnlyDivzero (fnRemain q n a b d).2 := by
  unfold fnRemain
  split
  · exact raises_divzero true
  · exact raises_none flagRule_onlyDivzero

theorem satInt_divzero (n : Nat) (v : Int) : (satInt n v).2.divzero = false := by
  unfold satInt
  split_ifs <;> rfl

theorem roundFin_divzero (f : Fmt) (m e : Int) (sticky : Bool) : (f.roundFin m e sticky).2.divzero = false := by
  unfold Fmt.roundFin
  dsimp only
  split_ifs
  · rfl
  · cases f.policy <;> rfl
  all_goals rfl

theorem round_divzero (f : Fmt) (v : FVal) (sticky : Bool) : (f.round v sticky).2.divzero = false := by
  cases v with
  | fin m e =>
    simp only [Fmt.round]
    split_ifs
    · rfl
    · exact roundFin_divzero f m e sticky
  | inf neg =>
    simp only [Fmt.round]
    cases f.policy <;> cases neg <;> rfl
  | nan =>
    simp only [Fmt.round]
    cases f.policy <;> rfl

theorem roundRat_divzero (f : Fmt) (p q : Int) : (f.roundRat p q).2.divzero = false := by
  unfold Fmt.roundRat
  dsimp only
  generalize (if f.floorPos < 0 then (p * pow3 (-f.floorPos), q) else (p, q * pow3 f.floorPos)) = pq
  split
  · rfl
  · split
    · cases f.policy
      case scale => dsimp only; split <;> rfl
      all_goals rfl
    · exact roundFin_divzero ..

theorem roundBin_divzero (f : Fmt) (b : BVal) : (f.roundBin b).2.divzero = false := by
  cases b with
  | fin p x =>
    simp only [Fmt.roundBin]
    split_ifs
    · exact round_divzero ..
    · exact roundRat_divzero ..
  | inf neg => exact round_divzero ..
  | nan => exact round_divzero ..

theorem finish_divzero (f : Fmt) (v : FVal × Bool) : (finish f v).2.divzero = false := by
  unfold finish
  split
  · rfl
  · exact round_divzero ..

theorem convert_divzero (src dst : Fmt) (code : Int) : (convert src dst code).2.divzero = false := by
  unfold convert
  split
  · rfl
  · exact round_divzero ..

theorem toInteger_divzero (mode : RoundMode) (n : Nat) (v : FVal) : (toInteger mode n v).2.divzero = false := by
  cases v with
  | fin m e => exact satInt_divzero ..
  | inf neg => rfl
  | nan => rfl

theorem bcvtIn_divzero (fmt : BinFmt) (w0 w1 w2 : Int) : (bcvtIn fmt w0 w1 w2).2.divzero = false := by
  unfold bcvtIn
  dsimp only
  split
  · rfl
  · exact roundBin_divzero ..

theorem combine_none {ty : Ty} (hty : ty = .w ∨ ty = .t) (fn : RedOp) (cs : List Int) : (combine ty fn cs).2 = {} := by
  cases cs with
  | nil => rfl
  | cons c rest =>
    simp only [combine, if_pos hty.symm]
    cases fn <;> rfl

theorem combine_divzero (ty : Ty) (fn : RedOp) (cs : List Int) : (combine ty fn cs).2.divzero = false := by
  cases cs with
  | nil => rfl
  | cons c rest =>
    simp only [combine]
    split
    · cases fn <;> rfl
    · cases fn
      case add => exact finish_divzero ..
      all_goals rfl

/-! ## What a statement says of a word -/

/-- Whether the run of the group ended. -/
def RunEnded (h h' : Group) : Prop := h'.phase ≠ h.phase

/-- A lane reads as it did in all registers but those listed; where the run has ended, its temporaries are 0. -/
def SameLane (h h' : Group) (l : Nat) (gs hs ks : List Nat) : Prop :=
  (¬RunEnded h h' → SameRegisters (h.lane l) (h'.lane l) gs hs ks) ∧
  (RunEnded h h' → SameRegisters { h.lane l with h := [] } (h'.lane l) gs [] ks)

/-- The wait slots, the pending words and the handler state are as they were. -/
def GroupKept (h h' : Group) : Prop := (∀ n, h'.rdW n = h.rdW n) ∧ h'.pend = h.pend ∧ h'.handler = h.handler

/-- The registers of a group are as they were but for those listed of each lane, and its flags change by a rule. -/
def RegsFrame (s t : State) (w : Workgroup) (g h h' : Group) (i : Instr) (gs hs ks : List Nat) (fl : Flags → Flags → Prop) : Prop :=
  Issues s w g i → exec i s = .next t → (∀ n, h'.rdS n = h.rdS n) ∧ GroupKept h h' ∧
    ∀ l, SameLane h h' l gs hs ks ∧ (h'.lane l).rng = (h.lane l).rng ∧ (h'.lane l).timeHi = (h.lane l).timeHi ∧
      fl (h.lane l).fs (h'.lane l).fs

/-- All but the group is as it was. -/
def RestFrame (s t : State) (w : Workgroup) (g : Group) (i : Instr) : Prop :=
  Issues s w g i → exec i s = .next t → SameMemory s t ∧ SameButGroups s t ∧ SameOtherGroups s t g.ref

/-- A word writes one destination. -/
def WordFrame (s t : State) (w : Workgroup) (g h h' : Group) (i : Instr) (ty : Ty) (d : Reg) (ks : List Nat)
    (fl : Flags → Flags → Prop) : Prop :=
  RegsFrame s t w g h h' i (Reg.gNums ty d) (Reg.hNums d) ks fl ∧ RestFrame s t w g i

/-- A group with nothing pending, and the group of its reference before and after. -/
structure Met (s t : State) (g h h' : Group) : Prop where
  pend : g.pend = []
  before : s.groupOf g.ref = some h
  after : t.groupOf g.ref = some h'

/-- Of a group whose lanes keep what their rules say, through a word after which its run may have ended. -/
theorem frame_of_keeps {S : Nat → Prop} {gs hs ks : List Nat} {fl : Nat → Flags → Flags → Prop} {seeded : Nat → Prop}
    {timed : Prop} {h h' k : Group} (hk : Keeps S (fun i => LaneKeeps gs hs ks (fl i) (seeded i) timed) h k)
    (hend : h' = k ∨ k.phase = .running ∧ h' = k.endRun []) :
    (∀ n, S n → h'.rdS n = h.rdS n) ∧ GroupKept h h' ∧ ∀ l, SameLane h h' l gs hs ks ∧
      (seeded l → (h'.lane l).rng = (h.lane l).rng) ∧ (timed → (h'.lane l).timeHi = (h.lane l).timeHi) ∧
      fl l (h.lane l).fs (h'.lane l).fs := by
  rcases hend with rfl | ⟨hrunning, rfl⟩
  · refine ⟨hk.scalar, ⟨hk.count, hk.pend, hk.handler⟩, fun l => ?_⟩
    obtain ⟨hregs, hrng, htime, hflags⟩ := hk.lane l
    exact ⟨⟨fun _ => hregs, fun he => absurd hk.phase he⟩, hrng, htime, hflags⟩
  · refine ⟨hk.scalar, ⟨hk.count, hk.pend, hk.handler⟩, fun l => ?_⟩
    have hended : RunEnded h (k.endRun []) := fun he => by
      rw [← hk.phase, hrunning] at he
      cases he
    obtain ⟨⟨hg, -, hkr, hthread, hbank, hskip⟩, hrng, htime, hflags⟩ := hk.lane l
    rw [SameLane, lane_endRun]
    exact ⟨⟨fun he => absurd hended he, fun _ => ⟨hg, fun _ _ => rfl, hkr, hthread, hbank, hskip⟩⟩, hrng, htime, hflags⟩

section

variable {s t : State} {w : Workgroup} {g h h' : Group} {i : Instr} {eff : Issue → Eff} {F : Issue → Group → Group}
  {gs hs ks : List Nat} {fl : Flags → Flags → Prop}

/-- A word whose effect changes each lane of its group by a rule. -/
theorem Met.lanes (m : Met s t g h h') {S : Nat → Prop} {fl : Nat → Flags → Flags → Prop} {seeded : Nat → Prop} {timed : Prop}
    (hfl : ∀ i, FlagRule (fl i)) {u : State} {F : Group → Group} (hi : Issues s w g i) (hexec : exec i s = runWord i s eff)
    (heff : eff (s.issueOf w g i) = .done (u.updGroup g.ref F)) (hu : u.groups = (s.issueOf w g i).s.groups)
    (hF : ∀ k, Keeps S (fun i => LaneKeeps gs hs ks (fl i) (seeded i) timed) k (F k)) (ht : exec i s = .next t) :
    (∀ n, S n → h'.rdS n = h.rdS n) ∧ GroupKept h h' ∧ ∀ l, SameLane h h' l gs hs ks ∧
      (seeded l → (h'.lane l).rng = (h.lane l).rng) ∧ (timed → (h'.lane l).timeHi = (h.lane l).timeHi) ∧
      fl l (h.lane l).fs (h'.lane l).fs := by
  obtain ⟨k, hk, hend⟩ := group_of_done (laneRule_keeps hfl) m.pend m.before m.after hi hexec heff hu hF ht
  exact frame_of_keeps hk hend

/-- A word whose effect changes the lanes of its group alone, in a state with the groups of its issue. -/
theorem Met.regs (m : Met s t g h h') (hfl : FlagRule fl) {u : Issue → State} (hexec : exec i s = runWord i s eff)
    (heff : ∀ x : Issue, x.r = g.ref → eff x = .done ((u x).updGroup g.ref (F x)))
    (hu : (u (s.issueOf w g i)).groups = (s.issueOf w g i).s.groups)
    (hF : i.wellFormed = true → ∀ x k, Keeps (fun _ => True) (fun _ => LaneKeeps gs hs ks fl True True) k (F x k)) :
    RegsFrame s t w g h h' i gs hs ks fl := by
  intro hi ht
  obtain ⟨hs, hkept, hlanes⟩ := m.lanes (fun _ => hfl) hi hexec (heff _ rfl) hu (hF (wellFormed_of_issues hi) _) ht
  refine ⟨fun n => hs n trivial, hkept, fun l => ?_⟩
  obtain ⟨hregs, hrng, htime, hflags⟩ := hlanes l
  exact ⟨hregs, hrng trivial, htime trivial, hflags⟩

theorem Met.rest (m : Met s t g h h') (hexec : exec i s = runWord i s eff)
    (heff : ∀ x : Issue, x.r = g.ref → eff x = .done (x.s.updGroup g.ref (F x))) (hF : ∀ x k, (F x k).ref = k.ref) :
    RestFrame s t w g i :=
  fun hi ht => rest_of_done m.pend hi hexec (heff _ rfl) (hF _) ht

/-- A word that changes its active lanes alone. -/
theorem Met.each (m : Met s t g h h') (hfl : FlagRule fl) {f : Issue → Nat → Lane → Lane}
    (hexec : exec i s = runWord i s fun x => .done (x.eachLane (f x)))
    (hf : i.wellFormed = true → ∀ x n l, LaneKeeps gs hs ks fl True True l (f x n l)) :
    RegsFrame s t w g h h' i gs hs ks fl ∧ RestFrame s t w g i := by
  have heff (x : Issue) (hr : x.r = g.ref) :
      Eff.done (x.eachLane (f x)) = .done (x.s.updGroup g.ref fun k => k.updLanes x.active (f x)) := by rw [← hr]
  exact ⟨m.regs hfl hexec heff rfl fun hwf x k => keeps_updLanes (laneRule_keeps fun _ => hfl) k fun n _ l => hf hwf x n l,
    m.rest hexec heff fun _ _ => updLanes_ref ..⟩

/-- A word that writes elements of one destination. -/
theorem Met.put (m : Met s t g h h') (hfl : FlagRule fl) {ty : Ty} {d : Reg} {v : Issue → Nat → Nat → Int × Flags}
    (hexec : exec i s = runWord i s fun x => x.putAll ty d (v x)) (hd : i.wellFormed = true → ty = .f81 → d.isH = false)
    (hv : ∀ x l j, Raises fl (v x l j).2) : WordFrame s t w g h h' i ty d [] fl :=
  m.each hfl hexec fun hwf x n l => put_keeps hfl (hd hwf) l _ (hv x n)

theorem isH_of_tripleOk {d : Reg} (h : d.tripleOk = true) : d.isH = false := by
  cases d with
  | g n => rfl
  | h n => cases h

/-! ### Words of one destination -/

/-- An integer word has no triple. -/
theorem op3_ty {a : Op3} (hok : a.okInt = true) : a.ty ≠ .f81 := fun hty => by
  rw [Op3.okInt, hty] at hok
  cases hok

theorem op2_ty {a : Op2} (hok : a.okInt = true) : a.ty ≠ .f81 := fun hty => by
  rw [Op2.okInt, hty] at hok
  cases hok

theorem Met.int3 (m : Met s t g h h') (hfl : FlagRule fl) {a : Op3} {f : ElemFn} (hexec : exec i s = runWord i s (·.op3 a f))
    (hwf : i.wellFormed = a.okInt) (hf : ∀ n u v d, Raises fl (f n u v d).2) : WordFrame s t w g h h' i a.ty a.d [] fl :=
  m.put hfl hexec (fun hok hty => absurd hty (op3_ty (hwf ▸ hok))) fun _ _ _ => hf _ _ _ _

theorem Met.int2 (m : Met s t g h h') (hfl : FlagRule fl) {a : Op2} {f : Nat → Int → Int × Flags}
    (hexec : exec i s = runWord i s (·.op2 a f)) (hwf : i.wellFormed = a.okInt) (hf : ∀ n v, Raises fl (f n v).2) :
    WordFrame s t w g h h' i a.ty a.d [] fl :=
  m.put hfl hexec (fun hok hty => absurd hty (op2_ty (hwf ▸ hok))) fun _ _ _ => hf _ _

theorem Met.plain3 (m : Met s t g h h') {a : Op3} {f : Nat → Int → Int → Int → Int}
    (hexec : exec i s = runWord i s (·.op3 a fun n u v d => plain (f n u v d))) (hwf : i.wellFormed = a.okInt) :
    WordFrame s t w g h h' i a.ty a.d [] NoFlags :=
  m.int3 flagRule_noFlags hexec hwf fun _ _ _ _ => raises_none flagRule_noFlags

theorem Met.plain2 (m : Met s t g h h') {a : Op2} {f : Nat → Int → Int}
    (hexec : exec i s = runWord i s (·.op2 a fun n v => plain (f n v))) (hwf : i.wellFormed = a.okInt) :
    WordFrame s t w g h h' i a.ty a.d [] NoFlags :=
  m.int2 flagRule_noFlags hexec hwf fun _ _ => raises_none flagRule_noFlags

/-- A triple has no run temporary for destination: the operands of a word of three registers are admitted under that condition. -/
theorem isH_of_ok {ty : Ty} {d : Reg} {other : Bool} (hok : (ty != .f81 || (d.tripleOk && other)) = true) (hty : ty = .f81) :
    d.isH = false := by
  simp only [hty, bne_self_eq_false, Bool.false_or, Bool.and_eq_true] at hok
  obtain ⟨hd, -⟩ := hok
  exact isH_of_tripleOk hd

theorem op3_isH {a : Op3} (hok : a.okFloat = true) : a.ty = .f81 → a.d.isH = false := by
  rw [Op3.okFloat, Bool.and_assoc a.d.tripleOk, Bool.and_eq_true] at hok
  obtain ⟨-, hd⟩ := hok
  exact isH_of_ok hd

theorem op2_isH {a : Op2} (hok : a.okFloat = true) : a.ty = .f81 → a.d.isH = false := by
  rw [Op2.okFloat, Bool.and_eq_true] at hok
  obtain ⟨-, hd⟩ := hok
  exact isH_of_ok hd

theorem ftoi_isH {a : FtoiArgs} (hok : a.ok = true) : a.ty = .f81 → a.d.isH = false := by
  rw [FtoiArgs.ok, Bool.and_eq_true] at hok
  obtain ⟨-, hd⟩ := hok
  exact isH_of_ok hd

theorem bcst_isH {a : BcstArgs} (hok : a.ok = true) (hty : a.ty = .f81) : a.d.isH = false := by
  rw [BcstArgs.ok, hty, Bool.and_assoc] at hok
  exact isH_of_ok (ty := .f81) (other := a.a.tripleOk) hok rfl

theorem Met.float (m : Met s t g h h') {a : Op3} {v : Issue → Nat → Nat → Int × Flags}
    (hexec : exec i s = runWord i s fun x => x.putAll a.ty a.d (v x)) (hwf : i.wellFormed = a.okFloat)
    (hv : ∀ x l j, (v x l j).2.divzero = false) : WordFrame s t w g h h' i a.ty a.d [] NotDivzero :=
  m.put flagRule_notDivzero hexec (fun hok => op3_isH (hwf ▸ hok)) fun x l j => raises_notDivzero (hv x l j)

theorem Met.float2 (m : Met s t g h h') (hfl : FlagRule fl) {a : Op2} {f : Fmt → Int → Int}
    (hexec : exec i s = runWord i s (·.float2 a fun fm c => plain (f fm c))) (hwf : i.wellFormed = a.okFloat) :
    WordFrame s t w g h h' i a.ty a.d [] fl :=
  m.put hfl hexec (fun hok => op2_isH (hwf ▸ hok)) fun _ _ _ => raises_none hfl

/-- A word without flags whose destination is one register. -/
theorem Met.plainWord (m : Met s t g h h') {ty : Ty} {d : Reg} {v : Issue → Nat → Nat → Int}
    (hexec : exec i s = runWord i s fun x => x.putAll ty d fun l j => plain (v x l j)) (hty : ty ≠ .f81) :
    WordFrame s t w g h h' i ty d [] NoFlags :=
  m.put flagRule_noFlags hexec (fun _ h => absurd h hty) fun _ _ _ => raises_none flagRule_noFlags

/-- A word that writes one tryte of its destination. -/
theorem Met.tryte (m : Met s t g h h') (hfl : FlagRule fl) {ty : Ty} {d : Reg} {c : Issue → Nat → Nat} {v : Issue → Nat → Int × Flags}
    (hexec : exec i s = runWord i s fun x => x.putTryteAll d (c x) (v x)) (hty : ty ≠ .f81) (hv : ∀ x l, Raises fl (v x l).2) :
    WordFrame s t w g h h' i ty d [] fl :=
  m.each hfl hexec fun _ x n l => putTryte_keeps hfl hty l _ _ (hv x n)

/-- A word that combines elements of its lanes (R188). -/
theorem Met.combines (m : Met s t g h h') {ty : Ty} {fn : RedOp} {d : Reg} {cs : Issue → Nat → Nat → List Int} {other : Bool}
    (hexec : exec i s = runWord i s fun x => x.putAll ty d fun l j => combine ty fn (cs x l j))
    (hwf : i.wellFormed = (ty != .f81 || (d.tripleOk && other))) :
    WordFrame s t w g h h' i ty d [] (if ty = .w ∨ ty = .t then NoFlags else NotDivzero) := by
  have hd (hok : i.wellFormed = true) : ty = .f81 → d.isH = false := isH_of_ok (hwf ▸ hok)
  split
  case isTrue hint =>
    exact m.put flagRule_noFlags hexec hd fun _ _ _ => by rw [combine_none hint]; exact raises_none flagRule_noFlags
  case isFalse => exact m.put flagRule_notDivzero hexec hd fun _ _ _ => raises_notDivzero (combine_divzero ..)

theorem Met.bcvt (m : Met s t g h h') (a : BcvtArgs) :
    WordFrame s t w g h h' (.bcvt a) (if a.fmt = .fp64 then .f81 else .w) a.d [] NotDivzero := by
  split
  case isTrue h64 =>
    refine m.put flagRule_notDivzero (congrArg (runWord (.bcvt a) s) (funext fun x => if_pos h64)) (fun hok _ => ?_) fun x l j => ?_
    · exact isH_of_ok (ty := .f81) (other := a.a.tripleOk) (by simpa [Instr.wellFormed, BcvtArgs.ok, h64] using hok) rfl
    · split
      · exact raises_notDivzero (bcvtIn_divzero ..)
      · exact raises_notDivzero rfl
  case isFalse h64 =>
    refine m.put flagRule_notDivzero (congrArg (runWord (.bcvt a) s) (funext fun x => if_neg h64)) nofun fun x l j => ?_
    split
    · exact raises_notDivzero (bcvtIn_divzero ..)
    · exact raises_notDivzero rfl

theorem Met.fdot (m : Met s t g h h') (a : Op0) : WordFrame s t w g h h' (.fdot a) .w a.d [] NotDivzero := by
  have hnums : Reg.gNums .f27 a.d = Reg.gNums .w a.d := by cases a.d <;> rfl
  rw [WordFrame, ← hnums]
  exact m.put flagRule_notDivzero (i := .fdot a) rfl nofun fun _ _ _ => raises_notDivzero (round_divzero ..)

theorem Met.cvtw (m : Met s t g h h') (a : CvtwArgs) : WordFrame s t w g h h' (.cvtw a) .w a.d [] OnlySaturate := by
  have hexec : exec (.cvtw a) s = runWord (.cvtw a) s fun x =>
    match a.kind with
    | .widen => x.putAll .w a.d fun l _ => plain (tryteOf (x.reg a.a l).val (trytePick (x.src a.b l)))
    | .wrap => x.putTryteAll a.d (fun l => trytePick (x.src a.b l)) fun l => plain (wrapInt 9 (x.reg a.a l).val)
    | .sat => x.putTryteAll a.d (fun l => trytePick (x.src a.b l)) fun l => satInt 9 (x.reg a.a l).val := rfl
  rcases hkind : a.kind with _ | _ | _
  case widen =>
    exact m.put flagRule_onlySaturate (hexec.trans (by rw [hkind])) nofun fun _ _ _ => raises_none flagRule_onlySaturate
  case wrap => exact m.tryte flagRule_onlySaturate (hexec.trans (by rw [hkind])) nofun fun _ _ => raises_none flagRule_onlySaturate
  case sat => exact m.tryte flagRule_onlySaturate (hexec.trans (by rw [hkind])) nofun fun _ _ => satInt_raises _ _

/-- A word that writes a k register. -/
theorem Met.predicate (m : Met s t g h h') {kd : Nat} {byWord : Bool} {v : Issue → Nat → Nat → Int}
    (hexec : exec i s = runWord i s fun x => x.putKAll kd byWord (v x)) :
    RegsFrame s t w g h h' i [] [] [kd] NoFlags ∧ RestFrame s t w g i :=
  m.each flagRule_noFlags hexec fun _ _ _ l => putK_keeps flagRule_noFlags (by simp) l _ _ _

/-- What the write of a word without flags keeps of a lane. -/
theorem putWord_keeps {d : Reg} {ks : List Nat} {seeded timed : Prop} (l : Lane) (p : Trits 3) (v : Int) :
    LaneKeeps (Reg.gNums .w d) (Reg.hNums d) ks NoFlags seeded timed l (l.put .w d p fun _ => plain v) :=
  put_keeps (ty := .w) flagRule_noFlags nofun l p fun _ => raises_none flagRule_noFlags

/-- What an exchange keeps of a lane. -/
theorem exchange_keeps (d : Reg) (kn : Nat) (p : Trits 3) (v r : Int) (l : Lane) :
    LaneKeeps (Reg.gNums .w d) (Reg.hNums d) [kn] NoFlags True True l
      ((l.put .w d p fun _ => plain v).putK kn p true fun _ => r) :=
  laneKeeps_trans flagRule_noFlags (putWord_keeps l p v) (putK_keeps flagRule_noFlags (by simp) _ _ _ _)

theorem Met.exchange (m : Met s t g h h') {kn : Nat} {d a : Reg} {q : Issue → Nat → Option Nat}
    (hexec : exec i s = runWord i s fun x => x.exchange kn d a (q x)) : WordFrame s t w g h h' i .w d [kn] NoFlags :=
  m.each flagRule_noFlags hexec fun _ _ _ l => exchange_keeps d kn _ _ _ l

theorem Met.sel3 (m : Met s t g h h') (a : Op3) : WordFrame s t w g h h' (.sel3 a) a.ty a.d [] NoFlags := by
  refine m.each flagRule_noFlags (i := .sel3 a) rfl fun hok _ _ l => put_keeps flagRule_noFlags (fun hty => ?_) l _ fun _ =>
    raises_none flagRule_noFlags
  obtain ⟨hint, -⟩ := Bool.and_eq_true_iff.1 hok
  exact absurd hty (op3_ty hint)

theorem onlyInvalid_invalid (f : Flags) (b : Bool) : OnlyInvalid f { f with invalid := b } := rfl

theorem Met.fcmp (m : Met s t g h h') (a : CmpArgs) :
    RegsFrame s t w g h h' (.fcmp a) [] [] [a.kd.val] OnlyInvalid ∧ RestFrame s t w g (.fcmp a) :=
  m.each flagRule_onlyInvalid (i := .fcmp a) rfl fun _ _ _ l =>
    laneKeeps_trans flagRule_onlyInvalid (fs_keeps l (onlyInvalid_invalid _ _)) (putK_keeps flagRule_onlyInvalid (by simp) _ _ _ _)

end

end Sys2Proof.Machine
end

section
/-! The words whose destination is not one register, and the frame of them all (Obligations.RegisterWordsFrame). -/

namespace Sys2Proof.Machine

section

variable {s t : State} {w : Workgroup} {g h h' : Group} {i : Instr}

/-! ### Other destinations -/

/-- R162, Table 5: the registers of a conversion between TF9 and a wider type. -/
def cvtNums (a : FcvtArgs) : List Nat :=
  if a.src = .f9 ∧ a.ty = .f27 then [a.d.num, a.d.num + 1, a.d.num + 2]
  else if a.src = .f9 ∧ a.ty = .f81 then [0, 3, 6].flatMap fun j => gRun (a.d.num + j) true else Reg.gNums a.ty a.d

/-- The registers that a spread writes are those of its conversion. -/
theorem spread_nums {a : FcvtArgs} (hok : a.ok = true) (hsrc : a.src = .f9) (hty : a.ty ≠ .f9) :
    ∀ j ∈ [0, 1, 2], ∀ m ∈ (if a.ty == .f81 then gRun (a.d.num + 3 * j) true else [a.d.num + j]), m ∈ cvtNums a := by
  intro j hj m hm
  rcases hcase : a.ty with _ | _ | _ | _ | _
  case f27 =>
    simp only [List.mem_cons, List.not_mem_nil, or_false] at hj
    simp only [cvtNums, hsrc, hcase, and_self, if_true]
    obtain rfl : m = a.d.num + j := by simpa [hcase] using hm
    rcases hj with rfl | rfl | rfl <;> simp
  case f81 =>
    simp only [List.mem_cons, List.not_mem_nil, or_false] at hj
    simp only [cvtNums, hsrc, hcase]
    rw [hcase] at hm
    rw [if_neg (by simp), if_pos (by simp)]
    refine List.mem_flatMap.2 ⟨3 * j, ?_, by simpa using hm⟩
    rcases hj with rfl | rfl | rfl <;> simp
  all_goals simp_all [FcvtArgs.ok]

/-- The destination of a conversion that is not spread. -/
theorem cvtNums_of_not_spread {a : FcvtArgs} (h : ¬(a.src = .f9 ∧ a.ty ≠ .f9)) : cvtNums a = Reg.gNums a.ty a.d := by
  have hsrc (ty : Ty) (hty : ty ≠ .f9) : ¬(a.src = .f9 ∧ a.ty = ty) := fun ⟨h9, ht⟩ => h ⟨h9, ht ▸ hty⟩
  rw [cvtNums, if_neg (hsrc .f27 nofun), if_neg (hsrc .f81 nofun)]

theorem fcvt_isH {a : FcvtArgs} (hok : a.ok = true) (hty : a.ty = .f81) : a.d.isH = false := by
  simp only [FcvtArgs.ok, hty] at hok
  cases hd : a.d with
  | g n => rfl
  | h n => cases hsrc : a.src <;> simp [hsrc, hd, Reg.tripleOk, Reg.plainSpan] at hok

/-- The code that FCVT converts for element j of TF9 from a wider type. -/
def joinedCode (a : FcvtArgs) (x : Issue) (l j : Nat) : Int :=
  if a.src = .f81 then (x.g.lane l).rdTriple (a.a.num + 3 * j) else (x.greg (a.a.num + j) l).val

theorem Met.fcvt (m : Met s t g h h') (a : FcvtArgs) :
    RegsFrame s t w g h h' (.fcvt a) (cvtNums a) (Reg.hNums a.d) [] NotDivzero ∧ RestFrame s t w g (.fcvt a) := by
  have hgo (c : Int) : Raises NotDivzero (convert (tyFmt a.src) (tyFmt a.ty) c).2 := raises_notDivzero (convert_divzero ..)
  by_cases hspread : a.src = .f9 ∧ a.ty ≠ .f9
  · have hexec : exec (.fcvt a) s = runWord (.fcvt a) s fun x => .done (x.eachLane fun n l =>
        l.spread (a.ty == .f81) a.d.num (x.pred n) fun j => convert (tyFmt a.src) (tyFmt a.ty) (tryteOf (x.reg a.a n).val j)) :=
      congrArg (runWord (.fcvt a) s) (funext fun x => if_pos hspread)
    obtain ⟨hsrc, hty⟩ := hspread
    exact m.each flagRule_notDivzero hexec fun hok x n l =>
      spread_keeps flagRule_notDivzero (spread_nums hok hsrc hty) l _ fun j => hgo _
  · rw [cvtNums_of_not_spread hspread]
    by_cases hjoin : a.src ≠ .f9 ∧ a.ty = .f9
    · have ⟨_, hty⟩ := hjoin
      have hexec : exec (.fcvt a) s = runWord (.fcvt a) s fun x =>
          x.putAll a.ty a.d fun l j => convert (tyFmt a.src) (tyFmt a.ty) (joinedCode a x l j) :=
        congrArg (runWord (.fcvt a) s) (funext fun x => ((if_neg hspread).trans (if_pos hjoin)).trans (by rw [hty]; rfl))
      exact m.put flagRule_notDivzero hexec fcvt_isH fun _ _ _ => hgo _
    · have hexec : exec (.fcvt a) s = runWord (.fcvt a) s fun x =>
          x.putAll a.ty a.d fun l j => convert (tyFmt a.src) (tyFmt a.ty) (x.elem a.src a.a l j) :=
        congrArg (runWord (.fcvt a) s) (funext fun x => (if_neg hspread).trans (if_neg hjoin))
      exact m.put flagRule_notDivzero hexec fcvt_isH fun _ _ _ => hgo _

/-- A word that changes its group's run alone. -/
theorem Met.run (m : Met s t g h h') {r : Issue → Group → Run}
    (hexec : exec i s = runWord i s fun x => .done (x.s.updGroup x.r fun k => { k with run := r x k })) :
    RegsFrame s t w g h h' i [] [] [] NoFlags ∧ RestFrame s t w g i := by
  have heff (x : Issue) (hr : x.r = g.ref) : Eff.done (x.s.updGroup x.r fun k => { k with run := r x k }) =
      .done (x.s.updGroup g.ref fun k => { k with run := r x k }) := by rw [hr]
  exact ⟨m.regs flagRule_noFlags hexec heff rfl fun _ _ k =>
      keeps_run (laneRule_keeps fun _ => flagRule_noFlags) k _ k.resuming k.calls, m.rest hexec heff fun _ _ => rfl⟩

theorem updGroup_self (u : State) (r : GroupRef) : u.updGroup r (fun k => k) = u := by
  simp [State.updGroup]

theorem Met.nop (m : Met s t g h h') : RegsFrame s t w g h h' .nop [] [] [] NoFlags ∧ RestFrame s t w g .nop := by
  have hexec : exec .nop s = runWord .nop s fun x => .done x.s := rfl
  have heff (x : Issue) (_ : x.r = g.ref) : Eff.done x.s = .done (x.s.updGroup g.ref fun k => k) := by rw [updGroup_self]
  exact ⟨m.regs flagRule_noFlags hexec heff rfl fun _ _ k => keeps_refl (laneRule_keeps fun _ => flagRule_noFlags) k,
    m.rest hexec heff fun _ _ => rfl⟩

/-! ### Random states, special registers and s registers -/

/-- What an SREAD writes of a lane: the latched high part of the time, and its destination (R121). -/
def readsSpecial (a : SreadArgs) (x : Issue) (view : Group) (n : Nat) (l : Lane) : Lane :=
  (if (x.pred n).trit 0 = 1 ∧ a.num.val = 9 then { l with timeHi := some (Word.ofInt (dropInt 27 (x.s.timeOn x.w.core.die))) }
    else if (x.pred n).trit 0 = 1 ∧ a.num.val = 10 then { l with timeHi := none } else l).put .w a.d (x.pred n) fun _ =>
      plain (x.special n (view.lane n) a.num.val)

theorem readsSpecial_keeps (a : SreadArgs) (x : Issue) (view : Group) (n : Nat) (l : Lane) :
    LaneKeeps (Reg.gNums .w a.d) (Reg.hNums a.d) [] NoFlags True (a.num.val ≠ 9 ∧ a.num.val ≠ 10) l (readsSpecial a x view n l) := by
  refine laneKeeps_trans flagRule_noFlags ?_ (putWord_keeps _ _ _)
  split_ifs with hlow hhigh
  · obtain ⟨-, h9⟩ := hlow
    exact timeHi_keeps flagRule_noFlags l _ fun ⟨hn9, _⟩ => hn9 h9
  · obtain ⟨-, h10⟩ := hhigh
    exact timeHi_keeps flagRule_noFlags l _ fun ⟨_, hn10⟩ => hn10 h10
  · exact laneKeeps_refl flagRule_noFlags l

/-- SREAD of a group with nothing pending makes no choice. -/
theorem mayFlags_of_nil {x : Issue} (h : x.g.pend = []) : x.mayFlags = (x.g, x.s) := by simp [Issue.mayFlags, h]

theorem Met.sread (m : Met s t g h h') (a : SreadArgs) : RestFrame s t w g (.sread a) ∧
    (Issues s w g (.sread a) → exec (.sread a) s = .next t → (∀ n, h'.rdS n = h.rdS n) ∧ GroupKept h h' ∧
      ∀ l, SameLane h h' l (Reg.gNums .w a.d) (Reg.hNums a.d) [] ∧ (h'.lane l).rng = (h.lane l).rng ∧
        (h'.lane l).fs = (h.lane l).fs ∧ (a.num.val ≠ 9 → a.num.val ≠ 10 → (h'.lane l).timeHi = (h.lane l).timeHi)) := by
  have hexec : exec (.sread a) s = runWord (.sread a) s fun x =>
    .done (x.mayFlags.2.updGroup x.r fun k => k.updLanes x.active (readsSpecial a x x.mayFlags.1)) := rfl
  have hmay : (s.issueOf w g (.sread a)).mayFlags.2 = (s.issueOf w g (.sread a)).s := by
    rw [mayFlags_of_nil (by rw [issueOf_of_nil m.pend]; exact m.pend)]
  have heff := congrArg (fun u : State => Eff.done (u.updGroup g.ref fun k => k.updLanes g.run.active
    (readsSpecial a (s.issueOf w g (.sread a)) (s.issueOf w g (.sread a)).mayFlags.1))) hmay
  refine ⟨fun hi ht => rest_of_done m.pend hi hexec heff (fun _ => updLanes_ref ..) ht, fun hi ht => ?_⟩
  obtain ⟨hs, hkept, hlanes⟩ := m.lanes (S := fun _ => True) (seeded := fun _ => True) (fun _ => flagRule_noFlags) hi hexec heff rfl
    (fun k => keeps_updLanes (laneRule_keeps fun _ => flagRule_noFlags) k fun n _ l => readsSpecial_keeps a _ _ n l) ht
  refine ⟨fun n => hs n trivial, hkept, fun l => ?_⟩
  obtain ⟨hregs, hrng, htime, hflags⟩ := hlanes l
  exact ⟨hregs, hrng trivial, hflags, fun h9 h10 => htime ⟨h9, h10⟩⟩

/-- What an RNG writes of a lane: its random state, and its destination (R189). -/
def advancesRng (a : RngArgs) (x : Issue) (n : Nat) (l : Lane) : Lane :=
  (if (x.pred n).trit 0 = 1 then { l with rng := Word.ofInt (rngNext l.rng.val) } else l).put .w a.d (x.pred n) fun _ =>
    plain (rotate 27 (rngNext l.rng.val) 13)

theorem advancesRng_keeps (a : RngArgs) (x : Issue) {seeded : Prop} (n : Nat) (l : Lane) (h : ¬seeded) :
    LaneKeeps (Reg.gNums .w a.d) (Reg.hNums a.d) [] NoFlags seeded True l (advancesRng a x n l) := by
  refine laneKeeps_trans flagRule_noFlags ?_ (putWord_keeps _ _ _)
  split
  · exact rng_keeps flagRule_noFlags l _ h
  · exact laneKeeps_refl flagRule_noFlags l

theorem Met.rng (m : Met s t g h h') (a : RngArgs) : RestFrame s t w g (.rng a) ∧
    (Issues s w g (.rng a) → exec (.rng a) s = .next t → (∀ n, h'.rdS n = h.rdS n) ∧ GroupKept h h' ∧
      ∀ l, SameLane h h' l (Reg.gNums .w a.d) (Reg.hNums a.d) [] ∧ (h'.lane l).fs = (h.lane l).fs ∧
        (h'.lane l).timeHi = (h.lane l).timeHi ∧ (l ∉ g.run.active → (h'.lane l).rng = (h.lane l).rng)) := by
  have hexec : exec (.rng a) s = runWord (.rng a) s fun x => .done (x.eachLane (advancesRng a x)) := rfl
  refine ⟨fun hi ht => rest_of_done m.pend hi hexec rfl (fun _ => updLanes_ref ..) ht, fun hi ht => ?_⟩
  obtain ⟨hs, hkept, hlanes⟩ := m.lanes (S := fun _ => True) (seeded := fun l => l ∉ g.run.active) (timed := True)
    (fun _ => flagRule_noFlags) hi hexec rfl rfl (fun k => keeps_updLanes (laneRule_keeps fun _ => flagRule_noFlags) k
      fun n hn l => advancesRng_keeps a _ n l (not_not_intro hn)) ht
  refine ⟨fun n => hs n trivial, hkept, fun l => ?_⟩
  obtain ⟨hregs, hrng, htime, hflags⟩ := hlanes l
  exact ⟨hregs, hflags, htime trivial, hrng⟩

/-- What an SWRITE writes of a lane: sr.fs or sr.rng (R190). -/
def writesSpecial (a : SwriteArgs) (x : Issue) (n : Nat) (l : Lane) : Lane :=
  if a.num.val = 12 then { l with fs := Flags.ofInt (mergeWord (x.pred n) (Word.ofInt l.fs.toInt) (x.reg a.a n)).val }
  else { l with rng := mergeWord (x.pred n) l.rng (x.reg a.a n) }

/-- Where a condition holds, no flag changes. -/
def NoFlagsIf (p : Prop) (a b : Flags) : Prop := p → b = a

theorem flagRule_noFlagsIf (p : Prop) : FlagRule (NoFlagsIf p) := ⟨fun _ _ => rfl, fun h h' hp => (h' hp).trans (h hp)⟩

theorem writesSpecial_keeps {p seeded : Prop} (a : SwriteArgs) (x : Issue) (n : Nat) (l : Lane) (hp : a.num.val = 12 → ¬p)
    (hseeded : a.num.val ≠ 12 → ¬seeded) : LaneKeeps [] [] [] (NoFlagsIf p) seeded True l (writesSpecial a x n l) := by
  unfold writesSpecial
  split
  case isTrue h12 => exact fs_keeps l fun h => absurd h (hp h12)
  case isFalse h12 => exact rng_keeps (flagRule_noFlagsIf p) l _ (hseeded h12)

theorem Met.swrite (m : Met s t g h h') (a : SwriteArgs) : RestFrame s t w g (.swrite a) ∧
    (Issues s w g (.swrite a) → exec (.swrite a) s = .next t → (∀ n, h'.rdS n = h.rdS n) ∧ GroupKept h h' ∧
      ∀ l, SameLane h h' l [] [] [] ∧ (h'.lane l).timeHi = (h.lane l).timeHi ∧
        (a.num.val ≠ 12 → (h'.lane l).fs = (h.lane l).fs) ∧ (a.num.val = 12 → (h'.lane l).rng = (h.lane l).rng) ∧
        (l ∉ g.run.active → (h'.lane l).fs = (h.lane l).fs ∧ (h'.lane l).rng = (h.lane l).rng)) := by
  have hexec : exec (.swrite a) s = runWord (.swrite a) s fun x => .done (x.eachLane (writesSpecial a x)) := rfl
  refine ⟨fun hi ht => rest_of_done m.pend hi hexec rfl (fun _ => updLanes_ref ..) ht, fun hi ht => ?_⟩
  obtain ⟨hs, hkept, hlanes⟩ := m.lanes (S := fun _ => True) (timed := True)
    (fl := fun l => NoFlagsIf (a.num.val ≠ 12 ∨ l ∉ g.run.active)) (seeded := fun l => a.num.val = 12 ∨ l ∉ g.run.active)
    (fun _ => flagRule_noFlagsIf _) hi hexec rfl rfl (fun k => keeps_updLanes (laneRule_keeps fun _ => flagRule_noFlagsIf _) k
      fun n hn l => writesSpecial_keeps a _ n l (fun h12 => not_or.2 ⟨not_not_intro h12, not_not_intro hn⟩)
        fun h12 => not_or.2 ⟨h12, not_not_intro hn⟩) ht
  refine ⟨fun n => hs n trivial, hkept, fun l => ?_⟩
  obtain ⟨hregs, hrng, htime, hflags⟩ := hlanes l
  exact ⟨hregs, htime trivial, fun h12 => hflags (.inl h12), fun h12 => hrng (.inl h12),
    fun hl => ⟨hflags (.inr hl), hrng (.inr hl)⟩⟩

/-- R115: what a write of an s register leaves of its group. -/
theorem putS_keeps {R : Nat → Lane → Lane → Prop} (hR : LaneRule R) (k : Group) (n : Nat) (byWord : Bool) (p : Trits 3) (v : Word) :
    Keeps (· ≠ n) R k (k.putS n byWord p v) := by
  unfold Group.putS Group.wrS
  split
  · exact keeps_refl hR k
  · refine ⟨rfl, fun m hm => ?_, fun _ => rfl, rfl, rfl, rfl, fun i => hR.refl i _⟩
    by_cases h0 : m = 0
    · simp [Group.rdS, h0]
    · simp [Group.rdS, h0, SMap.get_set_other _ _ _ hm]

/-- The group that a MOVI leaves: the lowest active lane gives the word (R115). -/
def writesScalar (n : Nat) (byWord : Bool) (v : Issue → Word) (x : Issue) (k : Group) : Group :=
  match x.active with
  | [] => k
  | l :: _ => k.putS n byWord (x.pred l) (v x)

theorem putS_eq (x : Issue) (n : Nat) (byWord : Bool) (v : Issue → Word) :
    x.putS n byWord (v x) = .done (x.s.updGroup x.r (writesScalar n byWord v x)) := by
  unfold Issue.putS writesScalar
  cases x.active with
  | nil => exact congrArg _ (updGroup_self _ _).symm
  | cons l ls => rfl

theorem writesScalar_keeps {R : Nat → Lane → Lane → Prop} (hR : LaneRule R) (n : Nat) (byWord : Bool) (v : Issue → Word) (x : Issue)
    (k : Group) : Keeps (· ≠ n) R k (writesScalar n byWord v x k) := by
  unfold writesScalar
  split
  · exact keeps_refl hR k
  · exact putS_keeps hR k n byWord _ _

theorem Met.movi (m : Met s t g h h') (a : MoviArgs) : RestFrame s t w g (.movi a) ∧
    (Issues s w g (.movi a) → exec (.movi a) s = .next t → (∀ n, n ≠ a.sd.val → h'.rdS n = h.rdS n) ∧ GroupKept h h' ∧
      ∀ l, SameLane h h' l [] [] [] ∧ (h'.lane l).rng = (h.lane l).rng ∧ (h'.lane l).timeHi = (h.lane l).timeHi ∧
        (h'.lane l).fs = (h.lane l).fs) := by
  have hexec : exec (.movi a) s = runWord (.movi a) s fun x => x.putS a.sd.val (!a.ty.tryte)
    (if a.ty.tryte then joinTrytes (x.elemB a.ty a.b x.low) else Word.ofInt (x.elemB a.ty a.b x.low 0)) := rfl
  have heff := putS_eq (s.issueOf w g (.movi a)) a.sd.val (!a.ty.tryte)
    fun x => if a.ty.tryte then joinTrytes (x.elemB a.ty a.b x.low) else Word.ofInt (x.elemB a.ty a.b x.low 0)
  have hR := laneRule_keeps (gs := []) (hs := []) (ks := []) (seeded := fun _ => True) (timed := True) fun _ => flagRule_noFlags
  refine ⟨fun hi ht => rest_of_done m.pend hi hexec heff (fun k => (writesScalar_keeps hR _ _ _ _ k).ref) ht, fun hi ht => ?_⟩
  obtain ⟨hs, hkept, hlanes⟩ := m.lanes (fun _ => flagRule_noFlags) hi hexec heff rfl (writesScalar_keeps hR _ _ _ _) ht
  refine ⟨hs, hkept, fun l => ?_⟩
  obtain ⟨hregs, hrng, htime, hflags⟩ := hlanes l
  exact ⟨hregs, hrng trivial, htime trivial, hflags⟩

/-! ### Words that read a table -/

/-- The range trit and the coordinates of a lane of a TIDX. -/
def parted (a : IdxArgs) (x : Issue) (n : Nat) : Int × List Int :=
  splitIndex (shapeFor (x.shapes a.b).2 (x.src a.b n)) (x.greg a.a.val n).val

theorem Met.tidx (m : Met s t g h h') (a : IdxArgs) :
    RegsFrame s t w g h h' (.tidx a) ((List.range 5).map (a.d.val + ·)) [] [a.kn.val] NoFlags := by
  refine m.regs flagRule_noFlags (i := .tidx a) (u := fun x => (x.shapes a.b).1) (F := fun x k => k.updLanes x.active fun n l =>
    l.putIndex a.d.val a.kn.val (x.pred n) (parted a x n).2 (parted a x n).1)
    rfl (fun x hr => by rw [← hr]; rfl) (shapes_groups ..) fun _ x k => keeps_updLanes (laneRule_keeps fun _ => flagRule_noFlags) k
      fun n _ l => putIndex_keeps flagRule_noFlags (fun i hi => ?_) (by simp) l _ _
  have hlen : i < 5 := by simpa [parted, splitIndex] using hi
  exact List.mem_map.2 ⟨i, List.mem_range.2 hlen, rfl⟩

/-- The range trit and the linear index of a lane of a TJOIN. -/
def joined (a : IdxArgs) (x : Issue) (n : Nat) : Int × Int :=
  joinIndex (shapeFor (x.shapes a.b).2 (x.src a.b n)) ((List.range 5).map fun j => (x.greg (a.a.val + j) n).val)

theorem Met.tjoin (m : Met s t g h h') (a : IdxArgs) : RegsFrame s t w g h h' (.tjoin a) [a.d.val] [] [a.kn.val] NoFlags := by
  refine m.regs flagRule_noFlags (i := .tjoin a) (u := fun x => (x.shapes a.b).1) (F := fun x k => k.updLanes x.active fun n l =>
    l.putIndex a.d.val a.kn.val (x.pred n) [(joined a x n).2] (joined a x n).1)
    rfl (fun x hr => by rw [← hr]; rfl) (shapes_groups ..) fun _ x k => keeps_updLanes (laneRule_keeps fun _ => flagRule_noFlags) k
      fun n _ l => putIndex_keeps flagRule_noFlags (fun i hi => ?_) (by simp) l _ _
  obtain rfl : i = 0 := by simpa using hi
  exact List.mem_singleton.2 rfl

/-- R185: the pattern that an XPERM reads, where a lane has an active element. -/
def patternRead (a : XpermArgs) (x : Issue) : State × Option (List Int) :=
  if x.active.any x.selects then x.s.patternAt x.w (x.simm a.b) else (x.s, none)

theorem patternRead_groups (a : XpermArgs) (x : Issue) : (patternRead a x).1.groups = x.s.groups := by
  unfold patternRead
  split
  · exact patternAt_groups ..
  · rfl

/-- The source of a lane under a pattern. -/
def patternSource (x : Issue) (pat : Option (List Int)) (l : Nat) : Option Nat :=
  match pat with
  | some ps => x.source l (ps.getD (x.position l) (-1))
  | none => none

theorem Met.xperm (m : Met s t g h h') (a : XpermArgs) :
    RegsFrame s t w g h h' (.xperm a) (Reg.gNums .w a.d) (Reg.hNums a.d) [a.kn.val] NoFlags := by
  have hexec : exec (.xperm a) s = runWord (.xperm a) s fun x =>
      { x with s := (patternRead a x).1 }.exchange a.kn.val a.d a.a (patternSource x (patternRead a x).2) := rfl
  exact m.regs flagRule_noFlags (u := fun x => (patternRead a x).1) hexec (fun x hr => by rw [← hr]; rfl) (patternRead_groups ..)
    fun _ x k => keeps_updLanes (laneRule_keeps fun _ => flagRule_noFlags) k fun _ _ l => exchange_keeps ..

end

/-- Settles O57: each word's effect changes the lanes of its group by a rule (`LaneKeeps`), which the issue before it and the settling
of calls after it keep, and the reading of a table changes no group. -/
theorem registerWordsFrame : Obligations.RegisterWordsFrame := by
  intro s t w g h h' hpend hh hh'
  have m : Met s t g h h' := ⟨hpend, hh, hh'⟩
  intro none_ saturates divides floats invalid runEnds same kept regs rest frame
  refine ⟨?op3, ?op2, ?op0, ?mov, ?lea, ?cvtw, ?bcst, ?redu, ?scan, ?ftoi, ?bcvt, ?fcvt, ?cmp, ?pset, ?vote, ?swriteK, ?shfl, ?xperm,
    ?index, ?sreadK, ?sread, ?lit, ?nop, ?rng, ?swrite, ?movi⟩
  case op3 =>
    exact fun a => ⟨
      -- ADD, SUB, MUL, MULH, MAD, MIN, MAX, CLAMP
      m.plain3 rfl rfl, m.plain3 rfl rfl, m.plain3 rfl rfl, m.plain3 rfl rfl, m.plain3 rfl rfl, m.plain3 rfl rfl,
      m.plain3 rfl rfl, m.plain3 rfl rfl,
      -- TMIN, TMAX, TSUM3, TPRD, TCNS
      m.plain3 rfl rfl, m.plain3 rfl rfl, m.plain3 rfl rfl, m.plain3 rfl rfl, m.plain3 rfl rfl,
      -- SHL, SHR, ROT, CNT, SEL3
      m.plain3 rfl rfl, m.plain3 rfl rfl, m.plain3 rfl rfl, m.plain3 rfl rfl, m.sel3 a,
      -- ADDS, SUBS
      m.int3 flagRule_onlySaturate rfl rfl fun _ _ _ _ => satInt_raises _ _,
      m.int3 flagRule_onlySaturate rfl rfl fun _ _ _ _ => satInt_raises _ _,
      -- the quotients and the remainders
      m.int3 flagRule_onlyDivzero rfl rfl (fnDivide_raises _), m.int3 flagRule_onlyDivzero rfl rfl (fnDivide_raises _),
      m.int3 flagRule_onlyDivzero rfl rfl (fnDivide_raises _), m.int3 flagRule_onlyDivzero rfl rfl (fnRemain_raises _),
      m.int3 flagRule_onlyDivzero rfl rfl (fnRemain_raises _), m.int3 flagRule_onlyDivzero rfl rfl (fnRemain_raises _),
      -- FADD, FSUB, FMUL, FMA
      m.float rfl rfl fun _ _ _ => finish_divzero _ _, m.float rfl rfl fun _ _ _ => finish_divzero _ _,
      m.float rfl rfl fun _ _ _ => finish_divzero _ _, m.float rfl rfl fun _ _ _ => finish_divzero _ _,
      -- FMIN, FMAX, FSCL, ITOF
      m.float rfl rfl fun _ _ _ => round_divzero _ _ _, m.float rfl rfl fun _ _ _ => round_divzero _ _ _,
      m.float rfl rfl fun _ _ _ => round_divzero _ _ _, m.float rfl rfl fun _ _ _ => round_divzero _ _ _⟩
  case op2 =>
    exact fun a => ⟨
      -- NEG, ABS, SGN, LEAD
      m.plain2 rfl rfl, m.plain2 rfl rfl, m.plain2 rfl rfl, m.plain2 rfl rfl,
      -- FABS, FNEG, FCLS, FEXN
      m.float2 flagRule_noFlags rfl rfl, m.float2 flagRule_noFlags rfl rfl, m.float2 flagRule_noFlags rfl rfl,
      m.float2 flagRule_noFlags rfl rfl,
      -- FTRN, FFLR, FCEL
      m.float2 flagRule_notDivzero rfl rfl, m.float2 flagRule_notDivzero rfl rfl, m.float2 flagRule_notDivzero rfl rfl⟩
  case op0 =>
    exact fun a => ⟨
      -- EXT, INS, UNPK3, SPLAT
      m.plainWord rfl nofun, m.plainWord rfl nofun, m.plainWord rfl nofun, m.plainWord rfl nofun,
      -- PACK3, FDOT
      m.tryte flagRule_onlySaturate rfl nofun fun _ _ => packN3_raises _, m.fdot a⟩
  case mov => exact fun a => m.put flagRule_noFlags rfl isH_of_ok fun _ _ _ => raises_none flagRule_noFlags
  case lea => exact fun a => m.plainWord rfl nofun
  case cvtw => exact fun a => m.cvtw a
  case bcst => exact fun a => m.put flagRule_noFlags rfl bcst_isH fun _ _ _ => raises_none flagRule_noFlags
  case redu => exact fun a => m.combines rfl rfl
  case scan => exact fun a => m.combines rfl rfl
  case ftoi => exact fun a => m.put flagRule_notDivzero rfl ftoi_isH fun _ _ _ => raises_notDivzero (toInteger_divzero _ _ _)
  case bcvt => exact fun a => m.bcvt a
  case fcvt => exact fun a => m.fcvt a
  case cmp => exact fun a => ⟨m.predicate rfl, m.predicate rfl, m.fcmp a⟩
  case pset => exact fun a => m.predicate rfl
  case vote => exact fun a => m.predicate rfl
  case swriteK => exact fun a => m.predicate rfl
  case shfl => exact fun a => ⟨m.exchange rfl, m.exchange rfl, m.exchange rfl⟩
  case xperm => exact fun a => m.xperm a
  case index => exact fun a => ⟨m.tidx a, m.tjoin a⟩
  case sreadK => exact fun a => m.plainWord rfl nofun
  case sread => exact fun a => m.sread a
  case lit => exact fun p => m.run rfl
  case nop => exact m.nop
  case rng => exact fun a => m.rng a
  case swrite => exact fun a => m.swrite a
  case movi => exact fun a => m.movi a

end Sys2Proof.Machine
end

section
/-! Every instruction's word reads back, and a word that decodes is its instruction's (04_instruction_words.md R84 to R99): the fields
of each shape of word, then each instruction by its shape. -/

namespace Sys2Proof.Machine

/-! ## Words and fields (R84) -/

/-- A word that decodes is the word of the instruction that it decodes to. -/
theorem encode_of_decodeWord {v : Int} {i : Instr} (hv : v.natAbs ≤ maxMag 27) (h : decodeWord v = .ok i) :
    i.wellFormed = true ∧ i.fields = some (Fields.ofWord v) ∧ encode i = some v := by
  unfold decodeWord decodeFields at h
  split at h
  · cases h
  · split at h
    · cases h
    · split at h
      case isFalse => cases h
      case isTrue hok =>
        cases h
        simp only [Bool.and_eq_true, beq_iff_eq] at hok
        obtain ⟨hwf, hfields⟩ := hok
        exact ⟨hwf, hfields, by simp [encode, hfields, word_ofWord hv]⟩

theorem fits_ofWord (v : Int) : Fits (Fields.ofWord v) := by
  constructor <;> exact natAbs_wrapInt_le _ _

/-- An event has no fields. -/
theorem isEvent_of_fields {i : Instr} {f : Fields} (h : i.fields = some f) : i.isEvent = false := by
  have hnone : i.fields.isNone = i.isEvent := by cases i <;> rfl
  rw [← hnone, h, Option.isNone_some]

/-- Fields of a word of `op`, from which `dec` reads the operands x. -/
structure Reads {α : Type} (op : Int) (dec : Fields → Option α) (f : Fields) (x : α) : Prop where
  op_eq : f.op = op
  fits : Fits f
  read : dec f = some x

theorem decodeWord_of_reads {α : Type} {op : Int} {dec : Fields → Option α} {mk : α → Instr} {x : α} {f : Fields} {r : OpRow}
    (hread : Reads op dec f x) (hf : (mk x).fields = some f) (hr : findRow opRows op = some r) (hbuild : r.build f = (dec f).map mk)
    (hwf : (mk x).wellFormed = true) : decodeWord (wordOf (mk x)).val = .ok (mk x) := by
  obtain ⟨rfl, hfits, hdec⟩ := hread
  exact decodeWord_wordOf hf hfits hr (by rw [hbuild, hdec, Option.map_some]) hwf

/-! ## Operands in their fields (R86 to R91) -/

theorem natAbs_zero_le (n : Nat) : (0 : Int).natAbs ≤ maxMag n := Nat.zero_le _

theorem natAbs_fin {n m : Nat} (k : Fin n) (h : n ≤ maxMag m + 1) : ((k.val : Nat) : Int).natAbs ≤ maxMag m := by omega

theorem natAbs_encK (n : Fin 9) : (encK n).natAbs ≤ maxMag 4 := by simp only [encK, maxMag]; omega

theorem natAbs_reg (r : Reg) : r.field.natAbs ≤ maxMag 4 := by
  cases r <;> simp only [Reg.field, maxMag] <;> omega

theorem natAbs_trit (t : Trit) : t.val.natAbs ≤ maxMag 1 := by cases t <;> decide

theorem tritOf_val (t : Trit) : tritOf t.val = some t := by cases t <;> rfl

theorem natAbs_psrc (b : PSrc) : b.field.natAbs ≤ maxMag 4 ∧ b.mode.natAbs ≤ maxMag 1 := by
  cases b with
  | imm v => exact ⟨natAbs_trits v, natAbs_zero_le 1⟩
  | k n => exact ⟨natAbs_encK n, by simp [PSrc.mode, maxMag]⟩

theorem natAbs_hMap (d a b : Bool) : (hMap d a b).natAbs ≤ maxMag 2 := by revert d a b; decide

theorem kOf_encK (n : Fin 9) : kOf (encK n) = some n := finOf_val n (by simp [encK])

/-! ## Fixed-latency words (R84, R89) -/

section
variable (op var d a b bm w : Int) (p : Pred)

@[simp] theorem fixF_var : (fixF op var d a b bm w p).var = var := rfl
@[simp] theorem fixF_d : (fixF op var d a b bm w p).d = d := rfl
@[simp] theorem fixF_a : (fixF op var d a b bm w p).a = a := rfl
@[simp] theorem fixF_b : (fixF op var d a b bm w p).b = b := rfl
@[simp] theorem fixF_imm : (fixF op var d a b bm w p).imm = Trits.ofInt 4 b := rfl
@[simp] theorem predOf_fixF : predOf (fixF op var d a b bm w p) = some p := predOf_fields rfl rfl
end

theorem fits_fixF {op var d a b bm w : Int} {p : Pred} (hop : op.natAbs ≤ maxMag 5) (hvar : var.natAbs ≤ maxMag 2)
    (hd : d.natAbs ≤ maxMag 4) (ha : a.natAbs ≤ maxMag 4) (hb : b.natAbs ≤ maxMag 4 ∧ bm.natAbs ≤ maxMag 1)
    (hw : w.natAbs ≤ maxMag 2) : Fits (fixF op var d a b bm w p) := by
  obtain ⟨hb, hbm⟩ := hb
  obtain ⟨hk, hks⟩ := natAbs_pred p
  exact ⟨hop, hvar, hd, ha, hb, hk, hks, hw, natAbs_zero_le 1, hbm, natAbs_zero_le 1⟩

@[simp] theorem knOf_fixF {op d a b bm w : Int} {p : Pred} (n : Fin 9) : knOf (fixF op (encW n) d a b bm w p) = some n :=
  kn2Of_sub n

/-- The b and bm of a word without b. -/
theorem noB : (0 : Int).natAbs ≤ maxMag 4 ∧ (0 : Int).natAbs ≤ maxMag 1 := ⟨natAbs_zero_le 4, natAbs_zero_le 1⟩

/-- R89: the trits of the h map. -/
theorem hD_hMap {f : Fields} {d a b : Bool} (h : f.w = hMap d a b) : f.hD = if d then 1 else 0 := by
  rw [Fields.hD, h]; cases d <;> cases a <;> cases b <;> rfl
theorem hS_hMap {f : Fields} {d a b : Bool} (h : f.w = hMap d a b) : f.hS = if a then 1 else if b then -1 else 0 := by
  rw [Fields.hS, h]; cases d <;> cases a <;> cases b <;> rfl

theorem regNum_field (r : Reg) : regNum r.isH r.field = some r := by
  cases r with
  | g n => simpa [regNum, Reg.isH, Reg.field, encG] using gOf_encG n
  | h n => simpa [regNum, Reg.isH, Reg.field, encK] using kOf_encK n

theorem regD_fields {f : Fields} {d : Reg} {a b : Bool} (hd : f.d = d.field) (hw : f.w = hMap d.isH a b) : regD f = some d := by
  cases hh : d.isH <;> simpa [regD, hD_hMap hw, hd, hh] using regNum_field d

theorem regA_fields {f : Fields} {a : Reg} {d b : Bool} (ha : f.a = a.field) (hw : f.w = hMap d a.isH b) : regA f = some a := by
  cases hh : a.isH <;> cases b <;> simpa [regA, hS_hMap hw, ha, hh] using regNum_field a

/-- R87, R89: a second source, where t22 is not taken by a run temporary of a. -/
theorem srcOf_fields {f : Fields} {b : Src} {d a : Bool} (hb : f.b = b.field) (hbm : f.bm = b.mode) (hw : f.w = hMap d a b.isH)
    (hone : (a && b.isH) = false) : srcOf f = some b := by
  have hs := hS_hMap hw
  cases b with
  | g n => cases a <;> simpa [srcOf, hb, hbm, hs, Src.field, Src.mode, Src.isH, encG] using gOf_encG n
  | h n =>
    cases a with
    | false => simpa [srcOf, hb, hbm, hs, Src.field, Src.mode, Src.isH, encK] using kOf_encK n
    | true => simp [Src.isH] at hone
  | s n => simpa [srcOf, hb, hbm, Src.field, Src.mode, encS] using sOf_encS n
  | imm v => simp [srcOf, hb, hbm, Src.field, Src.mode, Fields.imm, trits_ofInt_val]

theorem psrcOf_fields {f : Fields} {b : PSrc} (hb : f.b = b.field) (hbm : f.bm = b.mode) : psrcOf f = some b := by
  cases b with
  | k n => simpa [psrcOf, hb, hbm, PSrc.field, PSrc.mode, encK] using kOf_encK n
  | imm v => simp [psrcOf, hb, hbm, PSrc.field, PSrc.mode, Fields.imm, trits_ofInt_val]

section
variable {op var d a b bm w : Int} {p : Pred} {x y z : Bool}

@[simp] theorem regD_fixF (r : Reg) : regD (fixF op var r.field a b bm (hMap r.isH y z) p) = some r := regD_fields rfl rfl
@[simp] theorem regA_fixF (r : Reg) : regA (fixF op var d r.field b bm (hMap x r.isH z) p) = some r := regA_fields rfl rfl
@[simp] theorem simmOf_fixF (s : SImm) : simmOf (fixF op var d a s.field s.mode w p) = some s := simmOf_fields rfl rfl
@[simp] theorem psrcOf_fixF (s : PSrc) : psrcOf (fixF op var d a s.field s.mode w p) = some s := psrcOf_fields rfl rfl
@[simp] theorem srcOf_fixF_noA (s : Src) : srcOf (fixF op var d a s.field s.mode (hMap x false s.isH) p) = some s :=
  srcOf_fields rfl rfl rfl rfl
theorem srcOf_fixF {r : Reg} {s : Src} (h : oneH r s = true) :
    srcOf (fixF op var d a s.field s.mode (hMap x r.isH s.isH) p) = some s :=
  srcOf_fields rfl rfl rfl ((Bool.not_eq_true' _).mp h)
end

/-! ## Codes of the tables (R91 and the tables of each family) -/

/-- R188: the operation of SCAN and its exclusive form. -/
theorem scanCode_read (fn : RedOp) (e : Bool) : (fn.code + 3 * (if e then 1 else 0)).natAbs ≤ maxMag 4 ∧
    ∀ f : Fields, f.b = fn.code + 3 * (if e then 1 else 0) → redOf (wrapInt 1 f.b) = some fn ∧ decide (dropInt 1 f.b = 1) = e := by
  cases fn <;> cases e <;> exact ⟨by decide, fun f hf => hf ▸ ⟨rfl, rfl⟩⟩

/-- R281: the kind and the scope of FENCE. -/
theorem fenceCode_read (kind : FenceKind) (sc : Scope) : let b := sc.code + 9 * kind.code
    b.natAbs ≤ maxMag 4 ∧ fenceOf (dropInt 2 b) = some kind ∧ Sys2Proof.scopeOf (wrapInt 2 b) = some sc := by
  cases kind <;> cases sc <;> exact ⟨by decide, rfl, rfl⟩

theorem spaceCode_read {sp : Space} (h : (sp != .priv) = true) : sp.vCode.natAbs ≤ maxMag 2 ∧ spaceVOf sp.vCode = some sp := by
  cases sp with
  | priv => cases h
  | _ => exact ⟨by decide, rfl⟩

theorem modeCode_read (m : RoundMode) : m.code.natAbs ≤ maxMag 4 ∧ modeOf m.code = some m := by cases m <;> exact ⟨by decide, rfl⟩
theorem binFmtCode_read (b : BinFmt) : b.code.natAbs ≤ maxMag 4 ∧ binFmtOf b.code = some b := by cases b <;> exact ⟨by decide, rfl⟩
theorem redCode_read (o : RedOp) : o.code.natAbs ≤ maxMag 4 ∧ redOf o.code = some o := by cases o <;> exact ⟨by decide, rfl⟩
theorem voteCode_read (v : VoteFn) : v.code.natAbs ≤ maxMag 2 ∧ voteOf v.code = some v := by cases v <;> exact ⟨by decide, rfl⟩
theorem cvtwCode_read (c : CvtwKind) : c.code.natAbs ≤ maxMag 2 ∧ cvtwOf c.code = some c := by cases c <;> exact ⟨by decide, rfl⟩

/-! ## Shapes of words -/

section
variable (op var d a b bm : Int) (w : Fin 9) (p : Pred)

@[simp] theorem longF_var : (longF op var d a b bm w p).var = var := rfl
@[simp] theorem longF_d : (longF op var d a b bm w p).d = d := rfl
@[simp] theorem longF_a : (longF op var d a b bm w p).a = a := rfl
@[simp] theorem wOf_longF : wOf (longF op var d a b bm w p) = some w := kn2Of_sub w
end

/-- R88: a long-latency word of d and a alone. -/
theorem decodeWord_longF {i : Instr} {op var d a : Int} {w : Fin 9} {r : OpRow}
    (hf : i.fields = some (longF op var d a 0 0 w .always)) (hr : findRow opRows op = some r) (hvar : var.natAbs ≤ maxMag 2)
    (hd : d.natAbs ≤ maxMag 4) (ha : a.natAbs ≤ maxMag 4) (hbuild : r.build (longF op var d a 0 0 w .always) = some i)
    (hwf : i.wellFormed = true) (hop : op.natAbs ≤ maxMag 5 := by decide) : decodeWord (wordOf i).val = .ok i :=
  decodeWord_wordOf hf (fits_longF hop hvar hd ha (natAbs_zero_le 4) (natAbs_zero_le 1)) hr hbuild hwf

/-- R84: a fixed-latency word. -/
theorem decodeWord_fixF {i : Instr} {op var d a b bm w : Int} {p : Pred} {r : OpRow}
    (hf : i.fields = some (fixF op var d a b bm w p)) (hr : findRow opRows op = some r) (hvar : var.natAbs ≤ maxMag 2)
    (hd : d.natAbs ≤ maxMag 4) (ha : a.natAbs ≤ maxMag 4) (hb : b.natAbs ≤ maxMag 4 ∧ bm.natAbs ≤ maxMag 1)
    (hw : w.natAbs ≤ maxMag 2) (hbuild : r.build (fixF op var d a b bm w p) = some i) (hwf : i.wellFormed = true)
    (hop : op.natAbs ≤ maxMag 5 := by decide) : decodeWord (wordOf i).val = .ok i :=
  decodeWord_wordOf hf (fits_fixF hop hvar hd ha hb hw) hr hbuild hwf

theorem oneH_of_and {p : Bool} {a : Reg} {b : Src} (h : (p && oneH a b) = true) : oneH a b = true :=
  (Bool.and_eq_true_iff.mp h).2

theorem oneH_of_okFloat {x : Op3} (h : x.okFloat = true) : oneH x.a x.b = true :=
  oneH_of_and (Bool.and_eq_true_iff.mp h).1

theorem oneH_of_cmp_okFloat {x : CmpArgs} (h : x.okFloat = true) : oneH x.a x.b = true :=
  oneH_of_and (Bool.and_eq_true_iff.mp h).1

theorem reads_op3 {op : Int} {x : Op3} (h : oneH x.a x.b = true) (hop : op.natAbs ≤ maxMag 5 := by decide) :
    Reads op op3Of (encOp3 op x) x :=
  ⟨rfl, fits_fixF hop (natAbs_ty _) (natAbs_reg _) (natAbs_reg _) (natAbs_src _) (natAbs_hMap _ _ _),
    by simp [op3Of, encOp3, tyOf_code, srcOf_fixF h]⟩

theorem reads_op2 {op : Int} {x : Op2} (hop : op.natAbs ≤ maxMag 5 := by decide) : Reads op op2Of (encOp2 op x) x :=
  ⟨rfl, fits_fixF hop (natAbs_ty _) (natAbs_reg _) (natAbs_reg _) noB (natAbs_hMap _ _ _), by simp [op2Of, encOp2, tyOf_code]⟩

theorem reads_op0 {op var : Int} {x : Op0} (hvar : var.natAbs ≤ maxMag 2) (h : oneH x.a x.b = true)
    (hop : op.natAbs ≤ maxMag 5 := by decide) : Reads op op0Of (encOp0 op var x) x :=
  ⟨rfl, fits_fixF hop hvar (natAbs_reg _) (natAbs_reg _) (natAbs_src _) (natAbs_hMap _ _ _), by simp [op0Of, encOp0, srcOf_fixF h]⟩

theorem reads_cmp {op : Int} {x : CmpArgs} (h : oneH x.a x.b = true) (hop : op.natAbs ≤ maxMag 5 := by decide) :
    Reads op cmpOf (encCmp op x) x :=
  ⟨rfl, fits_fixF hop (natAbs_ty _) (natAbs_encK _) (natAbs_reg _) (natAbs_src _) (natAbs_hMap _ _ _),
    by simp [cmpOf, encCmp, tyOf_code, kOf_encK, srcOf_fixF h]⟩

theorem reads_idx {op : Int} {x : IdxArgs} (hop : op.natAbs ≤ maxMag 5 := by decide) : Reads op idxOf (encIdx op x) x :=
  ⟨rfl, fits_fixF hop (natAbs_encW _) (natAbs_encG _) (natAbs_encG _) (natAbs_src _) (natAbs_hMap _ _ _),
    by simp [idxOf, encIdx, gOf_encG]⟩

theorem reads_shfl {op : Int} {x : ShflArgs} (h : oneH x.a x.b = true) (hop : op.natAbs ≤ maxMag 5 := by decide) :
    Reads op shflOf (encShfl op x) x :=
  ⟨rfl, fits_fixF hop (natAbs_encW _) (natAbs_reg _) (natAbs_reg _) (natAbs_src _) (natAbs_hMap _ _ _),
    by simp [shflOf, encShfl, srcOf_fixF h]⟩

theorem reads_line {op var : Int} {x : LineArgs} (hvar : var.natAbs ≤ maxMag 2) (h : x.ok = true)
    (hop : op.natAbs ≤ maxMag 5 := by decide) : Reads op lineOf (encLine op var x) x :=
  ⟨rfl, fits_fixF hop hvar (natAbs_zero_le 4) (natAbs_reg _) (natAbs_src _) (natAbs_hMap _ _ _),
    by simp [lineOf, encLine, srcOf_fixF h]⟩

theorem reads_sdsa {op var : Int} {x : SdSa} (hvar : var.natAbs ≤ maxMag 2) (hop : op.natAbs ≤ maxMag 5 := by decide) :
    Reads op sdsaOf (encSdSa op var x) x :=
  ⟨rfl, fits_fixF hop hvar (natAbs_encS _) (natAbs_encS _) noB (natAbs_zero_le 2), by simp [sdsaOf, encSdSa, sOf_encS]⟩

/-! ## Fields of t7 to t18 as one integer (R97, R98, R99) -/

theorem fits_longField {op v : Int} {hint : Trit} {p : Pred} (hop : op.natAbs ≤ maxMag 5) (hv : v.natAbs ≤ maxMag 12) :
    Fits (longField op v hint.val p) := by
  obtain ⟨hk, hks⟩ := natAbs_pred p
  exact ⟨hop, natAbs_zero_le 2, natAbs_wrapInt_le 4 v, natAbs_wrapInt_le 4 _, natAbs_dropInt_le (n := 4) hv, hk, hks, natAbs_zero_le 2,
    natAbs_trit hint, natAbs_zero_le 1, natAbs_zero_le 1⟩

@[simp] theorem long12_longField (op v hint : Int) (p : Pred) : (longField op v hint p).long12 = v := by
  have hlow := wrapInt_add_dropInt 4 v
  have hhigh := wrapInt_add_dropInt 4 (dropInt 4 v)
  rw [dropInt_dropInt] at hhigh
  simp only [Fields.long12, longField]
  linear_combination hlow + 3 ^ 4 * hhigh

@[simp] theorem predOf_longField (op v hint : Int) (p : Pred) : predOf (longField op v hint p) = some p := predOf_fields rfl rfl

@[simp] theorem tritOf_longField (op v : Int) (hint : Trit) (p : Pred) : tritOf (longField op v hint.val p).wm = some hint :=
  tritOf_val hint

/-- The masks of R99. -/
theorem mask9_longField (op : Int) (m : Trits 9) (p : Pred) : (longField op m.val 0 p).mask9 = m := by
  rw [Fields.mask9, long12_longField, trits_ofInt_val]

theorem natAbs_mask (m : Trits 9) : m.val.natAbs ≤ maxMag 12 := (natAbs_trits m).trans (by decide)

theorem off12_longField (op hint : Int) (v : Trits 12) (p : Pred) : (longField op v.val hint p).off12 = v := by
  rw [Fields.off12, long12_longField, trits_ofInt_val]

/-- The two offsets of B3 (R98). -/
theorem offsets_longField (op hint : Int) (m n : Trits 6) (p : Pred) :
    (longField op (m.val + 3 ^ 6 * n.val) hint p).offm6 = m ∧ (longField op (m.val + 3 ^ 6 * n.val) hint p).offp6 = n := by
  rw [Fields.offm6, Fields.offp6, long12_longField, dropInt_low (natAbs_trits m), trits_ofInt_val]
  refine ⟨?_, rfl⟩
  simp only [Trits.ofInt, wrapInt_low (natAbs_trits m)]

/-! ## Words of their own shape -/

/-- LIT, whose payload is all of the word above op. -/
theorem decodeWord_lit (p : Trits 22) : decodeWord (wordOf (.lit p)).val = .ok (.lit p) := by
  have hop : (-107 : Int).natAbs ≤ maxMag 5 := by decide
  obtain ⟨r, hr, hbuild⟩ : ∃ r, findRow opRows (-107) = some r ∧
      r.build = fun f => some (.lit (Trits.ofInt 22 (dropInt 5 f.word))) := ⟨_, rfl, rfl⟩
  have hrow : (Fields.ofWord (-107 + 3 ^ 5 * p.val)).op = -107 := wrapInt_low hop _
  refine decodeWord_wordOf rfl (fits_ofWord _) (hrow ▸ hr) ?_ rfl
  simp only [hbuild, word_ofWord (natAbs_low_le hop (natAbs_trits p)), dropInt_low hop, trits_ofInt_val]

/-- The a field of PSET. -/
def psetA : Option (Fin 9) → Int
  | some k => encK k
  | none => 0

/-- R145, Table 5: the first source of PSET, which copy and neg leave out. -/
theorem decodeWord_pset {x : PsetArgs} (h : x.ok = true) : decodeWord (wordOf (.pset x)).val = .ok (.pset x) := by
  obtain ⟨fn, kd, ka, b, p⟩ := x
  have hfn : fn.code.natAbs ≤ maxMag 2 ∧ psetFnOf fn.code = some fn := by cases fn <;> exact ⟨by decide, rfl⟩
  have hka : psetKaOf (fixF (-84) fn.code (encK kd) (psetA ka) b.field b.mode 0 p) = some ka := by
    cases ka <;> cases fn <;> simp_all [PsetArgs.ok, psetKaOf, PsetFn.code, psetA, kOf_encK]
  have ha : (psetA ka).natAbs ≤ maxMag 4 := by
    cases ka with
    | none => exact natAbs_zero_le 4
    | some k => exact natAbs_encK k
  refine decodeWord_wordOf (f := fixF (-84) fn.code (encK kd) (psetA ka) b.field b.mode 0 p) rfl
    (fits_fixF (by decide) hfn.1 (natAbs_encK _) ha (natAbs_psrc _) (natAbs_zero_le 2)) rfl ?_ h
  simp [hfn.2, hka, kOf_encK]

/-- LOOP's fields: its hint stands where other fixed-latency words have 0. -/
def loopF (x : LoopArgs) : Fields := { fixF 11 0 x.d.field 0 x.imm.val 0 (hMap x.d.isH false false) x.p with wm := x.hint.val }

theorem decodeWord_loop (x : LoopArgs) : decodeWord (wordOf (.loop x)).val = .ok (.loop x) := by
  obtain ⟨hop, hvar, hd, ha, hb, hk, hks, hw, -, hbm, hx⟩ := fits_fixF (op := 11) (p := x.p) (by decide) (natAbs_zero_le 2)
    (natAbs_reg x.d) (natAbs_zero_le 4) ⟨natAbs_trits x.imm, natAbs_zero_le 1⟩ (natAbs_hMap x.d.isH false false)
  have hhint : tritOf (loopF x).wm = some x.hint := tritOf_val _
  have hreg : regD (loopF x) = some x.d := regD_fields rfl rfl
  have himm : (loopF x).imm = x.imm := trits_ofInt_val _
  have hp : predOf (loopF x) = some x.p := predOf_fields rfl rfl
  exact decodeWord_wordOf (f := loopF x) rfl ⟨hop, hvar, hd, ha, hb, hk, hks, hw, natAbs_trit _, hbm, hx⟩ rfl
    (by simp [hhint, hreg, himm, hp]) rfl

/-- R282: WAITM, an access word that is no long-latency one. -/
theorem decodeWord_waitm {x : WaitmArgs} (h : x.ok = true) : decodeWord (wordOf (.waitm x)).val = .ok (.waitm x) := by
  obtain ⟨sd, sa, sp, v⟩ := x
  have hcode : (Width.w.code + 3 * wrapInt 1 sp.weakCode).natAbs ≤ maxMag 2 ∧ (dropInt 1 sp.weakCode).natAbs ≤ maxMag 1 := by
    cases sp <;> decide
  obtain ⟨hvar, hbm⟩ := hcode
  have hop : (63 : Int).natAbs ≤ maxMag 5 := by decide
  have hread : weakSpaceOf (accF 63 sp .w (.weak v) (encS sd) (encS sa) 0 0 .always).spaceCode = some sp := by cases sp <;> rfl
  refine decodeWord_wordOf rfl ⟨hop, hvar, natAbs_encS sd, natAbs_encS sa, natAbs_trits v, natAbs_zero_le 2, natAbs_zero_le 1,
    natAbs_zero_le 2, natAbs_zero_le 1, hbm, natAbs_zero_le 1⟩ rfl ?_ h
  simp only [hread]
  simp [accF, Fields.imm, AccForm.field, sOf_encS, trits_ofInt_val]

theorem decodeWord_bcvt {x : BcvtArgs} (h : x.ok = true) : decodeWord (wordOf (.bcvt x)).val = .ok (.bcvt x) := by
  obtain ⟨hb, hfmt⟩ := binFmtCode_read x.fmt
  have hvar : (if x.dirIn then 1 else -1 : Int).natAbs ≤ maxMag 2 := by cases x.dirIn <;> decide
  exact decodeWord_fixF rfl rfl hvar (natAbs_reg _) (natAbs_reg _) ⟨hb, natAbs_zero_le 1⟩ (natAbs_hMap _ _ _) (by simp [hfmt]) h

/-- R98: B3, of two offsets. -/
theorem decodeWord_b3 {x : B3Args} (h : x.p.isSome = true) : decodeWord (wordOf (.b3 x)).val = .ok (.b3 x) := by
  obtain ⟨hm, hp⟩ := offsets_longField 3 x.hint.val x.offm x.offp x.p
  exact decodeWord_wordOf rfl (fits_longField (by decide) (natAbs_low_le (natAbs_trits x.offm) (natAbs_trits x.offp))) rfl
    (by simp only [hm, hp]; simp) h

theorem decodeWord_scan {x : ScanArgs} (h : x.ok = true) : decodeWord (wordOf (.scan x)).val = .ok (.scan x) := by
  obtain ⟨hb, hcode⟩ := scanCode_read x.fn x.exclusive
  obtain ⟨hfn, he⟩ := hcode (fixF 35 x.ty.code x.d.field x.a.field _ 0 (hMap x.d.isH x.a.isH false) x.p) rfl
  exact decodeWord_fixF rfl rfl (natAbs_ty _) (natAbs_reg _) (natAbs_reg _) ⟨hb, natAbs_zero_le 1⟩ (natAbs_hMap _ _ _)
    (by simp only [hfn, he]; simp [tyOf_code]) h

/-- The flush of CPYL, whose sets have negative codes. -/
theorem decodeWord_cpylFlush (x : CpylArgs) : decodeWord (wordOf (.cpylFlush x)).val = .ok (.cpylFlush x) := by
  have hneg : (-1 - (x.set.val : Int)) < 0 := by omega
  have hvar : (-1 - (x.set.val : Int)).natAbs ≤ maxMag 2 := by simp only [maxMag]; omega
  exact decodeWord_longF rfl rfl hvar (natAbs_zero_le 4) (natAbs_encS _) (by simp [sOf_encS, hneg, finOf_val x.set rfl]) rfl

theorem decodeWord_fence (x : FenceArgs) : decodeWord (wordOf (.fence x)).val = .ok (.fence x) := by
  obtain ⟨hb, hkind, hsc⟩ := fenceCode_read x.kind x.scope
  exact decodeWord_fixF rfl rfl (natAbs_zero_le 2) (natAbs_zero_le 4) (natAbs_zero_le 4) ⟨hb, natAbs_zero_le 1⟩
    (natAbs_zero_le 2) (by simp [hkind, hsc]) rfl

/-! ## Every instruction -/

/-- Every instruction is what its word decodes to, by the shape of its word. -/
theorem decodeWord_of_wellFormed {i : Instr} (hwf : i.wellFormed = true) (hev : i.isEvent = false) :
    decodeWord (wordOf i).val = .ok i := by
  have z (n : Nat) := natAbs_zero_le n
  cases i
  -- 06_integer_instructions.md
  case lit p => exact decodeWord_lit p
  case mov x =>
    exact decodeWord_fixF rfl rfl (natAbs_ty _) (natAbs_reg _) (z 4) (natAbs_src _) (natAbs_hMap _ _ _) (by simp [tyOf_code]) hwf
  case movi x =>
    exact decodeWord_fixF rfl rfl (natAbs_ty _) (natAbs_encS _) (z 4) (natAbs_src _) (natAbs_hMap _ _ _)
      (by simp [tyOf_code, sOf_encS]) hwf
  case lea x =>
    exact decodeWord_fixF rfl rfl (natAbs_fin _ (by decide)) (natAbs_reg _) (natAbs_reg _) (natAbs_src _) (natAbs_hMap _ _ _)
      (by simp [finOf_val x.scale rfl, srcOf_fixF hwf]) hwf
  case add x | sub x | adds x | subs x | mul x | mulh x | mad x | divn x | divz x | divf x | remn x | remz x | remf x | min x | max x
      | clamp x | tmin x | tmax x | tsum3 x | tprd x | tcns x | shl x | shr x | rot x | cnt x =>
    exact decodeWord_of_reads (reads_op3 (oneH_of_and hwf)) rfl rfl rfl hwf
  case sel3 x => exact decodeWord_of_reads (reads_op3 (oneH_of_and (Bool.and_eq_true_iff.mp hwf).1)) rfl rfl rfl hwf
  case neg x | abs x | sgn x | lead x => exact decodeWord_of_reads reads_op2 rfl rfl rfl hwf
  case ext x | ins x | pack3 x | unpk3 x | splat x => exact decodeWord_of_reads (reads_op0 (z 2) hwf) rfl rfl rfl hwf
  case cmp x | tst x => exact decodeWord_of_reads (reads_cmp (oneH_of_and hwf)) rfl rfl rfl hwf
  case pset x => exact decodeWord_pset hwf
  case cvtw x =>
    obtain ⟨hvar, hkind⟩ := cvtwCode_read x.kind
    exact decodeWord_fixF rfl rfl hvar (natAbs_reg _) (natAbs_reg _) (natAbs_src _) (natAbs_hMap _ _ _)
      (by simp [hkind, srcOf_fixF hwf]) hwf
  case tidx x | tjoin x => exact decodeWord_of_reads reads_idx rfl rfl rfl hwf
  -- 07_float_instructions.md
  case fadd x | fsub x | fmul x | fma x | fmin x | fmax x | fscl x | itof x =>
    exact decodeWord_of_reads (reads_op3 (oneH_of_okFloat hwf)) rfl rfl rfl hwf
  case fabs x | fneg x | fcls x | fexn x | ftrn x | fflr x | fcel x => exact decodeWord_of_reads reads_op2 rfl rfl rfl hwf
  case fcmp x => exact decodeWord_of_reads (reads_cmp (oneH_of_cmp_okFloat hwf)) rfl rfl rfl hwf
  case fcvt x =>
    have hsrc : x.src.code.natAbs ≤ maxMag 4 := (natAbs_ty x.src).trans (by decide)
    exact decodeWord_fixF rfl rfl (natAbs_ty _) (natAbs_reg _) (natAbs_reg _) ⟨hsrc, z 1⟩ (natAbs_hMap _ _ _) (by simp [tyOf_code]) hwf
  case ftoi x =>
    obtain ⟨hb, hmode⟩ := modeCode_read x.mode
    exact decodeWord_fixF rfl rfl (natAbs_ty _) (natAbs_reg _) (natAbs_reg _) ⟨hb, z 1⟩ (natAbs_hMap _ _ _)
      (by simp [tyOf_code, hmode]) hwf
  case fdot x => exact decodeWord_of_reads (reads_op0 (by decide) hwf) rfl rfl rfl hwf
  case fdiv x => exact decodeWord_fdiv hwf
  case fsqt x | frcp x | frsq x | fex3 x | flg3 x | fexe x | flge x | fsin x | fcos x | ftnh x =>
    exact decodeWord_flong (by decide) rfl ⟨_, rfl, rfl⟩ hwf
  case bcvt x => exact decodeWord_bcvt hwf
  -- 08_control_and_lane_instructions.md
  case br x | call x | brp x =>
    exact decodeWord_wordOf rfl (fits_longField (by decide) (natAbs_trits x.off)) rfl (by simp [off12_longField]) hwf
  case b3 x => exact decodeWord_b3 hwf
  case calli x =>
    exact decodeWord_fixF rfl rfl (z 2) (natAbs_reg _) (natAbs_reg _) (natAbs_src _) (natAbs_hMap _ _ _) (by simp [srcOf_fixF hwf]) hwf
  case ret x => exact decodeWord_fixF rfl rfl (z 2) (z 4) (natAbs_reg _) noB (natAbs_hMap _ _ _) (by simp) hwf
  case jmpi x =>
    exact decodeWord_fixF rfl rfl (z 2) (z 4) (natAbs_reg _) (natAbs_src _) (natAbs_hMap _ _ _) (by simp [srcOf_fixF hwf]) hwf
  case loop x => exact decodeWord_loop x
  case endrun m | yield m =>
    exact decodeWord_wordOf rfl (fits_longField (hint := .zero) (by decide) (natAbs_mask m)) rfl (by simp [mask9_longField]) hwf
  case exit p => exact decodeWord_fixF rfl rfl (z 2) (z 4) (z 4) noB (z 2) (by simp) hwf
  case reform | nop | cwbAll | cinvAll | resume | tlbfl | icinvAll => decide +kernel
  case shfl x | shfld x | shflt x => exact decodeWord_of_reads (reads_shfl hwf) rfl rfl rfl hwf
  case xperm x =>
    exact decodeWord_fixF rfl rfl (natAbs_encW _) (natAbs_reg _) (natAbs_reg _) (natAbs_simm _) (natAbs_hMap _ _ _) (by simp) hwf
  case bcst x =>
    exact decodeWord_fixF rfl rfl (natAbs_ty _) (natAbs_reg _) (natAbs_reg _) (natAbs_simm _) (natAbs_hMap _ _ _)
      (by simp [tyOf_code]) hwf
  case vote x =>
    obtain ⟨hvar, hfn⟩ := voteCode_read x.fn
    exact decodeWord_fixF rfl rfl hvar (natAbs_encK _) (natAbs_reg _) noB (natAbs_hMap _ _ _) (by simp [hfn, kOf_encK]) hwf
  case redu x =>
    obtain ⟨hb, hfn⟩ := redCode_read x.fn
    exact decodeWord_fixF rfl rfl (natAbs_ty _) (natAbs_reg _) (natAbs_reg _) ⟨hb, z 1⟩ (natAbs_hMap _ _ _) (by simp [tyOf_code, hfn]) hwf
  case scan x => exact decodeWord_scan hwf
  case rng x => exact decodeWord_fixF rfl rfl (z 2) (natAbs_reg _) (z 4) noB (natAbs_hMap _ _ _) (by simp) hwf
  case sread x =>
    exact decodeWord_fixF rfl rfl (z 2) (natAbs_reg _) (z 4) ⟨natAbs_fin _ (by decide), z 1⟩ (natAbs_hMap _ _ _)
      (by simp [finOf_val x.num rfl]) hwf
  case sreadPredicate x =>
    exact decodeWord_fixF rfl rfl (by decide) (natAbs_reg _) (natAbs_encK _) noB (natAbs_hMap _ _ _) (by simp [kOf_encK]) hwf
  case swrite x =>
    exact decodeWord_fixF rfl rfl (z 2) (z 4) (natAbs_reg _) ⟨natAbs_fin _ (by decide), z 1⟩ (natAbs_hMap _ _ _)
      (by simp [finOf_val x.num rfl]) hwf
  case swritePredicate x =>
    exact decodeWord_fixF rfl rfl (by decide) (natAbs_encK _) (natAbs_reg _) noB (natAbs_hMap _ _ _) (by simp [kOf_encK]) hwf
  -- 09_matrix_unit.md
  case mload x =>
    exact decodeWord_fixF rfl rfl (z 2) (natAbs_encS _) (natAbs_encS _) ⟨natAbs_trits x.desc, z 1⟩ (z 2)
      (by simp [sOf_encS, trits_ofInt_val]) hwf
  case mloadp x =>
    have hvar : ((x.planes.val : Int) - 4).natAbs ≤ maxMag 2 := natAbs_encW x.planes
    exact decodeWord_fixF rfl rfl hvar (natAbs_encS _) (natAbs_encS _) ⟨natAbs_trits x.desc, z 1⟩ (z 2)
      (by simp [finOf_val x.planes rfl, sOf_encS, trits_ofInt_val]) hwf
  case mact sa | evpost sa | rqdrop sa =>
    exact decodeWord_fixF rfl rfl (z 2) (z 4) (natAbs_encS sa) noB (z 2) (by simp [sOf_encS]) hwf
  case mpass x =>
    exact decodeWord_fixF rfl rfl (z 2) (natAbs_encS _) (natAbs_reg _) ⟨natAbs_encS _, by decide⟩ (natAbs_hMap _ _ _)
      (by simp [sOf_encS]) hwf
  case mzero t => exact decodeWord_fixF rfl rfl (z 2) (natAbs_encS t) (z 4) noB (z 2) (by simp [sOf_encS]) hwf
  case mrd x => exact decodeWord_mrd
  case mwr x =>
    exact decodeWord_fixF rfl rfl (z 2) (natAbs_encS _) (natAbs_reg _) (natAbs_simm _) (natAbs_hMap _ _ _) (by simp [sOf_encS]) hwf
  case mstoreKeep x | mstoreZero x =>
    exact decodeWord_fixF rfl rfl (by decide) (natAbs_encS _) (natAbs_encS _) ⟨natAbs_fin _ (by decide), z 1⟩ (z 2)
      (by simp [sOf_encS, finOf_val x.fmt rfl]) hwf
  case mstat x => exact decodeWord_mstat
  -- 12_memory_instructions.md
  case ld x => exact decodeWord_ld hwf
  case ldStrong x => exact decodeWord_ldStrong hwf
  case st x => exact decodeWord_st hwf
  case stStrong x => exact decodeWord_stStrong hwf
  case ldu x => exact decodeWord_ldu hwf
  case stu x => exact decodeWord_stu hwf
  case atom x => exact decodeWord_atom hwf
  case atomr x => exact decodeWord_atomr hwf
  case cas x => exact decodeWord_cas hwf
  case fence x => exact decodeWord_fence x
  case waitm x => exact decodeWord_waitm hwf
  case cwb x | cinv x | pref x | prefLlc x | icinv x => exact decodeWord_of_reads (reads_line (by decide) hwf) rfl rfl rfl hwf
  -- 15_async_instructions.md
  case cpy x | cpys x | cpyf x => exact decodeWord_longF rfl rfl (z 2) (z 4) (natAbs_encS _) (by simp [sOf_encS]) hwf
  case cpyl x =>
    exact decodeWord_longF rfl rfl (natAbs_fin _ (by decide)) (z 4) (natAbs_encS _) (by simp [sOf_encS, finOf_val x.set rfl]) hwf
  case cpylFlush x => exact decodeWord_cpylFlush x
  case spawn x | spawnCoresident x =>
    exact decodeWord_longF rfl rfl (by decide) (natAbs_encS _) (natAbs_encS _) (by simp [sOf_encS]) hwf
  case bari x =>
    obtain ⟨hvar, hsp⟩ := spaceCode_read (Bool.and_eq_true_iff.mp hwf).1
    exact decodeWord_fixF rfl rfl hvar (natAbs_encS _) (natAbs_encS _) noB (z 2) (by simp [hsp, sOf_encS]) hwf
  case bar x =>
    obtain ⟨hvar, hsp⟩ := spaceCode_read hwf
    exact decodeWord_fixF rfl rfl hvar (z 4) (natAbs_encS _) noB (z 2) (by simp [hsp, sOf_encS]) hwf
  case bara x =>
    obtain ⟨hvar, hsp⟩ := spaceCode_read hwf
    exact decodeWord_fixF rfl rfl hvar (natAbs_encS _) (natAbs_encS _) noB (z 2) (by simp [hsp, sOf_encS]) hwf
  case barw x =>
    obtain ⟨hvar, hsp⟩ := spaceCode_read hwf
    exact decodeWord_fixF rfl rfl hvar (z 4) (natAbs_encS _) ⟨natAbs_encS _, by decide⟩ (z 2) (by simp [hsp, sOf_encS]) hwf
  case mbrx x => exact decodeWord_fixF rfl rfl (z 2) (natAbs_reg _) (z 4) (natAbs_simm _) (natAbs_hMap _ _ _) (by simp) hwf
  case mbtxReply x | mbtxBind x | mbtxUnbind x =>
    exact decodeWord_fixF rfl rfl (by decide) (natAbs_encK _) (natAbs_reg _) (natAbs_simm _) (natAbs_hMap _ _ _)
      (by simp [kOf_encK]) hwf
  case rwalk x | preempt x | ctxsv x | ctxld x | cntclr x =>
    exact decodeWord_of_reads (reads_sdsa (z 2)) rfl rfl rfl hwf
  case rstat x =>
    exact decodeWord_fixF rfl rfl (z 2) (natAbs_encS _) (natAbs_encS _) ⟨natAbs_fin _ (by decide), z 1⟩ (z 2)
      (by simp [sOf_encS, finOf_val x.item rfl]) hwf
  -- 16_traps_and_preemption.md
  case trap v | halt v => exact decodeWord_fixF rfl rfl (z 2) (z 4) (z 4) ⟨natAbs_trits v, z 1⟩ (z 2) (by simp [trits_ofInt_val]) hwf
  case rqrd x | rqwr x =>
    exact decodeWord_fixF rfl rfl (z 2) (natAbs_reg _) (natAbs_encS _) ⟨natAbs_fin _ (by decide), z 1⟩ (natAbs_hMap _ _ _)
      (by simp [rqOf, sOf_encS, finOf_val x.item rfl]) hwf
  case dfpopRead d | dfpopRetry d | dfpopSkip d =>
    exact decodeWord_fixF rfl rfl (by decide) (natAbs_reg _) (z 4) noB (natAbs_hMap _ _ _) (by simp) hwf
  case divsetQuery x | divsetRelease x =>
    exact decodeWord_fixF rfl rfl (by decide) (natAbs_encS _) (natAbs_encS _) noB (z 2) (by simp [sdsaOf, sOf_encS]) hwf
  -- 17_compute_tables.md, 18_system_tables.md, 19_counters.md
  case fmtset x | xpset x =>
    have hone : oneH x.a x.b = true := (Bool.and_eq_true_iff.mp hwf).1
    exact decodeWord_fixF rfl rfl (z 2) (natAbs_encK _) (natAbs_reg _) (natAbs_src _) (natAbs_hMap _ _ _)
      (by simp [kOf_encK, srcOf_fixF hone]) hwf
  case shpset x =>
    exact decodeWord_fixF rfl rfl (z 2) (natAbs_encK _) (natAbs_encG _) (natAbs_src _) (natAbs_hMap _ _ _)
      (by simp [kOf_encK, gOf_encG]) hwf
  case ratset x | winset x | cntsel x =>
    exact decodeWord_fixF rfl rfl (z 2) (natAbs_encS _) (natAbs_encS _) (natAbs_simm _) (z 2) (by simp [sOf_encS]) hwf
  case tlbinv sa sb =>
    exact decodeWord_fixF rfl rfl (z 2) (z 4) (natAbs_encS _) ⟨natAbs_encS _, by decide⟩ (z 2) (by simp [sOf_encS]) hwf
  case tlbinvCtx sb =>
    exact decodeWord_fixF rfl rfl (by decide) (z 4) (by decide) ⟨natAbs_encS _, by decide⟩ (z 2) (by simp [sOf_encS]) hwf
  case cntrd x => exact decodeWord_fixF rfl rfl (z 2) (natAbs_reg _) (natAbs_encS _) noB (natAbs_hMap _ _ _) (by simp [sOf_encS]) hwf
  -- the events, which have no word
  all_goals cases hev

/-- Settles O54: each instruction's fields fit and are read back, and the decoder asks that the word be the instruction's own. -/
theorem decodeOfEncode : Obligations.DecodeOfEncode := by
  refine ⟨fun i hwf hev => ?_, fun v i hv h => ?_⟩
  · have hv := natAbs_trits (wordOf i)
    have hdec := decodeWord_of_wellFormed hwf hev
    obtain ⟨-, -, henc⟩ := encode_of_decodeWord hv hdec
    exact ⟨_, henc, hv, hdec⟩
  · obtain ⟨hwf, hfields, henc⟩ := encode_of_decodeWord hv h
    exact ⟨hwf, isEvent_of_fields hfields, henc⟩

/-- Settles O53, by evaluation: the words are literals. -/
theorem specWordsDecode : Obligations.SpecWordsDecode := by
  unfold Obligations.SpecWordsDecode
  decide +kernel

end Sys2Proof.Machine
end

section
/-! Registers and memory read back (05_registers.md R112 to R117, 10_memories.md R217 to R226): a store at one place reads back there and
nowhere else, and a tryte of a register is written apart from the others. -/

namespace Sys2Proof.Machine

/-! ## Trytes of a word (R5, R12) -/

theorem tryteOf_range (v : Int) (j : Nat) : (tryteOf v j).natAbs ≤ maxMag 9 := by
  have hw : 9 * j + 8 - 9 * j + 1 = 9 := by omega
  rw [tryteOf, fld, hw]
  exact natAbs_wrapInt_le 9 _

/-- A word joined from three trytes has each in its place. -/
theorem tryteOf_joinTrytes {f : Nat → Int} (hf : ∀ j, (f j).natAbs ≤ maxMag 9) {j : Nat} (hj : j < 3) :
    tryteOf (joinTrytes f).val j = f j := by
  have h12 := natAbs_low_le (hf 1) (hf 2)
  have hword : (joinTrytes f).val = f 0 + 3 ^ 9 * (f 1 + 3 ^ 9 * f 2) := by
    have hsum : f 0 + 19683 * f 1 + 19683 * 19683 * f 2 = f 0 + 3 ^ 9 * (f 1 + 3 ^ 9 * f 2) := by ring
    simp only [joinTrytes, Word.ofInt, Trits.ofInt, wrapInt_of_natAbs_le (hf _)]
    rw [hsum, wrapInt_of_natAbs_le (natAbs_low_le (n := 9) (m := 18) (hf 0) h12)]
  have h9 : dropInt 9 (joinTrytes f).val = f 1 + 3 ^ 9 * f 2 := by rw [hword, dropInt_low (hf 0)]
  have h18 : dropInt 18 (joinTrytes f).val = f 2 := by rw [← dropInt_dropInt 9 9, h9, dropInt_low (hf 1)]
  match j, hj with
  | 0, _ => rw [tryteOf, fld, hword]; simpa [dropInt, maxMag] using wrapInt_low (n := 9) (hf 0) _
  | 1, _ => rw [tryteOf, fld, h9]; exact wrapInt_low (hf 1) _
  | 2, _ => rw [tryteOf, fld, h18]; exact wrapInt_of_natAbs_le (hf 2)

/-- A trit is −, 0 or +. -/
theorem trit_cases {n : Nat} (p : Trits n) (i : Nat) : p.trit i = -1 ∨ p.trit i = 0 ∨ p.trit i = 1 := by
  obtain ⟨hlo, hhi⟩ := wrapInt_range 1 (dropInt i p.val)
  have hmag : maxMag 1 = 1 := rfl
  simp only [Trits.trit, tritAt]
  omega

/-! ## Writing one tryte (R117, R146) -/

/-- The trytes that putTryte leaves in its destination. -/
def tryteMerge (old : Int) (e : Int) (c : Nat) (v : Int) (j : Nat) : Int :=
  if j = c ∧ e = 1 then v else if j = c ∧ e = -1 then 0 else tryteOf old j

theorem tryteMerge_range {v : Int} (hv : v.natAbs ≤ maxMag 9) (old e : Int) (c j : Nat) :
    (tryteMerge old e c v j).natAbs ≤ maxMag 9 := by
  unfold tryteMerge
  split_ifs
  exacts [hv, Nat.zero_le _, tryteOf_range _ _]

theorem putTryte_eq (l : Lane) (d : Reg) (p : Trits 3) (c : Nat) (v : Int × Flags) :
    l.putTryte d p c v = ({ l with fs := if p.trit c = 1 then l.fs.or v.2 else l.fs } : Lane).wr d
      (joinTrytes (tryteMerge (l.rd d).val (p.trit c) c v.1)) := by
  simp only [Lane.putTryte]
  congr 2
  funext j
  rcases trit_cases p c with h | h | h <;> by_cases hj : j = c <;> simp [tryteMerge, tryteOf, h, hj]

theorem wr_g_fs (l : Lane) (n : Fin 81) (v : Word) : (l.wr (.g n) v).fs = l.fs := by
  simp only [Lane.wr, Lane.wrG]
  split <;> rfl

/-- Settles O7: the three trytes of d are joined from those that putTryte leaves (putTryte_eq), and each reads back in its place
(tryteOf_joinTrytes). -/
theorem oneTryteIsWritten : Obligations.OneTryteIsWritten := by
  intro l n p c v hn _ hv l'
  refine ⟨fun j hj => ?trytes, ?flags, ?others⟩
  case trytes =>
    have hread : l'.rdG n.val = joinTrytes (tryteMerge (l.rdG n.val).val (p.trit c) c v.1) := by
      rw [show l' = _ from putTryte_eq ..]
      simp [Lane.wr, rdG_wrG, hn, Lane.rd]
    rw [hread, tryteOf_joinTrytes (tryteMerge_range hv _ _ _) hj, tryteMerge]
  case flags => rw [show l' = _ from putTryte_eq .., wr_g_fs]
  case others =>
    have hrule : FlagRule fun _ _ : Flags => True := ⟨fun _ => trivial, fun _ _ => trivial⟩
    have hkeeps := putTryte_keeps (ty := .w) (d := .g n) (ks := []) (seeded := True) (timed := True) hrule (by decide) l p c
      (v := v) fun _ => trivial
    exact hkeeps.1

/-! ## Stores (R217 to R226) -/

theorem rdS_wrS (g : Group) (n m : Nat) (v : Word) :
    (g.wrS n v).rdS m = if m = 0 then zeroW else if m = n then v else g.rdS m := by
  by_cases hm : m = 0
  · simp [Group.rdS, hm]
  by_cases hn : n = 0
  · simp [Group.rdS, Group.wrS, hn, hm]
  by_cases hmn : m = n
  · subst hmn; simp [Group.rdS, Group.wrS, hm]
  · simp [Group.rdS, Group.wrS, hm, hn, hmn, SMap.get_set_other]

theorem scrGet_scrSet {s : State} {core off core' off' : Nat} (v : Tryte) (ho : off < 531441) (ho' : off' < 531441) :
    (s.scrSet core off v).scrGet core' off' = if core' = core ∧ off' = off then v else s.scrGet core' off' := by
  split
  next h => rw [h.1, h.2, scrGet_scrSet_same]
  next h => exact scrGet_scrSet_other v (by simp only [scrSize]; omega)

theorem chipGet_chipSet {s : State} {die off die' off' : Nat} (v : Tryte) (ho : off < 14348907) (ho' : off' < 14348907) :
    (s.chipSet die off v).chipGet die' off' = if die' = die ∧ off' = off then v else s.chipGet die' off' := by
  split
  next h => rw [h.1, h.2, chipGet_chipSet_same]
  next h => exact chipGet_chipSet_other v (by simp only [chipSize]; omega)

/-- A byte that is not among those written has a key below or above theirs. -/
theorem dramKey_outside {die die' : Nat} {lp lp' : Bool} {byte byte' len : Nat} (hb : byte + len ≤ 2 ^ 40) (hb' : byte' < 2 ^ 40)
    (hout : ¬(die' = die ∧ lp' = lp ∧ byte ≤ byte' ∧ byte' < byte + len)) :
    dramKey die' lp' byte' < dramKey die lp byte ∨ dramKey die lp byte + len ≤ dramKey die' lp' byte' := by
  simp only [dramKey]
  cases lp <;> cases lp' <;> simp only [reduceCtorEq, true_and, false_and, if_true, if_false, Bool.false_eq_true] at hout ⊢ <;> omega

theorem dramAt_writeDram {s : State} {die die' : Nat} {lp lp' : Bool} {byte byte' : Nat} {bs : List Byte}
    (hb : byte + bs.length ≤ 2 ^ 40) (hb' : byte' < 2 ^ 40) :
    (s.writeDram die lp byte bs).dramAt die' lp' byte' =
      if die' = die ∧ lp' = lp ∧ byte ≤ byte' ∧ byte' < byte + bs.length then bs[byte' - byte]? else s.dramAt die' lp' byte' := by
  split
  next h =>
    obtain ⟨rfl, rfl, hle, hlt⟩ := h
    have hread := dramAt_writeDram_in (s := s) die' lp' byte (byte' - byte) bs (by omega)
    rwa [Nat.add_sub_cancel' hle] at hread
  next h => exact dramAt_writeDram_out bs (dramKey_outside hb hb' h)

/-- Settles O58: what a store reads back is what its map does at the key that was written, and the keys of two places differ. -/
theorem storesReadBack : Obligations.StoresReadBack :=
  ⟨fun _ _ _ _ _ v ho ho' => scrGet_scrSet v ho ho', fun _ _ _ _ _ v ho ho' => chipGet_chipSet v ho ho',
    fun _ _ _ _ _ _ _ _ hb hb' => dramAt_writeDram hb hb', fun l n m v => ⟨rdG_wrG l n m v, rdH_wrH l n m v⟩,
    fun l n m v => rdK_wrK l n m v, fun g n m v k => ⟨rdS_wrS g n m v, rdW_wrW g n m k⟩⟩

end Sys2Proof.Machine
end

section
/-! The turns of pre-emption (16_traps_and_preemption.md R361 to R371) and of the memory licence (14_queues.md R318): the branch that each
turn takes in the states that the rules name. -/

namespace Sys2Proof.Machine

/-! ## Marks and deadlines (R125, R361, R362) -/

theorem markTurn_eq {s : State} {w : Workgroup} (hw : s.wgOf w.id = some w) (hpreq : w.preq = false) (hst : w.st ≠ .suspended)
    (hsave : w.save = .none) (hmark : s.marked w.region = true) : s.markTurn w.id = some (s.markArrives w.id) := by
  simp [State.markTurn, hw, hpreq, hst, hsave, hmark]

/-- R362, R380: the turn at a deadline, or at once for CTXSV. -/
theorem deadline_eq {s : State} {w : Workgroup} (hw : s.wgOf w.id = some w) (hsave : w.save = .stopping)
    (hleft : ∃ g ∈ s.groupsOf w.id, g.isStopped = false)
    (hdue : w.ctxsv = true ∨ w.preqAt + w.region.deadline ≤ s.cycles (coreClu w.core)) (htab : ∀ t ∈ s.tabWrites, t.wg ≠ w.id) :
    s.deadline w.id = some
      (({ s with groups := s.groups.map fun g => if (g.wg == w.id && !g.isStopped) then g.force else g } : State).updWg w.id
        fun w => { w with forced := true }) := by
  have hnonempty : ((s.groupsOf w.id).filter fun g => !g.isStopped).isEmpty = false := by
    obtain ⟨g, hg, hgo⟩ := hleft
    exact List.isEmpty_eq_false_iff_exists_mem.2 ⟨g, List.mem_filter.2 ⟨hg, by simp [hgo]⟩⟩
  have hnow : (!w.ctxsv && decide (s.cycles (coreClu w.core) < w.preqAt + w.region.deadline)) = false := by
    rcases hdue with h | h
    · simp [h]
    · simp [Nat.not_lt.2 h]
  have hfree : s.tabWrites.any (fun t => t.wg == w.id) = false := by simpa using htab
  simp only [State.deadline, hw, Option.bind_eq_bind, Option.bind_some, hsave, hnonempty, hnow, hfree, bne_self_eq_false, Bool.or_self,
    Bool.false_eq_true, if_false]
  rfl

/-- R361: the turn that removes a mark whose workgroups are all saved or gone. -/
theorem markRemoval_eq {s : State} {m : Mark} (hm : s.marks.find? (fun k => k.id == m.id) = some m)
    (hgone : ∀ w ∈ m.waiting, s.wgOf w = none) :
    s.markRemoval m.id = some
      (let die := m.ctx.homeDie
      let t := s.drainUpdates
      let u := (t.orFatal die (t.structWrite (structWho die m.ctx) (m.block + 51) [m.saved])).drainUpdates
      let v : State := { u with marks := u.marks.filter fun k => k.id != m.id }
      { v with wgs := v.wgs.map fun w =>
        if (w.preq && w.st == .exiting && !v.marked w.region) then { w with preq := false } else w }) := by
  have hnone : m.waiting.any (fun w => (s.wgOf w).isSome) = false := by
    rw [List.any_eq_false]
    exact fun w hw => by simp [hgone w hw]
  simp only [State.markRemoval, hm, Option.bind_eq_bind, Option.bind_some, hnone, Bool.false_eq_true, if_false]
  rfl

/-! ## Saves (R363 to R368) -/

section
variable {s : State} {w : Workgroup} (hw : s.wgOf w.id = some w)
include hw

/-- R368 steps 1 and 2: what the turn does of a workgroup whose groups have stopped. -/
theorem saveTurn_stopping (hst : w.st = .resident) (hup : s.dieDown w.core.die = false) (hsave : w.save = .stopping)
    (hstop : ∀ g ∈ s.groupsOf w.id, g.isStopped = true) :
    s.saveTurn w.id = some (
      if (s.drainUnit w).drained w then
        match (List.range 243).find? (fun n => (SMap.find? ((s.drainUnit w).coreAt (coreIdx w.core)).divs n).isNone) with
        | none => s.drainUnit w
        | some n => (s.drainUnit w).beginSave w n
      else s.drainUnit w) := by
  have hnone : (s.groupsOf w.id).any (fun g => !g.isStopped) = false := by
    rw [List.any_eq_false]
    exact fun g hg => by simp [hstop g hg]
  simp only [State.saveTurn, hw, Option.bind_eq_bind, Option.bind_some, hst, hup, hsave, hnone, bne_self_eq_false, Bool.or_self,
    Bool.false_eq_true, if_false]
  cases (s.drainUnit w).drained w <;> rfl

/-- R368 step 3. -/
theorem saveTurn_saving (hst : w.st = .resident) (hup : s.dieDown w.core.die = false) (hsave : w.save = .saving) :
    s.saveTurn w.id = some (s.writeImage w) := by
  simp [State.saveTurn, hw, hst, hup, hsave]

/-- R368 steps 4 and 5. -/
theorem saveTurn_written {v : Workgroup} (hst : w.st = .resident) (hup : s.dieDown w.core.die = false) (hsave : w.save = .written)
    (hv : (s.drainHold (coreIdx w.core)).wgOf w.id = some v) :
    s.saveTurn w.id = some (
      if ((s.drainHold (coreIdx w.core)).coreAt (coreIdx w.core)).hold.any (fun a => a.wg == w.id) then s.drainHold (coreIdx w.core)
      else (s.drainHold (coreIdx w.core)).endSave v) := by
  simp [State.saveTurn, hw, hst, hup, hsave, hv]

/-! ## Resumes (R369) -/

theorem resumeTurn_suspended (hup : s.dieDown w.core.die = false) (hres : w.resuming = true) (hst : w.st = .suspended)
    (hroom : s.canRestore w = true) (hmark : s.marked w.region = false) : s.resumeTurn w.id = some (s.beginRestore w) := by
  simp [State.resumeTurn, hw, hup, hres, hst, hroom, hmark]

theorem resumeTurn_restoring (hup : s.dieDown w.core.die = false) (hst : w.st ≠ .suspended) (hsave : w.save = .restoring) :
    (∀ t, s.takeImage w = .ok t → s.resumeTurn w.id = some (t.updWg w.id fun v => { v with save := .entered })) ∧
      ∀ f, s.takeImage w = .error f → s.resumeTurn w.id = some (s.imageFails w f) := by
  constructor <;> intro x hx <;> simp [State.resumeTurn, hw, hup, hst, hsave, hx, Workgroup.resuming]

/-- R369 steps 4 to 7: whether anything still holds the workgroup back decides between waiting and going on. -/
theorem resumeTurn_entered {v : Workgroup} (hup : s.dieDown w.core.die = false) (hst : w.st ≠ .suspended) (hsave : w.save = .entered)
    (hv : (s.drainHold (coreIdx w.core)).wgOf w.id = some v) :
    s.resumeTurn w.id = some (
      let t := s.drainHold (coreIdx w.core)
      if (t.coreAt (coreIdx w.core)).hold.any (fun a => a.wg == w.id) ||
          t.arrivals.any (fun a => a.1 == coreIdx w.core && a.2.wg == w.id) ||
          decide ((t.coreAt (coreIdx w.core)).bins.length + v.bins.length > 81) then t
      else t.finishRestore v) := by
  simp only [State.resumeTurn, hw, hv, hup, hsave, Workgroup.resuming, Option.bind_eq_bind, Option.bind_some, beq_self_eq_true,
    Bool.or_true, Bool.not_true, Bool.or_self, Bool.false_eq_true, if_neg hst, if_false, reduceCtorEq]
  split <;> rfl

end

/-! ## Taking an entry (R364, R368) -/

/-- The state in which a save has taken entry n, its image still to be written. -/
def State.withEntry (s : State) (w : Workgroup) (n : Nat) : State :=
  let d : DivEntry :=
    { st := .zero, ctx := w.region.ctx.num, gran := w.gran, grans := w.grans
      shadow := w.image + (w.kernel.sections.shadow : Int), wg := w.id }
  (((s.chargeOverrun w (s.overrun w)).updCore (coreIdx w.core) fun c => { c with divs := SMap.insert c.divs n d }).emptySets
    (coreIdx w.core) w.id).updWg w.id fun v => { v with save := .saving, entry := some n, img := some w.image }

theorem beginSave_eq {s : State} {w : Workgroup} {n : Nat} (hup : (s.chargeOverrun w (s.overrun w)).dieDown w.core.die = false) :
    (∀ x, (s.withEntry w n).imageWrite w 0 (w.header 1 n (s.overrun w)) = .ok x → s.beginSave w n = x) ∧
      ∀ f, (s.withEntry w n).imageWrite w 0 (w.header 1 n (s.overrun w)) = .error f →
        s.beginSave w n = (s.withEntry w n).imageFails w f := by
  have hbegin : s.beginSave w n = match (s.withEntry w n).imageWrite w 0 (w.header 1 n (s.overrun w)) with
      | .error f => (s.withEntry w n).imageFails w f
      | .ok x => x := by
    simp only [State.beginSave, hup, Bool.false_eq_true, if_false]
    rfl
  constructor <;> intro x hx <;> rw [hbegin, hx]

/-! ## Arrivals (R367, R370) -/

section
variable {s : State} {k : Nat} {a : Arrival} {before after : List (Nat × Arrival)} (hs : s.arrivals = before ++ (k, a) :: after)
  (hbefore : ∀ e ∈ before, e.1 ≠ k)
include hs hbefore

/-- The first arrival on its way to a core is the one that the turn takes from the list. -/
theorem first_arrival : indexOf? (fun e => e.1 == k) s.arrivals = some before.length ∧ s.arrivals[before.length]? = some (k, a) ∧
    dropAt s.arrivals before.length = before ++ after := by
  refine ⟨?_, by simp [hs], by simp [hs, dropAt]⟩
  have hnone : before.findIdx? (fun e => e.1 == k) = none := by simpa using hbefore
  simp [indexOf?_eq_findIdx?, hs, List.findIdx?_append, List.findIdx?_cons, hnone]

/-- An arrival without an entry. -/
theorem arrivalTurn_direct (hentry : List.find? (α := Nat × DivEntry) (fun e => e.2.wg == a.wg) (s.coreAt k).divs = none) :
    s.arrivalTurn k = some (({ s with arrivals := before ++ after } : State).applyDirect k a) := by
  obtain ⟨hn, hget, hdrop⟩ := first_arrival hs hbefore
  simp [State.arrivalTurn, hn, hget, hdrop, hentry]

section
variable {n : Nat} {d : DivEntry} {w : Workgroup}
  (hentry : List.find? (α := Nat × DivEntry) (fun e => e.2.wg == a.wg) (s.coreAt k).divs = some (n, d)) (hw : s.wgOf a.wg = some w)
include hentry hw

/-- An arrival that the unit holds. -/
theorem arrivalTurn_held (hd : d.st ≠ .neg) (hroom : (s.coreAt k).hold.length < 729) :
    s.arrivalTurn k = some (({ s with arrivals := before ++ after } : State).updCore k fun c => { c with hold := c.hold ++ [a] }) := by
  obtain ⟨hn, hget, hdrop⟩ := first_arrival hs hbefore
  simp [State.arrivalTurn, hn, hget, hdrop, hentry, hw, hd, State.holdFull, Nat.not_le.2 hroom]

/-- An arrival that is diverted. -/
theorem arrivalTurn_diverted (hd : d.st = .neg) :
    (∀ u, ({ s with arrivals := before ++ after } : State).applyArrival ⟨some w, k, some d⟩ a = .ok u → s.arrivalTurn k = some u) ∧
      ∀ f, ({ s with arrivals := before ++ after } : State).applyArrival ⟨some w, k, some d⟩ a = .error f →
        s.arrivalTurn k = some ((({ s with arrivals := before ++ after } : State).discardArrival a).imageFails w f) := by
  obtain ⟨hn, hget, hdrop⟩ := first_arrival hs hbefore
  constructor <;> intro x hx <;> simp [State.arrivalTurn, hn, hget, hdrop, hentry, hw, hd, hx]

end

end

/-! ## The memory licence (R318) -/

/-- An update of a core leaves memory and groups. -/
theorem updCore_sameMemory (s : State) (k : Nat) (f : CoreState → CoreState) : SameMemory s (s.updCore k f) :=
  sameMemory_of_eq rfl rfl rfl

theorem licenceReview_happens {s : State} {core : CoreRef} (hdue : (s.coreAt (coreIdx core)).reviewed + 81 ≤ s.cycles (coreIdx core / 9)) :
    exec (.licenceReview core) s = .next (s.updCore (coreIdx core) fun c =>
      { c with licence := if s.lostScore (coreIdx core) < 81 then 81 else if s.lostScore (coreIdx core) < 243 then 27 else 9,
               reviewed := s.cycles (coreIdx core / 9),
               lost := c.lost.filter fun t => decide (s.cycles (coreIdx core / 9) < t + 2187) }) :=
  runEvent_some (f := (·.reviewLicence (coreIdx core))) (by simp only [State.reviewLicence, Nat.not_lt.2 hdue, if_false])

theorem licenceRotation_happens {s : State} {core : CoreRef}
    (hdue : (s.coreAt (coreIdx core)).rotated + 2187 ≤ s.cycles (coreIdx core / 9)) :
    exec (.licenceRotation core) s = .next (s.updCore (coreIdx core) fun c =>
      { c with rotation := c.rotation + 1, rotated := s.cycles (coreIdx core / 9) }) :=
  runEvent_some (f := (·.rotateLicence (coreIdx core))) (by simp only [State.rotateLicence, Nat.not_lt.2 hdue, if_false])

/-! ## The turns of the statement -/

section
variable {s : State} {w : Workgroup} (hw : s.wgOf w.id = some w)
include hw

/-- R368, by how far the save is. -/
theorem workgroupSave_stopping (hst : w.st = .resident) (hup : s.dieDown w.core.die = false) (hsave : w.save = .stopping)
    (hstop : ∀ g ∈ s.groupsOf w.id, g.isStopped = true) :
    ((s.drainUnit w).drained w = false → Happens s (.workgroupSave w.id) (s.drainUnit w)) ∧
    ((s.drainUnit w).drained w = true →
      (∀ j, j < 243 → SMap.find? ((s.drainUnit w).coreAt (coreIdx w.core)).divs j ≠ none) →
      Happens s (.workgroupSave w.id) (s.drainUnit w)) ∧
    ∀ n, (s.drainUnit w).drained w = true → n < 243 → SMap.find? ((s.drainUnit w).coreAt (coreIdx w.core)).divs n = none →
      (∀ j, j < n → SMap.find? ((s.drainUnit w).coreAt (coreIdx w.core)).divs j ≠ none) →
      Happens s (.workgroupSave w.id) ((s.drainUnit w).beginSave w n) := by
  have hturn := saveTurn_stopping hw hst hup hsave hstop
  have happens {t : State} (h : s.saveTurn w.id = some t) : Happens s (.workgroupSave w.id) t :=
    runEvent_some (f := (·.saveTurn w.id)) h
  refine ⟨fun hd => happens ?_, fun hd hfull => happens ?_, fun n hd hn hfree hbelow => happens ?_⟩
  · rw [hturn, hd]
    rfl
  · have hnone : (List.range 243).find? (fun n => (SMap.find? ((s.drainUnit w).coreAt (coreIdx w.core)).divs n).isNone) = none := by
      simpa [List.find?_eq_none] using hfull
    rw [hturn, if_pos hd, hnone]
  · have hfirst := find?_range_eq (p := fun n => (SMap.find? ((s.drainUnit w).coreAt (coreIdx w.core)).divs n).isNone) hn
      (by simp [hfree]) fun j hj => by simpa [Option.isSome_iff_ne_none] using hbelow j hj
    rw [hturn, if_pos hd, hfirst]

end

/-- Settles O51: each turn takes the branch that the state's own conditions choose (markTurn_eq, deadline_eq, saveTurn_*, resumeTurn_*,
markRemoval_eq, arrivalTurn_*), and the licence is an update of its core. -/
theorem preemptionTurns : Obligations.PreemptionTurns := by
  refine ⟨fun s w hw => ?workgroups, fun s m hm hgone => ?marks, fun s core a before after => ?arrivals, fun s core => ?licence⟩
  case workgroups =>
    have saves {t : State} (h : s.saveTurn w.id = some t) : Happens s (.workgroupSave w.id) t :=
      runEvent_some (f := (·.saveTurn w.id)) h
    have resumes {t : State} (h : s.resumeTurn w.id = some t) : Happens s (.workgroupResume w.id) t :=
      runEvent_some (f := (·.resumeTurn w.id)) h
    refine ⟨fun hpreq hst hsave hmark => ?mark, fun hsave hleft hdue htab => ?deadline,
      fun hst hup => ⟨fun hsave hstop => ?stopping, fun hsave => ?saving, fun hsave => ?written⟩,
      fun hup => ⟨fun hres hst hroom hmark => ?begins, fun hst hsave => ?restoring, fun hst hsave => ?entered⟩⟩
    case mark => exact runEvent_some (f := (·.markTurn w.id)) (markTurn_eq hw hpreq hst hsave hmark)
    case deadline => exact runEvent_some (f := (·.deadline w.id)) (deadline_eq hw hsave hleft hdue htab)
    case stopping =>
      obtain ⟨hundrained, hfull, htakes⟩ := workgroupSave_stopping hw hst hup hsave hstop
      refine ⟨hundrained, hfull, fun n hd hn hfree hbelow => ?_⟩
      intro late u d v hdown
      have hbegin := htakes n hd hn hfree hbelow
      obtain ⟨hok, hfails⟩ := beginSave_eq (n := n) hdown
      exact ⟨fun x hx => hok x hx ▸ hbegin, fun f hf => hfails f hf ▸ hbegin⟩
    case saving =>
      have hturn := saves (saveTurn_saving hw hst hup hsave)
      refine ⟨fun f hf => ?_, fun t hnone ht => ?_, fun f hnone hf => ?_⟩
      · simpa only [State.writeImage, hf] using hturn
      · simpa only [State.writeImage, hnone, ht] using hturn
      · simpa only [State.writeImage, hnone, hf] using hturn
    case written =>
      intro t v hv
      have hturn := saves (saveTurn_written hw hst hup hsave hv)
      refine ⟨fun hheld => ?_, fun hfree => ?_⟩
      · rwa [if_pos (by simpa using hheld)] at hturn
      · rw [if_neg (by simpa using hfree)] at hturn
        refine ⟨fun f hf => ?_, fun x _ => hturn⟩
        have hend : t.endSave v = t.imageFails v f := by simp only [State.endSave, hf]
        exact hend ▸ hturn
    case begins => exact resumes (resumeTurn_suspended hw hup hres hst hroom hmark)
    case restoring =>
      obtain ⟨hok, hfails⟩ := resumeTurn_restoring hw hup hst hsave
      exact ⟨fun t ht => resumes (hok t ht), fun f hf => resumes (hfails f hf)⟩
    case entered =>
      intro t there v hv
      have hturn := resumes (resumeTurn_entered hw hup hst hsave hv)
      refine ⟨fun hwait => ?_, fun hheld hcoming hbins => ?_⟩
      · rwa [if_pos (by simpa [or_assoc] using hwait)] at hturn
      · rwa [if_neg (by simpa [there, t] using ⟨⟨hheld, fun a ha => hcoming _ ha rfl⟩, hbins⟩)] at hturn
  case marks => exact runEvent_some (f := (·.markRemoval m.id)) (markRemoval_eq hm hgone)
  case arrivals =>
    intro k hs hbefore t entry
    have happens {t : State} (h : s.arrivalTurn k = some t) : Happens s (.divertedArrival core) t :=
      runEvent_some (f := (·.arrivalTurn k)) h
    refine ⟨fun hentry => happens (arrivalTurn_direct hs hbefore hentry), fun n d w hentry hw =>
      ⟨fun hd hroom => happens (arrivalTurn_held hs hbefore hentry hw hd hroom), fun hd => ?_⟩⟩
    obtain ⟨hok, hfails⟩ := arrivalTurn_diverted hs hbefore hentry hw hd
    exact ⟨fun u hu => happens (hok u hu), fun f hf => happens (hfails f hf)⟩
  case licence =>
    intro k now recent n
    refine ⟨fun hdue => ⟨_, licenceReview_happens hdue, ?_⟩, fun hdue => ⟨_, licenceRotation_happens hdue, ?_⟩⟩
    · rw [coreAt_updCore_same]
      exact ⟨rfl, rfl, rfl, updCore_sameMemory .., rfl⟩
    · rw [coreAt_updCore_same]
      exact ⟨rfl, rfl, updCore_sameMemory .., rfl⟩

end Sys2Proof.Machine
end

section
/-! What an access to memory, and the breaking of a barrier, leave as they were (10_memories.md R225 to R241, 16_traps_and_preemption.md
R444): every part of the state but the memories, the caches, the counters and the faults that are noted of lost stores. -/

namespace Sys2Proof.Machine

/-- A state without the parts that an access to memory can change: two states that agree in it differ in these parts alone. -/
def State.sansStorage (s : State) : State :=
  { s with free := 0, cores := [], scr := [], chip := [], dram := [], llc := [], ctlbs := [], copyUpdates := [], bad := ⟨[], [], []⟩
           counters := [], knodes := [], late := [] }

/-- The status of the dies is not among what an access can change. -/
theorem dieStatus_of_sansStorage {s t : State} (h : t.sansStorage = s.sansStorage) : t.dieStatus = s.dieStatus := by
  have hstatus := congrArg State.dieStatus h
  exact hstatus

/-! ## The last-level caches -/

@[simp] theorem updCore_sansStorage (s : State) (core : Nat) (f : CoreState → CoreState) :
    (s.updCore core f).sansStorage = s.sansStorage := rfl

@[simp] theorem writeDram_sansStorage (s : State) (die : Nat) (lp : Bool) (byte : Nat) (bs : List Byte) :
    (s.writeDram die lp byte bs).sansStorage = s.sansStorage := rfl

@[simp] theorem writeSlot_sansStorage (s : State) (die : Nat) (lp : Bool) (slot kind : Nat) (line : List Int) :
    (s.writeSlot die lp slot kind line).sansStorage = s.sansStorage := rfl

@[simp] theorem llcDrop_sansStorage (s : State) (die : Nat) (k : LineKey) : (s.llcDrop die k).sansStorage = s.sansStorage := rfl

@[simp] theorem llcDropAll_sansStorage (s : State) (k : LineKey) : (s.llcDropAll k).sansStorage = s.sansStorage := rfl

@[simp] theorem bump_sansStorage (s : State) (kind die inst n : Nat) : (s.bump kind die inst n).sansStorage = s.sansStorage := rfl

@[simp] theorem burst_sansStorage (s : State) (die chan : Nat) (write : Bool) :
    (s.burst die chan write).sansStorage = s.sansStorage := by
  have hfree (u : State) (n : Nat) : ({ u with free := n } : State).sansStorage = u.sansStorage := rfl
  simp only [State.burst, bump_sansStorage, hfree]

@[simp] theorem llcPut_sansStorage (s : State) (die : Nat) (l : LLine) : (s.llcPut die l).sansStorage = s.sansStorage := by
  unfold State.llcPut
  split <;> rfl

theorem foldl_sansStorage {α : Type} {f : State → α → State} (hf : ∀ s a, (f s a).sansStorage = s.sansStorage) (xs : List α) (s : State) :
    (xs.foldl f s).sansStorage = s.sansStorage := by
  induction xs generalizing s with
  | nil => rfl
  | cons x xs ih => exact (ih _).trans (hf s x)

theorem foldl_fst_sansStorage {α β : Type} {f : State × β → α → State × β} (hf : ∀ x a, (f x a).1.sansStorage = x.1.sansStorage)
    (xs : List α) (x : State × β) : (xs.foldl f x).1.sansStorage = x.1.sansStorage := by
  induction xs generalizing x with
  | nil => rfl
  | cons a xs ih => exact (ih _).trans (hf x a)

@[simp] theorem readBursts_sansStorage (s : State) (die chan n : Nat) : (s.readBursts die chan n).sansStorage = s.sansStorage :=
  foldl_sansStorage (f := fun s _ => s.burst die chan false) (fun s _ => burst_sansStorage s die chan false) _ s

variable {s t : State}

theorem fetchLine_sansStorage {p : LinePlace} {l : LLine} (h : s.fetchLine p = .ok (t, l)) : t.sansStorage = s.sansStorage := by
  unfold State.fetchLine at h
  split at h
  · cases h; exact burst_sansStorage ..
  · obtain ⟨slots, -, h⟩ := bind_ok h
    dsimp only at h
    split at h
    · split at h
      · cases h
      · cases h; exact readBursts_sansStorage ..
    · cases h; exact readBursts_sansStorage ..

theorem homeLine_sansStorage {p : LinePlace} {whole : Bool} {l : LLine} (h : s.homeLine p whole = some (t, l)) :
    t.sansStorage = s.sansStorage := by
  unfold State.homeLine at h
  split at h
  · cases h; rfl
  · split at h
    · cases h; rfl
    · cases hf : s.fetchLine p with
      | error c => rw [hf] at h; cases h
      | ok x => rw [hf] at h; cases h; exact fetchLine_sansStorage hf

@[simp] theorem applyUpdate_sansStorage (s : State) (n : Nat) : (s.applyUpdate n).sansStorage = s.sansStorage := by
  unfold State.applyUpdate
  split
  · rfl
  · dsimp only
    split
    · split
      · rfl
      · next hl =>
        have hline := homeLine_sansStorage hl
        exact (llcPut_sansStorage ..).trans hline
    · split
      · rfl
      · exact llcPut_sansStorage ..

theorem drainFuel_sansStorage (n : Nat) (pick : State → Option Nat) (s : State) : (drainFuel n s pick).sansStorage = s.sansStorage := by
  induction n generalizing s with
  | zero => rfl
  | succ n ih =>
    unfold drainFuel
    split
    · rfl
    · exact (ih _).trans (applyUpdate_sansStorage ..)

@[simp] theorem drainWhere_sansStorage (s : State) (p : CopyUpdate → Bool) : (s.drainWhere p).sansStorage = s.sansStorage :=
  drainFuel_sansStorage ..

theorem evictPacked_sansStorage {die : Nat} {l : LLine} (h : s.evictPacked die l = some t) : t.sansStorage = s.sansStorage := by
  unfold State.evictPacked at h
  dsimp only at h
  split_ifs at h <;> cases h <;> simp

/-- A line that may stay. -/
theorem leave_sansStorage (s : State) (die : Nat) (k : LineKey) :
    (((s.llcFind die k).bind (s.evictPacked die)).getD s).sansStorage = s.sansStorage := by
  cases he : (s.llcFind die k).bind (s.evictPacked die) with
  | none => rfl
  | some t =>
    obtain ⟨l, -, hl⟩ := Option.bind_eq_some_iff.1 he
    exact evictPacked_sansStorage hl

@[simp] theorem flushKey_sansStorage (s : State) (k : LineKey) : (s.flushKey k).sansStorage = s.sansStorage :=
  (leave_sansStorage _ k.die k).trans (drainWhere_sansStorage s _)

@[simp] theorem separate_sansStorage (s : State) (k : LineKey) : (s.separate k).sansStorage = s.sansStorage := by
  unfold State.separate
  split
  · exact flushKey_sansStorage ..
  · rfl

theorem homeEnsure_sansStorage {p : LinePlace} (h : s.homeEnsure p = .ok t) : t.sansStorage = s.sansStorage := by
  unfold State.homeEnsure at h
  split at h
  · cases h; rfl
  · obtain ⟨x, hx, h⟩ := bind_ok h
    cases h
    exact (llcPut_sansStorage ..).trans ((fetchLine_sansStorage hx).trans (separate_sansStorage ..))

theorem llcEnsure_sansStorage {die : Nat} {p : LinePlace} (h : s.llcEnsure die p = .ok t) : t.sansStorage = s.sansStorage := by
  unfold State.llcEnsure at h
  dsimp only at h
  split at h
  · cases h
  split at h
  · cases h; rfl
  split at h
  · exact homeEnsure_sansStorage h
  obtain ⟨u, hu, h⟩ := bind_ok h
  have hhome := (homeEnsure_sansStorage hu).trans (drainWhere_sansStorage ..)
  split at h
  · cases h
  split at h
  · cases h
  · cases h
    exact (llcPut_sansStorage ..).trans ((drainWhere_sansStorage ..).trans hhome)

theorem llcRead_sansStorage {die : Nat} {p : LinePlace} {ts : List Nat} {vs : List Tryte} (h : s.llcRead die p ts = .ok (t, vs)) :
    t.sansStorage = s.sansStorage := by
  obtain ⟨u, hu, h⟩ := bind_ok h
  split at h
  · cases h
  split at h
  · cases h
  · cases h; exact llcEnsure_sansStorage hu

theorem llcBlank_sansStorage {die : Nat} {p : LinePlace} (h : s.llcBlank die p = .ok t) : t.sansStorage = s.sansStorage := by
  unfold State.llcBlank at h
  split_ifs at h <;> cases h
  · rfl
  · exact separate_sansStorage ..

theorem llcWrite_sansStorage {die : Nat} {p : LinePlace} {vals : List (Nat × Tryte)} (h : s.llcWrite die p vals = .ok t) :
    t.sansStorage = s.sansStorage := by
  obtain ⟨u, hu, h⟩ := bind_ok h
  have hline : u.sansStorage = s.sansStorage := by
    split at hu
    · exact llcBlank_sansStorage hu
    · exact llcEnsure_sansStorage hu
  dsimp only at h
  split at h
  · cases h
  · cases h; exact (llcPut_sansStorage ..).trans hline

theorem homeRead_sansStorage {die : Nat} {p : LinePlace} {ts : List Nat} {vs : List Tryte} (h : s.homeRead die p ts = .ok (t, vs)) :
    t.sansStorage = s.sansStorage := by
  refine (llcRead_sansStorage h).trans ?_
  split
  · rfl
  · exact drainWhere_sansStorage ..

theorem homeWrite_sansStorage {p : LinePlace} {vals : List (Nat × Tryte)} (h : s.homeWrite p vals = .ok t) :
    t.sansStorage = s.sansStorage := by
  obtain ⟨u, hu, h⟩ := bind_ok h
  cases h
  exact (drainWhere_sansStorage ..).trans (llcWrite_sansStorage hu)

/-! ## Walks and structures -/

@[simp] theorem progEvent_sansStorage (s : State) (core code : Nat) (ctx : Option Nat) :
    (s.progEvent core code ctx).sansStorage = s.sansStorage := by rw [progEvent_cores]; rfl

theorem placeWord_sansStorage {die : Nat} {p : LinePlace} {v : Int} (h : s.placeWord die p = .ok (t, v)) :
    t.sansStorage = s.sansStorage := by
  obtain ⟨x, hx, h⟩ := bind_ok h
  cases h
  exact llcRead_sansStorage hx

theorem walkFrom_sansStorage {fuel : Nat} {w : Who} {tab pn : Int} {level : Nat} {e : TlbEntry}
    (h : walkFrom fuel s w tab pn level = .ok (t, e)) : t.sansStorage = s.sansStorage := by
  induction fuel generalizing s tab level with
  | zero => cases h
  | succ fuel ih =>
    obtain ⟨p, -, h⟩ := bind_ok h
    obtain ⟨x, hx, h⟩ := bind_ok h
    have hword := placeWord_sansStorage hx
    dsimp only at h
    split_ifs at h
    · exact (ih h).trans hword
    · cases h; exact hword

theorem walk_sansStorage {w : Who} {pn : Int} {e : TlbEntry} (h : s.walk w pn = .ok (t, e)) : t.sansStorage = s.sansStorage := by
  unfold State.walk at h
  split at h
  · cases h
  · exact walkFrom_sansStorage h

theorem walkFor_sansStorage {w : Who} {pn : Int} {e : TlbEntry} (h : s.walkFor w pn = .ok (t, e)) : t.sansStorage = s.sansStorage := by
  refine (walk_sansStorage h).trans ?_
  split
  · exact progEvent_sansStorage ..
  · rfl

theorem setLeaf_sansStorage {w : Who} {e : TlbEntry} {i : Nat} {r : Option TlbEntry} (h : s.setLeaf w e i = .ok (t, r)) :
    t.sansStorage = s.sansStorage := by
  obtain ⟨p, -, h⟩ := bind_ok h
  obtain ⟨x, hx, h⟩ := bind_ok h
  have hread := homeRead_sansStorage hx
  dsimp only at h
  split at h
  · cases h; exact hread
  · obtain ⟨u, hu, h⟩ := bind_ok h
    cases h
    exact (homeWrite_sansStorage hu).trans hread

theorem markLeaf_sansStorage {w : Who} {pn : Int} {e e' : TlbEntry} {i : Nat} (h : s.markLeaf w pn e i = .ok (t, e')) :
    t.sansStorage = s.sansStorage := by
  unfold State.markLeaf at h
  split at h
  · cases h; rfl
  obtain ⟨⟨u, r⟩, hx, h⟩ := bind_ok h
  have hset := setLeaf_sansStorage hx
  cases r with
  | some e => cases h; exact hset
  | none =>
    obtain ⟨y, hy, h⟩ := bind_ok h
    have hwalk := (walkFor_sansStorage hy).trans ((drainWhere_sansStorage ..).trans hset)
    dsimp only at h
    split at h
    · cases h; exact hwalk
    · obtain ⟨z, hz, h⟩ := bind_ok h
      cases h
      exact (setLeaf_sansStorage hz).trans hwalk

theorem structPlace_sansStorage {w : Who} {va : Int} {p : LinePlace} (h : s.structPlace w va = .ok (t, p)) :
    t.sansStorage = s.sansStorage := by
  obtain ⟨x, hx, h⟩ := bind_ok h
  obtain ⟨q, -, h⟩ := bind_ok h
  cases h
  exact walk_sansStorage hx

theorem structRead_sansStorage {n : Nat} {w : Who} {va : Int} {vs : List Int} (h : s.structRead w va n = .ok (t, vs)) :
    t.sansStorage = s.sansStorage := by
  induction n generalizing s t va vs with
  | zero => cases h; rfl
  | succ n ih =>
    obtain ⟨x, hx, h⟩ := bind_ok h
    obtain ⟨y, hy, h⟩ := bind_ok h
    obtain ⟨z, hz, h⟩ := bind_ok h
    cases h
    exact (ih hz).trans ((placeWord_sansStorage hy).trans (structPlace_sansStorage hx))

/-! ## Translation (R235, R238) -/

theorem addCapped_sansStorage {α : Type} (s : State) (cap : Nat) (xs : List α) (x : α) :
    (s.addCapped cap xs x).2.sansStorage = s.sansStorage := by
  unfold State.addCapped
  split <;> rfl

@[simp] theorem coreEnter_sansStorage (s : State) (core : Nat) (e : TlbEntry) : (s.coreEnter core e).sansStorage = s.sansStorage := by
  rw [State.coreEnter, updCore_sansStorage, addCapped_sansStorage]

@[simp] theorem tlbEnter_sansStorage (s : State) (core : Nat) (e : TlbEntry) : (s.tlbEnter core e).sansStorage = s.sansStorage := by
  have hset (u : State) (m : SMap (List TlbEntry)) : ({ u with ctlbs := m } : State).sansStorage = u.sansStorage := rfl
  rw [State.tlbEnter, hset, addCapped_sansStorage, coreEnter_sansStorage]

theorem enterLeaf_sansStorage {w : Who} {core : Nat} {pn : Int} {e e' : TlbEntry} (h : s.enterLeaf w core pn e = .ok (t, e')) :
    t.sansStorage = s.sansStorage := by
  obtain ⟨x, hx, h⟩ := bind_ok h
  cases h
  exact (tlbEnter_sansStorage ..).trans (markLeaf_sansStorage hx)

theorem leafHeld_sansStorage {w : Who} {core : Nat} {pn : Int} {e e' : TlbEntry} (h : s.leafHeld w core pn e = .ok (t, e')) :
    t.sansStorage = s.sansStorage := by
  unfold State.leafHeld at h
  split at h
  · next hw =>
    have hwalk := walkFor_sansStorage hw
    dsimp only at h
    split at h
    · cases h; rfl
    split at h
    · cases h; rfl
    · exact (enterLeaf_sansStorage h).trans hwalk
  · dsimp only at h
    split at h
    · cases h; rfl
    · cases h

theorem leafOf_sansStorage {w : Who} {pn : Int} {e : TlbEntry} (h : s.leafOf w pn = .ok (t, e)) : t.sansStorage = s.sansStorage := by
  unfold State.leafOf at h
  split at h
  · exact walk_sansStorage h
  split at h
  · exact leafHeld_sansStorage h
  dsimp only at h
  split at h
  · exact (leafHeld_sansStorage h).trans ((coreEnter_sansStorage ..).trans (progEvent_sansStorage ..))
  · obtain ⟨x, hx, h⟩ := bind_ok h
    exact (enterLeaf_sansStorage h).trans ((walkFor_sansStorage hx).trans (progEvent_sansStorage ..))

theorem leafForWrite_sansStorage {w : Who} {pn : Int} {e e' : TlbEntry} (h : s.leafForWrite w pn e = .ok (t, e')) :
    t.sansStorage = s.sansStorage := by
  unfold State.leafForWrite at h
  split at h
  · cases h; rfl
  obtain ⟨x, hx, h⟩ := bind_ok h
  obtain ⟨⟨u, e''⟩, hy, h⟩ := bind_ok h
  have hmark := (markLeaf_sansStorage hy).trans (walkFor_sansStorage hx)
  dsimp only at h
  split at h
  · exact (enterLeaf_sansStorage h).trans hmark
  · cases h; exact hmark

theorem attrEntry_sansStorage {w : Who} {i : Nat} {v : Int} (h : s.attrEntry w i = .ok (t, v)) : t.sansStorage = s.sansStorage := by
  unfold State.attrEntry at h
  dsimp only at h
  split at h
  · cases h; rfl
  · obtain ⟨x, hx, h⟩ := bind_ok h
    have hread := structRead_sansStorage hx
    split at h <;> cases h <;> exact hread

theorem placeOf_sansStorage {w : Who} {e : TlbEntry} {len : Nat} {va : Int} {r : Place × Int × Bool}
    (h : s.placeOf w e len va = .ok (t, r)) : t.sansStorage = s.sansStorage := by
  obtain ⟨x, hx, h⟩ := bind_ok h
  have hentry := attrEntry_sansStorage hx
  dsimp only at h
  split at h
  · cases h
  split at h
  · split at h
    · cases h
    · split at h <;> cases h
      exact hentry
  · obtain ⟨p, -, h⟩ := bind_ok h
    cases h
    exact hentry

theorem translate_sansStorage {w : Who} {k : AccKind} {len : Nat} {va : Int} {p : Place} (h : s.translate w k len va = .ok (t, p)) :
    t.sansStorage = s.sansStorage := by
  unfold State.translate at h
  split at h
  · cases h
  obtain ⟨x, hx, h⟩ := bind_ok h
  obtain ⟨y, hy, h⟩ := bind_ok h
  have hplace := (placeOf_sansStorage hy).trans (leafOf_sansStorage hx)
  dsimp only at h
  split at h
  · cases h
  split at h
  · cases h
  · cases h
  split at h
  · obtain ⟨a, ha, h⟩ := bind_ok h
    obtain ⟨b, hb, h⟩ := bind_ok h
    have hagain := (placeOf_sansStorage hb).trans ((leafForWrite_sansStorage ha).trans hplace)
    split at h
    · cases h
    split at h <;> cases h
    exact hagain
  · cases h; exact hplace

theorem resolveVirt_sansStorage {w : Who} {k : AccKind} {len : Nat} {va : Int} {ps : List Place}
    (h : s.resolveVirt w k len va = .ok (t, ps)) : t.sansStorage = s.sansStorage := by
  unfold State.resolveVirt at h
  split at h
  · cases h
  obtain ⟨x, hx, h⟩ := bind_ok h
  obtain ⟨qs, -, h⟩ := bind_ok h
  cases h
  exact translate_sansStorage hx

/-- A place on chip is resolved without an access. -/
theorem span_sansStorage {p : Place} {len : Nat} {ps : List Place}
    (h : (do let ps ← p.span len; Except.ok (s, ps) : Except Nat (State × List Place)) = .ok (t, ps)) : t.sansStorage = s.sansStorage := by
  obtain ⟨qs, -, h⟩ := bind_ok h
  cases h
  rfl

theorem resolve_sansStorage {w : Workgroup} {sp : Space} {thread len : Nat} {k : AccKind} {addr : Int} {ps : List Place}
    (h : s.resolve w sp thread k len addr = .ok (t, ps)) : t.sansStorage = s.sansStorage := by
  unfold State.resolve at h
  dsimp only at h
  split at h
  · cases h
  cases sp with
  | virt => exact resolveVirt_sansStorage h
  | scr =>
    dsimp only at h
    split_ifs at h
    · exact span_sansStorage h
    · cases h; rfl
  | priv =>
    dsimp only at h
    split_ifs at h
    exact span_sansStorage h
  | clu =>
    dsimp only at h
    split at h
    · cases h
    split at h
    · exact span_sansStorage h
    · split_ifs at h
      exact span_sansStorage h
  | chip =>
    dsimp only at h
    split at h
    · split_ifs at h
      exact span_sansStorage h
    · cases h

/-! ## The L1 of a core -/

@[simp] theorem charge_sansStorage (s : State) (node : Option Nat) (cause : Nat) : (s.charge node cause).sansStorage = s.sansStorage := by
  cases node <;> rfl

@[simp] theorem noteLate_sansStorage (s : State) (r : FaultRec) (reg : Region) : (s.noteLate r reg).sansStorage = s.sansStorage :=
  charge_sansStorage ..

@[simp] theorem noteLost_sansStorage (s : State) (l : L1Line) (c : Nat) : (s.noteLost l c).sansStorage = s.sansStorage := by
  unfold State.noteLost
  exact foldl_sansStorage (fun _ _ => noteLate_sansStorage ..) _ s

@[simp] theorem markBad_sansStorage (s : State) (die : Nat) (p : LinePlace) : (s.markBad die p).sansStorage = s.sansStorage := by
  unfold State.markBad
  split
  · rfl
  · exact llcPut_sansStorage ..

@[simp] theorem refusedFill_sansStorage (s : State) (p : LinePlace) : (s.refusedFill p).sansStorage = s.sansStorage := by
  unfold State.refusedFill
  split
  · rfl
  split
  · rfl
  · exact readBursts_sansStorage ..

@[simp] theorem writeBackAt_sansStorage (s : State) (core i : Nat) : (s.writeBackAt core i).sansStorage = s.sansStorage := by
  unfold State.writeBackAt
  cases (s.coreAt core).l1[i]? with
  | none => rfl
  | some l =>
    dsimp only
    split
    · rfl
    generalize hu : (s.updCore core _).progEvent core 6 (some l.ctx) = u
    have hclean : u.sansStorage = s.sansStorage := by rw [← hu, progEvent_sansStorage, updCore_sansStorage]
    split
    · next hdone =>
      refine Eq.trans ?_ hclean
      split at hdone
      · exact llcWrite_sansStorage hdone
      · obtain ⟨x, hx, rfl⟩ := map_ok hdone
        exact (markBad_sansStorage ..).trans (llcEnsure_sansStorage hx)
    · exact (noteLost_sansStorage ..).trans ((refusedFill_sansStorage ..).trans hclean)

@[simp] theorem cleanLine_sansStorage (s : State) (core ctx : Nat) (vline : Int) :
    (s.cleanLine core ctx vline).sansStorage = s.sansStorage := by
  unfold State.cleanLine
  split
  · rfl
  · exact writeBackAt_sansStorage ..

@[simp] theorem l1Forget_sansStorage (s : State) (core : Nat) (p : LinePlace) (n : Nat) :
    (s.l1Forget core p n).sansStorage = s.sansStorage := by
  unfold State.l1Forget
  split <;> rfl

@[simp] theorem l1Patch_sansStorage (s : State) (core : Nat) (k : LineKey) (vals : List (Nat × Tryte)) :
    (s.l1Patch core k vals).sansStorage = s.sansStorage := by
  unfold State.l1Patch
  split <;> rfl

/-! ## Strong reads and stores (R278) -/

theorem shadowGet_sansStorage {die : Nat} {c : Ctx} {va : Int} {v : Tryte} (h : s.shadowGet die c va = .ok (t, v)) :
    t.sansStorage = s.sansStorage := by
  obtain ⟨x, hx, h⟩ := bind_ok h
  obtain ⟨y, hy, h⟩ := bind_ok h
  cases h
  exact (llcRead_sansStorage hy).trans (structPlace_sansStorage hx)

theorem readTryte_sansStorage {p : Place} {v : Tryte} (h : s.readTryte p = .ok (t, v)) : t.sansStorage = s.sansStorage := by
  cases p with
  | scr c off => simp only [State.readTryte] at h; split at h <;> cases h; rfl
  | desc v => cases h; rfl
  | chip d off => simp only [State.readTryte] at h; split at h <;> cases h; rfl
  | diverted g c off =>
    simp only [State.readTryte] at h
    split at h
    · split at h
      · exact shadowGet_sansStorage h
      · cases h; rfl
    · cases h; rfl
  | line q =>
    obtain ⟨x, hx, h⟩ := bind_ok h
    cases h
    exact llcRead_sansStorage hx
  | window => cases h; rfl

theorem readTrytes_sansStorage (ps : List Place) {a b : State × List Tryte}
    (h : ps.foldlM (fun (acc : State × List Tryte) p => do
      let (s, t) ← acc.1.readTryte p
      (.ok (s, acc.2 ++ [t]) : Except Nat (State × List Tryte))) a = .ok b) : b.1.sansStorage = a.1.sansStorage := by
  induction ps generalizing a with
  | nil => cases h; rfl
  | cons p ps ih =>
    rw [List.foldlM_cons] at h
    obtain ⟨x, hx, h⟩ := bind_ok h
    obtain ⟨y, hy, hx⟩ := bind_ok hx
    cases hx
    exact (ih h).trans (readTryte_sansStorage hy)

theorem windowBytes_sansStorage {die n : Nat} {p : LinePlace} {bs : List Byte} (h : s.windowBytes die p n = .ok (t, bs)) :
    t.sansStorage = s.sansStorage := by
  obtain ⟨x, hx, h⟩ := bind_ok h
  cases h
  exact llcRead_sansStorage hx

theorem readWindow_sansStorage {die : Nat} (ps : List Place) {vs : List Tryte} (h : State.readWindow die s ps = .ok (t, vs)) :
    t.sansStorage = s.sansStorage := by
  induction ps generalizing s t vs with
  | nil => cases h; rfl
  | cons p ps ih =>
    cases p with
    | window q view k =>
      simp only [State.readWindow] at h
      split at h
      · obtain ⟨x, hx, h⟩ := bind_ok h
        split at h
        · cases h
        · obtain ⟨y, hy, h⟩ := bind_ok h
          cases h
          exact (ih hy).trans (windowBytes_sansStorage hx)
      · exact ih h
    | _ => exact ih h

theorem readElem_strong_sansStorage {w : Who} {ps : List Place} {vs : List Tryte} (h : s.readElem w true ps = .ok (t, vs)) :
    t.sansStorage = s.sansStorage := by
  unfold State.readElem at h
  split at h
  · exact readWindow_sansStorage ps h
  · rw [if_pos rfl] at h
    refine (llcRead_sansStorage h).trans ?_
    split
    · exact (l1Forget_sansStorage ..).trans (cleanLine_sansStorage ..)
    · rfl
  · exact readTrytes_sansStorage ps h

@[simp] theorem writeTryte_sansStorage (s : State) (wide : Bool) (p : Place) (v : Tryte) :
    (s.writeTryte wide p v).1.sansStorage = s.sansStorage := by
  unfold State.writeTryte
  split
  · dsimp only
    split <;> rfl
  · dsimp only
    split
    · rfl
    · split <;> rfl
  · rfl

theorem storeView_sansStorage {die : Nat} {p : LinePlace} {view : View} {ts : List Tryte} (h : s.storeView die p view ts = .ok t) :
    t.sansStorage = s.sansStorage := by
  unfold State.storeView at h
  split at h
  · exact llcWrite_sansStorage h
  · cases h

theorem storeWindow_sansStorage (die : Nat) (es : List StoreElem) (s : State) : (storeWindow die s es).1.sansStorage = s.sansStorage := by
  induction es generalizing s with
  | nil => rfl
  | cons e es ih =>
    unfold storeWindow
    split
    · split
      · next hview => exact (ih _).trans (storeView_sansStorage hview)
      · exact ih s
    · exact ih s

theorem storeLine_sansStorage (s : State) (w : Who) (p : LinePlace) (es : List StoreElem) :
    (s.storeLine w p es).1.sansStorage = s.sansStorage := by
  unfold State.storeLine
  dsimp only
  split
  · next hwrite =>
    refine Eq.trans ?_ (llcWrite_sansStorage hwrite)
    split
    · exact l1Patch_sansStorage ..
    · rfl
  · exact refusedFill_sansStorage ..

/-- A strong store writes no element in the L1. -/
theorem storeL1_strong (w : Who) (wide : Bool) (note : StoreElem → Option StoreNote) (s : State) (e : StoreElem) :
    State.storeL1 w true wide note s e = s := by
  unfold State.storeL1
  split
  · next hp => simp [viaL1, hp]
  · rfl

theorem performStores_strong_sansStorage (s : State) (w : Who) (wide : Bool) (note : StoreElem → Option StoreNote) (es : List StoreElem) :
    (s.performStores w true wide note es).1.sansStorage = s.sansStorage := by
  unfold State.performStores
  rw [foldl_self es fun e _ => storeL1_strong w wide note s e]
  have hchip := foldl_fst_sansStorage (f := storeChip wide) (fun x e => writeTryte_sansStorage x.1 wide e.place e.val) es (s, [])
  have hwindow := (storeWindow_sansStorage w.die es (es.foldl (storeChip wide) (s, [])).1).trans hchip
  dsimp only
  refine (foldl_fst_sansStorage (f := storeLlc w _) (fun x p => storeLine_sansStorage x.1 w p _) _ _).trans (Eq.trans ?_ hwindow)
  dsimp only
  split
  · exact foldl_sansStorage (fun _ _ => cleanLine_sansStorage ..) _ _
  · rfl

/-! ## Fatal errors (R444) -/

theorem breakBarrier_sansStorage (s : State) (w : Workgroup) (sp : Space) (addr : Int) :
    (breakBarrier s w sp addr).sansStorage = s.sansStorage := by
  unfold breakBarrier
  split
  · rfl
  next hresolve =>
  have hplaces := resolve_sansStorage hresolve
  split
  · exact hplaces
  next hread => exact (performStores_strong_sansStorage ..).trans ((readElem_strong_sansStorage hread).trans hplaces)

/-- R444: the status of the dies after a fatal error. -/
theorem dieFatal_dieStatus {die : Nat} (h : s.dieDown die = false) : (s.dieFatal die).dieStatus = s.dieStatus.set die (-1) := by
  simp only [State.dieFatal, h, Bool.false_eq_true, if_false]
  exact congrArg (·.set die (-1)) (dieStatus_of_sansStorage
    (foldl_sansStorage (f := fun s (b : Workgroup × Space × Int) => breakBarrier s b.1 b.2.1 b.2.2)
      (fun s b => breakBarrier_sansStorage s b.1 b.2.1 b.2.2) _ s))

end Sys2Proof.Machine
end

section
/-! The turns of the host and of the package (05_registers.md R121, 27_host_and_package.md R435 to R445): the clocks, the windows of the
host, the links and the quote. -/

namespace Sys2Proof.Machine

/-! ## Time (R121, R429) -/

/-- Nothing but the cores and the choices still to come differs. -/
def SameButCores (s t : State) : Prop := ∃ cs n, t = { s with cores := cs, free := n }

theorem sameButCores_refl (s : State) : SameButCores s s := ⟨s.cores, s.free, rfl⟩

theorem sameButCores_trans {s t u : State} (h : SameButCores s t) (h' : SameButCores t u) : SameButCores s u := by
  obtain ⟨cs, n, rfl⟩ := h
  obtain ⟨cs', n', rfl⟩ := h'
  exact ⟨cs', n', rfl⟩

theorem sameButCores_foldl {α : Type} {f : State → α → State} (hf : ∀ s a, SameButCores s (f s a)) (xs : List α) (s : State) :
    SameButCores s (xs.foldl f s) := by
  induction xs generalizing s with
  | nil => exact sameButCores_refl s
  | cons x xs ih => exact sameButCores_trans (hf s x) (ih _)

theorem idleSlots_sameButCores (s : State) (core : Nat) : SameButCores s (s.idleSlots core) := by
  unfold State.idleSlots
  split
  · exact sameButCores_refl s
  refine sameButCores_foldl (fun s n => ?_) _ s
  dsimp only
  split
  · exact sameButCores_refl s
  split
  · exact ⟨_, _, rfl⟩
  · exact ⟨s.cores, _, rfl⟩

/-- R121: the time count rises, and the clocks that are lowered fall behind. -/
theorem timeCountTick_happens (s : State) : ∃ t, exec .timeCountTick s = .next t ∧
    SameButCores ({ s with time := s.time + 1 } : State).lagClocks t :=
  ⟨_, runEvent_some rfl, sameButCores_foldl idleSlots_sameButCores _ _⟩

/-- R445: an island takes a rate in ninths of its nominal clock. -/
theorem clockThrottle_happens (s : State) {island n : Nat} (hisland : island < 144) (hlo : 1 ≤ n) (hhi : n ≤ 9) :
    Happens s (.clockThrottle island n) { s with clocks := s.clocks.set 9 island n } := by
  change execClockThrottle island n s = _
  rw [execClockThrottle]
  exact runEvent_some (if_pos ⟨hisland, hlo, hhi⟩)

/-! ## The nonce (R436) -/

/-- What the nonce reads after bytes from a number on are written, of which those in 64..95 are its own. -/
theorem putNonce_get (s : State) (off : Nat) (bytes : List Byte) (n : Nat) :
    SMap.get 0 (s.putNonce off bytes).nonce n =
      if off ≤ n + 64 ∧ n < 32 then (bytes[n + 64 - off]?).getD (SMap.get 0 s.nonce n) else SMap.get 0 s.nonce n := by
  suffices h : ∀ (k : Nat) (m : SMap Byte), SMap.get 0 (((List.range' k bytes.length).zip bytes).foldl (fun (m : SMap Byte) e =>
      if 64 ≤ off + e.1 ∧ off + e.1 < 96 then m.set 0 (off + e.1 - 64) e.2 else m) m) n =
      if off + k ≤ n + 64 ∧ n < 32 then (bytes[n + 64 - (off + k)]?).getD (SMap.get 0 m n) else SMap.get 0 m n by
    simpa only [State.putNonce, List.range_eq_range', Nat.add_zero] using h 0 s.nonce
  induction bytes with
  | nil => simp
  | cons b bytes ih =>
    intro k m
    simp only [List.length_cons, List.range'_succ, List.zip_cons_cons, List.foldl_cons]
    rw [ih]
    by_cases hhere : n + 64 = off + k ∧ n < 32
    · have hkey : off + k - 64 = n := by omega
      have hin : 64 ≤ off + k ∧ off + k < 96 := by omega
      have hpast : ¬(off + (k + 1) ≤ n + 64 ∧ n < 32) := by omega
      have hfrom : off + k ≤ n + 64 ∧ n < 32 := by omega
      have hzero : n + 64 - (off + k) = 0 := by omega
      rw [if_neg hpast, if_pos hin, if_pos hfrom, hkey, hzero]
      simp
    · have hsame : SMap.get 0 (if 64 ≤ off + k ∧ off + k < 96 then m.set 0 (off + k - 64) b else m) n = SMap.get 0 m n := by
        split
        · exact SMap.get_set_other 0 m b (by omega)
        · rfl
      rw [hsame]
      by_cases hlater : off + (k + 1) ≤ n + 64 ∧ n < 32
      · have hfrom : off + k ≤ n + 64 ∧ n < 32 := by omega
        rw [if_pos hlater, if_pos hfrom, show n + 64 - (off + k) = n + 64 - (off + (k + 1)) + 1 by omega, List.getElem?_cons_succ]
      · rw [if_neg hlater, if_neg (by omega)]

/-! ## Reads of the host's windows (R435, R436) -/

theorem leBytes_length (n v : Nat) : (leBytes n v).length = n := by
  induction n generalizing v with
  | zero => rfl
  | succ n ih => simp [leBytes, ih]

theorem intBytes_length (n : Nat) (v : Int) : (intBytes n v).length = n := by simp [intBytes, leBytes_length]

/-- A list is read element by element. -/
theorem mapM_range_getElem? {α : Type} {xs : List α} {f : Nat → Option α} (h : ∀ j, j < xs.length → f j = xs[j]?) :
    (List.range xs.length).mapM f = some xs := by
  induction xs generalizing f with
  | nil => rfl
  | cons x xs ih =>
    have hrest := ih (f := fun j => f (j + 1)) fun j hj => h (j + 1) (Nat.succ_lt_succ hj)
    have hfirst : f 0 = some x := h 0 (Nat.succ_pos _)
    rw [List.length_cons, List.range_succ_eq_map, List.mapM_cons, hfirst, List.mapM_map]
    exact congrArg (fun r => r.bind fun ys => some (x :: ys)) hrest

/-- A host read whose bytes are those of a list. -/
theorem hostRead_registers {s : State} {off n : Nat} {bs : List Byte} (hlen : bs.length = n)
    (h : ∀ j, j < n → s.registerByte (off + j) = bs[j]?) : s.hostRead 0 off n = some bs := by
  subst hlen
  exact mapM_range_getElem? h

theorem hostRead_mail {s : State} {off n : Nat} {bs : List Byte} (hlen : bs.length = n)
    (h : ∀ j, j < n → s.mailByte (off + j) = bs[j]?) : s.hostRead 1 off n = some bs := by
  subst hlen
  exact mapM_range_getElem? h

theorem hostRead_identity (s : State) : s.hostRead 0 0 8 = some [217, 2, 0, 0, 0, 0, 0, 0] := by
  have hbytes : intBytes 8 729 = [217, 2, 0, 0, 0, 0, 0, 0] := by decide +kernel
  refine hostRead_registers rfl fun j hj => ?_
  rw [Nat.zero_add, State.registerByte, if_pos hj]
  simp only [hbytes, Nat.mod_eq_of_lt hj]

theorem hostRead_nonce (s : State) : s.hostRead 0 64 32 = some (List.replicate 32 0) := by
  refine hostRead_registers List.length_replicate fun j hj => ?_
  rw [State.registerByte, if_neg (by omega), if_neg (by omega), if_neg (by omega), if_pos (by omega), List.getElem?_replicate, if_pos hj]

theorem hostRead_link (s : State) {n : Nat} (hn : n < 36) :
    s.hostRead 0 (512 + 8 * n) 8 = some (intBytes 8 (s.links.get (Word.ofInt 0) n).val) := by
  refine hostRead_registers (intBytes_length 8 _) fun j hj => ?_
  have hword : (512 + 8 * n + j - 512) / 8 = n := by omega
  have hbyte : (512 + 8 * n + j) % 8 = j := by omega
  rw [State.registerByte, if_neg (by omega), if_neg (by omega), if_neg (by omega), if_neg (by omega), if_neg (by omega),
    if_neg (by omega), if_neg (by omega), if_pos (by omega), hword]
  simp only [hbyte, zeroW]

theorem hostRead_mailWord (s : State) {m n : Nat} (hm : m ≤ 26) (hn : n < 270) :
    s.hostRead 1 (2160 * m + 8 * n) 8 = some (intBytes 8
      (if n < 243 then (s.box m).words.get (Word.ofInt 0) n else (s.box m).reply.get (Word.ofInt 0) (n - 243)).val) := by
  refine hostRead_mail (intBytes_length 8 _) fun j hj => ?_
  have hbox : (2160 * m + 8 * n + j) / 2160 = m := by omega
  have hword : (2160 * m + 8 * n + j) % 2160 / 8 = n := by omega
  have hbyte : (2160 * m + 8 * n + j) % 8 = j := by omega
  simp only [State.mailByte, hbox, hword, hbyte, zeroW]
  rw [if_pos (by omega)]

/-! ## Writes to the host's windows (R308, R435, R436) -/

/-- R436: a write of the register window puts its bytes in the nonce and its whole elements in their registers. -/
theorem registerWrite_happens (s : State) (off : Nat) (bytes : List Byte) :
    (∀ es, elements (off + (96 - off)) (bytes.drop (96 - off)) = some es →
      Happens s (.hostRegisterWrite 0 off bytes) (es.foldl (fun t e => t.putRegister e.1 e.2) (s.putNonce off bytes))) ∧
    (elements (off + (96 - off)) (bytes.drop (96 - off)) = none → off < 96 → 64 < off + bytes.length →
      Happens s (.hostRegisterWrite 0 off bytes) (s.putNonce off bytes)) := by
  refine ⟨fun es hes => ?_, fun hnone hlo hhi => ?_⟩ <;> refine runEvent_some (f := (·.hostWrite 0 off bytes)) ?_
  · simp only [State.hostWrite, if_true, hes]
  · simp only [State.hostWrite, if_true, hnone, if_pos (And.intro hlo hhi)]

/-- R436: a write within the nonce changes the nonce alone. -/
theorem nonceWrite_happens (s : State) {off : Nat} {bytes : List Byte} (h : off + bytes.length ≤ 96) :
    Happens s (.hostRegisterWrite 0 off bytes) (s.putNonce off bytes) := by
  have hrest : elements (off + (96 - off)) (bytes.drop (96 - off)) = some [] := by
    rw [show off + (96 - off) = 96 by omega, List.drop_of_length_le (by omega)]
    rfl
  exact (registerWrite_happens s off bytes).1 [] hrest

theorem putRegister_link {s : State} {link n : Nat} {v : Int} (hlink : link < 9) (hn : n < 4) (hv : n = 3 → v ≠ 1) :
    s.putRegister (512 + 32 * link + 8 * n) v = { s with links := s.links.set zeroW (4 * link + n) (Word.ofInt v) } := by
  have hword : (512 + 32 * link + 8 * n - 512) / 8 = 4 * link + n := by omega
  have hdoorbell : ¬((4 * link + n) % 4 = 3 ∧ v = 1) := fun h => hv (by omega) h.2
  simp only [State.putRegister, hword]
  rw [if_neg (by omega), if_pos (by omega), if_neg hdoorbell]

/-- R308: a write of one element of the mailbox window; one whose slot is not free is an overrun. -/
theorem mailWrite_happens (s : State) {off : Nat} {bytes : List Byte} {e : Nat × Int} (h : elements off bytes = some [e]) :
    Happens s (.hostRegisterWrite 1 off bytes)
      (match (s.putMailWord e.1 e.2).2 with
        | none => (s.putMailWord e.1 e.2).1
        | some f => (s.putMailWord e.1 e.2).1.overruns [f]) := by
  refine runEvent_some (f := (·.hostWrite 1 off bytes)) ?_
  simp only [State.hostWrite, h, Option.map_some, List.foldl_cons, List.foldl_nil]
  cases (s.putMailWord e.1 e.2).2 <;> rfl

/-! ## Attestation (R442) -/

theorem quoteReady_happens {s : State} (h : s.attest ≠ Word.ofInt 0) : Happens s .quoteReady
    { s with attest := zeroW, quote := s.quoteBody ++ (List.range 32).map (Config.signature s.quoteBody)
             sign := (List.range 32).map fun i => Config.signature s.quoteBody (32 + i) } := by
  change execQuoteReady s = _
  rw [execQuoteReady]
  exact runEvent_some (if_neg h)

/-- R442: the nonce stands at the head of a quote. -/
theorem quoteBody_nonce (s : State) {i : Nat} (hi : i < 32) : s.quoteBody[i]? = some (SMap.get 0 s.nonce i) := by
  simp [State.quoteBody, List.append_assoc, List.getElem?_append_left, hi]

/-! ## Accesses of bytes (R435) -/

/-- R435, R413: an access of n bytes of a tier that is not refused: they are in the tier of a die that runs, and in no carve-out. -/
def State.admitsBytes (s : State) (die : Nat) (lp : Bool) (byte n : Nat) : Prop :=
  die < 4 ∧ byte + n ≤ tierLines lp * 160 ∧ s.dieDown die = false ∧ ∀ l ∈ slotsOf byte n, s.inCarve die lp l = false

section
variable {s : State} {die byte : Nat} {lp : Bool}

theorem refuses_of_admitsBytes {n : Nat} (h : s.admitsBytes die lp byte n) :
    (decide (die > 3) || decide (byte + n > tierLines lp * 160) || s.dieDown die || (slotsOf byte n).any (s.inCarve die lp)) = false := by
  obtain ⟨hdie, hlen, hup, hcarve⟩ := h
  have hfree : (slotsOf byte n).any (s.inCarve die lp) = false := by
    rw [List.any_eq_false]
    exact fun l hl => by simp [hcarve l hl]
  rw [hfree, hup, decide_eq_false (show ¬die > 3 by omega), decide_eq_false (Nat.not_lt.2 hlen)]
  rfl

theorem hostBytes_read {n : Nat} (h : s.admitsBytes die lp byte n) : s.hostBytes die lp byte (.read n) =
    let t := ((slotsOf byte n).foldl (fun t l => t.settleSlot die lp l) s).slotBursts die lp (slotsOf byte n) false
    { t with hostReads := t.hostReads ++ [some ((List.range n).map fun i => t.dramByte die lp (byte + i))] } := by
  simp only [State.hostBytes, refuses_of_admitsBytes h, accWrites, Bool.false_eq_true, if_false]

theorem hostBytes_write {bs : List Byte} (h : s.admitsBytes die lp byte bs.length) : s.hostBytes die lp byte (.write bs) =
    (((slotsOf byte bs.length).foldl (fun t l => t.settleSlot die lp l) s).slotBursts die lp (slotsOf byte bs.length) true).writeDram
      die lp byte bs := by
  simp only [State.hostBytes, refuses_of_admitsBytes h, accWrites, Bool.false_eq_true, if_false]

end

/-- The bytes that an access of the host reads or writes. -/
def accLen : HostAccess → Nat
  | .read n => n
  | .write bs => bs.length

/-- R435: an access of bytes through a window that admits it. -/
theorem hostWindow_eq {s : State} {off : Nat} {acc : HostAccess} {w : Window} (hw : s.window (off / 2 ^ 38) = some w)
    (hnum : off / 2 ^ 38 ≤ 26) (hvalid : w.valid = true) (hworld : w.world ≠ 1) (hend : off % 2 ^ 38 + accLen acc ≤ w.len)
    (hstart : off % 2 ^ 38 < w.len) : s.hostWindow off acc = s.hostBytes w.die w.lp (w.base + off % 2 ^ 38) acc := by
  have hadmits : ¬(off / 2 ^ 38 > 26 ∨ (!w.valid) = true ∨ off % 2 ^ 38 ≥ w.len ∨ off % 2 ^ 38 + accLen acc > w.len ∨ w.world = 1) := by
    simp only [hvalid, hworld, Bool.not_true, Bool.false_eq_true, false_or, or_false]
    omega
  cases acc <;> simp only [accLen] at hadmits <;> simp only [State.hostWindow, hw, if_neg hadmits]

/-! ## Links (R440) -/

theorem startTransfer_eq {s : State} {link : Nat} (hlink : link ≤ 8) (hidle : ∀ t ∈ s.transfers, t.link ≠ link) :
    s.startTransfer link = some { s with
      transfers := s.transfers ++ [⟨link, s.linkWord link 0, s.linkWord link 1, s.linkWord link 2⟩]
      links := s.links.set zeroW (4 * link + 3) (Word.ofInt 1) } := by
  have hnone : s.transfers.any (fun t => t.link == link) = false := by
    rw [List.any_eq_false]
    exact fun t ht => by simp [hidle t ht]
  simp only [State.startTransfer, hnone, State.setDoorbell]
  rw [if_neg (by simp; omega)]

/-- R440: a transfer of spans that are not whole slots ends with −1. -/
theorem endTransfer_refused {s : State} {link : Nat} {x : XgTransfer} (hx : s.transfers.find? (fun t => t.link == link) = some x)
    (hbad : ¬(spanOk x.src x.len = true ∧ spanOk x.dst x.len = true)) :
    s.endTransfer link = some (({ s with transfers := s.transfers.filter fun y => y.link != link } : State).setDoorbell link (-1)) := by
  simp only [State.endTransfer, hx, Option.bind_eq_bind, Option.bind_some]
  rw [if_neg (by simpa using hbad)]
  rfl

/-- R440: a transfer of whole slots sends their bytes and ends with 0. -/
theorem endTransfer_sent {s : State} {link : Nat} {x : XgTransfer} (hx : s.transfers.find? (fun t => t.link == link) = some x)
    (hok : spanOk x.src x.len = true ∧ spanOk x.dst x.len = true) :
    s.endTransfer link = some (
      let u := ({ s with transfers := s.transfers.filter fun y => y.link != link } : State).sentBytes x.src x.len
      ({ u.1 with xgOut := u.1.xgOut ++ [(link, x.dst.toNat, u.2)] } : State).setDoorbell link 0) := by
  simp only [State.endTransfer, hx, Option.bind_eq_bind, Option.bind_some]
  rw [if_pos (by simpa using hok)]
  rfl

/-! ## Fatal errors (R444) -/

/-- R444: a die that takes a fatal error stops, where the package has it. -/
theorem dieFatal_dieDown (s : State) (die : Nat) : (s.dieFatal die).dieDown die = true ∨ s.dieStatus.length ≤ die := by
  cases hdown : s.dieDown die with
  | true => exact .inl (by rw [State.dieFatal, if_pos hdown]; exact hdown)
  | false =>
    rcases Nat.lt_or_ge die s.dieStatus.length with h | h
    · exact .inl (by simp [State.dieDown, dieFatal_dieStatus hdown, h])
    · exact .inr h

/-- R444: no workgroup is left on a die with a fatal error, which raises vector 729. -/
theorem dieFatal_empties {s : State} {die : Nat} (h : s.dieDown die = false) :
    (∀ w ∈ (s.dieFatal die).wgs, w.core.die ≠ die) ∧ 729 ∈ (s.dieFatal die).irqs := by
  simp only [State.dieFatal, h, Bool.false_eq_true, if_false]
  exact ⟨fun w hw => by simpa using (List.mem_filter.1 hw).2, by simp⟩

/-! ## The turns of the statement -/

/-- Settles O52: the windows read and write the words and bytes that their rows name (putNonce_get, hostRead_*, hostBytes_*), a link's
transfer begins and ends by startTransfer_eq and endTransfer_*, and of a fatal error the status of its die is followed through the
barriers that it breaks (dieFatal_dieStatus). -/
theorem hostTurns : Obligations.HostTurns := by
  intro s
  refine ⟨?tick, ?throttle, fun link hlink => ?retry, fun die peer hdie hpeer hne => ?flit, fun off bytes hlo hhi => ?nonce,
    fun off bytes => registerWrite_happens s off bytes, fun link n v hlink hn hv => ?link,
    ⟨hostRead_identity s, hostRead_nonce s, fun n hn => hostRead_link s hn, fun m n hm hn => hostRead_mailWord s hm hn⟩,
    fun off bytes e he => mailWrite_happens s he, fun hattest => ?request, fun hattest => ?quote, fun off acc w => ?window,
    fun off n hoff hlen hup hcarve => ?raw, fun link hlink => ?transfer, runEvent_some rfl, runEvent_some rfl, fun die hdie => ?fatal⟩
  case tick =>
    obtain ⟨t, ht, cs, n, rfl⟩ := timeCountTick_happens s
    exact ⟨_, ht, rfl, sameMemory_of_eq rfl rfl rfl, rfl, rfl⟩
  case throttle =>
    intro island n hisland hlo hhi
    exact ⟨_, clockThrottle_happens s hisland hlo hhi, SMap.get_set_same .., fun j hj => SMap.get_set_other _ _ _ hj, rfl⟩
  case retry => exact runEvent_some (f := fun s => if link < 9 then some (s.bump 11 0 link 1) else none) (if_pos hlink)
  case flit =>
    exact runEvent_some (f := fun s => if die < 4 ∧ peer < 4 ∧ die ≠ peer then some (s.bump 10 die peer 1) else none)
      (if_pos ⟨hdie, hpeer, hne⟩)
  case nonce =>
    refine ⟨_, nonceWrite_happens s hhi, fun j b hj hb => ?_, fun n hn => ?_, rfl⟩
    · rw [putNonce_get, if_pos (by omega), show off + j - 64 + 64 - off = j by omega, hb, Option.getD_some]
    · rw [putNonce_get]
      split
      · rw [List.getElem?_eq_none (by omega), Option.getD_none]
      · rfl
  case link => exact ⟨_, putRegister_link hlink hn hv, SMap.get_set_same .., rfl⟩
  case request => exact runEvent_some (f := (·.requestQuote)) (if_pos hattest)
  case quote => exact ⟨_, quoteReady_happens hattest, rfl, rfl, rfl, fun i hi => quoteBody_nonce s hi, rfl⟩
  case window =>
    intro n hw hnum hvalid hworld hend hstart
    have hlen : accLen acc = n := by cases acc <;> rfl
    exact runEvent_some (f := fun s => some (s.hostWindow off acc))
      (congrArg some (hostWindow_eq hw hnum hvalid hworld (hlen ▸ hend) hstart))
  case raw =>
    intro lp bursts t
    have hhalf : off / 2 ^ 40 / 2 = off / 2 ^ 41 := by omega
    have hadmits : s.admitsBytes (off / 2 ^ 41) lp (off % 2 ^ 40) n := ⟨hoff, hlen, hup, hcarve⟩
    refine ⟨runEvent_some (f := fun s => some (s.hostBytes (off / 2 ^ 40 / 2) lp (off % 2 ^ 40) (.read n))) (congrArg some ?_),
      fun bs hbs => runEvent_some (f := fun s => some (s.hostBytes (off / 2 ^ 40 / 2) lp (off % 2 ^ 40) (.write bs))) (congrArg some ?_)⟩
    · rw [hhalf, hostBytes_read hadmits]
    · subst hbs
      rw [hhalf, hostBytes_write hadmits]
  case transfer =>
    refine ⟨fun hidle => runEvent_some (f := (·.startTransfer link)) (startTransfer_eq hlink hidle), fun x hx => ?_⟩
    exact ⟨fun hbad => runEvent_some (f := (·.endTransfer link)) (endTransfer_refused hx hbad),
      fun hok => runEvent_some (f := (·.endTransfer link)) (endTransfer_sent hx hok)⟩
  case fatal =>
    exact ⟨runEvent_some (f := fun s => if die < 4 then some (s.dieFatal die) else none) (if_pos hdie),
      runEvent_some (f := fun s => if die < 4 then some (s.dieFatal die) else none) (if_pos hdie), dieFatal_dieDown s die, dieFatal_empties⟩

end Sys2Proof.Machine
end

section
/-! Integer words (06_integer_instructions.md R128 to R142): strings of trits read back trit by trit, the elements that an operation
reads, and the outcome of a word whose effect writes them. -/

namespace Sys2Proof.Machine

/-! ## Trits of an integer (R5, R12) -/

theorem natAbs_tritAt_le (v : Int) (i : Nat) : (tritAt v i).natAbs ≤ 1 := natAbs_wrapInt_le 1 (dropInt i v)

theorem dropInt_zero (v : Int) : dropInt 0 v = v := by
  simpa using dropInt_low (n := 0) (r := 0) (Nat.zero_le _) v

theorem dropInt_of_natAbs_le {n : Nat} {v : Int} (h : v.natAbs ≤ maxMag n) : dropInt n v = 0 := by
  simpa using dropInt_low h 0

theorem tritAt_of_natAbs_le {n : Nat} {v : Int} (h : v.natAbs ≤ maxMag n) : tritAt v n = 0 := by
  rw [tritAt, dropInt_of_natAbs_le h]
  rfl

theorem maxMag_mono {m n : Nat} (h : m ≤ n) : maxMag m ≤ maxMag n :=
  Nat.div_le_div_right (Nat.sub_le_sub_right (Nat.pow_le_pow_right (by decide) h) 1)

/-- R13: without its n low trits a value is a multiple of 3^n, of the trits above them. -/
theorem sub_wrapInt_ediv (n : Nat) (v : Int) : (v - wrapInt n v) / 3 ^ n = dropInt n v := by
  have hsplit : v - wrapInt n v = dropInt n v * 3 ^ n := by
    have h := wrapInt_add_dropInt n v
    omega
  rw [hsplit, Int.mul_ediv_cancel _ (by positivity)]

theorem natAbs_ofTrits_le {ts : List Int} (h : ∀ t ∈ ts, t.natAbs ≤ 1) : (ofTrits ts).natAbs ≤ maxMag ts.length := by
  induction ts with
  | nil => exact Nat.zero_le _
  | cons t ts ih =>
    obtain ⟨ht, hts⟩ := List.forall_mem_cons.1 h
    rw [List.length_cons, add_comm]
    exact natAbs_low_le (n := 1) ht (ih hts)

theorem tritAt_ofTrits {ts : List Int} (h : ∀ t ∈ ts, t.natAbs ≤ 1) (i : Nat) : tritAt (ofTrits ts) i = ts.getD i 0 := by
  induction ts generalizing i with
  | nil => exact tritAt_of_natAbs_le (Nat.zero_le _)
  | cons t ts ih =>
    obtain ⟨ht, hts⟩ := List.forall_mem_cons.1 h
    cases i with
    | zero =>
      rw [tritAt, dropInt_zero]
      exact wrapInt_low (n := 1) ht _
    | succ i =>
      have hdrop : dropInt 1 (ofTrits (t :: ts)) = ofTrits ts := dropInt_low (n := 1) ht _
      rw [tritAt, Nat.add_comm i 1, ← dropInt_dropInt, hdrop, Nat.add_comm 1 i]
      exact ih hts i

/-- The string of n trits of which trit i is f i. -/
def tritString (n : Nat) (f : Nat → Int) : Int := ofTrits ((List.range n).map f)

theorem trits_le_of_forall {n : Nat} {f : Nat → Int} (h : ∀ i < n, (f i).natAbs ≤ 1) :
    ∀ t ∈ (List.range n).map f, t.natAbs ≤ 1 :=
  List.forall_mem_map.2 fun i hi => h i (List.mem_range.1 hi)

theorem natAbs_tritString_le {n : Nat} {f : Nat → Int} (h : ∀ i < n, (f i).natAbs ≤ 1) : (tritString n f).natAbs ≤ maxMag n := by
  simpa [tritString] using natAbs_ofTrits_le (trits_le_of_forall h)

theorem tritAt_tritString {n : Nat} {f : Nat → Int} (h : ∀ i < n, (f i).natAbs ≤ 1) (i : Nat) :
    tritAt (tritString n f) i = if i < n then f i else 0 := by
  rw [tritString, tritAt_ofTrits (trits_le_of_forall h)]
  split <;> simp_all

/-! ## Elements (R128) -/

/-- An element that is read fits the width of its type. -/
theorem natAbs_elem_le (x : Issue) {ty : Ty} (hty : ty ≠ .f81) (r : Reg) (l j : Nat) :
    (x.elem ty r l j).natAbs ≤ maxMag (elemWidth ty) := by
  rw [Issue.elem, if_neg hty, elemWidth]
  split
  · exact tryteOf_range _ _
  · exact natAbs_trits _

/-! ## The outcome of a word that writes elements (R117, R128) -/

section
variable {s : State} {w : Workgroup} {g : Group} {i : Instr}

/-- A word of three operands computes what its operation gives for the elements that it can read. -/
theorem computes3_of_elems {a : Op3} {f : ElemFn} {v : Int → Int → Int → Int × Flags} (h : Issues s w g i)
    (hexec : exec i s = runWord i s (·.op3 a f)) (hok : i.wellFormed = a.okInt)
    (hf : ∀ u b d : Int, u.natAbs ≤ maxMag (elemWidth a.ty) → f (elemWidth a.ty) u b d = v u b d) : Computes3 s w g i a v := by
  have hty : a.ty ≠ .f81 := op3_ty (hok ▸ h.2.1.2.1)
  have hput : (s.issueOf w g i).op3 a f = (s.issueOf w g i).putAll a.ty a.d fun l j => v ((s.issueOf w g i).elem a.ty a.a l j)
      ((s.issueOf w g i).elemB a.ty a.b l j) ((s.issueOf w g i).elem a.ty a.d l j) := by
    unfold Issue.op3
    congr 1
    funext l j
    exact hf _ _ _ (natAbs_elem_le _ hty _ _ _)
  exact hexec.trans (runWord_done h hput)

theorem computes3 {a : Op3} {f : ElemFn} {v : Int → Int → Int → Int × Flags} (h : Issues s w g i)
    (hexec : exec i s = runWord i s (·.op3 a f)) (hf : f (elemWidth a.ty) = v) : Computes3 s w g i a v := by
  subst hf
  exact hexec.trans (runWord_done h rfl)

theorem computes2 {a : Op2} {f : Nat → Int → Int × Flags} {v : Int → Int × Flags} (h : Issues s w g i)
    (hexec : exec i s = runWord i s (·.op2 a f)) (hf : f (elemWidth a.ty) = v) : Computes2 s w g i a v := by
  subst hf
  exact hexec.trans (runWord_done h rfl)

end

end Sys2Proof.Machine
end

section
/-! Division (06_integer_instructions.md R137): each quotient by the remainder that it leaves. -/

namespace Sys2Proof.Machine

/-- The quotient to nearest by a positive divisor leaves at most half of it, and a half on the side of the dividend alone. -/
theorem divNearest_remainder (p : Int) {q : Int} (hq : 0 < q) :
    (0 ≤ p → -q < 2 * (p - q * divNearest p q) ∧ 2 * (p - q * divNearest p q) ≤ q) ∧
    (p ≤ 0 → -q ≤ 2 * (p - q * divNearest p q) ∧ 2 * (p - q * divNearest p q) < q) := by
  have hcut : ∀ m : Int, m - 2 * q < 2 * (q * (m / (2 * q))) ∧ 2 * (q * (m / (2 * q))) ≤ m := fun m => by
    have hsplit := Int.mul_ediv_add_emod m (2 * q)
    have hlo := Int.emod_nonneg m (b := 2 * q) (by omega)
    have hhi := Int.emod_lt_of_pos m (b := 2 * q) (by omega)
    rw [mul_assoc] at hsplit
    omega
  unfold divNearest
  rcases lt_trichotomy p 0 with hp | rfl | hp
  · have h := hcut (-2 * p + q - 1)
    rw [if_pos hp, mul_neg]
    omega
  · have h0 : (2 * 0 + q - 1) / (2 * q) = 0 := Int.ediv_eq_zero_of_lt (by omega) (by omega)
    rw [if_neg (lt_irrefl 0), h0]
    omega
  · have h := hcut (2 * p + q - 1)
    rw [if_neg hp.le.not_gt]
    omega

/-- A half of the divisor that is left on the side of the dividend has its sign. -/
theorem sign_of_half {a r q : Int} (hq : 0 < q) (hpos : 0 ≤ a → -q < 2 * r ∧ 2 * r ≤ q) (hneg : a ≤ 0 → -q ≤ 2 * r ∧ 2 * r < q) :
    2 * r.natAbs ≤ q.natAbs ∧ (2 * r.natAbs = q.natAbs → r.sign = a.sign) := by
  refine ⟨by omega, fun h => ?_⟩
  rcases lt_trichotomy a 0 with ha | rfl | ha
  · rw [Int.sign_eq_neg_one_of_neg ha, Int.sign_eq_neg_one_of_neg (by omega)]
  · omega
  · rw [Int.sign_eq_one_of_pos ha, Int.sign_eq_one_of_pos (by omega)]

/-- R137: the quotient to nearest leaves at most half of the divisor, and a half has the sign of the dividend. -/
theorem quotNearest_remainder (a : Int) {b : Int} (hb : b ≠ 0) :
    2 * (a - b * quotNearest a b).natAbs ≤ b.natAbs ∧
      (2 * (a - b * quotNearest a b).natAbs = b.natAbs → (a - b * quotNearest a b).sign = a.sign) := by
  unfold quotNearest
  split
  · next hneg =>
    obtain ⟨hpos, hneg'⟩ := divNearest_remainder (-a) (q := -b) (by omega)
    rw [neg_mul] at hpos hneg'
    rw [← Int.natAbs_neg b]
    exact sign_of_half (by omega) (fun h => by have := hneg' (by omega); omega) fun h => by have := hpos (by omega); omega
  · obtain ⟨hpos, hneg⟩ := divNearest_remainder a (q := b) (by omega)
    exact sign_of_half (by omega) hpos hneg

/-- A quotient that leaves less than the divisor is not greater than the dividend. -/
theorem natAbs_quotient_le {a b q : Int} (h : (a - b * q).natAbs < b.natAbs) : q.natAbs ≤ a.natAbs := by
  have hsplit : b.natAbs * q.natAbs ≤ a.natAbs + (a - b * q).natAbs := by
    rw [← Int.natAbs_mul]
    omega
  by_contra! hlt
  have hmul : b.natAbs * (a.natAbs + 1) ≤ b.natAbs * q.natAbs := Nat.mul_le_mul_left _ hlt
  have hone : 1 * a.natAbs ≤ b.natAbs * a.natAbs := Nat.mul_le_mul_right _ (by omega)
  rw [mul_add] at hmul
  omega

/-- R137: the floor leaves less than the divisor, with its sign. -/
theorem fmod_range (a : Int) {b : Int} (hb : b ≠ 0) : (a.fmod b).natAbs < b.natAbs ∧ (a.fmod b = 0 ∨ (a.fmod b).sign = b.sign) := by
  rcases lt_or_gt_of_ne hb with hneg | hpos
  · have hlo := Int.fmod_nonneg_of_pos (-a) (b := -b) (by omega)
    have hhi := Int.fmod_lt_of_pos (-a) (b := -b) (by omega)
    rw [Int.neg_fmod_neg] at hlo hhi
    refine ⟨by omega, or_iff_not_imp_left.2 fun h0 => ?_⟩
    rw [Int.sign_eq_neg_one_of_neg hneg, Int.sign_eq_neg_one_of_neg (by omega)]
  · have hlo := Int.fmod_nonneg_of_pos a hpos
    have hhi := Int.fmod_lt_of_pos a hpos
    refine ⟨by omega, or_iff_not_imp_left.2 fun h0 => ?_⟩
    rw [Int.sign_eq_one_of_pos hpos, Int.sign_eq_one_of_pos (by omega)]

/-- R137: the quotient toward zero leaves less than the divisor, with the sign of the dividend. -/
theorem tmod_range (a : Int) {b : Int} (hb : b ≠ 0) : (a.tmod b).natAbs < b.natAbs ∧ (a.tmod b = 0 ∨ (a.tmod b).sign = a.sign) := by
  constructor
  · rw [Int.natAbs_tmod]
    exact Nat.mod_lt _ (by omega)
  · rw [Int.sign_tmod]
    split
    · next h => exact .inl (Int.tmod_eq_zero_of_dvd h)
    · exact .inr rfl

/-- R137, R140: a power of three is odd, so that the quotient to nearest by it is the dividend without its low trits. -/
theorem quotNearest_three_pow (a : Int) (c : Nat) : quotNearest a (3 ^ c) = dropInt c a := by
  obtain ⟨hhalf, -⟩ := quotNearest_remainder a (b := 3 ^ c) (by positivity)
  have hrest : (a - 3 ^ c * quotNearest a (3 ^ c)).natAbs ≤ maxMag c := by
    have hodd := two_maxMag c
    rw [Int.natAbs_pow, show (3 : Int).natAbs = 3 from rfl] at hhalf
    omega
  have h := dropInt_low hrest (quotNearest a (3 ^ c))
  rw [sub_add_cancel] at h
  exact h.symm

/-- Settles O2: what is left by the quotients is told by quotNearest_remainder, tmod_range and fmod_range, and a nearest quotient by a
power of three drops trits (quotNearest_three_pow). -/
theorem divisionByThreeRules : Obligations.DivisionByThreeRules := by
  refine ⟨quotNearest, quotZero, quotFloor, fun a b hb => ?remainders, fun a c => ?byPower, fun s w g a => ?words⟩
  case remainders =>
    obtain ⟨hnear, htie⟩ := quotNearest_remainder a hb
    obtain ⟨hzero, hzsign⟩ := tmod_range a hb
    obtain ⟨hfloor, hfsign⟩ := fmod_range a hb
    rw [Int.tmod_def] at hzero hzsign
    rw [Int.fmod_def] at hfloor hfsign
    exact ⟨hnear, htie, hzero, hzsign, hfloor, hfsign, natAbs_quotient_le (b := b) (by omega), natAbs_quotient_le hzero,
      natAbs_quotient_le hfloor⟩
  case byPower => rw [quotNearest_three_pow, sub_wrapInt_ediv]
  case words =>
    and_intros <;> exact fun h => computes3 h rfl rfl

end Sys2Proof.Machine
end

section
/-! Trits as logic, shifts, fields and counts (06_integer_instructions.md R139 to R142). -/

namespace Sys2Proof.Machine

/-! ## Trit functions (R139, Table 4) -/

theorem tritwise_eq (f : Int → Int → Int) (n : Nat) (a b : Int) :
    tritwise f n a b = tritString n fun i => f (tritAt a i) (tritAt b i) := rfl

/-- Two trit functions that agree on trits act alike. -/
theorem tritwise_congr {f f' : Int → Int → Int} (h : ∀ x y : Int, x.natAbs ≤ 1 → y.natAbs ≤ 1 → f x y = f' x y) :
    tritwise f = tritwise f' := by
  funext n a b
  simp only [tritwise, h _ _ (natAbs_tritAt_le _ _) (natAbs_tritAt_le _ _)]

/-- R139: the sum of two trits without its carry. -/
theorem tSum3_eq {x y : Int} (hx : x.natAbs ≤ 1) (hy : y.natAbs ≤ 1) :
    tSum3 x y = if x + y = 2 then -1 else if x + y = -2 then 1 else x + y := by
  have hmag : maxMag 1 = 1 := rfl
  rw [tSum3, wrapInt, hmag]
  split_ifs <;> omega

/-- Settles O3: each trit of the result is read back from the string that is built of the trits (tritAt_tritString). -/
theorem tritFunctionsByPosition : Obligations.TritFunctionsByPosition := by
  refine ⟨tritwise, fun f n a b hf => ?trits, fun s w g a => ?words⟩
  case trits =>
    have hle : ∀ i < n, (f (tritAt a i) (tritAt b i)).natAbs ≤ 1 := fun i _ => hf _ _ (natAbs_tritAt_le a i) (natAbs_tritAt_le b i)
    rw [tritwise_eq]
    exact ⟨natAbs_tritString_le hle, fun i hi => (tritAt_tritString hle i).trans (if_pos hi)⟩
  case words =>
    intro n sum3
    refine ⟨fun h => computes3 h rfl ?_, fun h => computes3 h rfl ?_, fun h => computes3 h rfl ?_, fun h => computes3 h rfl rfl,
      fun h => computes3 h rfl rfl⟩
    · rw [← minInt_eq_min]; rfl
    · rw [← maxInt_eq_max]; rfl
    · rw [← tritwise_congr fun x y hx hy => tSum3_eq hx hy]; rfl

/-! ## Shifts and rotations (R140) -/

/-- R140: a shift to the left of a string of n trits; a count below 0 shifts to the right. -/
theorem shiftLeft_eq {n : Nat} (u c : Int) : shiftLeft n u c =
    if c ≥ n ∨ c ≤ -(n : Int) then 0
    else if c ≥ 0 then wrapInt n (u * 3 ^ c.toNat) else (u - wrapInt (-c).toNat u) / 3 ^ (-c).toNat := by
  rw [shiftLeft, pow3, sub_wrapInt_ediv]
  exact if_congr (by omega) rfl rfl

/-- R140: a shift to the right of a string of n trits. -/
theorem shiftLeft_neg_eq {n : Nat} {u : Int} (hu : u.natAbs ≤ maxMag n) (c : Int) : shiftLeft n u (-c) =
    if c ≥ n ∨ c ≤ -(n : Int) then 0
    else if c ≥ 0 then (u - wrapInt c.toNat u) / 3 ^ c.toNat else wrapInt n (u * 3 ^ (-c).toNat) := by
  rw [shiftLeft_eq, neg_neg]
  refine if_congr (by omega) rfl ?_
  rcases lt_trichotomy c 0 with hc | rfl | hc
  · rw [if_pos (by omega), if_neg (by omega)]
  · rw [if_pos (by omega), if_pos le_rfl, sub_wrapInt_ediv, Int.neg_zero, Int.toNat_zero, pow_zero, mul_one, dropInt_zero,
      wrapInt_of_natAbs_le hu]
  · rw [if_neg (by omega), if_pos (by omega)]

theorem rotate_eq (n : Nat) (u c : Int) :
    rotate n u c = tritString n fun i => tritAt u ((i + n - (c % (n : Int)).toNat) % n) := rfl

/-- R140: a rotation moves trit i up by c places, around the n trits. -/
theorem tritAt_rotate {n i : Nat} (u c : Int) (hi : i < n) :
    tritAt (rotate n u c) ((i + (c % n).toNat) % n) = tritAt u i := by
  have hk : (c % (n : Int)).toNat < n := by
    have hlt := Int.emod_lt_of_pos c (b := n) (by omega)
    omega
  rw [rotate_eq, tritAt_tritString fun _ _ => natAbs_tritAt_le _ _, if_pos (Nat.mod_lt _ (by omega))]
  generalize (c % (n : Int)).toNat = k at hk
  have hback : ((i + k) % n + n - k) % n = i := by
    rcases Nat.lt_or_ge (i + k) n with h | h
    · rw [Nat.mod_eq_of_lt h, show i + k + n - k = i + n by omega, Nat.add_mod_right, Nat.mod_eq_of_lt hi]
    · rw [Nat.mod_eq_sub_mod h, Nat.mod_eq_of_lt (a := i + k - n) (by omega), show i + k - n + n - k = i by omega, Nat.mod_eq_of_lt hi]
  rw [hback]

/-! ## Fields (R141) -/

theorem extField_eq (u v : Int) : extField u v = tritString (fieldOf v).2.toNat fun i =>
    if (fieldOf v).1 + i < 27 then tritAt u ((fieldOf v).1 + i) else 0 := rfl

theorem insField_eq (d u v : Int) : insField d u v = tritString 27 fun i =>
    if (fieldOf v).1 ≤ i ∧ i < (fieldOf v).1 + (fieldOf v).2.toNat then tritAt u (i - (fieldOf v).1) else tritAt d i := rfl

theorem fieldOf_eq (v : Int) : fieldOf v = ((v % 27).toNat, Min.min ((v - v % 27) / 27) 27) := by rw [fieldOf, minInt_eq_min]

/-- R141: a field taken from u is the trits of u at it, and 0 above. -/
theorem extField_spec (u v : Int) : (extField u v).natAbs ≤ maxMag 27 ∧ ∀ i : Nat, i < 27 → tritAt (extField u v) i =
    if (i : Int) < (fieldOf v).2 ∧ (fieldOf v).1 + i < 27 then tritAt u ((fieldOf v).1 + i) else 0 := by
  have hlen : (fieldOf v).2.toNat ≤ 27 := by
    rw [fieldOf_eq]
    omega
  have hle : ∀ i < (fieldOf v).2.toNat, (if (fieldOf v).1 + i < 27 then tritAt u ((fieldOf v).1 + i) else 0).natAbs ≤ 1 := by
    intro i _
    split
    exacts [natAbs_tritAt_le _ _, Nat.zero_le _]
  rw [extField_eq]
  refine ⟨(natAbs_tritString_le hle).trans (maxMag_mono hlen), fun i _ => ?_⟩
  rw [tritAt_tritString hle, ← ite_and]
  exact if_congr (by omega) rfl rfl

/-- R141: a field placed into d holds the low trits of u, and d keeps the others. -/
theorem insField_spec (d u v : Int) : (insField d u v).natAbs ≤ maxMag 27 ∧ ∀ i : Nat, i < 27 → tritAt (insField d u v) i =
    if (fieldOf v).1 ≤ i ∧ (i : Int) < (fieldOf v).1 + (fieldOf v).2 then tritAt u (i - (fieldOf v).1) else tritAt d i := by
  have hle : ∀ i < 27, (if (fieldOf v).1 ≤ i ∧ i < (fieldOf v).1 + (fieldOf v).2.toNat then tritAt u (i - (fieldOf v).1)
      else tritAt d i).natAbs ≤ 1 := by
    intro i _
    split <;> exact natAbs_tritAt_le _ _
  rw [insField_eq]
  refine ⟨natAbs_tritString_le hle, fun i hi => ?_⟩
  rw [tritAt_tritString hle, if_pos hi]
  exact if_congr (by omega) rfl rfl

/-! ## The leading trit (R142) -/

/-- The trit at the leading position is not 0. -/
theorem tritAt_leadPos_ne_zero {v : Int} (hv : v ≠ 0) : 0 ≤ leadPos v ∧ tritAt v (leadPos v).toNat ≠ 0 := by
  have hpos : 0 < tritLen v := by
    rw [← not_le, tritLen_le_iff]
    exact fun h0 => hv (Int.natAbs_eq_zero.1 (Nat.le_zero.1 h0))
  obtain ⟨n, hn⟩ := Nat.exists_eq_succ_of_ne_zero hpos.ne'
  have hlead : leadPos v = n := by
    rw [leadPos, hn]
    omega
  have htop : (dropInt n v).natAbs ≤ maxMag 1 := natAbs_dropInt_le (tritLen_le_iff.1 (by omega))
  have hrest : ¬v.natAbs ≤ maxMag n := by
    rw [← tritLen_le_iff]
    omega
  rw [hlead, Int.toNat_natCast, tritAt, wrapInt_of_natAbs_le htop]
  refine ⟨Int.natCast_nonneg n, fun h0 => hrest ?_⟩
  have hsplit := wrapInt_add_dropInt n v
  rw [h0, zero_mul, add_zero] at hsplit
  exact hsplit ▸ natAbs_wrapInt_le n v

theorem tritAt_above_leadPos {v : Int} {i : Nat} (h : leadPos v < i) : tritAt v i = 0 :=
  tritAt_of_natAbs_le (tritLen_le_iff.1 (by
    rw [leadPos] at h
    omega))

/-! ## The words of the statement -/

/-- Settles O4: shifts by shiftLeft_eq, rotations by tritAt_rotate, fields by extField_spec and insField_spec, and the leading trit by
the least number of trits that hold the value (tritLen_le_iff). -/
theorem shiftFieldAndCountResults : Obligations.ShiftFieldAndCountResults := by
  refine ⟨fun s w g a => ?results, fun s w g a h => ⟨leadPos, fun v _ => ?leading, ?lead⟩,
    fun s w g a => ⟨fun _ => extField, insField, fun d u v => ?fields, ?ext, ?ins⟩⟩
  case results =>
    intro n up down
    refine ⟨?shl, ?shr, ?rot, ?cnt⟩
    case shl => exact fun h => computes3 h rfl (funext fun u => funext fun c => funext fun _ => congrArg plain (shiftLeft_eq u c))
    case shr => exact fun h => computes3_of_elems h rfl rfl fun u c _ hu => congrArg plain (shiftLeft_neg_eq hu c)
    case rot =>
      exact fun h => ⟨rotate n, fun u c => ⟨natAbs_tritString_le fun _ _ => natAbs_tritAt_le _ _, fun i hi => tritAt_rotate u c hi⟩,
        computes3 h rfl rfl⟩
    case cnt => exact fun h => computes3 h rfl rfl
  case leading =>
    split
    · next h0 => rw [h0]; rfl
    · next h0 =>
      obtain ⟨hpos, hne⟩ := tritAt_leadPos_ne_zero h0
      exact ⟨hpos, hne, fun i hi _ => tritAt_above_leadPos hi⟩
  case lead => exact computes2 h rfl rfl
  case fields =>
    obtain ⟨hext, htake⟩ := extField_spec u v
    obtain ⟨hins, hplace⟩ := insField_spec d u v
    rw [fieldOf_eq] at htake hplace
    exact ⟨hext, hins, fun i hi => ⟨htake i hi, hplace i hi⟩⟩
  case ext => exact fun h => runWord_done h rfl
  case ins => exact fun h => runWord_done h rfl

end Sys2Proof.Machine
end

section
/-! Tensor indices (06_integer_instructions.md R148 to R150): the coordinates of an index are its digits in the mixed radix of the
extents, so that the strides join them to it again. -/

namespace Sys2Proof.Machine

theorem stride_zero (sh : Shape) : sh.stride 0 = 1 := rfl

theorem stride_succ {sh : Shape} {i : Nat} (h : i < sh.extents.length) : sh.stride (i + 1) = sh.stride i * sh.extents[i] := by
  rw [Shape.stride, List.take_add_one, List.getElem?_eq_getElem h, Option.toList_some, List.foldl_append]
  rfl

theorem stride_length (sh : Shape) : sh.stride sh.extents.length = sh.product := by
  rw [Shape.stride, List.take_length]
  rfl

theorem stride_pos {sh : Shape} (he : ∀ e ∈ sh.extents, 1 ≤ e) {i : Nat} (hi : i ≤ sh.extents.length) : 0 < sh.stride i := by
  induction i with
  | zero => exact Int.one_pos
  | succ i ih =>
    rw [stride_succ hi]
    exact mul_pos (ih (Nat.le_of_succ_le hi)) (he _ (List.getElem_mem hi))

/-- The sum that R150 takes of coordinates and strides. -/
theorem joinIndex_eq (sh : Shape) (cs : List Int) : (joinIndex sh cs).2 =
    wrapInt 27 ((List.range sh.extents.length).map fun i => cs.getD i 0 * sh.stride i).sum := by
  rw [List.sum_eq_foldl]
  rfl

/-- R149: a coordinate within the rank. -/
theorem splitIndex_coord (sh : Shape) (v : Int) (hrank : sh.extents.length ≤ 5) {i : Nat} (h : i < sh.extents.length) :
    (splitIndex sh v).2.getD i 0 = v % sh.product / sh.stride i % sh.extents[i] := by
  simp [splitIndex, List.getD_eq_getElem?_getD, List.getElem?_map, List.getElem?_range (show i < 5 by omega), h]

/-- R149: a coordinate past the rank is 0. -/
theorem splitIndex_past (sh : Shape) (v : Int) {i : Nat} (h : sh.extents.length ≤ i) : (splitIndex sh v).2.getD i 0 = 0 := by
  rcases Nat.lt_or_ge i 5 with hi | hi
  · simp [splitIndex, List.getD_eq_getElem?_getD, List.getElem?_range hi, h]
  · simp [splitIndex, List.getD_eq_getElem?_getD, hi]

/-- The digits below place k make up the index modulo the stride of k. -/
theorem sum_digits {sh : Shape} (he : ∀ e ∈ sh.extents, 1 ≤ e) {digit : Nat → Int} {v : Int}
    (hdigit : ∀ i (h : i < sh.extents.length), digit i = v / sh.stride i % sh.extents[i]) {k : Nat} (hk : k ≤ sh.extents.length) :
    ((List.range k).map fun i => digit i * sh.stride i).sum = v % sh.stride k := by
  induction k with
  | zero => simp [stride_zero]
  | succ k ih =>
    have hpos := stride_pos he (Nat.le_of_succ_le hk)
    rw [List.range_succ, List.map_append, List.sum_append, ih (Nat.le_of_succ_le hk), stride_succ hk, List.map_singleton,
      List.sum_singleton, hdigit k hk]
    have hv := Int.mul_ediv_add_emod v (sh.stride k * sh.extents[k])
    have hlow := Int.mul_ediv_add_emod v (sh.stride k)
    have hdig := Int.mul_ediv_add_emod (v / sh.stride k) sh.extents[k]
    have hdiv : v / sh.stride k / sh.extents[k] = v / (sh.stride k * sh.extents[k]) := Int.ediv_ediv_of_nonneg hpos.le
    rw [hdiv] at hdig
    linear_combination hlow - hv + sh.stride k * hdig

/-- Settles O9: the coordinates are the digits of the index (sum_digits), each within its extent, and the index fits a word. -/
theorem joinUndoesSplit : Obligations.JoinUndoesSplit := by
  intro sh v hrank he hmax h0 hlt
  have hrest : v % sh.product = v := Int.emod_eq_of_lt h0 hlt
  have hcoord : ∀ i (h : i < sh.extents.length), (splitIndex sh v).2.getD i 0 = v / sh.stride i % sh.extents[i] := by
    intro i h
    rw [splitIndex_coord sh v hrank h, hrest]
  have hrange : ∀ i (h : i < sh.extents.length), 0 ≤ (splitIndex sh v).2.getD i 0 ∧ (splitIndex sh v).2.getD i 0 < sh.extents[i] := by
    intro i h
    have hpos : 0 < sh.extents[i] := he _ (List.getElem_mem h)
    rw [hcoord i h]
    exact ⟨Int.emod_nonneg _ hpos.ne', Int.emod_lt_of_pos _ hpos⟩
  refine ⟨?inRange, by simp [splitIndex], hrange, fun i h => splitIndex_past sh v h, Prod.ext ?joinRange ?joined⟩
  case inRange => rw [splitIndex, if_neg (by omega), if_neg (by omega)]
  case joinRange =>
    have habove : ∀ i ∈ List.range sh.extents.length,
        ¬decide ((splitIndex sh v).2.getD i 0 > sh.extents.getD i 1 - 1) = true := by
      intro i hi
      have h := List.mem_range.1 hi
      have hc := (hrange i h).2
      rw [List.getD_eq_getElem _ _ h, decide_eq_true_iff]
      omega
    have hunder : ∀ i ∈ List.range sh.extents.length, ¬decide ((splitIndex sh v).2.getD i 0 < 0) = true := by
      intro i hi
      have hc := (hrange i (List.mem_range.1 hi)).1
      rw [decide_eq_true_iff]
      omega
    rw [joinIndex, List.any_eq_false.2 habove, List.any_eq_false.2 hunder]
    rfl
  case joined =>
    rw [joinIndex_eq, sum_digits he hcoord le_rfl, stride_length, hrest]
    exact wrapInt_of_natAbs_le (by
      have hword : maxMag 27 = counterMax := by decide
      omega)

end Sys2Proof.Machine
end

section
/-! Arithmetic, predicates, moves and packing (06_integer_instructions.md R130 to R138, R143 to R147) and the words on tensor indices
(R148 to R150). -/

namespace Sys2Proof.Machine

/-! ## Arithmetic (R134 to R138) -/

/-- R13: the largest value of n trits. -/
theorem cast_maxMag (n : Nat) : (maxMag n : Int) = (3 ^ n - 1) / 2 := by
  have h := two_maxMag n
  have hcast : ((3 ^ n : Nat) : Int) = 3 ^ n := by push_cast; rfl
  omega

/-- R14: a sum is clamped to n trits. -/
theorem satInt_eq (n : Nat) (v : Int) : satInt n v =
    if v > (3 ^ n - 1) / 2 then ((3 ^ n - 1) / 2, { saturate := true })
    else if v < -((3 ^ n - 1) / 2) then (-((3 ^ n - 1) / 2), { saturate := true }) else (v, {}) := by
  rw [satInt, cast_maxMag]

/-- R138: the lower bound u of a CLAMP wins over its upper bound. -/
theorem fnClamp_eq (n : Nat) (u v d : Int) : fnClamp n u v d = plain (Max.max u (Min.min d v)) := by
  rw [fnClamp, maxInt_eq_max, minInt_eq_min]

/-- Settles O1: each word is its operation (computes3, computes2), of which satInt_eq, sub_wrapInt_ediv and the bounds say the value. -/
theorem integerArithmeticResults : Obligations.IntegerArithmeticResults := by
  refine ⟨fun s w g a => ?three, fun s w g a => ⟨fun h => computes2 h rfl rfl, fun h => computes2 h rfl rfl,
    fun h => computes2 h rfl rfl⟩⟩
  case three =>
    intro n top sat
    refine ⟨fun h => computes3 h rfl rfl, fun h => computes3 h rfl rfl, fun h => computes3 h rfl ?adds, fun h => computes3 h rfl ?subs,
      fun h => computes3 h rfl rfl, fun h => computes3 h rfl ?mulh, fun h => computes3 h rfl rfl, fun h => computes3 h rfl ?min,
      fun h => computes3 h rfl ?max, fun h => computes3 h rfl ?clamp⟩ <;> funext u v d
    case adds => exact satInt_eq _ _
    case subs => exact satInt_eq _ _
    case mulh => exact congrArg plain (sub_wrapInt_ediv _ _).symm
    case min => rw [minInt_eq_min]; rfl
    case max => rw [maxInt_eq_max]; rfl
    case clamp => exact fnClamp_eq _ u v d

/-! ## Predicates and selection (R143 to R145) -/

/-- R145, Table 5. -/
theorem psetTrit_eq (fn : PsetFn) (x y : Int) : psetTrit fn x y = match fn with
    | .copy => y
    | .tmin => Min.min x y
    | .tmax => Max.max x y
    | .tprd => x * y
    | .tcns => if x = y then x else 0
    | .tsum3 => wrapInt 1 (x + y)
    | .neg => -y := by
  cases fn
  case tmin => exact congrFun (congrFun minInt_eq_min x) y
  case tmax => exact congrFun (congrFun maxInt_eq_max x) y
  all_goals rfl

/-- Settles O5: CMP, TST and SEL3 by their effects, and PSET by Table 5 (psetTrit_eq). -/
theorem predicateAndSelectResults : Obligations.PredicateAndSelectResults := by
  refine ⟨fun s w g a => ⟨fun h => runWord_done h rfl, fun h => runWord_done h rfl⟩, fun s w g a h => runWord_done h rfl,
    fun s w g a h => ?pset⟩
  case pset =>
    refine runWord_done h ?_
    simp only [psetTrit_eq]
    rfl

/-! ## Moves, literals, conversion and packing (R130 to R133, R146, R147) -/

theorem fld_part (n : Nat) (v : Int) (j : Nat) (hn : 0 < n) : fld v (n * j) (n * j + (n - 1)) = wrapInt n (dropInt (n * j) v) := by
  rw [fld, show n * j + (n - 1) - n * j + 1 = n by omega]

theorem tryteOf_eq (v : Int) (j : Nat) : tryteOf v j = wrapInt 9 (dropInt (9 * j) v) := fld_part 9 v j (by decide)

/-- A value clamped to the trits of N3. -/
def clipN3 (v : Int) : Int := Max.max (-13) (Min.min v 13)

/-- R14: a value that is clamped to three trits raises saturate where it differs. -/
theorem satInt_three (v : Int) : satInt 3 v = (clipN3 v, { saturate := clipN3 v != v }) := by
  have hmag : maxMag 3 = 13 := rfl
  rw [satInt, hmag]
  split_ifs with hhi hlo
  · have hclip : clipN3 v = 13 := by unfold clipN3; omega
    rw [hclip, bne_iff_ne.2 (by omega)]
    rfl
  · have hclip : clipN3 v = -13 := by unfold clipN3; omega
    rw [hclip, bne_iff_ne.2 (by omega)]
    rfl
  · have hclip : clipN3 v = v := by unfold clipN3; omega
    rw [hclip, bne_self_eq_false]

/-- R147: the trytes of a word, each clamped, in one tryte. -/
theorem packN3_eq (v : Int) : packN3 v =
    (clipN3 (tryteOf v 0) + 27 * clipN3 (tryteOf v 1) + 729 * clipN3 (tryteOf v 2),
      { saturate := clipN3 (tryteOf v 0) != tryteOf v 0 || clipN3 (tryteOf v 1) != tryteOf v 1 ||
          clipN3 (tryteOf v 2) != tryteOf v 2 }) := by
  simp only [packN3, satInt_three]
  rfl

/-- Settles O6: a tryte is the nine trits at its place (tryteOf_eq), a packed tryte its three clamped trytes (packN3_eq), and the word
of a MOVI comes from the lowest active lane. -/
theorem moveAndPackResults : Obligations.MoveAndPackResults := by
  refine ⟨fun s w g a h => runWord_done h rfl, fun s w g a h l ls hactive => ?movi, fun s w g a h hactive => ?moviIdle,
    fun s w g a h => runWord_done h rfl, fun s w g p h old hold => ?lit, fun s w g p => rfl, fun s w g a => ?cvtw,
    fun s w g a => ?pack⟩
  case movi =>
    refine runWord_done h ?_
    simp only [Issue.putS, Issue.low, hactive]
    rfl
  case moviIdle =>
    refine runWord_done h ?_
    simp only [Issue.putS, hactive]
  case lit =>
    refine runWord_done h ?_
    simp only [litStep, hold]
    cases (s.issueOf w g (.lit p)).again <;> rfl
  case cvtw =>
    intro tryte sat
    refine ⟨fun hkind h => runWord_done h ?widen, fun hkind h => runWord_done h ?wrap, fun hkind h => runWord_done h ?sat⟩ <;>
      simp only [hkind]
    case widen => simp only [tryteOf_eq]; rfl
    case wrap => rfl
    case sat => rfl
  case pack =>
    intro part clip
    refine ⟨fun h => runWord_done h ?pack3, fun h => runWord_done h ?unpk3, fun h => runWord_done h ?splat⟩
    case pack3 => simp only [packN3_eq, tryteOf_eq]; rfl
    case unpk3 =>
      have hpart : ∀ (t : Int) (j : Nat), fld t (3 * j) (3 * j + 2) = wrapInt 3 (dropInt (3 * j) t) := fun t j =>
        fld_part 3 t j (by decide)
      simp only [hpart, tryteOf_eq]
      rfl
    case splat => simp only [tryteOf_eq]; rfl

/-! ## Tensor indices (R148 to R150) -/

/-- Settles O8: each word's effect reads the shapes once and writes the coordinates, or the index, that splitIndex and joinIndex
give. -/
theorem tensorIndexResults : Obligations.TensorIndexResults :=
  fun _ _ _ _ => ⟨fun h => runWord_done h rfl, fun h => runWord_done h rfl⟩

end Sys2Proof.Machine
end

section
/-! The domain edges of division, of the roots and of the functions (07_float_instructions.md R166, R167): where an operand is 0, an
infinity or a value outside the domain, the first branches of each function give the result. -/

namespace Sys2Proof.Machine

/-! ## Special results (R21, R26) -/

section
variable {f : Fmt} (hpolicy : f.policy = .infnan)
include hpolicy

/-- R26: a format with infinities holds them, without a flag. -/
theorem Fmt.round_inf (neg sticky : Bool) : f.round (.inf neg) sticky = (f.infCode neg, {}) := by
  simp only [Fmt.round, hpolicy]

/-! ## Quotients -/

theorem fnDiv_by_zero {m : Int} (hm : m ≠ 0) (e k : Int) :
    fnDiv f (.fin m e) (.fin 0 k) = (f.infCode (m < 0), { divzero := true }) := by
  rw [fnDiv, if_pos rfl, if_neg hm, Fmt.round_inf hpolicy]

theorem fnDiv_of_inf (neg : Bool) (m e : Int) : fnDiv f (.inf neg) (.fin m e) = (f.infCode (neg != decide (m < 0)), {}) :=
  Fmt.round_inf hpolicy _ false

/-- A zero has no sign, so that the infinity keeps its own. -/
theorem fnDiv_inf_by_zero (neg : Bool) (k : Int) : fnDiv f (.inf neg) (.fin 0 k) = (f.infCode neg, {}) := by
  have hsign : (neg != decide ((0 : Int) < 0)) = neg := Bool.xor_false neg
  rw [fnDiv_of_inf hpolicy, hsign]

/-! ## Roots, logarithms and powers at 0 and at the infinities -/

theorem fnRsqrt_zero (e : Int) : fnRsqrt f (.fin 0 e) = (f.infCode false, {}) := Fmt.round_inf hpolicy false false

theorem fnLog_zero (op c : Int) (base3 : Bool) (e : Int) (n : Nat) :
    fnLog f op c base3 (.fin 0 e) n = some (f.infCode true, {}) :=
  congrArg some (Fmt.round_inf hpolicy true false)

theorem fnExp_inf (op c : Int) (base3 : Bool) (n : Nat) : fnExp f op c base3 (.inf false) n = some (f.infCode false, {}) :=
  congrArg some (Fmt.round_inf hpolicy false false)

end

theorem fnExp_neg_inf (f : Fmt) (op c : Int) (base3 : Bool) (n : Nat) : fnExp f op c base3 (.inf true) n = some (0, {}) := rfl

/-! ## Values below the domain -/

section
variable {m : Int} (hneg : m < 0)
include hneg

theorem fnSqrt_of_neg (f : Fmt) (e : Int) : fnSqrt f (.fin m e) = invalidResult f := by
  rw [fnSqrt, if_neg hneg.ne, if_pos hneg, invalidResult]

theorem fnRsqrt_of_neg (f : Fmt) (e : Int) : fnRsqrt f (.fin m e) = invalidResult f := by
  rw [fnRsqrt, if_neg hneg.ne, if_pos hneg, invalidResult]

theorem fnLog_of_neg (f : Fmt) (op c : Int) (base3 : Bool) (e : Int) (n : Nat) :
    fnLog f op c base3 (.fin m e) n = some (invalidResult f) := by
  rw [fnLog, if_neg hneg.ne, if_pos hneg, invalidResult]

end

/-! ## The edges of TF27 and TF81 -/

theorem longFormat_policy : ∀ f ∈ [tf27, tf81], f.policy = .infnan := by decide

/-- 1 is a value of both formats, which its rounding keeps exactly. -/
theorem round_one : ∀ f ∈ [tf27, tf81], f.round (.fin 1 0) false = (f.code (.fin 1 0), {}) := by decide +kernel

theorem fnExp_zero {f : Fmt} (hf : f ∈ [tf27, tf81]) (op c : Int) (base3 : Bool) (e : Int) (n : Nat) :
    fnExp f op c base3 (.fin 0 e) n = some (f.code (.fin 1 0), {}) :=
  congrArg some (round_one f hf)

/-- Settles O14: the formats hold infinities (longFormat_policy), and each edge is met before a function is computed. -/
theorem functionEdges : Obligations.FunctionEdges := by
  intro f hf m e c k b n hm
  have hpolicy := longFormat_policy f hf
  exact ⟨fnDiv_by_zero hpolicy hm e k, rfl, rfl, rfl, rfl, fnDiv_inf_by_zero hpolicy b k,
    fun hneg => ⟨fnSqrt_of_neg hneg f e, fnRsqrt_of_neg hneg f e, fnLog_of_neg hneg f 40 c true e n, fnLog_of_neg hneg f 25 c false e n⟩,
    rfl, fnRsqrt_zero hpolicy e, rfl, fnLog_zero hpolicy 40 c true e n, fnLog_zero hpolicy 25 c false e n,
    fnExp_neg_inf f 26 c false n, fnExp_neg_inf f 39 c true n, fnExp_inf hpolicy 26 c false n, fnExp_inf hpolicy 39 c true n,
    fnDiv_of_inf hpolicy b m e, fnExp_zero hf 26 c false e n⟩

end Sys2Proof.Machine
end

section
/-! Floating words of fixed latency (07_float_instructions.md R153 to R165, R168): each is one operation on the values that its
operands decode to, in the format of its type (tyFmt_eq). -/

namespace Sys2Proof.Machine

section
variable {s : State} {w : Workgroup} {g : Group} {i : Instr}

/-! ## The outcome of a float word (R117, R153) -/

/-- A word whose effect writes elements of its destination. -/
theorem writesLanes_of_putAll {eff : Issue → Eff} {ty : Ty} {d : Reg} {v : Issue → Nat → Nat → Int × Flags} (h : Issues s w g i)
    (hexec : exec i s = runWord i s eff)
    (heff : eff (s.issueOf w g i) = (s.issueOf w g i).putAll ty d (v (s.issueOf w g i))) : WritesLanes s w g i ty d v :=
  hexec.trans (runWord_done h heff)

/-- A word of three operands computes what its operation gives for the values that they decode to. -/
theorem computes3_float {a : Op3} {op : Fmt → FVal → FVal → FVal → Int × Flags} {f : Fmt} {v : Int → Int → Int → Int × Flags}
    (hfmt : f = tyFmt a.ty) (h : Issues s w g i) (hexec : exec i s = runWord i s (·.float3 a op))
    (hop : ∀ u b d, op f (f.decode u) (f.decode b) (f.decode d) = v u b d) : Computes3 s w g i a v := by
  subst hfmt
  refine writesLanes_of_putAll h hexec ?_
  simp only [Issue.float3, hop]

/-- A word of one operand computes what its operation gives for the code of it. -/
theorem computes2_float {a : Op2} {op : Fmt → Int → Int × Flags} {f : Fmt} {v : Int → Int × Flags} (hfmt : f = tyFmt a.ty)
    (h : Issues s w g i) (hexec : exec i s = runWord i s (·.float2 a op)) (hop : op f = v) : Computes2 s w g i a v := by
  subst hfmt hop
  exact writesLanes_of_putAll h hexec rfl

end

/-! ## Arithmetic and comparison (R155 to R160) -/

/-- R156: a fused product and sum, by what decides it: a NaN operand, a product without a value, or else the exact sum. -/
theorem finish_fusedValue (f : Fmt) (u v d : FVal) : finish f (fusedValue u v d) =
    if u.isNan || v.isNan || d.isNan then finish f (.nan, false)
    else if (u.mul v).2 then finish f (.nan, true) else finish f ((u.mul v).1.add d) := by
  rw [← apply_ite (finish f), ← apply_ite (finish f)]
  rfl

/-- R159: a NaN operand compares as 0 and is invalid. -/
theorem compareTrit_eq (u v : FVal) :
    compareTrit u v = (if u.isNan || v.isNan then 0 else u.cmp v, u.isNan || v.isNan) := by
  unfold compareTrit
  cases u.isNan || v.isNan <;> rfl

/-- Settles O11: each word is one operation on decoded values (computes3_float, computes2_float), FMA by the cases of
finish_fusedValue and FCMP by compareTrit_eq. -/
theorem floatArithmeticResults : Obligations.FloatArithmeticResults := by
  refine ⟨fun s w g a => ?three, fun s w g a => ?two, fun s w g a h => ?fcmp⟩
  case three =>
    intro f once val
    have hfmt : f = tyFmt a.ty := tyFmt_eq _
    exact ⟨fun h => computes3_float hfmt h rfl fun _ _ _ => rfl, fun h => computes3_float hfmt h rfl fun _ _ _ => rfl,
      fun h => computes3_float hfmt h rfl fun _ _ _ => rfl, fun h => computes3_float hfmt h rfl fun _ _ _ => finish_fusedValue f _ _ _,
      fun h => computes3_float hfmt h rfl fun _ _ _ => rfl, fun h => computes3_float hfmt h rfl fun _ _ _ => rfl⟩
  case two =>
    intro f
    have hfmt : f = tyFmt a.ty := tyFmt_eq _
    exact ⟨fun h => computes2_float hfmt h rfl rfl, fun h => computes2_float hfmt h rfl rfl, fun h => computes2_float hfmt h rfl rfl⟩
  case fcmp =>
    refine runWord_done h ?_
    simp only [compareTrit_eq, tyFmt_eq]

/-! ## Scaling, integral values and conversions (R161 to R165) -/

/-- R162: FCVT by its two types: trytes spread to words or triples, words or triples joined to trytes, or element to element. -/
theorem fcvt_results {s : State} {w : Workgroup} {g : Group} {a : FcvtArgs} (h : Issues s w g (.fcvt a)) :
    let conv (c : Int) : Int × Flags := convert (tyFmt a.src) (tyFmt a.ty) c
    (a.src = .f9 → a.ty ≠ .f9 → ChangesLanes s w g (.fcvt a) fun x l lane =>
      lane.spread (a.ty == .f81) a.d.num (x.pred l) fun j => conv (tryteOf (x.reg a.a l).val j)) ∧
    (a.src ≠ .f9 → a.ty = .f9 → WritesLanes s w g (.fcvt a) .f9 a.d fun x l j => conv (joinedCode a x l j)) ∧
    ((a.src = .f9 ↔ a.ty = .f9) → WritesLanes s w g (.fcvt a) a.ty a.d fun x l j => conv (x.elem a.src a.a l j)) := by
  refine ⟨fun hsrc hty => runWord_done h (if_pos ⟨hsrc, hty⟩), fun hsrc hty => ?join, fun hiff => ?each⟩
  case join =>
    have hspread : ¬(a.src = .f9 ∧ a.ty ≠ .f9) := fun ⟨h9, _⟩ => hsrc h9
    exact runWord_done h ((if_neg hspread).trans (if_pos ⟨hsrc, hty⟩))
  case each =>
    have hspread : ¬(a.src = .f9 ∧ a.ty ≠ .f9) := fun ⟨hsrc, hty⟩ => hty (hiff.1 hsrc)
    have hjoin : ¬(a.src ≠ .f9 ∧ a.ty = .f9) := fun ⟨hsrc, hty⟩ => hsrc (hiff.2 hty)
    exact runWord_done h ((if_neg hspread).trans (if_neg hjoin))

/-- Settles O12: scalings and conversions by their effects, FCVT by its types (fcvt_results), and BCVT by its format and direction. -/
theorem floatConversionResults : Obligations.FloatConversionResults := by
  refine ⟨fun s w g a => ?scale, fun s w g a => ?integral, fun s w g a h => ?fcvt, fun s w g a h => writesLanes_of_putAll h rfl rfl,
    fun s w g a h => writesLanes_of_putAll h rfl rfl, fun s w g a h => ?bcvt⟩
  case scale =>
    intro f
    have hfmt : tyFmt a.ty = f := (tyFmt_eq _).symm
    refine ⟨fun h => writesLanes_of_putAll h rfl ?_, fun h => writesLanes_of_putAll h rfl ?_⟩ <;> rw [hfmt]
  case integral =>
    intro f
    have hfmt : f = tyFmt a.ty := tyFmt_eq _
    exact ⟨fun h => computes2_float hfmt h rfl rfl, fun h => computes2_float hfmt h rfl rfl, fun h => computes2_float hfmt h rfl rfl,
      fun h => computes2_float hfmt h rfl rfl⟩
  case fcvt =>
    obtain ⟨hspread, hjoin, heach⟩ := fcvt_results h
    intro conv n
    refine ⟨hspread, fun hsrc hty => ?triples, fun hsrc h81 hty => ?words, heach⟩
    case triples =>
      have hcode (x : Issue) (l j : Nat) : joinedCode a x l j = (x.g.lane l).rdTriple (n + 3 * j) := if_pos hsrc
      have hjoined := hjoin (by rw [hsrc]; nofun) hty
      simp only [hcode] at hjoined
      exact hjoined
    case words =>
      have hcode (x : Issue) (l j : Nat) : joinedCode a x l j = (x.greg (n + j) l).val := if_neg h81
      have hjoined := hjoin hsrc hty
      simp only [hcode] at hjoined
      exact hjoined
  case bcvt =>
    refine ⟨fun hfmt hin => writesLanes_of_putAll h rfl ?fp64In, fun hfmt hout => writesLanes_of_putAll h rfl ?fp64Out,
      fun hfmt hin => writesLanes_of_putAll h rfl ?wordIn, fun hfmt hout => writesLanes_of_putAll h rfl ?wordOut⟩
    case fp64In => simp only [hfmt, hin, if_true]
    case fp64Out => simp only [hfmt, hout, Bool.false_eq_true, if_true, if_false]
    case wordIn => simp only [hfmt, hin, if_true, if_false]
    case wordOut => simp only [hfmt, hout, Bool.false_eq_true, if_false]

end Sys2Proof.Machine
end

section
/-! CALLI (08_control_and_lane_instructions.md R175, R176): the lanes it releases go to their targets or trap, and where the lanes
part a call record holds those of the higher targets. -/

namespace Sys2Proof.Machine

theorem leastInt_mem {xs : List Int} (h : xs ≠ []) : leastInt xs ∈ xs := by
  obtain ⟨v, vs, rfl⟩ := List.exists_cons_of_ne_nil h
  simp only [leastInt]
  clear h
  induction vs generalizing v with
  | nil => simp
  | cons u us ih =>
    rw [List.foldl_cons]
    split
    · exact List.mem_cons_of_mem v (ih u)
    · exact List.cons_subset_cons v (List.subset_cons_self u us) (ih v)

/-- Two updates of one group are one. -/
theorem updGroup_updGroup {s : State} {r : GroupRef} {f f' : Group → Group} (hf : ∀ k, (f k).ref = k.ref) :
    (s.updGroup r f).updGroup r f' = s.updGroup r fun k => f' (f k) := by
  have hparts (k : Group) : (f k).wg = k.wg ∧ (f k).hw = k.hw := by simpa [Group.ref] using hf k
  simp only [State.updGroup, List.map_map]
  congr 1
  refine List.map_congr_left fun k _ => ?_
  by_cases hk : (k.wg == r.wg && k.hw == r.hw) = true
  · simp only [Function.comp_apply, hk, if_true, hparts]
  · simp only [Function.comp_apply, hk, if_false, Bool.false_eq_true]

/-! ## Targets (R176) -/

/-- The cause of a target that is no multiple of 3. -/
def missCause (t : Int) : Nat := if t % 3 = 1 then 12 else 23

theorem tritAt_zero (t : Int) : tritAt t 0 = (t + 1) % 3 - 1 := by simp [tritAt, wrapInt, dropInt, maxMag]

theorem targetCause_none {t : Int} (h : t % 3 = 0) : targetCause t = none := by
  rw [targetCause, tritAt_zero, if_neg (by omega), if_neg (by omega)]

theorem targetCause_some {t : Int} (h : t % 3 ≠ 0) : targetCause t = some (missCause t) := by
  rw [targetCause, tritAt_zero, missCause]
  by_cases h1 : t % 3 = 1
  · rw [if_pos h1, if_pos (by omega)]
  · rw [if_neg h1, if_neg (by omega), if_pos (by omega)]

section
variable (ls : List Nat) (goal : Nat → Int)

/-- What is made of the lanes whose targets fail, and of their causes. -/
theorem filterMap_targetCause {β : Type} (f : Nat × Int → Nat → β) :
    (ls.map fun l => (l, goal l)).filterMap (fun e => (targetCause e.2).map (f e)) =
      (ls.filter fun l => goal l % 3 != 0).map fun l => f (l, goal l) (missCause (goal l)) := by
  induction ls with
  | nil => rfl
  | cons l ls ih =>
    by_cases hl : goal l % 3 = 0
    · rw [List.map_cons, List.filterMap_cons_none (by rw [targetCause_none hl]; rfl), ih, List.filter_cons_of_neg (by simpa using hl)]
    · rw [List.map_cons, List.filterMap_cons_some (by rw [targetCause_some hl]; rfl), ih, List.filter_cons_of_pos (by simpa using hl)]
      rfl

theorem filter_targetCause_isNone : (ls.map fun l => (l, goal l)).filter (fun e => (targetCause e.2).isNone) =
    (ls.filter fun l => goal l % 3 == 0).map fun l => (l, goal l) := by
  rw [List.filter_map]
  congr 1
  refine List.filter_congr fun l _ => ?_
  by_cases hl : goal l % 3 = 0
  · simp only [Function.comp_apply, targetCause_none hl, hl, Option.isNone_none, beq_self_eq_true]
  · simp only [Function.comp_apply, targetCause_some hl, Option.isNone_some, beq_eq_false_iff_ne.2 hl]

end

/-! ## The release of lanes (R175, R176) -/

/-- A group whose released lanes stand at their targets, and the lanes that fell through at the next word. -/
def Issue.moved (x : Issue) (ls fell : List Nat) (goal : Nat → Int) (h : Group) : Group :=
  (h.updLanes ls fun l lane => { lane with pc := Word.ofInt (goal l) }).updLanes fell fun _ lane =>
    { lane with pc := Word.ofInt (x.at_ 1) }

theorem moved_run (x : Issue) (ls fell : List Nat) (goal : Nat → Int) (h : Group) : (x.moved ls fell goal h).run = h.run :=
  (updLanes_run ..).trans (updLanes_run ..)

/-- A group that goes on with some lanes. -/
def Group.goesWith (h : Group) (ls : List Nat) : Group := { h with run := { h.run with active := ls } }

/-- The lanes with which the run goes on: those of the least target, and of those that fell through where that is the next word (log 22). -/
def Issue.onward (x : Issue) (ls fell : List Nat) (goal : Nat → Int) (least : Int) : List Nat :=
  x.active.filter fun l =>
    if ls.isEmpty then fell.contains l else (ls.contains l && goal l == least) || (fell.contains l && x.at_ 1 == least)

/-- The fault of lanes whose targets fail, with the cause of the first. -/
def Issue.missed (x : Issue) (goal : Nat → Int) (cause : Nat) (bad : List Nat) : Fail :=
  { cause := cause, lanes := bad.map fun l => (l, missCause (goal l)), issued := true, pc := some x.pc, set := some bad
    cap := bad.map fun l => { PendLane.new l (x.pred l) with addr := goal l } }

section
variable {x : Issue} {s0 t : State} {ls fell : List Nat} {goal : Nat → Int}

theorem foldl_moves (h : Group) : ((ls.map fun l => (l, goal l)) ++ fell.map fun l => (l, x.at_ 1)).foldl
    (fun g e => g.updLane e.1 fun l => { l with pc := Word.ofInt e.2 }) h = x.moved ls fell goal h := by
  simp only [List.foldl_append, List.foldl_map, Issue.moved, Group.updLanes]

/-- R176: lanes whose targets fail trap, in a state in which the others have moved. -/
theorem release_traps {l : Nat} {more : List Nat} (hbad : (ls.filter fun l => goal l % 3 != 0) = l :: more) :
    x.release s0 t fell (ls.map fun l => (l, goal l)) =
      .trapIn (s0.updGroup x.r (x.moved (ls.filter fun l => goal l % 3 == 0) fell goal))
        (x.missed goal (missCause (goal l)) (ls.filter fun l => goal l % 3 != 0)) := by
  simp only [Issue.release, filterMap_targetCause, filter_targetCause_isNone, foldl_moves, hbad, List.map_cons, List.map_map,
    Issue.missed, Function.comp_def, List.map_id']

/-- R175: lanes whose targets are sound move, and the run goes on with those of the least. -/
theorem release_moves (hgood : ∀ l ∈ ls, goal l % 3 = 0) :
    x.release s0 t fell (ls.map fun l => (l, goal l)) =
      .done (t.updGroup x.r fun h => (x.moved ls fell goal h).goesWith (x.onward ls fell goal (leastInt (ls.map goal)))) := by
  have hbad : (ls.filter fun l => goal l % 3 != 0) = [] := List.filter_eq_nil_iff.2 fun l hl => by simp [hgood l hl]
  have hall : (ls.filter fun l => goal l % 3 == 0) = ls := List.filter_eq_self.2 fun l hl => by simp [hgood l hl]
  simp only [Issue.release, filterMap_targetCause, filter_targetCause_isNone, foldl_moves, hbad, hall, List.map_nil]
  have hon : x.active.filter (if (ls.map fun l => (l, goal l)).isEmpty then fell else
      ((((ls.map fun l => (l, goal l)) ++ fell.map fun l => (l, x.at_ 1)).filter fun e =>
        e.2 == leastInt ((ls.map fun l => (l, goal l)).map (·.2))).map (·.1))).contains =
      x.onward ls fell goal (leastInt (ls.map goal)) := by
    refine List.filter_congr fun l _ => ?_
    cases ls with
    | nil => rfl
    | cons m ms =>
      simp only [List.map_map, Function.comp_def, List.isEmpty_map, List.isEmpty_cons, Bool.false_eq_true, if_false]
      rw [Bool.eq_iff_iff]
      simp [List.filter_append, List.filter_map, Function.comp_def, -List.map_cons, -List.mem_cons]
  simp only [hon, Group.goesWith, moved_run]

end

/-! ## The three ways of a CALLI (R175, R375) -/

/-- The link of a CALLI in the lanes it selects. -/
def Issue.linked (x : Issue) (a : CalliArgs) (sel : List Nat) (h : Group) : Group :=
  h.updLanes sel fun _ lane => lane.wr a.d (Word.ofInt (x.at_ 1))

/-- A group whose CALLI has opened a record: the lanes of the higher targets are held. -/
def Issue.opened (x : Issue) (a : CalliArgs) (sel : List Nat) (goal : Nat → Int) (h : Group) : Group :=
  let wait := sel.filter fun l => goal l != leastInt (sel.map goal)
  let held := (x.linked a sel h).updLanes wait fun _ lane => { lane with st := .held, pc := x.pc }
  { held with calls :=
      { word := wordOf x.i, payload := x.pay, ret := Word.ofInt (x.at_ 1), held := wait.map fun l => (l, Word.ofInt (goal l)),
        out := sel.filter fun l => goal l == leastInt (sel.map goal), parked := [] } :: held.calls }

theorem linked_ref (x : Issue) (a : CalliArgs) (sel : List Nat) (h : Group) : (x.linked a sel h).ref = h.ref := updLanes_ref ..

theorem opened_ref (x : Issue) (a : CalliArgs) (sel : List Nat) (goal : Nat → Int) (h : Group) :
    (x.opened a sel goal h).ref = h.ref := (updLanes_ref ..).trans (linked_ref ..)

section
variable {x : Issue} {a : CalliArgs} {sel fell : List Nat} {goal : Nat → Int}
  (hgoal : ∀ l, goal l = wrapInt 27 ((x.reg a.a l).val + 3 * x.src a.b l))
include hgoal

/-- A CALLI that opens a record releases the lanes of the least target, and one that opens none every lane it selects. -/
theorem callFresh_eq : x.callFresh a sel fell =
    if !(sel.filter fun l => goal l != leastInt (sel.map goal)).isEmpty && !x.w.kernel.reforming && decide (x.g.calls.length < 9) then
      x.release (x.s0.updGroup x.r (x.opened a sel goal)) (x.s.updGroup x.r (x.opened a sel goal)) fell
        ((sel.filter fun l => goal l == leastInt (sel.map goal)).map fun l => (l, goal l))
    else x.release (x.s0.updGroup x.r (x.linked a sel)) (x.s.updGroup x.r (x.linked a sel)) fell (sel.map fun l => (l, goal l)) := by
  simp only [Issue.callFresh, ← hgoal, List.partition_eq_filter_filter, List.filter_map, List.map_map, Function.comp_def,
    List.isEmpty_map, List.map_id']
  rfl

theorem callFresh_unrecorded (h : (sel.filter fun l => goal l != leastInt (sel.map goal)) = [] ∨ x.w.kernel.reforming = true ∨
      9 ≤ x.g.calls.length) :
    x.callFresh a sel fell = x.release (x.s0.updGroup x.r (x.linked a sel)) (x.s.updGroup x.r (x.linked a sel)) fell
      (sel.map fun l => (l, goal l)) := by
  refine (callFresh_eq hgoal).trans (if_neg ?_)
  rcases h with hwait | hmode | hfull
  · simp [hwait]
  · simp [hmode]
  · simp [Nat.not_lt.2 hfull]

theorem callFresh_recorded (hwait : (sel.filter fun l => goal l != leastInt (sel.map goal)) ≠ [])
    (hmode : x.w.kernel.reforming = false) (hroom : x.g.calls.length < 9) :
    x.callFresh a sel fell = x.release (x.s0.updGroup x.r (x.opened a sel goal)) (x.s.updGroup x.r (x.opened a sel goal)) fell
      ((sel.filter fun l => goal l == leastInt (sel.map goal)).map fun l => (l, goal l)) :=
  (callFresh_eq hgoal).trans (if_pos (by rw [hmode, List.isEmpty_eq_false_iff.2 hwait, decide_eq_true hroom]; rfl))

end

/-- R376: where a CALLI sends a lane: the target that it captured where it had issued, else the one that it computes. -/
def Issue.callGoal (x : Issue) (a : CalliArgs) (l : Nat) : Int :=
  match x.again with
  | some e => if e.issued then ((lanePart e.lanes l).map (·.addr)).getD 0 else wrapInt 27 ((x.reg a.a l).val + 3 * x.src a.b l)
  | none => wrapInt 27 ((x.reg a.a l).val + 3 * x.src a.b l)

/-- R375: whether a CALLI has not issued before. -/
def Issue.afresh (x : Issue) : Prop := x.again = none ∨ ∃ e, x.again = some e ∧ e.issued = false

section
variable {x : Issue} {a : CalliArgs}

theorem callGoal_afresh (h : x.afresh) (l : Nat) : x.callGoal a l = wrapInt 27 ((x.reg a.a l).val + 3 * x.src a.b l) := by
  rcases h with hnone | ⟨e, hagain, hnot⟩
  · simp only [Issue.callGoal, hnone]
  · simp only [Issue.callGoal, hagain, hnot, Bool.false_eq_true, if_false]

/-- R375: a CALLI that had not issued is as one issued afresh. -/
theorem calli_afresh (h : x.afresh) :
    x.calli a = x.callFresh a (x.active.filter x.selects) (x.active.filter fun l => !x.selects l) := by
  rcases h with hnone | ⟨e, hagain, hnot⟩
  · simp only [Issue.calli, hnone]
  · simp only [Issue.calli, hagain, hnot, Bool.false_eq_true, if_false]

/-- R376: a CALLI that had issued releases its lanes, and neither links nor opens a record. -/
theorem calli_reissued (h : ¬x.afresh) : x.calli a = x.release (x.s0.updGroup x.r id) (x.s.updGroup x.r id)
    (x.active.filter fun l => !x.selects l) ((x.active.filter x.selects).map fun l => (l, x.callGoal a l)) := by
  have hself (t : State) : t.updGroup x.r id = t := updGroup_self t x.r
  rw [hself, hself]
  cases hagain : x.again with
  | none => exact absurd (.inl hagain) h
  | some e =>
    have hissued : e.issued = true := by
      by_contra hnot
      exact h (.inr ⟨e, hagain, Bool.eq_false_of_not_eq_true hnot⟩)
    simp only [Issue.calli, Issue.callGoal, hagain, hissued, if_true]

end

/-- The lanes with which the run goes on where the lanes that do not select it fall through: every active lane where none selects it. -/
theorem onward_eq {x : Issue} {ls : List Nat} {goal : Nat → Int} {least : Int} (hls : ls.isEmpty = (x.active.filter x.selects).isEmpty) :
    x.onward ls (x.active.filter fun l => !x.selects l) goal least =
      if (x.active.filter x.selects).isEmpty then x.active
      else x.active.filter fun l => (ls.contains l && goal l == least) ||
        ((x.active.filter fun l => !x.selects l).contains l && x.at_ 1 == least) := by
  simp only [Issue.onward, hls]
  split
  case isTrue hnone =>
    rw [List.isEmpty_iff, List.filter_eq_nil_iff] at hnone
    exact List.filter_eq_self.2 fun l hl => by simp [hl, hnone l hl]
  case isFalse => rfl

/-- The lanes of the least target have no other. -/
theorem leastInt_map_filter {ls : List Nat} {goal : Nat → Int} (h : ls ≠ []) :
    (ls.filter fun l => goal l == leastInt (ls.map goal)) ≠ [] ∧
      leastInt ((ls.filter fun l => goal l == leastInt (ls.map goal)).map goal) = leastInt (ls.map goal) := by
  obtain ⟨l, hl, hleast⟩ := List.mem_map.1 (leastInt_mem (List.map_eq_nil_iff.not.2 h) : leastInt (ls.map goal) ∈ ls.map goal)
  have hne : (ls.filter fun l => goal l == leastInt (ls.map goal)) ≠ [] :=
    List.ne_nil_of_mem (List.mem_filter.2 ⟨hl, beq_iff_eq.2 hleast⟩)
  obtain ⟨m, hm, hmeq⟩ := List.mem_map.1 (leastInt_mem (List.map_eq_nil_iff.not.2 hne))
  exact ⟨hne, hmeq.symm.trans (beq_iff_eq.1 (List.mem_filter.1 hm).2)⟩

/-- Settles O16: a CALLI is one release of lanes (calli_reissued, callFresh_unrecorded, callFresh_recorded), and lanes whose targets are
sound move (release_moves). -/
theorem indirectCallsOpenRecords : Obligations.IndirectCallsOpenRecords := by
  unfold Obligations.IndirectCallsOpenRecords
  intro s w g a h x afresh goal sel fell least wait ret link move going haligned
  have hret : ret.val = x.at_ 1 := wrapInt_of_natAbs_le (natAbs_wrapInt_le 27 _)
  have hleaves : ∀ (ls : List Nat) (f : Group → Group), ls.isEmpty = sel.isEmpty → leastInt (ls.map goal) = least →
      (∀ l ∈ ls, l ∈ sel) → (∀ k, (f k).ref = k.ref) →
      x.calli a = x.release (x.s0.updGroup x.r f) (x.s.updGroup x.r f) fell (ls.map fun l => (l, goal l)) →
      Leaves s w g (.calli a) fun x => x.s.updGroup x.r fun h => going ls (move ls (f h)) := by
    intro ls f hempty hleast hsub hf heff
    have hon : x.onward ls fell goal least = if sel.isEmpty then x.active else
        x.active.filter fun l => (ls.contains l && goal l == least) || (fell.contains l && ret.val == least) :=
      hret ▸ onward_eq hempty
    refine runWord_done h (heff.trans ((release_moves fun l hl => haligned l (hsub l hl)).trans ?_))
    rw [updGroup_updGroup hf, hleast, hon]
    rfl
  refine ⟨fun hagain => ?reissued, fun hfresh hno => ?unrecorded, fun hfresh hwait hmode hroom => ?recorded⟩
  case reissued => exact hleaves sel id rfl rfl (fun _ => id) (fun _ => rfl) (calli_reissued hagain)
  case unrecorded =>
    exact hleaves sel (x.linked a sel) rfl rfl (fun _ => id) (linked_ref x a sel)
      ((calli_afresh hfresh).trans (callFresh_unrecorded (callGoal_afresh hfresh) hno))
  case recorded =>
    have hsel : sel ≠ [] := fun hsel => hwait (by simp only [wait, hsel, List.filter_nil])
    obtain ⟨hgo, hleast⟩ := leastInt_map_filter (goal := goal) hsel
    exact hleaves (sel.filter fun l => goal l == least) (x.opened a sel goal)
      ((List.isEmpty_eq_false_iff.2 hgo).trans (List.isEmpty_eq_false_iff.2 hsel).symm) hleast (fun l hl => List.mem_of_mem_filter hl)
      (opened_ref x a sel goal) ((calli_afresh hfresh).trans (callFresh_recorded (callGoal_afresh hfresh) hwait hmode hroom))

end Sys2Proof.Machine
end

section
/-! RNG, SREAD and SWRITE (08_control_and_lane_instructions.md R189, R190; 05_registers.md R120 to R123). -/

namespace Sys2Proof.Machine

/-- Settles O19: each of these words changes its active lanes as the model's own lane functions of these words say (advancesRng,
readsSpecial, writesSpecial) or writes one destination; SREAD of a group with nothing pending reads its flags as they are
(mayFlags_of_nil). -/
theorem specialRegistersReadAndWrite : Obligations.SpecialRegistersReadAndWrite := by
  unfold Obligations.SpecialRegistersReadAndWrite
  intro s w g
  refine ⟨fun a h => ?rng, fun a h hnil => ?sread, fun a h => ?sreadPredicate, fun a h => ?swrite, fun a h => ?swritePredicate⟩
  case rng => exact runWord_done (s' := (s.issueOf w g (.rng a)).eachLane (advancesRng a (s.issueOf w g (.rng a)))) h rfl
  case sread =>
    have hreads : exec (.sread a) s = runWord (.sread a) s fun x =>
        .done (x.mayFlags.2.updGroup x.r fun k => k.updLanes x.active (readsSpecial a x x.mayFlags.1)) := rfl
    refine hreads.trans (runWord_done h ?_)
    rw [mayFlags_of_nil hnil]
    rfl
  case sreadPredicate => exact runWord_done h rfl
  case swrite => exact runWord_done (s' := (s.issueOf w g (.swrite a)).eachLane (writesSpecial a (s.issueOf w g (.swrite a)))) h rfl
  case swritePredicate => exact runWord_done h rfl

end Sys2Proof.Machine
end

section
/-! Misaligned targets and addresses (08_control_and_lane_instructions.md R172, R176; 12_memory_instructions.md R269, R272, R273). -/

namespace Sys2Proof.Machine

/-! ## Places (R272, R273) -/

section
variable {s : State} {w : Workgroup} {sp : Space} {thread len : Nat} {k : AccKind} {addr : Int}

theorem aligned_eq_false (hlen : len ≠ 1) (h : addr % (len : Int) ≠ 0) : aligned len addr = false := by
  simp [aligned, hlen, h]

theorem resolve_misaligned (h : aligned len addr = false) : s.resolve w sp thread k len addr = .error 12 := by
  simp only [State.resolve, h, Bool.not_false, if_true]

/-- R236: an access that is refused for its alignment leaves nothing and walks nothing. -/
theorem refusedAccess_misaligned {who : Who} (h : aligned len addr = false) :
    s.refusedAccess who len addr = s ∧ s.walkFails who len addr = false := by
  simp [State.refusedAccess, State.walkFails, h]

theorem deny_ne_twelve (k : AccKind) : k.deny ≠ 12 := by cases k <;> decide

/-- R272: a tryte on chip is refused for its place and the kind of the access alone. -/
theorem resolve_tryte_ne_twelve (hsp : sp ≠ .virt) {c : Nat} (h : s.resolve w sp thread k 1 addr = .error c) : c ≠ 12 := by
  have hdeny : (Except.error k.deny : Except Nat (State × List Place)) = .error c → c ≠ 12 := by
    rintro ⟨⟩
    exact deny_ne_twelve k
  have haligned : aligned 1 addr = true := rfl
  simp only [State.resolve, haligned, Bool.not_true, Bool.false_eq_true, if_false, Place.span] at h
  cases sp with
  | virt => exact absurd rfl hsp
  | scr =>
    dsimp only at h
    split at h
    · cases h
    · split at h
      · cases h
      · exact hdeny h
  | priv =>
    dsimp only at h
    split at h
    · cases h
    · exact hdeny h
  | clu =>
    dsimp only at h
    split at h
    · exact hdeny h
    · split at h
      · cases h
      · split at h
        · cases h
        · exact hdeny h
  | chip =>
    dsimp only at h
    split at h
    · split at h
      · exact hdeny h
      · cases h
    · exact hdeny h

/-- The bound of the space in which an aligned access passes its checks whatever the state: the scratchpad run or a thread's own slice. -/
def Workgroup.bound (w : Workgroup) (sp : Space) : Option Int :=
  if sp = .scr then some (w.grans * 2187) else if sp = .priv then some w.kernel.priv else none

theorem resolve_within (ha : aligned len addr = true) {n : Int} (hn : w.bound sp = some n) (hlo : 0 ≤ addr) (hhi : addr + len ≤ n) :
    ∃ places, s.resolve w sp thread k len addr = .ok (s, places) := by
  cases sp with
  | scr =>
    obtain rfl : (w.grans * 2187 : Int) = n := by simpa [Workgroup.bound] using hn
    have hrun : 0 ≤ addr ∧ addr + len ≤ (w.runLen : Int) := ⟨hlo, by simpa [Workgroup.runLen, granule] using hhi⟩
    simp only [State.resolve, ha, Bool.not_true, Bool.false_eq_true, if_false, if_pos hrun, Place.span]
    exact ⟨_, rfl⟩
  | priv =>
    obtain rfl : (w.kernel.priv : Int) = n := by simpa [Workgroup.bound] using hn
    simp only [State.resolve, ha, Bool.not_true, Bool.false_eq_true, if_false, if_pos (And.intro hlo hhi), Place.span]
    exact ⟨_, rfl⟩
  | virt | clu | chip => simp [Workgroup.bound] at hn

end

/-! ## The checks of the elements of a word (R273) -/

section
variable {x : Issue} {s : State} {sp : Space} {k : AccKind} {wd : Width}

/-- Whether the element of a lane's part is misaligned. -/
def PendLane.misaligned (wd : Width) (p : PendLane) : Bool := p.pred.trit 0 == 1 && !aligned (widthLen wd) (elemAddr wd p 0)

/-- The failure of a misaligned element. -/
def PendLane.badAt (wd : Width) (p : PendLane) : Bad := ⟨p.lane, 12, elemAddr wd p 0⟩

theorem resolveElem_misaligned {p : PendLane} {r : Checked} (h : aligned (widthLen wd) (elemAddr wd p 0) = false)
    (hnew : ∀ b ∈ r.bad, b.lane ≠ p.lane) :
    x.resolveElem sp k wd p (s, r) 0 = (s, { r with bad := r.bad ++ [p.badAt wd] }) := by
  have hadd : addBad r.bad (p.badAt wd) = r.bad ++ [p.badAt wd] := if_neg (by simpa [PendLane.badAt] using hnew)
  obtain ⟨hleft, hwalk⟩ := refusedAccess_misaligned (s := s) (who := x.w.who) h
  simp only [Issue.resolveElem, resolve_misaligned h, hleft, hwalk, Bool.false_eq_true, if_false, ite_self]
  exact congrArg (fun bad => (s, { r with bad := bad })) hadd

theorem resolveElem_found {p : PendLane} {r : Checked} {places : List Place}
    (h : s.resolve x.w sp (x.g.lane p.lane).thread k (widthLen wd) (elemAddr wd p 0) = .ok (s, places)) :
    x.resolveElem sp k wd p (s, r) 0 = (s, { r with ok := r.ok ++ [⟨p.lane, 0, places⟩] }) := by
  simp only [Issue.resolveElem, h]

theorem activeElems_whole (hwd : wd ≠ .t) (p : Trits 3) : activeElems wd p = if p.trit 0 = 1 then [0] else [] := if_neg hwd

/-- The checks of parts of which each active element is misaligned or passes in any state: the state is as it was, and the
misaligned elements fail. -/
theorem foldl_resolveElem (hwd : wd ≠ .t) (ps : List PendLane) (hdistinct : (ps.map (·.lane)).Nodup)
    (hall : ∀ p ∈ ps, p.pred.trit 0 = 1 → aligned (widthLen wd) (elemAddr wd p 0) = true →
      ∃ places, s.resolve x.w sp (x.g.lane p.lane).thread k (widthLen wd) (elemAddr wd p 0) = .ok (s, places))
    (r : Checked) (hnew : ∀ b ∈ r.bad, ∀ p ∈ ps, b.lane ≠ p.lane) :
    ∃ ok, ps.foldl (fun acc p => (activeElems wd p.pred).foldl (x.resolveElem sp k wd p) acc) (s, r) =
      (s, { r with ok := ok, bad := r.bad ++ (ps.filter (·.misaligned wd)).map (·.badAt wd) }) := by
  induction ps generalizing r with
  | nil => exact ⟨r.ok, by simp⟩
  | cons p ps ih =>
    obtain ⟨hp, hdistinct⟩ := List.nodup_cons.1 hdistinct
    replace ih := ih hdistinct fun q hq => hall q (List.mem_cons_of_mem p hq)
    have hrest : ∀ b ∈ r.bad, ∀ q ∈ ps, b.lane ≠ q.lane := fun b hb q hq => hnew b hb q (List.mem_cons_of_mem p hq)
    rw [List.foldl_cons, activeElems_whole hwd]
    by_cases hon : p.pred.trit 0 = 1
    · rw [if_pos hon, List.foldl_cons, List.foldl_nil]
      cases ha : aligned (widthLen wd) (elemAddr wd p 0) with
      | true =>
        obtain ⟨places, hfound⟩ := hall p List.mem_cons_self hon ha
        have hgood : p.misaligned wd = false := by simp [PendLane.misaligned, ha]
        rw [resolveElem_found hfound, List.filter_cons_of_neg (by simp [hgood])]
        exact ih _ hrest
      | false =>
        have hbad : p.misaligned wd = true := by simp [PendLane.misaligned, hon, ha]
        rw [resolveElem_misaligned ha fun b hb => hnew b hb p List.mem_cons_self, List.filter_cons_of_pos hbad]
        obtain ⟨ok, hok⟩ := ih { r with bad := r.bad ++ [p.badAt wd] } (by
          intro b hb q hq
          rcases List.mem_append.1 hb with hb | hb
          · exact hrest b hb q hq
          · obtain rfl := List.mem_singleton.1 hb
            exact fun h => hp (List.mem_map.2 ⟨q, hq, h.symm⟩))
        exact ⟨ok, hok.trans (by simp)⟩
    · have hgood : p.misaligned wd = false := by simp [PendLane.misaligned, hon]
      rw [if_neg hon, List.foldl_nil, List.filter_cons_of_neg (by simp [hgood])]
      exact ih r hrest

end

/-! ## Words of which an element is misaligned (R236, R356) -/

/-- The part of a lane with its address and its data. -/
def Issue.part (x : Issue) (addr : Nat → Int) (d : Nat → Nat → Word) (l : Nat) : PendLane :=
  { PendLane.new l (x.pred l) with addr := addr l, d0 := d l 0, d1 := d l 1, d2 := d l 2 }

/-- The lanes for which a word makes an access: all that are active, or the lowest for a uniform word (R277). -/
def Issue.accessing (x : Issue) (one : Bool) : List Nat := if one then x.active.take 1 else x.active

/-- The lanes whose active elements are misaligned. -/
def Issue.misaligned (x : Issue) (one : Bool) (wd : Width) (addr : Nat → Int) : List Nat :=
  ((x.accessing one).filter fun l => (x.pred l).trit 0 == 1).filter fun l => addr l % (widthLen wd : Int) != 0

section
variable {x : Issue} {sp : Space} {k : AccKind} {wd : Width} {one : Bool} {addr : Nat → Int} {d : Nat → Nat → Word}

theorem memParts_fresh (h : x.again = none) (ls : List Nat) :
    x.memParts ls addr (d · 0) (d · 1) (d · 2) = ls.map (x.part addr d) := by
  simp only [Issue.memParts, Issue.captured, h]
  rfl

theorem acting_parts : acting one (x.active.map (x.part addr d)) = (x.accessing one).map (x.part addr d) := by
  cases one
  · rfl
  · exact List.map_take.symm

theorem elemAddr_part (hwd : wd ≠ .t) {l : Nat} (h : (addr l).natAbs ≤ maxMag 27) : elemAddr wd (x.part addr d l) 0 = addr l := by
  rw [elemAddr, if_neg hwd, add_zero]
  exact wrapInt_of_natAbs_le h

theorem aligned_whole (hwd : wd ≠ .t) (v : Int) : aligned (widthLen wd) v = (v % (widthLen wd : Int) == 0) := by
  cases wd with
  | t => exact absurd rfl hwd
  | w | f81 => rfl

/-- R273: the checks of a word of which each active element is misaligned, or lies within the scratchpad run or a thread's own slice,
change nothing, and the misaligned elements fail. -/
theorem resolveAll_misaligned (hwd : wd ≠ .t) (hrange : ∀ l, (addr l).natAbs ≤ maxMag 27) (hdistinct : x.active.Nodup)
    (hall : ∀ l ∈ (x.accessing one).filter fun l => (x.pred l).trit 0 == 1, addr l % (widthLen wd : Int) ≠ 0 ∨
      ∃ n, x.w.bound sp = some n ∧ 0 ≤ addr l ∧ addr l + (widthLen wd : Int) ≤ n) :
    ∃ ok, x.resolveAll x.s0 sp k wd ((x.accessing one).map (x.part addr d)) =
      (x.s0, ok, (x.misaligned one wd addr).map fun l => ⟨l, 12, addr l⟩) := by
  have haddr (l : Nat) : elemAddr wd (x.part addr d l) 0 = addr l := elemAddr_part hwd (hrange l)
  have hlanes : ((x.accessing one).map (x.part addr d)).map (·.lane) = x.accessing one := by
    rw [List.map_map]
    exact List.map_id' _
  have hnodup : (x.accessing one).Nodup := by
    unfold Issue.accessing
    split
    exacts [hdistinct.sublist (List.take_sublist ..), hdistinct]
  obtain ⟨ok, hok⟩ := foldl_resolveElem (x := x) (s := x.s0) (sp := sp) (k := k) hwd ((x.accessing one).map (x.part addr d))
    (hlanes.symm ▸ hnodup) (by
      intro p hp hon ha
      obtain ⟨l, hl, rfl⟩ := List.mem_map.1 hp
      rw [haddr] at ha ⊢
      rcases hall l (List.mem_filter.2 ⟨hl, beq_iff_eq.2 hon⟩) with hbad | ⟨n, hn, hlo, hhi⟩
      · exact absurd (by simpa [aligned_whole hwd] using ha) hbad
      · exact resolve_within ha hn hlo hhi) {} (by simp)
  refine ⟨ok, ?_⟩
  have hbad : (((x.accessing one).map (x.part addr d)).filter (·.misaligned wd)).map (·.badAt wd) =
      (x.misaligned one wd addr).map fun l => ⟨l, 12, addr l⟩ := by
    rw [List.filter_map, List.map_map, Issue.misaligned, List.filter_filter]
    have hwhich (l : Nat) : (x.part addr d l).misaligned wd = (addr l % (widthLen wd : Int) != 0 && (x.pred l).trit 0 == 1) := by
      rw [PendLane.misaligned, haddr, aligned_whole hwd, Bool.and_comm]
      rfl
    have hwhat (l : Nat) : (x.part addr d l).badAt wd = ⟨l, 12, addr l⟩ := by
      rw [PendLane.badAt, haddr]
      rfl
    simp only [Function.comp_def, hwhich, hwhat]
  simp only [Issue.resolveAll, hok, hbad, List.nil_append]

/-- R63: a word with an active element, of the lowest active lane where it is uniform, is active. -/
theorem anyActive_of_trit {l : Nat} (hl : l ∈ x.accessing x.i.uniform) (hon : (x.pred l).trit 0 = 1) : x.anyActive = true := by
  have hgoverns (byWord : Bool) : (if byWord then (x.pred l).trit 0 == 1
      else (x.pred l).trit 0 == 1 || (x.pred l).trit 1 == 1 || (x.pred l).trit 2 == 1) = true := by
    cases byWord <;> simp [hon]
  dsimp only [Issue.anyActive]
  generalize Option.getD _ _ = byWord
  revert hl
  cases x.i <;> exact fun hl => List.any_eq_true.2 ⟨l, hl, hgoverns byWord⟩

theorem results_fresh (h : x.again = none) : x.results = none := by simp only [Issue.results, h]

/-- The fault of a word of which elements are misaligned. -/
def Issue.misalignedFault (x : Issue) (one : Bool) (wd : Width) (addr : Nat → Int) (d : Nat → Nat → Word) : Fail :=
  { cause := 12, addr := addr ((x.misaligned one wd addr).headD 0), lanes := (x.misaligned one wd addr).map fun l => (l, 12)
    slot := true, issued := true, cap := x.active.map (x.part addr d) }

/-- R236, R273: a word of which elements are misaligned is active, its checks refuse those elements, and it takes its count. -/
theorem misaligned_refused {slot : Nat} (hslot : x.i.slotOf = some slot) (huniform : x.i.uniform = one) (hwd : wd ≠ .t)
    (hrange : ∀ l, (addr l).natAbs ≤ maxMag 27) (hbad : x.misaligned one wd addr ≠ []) (hdistinct : x.active.Nodup)
    (hfresh : x.again = none)
    (hall : ∀ l ∈ (x.accessing one).filter fun l => (x.pred l).trit 0 == 1, addr l % (widthLen wd : Int) ≠ 0 ∨
      ∃ n, x.w.bound sp = some n ∧ 0 ≤ addr l ∧ addr l + (widthLen wd : Int) ≤ n) :
    let parts := x.memParts x.active addr (d · 0) (d · 1) (d · 2)
    x.anyActive = true ∧ ∃ es b more, x.resolveAll x.s0 sp k wd (acting one parts) = (x.s0, es, b :: more) ∧
      Eff.trapIn (x.counted x.s0) (refusal parts b more x.i.slotOf.isSome) =
        .trapIn (x.s0.updGroup x.r fun h => h.wrW slot (h.rdW slot + 1)) (x.misalignedFault one wd addr d) := by
  obtain ⟨l, more, hcons⟩ := List.exists_cons_of_ne_nil hbad
  obtain ⟨es, hes⟩ := resolveAll_misaligned (k := k) (d := d) hwd hrange hdistinct hall
  have hl : l ∈ x.misaligned one wd addr := hcons ▸ List.mem_cons_self
  obtain ⟨hacc, hon⟩ := List.mem_filter.1 (List.mem_of_mem_filter hl)
  refine ⟨anyActive_of_trit (huniform.symm ▸ hacc) (beq_iff_eq.1 hon), es, ⟨l, 12, addr l⟩, more.map fun l => ⟨l, 12, addr l⟩, ?_, ?_⟩
  · rw [memParts_fresh hfresh, acting_parts, hes, hcons, List.map_cons]
  · rw [memParts_fresh hfresh]
    simp only [Issue.counted, hslot, hfresh, refusal, Issue.misalignedFault, hcons, List.map_cons, List.map_map, Function.comp_def,
      List.headD_cons, Option.map_none, Option.getD_none, Bool.false_eq_true, if_false, Option.isSome_some]

end

/-- What O24 says of an access: where an active element is misaligned and each other one is too, or lies within its bound, the word
takes its wait slot and traps with cause 12 in the misaligned lanes. -/
def TrapsMisaligned (s : State) (w : Workgroup) (g : Group) (i : Instr) (slot : Nat) (sp : Space) (wd : Width) (one : Bool)
    (addr : Nat → Int) (d : Nat → Nat → Word) : Prop :=
  let x := s.issueOf w g i
  x.misaligned one wd addr ≠ [] → x.active.Nodup → x.again = none →
  (∀ l ∈ (x.accessing one).filter fun l => (x.pred l).trit 0 == 1, addr l % (widthLen wd : Int) ≠ 0 ∨
    ∃ n, w.bound sp = some n ∧ 0 ≤ addr l ∧ addr l + (widthLen wd : Int) ≤ n) →
  TrapsIn s w g i (x.s0.updGroup g.ref fun h => h.wrW slot (h.rdW slot + 1)) (x.misalignedFault one wd addr d)

section
variable {s : State} {w : Workgroup} {g : Group} {i : Instr} {slot : Nat} {sp : Space} {wd : Width} {one : Bool} {q : Option Qual}
  {addr : Issue → Nat → Int} (hi : Issues s w g i) (hslot : i.slotOf = some slot) (huniform : i.uniform = one)
  (hrange : ∀ l, (addr (s.issueOf w g i) l).natAbs ≤ maxMag 27)
include hi hslot huniform hrange

theorem load_trapsMisaligned (hwd : wd ≠ .t) (hexec : exec i s = runWord i s fun x => x.load sp wd q one (addr x)) :
    TrapsMisaligned s w g i slot sp wd one (addr (s.issueOf w g i)) fun _ _ => zeroW := by
  intro hbad hdistinct hfresh hall
  obtain ⟨hactive, es, b, more, hc, hfault⟩ :=
    misaligned_refused (k := .read) (d := fun _ _ => zeroW) hslot huniform hwd hrange hbad hdistinct hfresh hall
  exact hexec.trans (runWord_trapIn hi ((load_refused hactive (results_fresh hfresh) hc).trans hfault))

theorem store_trapsMisaligned {d : Issue → Nat → Nat → Word} (hwd : wd ≠ .t)
    (hexec : exec i s = runWord i s fun x => x.store sp wd one (addr x) (d x)) :
    TrapsMisaligned s w g i slot sp wd one (addr (s.issueOf w g i)) fun l n => d (s.issueOf w g i) n l := by
  intro hbad hdistinct hfresh hall
  obtain ⟨hactive, es, b, more, hc, hfault⟩ :=
    misaligned_refused (k := .write) (d := fun l n => d (s.issueOf w g i) n l) hslot huniform hwd hrange hbad hdistinct hfresh hall
  exact hexec.trans (runWord_trapIn hi ((store_refused hactive hc).trans hfault))

end

theorem atomic_trapsMisaligned {s : State} {w : Workgroup} {g : Group} {i : Instr} {slot : Nat} {a : AtomArgs} {cas : Bool}
    {d : Nat → Nat → Word} (hi : Issues s w g i) (hslot : i.slotOf = some slot) (huniform : i.uniform = false) (htryte : a.tryte = false)
    (hparts : (s.issueOf w g i).atomParts a cas = (s.issueOf w g i).memParts (s.issueOf w g i).active
      (fun l => ((s.issueOf w g i).greg a.a.val l).val) (d · 0) (d · 1) (d · 2))
    (hwaits : MemOrder.releases a.order = true → (s.issueOf w g i).releaseWaits = false)
    (hexec : exec i s = runWord i s (·.atomic a cas)) :
    TrapsMisaligned s w g i slot a.space .w false (fun l => ((s.issueOf w g i).greg a.a.val l).val) d := by
  intro hbad hdistinct hfresh hall
  obtain ⟨hactive, es, b, more, hc, hfault⟩ :=
    misaligned_refused (k := .atomic) (wd := .w) (d := d) hslot huniform Width.noConfusion (fun _ => natAbs_trits _) hbad hdistinct hfresh
      hall
  have hwidth : atomWidth a = .w := by rw [atomWidth, htryte]; rfl
  rw [← hparts] at hfault hc
  rw [← hwidth] at hc
  exact hexec.trans (runWord_trapIn hi ((atomic_refused hactive (results_fresh hfresh) hwaits hc).trans hfault))

/-- R172: a jump of a lane to a target that is no multiple of 3 traps, in the state before it. -/
theorem jump_traps {x : Issue} {t : State} {choice : List Nat → List Nat → Choice} {sel : Nat → Bool} {dest : Nat → Int}
    (h : (x.active.filter fun l => sel l && dest l % 3 != 0) ≠ []) : x.jump t choice sel dest =
      .trap { cause := 12, lanes := (x.active.filter fun l => sel l && dest l % 3 != 0).map fun l => (l, 12) } := by
  have hbad : (fun l => sel l && (if sel l then dest l else x.at_ 1) % 3 != 0) = fun l => sel l && dest l % 3 != 0 := by
    funext l
    cases hl : sel l <;> simp
  rw [jump_eq, transfer_traps (by rwa [hbad]), hbad]

/-- R269: the wait slot of an access is that of its w field. -/
theorem slotOf_encW (n : Fin 9) : some (encW n + 4).toNat = some n.val := by simp [encW]

theorem slotOf_memory (a : MemArgs) : (Instr.ld a).slotOf = some a.w.val ∧ (Instr.ldStrong a).slotOf = some a.w.val ∧
    (Instr.st a).slotOf = some a.w.val ∧ (Instr.stStrong a).slotOf = some a.w.val :=
  ⟨slotOf_encW a.w, slotOf_encW a.w, slotOf_encW a.w, slotOf_encW a.w⟩

theorem slotOf_uniform (a : UniArgs) : (Instr.ldu a).slotOf = some a.w.val ∧ (Instr.stu a).slotOf = some a.w.val :=
  ⟨slotOf_encW a.w, slotOf_encW a.w⟩

theorem slotOf_atomic (a : AtomArgs) : (Instr.atom a).slotOf = some a.w.val ∧ (Instr.atomr a).slotOf = some a.w.val ∧
    (Instr.cas a).slotOf = some a.w.val :=
  ⟨slotOf_encW a.w, slotOf_encW a.w, slotOf_encW a.w⟩

/-- R271: the length of an access of words or of TF81 values. -/
theorem widthLen_whole {wd : Width} (hwd : wd ≠ .t) : (if wd = .w then 3 else 9 : Int) = widthLen wd := by
  cases wd with
  | t => exact absurd rfl hwd
  | w | f81 => rfl

theorem natAbs_address_le (x : Issue) (form : AccForm) (v : Word) : (x.address form v.val).natAbs ≤ maxMag 27 := by
  cases form
  exacts [natAbs_wrapInt_le .., natAbs_trits v]

/-- Settles O24: CALLI releases lanes whose targets fail (release_traps); a tryte on chip is refused for its place and kind alone
(resolve_tryte_ne_twelve); JMPI and RET are jumps with a misaligned target (jump_traps); and the checks of a word of which elements
are misaligned change nothing (load_trapsMisaligned, store_trapsMisaligned, atomic_trapsMisaligned). -/
theorem misalignedAddressesTrap : Obligations.MisalignedAddressesTrap := by
  unfold Obligations.MisalignedAddressesTrap
  refine ⟨?calls, fun s w sp thread k addr hsp c => resolve_tryte_ne_twelve hsp, fun s w g => ⟨fun a h => ?jmpi, fun a h => ?ret⟩, ?accesses⟩
  case calls =>
    intro s w g a h x afresh goal sel fell wait go ret cause link traps
    have htraps (released : List Nat) (f : Group → Group) (heff : x.calli a =
        x.release (x.s0.updGroup x.r f) (x.s.updGroup x.r f) fell (released.map fun l => (l, goal l))) : traps released f := by
      intro l ls hbad
      exact runWord_trapIn h (heff.trans (release_traps hbad))
    refine ⟨fun hfresh hno => htraps sel link ?_, fun hfresh hwait hmode hroom => htraps go (x.opened a sel goal) ?_,
      fun hagain => htraps sel id (calli_reissued hagain)⟩
    · exact (calli_afresh hfresh).trans (callFresh_unrecorded (callGoal_afresh hfresh) hno)
    · exact (calli_afresh hfresh).trans (callFresh_recorded (callGoal_afresh hfresh) hwait hmode hroom)
  case jmpi => exact fun hbad => runWord_trap h (jump_traps hbad)
  case ret => exact fun hbad => runWord_trap h (jump_traps hbad)
  case accesses =>
    intro s w g address traps none_
    have haddress (x : Issue) (form : AccForm) (v : Word) : x.address form v.val = address form x v.val := by cases form <;> rfl
    have htraps {i : Instr} {slot : Nat} {sp : Space} {wd : Width} {len : Int} {one : Bool} {addr addr' : Issue → Nat → Int}
        {d : Issue → Nat → Nat → Word} (hlen : len = widthLen wd) (haddr : ∀ l, addr (s.issueOf w g i) l = addr' (s.issueOf w g i) l)
        (h : Issues s w g i → TrapsMisaligned s w g i slot sp wd one (addr (s.issueOf w g i)) (d (s.issueOf w g i))) :
        traps i slot sp len one addr' d := by
      subst hlen
      have heq : addr (s.issueOf w g i) = addr' (s.issueOf w g i) := funext haddr
      rw [heq] at h
      exact h
    refine ⟨fun a hwd => ?memory, fun a hwd => ?uniform, fun a htryte => ?atomics⟩
    case memory =>
      intro len addr data
      have haddr (x : Issue) (l : Nat) : x.address a.form (x.greg a.a.val l).val = addr x l := haddress ..
      have hrange (x : Issue) (l : Nat) : (x.address a.form (x.greg a.a.val l).val).natAbs ≤ maxMag 27 := natAbs_address_le ..
      obtain ⟨hld, hldStrong, hst, hstStrong⟩ := slotOf_memory a
      exact ⟨htraps (widthLen_whole hwd) (haddr _) fun hi => load_trapsMisaligned hi hld rfl (hrange _) hwd rfl,
        htraps (widthLen_whole hwd) (haddr _) fun hi => load_trapsMisaligned hi hldStrong rfl (hrange _) hwd rfl,
        htraps (widthLen_whole hwd) (haddr _) fun hi =>
          store_trapsMisaligned (d := fun x n l => data x l n) hi hst rfl (hrange _) hwd rfl,
        htraps (widthLen_whole hwd) (haddr _) fun hi =>
          store_trapsMisaligned (d := fun x n l => data x l n) hi hstStrong rfl (hrange _) hwd rfl⟩
    case uniform =>
      intro len addr
      have haddr (x : Issue) (l : Nat) : x.address a.form (x.g.rdS a.sa.val).val = addr x l := haddress ..
      have hrange (x : Issue) (_ : Nat) : (x.address a.form (x.g.rdS a.sa.val).val).natAbs ≤ maxMag 27 := natAbs_address_le ..
      obtain ⟨hldu, hstu⟩ := slotOf_uniform a
      refine ⟨htraps (widthLen_whole hwd) (haddr _) fun hi => load_trapsMisaligned hi hldu rfl (hrange _) hwd rfl,
        htraps (addr := fun x _ => x.address a.form (x.g.rdS a.sa.val).val) (d := fun x _ _ => x.g.rdS a.sd.val)
          (widthLen_whole hwd) (haddr _) fun hi => ?_⟩
      exact store_trapsMisaligned (d := fun x _ _ => x.g.rdS a.sd.val) hi hstu rfl (hrange _) hwd rfl
    case atomics =>
      intro addr waits data
      obtain ⟨hatom, hatomr, hcas⟩ := slotOf_atomic a
      have hreleases {i : Instr} (hwaits : ¬waits i) (hrel : MemOrder.releases a.order = true) : (s.issueOf w g i).releaseWaits = false := by
        by_contra hwait
        refine hwaits ⟨?_, Bool.eq_true_of_not_eq_false hwait⟩
        revert hrel
        cases a.order <;> decide
      have hatoms {i : Instr} {cas : Bool} {slot : Nat} (hslot : i.slotOf = some slot) (huniform : i.uniform = false)
          (hexec : exec i s = runWord i s (·.atomic a cas)) (hwaits : ¬waits i) : traps i slot a.space 3 false addr (data cas) := by
        refine htraps (wd := .w) (addr := addr) rfl (fun _ => rfl) fun hi => ?_
        refine atomic_trapsMisaligned (cas := cas) hi hslot huniform htryte ?_ (hreleases hwaits) hexec
        cases cas <;> rfl
      exact ⟨hatoms hatom rfl rfl, hatoms hatomr rfl rfl, hatoms hcas rfl rfl⟩

end Sys2Proof.Machine
end

section
/-! The turns of the matrix unit (09_matrix_unit.md R198 to R203, R210 to R215): what the ready head of a queue does, and what the
completion of a load, of a pass and of a store leaves. -/

namespace Sys2Proof.Machine

/-! ## Units and tiles (R191, R197) -/

@[simp] theorem unitAt_updUnit (s : State) (clu : Nat) (f : MatUnit → MatUnit) :
    (s.updUnit clu f).unitAt clu = f (s.unitAt clu) := by simp [State.unitAt]

/-- What a map reads after a run of keys is cleared. -/
theorem SMap.get_clear_eq {α : Type} (d : α) (m : SMap α) (lo hi n : Nat) :
    SMap.get d (m.clear lo hi) n = if lo ≤ n ∧ n < hi then d else SMap.get d m n := by
  split
  next h => exact SMap.get_clear d m h.1 h.2
  next hout =>
    induction m with
    | nil => rfl
    | cons e m ih =>
      simp only [SMap.clear, List.filter_cons] at ih ⊢
      split
      next => simp only [SMap.get, ih]
      next hdropped =>
        have hne : e.1 ≠ n := by
          simp only [Bool.or_eq_true, decide_eq_true_eq] at hdropped
          omega
        simp only [SMap.get, hne, if_false, ih]

/-- What a map reads after values are written at consecutive keys. -/
theorem SMap.get_setRun {α : Type} [DecidableEq α] (d : α) (m : SMap α) (base : Nat) (vs : List α) (n : Nat) :
    SMap.get d (((List.range vs.length).zip vs).foldl (fun m e => SMap.set d m (base + e.1) e.2) m) n =
      if base ≤ n then vs[n - base]?.getD (SMap.get d m n) else SMap.get d m n := by
  induction vs using List.reverseRecOn with
  | nil => simp
  | append_singleton vs v ih =>
    rw [List.length_append, List.length_singleton, List.range_succ, List.zip_append List.length_range, List.foldl_append]
    simp only [List.zip_cons_cons, List.zip_nil_left, List.foldl_cons, List.foldl_nil]
    by_cases hlast : n = base + vs.length
    · subst hlast
      simp
    · rw [SMap.get_set_other d _ v hlast, ih]
      split
      next hfrom =>
        by_cases hin : n - base < vs.length
        · rw [List.getElem?_append_left hin]
        · rw [List.getElem?_eq_none (by omega), List.getElem?_eq_none (by simp only [List.length_append, List.length_singleton]; omega)]
      next => rfl

/-- R213: what the tiles read after the first n rows of one are zeroed. -/
theorem zeroRows_range_get (u : MatUnit) (tile n k : Nat) :
    (u.zeroRows tile (List.range n)).tiles.get zeroW k =
      if tile * 19683 ≤ k ∧ k < tile * 19683 + n * 729 then zeroW else u.tiles.get zeroW k := by
  induction n with
  | zero =>
    rw [if_neg (by omega)]
    rfl
  | succ n ih =>
    simp only [MatUnit.zeroRows, tileKey, List.range_succ, List.foldl_append, List.foldl_cons, List.foldl_nil,
      SMap.get_clear_eq] at ih ⊢
    rw [ih, ← ite_or]
    exact if_congr (by omega) rfl rfl

/-- R213: what the tiles read after all the rows of one are zeroed. -/
theorem zeroRows_all_get (u : MatUnit) (tile k : Nat) :
    (u.zeroRows tile (List.range 27)).tiles.get zeroW k =
      if tile * 19683 ≤ k ∧ k < (tile + 1) * 19683 then zeroW else u.tiles.get zeroW k := by
  rw [zeroRows_range_get]
  exact if_congr (by omega) rfl rfl

/-! ## What a turn waits for (R198, R202, R210, R211) -/

variable {s : State} {clu : Nat} {q : GroupRef} {e : MatEntry} {u : MatUnit}

theorem tileBefore_false_iff {tile : Nat} : u.tileBefore e tile [] = false ↔
    ∀ x ∈ u.queue.takeWhile fun x => x != e, x.op.tile ≠ some tile := by
  simp [MatUnit.tileBefore]

theorem noLoad_iff : (u.queue.any fun x => x.isLoad && x.granted) = false ↔
    ∀ x ∈ u.queue, x.isLoad = true → x.granted = false := by simp

theorem noPass_iff : (u.queue.any fun x => x.isPass && x.granted) = false ↔
    ∀ x ∈ u.queue, x.isPass = true → x.granted = false := by simp

/-- R211: a row does not come after a MACT that is to swap next. -/
theorem afterAct_false_iff : u.afterAct e = false ↔ ∀ x ∈ u.queue.takeWhile fun x => x != e, ∀ t, x.op = .act t →
    u.tagState t ≠ .shadow ∧ (u.tagState t = .pending → u.pl1.tag ≠ zeroW) := by
  simp only [MatUnit.afterAct, List.any_eq_false]
  refine forall₂_congr fun x _ => ?_
  cases x.op <;> simp

/-- R202: the granted row is of the pass that it begins. -/
theorem mem_fused {tag : Word} {tile third : Nat} {drained : Bool} : e ∈ u.fused e tag tile third drained := by
  refine List.foldlRecOn (motive := fun acc : List MatEntry × List Nat => e ∈ acc.1) _ _ List.mem_cons_self fun acc hin x _ => ?_
  cases x.op with
  | row =>
    dsimp only
    split
    · exact List.mem_append_left _ hin
    · exact hin
  | _ => exact hin

/-! ## The grant of a head (R201 to R203, R210, R211, R213, R214) -/

/-- An operation waits at the head of a queue, on a die that is up. -/
structure Waits (s : State) (clu : Nat) (q : GroupRef) (e : MatEntry) : Prop where
  head : (s.unitAt clu).head q = some e
  granted : e.granted = false
  up : s.dieDown (clu / 27) = false

section
variable (h : Waits s clu q e) {tag : Word} {tile third row depth : Nat} {off : Int} {d : MatDesc} {p : Option Nat} {f : Fmt} {z : Bool}
  {cells : List (Nat × Word)} {rows : List (Nat × Int)} {zeroed : List Nat}
include h

theorem grant_load (hop : e.op = .load tag off d p) (hempty : (s.unitAt clu).pl1.tag = zeroW)
    (hfree : ∀ x ∈ (s.unitAt clu).queue, x.isLoad = true → x.granted = false) :
    s.matrixGrant clu q = some (s.updUnit clu fun u => u.mark e fun x => { x with granted := true }) := by
  simp [State.matrixGrant, h.head, h.granted, h.up, hop, hempty, noLoad_iff.2 hfree]

theorem grant_act_stationary (hop : e.op = .act tag) (htag : (s.unitAt clu).tagState tag = .stationary) :
    s.matrixGrant clu q = some (s.updUnit clu (·.dropEntry e)) := by
  simp [State.matrixGrant, h.head, h.granted, h.up, hop, htag]

theorem grant_act_retired (hop : e.op = .act tag) (htag : (s.unitAt clu).tagState tag = .retired) :
    s.matrixGrant clu q = some (s.discardStale clu e) := by
  simp [State.matrixGrant, h.head, h.granted, h.up, hop, htag]

theorem grant_act_shadow (hop : e.op = .act tag) (htag : (s.unitAt clu).tagState tag = .shadow)
    (hidle : ∀ x ∈ (s.unitAt clu).queue, x.isPass = true → x.granted = false)
    (hfirst : ∀ x ∈ (s.unitAt clu).queue.takeWhile fun x => x != e, x.isPass = true →
      ∀ tile third rows zs n, x.op ≠ .row (s.unitAt clu).pl0.tag tile third rows zs n) :
    s.matrixGrant clu q = some (s.updUnit clu fun u => (u.dropEntry e).swap) := by
  simp only [State.matrixGrant, h.head, h.granted, h.up, hop, htag, noPass_iff.2 hidle, Option.bind_eq_bind, Option.bind_some,
    Bool.or_false, Bool.false_eq_true, if_false, List.any_eq_true, ite_eq_right_iff, reduceCtorEq, imp_false, not_exists, not_and]
  intro x hx
  cases hxop : x.op with
  | row t tile third rows zs n =>
    simp only [Bool.and_eq_true, beq_iff_eq]
    rintro ⟨hpass, rfl⟩
    exact hfirst x hx hpass tile third rows zs n hxop
  | _ => exact Bool.false_ne_true

theorem grant_zero (hop : e.op = .zero tile) (hfree : (s.unitAt clu).tileBefore e tile [] = false) :
    s.matrixGrant clu q = some (s.updUnit clu fun u => (u.dropEntry e).zeroRows tile (List.range 27)) := by
  simp [State.matrixGrant, h.head, h.granted, h.up, hop, hfree]

theorem grant_write (hop : e.op = .write tile row cells) (hfree : (s.unitAt clu).tileBefore e tile [] = false) :
    s.matrixGrant clu q = some (s.updUnit clu fun u => { u.dropEntry e with
      tiles := cells.foldl (fun m c => SMap.set zeroW m (tileKey tile row c.1) c.2) u.tiles }) := by
  simp [State.matrixGrant, h.head, h.granted, h.up, hop, hfree]

theorem grant_store (hop : e.op = .store tile off f z) (hfree : (s.unitAt clu).tileBefore e tile [] = false) :
    s.matrixGrant clu q = some (s.updUnit clu fun u => u.mark e fun x => { x with granted := true }) := by
  simp [State.matrixGrant, h.head, h.granted, h.up, hop, hfree]

theorem grant_row_zeroing (hop : e.op = .row tag tile third [] zeroed depth)
    (hfree : (s.unitAt clu).tileBefore e tile [] = false) :
    s.matrixGrant clu q = some (s.updUnit clu fun u => (u.dropEntry e).zeroRows tile zeroed) := by
  simp [State.matrixGrant, h.head, h.granted, h.up, hop, hfree]

theorem grant_row_retired (hop : e.op = .row tag tile third rows zeroed depth) (hrows : rows ≠ [])
    (htag : (s.unitAt clu).tagState tag = .retired) : s.matrixGrant clu q = some (s.discardStale clu e) := by
  simp [State.matrixGrant, h.head, h.granted, h.up, hop, hrows, htag]

theorem grant_row_stationary (hop : e.op = .row tag tile third rows zeroed depth) (hrows : rows ≠ [])
    (htag : (s.unitAt clu).tagState tag = .stationary) (hfree : (s.unitAt clu).tileBefore e tile [] = false)
    (hidle : ∀ x ∈ (s.unitAt clu).queue, x.isPass = true → x.granted = false)
    (hswap : s.draining e.wg = true ∨ (s.unitAt clu).afterAct e = false) :
    let js := (s.unitAt clu).fused e tag tile third (s.draining e.wg)
    s.matrixGrant clu q = some ((s.updUnit clu fun u =>
      { u with queue := u.queue.map fun x => if js.contains x then { x with granted := true } else x }).bump 20 (clu / 27) (clu % 27)
        js.length) := by
  rcases hswap with hs | hs <;> simp [State.matrixGrant, h.head, h.granted, h.up, hop, hrows, htag, hfree, noPass_iff.2 hidle, hs]

end

/-- R201: a queue whose turn it is does what the grant of its head does. -/
theorem matrixTurnGrant_of_grant {t : State} (hturn : s.nextInTurn clu q = true) (hgrant : s.matrixGrant clu q = some t) :
    Happens s (.matrixTurnGrant clu q) (t.updUnit clu fun u => { u with last := (q.wg, q.hw) }) := by
  change execMatrixTurnGrant clu q s = _
  exact runEvent_some (by rw [State.matrixTurn, if_pos hturn, hgrant]; rfl)

/-! ## Operands read (R205) -/

theorem consume_of_consumed (he : e.consumed = true) : s.consume clu e = s := by rw [State.consume, if_pos he]

/-! ## Loads that complete (R206, R210) -/

/-- What the completion of a load leaves of the unit. -/
def MatUnit.loaded (u : MatUnit) (e : MatEntry) (tag : Word) (kept : Bool) : MatUnit :=
  let pending := u.pending.filter fun x => x.1 != tag
  if kept then { u.dropEntry e with pl1 := { u.pl1 with tag := tag }, shadowWg := some e.wg, pending := pending }
  else { (u.dropEntry e).emptyShadow with pending := pending }

/-- A load whose operands are read completes: its tag is the shadow plane's where it is still pending and no save drains it. -/
theorem loadComplete_of_consumed {tag : Word} {off : Int} {d : MatDesc} {p : Option Nat}
    (hfind : (s.unitAt clu).queue.find? (fun x => x.isLoad && x.granted) = some e) (hop : e.op = .load tag off d p)
    (hconsumed : e.consumed = true) :
    s.loadComplete clu = some (s.updUnit clu fun u =>
      u.loaded e tag ((u.pending.any fun x => x.1 == tag) && !s.draining e.wg)) := by
  simp only [State.loadComplete, hfind, consume_of_consumed hconsumed, hop, Option.bind_eq_bind, Option.bind_some]
  rfl

/-- R210, R206: the plane, the queue and the tags after a load completes. -/
theorem loadComplete_unit {tag : Word} {off : Int} {d : MatDesc} {p : Option Nat}
    (hfind : (s.unitAt clu).queue.find? (fun x => x.isLoad && x.granted) = some e) (hop : e.op = .load tag off d p)
    (hconsumed : e.consumed = true) {kept : Bool}
    (hkept : (((s.unitAt clu).pending.any fun x => x.1 == tag) && !s.draining e.wg) = kept) :
    ∃ t, exec (.matrixLoadComplete clu) s = .next t ∧ t.unitAt clu = (s.unitAt clu).loaded e tag kept := by
  refine ⟨_, runEvent_some (f := (·.loadComplete clu)) (loadComplete_of_consumed hfind hop hconsumed), ?_⟩
  rw [unitAt_updUnit, hkept]

/-! ## Stores that complete (R215) -/

/-- The trytes that a store writes. -/
def MatUnit.storeImage (u : MatUnit) (tile : Nat) (f : Fmt) : List Tryte :=
  (List.range 27).flatMap fun r => rowImage f fun c => u.tiles.get zeroW (tileKey tile r c)

section
variable {w : Workgroup} {tile : Nat} {off : Int} {f : Fmt} {z : Bool}

/-- A granted store is performed: its trytes are written from its offset on, and its entry leaves the queue. -/
theorem storeComplete_granted (hhead : (s.unitAt clu).head q = some e) (hw : s.wgOf e.wg = some w)
    (hop : e.op = .store tile off f z) (hgranted : e.granted = true) :
    let image := (s.unitAt clu).storeImage tile f
    ∃ bad, s.storeComplete clu q = some (({ s with
      scr := ((List.range image.length).zip image).foldl (fun m v =>
        SMap.set zeroT m (coreIdx w.core * scrSize + w.gran * granule + off.toNat + v.1) v.2) s.scr
      bad := bad } : State).updUnit clu fun u =>
        if z then (u.dropEntry e).zeroRows tile (List.range 27) else u.dropEntry e) := by
  simp only [State.storeComplete, hhead, hw, hop, hgranted, Option.bind_eq_bind, Option.bind_some, Bool.not_true, Bool.false_eq_true,
    if_false]
  exact ⟨_, rfl⟩

/-- R215: what the scratchpads read, and the unit, after a store. -/
theorem mstoreComplete_granted (hhead : (s.unitAt clu).head q = some e) (hw : s.wgOf e.wg = some w)
    (hop : e.op = .store tile off f z) (hgranted : e.granted = true) :
    let image := (s.unitAt clu).storeImage tile f
    let base := w.gran * 2187 + off.toNat
    ∃ t, exec (.mstoreComplete clu q) s = .next t ∧
      (∀ n, t.scrGet (coreIdx w.core) n = if base ≤ n then image[n - base]?.getD (s.scrGet (coreIdx w.core) n)
        else s.scrGet (coreIdx w.core) n) ∧
      t.unitAt clu = (if z then ((s.unitAt clu).dropEntry e).zeroRows tile (List.range 27) else (s.unitAt clu).dropEntry e) ∧
      t.chip = s.chip ∧ t.dram = s.dram := by
  intro image base
  obtain ⟨bad, hstore⟩ := storeComplete_granted hhead hw hop hgranted
  refine ⟨_, runEvent_some (f := (·.storeComplete clu q)) hstore, fun n => ?_, unitAt_updUnit .., rfl, rfl⟩
  have hkey : coreIdx w.core * scrSize + w.gran * granule + off.toNat = coreIdx w.core * scrSize + base := by
    simp only [base, granule]
    omega
  refine (SMap.get_setRun ..).trans ?_
  rw [hkey, Nat.add_sub_add_left]
  exact if_congr (by omega) rfl rfl

end

/-! ## The turns of the statement -/

/-- Settles O48: the head of a queue does what the grant of its operation says (grant_*), once its turn is next
(matrixTurnGrant_of_grant), and loads and stores complete by loadComplete_unit and mstoreComplete_granted. -/
theorem matrixTurns : Obligations.MatrixTurns := by
  unfold Obligations.MatrixTurns
  intro s clu q u zero upd took
  refine ⟨?grants, ?reads, ?loads, ?passes, ?stores⟩
  case grants =>
    intro e w hhead _ hgranted hup hturn without granted drop stale earlier free
    have h : Waits s clu q e := ⟨hhead, hgranted, hup⟩
    have hfree {tile : Nat} (hf : free tile) : u.tileBefore e tile [] = false := tileBefore_false_iff.2 hf
    have hmark : s.updUnit clu (fun u => u.mark e fun x => { x with granted := true }) = granted := by
      simp only [granted, upd, MatUnit.mark, beq_iff_eq]
    refine ⟨?load, ?act, ?zero, ?write, ?store, ?row⟩
    case load =>
      intro tag off d p hop hempty hidle
      exact hmark ▸ matrixTurnGrant_of_grant hturn (grant_load h hop hempty hidle)
    case act =>
      intro tag hop
      refine ⟨fun htag => matrixTurnGrant_of_grant hturn (grant_act_stationary h hop htag),
        fun htag => matrixTurnGrant_of_grant hturn (grant_act_retired h hop htag), fun htag hidle hfirst => ?_⟩
      refine ⟨_, matrixTurnGrant_of_grant hturn (grant_act_shadow h hop htag hidle hfirst), ?_, ?_, ?_, ?_, sameMemory_of_eq rfl rfl rfl⟩
      all_goals (simp only [unitAt_updUnit]; rfl)
    case zero =>
      intro tile hop hf
      refine ⟨_, matrixTurnGrant_of_grant hturn (grant_zero h hop (hfree hf)), ?_, fun k => ?_⟩
      · simp only [unitAt_updUnit]
        rfl
      · simp only [unitAt_updUnit]
        exact zeroRows_all_get ..
    case write =>
      intro tile row cells hop hf
      exact matrixTurnGrant_of_grant hturn (grant_write h hop (hfree hf))
    case store =>
      intro tile off f z hop hf
      exact hmark ▸ matrixTurnGrant_of_grant hturn (grant_store h hop (hfree hf))
    case row =>
      intro tag tile third rows zeroed depth hop
      refine ⟨?_, fun hrows htag => matrixTurnGrant_of_grant hturn (grant_row_retired h hop hrows htag),
        fun hrows htag hf hidle hswap => ⟨mem_fused, matrixTurnGrant_of_grant hturn
          (grant_row_stationary h hop hrows htag (hfree hf) hidle (hswap.imp_right afterAct_false_iff.2))⟩⟩
      rintro rfl hf
      exact matrixTurnGrant_of_grant hturn (grant_row_zeroing h hop (hfree hf))
  case reads =>
    intro e hfind
    exact runEvent_some (f := (·.consumedAt clu q)) (by rw [State.consumedAt, hfind]; rfl)
  case loads =>
    intro e tag off d p hfind hop hconsumed without
    refine ⟨fun ⟨o, hpending⟩ hsaved => ?_, fun hdropped => ?_⟩
    · have hkept : ((u.pending.any fun x => x.1 == tag) && !s.draining e.wg) = true := by
        rw [hsaved, List.any_eq_true.2 ⟨_, hpending, beq_self_eq_true tag⟩]
        rfl
      obtain ⟨t, hexec, hunit⟩ := loadComplete_unit hfind hop hconsumed hkept
      exact ⟨t, hexec, by rw [hunit]; exact ⟨rfl, rfl, rfl, rfl, rfl⟩⟩
    · have hkept : ((u.pending.any fun x => x.1 == tag) && !s.draining e.wg) = false := by
        rcases hdropped with hnone | hsaved
        · rw [List.any_eq_false.2 fun x hx hx' => hnone x.2 (by rwa [← eq_of_beq hx'])]
          rfl
        · simp [hsaved]
      obtain ⟨t, hexec, hunit⟩ := loadComplete_unit hfind hop hconsumed hkept
      exact ⟨t, hexec, by rw [hunit]; exact ⟨rfl, rfl, rfl⟩⟩
  case passes =>
    rintro ⟨x, hx, hpass, hgranted⟩ done
    refine runEvent_some (f := (·.passComplete clu)) (if_neg fun hnone => ?_)
    exact List.not_mem_nil (List.isEmpty_iff.1 hnone ▸ List.mem_filter.2 ⟨hx, by rw [hpass, hgranted]; rfl⟩)
  case stores =>
    intro e w tile off f z hhead hw hop hgranted core base row image
    obtain ⟨t, hexec, hscr, hunit, hchip, hdram⟩ := mstoreComplete_granted hhead hw hop hgranted
    refine ⟨t, hexec, ?_, fun n v hv => ?_, fun n hout => ?_, fun k => ?_, fun _ _ => ?_, fun _ _ _ => ?_⟩
    · rw [hunit]
      cases z <;> rfl
    · have hread : t.scrGet core (base + n) = image[base + n - base]?.getD _ := (hscr _).trans (if_pos (Nat.le_add_right base n))
      rw [hread, Nat.add_sub_cancel_left, hv]
      rfl
    · refine (hscr n).trans ?_
      split
      next hfrom =>
        have hpast : image[n - base]? = none := List.getElem?_eq_none (by omega)
        change image[n - base]?.getD _ = _
        rw [hpast]
        rfl
      next => rfl
    · rw [hunit]
      cases z with
      | true =>
        refine (zeroRows_all_get ..).trans (if_congr ?_ rfl rfl)
        simp only [true_and]
      | false => exact (if_neg (by simp)).symm
    · simp only [State.chipGet, hchip]
    · simp only [State.dramByte, State.dramAt, hdram]

end Sys2Proof.Machine
end

section
/-! Matrix words that enter operations into the queues of their group (09_matrix_unit.md R192, R200 to R203, R207 to R215), and the formats that
they refuse (R193, R208, R446). -/

namespace Sys2Proof.Machine

variable {s u : State} {w : Workgroup} {g : Group} {i : Instr}

/-! ## Words that issue after their reads of the tables (R100, R385) -/

section
variable {eff : Issue → Eff} {t : State} (h : IssuesAfter s u w g i)
include h

/-- R63, R251, R318: nothing makes a word that issues wait. -/
theorem issue_gate_open :
    ((u.issueOf w g i).slotFull || (i.needsLicence && (!u.licensed w || (u.issueOf w g i).heldBack))) = false := by
  obtain ⟨-, -, hslot, hlicence⟩ := h
  rw [hslot]
  cases hn : i.needsLicence
  · rfl
  · simp [hlicence hn]

theorem issueWord_done (he : eff (u.issueOf w g i) = .done t) : u.issueWord w g i none eff = (u.issueOf w g i).after t := by
  obtain ⟨-, hpasses, -⟩ := id h
  simp only [State.issueWord, checkWord_of_passes hpasses, issue_gate_open h, he, Bool.false_eq_true, if_false]

theorem issueWord_stall (he : eff (u.issueOf w g i) = .stall) : u.issueWord w g i none eff = u := by
  obtain ⟨-, hpasses, -⟩ := id h
  simp only [State.issueWord, checkWord_of_passes hpasses, issue_gate_open h, he, Bool.false_eq_true, if_false]

/-- R446: a word that passes its checks, but for a format that its unit refuses, traps. -/
theorem issueWord_refused : u.issueWord w g i (some { cause := 1, detail := 3 }) eff =
    u.takeFault g.ref (wordOf i) i.pred.eff { cause := 1, detail := 3 } := by
  obtain ⟨-, ⟨hcount, hwf, hlit, halloc, -⟩, -⟩ := h
  refine issueWord_check ?_
  rw [checkWord_eq hcount hwf, show wordLit g i = none from hlit, halloc]
  split <;> rfl

theorem exec_of_runTableWord {effOf : TableRead → Issue → Eff} {r : TableRead} (hexec : exec i s = runTableWord i s effOf)
    (hread : s.tableFor w g i = (u, r)) :
    exec i s = .next (u.issueWord w g i (if r.refused then some { cause := 1, detail := 3 } else none) (effOf r)) := by
  obtain ⟨hrunning, -⟩ := h
  rw [hexec, runTableWord, hrunning]
  simp only [hread]

end

/-! ## Entry (R200) -/

/-- The continuation of an effect that is done. -/
def Eff.andThen (e : Eff) (after : State → State) : Eff :=
  match e with
  | .done t => .done (after t)
  | e => e

@[simp] theorem Eff.andThen_id (e : Eff) : e.andThen id = e := by cases e <;> rfl

/-- R200: a word that enters operations, after which its state changes further, or that waits. -/
def Enters (s u : State) (w : Workgroup) (g : Group) (i : Instr) (t : State) (ops : List (Nat × MatOp)) (after : State → State) : Prop :=
  let room : Prop := ∀ h ∈ ops.map (·.1), ((t.unitAt (coreClu w.core)).queue.filter fun e => e.wg == g.wg && e.hw == h).length +
    (ops.filter fun o => o.1 == h).length ≤ 27
  (room → LeavesAfter s u w g i fun x => after (x.enqueue t ops)) ∧ (¬room → exec i s = .next u)

/-- R200: a word whose effect is to enter operations enters them, or waits. -/
theorem enters_of_effect {eff : Issue → Eff} {t : State} {ops : List (Nat × MatOp)} {after : State → State}
    (h : IssuesAfter s u w g i) (hexec : exec i s = .next (u.issueWord w g i none eff))
    (heff : eff (u.issueOf w g i) = ((u.issueOf w g i).queueWord t ops).andThen after) : Enters s u w g i t ops after := by
  refine ⟨fun hroom => hexec.trans (congrArg _ (issueWord_done h (heff.trans ?_))),
    fun hfull => hexec.trans (congrArg _ (issueWord_stall h (heff.trans ?_)))⟩
  · rw [queueWord_done hroom]
    rfl
  · rw [queueWord_stall hfull]
    rfl

/-- R200: a word that reads no table and whose effect is to enter operations enters them, or waits. -/
theorem enters_of_runWord {eff : Issue → Eff} {t : State} {ops : List (Nat × MatOp)} {after : State → State} (h : Issues s w g i)
    (hexec : exec i s = runWord i s eff) (heff : eff (s.issueOf w g i) = ((s.issueOf w g i).queueWord t ops).andThen after) :
    Enters s s w g i t ops after := by
  obtain ⟨hrunning, -⟩ := id h
  exact enters_of_effect h (by rw [hexec, runWord, hrunning]) heff

/-! ## Spans (R209) -/

theorem spanCause_none {off : Int} {len deny : Nat} (h : off % 81 = 0 ∧ 0 ≤ off ∧ off + len ≤ (w.runLen : Int)) :
    spanCause w off len deny = none := by
  obtain ⟨haligned, hlow, hhigh⟩ := h
  rw [spanCause, if_neg (not_not.2 haligned), if_neg (by omega)]

/-! ## Loads (R192, R208, R210) -/

/-- R208, R210: whether a load accepts a descriptor; an MLOADP of p planes asks for p trits of a format without scale. -/
def loadAccepts (planes : Option Nat) (d : MatDesc) : Bool := planes.all fun p => d.wf.q == 0 && decide (p ≤ d.wf.w)

theorem loadAccepts_iff {planes : Option Nat} {d : MatDesc} :
    loadAccepts planes d = true ↔ ∀ p ∈ planes, d.wf.q = 0 ∧ p ≤ d.wf.w := by
  cases planes <;> simp [loadAccepts]

theorem tableFor_mload_read {a : MloadArgs} {o : Option MatDesc}
    (hrange : 0 ≤ g.wordPay * 81 + a.desc.val ∧ g.wordPay * 81 + a.desc.val ≤ 1457)
    (hd : s.descriptorOf w (g.wordPay * 81 + a.desc.val) = (u, o)) :
    s.tableFor w g (.mload a) = (u, { refused := !o.any (loadAccepts none), desc := o }) := by
  have hin : ¬(g.wordPay * 81 + a.desc.val < 0 ∨ 1457 < g.wordPay * 81 + a.desc.val) := by omega
  cases o <;> simp [State.tableFor, Instr.fields, fixF, State.readTable, hd, hin, loadAccepts]

theorem tableFor_mloadp_read {a : MloadpArgs} {o : Option MatDesc}
    (hrange : 0 ≤ g.wordPay * 81 + a.desc.val ∧ g.wordPay * 81 + a.desc.val ≤ 1457)
    (hd : s.descriptorOf w (g.wordPay * 81 + a.desc.val) = (u, o)) :
    s.tableFor w g (.mloadp a) = (u, { refused := !o.any (loadAccepts (some (a.planes.val + 1))), desc := o }) := by
  have hin : ¬(g.wordPay * 81 + a.desc.val < 0 ∨ 1457 < g.wordPay * 81 + a.desc.val) := by omega
  cases o with
  | none => simp [State.tableFor, Instr.fields, fixF, State.readTable, hd, hin]
  | some d =>
    have hplanes : decide ((d.wf.w : Int) < (a.planes.val : Int) - 4 + 5) = !decide (a.planes.val < d.wf.w) := by
      rw [← decide_not]
      exact decide_eq_decide.2 (by omega)
    simp [State.tableFor, Instr.fields, fixF, State.readTable, hd, hin, loadAccepts, hplanes, bne]

/-- A load of a span inside the run enters its operation, takes the counter as its tag and writes it. -/
theorem matLoad_enters {x : Issue} {sd sa : Nat} {planes : Option Nat} {r : TableRead} {d : MatDesc} (hd : r.desc = some d)
    (hspan : spanCause x.w (x.g.rdS sa).val d.imageLen 8 = none) :
    let clu := coreClu x.w.core
    let tag := (x.s.unitAt clu).counter
    x.matLoad sd sa planes r = (x.queueWord x.s [(x.r.hw, .load tag (x.g.rdS sa).val d planes)]).andThen fun t =>
      x.setS (t.updUnit clu fun m => { m with counter := nextTag m.counter, pending := m.pending ++ [(tag, x.r.wg)] }) sd tag.val := by
  intro clu tag
  simp only [Issue.matLoad, hd, hspan]
  cases x.queueWord x.s [(x.r.hw, .load tag (x.g.rdS sa).val d planes)] <;> rfl

/-- The clause of O20 on a load: it is refused, or enters its operation. -/
theorem load_enters {sd sa : Nat} {planes : Option Nat} {o : Option MatDesc} (h : IssuesAfter s u w g i)
    (hexec : exec i s = runTableWord i s fun r x => x.matLoad sd sa planes r)
    (hread : s.tableFor w g i = (u, { refused := !o.any (loadAccepts planes), desc := o })) :
    let x := u.issueOf w g i
    let off := (x.g.rdS sa).val
    let tag := (x.s.unitAt (coreClu w.core)).counter
    let accepts (d : MatDesc) : Prop := ∀ p ∈ planes, d.wf.q = 0 ∧ p ≤ d.wf.w
    ((∀ d ∈ o, ¬accepts d) →
      exec i s = .next (u.takeFault g.ref (wordOf i) i.pred.eff { cause := 1, detail := 3 })) ∧
    ∀ d, o = some d → accepts d → off % 81 = 0 ∧ 0 ≤ off ∧ off + d.imageLen ≤ (w.runLen : Int) →
      Enters s u w g i x.s [(g.hw, .load tag off d planes)] fun t =>
        x.setS (t.updUnit (coreClu w.core) fun m => { m with counter := nextTag m.counter, pending := m.pending ++ [(tag, g.wg)] })
          sd tag.val := by
  intro x off tag accepts
  have hissue := exec_of_runTableWord h hexec hread
  refine ⟨fun hnone => ?_, fun d ho haccepts hspan => ?_⟩
  · have hrefused : o.any (loadAccepts planes) = false :=
      (Option.any_eq_false ..).2 fun d hd => Bool.eq_false_iff.2 (mt loadAccepts_iff.1 (hnone d hd))
    rw [hissue, hrefused]
    exact congrArg _ (issueWord_refused h)
  · subst ho
    rw [show (some d).any (loadAccepts planes) = true from loadAccepts_iff.2 haccepts] at hissue
    exact enters_of_effect h hissue (matLoad_enters rfl (spanCause_none hspan))

/-! ## Stores (R215) -/

theorem tableFor_mstore_read {a : MstoreArgs} {o : Option Fmt} (hi : i = .mstoreKeep a ∨ i = .mstoreZero a)
    (hf : s.fmtAt w a.fmt.val = (u, o)) :
    s.tableFor w g i = (u, { refused := !o.any (storeOk a.fmt.val), fmt := o }) := by
  have hin : ((a.fmt.val : Nat) : Int) ≤ 26 := by omega
  rcases hi with rfl | rfl <;> simp [State.tableFor, Instr.fields, fixF, State.readTable, hin, hf]

theorem matStore_enters {x : Issue} {a : MstoreArgs} {zero : Bool} {r : TableRead} {f : Fmt} (hf : r.fmt = some f)
    (hspan : spanCause x.w (x.g.rdS a.sd.val).val (27 * storeRow f) 9 = none) :
    x.matStore a zero r = x.queueWord x.s [(x.r.hw, .store (x.w.tileAt a.tile.val) (x.g.rdS a.sd.val).val f zero)] := by
  simp only [Issue.matStore, hf, hspan]

/-- The clause of O20 on a store: it is refused, or enters its operation. -/
theorem store_enters {a : MstoreArgs} {zero : Bool} {o : Option Fmt} (h : IssuesAfter s u w g i)
    (hexec : exec i s = runTableWord i s fun r x => x.matStore a zero r) (hi : i = .mstoreKeep a ∨ i = .mstoreZero a)
    (hf : s.fmtAt w a.fmt.val = (u, o)) :
    let x := u.issueOf w g i
    let off := (x.g.rdS a.sd.val).val
    ((∀ f ∈ o, storeOk a.fmt.val f = false) →
      exec i s = .next (u.takeFault g.ref (wordOf i) i.pred.eff { cause := 1, detail := 3 })) ∧
    ∀ f, o = some f → storeOk a.fmt.val f = true → off % 81 = 0 ∧ 0 ≤ off ∧ off + (27 * storeRow f : Nat) ≤ (w.runLen : Int) →
      Enters s u w g i x.s [(g.hw, .store (w.tileAt a.tile.val) off f zero)] id := by
  intro x off
  have hissue := exec_of_runTableWord h hexec (tableFor_mstore_read hi hf)
  refine ⟨fun hnone => ?_, fun f ho hok hspan => ?_⟩
  · have hrefused : o.any (storeOk a.fmt.val) = false := (Option.any_eq_false ..).2 hnone
    rw [hissue, hrefused]
    exact congrArg _ (issueWord_refused h)
  · subst ho
    rw [show (some f).any (storeOk a.fmt.val) = true from hok] at hissue
    exact enters_of_effect h hissue ((matStore_enters rfl (spanCause_none hspan)).trans (Eff.andThen_id _).symm)

/-! ## Passes and tiles (R202, R212 to R214) -/

theorem rowOp_eq (x : Issue) (tag : Word) (tile depth : Nat) (a : Reg) (t : Nat) :
    x.rowOp tag tile depth a t =
      let ls := x.active.filter fun l => l / 9 == t
      let rows := (ls.filter fun l => (x.pred l).trit 0 == 1).map fun l => (l % 27, (x.reg a l).val)
      let zeroed := (ls.filter fun l => (x.pred l).trit 0 == -1).map (· % 27)
      if rows = [] ∧ zeroed = [] then none
      else some (x.r.hw + t / 3, MatOp.row tag tile (t % 3) rows zeroed depth) := by
  simp only [Issue.rowOp, List.isEmpty_iff]
  rfl

/-- R202: the row operations of an MPASS, of the thirds that its lanes supply or zero. -/
def Issue.rowOps (x : Issue) (tag : Word) (tile : Nat) (a : Reg) (depth : Nat) : List (Nat × MatOp) :=
  (List.range 9).filterMap (x.rowOp tag tile depth a)

/-- R209, R212: an MPASS of a live tag whose rows lie in the run enters its rows. -/
theorem mpass_enters {a : MpassArgs} {d : MatDesc} (h : Issues s w g (.mpass a)) :
    let x := s.issueOf w g (.mpass a)
    let tag := x.g.rdS a.sb.val
    (x.s.unitAt (coreClu w.core)).descOf tag = some d →
    (∀ l ∈ x.active, (x.pred l).trit 0 = 1 →
      (x.reg a.a l).val % 81 = 0 ∧ 0 ≤ (x.reg a.a l).val ∧ (x.reg a.a l).val + d.rowLen ≤ (w.runLen : Int)) →
    Enters s s w g (.mpass a) x.s (x.rowOps tag (w.tileAt a.tile.val) a.a (depthOf d.wf)) id := by
  intro x tag hd hspans
  refine enters_of_runWord h (show exec (.mpass a) s = execMpass a s from rfl) ?_
  have hgood : ((x.active.filter x.selects).filterMap fun l =>
      (spanCause w (x.reg a.a l).val d.rowLen 8).map fun c => (l, c)) = [] := by
    refine List.filterMap_eq_nil_iff.2 fun l hl => ?_
    obtain ⟨hactive, hselects⟩ := List.mem_filter.1 hl
    rw [spanCause_none (hspans l hactive (by simpa [Issue.selects] using hselects))]
    rfl
  simp only [x, tag] at hd hgood
  simp only [issueOf_w, hd, hgood, Eff.andThen_id]
  rfl

/-- R203: an MPASS of a dead tag enters its zeroing operations, and its rows are stale. -/
theorem mpass_enters_dead {a : MpassArgs} (h : Issues s w g (.mpass a)) :
    let x := s.issueOf w g (.mpass a)
    let tag := x.g.rdS a.sb.val
    let ops := x.rowOps tag (w.tileAt a.tile.val) a.a 243
    (x.s.unitAt (coreClu w.core)).descOf tag = none →
    Enters s s w g (.mpass a) x.s (ops.filter fun o => o.2.isZeroing) fun t =>
      t.countStale (coreClu w.core) g.wg g.hw (ops.filter fun o => !o.2.isZeroing).length := by
  intro x tag ops hd
  refine enters_of_runWord h (show exec (.mpass a) s = execMpass a s from rfl) ?_
  simp only [x, tag] at hd
  simp only [issueOf_w, hd, List.partition_eq_filter_filter]
  rfl

/-- R214: the cells that an MWR writes are those of the lanes whose trit is not 0. -/
theorem cells_eq (ls : List Nat) (pred : Nat → Trits 3) (cell : Nat → Nat) (v : Nat → Word) :
    (ls.filterMap fun l => let t := (pred l).trit 0; if t = 0 then none else some (cell l, if t = 1 then v l else zeroW)) =
      (ls.filter fun l => (pred l).trit 0 != 0).map fun l => (cell l, if (pred l).trit 0 = 1 then v l else zeroW) := by
  induction ls with
  | nil => rfl
  | cons l ls ih => by_cases h : (pred l).trit 0 = 0 <;> simp [h, ih]

/-! ## The words of the statement -/

/-- Settles O20: each word's effect is to enter operations (enters_of_effect), of which load_enters and store_enters say the formats and
the spans; rows are those of rowOp_eq. -/
theorem matrixWordsEnterQueues : Obligations.MatrixWordsEnterQueues := by
  unfold Obligations.MatrixWordsEnterQueues
  intro s w g clu room entered entersAfter enters refuses within loads stores
  refine ⟨?mload, ?mloadp, ?mact, ?mpass, ?mzero, ?mwr, ?mstoreKeep, ?mstoreZero⟩
  case mload =>
    intro a u o hd h
    exact load_enters (sd := a.sd.val) (sa := a.sa.val) h rfl (tableFor_mload_read (desc_range h rfl rfl) hd)
  case mloadp =>
    intro a u o hd h
    exact load_enters (sd := a.sd.val) (sa := a.sa.val) h rfl (tableFor_mloadp_read (desc_range h rfl rfl) hd)
  case mact =>
    intro sa h x tag
    have hexec : exec (.mact sa) s = execMact sa s := rfl
    rw [execMact] at hexec
    split
    next hretired => exact hexec.trans (runWord_done h (if_pos hretired))
    next hlive => exact enters_of_runWord h hexec ((if_neg hlive).trans (Eff.andThen_id _).symm)
  case mpass =>
    intro a h x tag ops
    have hops : x.rowOps tag (w.tileAt a.tile.val) a.a = ops := by
      funext depth
      exact congrArg (List.filterMap · _) (funext fun t => rowOp_eq ..)
    split
    next d hd =>
      intro hspans
      exact hops ▸ mpass_enters h hd hspans
    next hd => exact hops ▸ mpass_enters_dead h hd
  case mzero =>
    intro tile h
    exact enters_of_runWord h rfl (Eff.andThen_id _).symm
  case mwr =>
    intro a h x b cells hlo hhi
    have hexec : exec (.mwr a) s = execMwr a s := rfl
    rw [execMwr] at hexec
    have hin : ¬(x.simm a.b < 0 ∨ x.simm a.b > 728) := by omega
    refine ⟨fun hnone => hexec.trans (runWord_done h ?_), fun hsome => enters_of_runWord h hexec ?_⟩
    · simp only [x] at hin
      simp only [hin, if_false, cells_eq]
      exact if_pos (List.isEmpty_iff.2 hnone)
    · simp only [x] at hin
      simp only [hin, if_false, cells_eq, Eff.andThen_id]
      exact if_neg (mt List.isEmpty_iff.1 hsome)
  case mstoreKeep =>
    intro a u o hf h
    exact store_enters h rfl (.inl rfl) hf
  case mstoreZero =>
    intro a u o hf h
    exact store_enters h rfl (.inr rfl) hf

end Sys2Proof.Machine
end

section
/-! The state after a device reset (09_matrix_unit.md R191, R192; 27_host_and_package.md R436, R441, R443). -/

namespace Sys2Proof.Machine

/-- Settles O59: nothing is listed at reset, so that every read gives the default of its map, and every die boots. -/
theorem resetState : Obligations.ResetState := by
  unfold Obligations.ResetState
  refine ⟨Memory.wf_reset, rfl, fun _ _ _ _ => rfl, fun _ => rfl, fun _ => rfl, fun _ => ⟨rfl, rfl, rfl, rfl, rfl, rfl⟩, rfl,
    fun _ => rfl, fun _ _ _ => rfl, fun _ => ⟨rfl, rfl, rfl⟩, rfl, rfl, ?_⟩
  intro die hdie
  have hboots : ∀ d < 4, State.reset.dieStatus.getD d 0 = 1 := by decide
  exact hboots die hdie

end Sys2Proof.Machine
end

section
/-! The canonical form of memory as an invariant (10_memories.md R217, R222, R226): what keeps it through choices, folds and steps that may
fail, and through the issue of a word. -/

namespace Sys2Proof.Machine

/-! ## What keeps the form -/

/-- The form rests on the three stores alone, whatever else an update changes. -/
@[simp] theorem wf_update (s : State) (agenda turns free cur stamp nextId time wgs groups cores units llc ctlbs copyUpdates bad windows counters
    world errata tabWrites barriers kernels spawns polls ready walkers knodes contexts consumers partitions rings unrooted mailboxes
    dfqs late refusals copies arrivals marks dieStatus nonce attest quote sign links transfers irqs hostReads xgOut clocks lags) :
    Memory.wf ⟨agenda, turns, free, cur, stamp, nextId, time, wgs, groups, cores, units, s.scr, s.chip, s.dram, llc, ctlbs, copyUpdates, bad,
      windows, counters, world, errata, tabWrites, barriers, kernels, spawns, polls, ready, walkers, knodes, contexts, consumers, partitions,
      rings, unrooted, mailboxes, dfqs, late, refusals, copies, arrivals, marks, dieStatus, nonce, attest, quote, sign, links, transfers,
      irqs, hostReads, xgOut, clocks, lags⟩ = Memory.wf s := rfl

section
variable {c : Prop} [Decidable c] {α : Type}

@[simp] theorem wf_ite (s t : State) : Memory.wf (if c then s else t) = if c then Memory.wf s else Memory.wf t := apply_ite ..

@[simp] theorem wf_ite_fst (p q : State × α) : Memory.wf (if c then p else q).1 = if c then Memory.wf p.1 else Memory.wf q.1 :=
  apply_ite (fun r : State × α => Memory.wf r.1) ..

@[simp] theorem wf_ite_snd (p q : α × State) : Memory.wf (if c then p else q).2 = if c then Memory.wf p.2 else Memory.wf q.2 :=
  apply_ite (fun r : α × State => Memory.wf r.2) ..

/-- Either way of a choice keeps the form. -/
theorem ite_wf {s t : State} (hs : c → Memory.wf s = true) (ht : ¬c → Memory.wf t = true) : Memory.wf (if c then s else t) = true := by
  split
  · exact hs ‹_›
  · exact ht ‹_›

theorem ite_fst_wf {p q : State × α} (hp : c → Memory.wf p.1 = true) (hq : ¬c → Memory.wf q.1 = true) :
    Memory.wf (if c then p else q).1 = true := by
  rw [wf_ite_fst]
  split
  · exact hp ‹_›
  · exact hq ‹_›

theorem ite_snd_wf {p q : α × State} (hp : c → Memory.wf p.2 = true) (hq : ¬c → Memory.wf q.2 = true) :
    Memory.wf (if c then p else q).2 = true := by
  rw [wf_ite_snd]
  split
  · exact hp ‹_›
  · exact hq ‹_›

end

theorem foldl_snd_wf {β γ : Type} {f : γ × State → β → γ × State}
    (hf : ∀ a b, Memory.wf a.2 = true → Memory.wf (f a b).2 = true) (xs : List β) {a : γ × State} (h : Memory.wf a.2 = true) :
    Memory.wf (xs.foldl f a).2 = true := by
  induction xs generalizing a with
  | nil => exact h
  | cons x xs ih => exact ih (hf a x h)

/-- Where a step that may fail goes on, it leaves a state whose memory has its form. -/
def OkWf {ε α : Type} (st : α → State) (r : Except ε α) : Prop := ∀ a, r = .ok a → Memory.wf (st a) = true

section
variable {ε α β : Type} {st : α → State}

@[simp] theorem okWf_ok {a : α} : OkWf st (.ok a : Except ε α) ↔ Memory.wf (st a) = true :=
  ⟨fun h => h a rfl, fun h b e => by cases e; exact h⟩

@[simp] theorem okWf_error {e : ε} : OkWf st (.error e : Except ε α) := fun _ he => nomatch he

theorem okWf_bind {st' : β → State} {r : Except ε β} {f : β → Except ε α} (hr : OkWf st' r)
    (hf : ∀ b, Memory.wf (st' b) = true → OkWf st (f b)) : OkWf st (r >>= f) := by
  intro a he
  obtain ⟨b, hb, he⟩ := bind_ok he
  exact hf b (hr b hb) a he

/-- A check before a step reads the state alone. -/
theorem okWf_check {r : Except ε β} {f : β → Except ε α} (hf : ∀ b, r = .ok b → OkWf st (f b)) : OkWf st (r >>= f) := by
  intro a he
  obtain ⟨b, hb, he⟩ := bind_ok he
  exact hf b hb a he

theorem okWf_map {st' : β → State} {r : Except ε β} {f : β → α} (hr : OkWf st' r)
    (hf : ∀ b, Memory.wf (st' b) = true → Memory.wf (st (f b)) = true) : OkWf st (r.map f) := by
  intro a he
  obtain ⟨b, hb, rfl⟩ := map_ok he
  exact hf b (hr b hb)

theorem ite_okWf {c : Prop} [Decidable c] {r r' : Except ε α} (hr : c → OkWf st r) (hr' : ¬c → OkWf st r') :
    OkWf st (if c then r else r') := by
  split
  · exact hr ‹_›
  · exact hr' ‹_›

theorem okWf_foldE {f : State → β → Except ε State} (hf : ∀ s b, Memory.wf s = true → OkWf id (f s b)) (xs : List β) {s : State}
    (h : Memory.wf s = true) : OkWf id (foldE f s xs) :=
  fun _ he => foldE_wf (fun s b t hb hs => hf s b hs t hb) xs he h

/-- Where a turn that may not be due happens, it leaves a state whose memory has its form. -/
def MayWf (st : α → State) (o : Option α) : Prop := ∀ a, o = some a → Memory.wf (st a) = true

@[simp] theorem mayWf_some {a : α} : MayWf st (some a) ↔ Memory.wf (st a) = true :=
  ⟨fun h => h a rfl, fun h b e => by cases e; exact h⟩

@[simp] theorem mayWf_none : MayWf st none := fun _ he => nomatch he

theorem mayWf_bind {o : Option β} {f : β → Option α} (hf : ∀ b, o = some b → MayWf st (f b)) : MayWf st (o.bind f) := by
  intro a he
  obtain ⟨b, hb, he⟩ := Option.bind_eq_some_iff.1 he
  exact hf b hb a he

theorem mayWf_map {o : Option β} {f : β → α} (hf : ∀ b, o = some b → Memory.wf (st (f b)) = true) : MayWf st (o.map f) := by
  intro a he
  obtain ⟨b, hb, rfl⟩ := Option.map_eq_some_iff.1 he
  exact hf b hb

theorem ite_mayWf {c : Prop} [Decidable c] {r r' : Option α} (hr : c → MayWf st r) (hr' : ¬c → MayWf st r') :
    MayWf st (if c then r else r') := by
  split
  · exact hr ‹_›
  · exact hr' ‹_›

end

/-- What a word leaves, where it does not stall, is a state whose memory has its form. -/
def Eff.Wf : Eff → Prop
  | .done s | .trapIn s _ | .hold s => Memory.wf s = true
  | .trap _ | .stall => True

@[simp] theorem effWf_done {s : State} : (Eff.done s).Wf ↔ Memory.wf s = true := Iff.rfl
@[simp] theorem effWf_trapIn {s : State} {f : Fail} : (Eff.trapIn s f).Wf ↔ Memory.wf s = true := Iff.rfl
@[simp] theorem effWf_hold {s : State} : (Eff.hold s).Wf ↔ Memory.wf s = true := Iff.rfl
@[simp] theorem effWf_trap {f : Fail} : (Eff.trap f).Wf := trivial
@[simp] theorem effWf_stall : Eff.stall.Wf := trivial

@[simp] theorem effWf_ite {c : Prop} [Decidable c] {r r' : Eff} : (if c then r else r').Wf ↔ if c then r.Wf else r'.Wf := by
  split <;> exact Iff.rfl

theorem ite_effWf {c : Prop} [Decidable c] {r r' : Eff} (hr : c → r.Wf) (hr' : ¬c → r'.Wf) : (if c then r else r').Wf := by
  split
  · exact hr ‹_›
  · exact hr' ‹_›

/-- A turn that goes on leaves a state whose memory has its form. -/
def OutWf (o : Host.Outcome State Fault Refusal) : Prop := ∀ t, o = .next t → Memory.wf t = true

@[simp] theorem outWf_next {s : State} : OutWf (.next s) ↔ Memory.wf s = true :=
  ⟨fun h => h s rfl, fun h t e => by cases e; exact h⟩

/-! ## The issue of a word -/

@[simp] theorem takeFault_wf {s : State} (r : GroupRef) (word : Word) (pred : Lane → Trits 3) (f : Fail) (h : Memory.wf s = true) :
    Memory.wf (s.takeFault r word pred f) = true := by
  simp only [State.takeFault]
  split
  · exact h
  · exact trapEnter_wf _ _ h

@[simp] theorem chooseOld_wf {s : State} (byWord : Bool) (h : Memory.wf s = true) : Memory.wf (chooseOld s byWord).2 = true :=
  foldl_snd_wf (fun _ _ ha => by simpa using ha) _ h


/-- A word whose reads and lanes stand in states whose memory has its form. -/
structure Issue.Wf (x : Issue) : Prop where
  before : Memory.wf x.s0 = true
  after : Memory.wf x.s = true

@[simp] theorem viewPend_wf {acc : Group × State} (p : Pending) (h : Memory.wf acc.2 = true) : Memory.wf (viewPend acc p).2 = true := by
  unfold viewPend
  split
  · exact h
  dsimp only
  split
  · exact h
  split
  · split
    · exact h
    · exact chooseOld_wf _ h
  · refine foldl_snd_wf (fun _ _ ha => ?_) _ h
    exact chooseOld_wf _ ha

@[simp] theorem landPend_wf {acc : Group × State} (i : Instr) (active : List Nat) (p : Pending) (h : Memory.wf acc.2 = true) :
    Memory.wf (landPend i active acc p).2 = true := by
  unfold landPend
  split
  · exact h
  refine ite_snd_wf (fun _ => h) fun _ => ?_
  refine List.foldlRecOn (motive := fun a : Group × State × List PendLane => Memory.wf a.2.1 = true) _ _ h fun a ha l _ => ?_
  dsimp only
  split_ifs <;> exact ha

@[simp] theorem after_wf {s : State} (x : Issue) (h : Memory.wf s = true) : Memory.wf (x.after s) = true := by
  unfold Issue.after
  refine ite_wf (fun _ => by simpa using h) fun _ => ?_
  refine foldl_wf (fun s r hs => ite_wf (fun _ => by simpa using hs) fun _ => hs) _ ?_
  exact foldl_wf (fun s r hs => by simpa using hs) _ (by simpa using h)

theorem issueOf_wf {s : State} (w : Workgroup) (g : Group) (i : Instr) (h : Memory.wf s = true) : (s.issueOf w g i).Wf := by
  have hlanded : Memory.wf (g.pend.foldl (landPend i g.run.active) (g, s)).2 = true := foldl_snd_wf (fun _ p ha => landPend_wf _ _ p ha) _ h
  have hbefore : Memory.wf (s.issueOf w g i).s0 = true := by
    unfold State.issueOf
    exact ite_wf (fun _ => h) fun _ => foldl_snd_wf (fun _ p ha => viewPend_wf p ha) _ hlanded
  exact ⟨hbefore, (progEvent_wf ..).trans hbefore⟩

/-- A word that is issued keeps the form where its effect does. -/
theorem issueWord_wf {s : State} (w : Workgroup) (g : Group) (i : Instr) (busy : Option Fail) {eff : Issue → Eff} (h : Memory.wf s = true)
    (heff : ∀ x : Issue, x.Wf → (eff x).Wf) : Memory.wf (s.issueWord w g i busy eff) = true := by
  have hx := issueOf_wf w g i h
  have he := heff _ hx
  unfold State.issueWord
  split
  · exact takeFault_wf _ _ _ _ h
  dsimp only
  split
  · exact h
  split <;> rename_i hc <;> rw [hc] at he
  · exact after_wf _ he
  · exact takeFault_wf _ _ _ _ hx.before
  · exact takeFault_wf _ _ _ _ he
  · exact h
  · simpa using he

theorem runWord_wf {s : State} {i : Instr} {eff : Issue → Eff} (h : Memory.wf s = true) (heff : ∀ x : Issue, x.Wf → (eff x).Wf) :
    OutWf (runWord i s eff) := by
  unfold runWord
  split
  · simpa using h
  · exact outWf_next.2 (issueWord_wf _ _ _ _ h heff)

theorem runEvent_wf {s : State} {f : State → Option State} (h : Memory.wf s = true)
    (hf : ∀ t : State, Memory.wf t = true → MayWf id (f t)) : OutWf (runEvent s f) := outWf_next.2 (getD_wf h (hf s h))

/-! ## Operands and results -/

@[simp] theorem setS_wf (x : Issue) {s : State} (n : Nat) (v : Int) (h : Memory.wf s = true) : Memory.wf (x.setS s n v) = true := by
  simp [Issue.setS, h]

@[simp] theorem begin_wf (x : Issue) {s : State} (lanes : List PendLane) (performed : Bool) (stores : List StoreElem)
    (todo : List MemElem) (h : Memory.wf s = true) : Memory.wf (x.begin s lanes performed stores todo) = true := by
  simp [Issue.begin, h]

@[simp] theorem empty_wf {x : Issue} (hx : x.Wf) : x.empty.Wf := by
  simpa [Issue.empty] using hx.after

/-! ## Tables -/

theorem structRead_okWf {s : State} (w : Who) (va : Int) (n : Nat) (h : Memory.wf s = true) : OkWf Prod.fst (s.structRead w va n) :=
  fun _ he => structRead_wf n he h

@[simp] theorem entryNow_wf {s : State} (w : Workgroup) (off n : Nat) (h : Memory.wf s = true) : Memory.wf (s.entryNow w off n).1 = true := by
  unfold State.entryNow
  refine ite_fst_wf (fun _ => h) fun _ => ?_
  split
  · exact h
  split
  · exact h
  next he =>
    have hs := structRead_wf n he h
    simpa using hs

@[simp] theorem tableEntry_wf {s : State} (w : Workgroup) (off n : Nat) (h : Memory.wf s = true) :
    Memory.wf (s.tableEntry w off n).1 = true := by
  unfold State.tableEntry
  split
  · exact entryNow_wf _ _ _ h
  dsimp only
  split
  · simpa using h
  · exact entryNow_wf _ _ _ (by simpa using h)

@[simp] theorem fmtAt_wf {s : State} (w : Workgroup) (i : Nat) (h : Memory.wf s = true) : Memory.wf (s.fmtAt w i).1 = true := by
  unfold State.fmtAt
  split
  · exact h
  · simp [h]

@[simp] theorem descriptorOf_wf {s : State} (w : Workgroup) (v : Int) (h : Memory.wf s = true) : Memory.wf (s.descriptorOf w v).1 = true := by
  simp [State.descriptorOf, h]

@[simp] theorem readTable_wf {s : State} (w : Workgroup) (f : Fields) (v : Int) (h : Memory.wf s = true) :
    Memory.wf (s.readTable w f v).1 = true := by
  simp [State.readTable, h]

@[simp] theorem tableFor_wf {s : State} (w : Workgroup) (g : Group) (i : Instr) (h : Memory.wf s = true) :
    Memory.wf (s.tableFor w g i).1 = true := by
  unfold State.tableFor
  split
  · exact readTable_wf _ _ _ h
  · exact h

theorem runTableWord_wf {s : State} {i : Instr} {eff : TableRead → Issue → Eff} (h : Memory.wf s = true)
    (heff : ∀ r, ∀ x : Issue, x.Wf → (eff r x).Wf) : OutWf (runTableWord i s eff) := by
  unfold runTableWord
  split
  · simpa using h
  · exact outWf_next.2 (issueWord_wf _ _ _ _ (tableFor_wf _ _ _ h) (heff _))

@[simp] theorem shapeAt_wf {s : State} (w : Workgroup) (b : Int) (h : Memory.wf s = true) : Memory.wf (s.shapeAt w b).1 = true := by
  simp [State.shapeAt, h]

@[simp] theorem patternAt_wf {s : State} (w : Workgroup) (b : Int) (h : Memory.wf s = true) : Memory.wf (s.patternAt w b).1 = true := by
  simp [State.patternAt, h]

/-! ## Fetching -/

theorem fetchWindow_okWf {s : State} (w : Workgroup) (start : Int) (h : Memory.wf s = true) : OkWf Prod.fst (s.fetchWindow w start) := by
  unfold State.fetchWindow
  split
  · exact okWf_error
  next he =>
    obtain ⟨k, -, hk⟩ := List.exists_of_findSome?_eq_some he
    split at hk
    · next ht =>
      cases hk
      exact okWf_check fun ps _ => okWf_bind (fun _ he => readElem_wf he (translate_wf ht h)) fun _ hb => okWf_ok.2 hb
    · cases hk

theorem fetchBytes_okWf {s : State} (w : Workgroup) (va : Int) (h : Memory.wf s = true) : OkWf Prod.fst (s.fetchBytes w va) := by
  refine okWf_bind (fun _ he => translate_wf he h) fun b hb => ?_
  dsimp only
  split
  · split
    · exact okWf_bind (fun _ he => llcRead_wf he hb) fun _ hb => by simpa using hb
    · split
      · simpa using hb
      next he =>
        have hs := llcRead_wf he hb
        exact ite_okWf (fun _ => okWf_ok.2 hb) fun _ => ite_okWf (fun _ => okWf_ok.2 hb) fun _ => okWf_ok.2 hs
  · exact fetchWindow_okWf _ _ hb

theorem fetchWord_okWf {s : State} (w : Workgroup) (r : GroupRef) (run : Run) (pc : Int) (h : Memory.wf s = true) :
    OkWf Prod.fst (s.fetchWord w r run pc) := by
  unfold State.fetchWord
  dsimp only
  split
  · simpa using h
  · exact okWf_bind (fetchBytes_okWf _ _ h) fun _ hb => by simpa using hb

@[simp] theorem unpark_wf (s : State) (c : Option (Nat × Nat)) (retry : Bool) : Memory.wf (s.unpark c retry) = Memory.wf s := by
  cases c <;> rfl

/-- What the next turn of a group finds, a word or a whole turn, is a state whose memory has its form. -/
def NextWord.Wf : NextWord → Prop
  | .exec _ s | .stop s => Memory.wf s = true

theorem decodeNext_wf {s : State} (w : Workgroup) (r : GroupRef) (v : Int) (lits : Nat) (h : Memory.wf s = true) :
    (s.decodeNext w r v lits).Wf := by
  unfold State.decodeNext
  split
  · exact h
  · exact takeFault_wf _ _ _ _ (ite_fst_wf (fun _ => readTable_wf _ _ _ h) fun _ => h)

theorem fetchNext_wf {s : State} (w : Workgroup) (g : Group) (h : Memory.wf s = true) : (s.fetchNext w g).Wf := by
  unfold State.fetchNext
  dsimp only
  split
  · exact h
  split
  · exact takeFault_wf _ _ _ _ h
  split
  · exact takeFault_wf _ _ _ _ h
  split
  · exact takeFault_wf _ _ _ _ h
  next he => exact decodeNext_wf _ _ _ _ (fetchWord_okWf _ _ _ _ h _ he)

theorem reissueHead_wf {s : State} (w : Workgroup) (g : Group) (q : Resuming) (e : ReEntry) (h : Memory.wf s = true) :
    (s.reissueHead w g q e).Wf := by
  unfold State.reissueHead
  dsimp only
  split
  · exact h
  split
  · exact decodeNext_wf _ _ _ _ h
  · exact fetchNext_wf _ _ h

theorem reissueNext_wf {s : State} (w : Workgroup) (g : Group) (q : Resuming) (e : ReEntry) (rest : List ReEntry) (h : Memory.wf s = true) :
    (s.reissueNext w g q e rest).Wf := by
  unfold State.reissueNext
  dsimp only
  split
  · exact h
  split
  · exact decodeNext_wf _ _ _ _ h
  · exact fetchNext_wf _ _ h

theorem nextWord_wf {s : State} (w : Workgroup) (g : Group) (h : Memory.wf s = true) : (s.nextWord w g).Wf := by
  unfold State.nextWord
  split
  · exact h
  split
  · split
    · exact decodeNext_wf _ _ _ _ h
    · exact fetchNext_wf _ _ h
  split
  · exact fetchNext_wf _ _ h
  split
  · exact reissueNext_wf _ _ _ _ _ h
  split
  · exact h
  split
  · exact h
  split
  · exact (unpark_wf ..).trans h
  · exact reissueHead_wf _ _ _ _ h

theorem nextTurn_wf {s : State} (h : Memory.wf s = true) : Memory.wf s.nextTurn.2 = true := by
  unfold State.nextTurn
  split <;> exact h

end Sys2Proof.Machine
end

section
/-! The canonical form of memory through the words of registers and of control (08_control_and_lane_instructions.md R171 to R190). -/

namespace Sys2Proof.Machine

/-! ## Words of registers and of control -/

@[simp] theorem shapes_wf {x : Issue} (b : Src) (hx : x.Wf) : Memory.wf (x.shapes b).1 = true := by
  refine foldl_fst_wf (fun _ _ ha => ?_) _ hx.after
  exact shapeAt_wf _ _ ha

theorem longFloat_wf {x : Issue} (ty : Ty) (f : Nat → Nat → Option (Int × Flags)) (hx : x.Wf) : (x.longFloat ty f).Wf :=
  ite_effWf (fun _ => empty_wf hx) fun _ => ite_effWf (fun _ => begin_wf _ _ _ _ _ hx.after) fun _ => effWf_stall

theorem transfer_wf (x : Issue) {s : State} (c : Choice) (next : List (Nat × Int × Bool)) (h : Memory.wf s = true) :
    (x.transfer s c next).Wf := by
  cases c <;> simp [Issue.transfer, h]

theorem jump_wf (x : Issue) {s : State} (c : List Nat → List Nat → Choice) (sel : Nat → Bool) (target : Nat → Int)
    (h : Memory.wf s = true) : (x.jump s c sel target).Wf := transfer_wf x _ _ h

theorem release_wf (x : Issue) {s0 s : State} (fell : List Nat) (ts : List (Nat × Int)) (h0 : Memory.wf s0 = true) (h : Memory.wf s = true) :
    (x.release s0 s fell ts).Wf := by
  unfold Issue.release
  dsimp only
  split
  · exact h0
  · exact h

theorem callFresh_wf {x : Issue} (a : CalliArgs) (sel fell : List Nat) (hx : x.Wf) : (x.callFresh a sel fell).Wf := by
  unfold Issue.callFresh
  dsimp only
  split <;> exact release_wf x _ _ hx.before hx.after

theorem calli_wf {x : Issue} (a : CalliArgs) (hx : x.Wf) : (x.calli a).Wf := by
  unfold Issue.calli
  dsimp only
  split
  · split
    · exact release_wf x _ _ hx.before hx.after
    · exact callFresh_wf _ _ _ hx
  · exact callFresh_wf _ _ _ hx

@[simp] theorem flipFlag_wf {s : State} (b : Bool) (h : Memory.wf s = true) : Memory.wf (s.flipFlag b).2 = true := by
  simp [State.flipFlag, h]

theorem someFlags_wf {s : State} (f : Flags) (h : Memory.wf s = true) : Memory.wf (s.someFlags f).2 = true :=
  flipFlag_wf _ (flipFlag_wf _ (flipFlag_wf _ (flipFlag_wf _ (flipFlag_wf _ (flipFlag_wf _ h)))))

theorem mayFlags_wf {x : Issue} (hx : x.Wf) : Memory.wf x.mayFlags.2 = true :=
  foldl_snd_wf (fun _ p ha => foldl_snd_wf (fun _ l ha => someFlags_wf l.flags ha) p.lanes ha) _ hx.after

theorem patternFor_wf {x : Issue} (b : SImm) (hx : x.Wf) :
    Memory.wf (if x.active.any x.selects then x.s.patternAt x.w (x.simm b) else (x.s, none)).1 = true := by
  simp [hx.after]

@[simp] theorem next_wf (x : Issue) {s : State} (h : Memory.wf s = true) : Memory.wf (x.next s) = true := by
  simp [Issue.next, h]

theorem execExit_wf {s : State} (p : Pred) (h : Memory.wf s = true) : OutWf (execExit p s) :=
  runWord_wf h fun _ hx => exitLanes_wf _ _ hx.after

theorem execXperm_wf {s : State} (a : XpermArgs) (h : Memory.wf s = true) : OutWf (execXperm a s) :=
  runWord_wf h fun _ hx => patternFor_wf a.b hx

end Sys2Proof.Machine
end

section
/-! The canonical form of memory through the memory words (12_memory_instructions.md R271 to R284). -/

namespace Sys2Proof.Machine

/-! ## Accesses of memory words (R248 to R273) -/

theorem coherentRead_okWf {s : State} (w : Who) (va : Int) (h : Memory.wf s = true) : OkWf Prod.fst (s.coherentRead w va) := by
  refine okWf_bind (fun _ he => structPlace_wf he h) fun a ha => ?_
  refine okWf_bind (fun _ he => homeRead_wf he ?_) fun b hb => okWf_ok.2 hb
  split
  · simpa using cleanLine_wf _ _ _ ha
  · exact ha

theorem coherentWrite_okWf {s : State} (w : Who) (va v : Int) (h : Memory.wf s = true) : OkWf id (s.coherentWrite w va v) := by
  refine okWf_bind (fun _ he => structPlace_wf he h) fun a ha => ?_
  refine okWf_bind (st' := id) (fun _ he => homeWrite_wf he (drainLine_wf _ _ ?_)) fun b hb => okWf_ok.2 ?_
  · split
    · exact cleanLine_wf _ _ _ ha
    · exact ha
  · split
    · exact (l1Patch_wf ..).trans hb
    · exact hb

@[simp] theorem useBarrier_wf (s : State) (w : Workgroup) (sp : Space) (addr : Int) : Memory.wf (s.useBarrier w sp addr) = Memory.wf s := by
  simp [State.useBarrier]

theorem resolveElem_wf (x : Issue) (sp : Space) (k : AccKind) (wd : Width) (p : PendLane) {acc : State × Checked} (j : Nat)
    (h : Memory.wf acc.1 = true) : Memory.wf (x.resolveElem sp k wd p acc j).1 = true := by
  unfold Issue.resolveElem
  dsimp only
  split
  next he => exact resolve_wf he h
  · exact ite_fst_wf (fun _ => h) fun _ => refusedAccess_wf _ _ _ h

@[simp] theorem resolveAll_wf (x : Issue) {s : State} (sp : Space) (k : AccKind) (wd : Width) (ps : List PendLane) (h : Memory.wf s = true) :
    Memory.wf (x.resolveAll s sp k wd ps).1 = true :=
  foldl_fst_wf (fun _ p ha => foldl_fst_wf (fun _ j ha => resolveElem_wf x sp k wd p j ha) _ ha) _ h

theorem memFault_wf (x : Issue) {s : State} (ps : List PendLane) (bad : List Bad) (h : Memory.wf s = true) : (x.memFault s ps bad).Wf := by
  unfold Issue.memFault
  cases x.i.slotOf <;> simp [h]

@[simp] theorem releaseCore_wf {s : State} (c : Ctx) (core : Nat) (sc : Scope) (ls : Lines) (h : Memory.wf s = true) :
    Memory.wf (s.releaseCore c core sc ls) = true := by
  unfold State.releaseCore
  have hclean : Memory.wf (if Scope.beyondCore sc then s.cleanLines core ls else s) = true := by simp [h]
  exact ite_wf (fun _ => drainFor_wf _ _ _ hclean) fun _ => hclean

@[simp] theorem releaseAt_wf {s : State} (w : Workgroup) (sc : Scope) (ls : Lines) (h : Memory.wf s = true) :
    Memory.wf (s.releaseAt w sc ls) = true := releaseCore_wf _ _ _ _ h

@[simp] theorem acquireAt_wf (s : State) (w : Workgroup) (sc : Scope) (ls : Lines) : Memory.wf (s.acquireAt w sc ls) = Memory.wf s := by
  simp [State.acquireAt]

@[simp] theorem remoteFlush_wf {s : State} (w : Workgroup) (sc : Scope) (h : Memory.wf s = true) : Memory.wf (s.remoteFlush w sc) = true :=
  foldl_wf (fun _ _ hs => releaseCore_wf _ _ _ _ hs) _ h

@[simp] theorem arrive_wf (s : State) (by_ wg core : Nat) (k : ArrivalKind) : Memory.wf (s.arrive by_ wg core k) = Memory.wf s := rfl

/-! ## Stores (R276) -/

@[simp] theorem sendDiverted_wf {s : State} (by_ : Nat) (issuer : Option (Nat × Nat × Nat)) (n : Nat) (es : List StoreElem)
    (h : Memory.wf s = true) : Memory.wf (s.sendDiverted by_ issuer n es).1 = true := by
  refine foldl_fst_wf (fun a _ ha => ?_) _ h
  split <;> exact ha

@[simp] theorem storeFailed_wf {s : State} (w : Workgroup) (r : GroupRef) (p : Pending) (fs : List StoreFail) (h : Memory.wf s = true) :
    Memory.wf (s.storeFailed w r p fs) = true := by
  refine foldl_wf (fun s c hs => ?_) _ h
  refine ite_wf (fun _ => hs) fun _ => ?_
  exact foldl_wf (fun _ _ hs => (noteLate_wf ..).trans hs) _ hs

@[simp] theorem noteOld_wf (copy : Option Nat) (s : State) (e : StoreElem) : Memory.wf (noteOld copy s e) = Memory.wf s := by
  unfold noteOld
  split
  · split <;> rfl
  · rfl

@[simp] theorem foldl_noteOld_wf {s : State} (copy : Option Nat) (es : List StoreElem) (h : Memory.wf s = true) :
    Memory.wf (es.foldl (noteOld copy) s) = true :=
  foldl_wf (fun _ _ hs => (noteOld_wf ..).trans hs) _ h

@[simp] theorem performForm_wf {s : State} (w : Workgroup) (r : GroupRef) (p : Pending) (wd : Width) (q : Option Qual)
    (h : Memory.wf s = true) : Memory.wf (s.performForm w r p wd q) = true := by
  refine (updGroup_wf ..).trans (storeFailed_wf _ _ _ _ (performStores_wf _ _ _ _ _ (foldl_noteOld_wf _ _ (sendDiverted_wf _ _ _ _ ?_))))
  split
  · exact ite_wf (fun _ => releaseAt_wf _ _ _ h) fun _ => h
  · exact h

@[simp] theorem performOne_wf {s : State} (w : Workgroup) (r : GroupRef) (p : Pending) (h : Memory.wf s = true) :
    Memory.wf (s.performOne w r p) = true := by
  unfold State.performOne
  split
  · exact h
  · exact performForm_wf _ _ _ _ _ h

@[simp] theorem settleStores_wf {s : State} (r : GroupRef) (pick : Pending → Bool) (h : Memory.wf s = true) :
    Memory.wf (s.settleStores r pick) = true := by
  unfold State.settleStores
  split
  · exact foldl_wf (fun _ p hs => performOne_wf _ _ p hs) _ h
  · exact h

@[simp] theorem settleOver_wf {s : State} (r : GroupRef) (es : List MemElem) (h : Memory.wf s = true) :
    Memory.wf (s.settleOver r es) = true := settleStores_wf _ _ h

/-! ## Loads (R275, R277, R278) -/

@[simp] theorem refusedFills_wf (s : State) (ps : List Place) : Memory.wf (s.refusedFills ps) = Memory.wf s := by
  unfold State.refusedFills
  split
  · exact refusedFill_wf ..
  · rfl

@[simp] theorem readAll_wf (x : Issue) {s : State} (strong : Bool) (wd : Width) (ps : List PendLane) (es : List MemElem)
    (h : Memory.wf s = true) : Memory.wf (x.readAll s strong wd ps es).1 = true := by
  refine foldl_fst_wf (fun a m ha => ?_) _ h
  refine ite_fst_wf (fun _ => ha) fun _ => ?_
  split
  next he => exact readElem_wf he ha
  · exact (refusedFills_wf ..).trans ha

@[simp] theorem sendLoads_wf (x : Issue) {s : State} (es : List MemElem) (h : Memory.wf s = true) : Memory.wf (x.sendLoads s es) = true := by
  refine foldl_wf (fun s m hs => ?_) _ h
  split <;> exact hs

theorem load_wf {x : Issue} (sp : Space) (wd : Width) (q : Option Qual) (uniform : Bool) (addr : Nat → Int) (hx : x.Wf) :
    (x.load sp wd q uniform addr).Wf := by
  unfold Issue.load
  refine ite_effWf (fun _ => empty_wf hx) fun _ => ?_
  split
  · simp [hx.before]
  have hsettled : ∀ s ps es, Memory.wf s = true → Memory.wf (x.readAll (match q with
      | some q => if q.remote then (s.settleOver x.r es).remoteFlush x.w q.scope else s.settleOver x.r es
      | none => s.settleOver x.r es) q.isSome wd ps es).1 = true := by
    intro s ps es hs
    refine readAll_wf _ _ _ _ _ ?_
    split
    · exact ite_wf (fun _ => remoteFlush_wf _ _ (settleOver_wf _ _ hs)) fun _ => settleOver_wf _ _ hs
    · exact settleOver_wf _ _ hs
  have hresolved := fun ps => resolveAll_wf x sp .read wd (acting uniform ps) hx.before
  refine ite_effWf (fun _ => memFault_wf _ _ _ (hresolved _)) fun _ => ?_
  refine ite_effWf (fun _ => effWf_stall) fun _ => ?_
  refine ite_effWf (fun _ => memFault_wf _ _ _ (hsettled _ _ _ (hresolved _))) fun _ => ?_
  exact begin_wf _ _ _ _ _ (sendLoads_wf _ _ (next_wf _ (hsettled _ _ _ (hresolved _))))

theorem store_wf {x : Issue} (sp : Space) (wd : Width) (uniform : Bool) (addr : Nat → Int) (d : Nat → Nat → Word) (hx : x.Wf) :
    (x.store sp wd uniform addr d).Wf := by
  unfold Issue.store
  have hresolved := fun ps => resolveAll_wf x sp .write wd (acting uniform ps) hx.before
  refine ite_effWf (fun _ => empty_wf hx) fun _ => ?_
  refine ite_effWf (fun _ => memFault_wf _ _ _ (hresolved _)) fun _ => ?_
  exact begin_wf _ _ _ _ _ (next_wf _ (hresolved _))

/-! ## Atomics (R279, R280) -/

theorem atomRead_okWf {s : State} (w : Who) (ps : List Place) (h : Memory.wf s = true) : OkWf Prod.fst (s.atomRead w ps) := by
  intro a he
  unfold State.atomRead at he
  split at he
  · refine homeRead_wf he ?_
    split
    · exact cleanLine_wf _ _ _ h
    · exact h
  · exact readElem_wf he h

theorem atomWrite_okWf {s : State} (w : Who) (ps : List Place) (ts : List Tryte) (h : Memory.wf s = true) :
    OkWf id (s.atomWrite w ps ts) := by
  unfold State.atomWrite
  split
  · refine okWf_bind (st' := id) (fun _ he => homeWrite_wf he h) fun b hb => okWf_ok.2 ?_
    split
    · exact (l1Patch_wf ..).trans hb
    · exact hb
  · have hs := fun es => performStores_wf w true (ts.length == 3) noNote es h
    dsimp only
    split
    next he => exact okWf_ok.2 ((congrArg (fun r => Memory.wf r.1) he).symm.trans (hs _))
    · exact okWf_error

theorem atomElem_okWf {s : State} (w : Who) (op : AtomOp) (cas : Bool) (wd : Width) (p : PendLane) (m : MemElem) (h : Memory.wf s = true) :
    OkWf Prod.fst (s.atomElem w op cas wd p m) :=
  okWf_bind (atomRead_okWf _ _ h) fun _ ha => okWf_bind (atomWrite_okWf _ _ _ ha) fun _ hb => okWf_ok.2 hb

theorem atomOne_okWf {s : State} (w : Workgroup) (r : GroupRef) (id : Nat) (op : AtomOp) (cas : Bool) (wd : Width) (p : PendLane)
    (m : MemElem) (h : Memory.wf s = true) : OkWf Prod.fst (s.atomOne w r id op cas wd p m) := by
  unfold State.atomOne
  dsimp only
  split
  · exact okWf_ok.2 h
  · exact okWf_map (atomElem_okWf _ _ _ _ _ _ h) fun _ hb => hb

@[simp] theorem atomAll_wf (x : Issue) {s : State} (op : AtomOp) (cas : Bool) (wd : Width) (ps : List PendLane) (es : List MemElem)
    (h : Memory.wf s = true) : Memory.wf (x.atomAll op cas wd s ps es).1 = true := by
  refine foldl_fst_wf (fun a m ha => ?_) _ h
  have hone := fun p => atomOne_okWf x.w x.r a.1.nextId op cas wd p m ha
  dsimp only
  split
  next he => exact hone _ _ he
  next he => exact hone _ _ he
  · exact (refusedFills_wf ..).trans ha

theorem atomic_wf {x : Issue} (a : AtomArgs) (cas : Bool) (hx : x.Wf) : (x.atomic a cas).Wf := by
  unfold Issue.atomic
  refine ite_effWf (fun _ => empty_wf hx) fun _ => ?_
  split
  · simp [hx.before]
  have hresolved := fun wd ps => resolveAll_wf x a.space .atomic wd ps hx.before
  have hsettled : ∀ s es, Memory.wf s = true → Memory.wf (if MemOrder.releases a.order then
      (s.settleStores x.r fun _ => true).releaseAt x.w a.scope else s.settleOver x.r es) = true := fun s es hs => by simp [hs]
  have hdone := fun wd s ps es n (hs : Memory.wf s = true) => atomAll_wf x a.op cas wd ps (es.take n)
    ((pick_wf ..).trans (hsettled s es hs) : Memory.wf (State.atomSplit _ es).2 = true)
  refine ite_effWf (fun _ => effWf_stall) fun _ => ?_
  refine ite_effWf (fun _ => memFault_wf _ _ _ (hresolved _ _)) fun _ => ?_
  refine ite_effWf (fun _ => effWf_stall) fun _ => ?_
  refine ite_effWf (fun _ => memFault_wf _ _ _ (hsettled _ _ (hresolved _ _))) fun _ => ?_
  refine ite_effWf (fun _ => memFault_wf _ _ _ (hdone _ _ _ _ _ (hresolved _ _))) fun _ => ?_
  exact begin_wf _ _ _ _ _ (next_wf _ (hdone _ _ _ _ _ (hresolved _ _)))

/-! ## Fences, monitor waits and buffers (R261, R281, R282) -/

@[simp] theorem fenceAt_wf {s : State} (w : Workgroup) (k : FenceKind) (sc : Scope) (h : Memory.wf s = true) :
    Memory.wf (s.fenceAt w k sc) = true := by
  cases k <;> simp [State.fenceAt, h]

theorem execFence_wf {s : State} (a : FenceArgs) (h : Memory.wf s = true) : OutWf (execFence a s) :=
  runWord_wf h fun _ hx => by simp [hx.before]

theorem monitorRead_okWf {s : State} (w : Workgroup) (r : GroupRef) (sp : Space) (thread : Nat) (addr : Int) (h : Memory.wf s = true) :
    OkWf Prod.fst (s.monitorRead w r sp thread addr) := by
  refine okWf_bind (fun _ he => resolve_wf he h) fun a ha => ?_
  refine ite_okWf (fun _ => okWf_ok.2 ha) fun _ => ?_
  refine ite_okWf (fun _ => okWf_ok.2 (settleOver_wf _ _ ha)) fun _ => ?_
  exact okWf_bind (fun _ he => readElem_wf he (settleOver_wf _ _ ha)) fun b hb => okWf_ok.2 hb

theorem waitm_wf {x : Issue} (a : WaitmArgs) (hx : x.Wf) : (x.waitm a).Wf := by
  have hread := fun thread addr => monitorRead_okWf x.w x.r a.space thread addr hx.before
  unfold Issue.waitm
  dsimp only
  split
  · exact ite_wf (fun _ => refusedAccess_wf _ _ _ hx.before) fun _ => hx.before
  · exact effWf_stall
  next he =>
    have hs := hread _ _ _ he
    exact ite_effWf (fun _ => next_wf x hs) fun _ => hs

@[simp] theorem releaseBuf_wf {s : State} (w : Workgroup) (r : GroupRef) (b : NamedBuf) (h : Memory.wf s = true) :
    Memory.wf (s.releaseBuf w r b) = true := releaseAt_wf _ _ _ (settleStores_wf _ _ h)

@[simp] theorem acquireBuf_wf (s : State) (w : Workgroup) (b : NamedBuf) : Memory.wf (s.acquireBuf w b) = Memory.wf s := acquireAt_wf ..

@[simp] theorem acquireObject_wf (s : State) (w : Workgroup) (r : GroupRef) (sp : Space) (thread : Nat) (addr : Int) :
    Memory.wf (s.acquireObject w r sp thread addr) = Memory.wf s := by
  unfold State.acquireObject
  split <;> simp

/-! ## Cache words (R283, R284) -/

@[simp] theorem fillOrDrop_wf {s : State} (die : Nat) (p : LinePlace) (h : Memory.wf s = true) : Memory.wf (s.fillOrDrop die p) = true := by
  unfold State.fillOrDrop
  split
  next he => exact llcEnsure_wf he h
  · simpa using h

@[simp] theorem prefetch_wf {s : State} (w : Workgroup) (va : Int) (intoL1 : Bool) (h : Memory.wf s = true) :
    Memory.wf (s.prefetch w va intoL1) = true := by
  unfold State.prefetch
  split
  · exact refusedAccess_wf _ _ _ h
  next he =>
    have ht := translate_wf he h
    split
    · split
      next hr => exact l1Read_wf hr ht
      · exact (refusedFill_wf ..).trans ht
    · exact fillOrDrop_wf _ _ ht
  next he =>
    have ht := translate_wf he h
    split
    · exact fillOrDrop_wf _ _ ht
    · exact ht
  next he => exact translate_wf he h

theorem execCwb_wf {s : State} (a : LineArgs) (h : Memory.wf s = true) : OutWf (execCwb a s) :=
  runWord_wf h fun _ hx => foldl_wf (fun _ _ hs => cleanLine_wf _ _ _ hs) _ hx.after

theorem execCinv_wf {s : State} (a : LineArgs) (h : Memory.wf s = true) : OutWf (execCinv a s) :=
  runWord_wf h fun _ hx => foldl_wf (fun _ _ hs => flushLine_wf _ _ _ hs) _ hx.after

theorem execPref_wf {s : State} (a : LineArgs) (h : Memory.wf s = true) : OutWf (execPref a s) :=
  runWord_wf h fun _ hx => foldl_wf (fun _ _ hs => prefetch_wf _ _ _ hs) _ hx.after

theorem execPrefLlc_wf {s : State} (a : LineArgs) (h : Memory.wf s = true) : OutWf (execPrefLlc a s) :=
  runWord_wf h fun _ hx => foldl_wf (fun _ _ hs => prefetch_wf _ _ _ hs) _ hx.after

end Sys2Proof.Machine
end

section
/-! The canonical form of memory through the words of the matrix unit (09_matrix_unit.md R200 to R216), regions and event rings
(14_queues.md R307 to R310). -/

namespace Sys2Proof.Machine

/-! ## Words of the matrix unit (R200 to R216) -/

theorem queueWord_wf (x : Issue) {s : State} (ops : List (Nat × MatOp)) (h : Memory.wf s = true) : (x.queueWord s ops).Wf :=
  ite_effWf (fun _ => h) fun _ => effWf_stall

theorem matLoad_wf {x : Issue} (sd sa : Nat) (planes : Option Nat) (r : TableRead) (hx : x.Wf) : (x.matLoad sd sa planes r).Wf := by
  unfold Issue.matLoad
  split
  · exact effWf_trap
  dsimp only
  split
  · exact effWf_trap
  have hq := fun ops => queueWord_wf x ops hx.after
  split
  next he => exact setS_wf _ _ _ ((congrArg Eff.Wf he).mp (hq _))
  · exact hq _

theorem execMact_wf {s : State} (sa : Fin 27) (h : Memory.wf s = true) : OutWf (execMact sa s) :=
  runWord_wf h fun x hx => ite_effWf (fun _ => hx.after) fun _ => queueWord_wf x _ hx.after

theorem execMpass_wf {s : State} (a : MpassArgs) (h : Memory.wf s = true) : OutWf (execMpass a s) := by
  refine runWord_wf h fun x hx => ?_
  have hq := fun ops => queueWord_wf x ops hx.after
  dsimp only
  split
  · split
    next he => exact (congrArg Eff.Wf he).mp (hq _)
    · exact hq _
  · split
    · exact effWf_trap
    · exact hq _

theorem execMrd_wf {s : State} (a : MrdArgs) (h : Memory.wf s = true) : OutWf (execMrd a s) := by
  unfold execMrd
  split
  · exact outWf_next.2 h
  refine outWf_next.2 (issueWord_wf _ _ _ _ h fun x hx => ?_)
  refine ite_effWf (fun _ => effWf_trap) fun _ => ite_effWf (fun _ => empty_wf hx) fun _ => ?_
  split <;> exact begin_wf _ _ _ _ _ hx.after

theorem execMwr_wf {s : State} (a : MwrArgs) (h : Memory.wf s = true) : OutWf (execMwr a s) :=
  runWord_wf h fun x hx => ite_effWf (fun _ => effWf_trap) fun _ =>
    ite_effWf (fun _ => hx.after) fun _ => queueWord_wf x _ hx.after

theorem matStore_wf {x : Issue} (a : MstoreArgs) (zero : Bool) (r : TableRead) (hx : x.Wf) : (x.matStore a zero r).Wf := by
  unfold Issue.matStore
  split
  · exact effWf_trap
  dsimp only
  split
  · exact effWf_trap
  · exact queueWord_wf x _ hx.after

theorem execMstat_wf {s : State} (a : MstatArgs) (h : Memory.wf s = true) : OutWf (execMstat a s) := by
  refine runWord_wf h fun x hx => ite_effWf (fun _ => empty_wf hx) fun _ => ?_
  split <;> exact begin_wf _ _ _ _ _ hx.after

@[simp] theorem matItem_wf (s : State) (clu : Nat) (g : Group) (n : Nat) : Memory.wf (s.matItem clu g n).1 = Memory.wf s := by
  simp [State.matItem]

/-! ## Regions and event rings (R307 to R310, R409) -/

theorem block_okWf {s : State} (die : Nat) (c : Ctx) (va : Int) (h : Memory.wf s = true) : OkWf Prod.fst (s.block die c va) :=
  ite_okWf (fun _ => okWf_error) fun _ => structRead_okWf _ _ _ h

theorem regionChain_okWf (fuel : Nat) {s : State} (die : Nat) (c : Ctx) (va : Int) (h : Memory.wf s = true) :
    OkWf Prod.fst (regionChain fuel s die c va) := by
  induction fuel generalizing s va with
  | zero => exact okWf_error
  | succ fuel ih =>
    refine okWf_bind (block_okWf _ _ _ h) fun a ha => ite_okWf (fun _ => okWf_ok.2 ha) fun _ => ?_
    exact okWf_bind (ih _ ha) fun b hb => okWf_ok.2 hb

@[simp] theorem meetRegion_wf (s : State) (r : Region) : Memory.wf (s.meetRegion r) = Memory.wf s := rfl

theorem readRegion_okWf {s : State} (die : Nat) (c : Ctx) (va : Int) (h : Memory.wf s = true) : OkWf Prod.fst (s.readRegion die c va) := by
  refine okWf_bind (regionChain_okWf _ _ _ _ h) fun a ha => ?_
  dsimp only
  split
  · split
    · exact okWf_ok.2 ha
    · exact okWf_bind (st' := id) (fun _ he => structWrite_wf he ha) fun b hb => okWf_ok.2 hb
  · exact okWf_error

@[simp] theorem dropTables_wf (s : State) (core : Nat) : Memory.wf (s.dropTables core) = Memory.wf s := rfl
@[simp] theorem setSpawnQ_wf (s : State) (key : Nat) (q : List Batch) : Memory.wf (s.setSpawnQ key q) = Memory.wf s := rfl

@[simp] theorem updRing_wf (s : State) (c : Ctx) (f : Ring → Ring) : Memory.wf (s.updRing c f) = Memory.wf s := by
  simp [State.updRing]

@[simp] theorem ringSignal_wf {s : State} (die : Nat) (c : Ctx) (h : Memory.wf s = true) : Memory.wf (s.ringSignal die c) = true := by
  unfold State.ringSignal
  dsimp only
  split
  · exact dieFatal_wf _ h
  next he =>
    have hs := structRead_wf _ he h
    exact ite_wf (fun _ => (updRing_wf ..).trans hs) fun _ => hs

theorem ringPost_mayWf {s : State} (die : Nat) (c : Ctx) (ws : List Int) (h : Memory.wf s = true) : MayWf id (s.ringPost die c ws) := by
  unfold State.ringPost
  dsimp only
  split
  · exact mayWf_none
  next he =>
    have hs := structRead_wf _ he h
    refine ite_mayWf (fun _ => mayWf_none) fun _ => ?_
    split
    · exact mayWf_none
    next hput =>
      obtain ⟨u, hu, hput⟩ := bind_ok hput
      exact mayWf_some.2 (ringSignal_wf _ _ ((updRing_wf ..).trans
        (drainUpdates_wf (structWrite_wf hput (structWrite_wf hu (drainUpdates_wf hs))))))

@[simp] theorem ringQueue_wf (s : State) (c : Ctx) (by_ : Poster) (ws : List Int) : Memory.wf (s.ringQueue c by_ ws) = Memory.wf s :=
  updRing_wf ..

@[simp] theorem ringPlace_wf (s : State) (c : Ctx) (r : GroupRef) : Memory.wf (s.ringPlace c r) = Memory.wf s := by
  simp [State.ringPlace]

@[simp] theorem ringLeave_wf (s : State) (c : Ctx) (r : GroupRef) : Memory.wf (s.ringLeave c r) = Memory.wf s := by
  simp [State.ringLeave]

end Sys2Proof.Machine
end

section
/-! The canonical form of memory through the copy engines (15_async_instructions.md R322 to R331). -/

namespace Sys2Proof.Machine

section
variable {ε α β : Type} {st : α → State}

theorem okWf_foldlM {f : α → β → Except ε α} (hf : ∀ a b, Memory.wf (st a) = true → OkWf st (f a b)) (xs : List β) {a : α}
    (h : Memory.wf (st a) = true) : OkWf st (xs.foldlM f a) := by
  induction xs generalizing a with
  | nil => exact okWf_ok.2 h
  | cons x xs ih =>
    rw [List.foldlM_cons]
    exact okWf_bind (hf a x h) fun b hb => ih hb

theorem mayWf_foldlM {f : α → β → Option α} (hf : ∀ a b, Memory.wf (st a) = true → MayWf st (f a b)) (xs : List β) {a : α}
    (h : Memory.wf (st a) = true) : MayWf st (xs.foldlM f a) := by
  induction xs generalizing a with
  | nil => exact mayWf_some.2 h
  | cons x xs ih =>
    rw [List.foldlM_cons]
    exact mayWf_bind fun b hb => ih (hf a x h b hb)

end

/-! ## Accesses of an engine (R259, R323) -/

theorem engineRead_okWf {s : State} (w : Workgroup) (sp : Space) (len : Nat) (addr : Int) (h : Memory.wf s = true) :
    OkWf Prod.fst (s.engineRead w sp len addr) := by
  refine okWf_bind (fun _ he => resolve_wf he h) fun a ha => ?_
  refine ite_okWf (fun _ => okWf_ok.2 ha) fun _ => ?_
  split
  · refine okWf_bind (st' := Prod.fst) ?_ fun b hb => okWf_ok.2 hb
    exact ite_okWf (fun _ _ he => l1Read_wf he ha) fun _ _ he => llcRead_wf he ha
  · exact okWf_bind (fun _ he => readElem_wf he ha) fun b hb => okWf_ok.2 hb

@[simp] theorem choose_wf {α : Type} (s : State) (xs : List α) (d : α) : Memory.wf (s.choose xs d).2 = Memory.wf s := by
  simp [State.choose]

@[simp] theorem chooseCell_wf {s : State} (window : Bool) (x : Cell) (h : Memory.wf s = true) :
    Memory.wf (s.chooseCell window x).2 = true := by
  refine ite_snd_wf (fun _ => (choose_wf ..).trans h) fun _ => ?_
  refine foldl_snd_wf (fun _ _ ha => ?_) _ h
  exact (choose_wf ..).trans ha

theorem cellStores_okWf {s : State} (c : Copy) (sp : Space) (n : Nat) (x : Cell) (h : Memory.wf s = true) :
    OkWf Prod.fst (s.cellStores c sp n x) := by
  unfold State.cellStores
  dsimp only
  split
  · exact okWf_error
  next he => exact okWf_ok.2 (sendDiverted_wf _ _ _ _ (chooseCell_wf _ _ (resolve_wf he h)))

theorem engineWrite_okWf {s : State} (c : Copy) (sp : Space) (cells : List Cell) (h : Memory.wf s = true) :
    OkWf id (s.engineWrite c sp cells) := by
  refine okWf_bind (okWf_foldlM (st := Prod.fst) (fun a b ha => ?_) _ h) fun a ha => ?_
  · exact okWf_bind (cellStores_okWf _ _ _ _ ha) fun d hd => okWf_ok.2 hd
  have hs := performStores_wf { (s.ownerOf c).who with core := none } true (cells.all fun x => decide (x.len ≥ 3)) noNote a.2
    (foldl_noteOld_wf (some c.id) a.2 ha)
  dsimp only
  split
  next he =>
    refine okWf_ok.2 (foldl_wf (fun _ _ hs => (l1Patch_wf ..).trans hs) _ ?_)
    exact (congrArg (fun r => Memory.wf r.1) he).symm.trans hs
  · exact okWf_error

/-! ## Requests and records of copies (R322 to R326, R395, R396) -/

theorem scratchWords_okWf {s : State} (w : Workgroup) (off : Int) (n : Nat) (h : Memory.wf s = true) :
    OkWf Prod.fst (s.scratchWords w off n) := by
  refine ite_okWf (fun _ => okWf_error) fun _ => okWf_foldlM (fun a i ha => ?_) _ h
  split
  · exact okWf_ok.2 ha
  · exact okWf_bind (engineRead_okWf _ _ _ _ ha) fun b hb => okWf_ok.2 hb

@[simp] theorem recordFmt_wf {s : State} (w : Workgroup) (l : Option Layout) (h : Memory.wf s = true) :
    Memory.wf (s.recordFmt w l).1 = true := by
  cases l with
  | none => exact h
  | some l => exact fmtAt_wf _ _ h

theorem readRecords_wf {s : State} (c : Copy) (w : Workgroup) (r : List Int) (h : Memory.wf s = true) :
    Memory.wf (s.readRecords c w r).1 = true := by
  have hread : ∀ (s : State) off, Memory.wf s = true → Memory.wf (match s.scratchWords w off 27 with
      | .error cause => ((s, some [], some cause) : State × Option (List Int) × Option Nat)
      | .ok (s, ws) => (s, ws, none)).1 = true := by
    intro s off hs
    split
    · exact hs
    next he => exact scratchWords_okWf w off 27 hs _ he
  have hsrc := hread s (wordAt r 2) h
  unfold State.readRecords
  dsimp only
  split
  next he => exact (congrArg (fun r => Memory.wf r.1) he).symm.trans hsrc
  next he =>
    have hdst := hread _ (wordAt r 3) ((congrArg (fun r => Memory.wf r.1) he).symm.trans hsrc)
    split
    next he => exact (congrArg (fun r => Memory.wf r.1) he).symm.trans hdst
    next he =>
      refine (dropTables_wf ..).trans (recordFmt_wf _ _ (recordFmt_wf _ _ ?_))
      exact (congrArg (fun r => Memory.wf r.1) he).symm.trans hdst

theorem readView_wf {s : State} (c : Copy) (req : Int) (h : Memory.wf s = true) : Memory.wf (s.readView c req).1 = true := by
  have hread := scratchWords_okWf (s.ownerOf c) req 9 h
  unfold State.readView
  dsimp only
  split
  · exact h
  next he => exact hread _ he
  next he => exact ite_fst_wf (fun _ => hread _ he) fun _ => readRecords_wf _ _ _ (hread _ he)

@[simp] theorem updCopy_wf (s : State) (id : Nat) (f : Copy → Copy) : Memory.wf (s.updCopy id f) = Memory.wf s := rfl

@[simp] theorem copyFault_wf {s : State} (c : Copy) (n hw inner : Nat) (addr : Int) (coord : List Nat) (parked : Bool)
    (h : Memory.wf s = true) : Memory.wf (s.copyFault c n hw inner addr coord parked) = true := appendRecord_wf _ _ _ h

@[simp] theorem parkSlice_wf {s : State} (c : Copy) (n inner : Nat) (coord : List Nat) (h : Memory.wf s = true) :
    Memory.wf (s.parkSlice c n inner coord) = true := by
  unfold State.parkSlice
  split
  · exact h
  · exact copyFault_wf _ _ _ _ _ _ _ h

@[simp] theorem takeSet_wf (s : State) (c : Copy) : Memory.wf (s.takeSet c) = Memory.wf s := by
  unfold State.takeSet
  split <;> rfl

theorem copyStart_mayWf {s : State} (n : Nat) (h : Memory.wf s = true) : MayWf id (s.copyStart n) := by
  refine mayWf_bind fun c _ => mayWf_bind fun first _ => ?_
  refine ite_mayWf (fun _ => mayWf_none) fun _ => ite_mayWf (fun _ => ?_) fun _ => ?_
  · exact mayWf_some.2 (foldl_wf (fun _ _ hs => copyFault_wf _ _ _ _ _ _ _ hs) _ h)
  have hview := readView_wf c ((c.slices.head?.map Slice.req).getD 0) h
  split
  · exact mayWf_none
  next he =>
    have hs := (congrArg (fun r => Memory.wf r.1) he).symm.trans hview
    refine ite_mayWf (fun _ => mayWf_none) fun _ => mayWf_some.2 ?_
    exact foldl_wf (fun _ _ hs => parkSlice_wf _ _ _ _ hs) _ ((takeSet_wf ..).trans hs)
  next he =>
    have hs := (congrArg (fun r => Memory.wf r.1) he).symm.trans hview
    exact ite_mayWf (fun _ => mayWf_none) fun _ => mayWf_some.2 ((takeSet_wf ..).trans hs)

/-! ## Elements of a slice (R325, R397 to R399) -/

theorem stopAt_okWf {α : Type} (i : Nat) {r : Except Nat (State × Option α)} (hr : OkWf Prod.fst r) : OkWf Prod.fst (stopAt i r) := by
  unfold stopAt
  split
  · exact okWf_error
  · exact okWf_error
  · exact okWf_ok.2 (hr _ rfl)

theorem fetch_okWf {s : State} (x : SliceCtx) (i : Nat) (h : Memory.wf s = true) : OkWf Prod.fst (x.fetch s i) :=
  okWf_bind (stopAt_okWf i (engineRead_okWf _ _ _ _ h)) fun _ hb => okWf_ok.2 hb

theorem buffered_okWf {s : State} (x : SliceCtx) (n i : Nat) (h : Memory.wf s = true) : OkWf Prod.fst (x.buffered s n i) := by
  unfold SliceCtx.buffered
  split
  · exact fetch_okWf _ _ h
  dsimp only
  split
  · exact okWf_ok.2 h
  · refine okWf_bind (okWf_foldlM (fun a j ha => ?_) _ h) fun b hb => okWf_ok.2 hb
    exact okWf_bind (fetch_okWf _ _ ha) fun b hb => okWf_ok.2 hb

theorem value_okWf {s : State} (x : SliceCtx) (i : Nat) (h : Memory.wf s = true) : OkWf Prod.fst (x.value s i) := by
  unfold SliceCtx.value
  split
  · exact okWf_ok.2 h
  refine ite_okWf (fun _ => okWf_ok.2 h) fun _ => okWf_bind (st' := Prod.fst) ?_ fun b hb => okWf_ok.2 hb
  split
  · exact buffered_okWf _ _ _ h
  · exact fetch_okWf _ _ h

theorem code_okWf {s : State} (x : SliceCtx) (i : Nat) (h : Memory.wf s = true) : OkWf Prod.fst (x.code s i) :=
  okWf_bind (value_okWf _ _ h) fun _ hb => okWf_ok.2 hb

@[simp] theorem narrow_wf {s : State} (x : SliceCtx) (ws : List Wrote) (a old : Int) (h : Memory.wf s = true) :
    Memory.wf (x.narrow s ws a old).1 = true := by
  refine foldl_fst_wf (fun _ _ ha => ?_) _ h
  exact (choose_wf ..).trans ha

theorem cellsOf_wf {s : State} (x : SliceCtx) (olds : List (Int × Tryte)) (ws : List Wrote) (h : Memory.wf s = true) :
    Memory.wf (x.cellsOf s olds ws).1 = true := by
  refine foldl_fst_wf (fun _ _ ha => ?_) _ h
  exact ite_fst_wf (fun _ => narrow_wf _ _ _ _ ha) fun _ => ha

theorem codes_okWf {s : State} (x : SliceCtx) (is : List Nat) (h : Memory.wf s = true) : OkWf Prod.fst (x.codes s is) := by
  refine okWf_foldlM (fun _ _ ha => ?_) _ h
  exact okWf_bind (code_okWf _ _ ha) fun _ hb => okWf_ok.2 hb

theorem readOlds_wf {s t : State} (x : SliceCtx) (is : List Nat) (olds : List (Int × Tryte)) {got : List (Int × Tryte)}
    (he : x.readOlds s is olds = .ok (some (t, got))) (h : Memory.wf s = true) : Memory.wf t = true := by
  unfold SliceCtx.readOlds at he
  dsimp only at he
  split at he
  · cases he
  obtain ⟨a, ha, he⟩ := bind_ok he
  cases he
  refine okWf_foldlM (fun b v hb => ?_) _ h _ ha
  exact okWf_bind (stopAt_okWf _ (engineRead_okWf _ _ _ _ hb)) fun _ hc => okWf_ok.2 hc

theorem writeBatch_okWf {s : State} (x : SliceCtx) (is : List Nat) (olds : List (Int × Tryte)) (h : Memory.wf s = true) :
    OkWf Prod.fst (x.writeBatch s is olds) := by
  refine okWf_bind (codes_okWf _ _ h) fun a ha => ?_
  dsimp only
  split
  next he => exact okWf_ok.2 (engineWrite_okWf _ _ _ (cellsOf_wf x olds a.2 ha) _ he)
  · exact okWf_error

theorem refused_wf {s : State} (x : SliceCtx) (j : Nat) (h : Memory.wf s = true) : Memory.wf (x.refused s j) = true := by
  have hone : ∀ (t : State) (sp : Space) (k : AccKind) (a : ElemAt), Memory.wf t = true → Memory.wf (if sp ≠ .virt then t
      else match t.resolveVirt (s.ownerOf x.c).who k a.len a.addr with
        | .error _ => t.refusedAccess (s.ownerOf x.c).who a.len a.addr
        | .ok (_, ps) => t.refusedFills ps) = true := by
    intro t sp k a ht
    refine ite_wf (fun _ => ht) fun _ => ?_
    split
    · exact refusedAccess_wf _ _ _ ht
    · exact (refusedFills_wf ..).trans ht
  exact hone _ _ _ _ (ite_wf (fun _ => h) fun _ => hone _ _ _ _ h)

theorem retrySlice_wf {s : State} (c : Copy) (n : Nat) (sl : Slice) (h : Memory.wf s = true) : Memory.wf (s.retrySlice c n sl) = true := by
  have hview := readView_wf c sl.req h
  unfold State.retrySlice
  split
  · exact h
  next he => exact parkSlice_wf _ _ _ _ ((congrArg (fun r => Memory.wf r.1) he).symm.trans hview)
  next he => exact (congrArg (fun r => Memory.wf r.1) he).symm.trans hview

theorem moveSlice_wf {s : State} (c : Copy) (n : Nat) (sl : Slice) (h : Memory.wf s = true) : Memory.wf (s.moveSlice c n sl) = true := by
  unfold State.moveSlice
  split
  · exact h
  next x _ =>
    have hpark : ∀ e : CopyStop, Memory.wf (match e with
        | none => s
        | some (cause, j) =>
          ((x.refused s j).updSlice c.id n fun y => { y with olds := [] }).parkSlice c n cause (boxCoord x.box j)) = true := by
      intro e
      split
      · exact h
      · exact parkSlice_wf _ _ _ _ (refused_wf x _ h)
    refine ite_wf (fun _ => h) fun _ => ite_wf (fun _ => h) fun _ => ?_
    have hgo : ∀ is : List Nat, OkWf id (do
        match ← x.readOlds s is sl.olds with
        | some (s, olds) => .ok (s.updSlice c.id n fun y => { y with olds := olds })
        | none => do
          let (s, ws) ← x.writeBatch s is sl.olds
          .ok ((s.updCopy c.id fun c => { c with wrote := c.wrote ++ ws }).updSlice c.id n fun y =>
            { y with moved := y.moved + 1, olds := [] }) : Except CopyStop State) := by
      intro is
      refine okWf_check fun o ho => ?_
      split
      · have hs := readOlds_wf x is sl.olds ho h
        exact okWf_ok.2 hs
      · exact okWf_bind (writeBatch_okWf x is sl.olds h) fun b hb => okWf_ok.2 hb
    dsimp only
    split
    next he => exact (ite_okWf (fun _ => hgo _) fun _ => okWf_error : OkWf id _) _ he
    · split
      next he => exact hgo _ _ he
      · exact hpark _

@[simp] theorem sliceTurn_wf {s : State} (id n : Nat) (h : Memory.wf s = true) : Memory.wf (s.sliceTurn id n) = true := by
  unfold State.sliceTurn
  split
  · exact h
  split
  · exact h
  refine ite_wf (fun _ => h) fun _ => ?_
  split
  · exact (progEvent_wf ..).trans h
  · exact moveSlice_wf _ _ _ h
  · exact retrySlice_wf _ _ _ h
  · exact h

/-! ## The steps after the data (R330, R331, R339) -/

theorem arriveAt_okWf {s : State} (w : Who) (ps : List Place) (h : Memory.wf s = true) : OkWf Prod.fst (s.arriveAt w ps) := by
  refine okWf_bind (atomRead_okWf _ _ h) fun a ha => ?_
  dsimp only
  split
  · exact okWf_ok.2 ha
  · exact okWf_bind (atomWrite_okWf _ _ _ ha) fun b hb => okWf_ok.2 hb

theorem checkElems_mayWf {s : State} (x : SliceCtx) (h : Memory.wf s = true) : MayWf Prod.fst (s.checkElems x) := by
  refine mayWf_foldlM (fun a i ha => ?_) _ h
  have hread := fun w sp len addr => engineRead_okWf w sp len addr ha
  dsimp only
  split
  · exact mayWf_some.2 ha
  · exact mayWf_none
  next he => exact mayWf_some.2 (hread _ _ _ _ _ he)

@[simp] theorem collectiveDone_wf {s : State} (c : Copy) (h : Memory.wf s = true) : Memory.wf (s.collectiveDone c) = true := by
  unfold State.collectiveDone
  split
  · exact ite_wf (fun _ => (acquireAt_wf ..).trans (releaseAt_wf _ _ _ h)) fun _ => h
  · exact h

@[simp] theorem endCopy_wf {s : State} (c : Copy) (h : Memory.wf s = true) : Memory.wf (s.endCopy c) = true := collectiveDone_wf _ h

@[simp] theorem parkStep_wf {s : State} (c : Copy) (cause : Nat) (addr : Int) (h : Memory.wf s = true) :
    Memory.wf (s.parkStep c cause addr) = true := copyFault_wf _ _ _ _ _ _ _ h

@[simp] theorem syncStore_wf {s : State} (c : Copy) (v : CopyView) (addr val : Int) (next : Nat) (h : Memory.wf s = true) :
    Memory.wf (s.syncStore c v addr val next) = true := by
  have hs := releaseAt_wf (s.ownerOf c) ((scopeOf (fld v.ctl 6 7)).getD .sys) allLines h
  unfold State.syncStore
  dsimp only
  split
  next he => exact (updCopy_wf ..).trans (engineWrite_okWf _ _ _ hs _ he)
  · exact parkStep_wf _ _ _ hs

@[simp] theorem releaseCopy_wf {s : State} (c : Copy) (w : Workgroup) (b : Option NamedBuf) (h : Memory.wf s = true) :
    Memory.wf (s.releaseCopy c w b) = true := drainFor_wf _ _ _ h

@[simp] theorem syncArrive_wf {s : State} (c : Copy) (v : CopyView) (h : Memory.wf s = true) : Memory.wf (s.syncArrive c v) = true := by
  unfold State.syncArrive
  dsimp only
  split
  · exact parkStep_wf _ _ _ h
  next he =>
    have hs := resolve_wf he h
    split
    · exact ite_wf (fun _ => endCopy_wf _ hs) fun _ => endCopy_wf _ ((arrive_wf ..).trans (releaseCopy_wf _ _ _ hs))
    refine ite_wf (fun _ => endCopy_wf _ hs) fun _ => ?_
    split
    · exact parkStep_wf _ _ _ hs
    next he =>
      have hread := atomRead_okWf _ _ hs _ he
      have harrive := fun b ps => arriveAt_okWf (s.ownerOf c).who ps (releaseCopy_wf c (s.ownerOf c) b hread)
      split
      next he => exact endCopy_wf _ ((useBarrier_wf ..).trans (harrive _ _ _ he))
      next he => exact endCopy_wf _ (harrive _ _ _ he)
      · exact parkStep_wf _ _ _ hread

theorem checkValue_mayWf {s : State} (c : Copy) (h : Memory.wf s = true) : MayWf Prod.fst (s.checkValue c) := by
  unfold State.checkValue
  split
  · exact mayWf_some.2 h
  · exact mayWf_map fun r hr => checkElems_mayWf _ h r hr

theorem nextStep_mayWf {s : State} (c : Copy) (v : CopyView) (h : Memory.wf s = true) : MayWf id (s.nextStep c v) := by
  refine ite_mayWf (fun _ => mayWf_some.2 (syncStore_wf _ _ _ _ _ h)) fun _ => ?_
  refine ite_mayWf (fun _ => mayWf_map fun r hr => syncStore_wf _ _ _ _ _ (checkValue_mayWf _ h r hr)) fun _ => ?_
  exact ite_mayWf (fun _ => mayWf_some.2 (syncArrive_wf _ _ h)) fun _ => mayWf_some.2 (endCopy_wf _ h)

theorem copyStep_mayWf {s : State} (n : Nat) (h : Memory.wf s = true) : MayWf id (s.copyStep n) := by
  refine mayWf_bind fun c _ => ?_
  refine ite_mayWf (fun _ => mayWf_none) fun _ => ite_mayWf (fun _ => ?_) fun _ => ?_
  · have hview := readView_wf c ((c.slices.head?.map Slice.req).getD 0) h
    split
    · exact mayWf_none
    next he => exact mayWf_some.2 (parkStep_wf _ _ _ ((congrArg (fun r => Memory.wf r.1) he).symm.trans hview))
    next he => exact mayWf_some.2 ((congrArg (fun r => Memory.wf r.1) he).symm.trans hview)
  · split
    · exact mayWf_some.2 (endCopy_wf _ h)
    · exact ite_mayWf (fun _ => mayWf_some.2 (endCopy_wf _ h)) fun _ => nextStep_mayWf _ _ h

end Sys2Proof.Machine
end

section
/-! The canonical form of memory through the words of copies, spawning, barriers and mailboxes (15_async_instructions.md R322 to R349). -/

namespace Sys2Proof.Machine

/-! ## Words of copies and spawning (R322 to R338) -/

@[simp] theorem released_wf (x : Issue) {s : State} (h : Memory.wf s = true) : Memory.wf (x.released s) = true := settleStores_wf _ _ h

theorem releasedNext_wf {x : Issue} (hx : x.Wf) : Memory.wf (x.released (x.next x.s0)) = true := released_wf x (next_wf x hx.before)

theorem joinCollective_wf {x : Issue} (req : Int) (hx : x.Wf) : (x.joinCollective req).Wf := by
  have hs := releasedNext_wf hx
  unfold Issue.joinCollective
  refine ite_effWf (fun _ => effWf_stall) fun _ => ?_
  dsimp only
  split
  · exact begin_wf _ _ _ _ _ (ite_wf (fun _ => hs) fun _ => hs)
  · exact ite_effWf (fun _ => hx.before) fun _ => begin_wf _ _ _ _ _ hs

theorem single_wf {x : Issue} (form : CopyForm) (req : Int) (hx : x.Wf) : (x.single form req).Wf :=
  ite_effWf (fun _ => effWf_stall) fun _ => begin_wf _ _ _ _ _ (releasedNext_wf hx)

theorem copyWord_wf {x : Issue} (sa : Nat) {go : Int → Eff} (hgo : ∀ off, (go off).Wf) : (x.copyWord sa go).Wf := by
  unfold Issue.copyWord
  dsimp only
  split
  · exact effWf_trap
  · exact hgo _

theorem enqueueBatch_mayWf {s : State} (die clu : Nat) (b : Batch) (h : Memory.wf s = true) : MayWf id (s.enqueueBatch die clu b) :=
  ite_mayWf (fun _ => mayWf_none) fun _ => mayWf_some.2 h

theorem spawnNow_mayWf {s : State} (w : Workgroup) (n : Int) (launch : List Word) (coresident : Bool) (h : Memory.wf s = true) :
    MayWf Prod.fst (s.spawnNow w n launch coresident) := by
  unfold State.spawnNow
  split
  · exact mayWf_some.2 h
  · exact ite_mayWf (fun _ => mayWf_some.2 h) fun _ => mayWf_map fun t ht => enqueueBatch_mayWf _ _ _ h t ht

theorem spawn_wf {x : Issue} (a : SpawnArgs) (hx : x.Wf) : (x.spawn a).Wf :=
  ite_effWf (fun _ => effWf_stall) fun _ => begin_wf _ _ _ _ _ (releaseAt_wf _ _ _ (releasedNext_wf hx))

/-! ## Words of barriers (R339 to R344) -/

theorem object_okWf {x : Issue} (sp : Space) (k : AccKind) (addr : Int) (hx : x.Wf) : OkWf Prod.fst (x.object sp k addr) :=
  okWf_bind (fun _ he => resolve_wf he hx.before) fun _ hb => okWf_ok.2 hb

theorem execBari_wf {s : State} (a : BarArgs) (h : Memory.wf s = true) : OutWf (execBari a s) := by
  refine runWord_wf h fun x hx => ?_
  have hobject := fun addr => object_okWf a.space .write addr hx
  dsimp only
  split
  · exact effWf_trap
  next he =>
    have hsent := fun by_ issuer n es => sendDiverted_wf by_ issuer n es (releaseAt_wf x.w .pkg allLines (released_wf x (hobject _ _ he)))
    have hstored := fun by_ issuer n es fs => performStores_wf x.w.who true true noNote fs (hsent by_ issuer n es)
    refine ite_effWf (fun _ => hx.before) fun _ => ?_
    split
    next he => exact next_wf x ((congrArg (fun r => Memory.wf r.1) he).symm.trans (hstored _ _ _ _ _))
    · exact effWf_trap

theorem arrival_wf {x : Issue} (sp : Space) (addr : Int) {go : State → NamedBuf → Int → Eff} (hx : x.Wf)
    (hgo : ∀ s b ph, Memory.wf s = true → (go s b ph).Wf) : (x.arrival sp addr go).Wf := by
  have hobject := object_okWf sp .atomic addr hx
  unfold Issue.arrival
  split
  · exact effWf_trap
  next he =>
    have hs := hobject _ he
    refine ite_effWf (fun _ => hx.before) fun _ => ?_
    split
    · exact effWf_trap
    next he =>
      have hread := atomRead_okWf _ _ hs _ he
      have harrive := fun b ps => arriveAt_okWf x.w.who ps (releaseBuf_wf x.w x.r b hread)
      dsimp only
      split
      · exact effWf_trap
      · exact effWf_trap
      next he => exact hgo _ _ _ ((useBarrier_wf ..).trans (harrive _ _ _ he))

theorem execBara_wf {s : State} (a : BarArgs) (h : Memory.wf s = true) : OutWf (execBara a s) :=
  runWord_wf h fun x hx => arrival_wf _ _ hx fun _ _ _ hs => next_wf x ((acquireBuf_wf ..).trans hs)

theorem awaitPhase_wf (x : Issue) {s : State} (sp : Space) (addr token : Int) {fault : Nat → Eff} (h : Memory.wf s = true)
    (hfault : ∀ c, (fault c).Wf) : (x.awaitPhase s sp addr token fault).Wf := by
  have hread := fun thread addr => monitorRead_okWf x.w x.r sp thread addr h
  unfold Issue.awaitPhase
  split
  · exact hfault _
  · exact effWf_stall
  next he =>
    have hs := hread _ _ _ he
    refine ite_effWf (fun _ => hfault _) fun _ => ite_effWf (fun _ => ?_) fun _ => hs
    exact next_wf x ((acquireObject_wf ..).trans hs)

theorem execBar_wf {s : State} (a : BarSArgs) (h : Memory.wf s = true) : OutWf (execBar a s) :=
  runWord_wf h fun _ hx => arrival_wf _ _ hx fun _ _ _ hs => hs

theorem execBarw_wf {s : State} (a : BarwArgs) (h : Memory.wf s = true) : OutWf (execBarw a s) := by
  refine runWord_wf h fun x hx => ?_
  dsimp only
  split
  · exact effWf_trap
  · exact awaitPhase_wf x _ _ _ hx.before fun _ => effWf_trap

/-! ## Words of mailboxes, rings and nodes (R308 to R311, R345 to R349) -/

@[simp] theorem setBox_wf (s : State) (n : Nat) (b : Mailbox) : Memory.wf (s.setBox n b) = Memory.wf s := rfl

@[simp] theorem takeMessage_wf (s : State) (n : Option Nat) : Memory.wf (s.takeMessage n).1 = Memory.wf s := by
  unfold State.takeMessage
  split
  · rfl
  · dsimp only
    split <;> rfl

theorem execMbrx_wf {s : State} (a : MbrxArgs) (h : Memory.wf s = true) : OutWf (execMbrx a s) := by
  refine runWord_wf h fun x hx => ?_
  have hs := fun n => (takeMessage_wf x.s n).trans hx.after
  exact ite_wf (fun _ => (acquireAt_wf ..).trans (hs _)) fun _ => hs _

theorem status_wf (x : Issue) {s : State} (n : Nat) (v : Int) (h : Memory.wf s = true) : (x.status s n v).Wf :=
  (updGroup_wf ..).trans h

theorem execMbtxReply_wf {s : State} (a : MbtxArgs) (h : Memory.wf s = true) : OutWf (execMbtxReply a s) := by
  refine runWord_wf h fun x hx => ?_
  have hs := fun n b => (setBox_wf _ n b).trans (releaseAt_wf x.w .sys allLines (released_wf x hx.after))
  split
  · exact status_wf x _ _ hx.after
  · exact ite_effWf (fun _ => status_wf x _ _ hx.after) fun _ => ite_effWf (fun _ => hx.before) fun _ => status_wf x _ _ (hs _ _)

theorem execMbtxBind_wf {s : State} (a : MbtxArgs) (h : Memory.wf s = true) : OutWf (execMbtxBind a s) := by
  refine runWord_wf h fun x hx => ?_
  dsimp only
  split
  · exact hx.after
  · exact ite_effWf (fun _ => hx.after) fun _ => hx.after

theorem execMbtxUnbind_wf {s : State} (a : MbtxArgs) (h : Memory.wf s = true) : OutWf (execMbtxUnbind a s) := by
  refine runWord_wf h fun x hx => ?_
  split <;> exact hx.after

theorem execEvpost_wf {s : State} (sa : Fin 27) (h : Memory.wf s = true) : OutWf (execEvpost sa s) := by
  refine runWord_wf h fun x hx => ?_
  have hpost := fun die c ws => ringPost_mayWf die c ws (releaseAt_wf x.w .sys allLines (released_wf x hx.before))
  have hplace := fun c r => (ringPlace_wf x.s0 c r).trans hx.before
  refine ite_effWf (fun _ => hx.before) fun _ => ite_effWf (fun _ => hplace _ _) fun _ => ?_
  split
  next he => exact (ringLeave_wf ..).trans (next_wf x (hpost _ _ _ _ he))
  · exact hplace _ _

theorem nodeWords_okWf {s : State} (die : Nat) (c : Ctx) (va : Int) (h : Memory.wf s = true) : OkWf Prod.fst (s.nodeWords die c va) :=
  ite_okWf (fun _ => okWf_error) fun _ => structRead_okWf _ _ _ h

@[simp] theorem makeReady_wf {s : State} (die : Nat) (c : Ctx) (va : Int) (h : Memory.wf s = true) :
    Memory.wf (s.makeReady die c va).1 = true := by
  unfold State.makeReady
  refine ite_fst_wf (fun _ => h) fun _ => ?_
  split
  · exact h
  next he =>
    have hs := nodeWords_okWf _ _ _ h _ he
    refine ite_fst_wf (fun _ => hs) fun _ => ?_
    split
    next he =>
      have ht := structWrite_wf he hs
      exact ht
    · exact hs

theorem execRwalk_wf {s : State} (a : SdSa) (h : Memory.wf s = true) : OutWf (execRwalk a s) := by
  refine runWord_wf h fun x hx => ?_
  dsimp only
  split
  · exact effWf_trap
  next he =>
    refine ite_effWf (fun _ => hx.before) fun _ => setS_wf _ _ _ (next_wf x (makeReady_wf _ _ _ (releaseAt_wf _ _ _ (released_wf x ?_))))
    exact resolveVirt_wf he hx.before

theorem execRstat_wf {s : State} (a : RstatArgs) (h : Memory.wf s = true) : OutWf (execRstat a s) := by
  refine runWord_wf h fun x hx => ?_
  dsimp only
  split
  · exact effWf_trap
  next he => exact setS_wf _ _ _ (next_wf x (resolveVirt_wf he hx.before))

end Sys2Proof.Machine
end

section
/-! The canonical form of memory through the words of traps, pre-emption, tables and counters (16_traps_and_preemption.md R354 to R382,
18_system_tables.md R418 to R422, 19_counters.md R426 to R434). -/

namespace Sys2Proof.Machine

/-! ## Frames and images in memory (R354, R355, R368) -/

theorem structWrite_okWf {s : State} (w : Who) (va : Int) (vs : List Int) (h : Memory.wf s = true) : OkWf id (s.structWrite w va vs) :=
  fun _ he => structWrite_wf he h

theorem imageWrite_okWf {s : State} (w : Workgroup) (off : Nat) (vs : List Int) (h : Memory.wf s = true) :
    OkWf id (s.imageWrite w off vs) := by
  unfold State.imageWrite
  dsimp only
  split
  next he => exact okWf_ok.2 (structWrite_wf he h)
  · exact okWf_error

theorem imageRead_okWf {s : State} (w : Workgroup) (off n : Nat) (h : Memory.wf s = true) : OkWf Prod.fst (s.imageRead w off n) := by
  unfold State.imageRead
  dsimp only
  split
  next he => exact okWf_ok.2 (structRead_wf n he h)
  · exact okWf_error

theorem frameRead_okWf {s : State} (w : Workgroup) (hw off n : Nat) (save : Bool) (h : Memory.wf s = true) :
    OkWf Prod.fst (s.frameRead w hw off n save) := structRead_okWf _ _ _ h

theorem frameWrite_okWf {s : State} (w : Workgroup) (hw off : Nat) (vs : List Int) (h : Memory.wf s = true) :
    OkWf id (s.frameWrite w hw off vs) := structWrite_okWf _ _ _ h

theorem putItem_okWf {s : State} (w : Workgroup) (g : Group) (off : Nat) (v : Int) (h : Memory.wf s = true) :
    OkWf id (s.putItem w g off v) := okWf_foldE (fun _ _ hs => frameWrite_okWf _ _ _ _ hs) _ h

theorem moveUp_okWf {s : State} (w : Workgroup) (g : Group) (e n : Nat) (h : Memory.wf s = true) : OkWf id (s.moveUp w g e n) := by
  refine okWf_bind (st' := id) (okWf_foldE (fun s hw hs => okWf_foldE (fun s i hs => ?_) _ hs) _ h) fun b hb => putItem_okWf _ _ _ _ hb
  exact okWf_bind (frameRead_okWf _ _ _ _ _ hs) fun b hb => frameWrite_okWf _ _ _ _ hb

/-! ## Words of traps and records (R374 to R378) -/

theorem execTrap_wf {s : State} (code : Trits 4) (h : Memory.wf s = true) : OutWf (execTrap code s) :=
  runWord_wf h fun _ hx => ite_effWf (fun _ => effWf_stall) fun _ => trapEnter_wf _ _ hx.after

theorem execResume_wf {s : State} (h : Memory.wf s = true) : OutWf (execResume s) := by
  refine runWord_wf h fun x hx => ?_
  split
  · exact effWf_trap
  split
  · exact dieFatal_wf _ hx.after
  · exact orFatal_wf _ _ hx.after (putItem_okWf _ _ _ _ hx.after)

theorem execRqrd_wf {s : State} (a : RqArgs) (h : Memory.wf s = true) : OutWf (execRqrd a s) := by
  refine runWord_wf h fun x hx => ?_
  split
  · exact dieFatal_wf _ hx.after
  · exact effWf_trap
  dsimp only
  split
  · exact dieFatal_wf _ hx.after
  · exact hx.after

theorem execRqwr_wf {s : State} (a : RqArgs) (h : Memory.wf s = true) : OutWf (execRqwr a s) := by
  refine runWord_wf h fun x hx => ?_
  dsimp only
  split
  · exact dieFatal_wf _ hx.after
  · exact effWf_trap
  refine ite_effWf (fun _ => effWf_trap) fun _ => orFatal_wf _ _ hx.after ?_
  exact ite_okWf (fun _ => okWf_foldE (fun _ _ hs => frameWrite_okWf _ _ _ _ hs) _ hx.after) fun _ => putItem_okWf _ _ _ _ hx.after

theorem execRqdrop_wf {s : State} (sa : Fin 27) (h : Memory.wf s = true) : OutWf (execRqdrop sa s) := by
  refine runWord_wf h fun x hx => ?_
  dsimp only
  split
  · exact dieFatal_wf _ hx.after
  refine ite_effWf (fun _ => effWf_trap) fun _ => ?_
  split
  · exact effWf_trap
  · exact dieFatal_wf _ hx.after
  · have hs : ∀ (c : Prop) [Decidable c] (f : Group → Group) d, Memory.wf (if c then x.s.updGroup x.r f
        else (x.s.updGroup x.r f).unpark d false) = true :=
      fun _ _ _ _ => ite_wf (fun _ => hx.after) fun _ => (unpark_wf ..).trans hx.after
    exact orFatal_wf _ _ (hs _ _ _) (moveUp_okWf _ _ _ _ (hs _ _ _))

theorem dfpop_wf {x : Issue} (d : Reg) (remove retry : Bool) (hx : x.Wf) : (x.dfpop d remove retry).Wf := by
  unfold Issue.dfpop
  dsimp only
  split
  · exact hx.after
  · exact ite_effWf (fun _ => hx.after) fun _ => ((unpark_wf ..).trans (updDfq_wf ..)).trans hx.after

/-! ## Words of pre-emption (R361, R379 to R381) -/

@[simp] theorem mark_wf (s : State) (c : Ctx) (block : Int) : Memory.wf (s.mark c block).1 = Memory.wf s := by
  simp [State.mark]

theorem execPreempt_wf {s : State} (a : SdSa) (h : Memory.wf s = true) : OutWf (execPreempt a s) := by
  refine runWord_wf h fun x hx => ?_
  dsimp only
  split
  · exact effWf_trap
  next he =>
    have hs := resolveVirt_wf he hx.before
    split
    · exact setS_wf _ _ _ (next_wf x hs)
    · exact dieFatal_wf _ (next_wf x hs)
    next he => exact setS_wf _ _ _ ((mark_wf ..).trans (next_wf x (readRegion_okWf _ _ _ hs _ he)))

theorem execCtxsv_wf {s : State} (a : SdSa) (h : Memory.wf s = true) : OutWf (execCtxsv a s) := by
  refine runWord_wf h fun x hx => ?_
  have hs := fun v => setS_wf x a.sd.val v hx.after
  split
  · exact hs _
  · exact ite_effWf (fun _ => hs _) fun _ => ite_effWf (fun _ => hs _) fun _ => setS_wf _ _ _ hx.after

@[simp] theorem enterCore_wf {s : State} (w : Workgroup) (r : Region) (h : Memory.wf s = true) : Memory.wf (s.enterCore w r) = true :=
  orFatal_wf _ _ h (structWrite_okWf _ _ _ h)

@[simp] theorem beginRestore_wf {s : State} (w : Workgroup) (h : Memory.wf s = true) : Memory.wf (s.beginRestore w) = true := by
  unfold State.beginRestore
  split
  · exact enterCore_wf _ _ h
  · exact dieFatal_wf _ h
  next he => exact enterCore_wf _ _ (readRegion_okWf _ _ _ h _ he)

theorem execCtxld_wf {s : State} (a : SdSa) (h : Memory.wf s = true) : OutWf (execCtxld a s) := by
  refine runWord_wf h fun x hx => ?_
  have hrefuse := fun v => setS_wf x a.sd.val v hx.after
  dsimp only
  split
  · exact hrefuse _
  next he =>
    have hs := structRead_wf _ he hx.after
    split
    · exact hrefuse _
    · refine ite_effWf (fun _ => hrefuse _) fun _ => ite_effWf (fun _ => ?_) fun _ => ?_
      · exact setS_wf _ _ _ (beginRestore_wf _ hs)
      · exact setS_wf _ _ _ hs

@[simp] theorem atomLeft_wf {s : State} (w : Workgroup) (r : GroupRef) (p : Pending) (h : Memory.wf s = true) :
    Memory.wf (State.atomLeft w r s p) = true := by
  unfold State.atomLeft
  split
  · exact h
  · refine foldl_wf (fun s m hs => ?_) _ h
    dsimp only
    split
    next he => exact atomOne_okWf _ _ _ _ _ _ _ _ hs _ he
    · exact (noteLate_wf ..).trans hs

@[simp] theorem performLeft_wf {s : State} (w : Workgroup) (h : Memory.wf s = true) : Memory.wf (s.performLeft w) = true :=
  foldl_wf (fun _ _ hs => foldl_wf (fun _ p hs => atomLeft_wf _ _ p hs) _ (settleStores_wf _ _ hs)) _ h

@[simp] theorem goneWg_wf {s : State} (w : Workgroup) (h : Memory.wf s = true) : Memory.wf (s.goneWg w) = true := by
  have hs := drainUpdates_wf (cleanL1_wf (coreIdx w.core) (performLeft_wf w h))
  simpa [State.goneWg] using hs

@[simp] theorem answer_wf (s : State) (issuer : Nat × Nat) (pend lane elem : Nat) (ts : List Tryte) :
    Memory.wf (s.answer issuer pend lane elem ts) = Memory.wf s := rfl

@[simp] theorem discardArrival_wf (s : State) (a : Arrival) : Memory.wf (s.discardArrival a) = Memory.wf s := by
  unfold State.discardArrival
  dsimp only
  split <;> rfl

@[simp] theorem imageFails_wf {s : State} (w : Workgroup) (f : Nat × Int) (h : Memory.wf s = true) : Memory.wf (s.imageFails w f) = true := by
  refine goneWg_wf _ (foldl_wf (fun _ _ hs => (discardArrival_wf ..).trans hs) _ ?_)
  exact appendRecord_wf _ _ _ (endThreads_wf w.id h)

theorem execDivsetQuery_wf {s : State} (a : SdSa) (h : Memory.wf s = true) : OutWf (execDivsetQuery a s) := by
  refine runWord_wf h fun x hx => ?_
  split
  · exact effWf_trap
  · exact setS_wf _ _ _ hx.after

@[simp] theorem abandon_wf {s : State} (core e : Nat) (d : DivEntry) (h : Memory.wf s = true) : Memory.wf (s.abandon core e d) = true := by
  unfold State.abandon
  split
  · exact h
  · refine goneWg_wf _ ?_
    simp only [forceNode_wf, wf_update, updCore_wf]
    split
    next he => exact structWrite_wf he h
    · exact dieFatal_wf _ h

theorem execDivsetRelease_wf {s : State} (a : SdSa) (h : Memory.wf s = true) : OutWf (execDivsetRelease a s) := by
  refine runWord_wf h fun x hx => ?_
  split
  · exact effWf_trap
  dsimp only
  split
  · exact ite_effWf (fun _ => setS_wf _ _ _ (abandon_wf _ _ _ hx.after)) fun _ => setS_wf _ _ _ hx.after
  · exact setS_wf _ _ _ hx.after

/-! ## Words of tables, windows and caches (R418 to R422) -/

theorem putEntry_mayWf {s : State} (w : Workgroup) (off : Nat) (vs : List Int) (h : Memory.wf s = true) :
    MayWf id (s.putEntry w off vs) := by
  refine ite_mayWf (fun _ => mayWf_none) fun _ => ?_
  split
  · exact mayWf_none
  next he => exact mayWf_some.2 (drainUpdates_wf (structWrite_wf he h))

theorem tableWrite_wf {x : Issue} (kd : Nat) (entry : Option (Nat × List Int)) (hx : x.Wf) : (x.tableWrite kd entry).Wf := by
  unfold Issue.tableWrite
  split
  · dsimp only
    split
    next he =>
      have hs := fun h => putEntry_mayWf x.w _ _ h _ he
      exact hs hx.after
    · exact hx.after
  · split
    · exact hx.before
    · exact hx.after

@[simp] theorem settleAll_wf {s : State} (h : Memory.wf s = true) : Memory.wf s.settleAll = true :=
  foldl_wf (fun _ _ hs => settleStores_wf _ _ hs) _ h

theorem execRatset_wf {s : State} (a : SdSaB) (h : Memory.wf s = true) : OutWf (execRatset a s) := by
  refine runWord_wf h fun x hx => ?_
  refine ite_effWf (fun _ => setS_wf _ _ _ hx.after) fun _ => ite_effWf (fun _ => hx.before) fun _ => ?_
  split
  · exact setS_wf _ _ _ hx.after
  next he =>
    have hs := drainUpdates_wf (structWrite_wf he hx.after)
    exact setS_wf _ _ _ (settleAll_wf ((wf_update ..).trans hs))

@[simp] theorem dropWindow_wf {s : State} (n : Nat) (h : Memory.wf s = true) : Memory.wf (s.dropWindow n) = true := by
  unfold State.dropWindow
  split
  · exact dropBytes_wf _ _ _ _ h
  · exact h

theorem execWinset_wf {s : State} (a : SdSaB) (h : Memory.wf s = true) : OutWf (execWinset a s) :=
  runWord_wf h fun _ hx => ite_effWf (fun _ => setS_wf _ _ _ hx.after) fun _ => ite_effWf (fun _ => hx.before) fun _ =>
    setS_wf _ _ _ ((wf_update ..).trans (dropWindow_wf _ (settleAll_wf hx.after)))

@[simp] theorem flushWhere_wf {s : State} (core : Nat) (p : L1Line → Bool) (h : Memory.wf s = true) :
    Memory.wf (s.flushWhere core p) = true :=
  (updCore_wf ..).trans (foldl_wf (fun _ _ hs => writeBackAt_wf _ _ hs) _ h)

@[simp] theorem dropLeaves_wf {s : State} (drop : TlbEntry → Bool) (line : List TlbEntry → L1Line → Bool) (h : Memory.wf s = true) :
    Memory.wf (s.dropLeaves drop line) = true :=
  foldl_wf (fun _ _ hs => flushWhere_wf _ _ hs) _ (settleAll_wf ((wf_update ..).trans h))

theorem tlbRelease_wf {x : Issue} (hx : x.Wf) : Memory.wf x.tlbRelease = true :=
  drainUpdates_wf (releaseAt_wf _ _ _ (settleStores_wf _ _ hx.after))

theorem execTlbinv_wf {s : State} (sa sb : Fin 27) (h : Memory.wf s = true) : OutWf (execTlbinv sa sb s) := by
  refine runWord_wf h fun x hx => ite_effWf (fun _ => hx.before) fun _ => ?_
  split
  · exact hx.after
  · exact dropLeaves_wf _ _ (tlbRelease_wf hx)

theorem execTlbinvCtx_wf {s : State} (sb : Fin 27) (h : Memory.wf s = true) : OutWf (execTlbinvCtx sb s) := by
  refine runWord_wf h fun x hx => ite_effWf (fun _ => hx.before) fun _ => ?_
  split
  · exact hx.after
  · exact dropLeaves_wf _ _ (tlbRelease_wf hx)

theorem execTlbfl_wf {s : State} (h : Memory.wf s = true) : OutWf (execTlbfl s) :=
  runWord_wf h fun _ hx => ite_effWf (fun _ => hx.before) fun _ => (wf_update ..).trans (dropLeaves_wf _ _ (tlbRelease_wf hx))

theorem execIcinv_wf {s : State} (a : LineArgs) (h : Memory.wf s = true) : OutWf (execIcinv a s) :=
  runWord_wf h fun _ hx => drainUpdates_wf (foldl_wf (fun _ _ hs => cleanLine_wf _ _ _ hs) _ (settleStores_wf _ _ hx.after))

theorem execIcinvAll_wf {s : State} (h : Memory.wf s = true) : OutWf (execIcinvAll s) :=
  runWord_wf h fun x hx => drainUpdates_wf (cleanL1_wf (coreIdx x.w.core) (settleStores_wf x.r (fun _ => true) hx.after))

/-! ## Words of counters (R426 to R434) -/

theorem counterValue_okWf {s : State} (w : Workgroup) (a : CounterAddr) (h : Memory.wf s = true) : OkWf Prod.fst (s.counterValue w a) :=
  ite_okWf (fun _ => okWf_ok.2 h) fun _ => ite_okWf (fun _ => coherentRead_okWf _ _ h) fun _ =>
    ite_okWf (fun _ => okWf_ok.2 h) fun _ => okWf_ok.2 h

theorem execCntrd_wf {s : State} (a : CntrdArgs) (h : Memory.wf s = true) : OutWf (execCntrd a s) := by
  refine runWord_wf h fun x hx => ?_
  dsimp only
  split
  · exact hx.after
  split
  · exact dieFatal_wf _ hx.after
  next he => exact counterValue_okWf _ _ hx.after _ he

@[simp] theorem clearCounter_wf {s : State} (w : Workgroup) (a : CounterAddr) (h : Memory.wf s = true) :
    Memory.wf (s.clearCounter w a).1 = true :=
  ite_fst_wf (fun _ => ite_fst_wf (fun _ => h) fun _ => h) fun _ =>
    ite_fst_wf (fun _ => orFatal_wf _ _ h (coherentWrite_okWf _ _ _ h)) fun _ => ite_fst_wf (fun _ => h) fun _ => h

theorem execCntclr_wf {s : State} (a : SdSa) (h : Memory.wf s = true) : OutWf (execCntclr a s) := by
  refine runWord_wf h fun x hx => ?_
  split
  · exact setS_wf _ _ _ hx.after
  · exact ite_effWf (fun _ => effWf_trap) fun _ => setS_wf _ _ _ (clearCounter_wf _ _ hx.after)

theorem execCntsel_wf {s : State} (a : SdSaB) (h : Memory.wf s = true) : OutWf (execCntsel a s) :=
  runWord_wf h fun _ hx => ite_effWf (fun _ => effWf_trap) fun _ => ite_effWf (fun _ => setS_wf _ _ _ hx.after) fun _ =>
    setS_wf _ _ _ hx.after

end Sys2Proof.Machine
end

section
/-! The canonical form of memory through the turns of the matrix unit (09_matrix_unit.md R201 to R216) and of the scheduler
(03_execution.md R61 to R74). -/

namespace Sys2Proof.Machine

/-! ## Turns of the matrix unit (R201 to R216) -/

@[simp] theorem flips_wf {α : Type} {s : State} (ks : List α) (h : Memory.wf s = true) : Memory.wf (s.flips ks).1 = true := by
  refine foldl_fst_wf (fun _ _ ha => ?_) _ h
  exact (flip_wf _).trans ha

@[simp] theorem oldView_wf {s : State} (w : Workgroup) (e : MatEntry) (h : Memory.wf s = true) : Memory.wf (s.oldView w e).1 = true := by
  unfold State.oldView
  exact flips_wf _ h

@[simp] theorem operandView_wf {s : State} (w : Workgroup) (e : MatEntry) (h : Memory.wf s = true) :
    Memory.wf (s.operandView w e).1 = true := by
  unfold State.operandView
  exact flips_wf _ (oldView_wf w e h)

@[simp] theorem matrixRecord_wf (s : State) (w : Workgroup) (e : MatEntry) (addr : Int) :
    Memory.wf (s.matrixRecord w e addr) = Memory.wf s := noteLate_wf ..

theorem consumeRow_wf {s : State} (clu : Nat) (w : Workgroup) (e : MatEntry) (tile : Nat) (rows : List (Nat × Int)) (zeroed : List Nat)
    (h : Memory.wf s = true) : Memory.wf (s.consumeRow clu w e tile rows zeroed) = true := by
  have hs := operandView_wf w e h
  simp only [State.consumeRow]
  generalize s.operandView w e = v at hs ⊢
  split
  · rwa [bump_wf, bump_wf, updUnit_wf]
  · rwa [matrixRecord_wf, bump_wf, bump_wf, updUnit_wf]

theorem consumeLoad_wf {s : State} (clu : Nat) (w : Workgroup) (e : MatEntry) (tag : Word) (off : Int) (d : MatDesc) (planes : Option Nat)
    (h : Memory.wf s = true) : Memory.wf (s.consumeLoad clu w e tag off d planes) = true := by
  have hs := operandView_wf w e h
  unfold State.consumeLoad
  generalize s.operandView w e = v at hs ⊢
  split
  · exact (matrixRecord_wf ..).trans ((updUnit_wf ..).trans h)
  · exact (updUnit_wf ..).trans hs

@[simp] theorem consume_wf {s : State} (clu : Nat) (e : MatEntry) (h : Memory.wf s = true) : Memory.wf (s.consume clu e) = true := by
  refine ite_wf (fun _ => h) fun _ => ?_
  split
  · exact h
  · rw [updUnit_wf]
    split
    · exact consumeRow_wf _ _ _ _ _ _ h
    · exact consumeLoad_wf _ _ _ _ _ _ _ h
    · exact h

@[simp] theorem discardStale_wf (s : State) (clu : Nat) (e : MatEntry) : Memory.wf (s.discardStale clu e) = Memory.wf s := rfl

/-- A choice between a turn that is not due and one that changes a unit alone. -/
theorem matrixGrant_mayWf {s : State} (clu : Nat) (q : GroupRef) (h : Memory.wf s = true) : MayWf id (s.matrixGrant clu q) := by
  refine mayWf_bind fun e _ => ite_mayWf (fun _ => mayWf_none) fun _ => ?_
  split
  case h_1 => exact ite_mayWf (fun _ => mayWf_some.2 h) fun _ => mayWf_none
  case h_2 =>
    split
    · exact mayWf_some.2 h
    · exact mayWf_some.2 h
    · exact mayWf_none
    · exact ite_mayWf (fun _ => mayWf_none) fun _ => mayWf_some.2 h
  case h_6 =>
    refine ite_mayWf (fun _ => ite_mayWf (fun _ => mayWf_none) fun _ => mayWf_some.2 h) fun _ => ?_
    split
    · exact mayWf_some.2 h
    · exact ite_mayWf (fun _ => mayWf_none) fun _ => mayWf_some.2 h
    · exact mayWf_none
  all_goals exact ite_mayWf (fun _ => mayWf_none) fun _ => mayWf_some.2 h

theorem matrixTurn_mayWf {s : State} (clu : Nat) (q : GroupRef) (h : Memory.wf s = true) : MayWf id (s.matrixTurn clu q) :=
  ite_mayWf (fun _ => mayWf_map fun t ht => (updUnit_wf ..).trans (matrixGrant_mayWf _ _ h t ht)) fun _ => mayWf_none

theorem consumedAt_mayWf {s : State} (clu : Nat) (q : GroupRef) (h : Memory.wf s = true) : MayWf id (s.consumedAt clu q) :=
  mayWf_bind fun _ _ => mayWf_some.2 (consume_wf _ _ h)

theorem loadComplete_mayWf {s : State} (clu : Nat) (h : Memory.wf s = true) : MayWf id (s.loadComplete clu) := by
  refine mayWf_bind fun e _ => ?_
  have hs := consume_wf clu e h
  dsimp only
  split
  · exact mayWf_some.2 hs
  · split
    · exact mayWf_some.2 hs
    · exact mayWf_none

theorem passComplete_mayWf {s : State} (clu : Nat) (h : Memory.wf s = true) : MayWf id (s.passComplete clu) :=
  ite_mayWf (fun _ => mayWf_none) fun _ => mayWf_some.2 ((updUnit_wf ..).trans (foldl_wf (fun _ _ hs => consume_wf _ _ hs) _ h))

/-- Trytes that are listed one after the other keep the canonical form of a scratchpad. -/
theorem foldl_set_wf {β : Type} (key : β → Nat) (val : β → Tryte) (xs : List β) {m : SMap Tryte} (h : SMap.wf zeroT m = true) :
    SMap.wf zeroT (xs.foldl (fun m x => m.set zeroT (key x) (val x)) m) = true := by
  induction xs generalizing m with
  | nil => exact h
  | cons x xs ih => exact ih (SMap.set_wf zeroT _ _ h)

theorem storeComplete_mayWf {s : State} (clu : Nat) (q : GroupRef) (h : Memory.wf s = true) : MayWf id (s.storeComplete clu q) := by
  refine mayWf_bind fun e _ => mayWf_bind fun w _ => ?_
  split
  · refine ite_mayWf (fun _ => mayWf_none) fun _ => mayWf_some.2 ?_
    obtain ⟨hdram, hscr, hchip⟩ := (Memory.wf_iff s).1 h
    exact (Memory.wf_iff _).2 ⟨hdram, foldl_set_wf (fun t : Nat × Tryte => _ + t.1) (·.2) _ hscr, hchip⟩
  · exact mayWf_none

@[simp] theorem imageScalar_wf {s : State} (w : Workgroup) (r : GroupRef) (n : Nat) (h : Memory.wf s = true) :
    Memory.wf (s.imageScalar w r n) = true := by
  unfold State.imageScalar
  split
  · exact h
  refine ite_wf (fun _ => h) fun _ => ?_
  split
  next he => exact imageWrite_okWf _ _ _ h _ he
  · exact imageFails_wf _ _ h

@[simp] theorem finishWord_wf {s : State} (w : Workgroup) (r : GroupRef) (p : Pending) (h : Memory.wf s = true) :
    Memory.wf (s.finishWord w r p) = true := by
  have hs : ∀ (c : Prop) [Decidable c] (f : Group → Group) (core code : Nat) (ctx : Option Nat) (as : List (Nat × Arrival)),
      Memory.wf (if c then { (s.updGroup r f).progEvent core code ctx with arrivals := as }
        else (s.updGroup r f).progEvent core code ctx) = true := by
    intros
    simp [h]
  refine ite_wf (fun _ => (completePend_wf ..).trans h) fun _ => ?_
  dsimp only
  split
  · exact ite_wf (fun _ => imageScalar_wf _ _ _ (hs _ _ _ _ _ _)) fun _ => hs _ _ _ _ _ _
  · exact hs _ _ _ _ _ _

theorem matrixRead_mayWf {s : State} (g : GroupRef) (n : Nat) (h : Memory.wf s = true) : MayWf id (do
    let (w, _, p) ← s.pendAt g n
    match p.instr with
    | some (.mrd _) => some (s.finishWord w g p)
    | _ => none) := by
  refine mayWf_bind fun a _ => ?_
  dsimp only
  split
  · exact mayWf_some.2 (finishWord_wf _ _ _ h)
  · exact mayWf_none

theorem resultOf_wf {s : State} (w : Workgroup) (r : GroupRef) (p : Pending) (lanes : List PendLane) (h : Memory.wf s = true) :
    Memory.wf (s.resultOf w r p lanes) = true :=
  ite_wf (fun _ => h) fun _ => finishWord_wf _ _ _ ((flip_wf _).trans h)

theorem mstatDone_mayWf {s : State} (r : GroupRef) (n : Nat) (h : Memory.wf s = true) : MayWf id (s.mstatDone r n) := by
  refine mayWf_bind fun a _ => ?_
  dsimp only
  split
  · refine ite_mayWf (fun _ => mayWf_none) fun _ => ?_
    have hs : ∀ clu k, Memory.wf (if a.2.2.performed then (false, (s.matItem clu a.2.1 k).1)
        else (s.matItem clu a.2.1 k).1.flip).2 = true := by
      intros
      simp [h]
    refine ite_mayWf (fun _ => mayWf_some.2 (hs _ _)) fun _ => mayWf_some.2 (finishWord_wf _ _ _ ?_)
    exact ite_wf (fun _ => hs _ _) fun _ => hs _ _
  · exact mayWf_none

/-! ## Turns of the scheduler (R61 to R74, R282, R317, R353) -/

@[simp] theorem deliver_wf {s : State} (w : Workgroup) (g : Group) (r : FaultRec) (h : Memory.wf s = true) :
    Memory.wf (s.deliver w g r) = true := trapEnter_wf _ _ ((updGroup_wf ..).trans ((updDfq_wf ..).trans h))

@[simp] theorem endCeding_wf (s : State) (w : Workgroup) (g : Group) : Memory.wf (s.endCeding w g) = Memory.wf s := rfl

theorem beginRun_wf {s : State} (w : Workgroup) (g : Group) (h : Memory.wf s = true) : Memory.wf (s.beginRun w g) = true := by
  unfold State.beginRun
  refine ite_wf (fun _ => (progEvent_wf ..).trans h) fun _ => ?_
  dsimp only
  split
  · exact trapEnter_wf _ _ h
  · simp [h]

theorem waitDone_wf (s : State) (w : Workgroup) (g : Group) (m : Monitor) : Memory.wf (s.waitDone w g m) = Memory.wf s := by
  simp [State.waitDone]

theorem regain_wf {s : State} (w : Workgroup) (g : Group) (m : Monitor) (h : Memory.wf s = true) : Memory.wf (s.regain w g m) = true := by
  unfold State.regain
  dsimp only
  split
  · exact takeFault_wf _ _ _ _ h
  · split
    · exact (waitDone_wf ..).trans h
    · exact (waitDone_wf ..).trans ((acquireObject_wf ..).trans h)
    · exact (waitDone_wf ..).trans ((acquireObject_wf ..).trans h)
    · exact (waitDone_wf ..).trans h

theorem runStart_mayWf {s : State} (sl : SlotRef) (h : Memory.wf s = true) : MayWf id (s.runStart sl) := by
  refine mayWf_bind fun g _ => mayWf_bind fun w _ => ite_mayWf (fun _ => mayWf_none) fun _ => ?_
  split
  · exact mayWf_some.2 (regain_wf _ _ _ h)
  · split
    · exact mayWf_some.2 (deliver_wf _ _ _ h)
    · exact mayWf_some.2 (beginRun_wf _ _ h)

theorem stalledWord_mayWf {s : State} (sl : SlotRef) (h : Memory.wf s = true) : MayWf id (s.stalledWord sl) :=
  mayWf_bind fun _ _ => ite_mayWf (fun _ => mayWf_none) fun _ => mayWf_some.2 h

theorem heldWord_mayWf {s : State} (sl : SlotRef) (h : Memory.wf s = true) : MayWf id (s.heldWord sl) :=
  mayWf_bind fun _ _ => ite_mayWf (fun _ => mayWf_some.2 h) fun _ => mayWf_none

theorem atomTraps_wf {s : State} (r : GroupRef) (g : Group) (p : Pending) (m : MemElem) (cause : Nat) (h : Memory.wf s = true) :
    Memory.wf (s.atomTraps r g p m cause) = true := by
  have ht := fun f t => trapEnter_wf r t ((updGroup_wf (s.withdraw r [p.id]) r f).trans ((withdraw_wf ..).trans h))
  exact ite_wf (fun _ => ht _ _) fun _ => ht _ _

theorem readOne_okWf {s : State} (w : Workgroup) (r : GroupRef) (id : Nat) (m : MemElem) (h : Memory.wf s = true) :
    OkWf Prod.fst (s.readOne w r id m) := by
  unfold State.readOne
  dsimp only
  split
  · exact okWf_ok.2 h
  · exact okWf_map (fun _ he => readElem_wf he h) fun _ hb => hb

theorem elemNext_wf {s : State} (w : Workgroup) (r : GroupRef) (g : Group) (p : Pending) (wd : Width)
    {perform : State → PendLane → MemElem → Except Nat (State × Option (List Tryte))} (h : Memory.wf s = true)
    (hperform : ∀ part m, OkWf Prod.fst (perform s part m)) : Memory.wf (s.elemNext w r g p wd perform) = true := by
  unfold State.elemNext
  split
  · exact h
  dsimp only
  split
  next he => exact hperform _ _ _ he
  next he => exact hperform _ _ _ he
  · have hs := fun ps => (refusedFills_wf s ps).trans h
    exact ite_wf (fun _ => atomTraps_wf _ _ _ _ _ (hs _)) fun _ => (noteLate_wf ..).trans (hs _)

theorem accessDone_mayWf {s : State} (w : Workgroup) (r : GroupRef) (g : Group) (p : Pending) (i : Instr) (h : Memory.wf s = true) :
    MayWf id (s.accessDone w r g p i) := by
  refine ite_mayWf (fun _ => mayWf_some.2 (finishWord_wf _ _ _ ?_)) fun _ => ite_mayWf (fun _ => mayWf_none) fun _ => ?_
  · split
    · exact (acquireAt_wf ..).trans h
    · exact h
  · split
    · exact mayWf_some.2 (elemNext_wf _ _ _ _ _ h fun _ _ => atomOne_okWf _ _ _ _ _ _ _ _ h)
    · exact mayWf_some.2 (elemNext_wf _ _ _ _ _ h fun _ _ => readOne_okWf _ _ _ _ h)

theorem readDone_mayWf {s : State} (r : GroupRef) (n : Nat) (h : Memory.wf s = true) : MayWf id (s.readDone r n) := by
  refine mayWf_bind fun a _ => mayWf_bind fun i _ => ?_
  split
  case h_6 => exact mayWf_none
  all_goals exact accessDone_mayWf _ _ _ _ _ h

theorem writeDone_mayWf {s : State} (r : GroupRef) (n : Nat) (h : Memory.wf s = true) : MayWf id (s.writeDone r n) := by
  refine mayWf_bind fun a _ => mayWf_bind fun i _ => ?_
  have hs := settleStores_wf r (fun q => q.id == a.2.2.id) h
  split
  case h_1 => exact accessDone_mayWf _ _ _ _ _ h
  case h_5 => exact mayWf_none
  all_goals
    exact ite_mayWf (fun _ => mayWf_none) fun _ => mayWf_some.2 (ite_wf (fun _ => hs) fun _ => finishWord_wf _ _ _ hs)

theorem floatDone_mayWf {s : State} (r : GroupRef) (n : Nat) (h : Memory.wf s = true) : MayWf id (s.floatDone r n) :=
  mayWf_bind fun _ _ => ite_mayWf (fun _ => mayWf_some.2 (finishWord_wf _ _ _ h)) fun _ => mayWf_none

theorem spawnDone_mayWf {s : State} (w : Workgroup) (r : GroupRef) (p : Pending) (coresident : Bool) (h : Memory.wf s = true) :
    MayWf id (s.spawnDone w r p coresident) := by
  refine mayWf_bind fun head _ => ite_mayWf (fun _ => mayWf_some.2 (finishWord_wf _ _ _ h)) fun _ => ?_
  exact mayWf_bind fun a ha => mayWf_some.2 (resultOf_wf _ _ _ _ (spawnNow_mayWf _ _ _ _ h a ha))

theorem engineDone_mayWf {s : State} (r : GroupRef) (n : Nat) (h : Memory.wf s = true) : MayWf id (s.engineDone r n) := by
  refine mayWf_bind fun a _ => mayWf_bind fun i _ => ?_
  split
  case h_1 => exact mayWf_some.2 (finishWord_wf _ _ _ h)
  case h_6 => exact spawnDone_mayWf _ _ _ _ h
  case h_7 => exact spawnDone_mayWf _ _ _ _ h
  case h_8 => exact mayWf_none
  all_goals exact ite_mayWf (fun _ => mayWf_some.2 (finishWord_wf _ _ _ h)) fun _ => mayWf_none

@[simp] theorem drawBin_wf (s : State) (core n : Nat) : Memory.wf (s.drawBin core n) = Memory.wf s := by
  unfold State.drawBin
  split
  · rfl
  · dsimp only
    split <;> rfl

theorem freeBin_mayWf {s : State} (core wg : Nat) (h : Memory.wf s = true) : MayWf id (s.freeBin core wg) :=
  ite_mayWf (fun _ => mayWf_some.2 h) fun _ => ite_mayWf (fun _ => mayWf_map fun _ _ => (drawBin_wf ..).trans h) fun _ =>
    mayWf_map fun _ _ => (drawBin_wf ..).trans h

@[simp] theorem drawFull_wf (s : State) (core n : Nat) : Memory.wf (s.drawFull core n) = Memory.wf s := by
  unfold State.drawFull
  split
  · simp
  · rfl

theorem fileThread_mayWf {s : State} (core wg : Nat) (l : Lane) (h : Memory.wf s = true) : MayWf id (s.fileThread core wg l) := by
  unfold State.fileThread
  split
  · exact mayWf_some.2 ((drawFull_wf ..).trans h)
  · exact mayWf_map fun t ht => (updCore_wf ..).trans (freeBin_mayWf _ _ h t ht)

theorem reformFile_mayWf {s : State} (r : GroupRef) (h : Memory.wf s = true) : MayWf id (s.reformFile r) := by
  refine mayWf_bind fun w _ => mayWf_bind fun g _ => ite_mayWf (fun _ => mayWf_none) fun _ => ?_
  exact mayWf_foldlM (fun _ _ hs => fileThread_mayWf _ _ _ hs) _ (ite_wf (fun _ => h) fun _ => h)

theorem binAged_mayWf {s : State} (core : CoreRef) (n : Nat) (h : Memory.wf s = true) : MayWf id (s.binAged core n) :=
  mayWf_bind fun _ _ => mayWf_bind fun _ _ => ite_mayWf (fun _ => mayWf_none) fun _ => mayWf_some.2 ((drawBin_wf ..).trans h)

theorem recheck_mayWf {s : State} (r : GroupRef) (h : Memory.wf s = true) : MayWf id (s.recheck r) := by
  refine mayWf_bind fun w _ => mayWf_bind fun g _ => ?_
  dsimp only
  split
  · have hread : ∀ (m : Monitor) sp thread addr (go : State → Int → State),
        (∀ t v, Memory.wf t = true → Memory.wf (go t v) = true) →
        MayWf id (match s.monitorRead w r sp thread addr with
          | .error c => some (s.wake r { m with fault := some c })
          | .ok (_, none) => none
          | .ok (s, some v) => some (go s v)) := by
      intro m sp thread addr go hgo
      have hok := monitorRead_okWf w r sp thread addr h
      split
      · exact mayWf_some.2 h
      · exact mayWf_none
      next he => exact mayWf_some.2 (hgo _ _ (hok _ he))
    split
    · exact hread _ _ _ _ _ fun t v ht => ite_wf (fun _ => ht) fun _ => ht
    · exact hread _ _ _ _ _ fun t v ht => ite_wf (fun _ => ht) fun _ => ite_wf (fun _ => ht) fun _ => ht
    · exact hread _ _ _ _ _ fun t v ht => ite_wf (fun _ => ht) fun _ => ite_wf (fun _ => ht) fun _ => ht
    · exact mayWf_none
  · exact mayWf_none

theorem waitOver_mayWf {s : State} (r : GroupRef) (p : Instr → Bool) (h : Memory.wf s = true) : MayWf id (s.waitOver r p) := by
  refine mayWf_bind fun g _ => mayWf_bind fun w _ => ?_
  split
  · exact mayWf_bind fun t _ => ite_mayWf (fun _ => mayWf_some.2 h) fun _ => mayWf_none
  · exact mayWf_none

end Sys2Proof.Machine
end

section
/-! The canonical form of memory through the turns of memory, of the copy engines and of placement (14_queues.md R307 to R316). -/

namespace Sys2Proof.Machine

/-! ## Turns of memory and of the copy engines (R240, R241, R323 to R335, R359) -/

theorem pageWalk_mayWf {s : State} (wg : Nat) (addr : Int) (h : Memory.wf s = true) : MayWf id (s.pageWalk wg addr) := by
  refine mayWf_bind fun w _ => ite_mayWf (fun _ => mayWf_none) fun _ => ?_
  split
  next he => exact mayWf_some.2 (leafOf_wf he h)
  · exact mayWf_some.2 (refusedAccess_wf _ _ _ h)

theorem fillFor_mayWf {s : State} (wg : Nat) (addr : Int) (coded : Bool) (h : Memory.wf s = true) : MayWf id (s.fillFor wg addr coded) := by
  refine mayWf_bind fun w _ => ?_
  split
  next he =>
    refine ite_mayWf (fun _ => mayWf_none) fun _ => ?_
    split
    next hl => exact mayWf_some.2 (llcEnsure_wf hl (resolveVirt_wf he h))
    · exact mayWf_none
  next he =>
    refine ite_mayWf (fun _ => mayWf_none) fun _ => ?_
    split
    next hl => exact mayWf_some.2 (llcEnsure_wf hl (resolveVirt_wf he h))
    · exact mayWf_none
  · exact mayWf_none

theorem updateArrives_mayWf {s : State} (n : Nat) (h : Memory.wf s = true) : MayWf id (s.updateArrives n) :=
  mayWf_bind fun _ _ => ite_mayWf (fun _ => mayWf_none) fun _ => mayWf_some.2 (applyUpdate_wf _ h)

theorem refusalRecord_mayWf {s : State} (n : Nat) (h : Memory.wf s = true) : MayWf id (s.refusalRecord n) :=
  mayWf_bind fun _ _ => mayWf_some.2 ((noteLate_wf ..).trans h)

theorem lateRecord_mayWf {s : State} (n : Nat) (h : Memory.wf s = true) : MayWf id (s.lateRecord n) :=
  mayWf_bind fun _ _ => ite_mayWf (fun _ => mayWf_none) fun _ => mayWf_some.2 (enterRecord_wf _ _ _ h)

theorem heldBad_mayWf {s : State} (die : Nat) (k : LineKey) (third : Nat) (h : Memory.wf s = true) : MayWf id (s.heldBad die k third) :=
  mayWf_bind fun _ _ => mayWf_some.2 ((llcPut_wf ..).trans h)

theorem strike_mayWf {s : State} (e : SoftError) (h : Memory.wf s = true) : MayWf id (s.strike e) := by
  cases e with
  | corrected => exact ite_mayWf (fun _ => mayWf_some.2 h) fun _ => mayWf_none
  | register => exact mayWf_bind fun _ _ => ite_mayWf (fun _ => mayWf_some.2 h) fun _ => mayWf_none
  | tlb => exact ite_mayWf (fun _ => mayWf_some.2 (ite_wf (fun _ => h) fun _ => h)) fun _ => mayWf_none
  | scratchpad => exact mayWf_some.2 h
  | chip => exact mayWf_some.2 h
  | l1 => exact ite_mayWf (fun _ => mayWf_map fun _ _ => h) fun _ => mayWf_none
  | lastLevel => exact ite_mayWf (fun _ => heldBad_mayWf _ _ _ h) fun _ => mayWf_none
  | walkerState => exact ite_mayWf (fun _ => mayWf_some.2 (dieFatal_wf _ h)) fun _ => mayWf_none

theorem sliceFault_mayWf {s : State} (id n : Nat) (h : Memory.wf s = true) : MayWf (fun t : State => t) (s.sliceFault id n) :=
  ite_mayWf (fun _ => mayWf_some.2 (sliceTurn_wf _ _ h)) fun _ => mayWf_none

theorem steal_mayWf {s : State} (id n thief : Nat) (h : Memory.wf s = true) : MayWf (fun t : State => t) (s.steal id n thief) :=
  mayWf_bind fun _ _ => mayWf_bind fun _ _ => ite_mayWf (fun _ => mayWf_some.2 h) fun _ => mayWf_none

/-! ## Placement (R81, R82, R312 to R316) -/

@[simp] theorem zeroRun_wf {s : State} (w : Workgroup) (h : Memory.wf s = true) : Memory.wf (s.zeroRun w) = true := by
  obtain ⟨hdram, hscr, hchip⟩ := (Memory.wf_iff s).1 h
  exact (updUnit_wf ..).trans ((Memory.wf_iff _).2 ⟨hdram, SMap.clear_wf _ _ _ hscr, hchip⟩)

theorem placeOne_wf {s : State} (die clu : Nat) (b : Batch) (r : Region) (m : Room) (i : Nat) (h : Memory.wf s = true) :
    Memory.wf (s.placeOne die clu b r m i) = true := by
  simp [State.placeOne, h]

theorem placeFrom_mayWf {s : State} (die clu key : Nat) (h : Memory.wf s = true) : MayWf id (s.placeFrom die clu key) := by
  refine mayWf_bind fun i _ => mayWf_bind fun b _ => ?_
  have hr := readRegion_okWf die b.region.ctx b.region.block h
  have hplaced : ∀ t : State, Memory.wf t = true → ∀ (r : Region) (rooms : List (Nat × Room)),
      Memory.wf (rooms.foldl (fun s e => s.placeOne die clu b r e.2 e.1) t) = true :=
    fun t ht r rooms => foldl_wf (fun _ _ hs => placeOne_wf _ _ _ _ _ _ hs) _ ht
  generalize s.readRegion die b.region.ctx b.region.block = q at hr ⊢
  split
  · exact mayWf_some.2 (dieFatal_wf _ h)
  · split
    next he =>
      refine mayWf_bind fun rooms _ => mayWf_some.2 ?_
      split at he
      next t r =>
        cases he
        exact hplaced _ ((setSpawnQ_wf ..).trans (hr _ rfl)) _ _
      · cases he
        exact hplaced _ ((setSpawnQ_wf ..).trans h) _ _

theorem placement_mayWf {s : State} (die clu : Nat) (h : Memory.wf s = true) : MayWf id (s.placement die clu) := by
  refine ite_mayWf (fun _ => mayWf_none) fun _ t he => ?_
  obtain ⟨c, -, hc⟩ := List.exists_of_findSome?_eq_some he
  exact placeFrom_mayWf _ _ _ h t hc

theorem stealBatch_mayWf {s : State} (die clu : Nat) (h : Memory.wf s = true) : MayWf id (s.stealBatch die clu) :=
  ite_mayWf (fun _ => mayWf_none) fun _ => mayWf_bind fun _ _ => mayWf_bind fun _ _ => mayWf_some.2 h

theorem workgroupGone_mayWf {s : State} (wg : Nat) (h : Memory.wf s = true) : MayWf id (s.workgroupGone wg) :=
  mayWf_bind fun _ _ => ite_mayWf (fun _ => mayWf_none) fun _ => mayWf_some.2 (goneWg_wf _ h)

end Sys2Proof.Machine
end

section
/-! The canonical form of memory through the turns of nodes, event rings and mailboxes (14_queues.md R308 to R311). -/

namespace Sys2Proof.Machine

/-! ## Walkers and nodes (R311, R411) -/

@[simp] theorem updWalker_wf (s : State) (id : Nat) (f : Walker → Walker) : Memory.wf (s.updWalker id f) = Memory.wf s := rfl
@[simp] theorem nodeEnds_wf (s : State) (id : Nat) (t : Trit) : Memory.wf (s.nodeEnds id t) = Memory.wf s := rfl
@[simp] theorem updKnode_wf (s : State) (id : Nat) (f : KNode → KNode) : Memory.wf (s.updKnode id f) = Memory.wf s := rfl

theorem nodeStart_okWf {s : State} (k : Walker) (va : Int) (h : Memory.wf s = true) : OkWf Prod.fst (s.nodeStart k va) :=
  ite_okWf (fun _ => okWf_error) fun _ => structRead_okWf _ _ _ h

theorem putNode_okWf {s : State} (k : Walker) (va : Int) (word : Nat) (v : Int) (h : Memory.wf s = true) : OkWf id (s.putNode k va word v) :=
  structWrite_okWf _ _ _ h

theorem markNode_okWf {s : State} (k : Walker) (va st : Int) (status : Option Trit) (h : Memory.wf s = true) :
    OkWf id (s.markNode k va st status) :=
  okWf_bind (nodeWords_okWf _ _ _ h) fun _ hb => putNode_okWf _ _ _ _ hb

theorem nodeWrote_wf {s : State} (k : Walker) {r : Except Nat State} (h : Memory.wf s = true) (hr : OkWf id r) :
    Memory.wf (s.nodeWrote k r) = true := by
  unfold State.nodeWrote
  split
  · exact hr _ rfl
  · exact h

theorem nodeLink_okWf {s : State} (k : Walker) (va : Int) (word : Nat) (h : Memory.wf s = true) : OkWf Prod.fst (s.nodeLink k va word) :=
  okWf_bind (structRead_okWf _ _ _ h) fun _ hb => okWf_ok.2 hb

theorem paramRead_okWf {s : State} (k : Walker) (r : Region) (va : Int) (h : Memory.wf s = true) : OkWf Prod.fst (s.paramRead k r va) :=
  okWf_bind (fun _ he => resolveVirt_wf he h) fun _ hb => okWf_bind (fun _ he => readElem_wf he hb) fun _ hb => okWf_ok.2 hb

@[simp] theorem paramFault_wf {s : State} (k : Walker) (r : Region) (node va : Int) (cause : Nat) (h : Memory.wf s = true) :
    Memory.wf (s.paramFault k r node va cause) = true := (nodeEnds_wf ..).trans (appendRecord_wf _ _ _ h)

theorem withParam_wf {s : State} (k : Walker) (node va : Int) {go : State → Int → State} (h : Memory.wf s = true)
    (hgo : ∀ t v, Memory.wf t = true → Memory.wf (go t v) = true) : Memory.wf (s.withParam k node va go) = true := by
  unfold State.withParam
  split
  · exact h
  · exact dieFatal_wf _ h
  next hr =>
    have hs := readRegion_okWf _ _ _ h _ hr
    split
    · exact paramFault_wf _ _ _ _ _ hs
    next hv => exact hgo _ _ (paramRead_okWf _ _ _ hs _ hv)

@[simp] theorem startKernel_wf {s : State} (k : Walker) (va : Int) (ws : List Int) (h : Memory.wf s = true) :
    Memory.wf (s.startKernel k va ws) = true := by
  unfold State.startKernel
  split
  · exact h
  · exact dieFatal_wf _ h
  next hr =>
    have hs := readRegion_okWf _ _ _ h _ hr
    split
    · exact hs
    · exact (updWalker_wf ..).trans hs

@[simp] theorem enterNode_wf (fuel : Nat) {s : State} (id : Nat) (va : Int) (h : Memory.wf s = true) :
    Memory.wf (State.enterNode fuel s id va) = true := by
  induction fuel generalizing s va with
  | zero => exact h
  | succ fuel ih =>
    unfold State.enterNode
    split
    · exact h
    dsimp only
    split
    · exact h
    next hn =>
      have hs := nodeStart_okWf _ _ h _ hn
      refine ite_wf (fun _ => hs) fun _ => ?_
      split
      · exact hs
      next hm =>
        have ht := markNode_okWf _ _ _ _ hs _ hm
        split
        · exact startKernel_wf _ _ _ ((updWalker_wf ..).trans ht)
        · exact nodeWrote_wf _ ((updWalker_wf ..).trans ht) (putNode_okWf _ _ _ _ ((updWalker_wf ..).trans ht))
        · split
          · exact ht
          · exact dieFatal_wf _ ht
          next hr =>
            have hu := readRegion_okWf _ _ _ ht _ hr
            split
            · exact paramFault_wf _ _ _ _ _ ((updWalker_wf ..).trans hu)
            next hv =>
              have hw := paramRead_okWf _ _ _ hu _ hv
              exact ite_wf (fun _ => hw) fun _ => ih _ ((updWalker_wf ..).trans hw)
        · exact ht
        · split
          · exact ht
          · exact dieFatal_wf _ ht
          next hr => exact (ringQueue_wf ..).trans ((updWalker_wf ..).trans (readRegion_okWf _ _ _ ht _ hr))
        · split
          · exact ht
          next hl =>
            have hw := nodeLink_okWf _ _ _ ht _ hl
            exact ite_wf (fun _ => hw) fun _ => ih _ ((updWalker_wf ..).trans hw)

theorem startWalker_mayWf {s : State} (die : Nat) (h : Memory.wf s = true) : MayWf id (s.startWalker die) := by
  refine mayWf_bind fun n _ => ite_mayWf (fun _ => mayWf_none) fun _ => ?_
  have hs : ∀ t : State, Memory.wf t = Memory.wf s → Memory.wf t.drainUpdates = true := fun t ht => drainUpdates_wf (ht.trans h)
  exact ite_mayWf (fun _ => mayWf_some.2 (hs _ rfl)) fun _ => mayWf_some.2 (enterNode_wf _ _ _ (hs _ rfl))

theorem enqueueNode_mayWf {s : State} (id : Nat) (h : Memory.wf s = true) : MayWf (fun t : State => t) (s.enqueueNode id) := by
  refine mayWf_bind fun k _ => mayWf_bind fun n _ => mayWf_bind fun b _ => mayWf_bind fun clu _ =>
    ite_mayWf (fun _ => mayWf_none) fun _ => mayWf_bind fun t ht => mayWf_some.2 ?_
  exact (updKnode_wf ..).trans (enqueueBatch_mayWf _ _ _ h t ht)

@[simp] theorem loopCount_wf {s : State} (k : Walker) (f : NodeFrame) (above : List NodeFrame) (h : Memory.wf s = true) :
    Memory.wf (s.loopCount k f above) = true :=
  nodeWrote_wf _ ((updWalker_wf ..).trans h) (putNode_okWf _ _ _ _ ((updWalker_wf ..).trans h))

theorem loopTurn_mayWf {s : State} (id : Nat) (h : Memory.wf s = true) : MayWf (fun t : State => t) (s.loopTurn id) := by
  refine mayWf_bind fun k _ => mayWf_bind fun f _ => ite_mayWf (fun _ => mayWf_none) fun _ =>
    ite_mayWf (fun _ => mayWf_some.2 h) fun _ => mayWf_some.2 (withParam_wf _ _ _ h fun t v ht => ite_wf (fun _ => ht) fun _ => ?_)
  split
  · exact ht
  next hl =>
    have hs := nodeLink_okWf _ _ _ ht _ hl
    exact ite_wf (fun _ => loopCount_wf _ _ _ hs) fun _ => enterNode_wf _ _ _ ((updWalker_wf ..).trans hs)

theorem waitTurn_mayWf {s : State} (id : Nat) (h : Memory.wf s = true) : MayWf (fun t : State => t) (s.waitTurn id) :=
  mayWf_bind fun _ _ => mayWf_bind fun _ _ => ite_mayWf (fun _ => mayWf_none) fun _ =>
    mayWf_some.2 (withParam_wf _ _ _ h fun _ _ ht => ite_wf (fun _ => ht) fun _ => ht)

@[simp] theorem kernelDone_wf (s : State) (k : Walker) (n : KNode) : Memory.wf (s.kernelDone k n) = Memory.wf s := ringQueue_wf ..

@[simp] theorem passOn_wf {s : State} (k : Walker) (f : NodeFrame) (rest : List NodeFrame) (t : Trit) (h : Memory.wf s = true) :
    Memory.wf (s.passOn k f rest t) = true := by
  unfold State.passOn
  split
  next u t' he =>
    have hu : Memory.wf u = true := by
      have hm := markNode_okWf k f.block 3 (some t) (drainUpdates_wf h)
      split at he
      next hk =>
        cases he
        exact hm _ hk
      · cases he
        exact drainUpdates_wf h
    have hw : ∀ g, Memory.wf (((u.wakeHalts fun w => w.core.die == k.die).updWalker k.id g)) = true := fun _ => hu
    dsimp only
    split
    · exact hw id
    · split
      · exact ite_wf (fun _ => hw id) fun _ => loopCount_wf _ _ _ (hw _)
      · exact hw id
      · refine ite_wf (fun _ => hw id) fun _ => ?_
        split
        · exact hw id
        next hl =>
          have hs := fun h => nodeLink_okWf k f.block 3 h _ hl
          exact ite_wf (fun _ => hs (hw _)) fun _ => enterNode_wf _ _ _ ((updWalker_wf ..).trans (hs (hw _)))

theorem nodeTurn_mayWf {s : State} (id : Nat) (h : Memory.wf s = true) : MayWf (fun t : State => t) (s.nodeTurn id) := by
  refine mayWf_bind fun k _ => ite_mayWf (fun _ => mayWf_none) fun _ => ?_
  split
  · exact mayWf_some.2 (passOn_wf _ _ _ _ h)
  · exact mayWf_bind fun _ _ => ite_mayWf (fun _ => mayWf_none) fun _ => mayWf_some.2 ((kernelDone_wf ..).trans h)
  · exact mayWf_none

/-! ## Event rings and mailboxes (R308 to R310, R410, R436) -/

@[simp] theorem boxPost_wf {s : State} (c : Ctx) (kind : Nat) (payload : List Int) (h : Memory.wf s = true) :
    Memory.wf (s.boxPost c kind payload) = true := by
  unfold State.boxPost
  split
  next he => exact (ringQueue_wf ..).trans (structRead_wf _ he h)
  · exact dieFatal_wf _ h

@[simp] theorem rootRecords_wf {s : State} (ctx : Nat) (h : Memory.wf s = true) : Memory.wf (s.rootRecords ctx) = true := by
  unfold State.rootRecords
  split
  · exact h
  · exact foldl_wf (fun _ _ hs => boxPost_wf _ _ _ hs) _ ((wf_update ..).trans h)

theorem postNext_mayWf {s : State} (ctx : Nat) (h : Memory.wf s = true) : MayWf id (s.postNext ctx) := by
  have hs := rootRecords_wf ctx h
  unfold State.postNext
  generalize s.rootRecords ctx = t at hs ⊢
  refine mayWf_bind fun r _ => ?_
  have hpost : ∀ ws, MayWf id (t.ringPost r.ctx.homeDie r.ctx ws) := fun _ => ringPost_mayWf _ _ _ hs
  dsimp only
  split
  · exact mayWf_none
  · exact mayWf_none
  · exact mayWf_bind fun u hu => mayWf_some.2 ((updRing_wf ..).trans (hpost _ u hu))
  · refine mayWf_bind fun v hv => mayWf_some.2 ?_
    obtain ⟨u, hu, hv⟩ := Option.bind_eq_some_iff.1 hv
    cases hv
    have hw := fun f => (updRing_wf u r.ctx f).trans (hpost _ u hu)
    split
    · exact hw _
    · exact hw _

theorem consumerWrite_mayWf {s : State} (ctx : Nat) (v : Int) (h : Memory.wf s = true) : MayWf id (s.consumerWrite ctx v) := by
  refine ite_mayWf (fun _ => mayWf_none) fun _ => ?_
  split
  · exact mayWf_some.2 h
  · exact mayWf_some.2 (ringSignal_wf _ _ ((updRing_wf ..).trans (orFatal_wf _ _ h (structWrite_okWf _ _ _ h))))

@[simp] theorem boxRecord_wf {s : State} (ctx kind : Nat) (payload : List Int) (h : Memory.wf s = true) :
    Memory.wf (s.boxRecord ctx kind payload) = true := rootRecords_wf _ ((wf_update ..).trans h)

theorem doorbell_mayWf {s : State} (n slot : Nat) (v : Int) (h : Memory.wf s = true) : MayWf id (s.doorbell n slot v) := by
  refine ite_mayWf (fun _ => mayWf_none) fun _ => ?_
  dsimp only
  split
  · exact mayWf_none
  · exact ite_mayWf (fun _ => mayWf_some.2 (boxRecord_wf _ _ _ h)) fun _ => ite_mayWf (fun _ => mayWf_none) fun _ =>
      ite_mayWf (fun _ => mayWf_some.2 (boxRecord_wf _ _ _ h)) fun _ => mayWf_some.2 h

end Sys2Proof.Machine
end

section
/-! The canonical form of memory through the turns of pre-emption (16_traps_and_preemption.md R361 to R371). -/

namespace Sys2Proof.Machine

/-! ## Marks and draining (R125, R206, R361 to R363) -/

theorem markTurn_mayWf {s : State} (wg : Nat) (h : Memory.wf s = true) : MayWf id (s.markTurn wg) :=
  mayWf_bind fun _ _ => ite_mayWf (fun _ => mayWf_none) fun _ => mayWf_some.2 h

theorem markRemoval_mayWf {s : State} (id' : Nat) (h : Memory.wf s = true) : MayWf id (s.markRemoval id') := by
  refine mayWf_bind fun m _ => ite_mayWf (fun _ => mayWf_none) fun _ => mayWf_some.2 ?_
  have hs := drainUpdates_wf h
  exact (wf_update ..).trans (drainUpdates_wf (orFatal_wf _ _ hs (structWrite_okWf _ _ _ hs)))

theorem deadline_mayWf {s : State} (wg : Nat) (h : Memory.wf s = true) : MayWf id (s.deadline wg) :=
  mayWf_bind fun _ _ => ite_mayWf (fun _ => mayWf_none) fun _ => mayWf_some.2 h

@[simp] theorem drainUnit_wf {s : State} (w : Workgroup) (h : Memory.wf s = true) : Memory.wf (s.drainUnit w) = true :=
  foldl_wf (fun _ _ hs => (discardStale_wf ..).trans hs) _ ((updUnit_wf ..).trans h)

/-! ## The image of a workgroup (R365) -/

theorem putGroups_okWf {s : State} (w : Workgroup) (h : Memory.wf s = true) : OkWf id (s.putGroups w) := by
  refine okWf_foldE (fun s g hs => ?_) _ h
  exact okWf_bind (st' := id) (okWf_foldE (fun _ _ hs => imageWrite_okWf _ _ _ hs) _ hs) fun b hb =>
    okWf_foldE (fun _ _ hs => imageWrite_okWf _ _ _ hs) _ hb

theorem putBins_okWf {s : State} (w : Workgroup) (ls : List Lane) (h : Memory.wf s = true) : OkWf id (s.putBins w ls) :=
  okWf_foldE (fun _ _ hs => imageWrite_okWf _ _ _ hs) _ h

theorem putFrames_okWf {s : State} (w : Workgroup) (g : Group) (h : Memory.wf s = true) : OkWf id (s.putFrames w g) := by
  refine okWf_foldE (fun s j hs => okWf_check fun trap _ => ?_) _ h
  exact okWf_bind (imageWrite_okWf _ _ _ hs) fun b hb => imageWrite_okWf _ _ _ hb

theorem putImage_okWf {s : State} (w : Workgroup) (h : Memory.wf s = true) : OkWf id (s.putImage w) := by
  refine okWf_bind (putGroups_okWf w h) fun s hs => okWf_bind (putBins_okWf w _ hs) fun s hs => ?_
  refine okWf_bind (st' := id) (okWf_foldE (fun _ _ hs => putFrames_okWf _ _ hs) _ hs) fun s hs => ?_
  refine okWf_bind (st' := id) (okWf_foldE (fun _ _ hs => imageWrite_okWf _ _ _ hs) _ hs) fun s hs => ?_
  refine okWf_bind (st' := id) (okWf_foldE (fun _ _ hs => imageWrite_okWf _ _ _ hs) _ hs) fun s hs => ?_
  exact okWf_bind (imageWrite_okWf _ _ _ hs) fun s hs => okWf_ok.2 (drainUpdates_wf hs)

/-! ## Diverted arrivals (R366, R367, R370) -/

theorem targetRead_okWf (t : Target) {s : State} (off : Nat) (h : Memory.wf s = true) : OkWf Prod.fst (t.read s off) := by
  unfold Target.read
  split
  · split
    next he => exact okWf_ok.2 (shadowGet_wf he h)
    · exact okWf_error
  · exact okWf_ok.2 h

theorem targetWrite_okWf (t : Target) {s : State} (off : Nat) (v : Tryte) (h : Memory.wf s = true) : OkWf id (t.write s off v) := by
  unfold Target.write
  split
  · split
    next he => exact okWf_ok.2 (shadowSet_wf he h)
    · exact okWf_error
  · exact okWf_ok.2 (scrSet_wf _ _ _ h)

theorem targetReadAll_okWf (t : Target) {s : State} (off n : Nat) (h : Memory.wf s = true) : OkWf Prod.fst (t.readAll s off n) := by
  refine okWf_foldlM (fun a i ha => ?_) _ h
  exact okWf_bind (targetRead_okWf t _ ha) fun _ hb => okWf_ok.2 hb

theorem targetWriteAll_okWf (t : Target) {s : State} (off : Nat) (vs : List Tryte) (h : Memory.wf s = true) : OkWf id (t.writeAll s off vs) :=
  okWf_foldE (fun _ _ hs => targetWrite_okWf t _ _ hs) _ h

@[simp] theorem mendWords_wf (s : State) (a : Arrival) (core off n : Nat) (issuer : Option (Nat × Nat × Nat)) :
    Memory.wf (s.mendWords a core off n issuer) = Memory.wf s := by
  unfold State.mendWords
  dsimp only
  split
  · exact noteLate_wf ..
  · rfl

theorem applyArrival_okWf {s : State} (t : Target) (a : Arrival) (h : Memory.wf s = true) : OkWf id (s.applyArrival t a) := by
  unfold State.applyArrival
  split
  · exact okWf_bind (targetWriteAll_okWf t _ _ h) fun b hb => okWf_ok.2 (ite_wf (fun _ => (mendWords_wf ..).trans hb) fun _ => hb)
  · exact ite_okWf (fun _ => okWf_ok.2 h) fun _ => okWf_bind (targetReadAll_okWf t _ _ h) fun b hb => okWf_ok.2 ((answer_wf ..).trans hb)
  · exact ite_okWf (fun _ => okWf_ok.2 h) fun _ => okWf_bind (targetReadAll_okWf t _ _ h) fun b hb =>
      okWf_bind (targetWriteAll_okWf t _ _ hb) fun c hc => okWf_ok.2 ((answer_wf ..).trans hc)
  · refine ite_okWf (fun _ => okWf_ok.2 h) fun _ => okWf_bind (targetReadAll_okWf t _ _ h) fun b hb => ?_
    dsimp only
    split
    · exact okWf_ok.2 hb
    · exact targetWriteAll_okWf t _ _ hb
  · split
    · exact ite_okWf (fun _ => okWf_ok.2 h) fun _ => okWf_bind (imageRead_okWf _ _ _ h) fun b hb => imageWrite_okWf _ _ _ hb
    · exact okWf_ok.2 h

@[simp] theorem applyDirect_wf {s : State} (core : Nat) (a : Arrival) (h : Memory.wf s = true) : Memory.wf (s.applyDirect core a) = true := by
  refine ite_wf (fun _ => ?_) fun _ => (discardArrival_wf ..).trans h
  split
  next he => exact applyArrival_okWf _ _ h _ he
  · exact h

@[simp] theorem drainHold_wf {s : State} (core : Nat) (h : Memory.wf s = true) : Memory.wf (s.drainHold core) = true := by
  refine foldl_wf (fun s a hs => ?_) _ ((updCore_wf ..).trans h)
  split
  · exact (discardArrival_wf ..).trans hs
  · dsimp only
    split
    next he => exact applyArrival_okWf _ _ hs _ he
    · exact ite_wf (fun _ => imageFails_wf _ _ ((discardArrival_wf ..).trans hs)) fun _ => (discardArrival_wf ..).trans hs

theorem arrivalTurn_mayWf {s : State} (core : Nat) (h : Memory.wf s = true) : MayWf id (s.arrivalTurn core) := by
  refine mayWf_bind fun n _ => mayWf_bind fun a _ => ?_
  dsimp only
  split
  · refine mayWf_bind fun w _ => ite_mayWf (fun _ => ?_) fun _ => ite_mayWf (fun _ => mayWf_none) fun _ => mayWf_some.2 h
    split
    next he =>
      have hs := fun h => applyArrival_okWf _ _ h _ he
      exact mayWf_some.2 (hs h)
    · exact mayWf_some.2 (imageFails_wf _ _ ((discardArrival_wf ..).trans h))
  · exact mayWf_some.2 (applyDirect_wf _ _ h)

/-! ## The save (R364, R368) -/

@[simp] theorem chargeOverrun_wf {s : State} (w : Workgroup) (late : Nat) (h : Memory.wf s = true) :
    Memory.wf (s.chargeOverrun w late) = true := by
  refine ite_wf (fun _ => h) fun _ => ?_
  dsimp only
  split
  · exact dieFatal_wf _ h
  next he =>
    have hs := coherentRead_okWf _ _ h _ he
    exact (ringQueue_wf ..).trans (orFatal_wf _ _ hs (coherentWrite_okWf _ _ _ hs))

@[simp] theorem takeBins_wf (s : State) (w : Workgroup) : Memory.wf (s.takeBins w) = Memory.wf s := rfl

@[simp] theorem beginSave_wf {s : State} (w : Workgroup) (entry : Nat) (h : Memory.wf s = true) : Memory.wf (s.beginSave w entry) = true := by
  have hs := chargeOverrun_wf w (s.overrun w) h
  unfold State.beginSave
  dsimp only
  generalize s.chargeOverrun w (s.overrun w) = t at hs ⊢
  refine ite_wf (fun _ => hs) fun _ => ?_
  split
  · exact imageFails_wf _ _ hs
  next he =>
    have hu := fun h => imageWrite_okWf _ _ _ h _ he
    exact hu hs

@[simp] theorem writeImage_wf {s : State} (w : Workgroup) (h : Memory.wf s = true) : Memory.wf (s.writeImage w) = true := by
  unfold State.writeImage
  split
  · exact imageFails_wf _ _ h
  · exact imageFails_wf _ _ h
  next he => exact (updWg_wf ..).trans (putImage_okWf _ h _ he)

@[simp] theorem endSave_wf {s : State} (w : Workgroup) (h : Memory.wf s = true) : Memory.wf (s.endSave w) = true := by
  unfold State.endSave
  dsimp only
  split
  · exact imageFails_wf _ _ h
  next he =>
    have hs := imageWrite_okWf _ _ _ h _ he
    rw [dropTables_wf, wf_update, updWg_wf, takeBins_wf, updCore_wf]
    exact hs

theorem saveTurn_mayWf {s : State} (wg : Nat) (h : Memory.wf s = true) : MayWf id (s.saveTurn wg) := by
  refine mayWf_bind fun w _ => ite_mayWf (fun _ => mayWf_none) fun _ => ?_
  split
  · refine ite_mayWf (fun _ => mayWf_none) fun _ => ite_mayWf (fun _ => mayWf_some.2 (drainUnit_wf _ h)) fun _ => mayWf_some.2 ?_
    split
    · exact drainUnit_wf _ h
    · exact beginSave_wf _ _ (drainUnit_wf _ h)
  · exact mayWf_some.2 (writeImage_wf _ h)
  · refine mayWf_some.2 ?_
    split
    · exact drainHold_wf _ h
    · exact ite_wf (fun _ => drainHold_wf _ h) fun _ => endSave_wf _ (drainHold_wf _ h)
  · exact mayWf_none

/-! ## Resuming (R369, R371) and the memory licence (R318) -/

theorem takeGroups_okWf {s : State} (w : Workgroup) (h : Memory.wf s = true) : OkWf id (s.takeGroups w) := by
  refine okWf_bind (st' := id) (okWf_foldE (fun s g hs => ?_) _ h) fun s hs => okWf_foldE (fun s e hs => ?_) _ hs
  · refine okWf_bind (st' := Prod.fst) (okWf_foldlM (fun a i ha => ?_) _ hs) fun b hb => ?_
    · exact okWf_bind (imageRead_okWf _ _ _ ha) fun _ hc => okWf_ok.2 hc
    have ht := foldl_wf (f := fun (s : State) (e : Nat × List Int) => s.updGroup g.ref fun g => g.updLane e.1 fun l => l.restored e.2)
      (fun _ _ hs => (updGroup_wf ..).trans hs) b.2 hb
    exact ite_okWf (fun _ => okWf_ok.2 ht) fun _ => okWf_bind (imageRead_okWf _ _ _ ht) fun _ hc => okWf_ok.2 ((updGroup_wf ..).trans hc)
  · exact okWf_bind (imageRead_okWf _ _ _ hs) fun _ hc => okWf_ok.2 ((updWg_wf ..).trans hc)

theorem takeFrames_okWf {s : State} (w : Workgroup) (g : Group) (h : Memory.wf s = true) : OkWf id (s.takeFrames w g) := by
  refine okWf_bind (st' := id) (ite_okWf (fun _ => okWf_ok.2 h) fun _ => okWf_foldE (fun s j hs => ?_) _ h) fun s hs => ?_
  · refine okWf_bind (imageRead_okWf _ _ _ hs) fun b hb => ?_
    dsimp only
    split
    next he => exact okWf_ok.2 (frameWrite_okWf _ _ _ _ hb _ he)
    · exact okWf_error
  · refine ite_okWf (fun _ => okWf_ok.2 hs) fun _ => ?_
    dsimp only
    split
    · exact okWf_error
    · exact okWf_ok.2 ((updGroup_wf ..).trans hs)

@[simp] theorem updThread_wf (s : State) (wg thread : Nat) (f : Lane → Lane) : Memory.wf (s.updThread wg thread f) = Memory.wf s := rfl

theorem takeImage_okWf {s : State} (w : Workgroup) (h : Memory.wf s = true) : OkWf id (s.takeImage w) := by
  refine okWf_bind (imageRead_okWf _ _ _ h) fun b hb => ?_
  have hs := foldl_wf (f := fun (s : State) (e : Nat × Tryte) => s.scrSet (coreIdx w.core) (w.gran * granule + e.1) e.2)
    (fun _ _ hs => scrSet_wf _ _ _ hs) ((List.range (trytesOfWords b.2).length).zip (trytesOfWords b.2)) hb
  refine okWf_bind (st' := id) (okWf_foldE (fun s i hs => ?_) _ ((wf_update ..).trans hs)) fun s hs => ?_
  · exact okWf_bind (imageRead_okWf _ _ _ hs) fun _ hc => okWf_ok.2 ((updUnit_wf ..).trans hc)
  refine okWf_bind (st' := id) (okWf_foldE (fun s i hs => ?_) _ hs) fun s hs => ?_
  · exact okWf_bind (imageRead_okWf _ _ _ hs) fun _ hc => okWf_ok.2 ((updWg_wf ..).trans ((updThread_wf ..).trans hc))
  exact okWf_bind (takeGroups_okWf w hs) fun s hs => okWf_foldE (fun _ _ hs => takeFrames_okWf _ _ hs) _ hs

@[simp] theorem finishRestore_wf {s : State} (w : Workgroup) (h : Memory.wf s = true) : Memory.wf (s.finishRestore w) = true := by
  unfold State.finishRestore
  dsimp only
  split
  · exact imageFails_wf _ _ h
  next he =>
    have hs := fun h => imageWrite_okWf _ _ _ h _ he
    exact (updDfq_wf ..).trans (hs h)

theorem resumeTurn_mayWf {s : State} (wg : Nat) (h : Memory.wf s = true) : MayWf id (s.resumeTurn wg) := by
  refine mayWf_bind fun w _ => ite_mayWf (fun _ => mayWf_none) fun _ => ite_mayWf (fun _ => ?_) fun _ =>
    ite_mayWf (fun _ => mayWf_some.2 ?_) fun _ => ?_
  · exact ite_mayWf (fun _ => mayWf_some.2 (beginRestore_wf _ h)) fun _ => mayWf_none
  · split
    · exact imageFails_wf _ _ h
    next he => exact (updWg_wf ..).trans (takeImage_okWf _ h _ he)
  · exact mayWf_bind fun w _ => ite_mayWf (fun _ => mayWf_some.2 (drainHold_wf _ h)) fun _ =>
      mayWf_some.2 (finishRestore_wf _ (drainHold_wf _ h))

theorem reviewLicence_mayWf {s : State} (core : Nat) (h : Memory.wf s = true) : MayWf id (s.reviewLicence core) :=
  ite_mayWf (fun _ => mayWf_none) fun _ => mayWf_some.2 h

theorem rotateLicence_mayWf {s : State} (core : Nat) (h : Memory.wf s = true) : MayWf id (s.rotateLicence core) :=
  ite_mayWf (fun _ => mayWf_none) fun _ => mayWf_some.2 h

end Sys2Proof.Machine
end

section
/-! The canonical form of memory through the turns of the host and of the package (27_host_and_package.md R435 to R444). -/

namespace Sys2Proof.Machine

/-! ## Time, links and the host's registers (R121, R427, R435 to R442) -/

@[simp] theorem progEventOf_wf (s : State) (core code : Nat) (ctxs : List Nat) : Memory.wf (s.progEventOf core code ctxs) = Memory.wf s := rfl

@[simp] theorem idleSlots_wf {s : State} (core : Nat) (h : Memory.wf s = true) : Memory.wf (s.idleSlots core) = true := by
  refine ite_wf (fun _ => h) fun _ => foldl_wf (fun s n hs => ite_wf (fun _ => hs) fun _ => ?_) _ h
  exact ite_wf (fun _ => (progEventOf_wf ..).trans ((flip_wf s).trans hs)) fun _ => (flip_wf s).trans hs

theorem tick_wf {s : State} (h : Memory.wf s = true) :
    Memory.wf ((s.cores.map (·.1)).foldl (fun s c => s.idleSlots c) { s with time := s.time + 1 }.lagClocks) = true :=
  foldl_wf (fun _ _ hs => idleSlots_wf _ hs) _ h

theorem startTransfer_mayWf {s : State} (link : Nat) (h : Memory.wf s = true) : MayWf id (s.startTransfer link) :=
  ite_mayWf (fun _ => mayWf_none) fun _ => mayWf_some.2 h

theorem requestQuote_mayWf {s : State} (h : Memory.wf s = true) : MayWf id s.requestQuote :=
  ite_mayWf (fun _ => mayWf_some.2 h) fun _ => mayWf_none

@[simp] theorem putRegister_wf {s : State} (off : Nat) (v : Int) (h : Memory.wf s = true) : Memory.wf (s.putRegister off v) = true :=
  ite_wf (fun _ => ite_wf (fun _ => getD_wf h (requestQuote_mayWf h)) fun _ => h) fun _ =>
    ite_wf (fun _ => ite_wf (fun _ => getD_wf h (startTransfer_mayWf _ h)) fun _ => h) fun _ =>
      ite_wf (fun _ => getD_wf h (consumerWrite_mayWf _ _ h)) fun _ => h

@[simp] theorem putMailWord_wf {s : State} (off : Nat) (v : Int) (h : Memory.wf s = true) : Memory.wf (s.putMailWord off v).1 = true :=
  ite_fst_wf (fun _ => h) fun _ => ite_fst_wf (fun _ => h) fun _ => ite_fst_wf (fun _ => h) fun _ =>
    ite_fst_wf (fun _ => getD_wf h (doorbell_mayWf _ _ _ h)) fun _ => h

@[simp] theorem overruns_wf {s : State} (es : List (Nat × Nat)) (h : Memory.wf s = true) : Memory.wf (s.overruns es) = true := by
  refine foldl_wf (fun s e hs => ?_) _ h
  split
  · exact boxRecord_wf _ _ _ hs
  · exact hs

theorem hostWrite_mayWf {s : State} (bar off : Nat) (bytes : List Byte) (h : Memory.wf s = true) : MayWf id (s.hostWrite bar off bytes) := by
  refine ite_mayWf (fun _ => ?_) fun _ => ite_mayWf (fun _ => mayWf_map fun es _ => overruns_wf _ ?_) fun _ => mayWf_none
  · dsimp only
    split
    · exact mayWf_some.2 (foldl_wf (fun _ _ hs => putRegister_wf _ _ hs) _ h)
    · exact ite_mayWf (fun _ => mayWf_some.2 h) fun _ => mayWf_none
  · refine foldl_fst_wf (fun a e ha => ?_) _ h
    exact putMailWord_wf _ _ ha

theorem quoteReady_mayWf {s : State} (body : List Byte) (h : Memory.wf s = true) : MayWf id (if s.attest = zeroW then none
    else some { s with attest := zeroW, quote := body ++ (List.range 32).map (Config.signature body)
                       sign := (List.range 32).map fun i => Config.signature body (32 + i) }) :=
  ite_mayWf (fun _ => mayWf_none) fun _ => mayWf_some.2 h

/-! ## Memory as the host and the XG links see it (R306, R435, R440) -/

@[simp] theorem settleSlot_wf {s : State} (die : Nat) (lp : Bool) (slot : Nat) (h : Memory.wf s = true) :
    Memory.wf (s.settleSlot die lp slot) = true :=
  foldl_wf (fun _ _ hs => getD_wf (drainWhere_wf _ hs) fun _ he => evictLine_wf he (drainWhere_wf _ hs)) _ h

@[simp] theorem slotBursts_wf {s : State} (die : Nat) (lp : Bool) (slots : List Nat) (write : Bool) (h : Memory.wf s = true) :
    Memory.wf (s.slotBursts die lp slots write) = true := foldl_wf (fun _ _ hs => (burst_wf ..).trans hs) _ h

@[simp] theorem hostBytes_wf {s : State} (die : Nat) (lp : Bool) (byte : Nat) (acc : HostAccess) (h : Memory.wf s = true) :
    Memory.wf (s.hostBytes die lp byte acc) = true := by
  have hs : ∀ slots : List Nat, Memory.wf (slots.foldl (fun s l => s.settleSlot die lp l) s) = true := fun slots =>
    foldl_wf (fun _ _ hs => settleSlot_wf _ _ _ hs) _ h
  refine ite_wf (fun _ => ?_) fun _ => ?_
  · cases acc with
    | read => exact h
    | write => exact h
  · cases acc with
    | read => exact (wf_update ..).trans (slotBursts_wf _ _ _ _ (hs _))
    | write => exact writeDram_wf _ _ _ _ (slotBursts_wf _ _ _ _ (hs _))

@[simp] theorem hostWindow_wf {s : State} (off : Nat) (acc : HostAccess) (h : Memory.wf s = true) : Memory.wf (s.hostWindow off acc) = true := by
  have hnone : Memory.wf (match acc with
      | .read _ => { s with hostReads := s.hostReads ++ [none] }
      | .write _ => s) = true := by
    cases acc with
    | read => exact h
    | write => exact h
  unfold State.hostWindow
  dsimp only
  split
  · exact hnone
  · exact ite_wf (fun _ => hnone) fun _ => hostBytes_wf _ _ _ _ h

@[simp] theorem sentBytes_wf {s : State} (off len : Int) (h : Memory.wf s = true) : Memory.wf (s.sentBytes off len).1 = true := by
  refine foldl_fst_wf (fun a l ha => ?_) _ h
  exact ite_fst_wf (fun _ => ha) fun _ => slotBursts_wf _ _ _ _ (settleSlot_wf _ _ _ ha)

theorem endTransfer_mayWf {s : State} (link : Nat) (h : Memory.wf s = true) : MayWf id (s.endTransfer link) := by
  refine mayWf_bind fun t _ => ite_mayWf (fun _ => mayWf_some.2 ?_) fun _ => mayWf_some.2 h
  have hs : ∀ src len, Memory.wf (State.sentBytes { s with transfers := s.transfers.filter fun y => y.link != link } src len).1 = true :=
    fun _ _ => sentBytes_wf _ _ h
  exact hs _ _

/-! ## Boot, reset and fatal errors (R441, R443, R444) -/

@[simp] theorem startSteward_wf {s : State} (die : Nat) (h : Memory.wf s = true) : Memory.wf (s.startSteward die) = true := by
  unfold State.startSteward
  split
  · exact h
  · exact (meetRegion_wf ..).trans ((wf_update ..).trans (placeOne_wf _ _ _ _ _ _ h))

@[simp] theorem bootDie_wf {s : State} (die : Nat) (h : Memory.wf s = true) : Memory.wf (s.bootDie die) = true := by
  refine ite_wf (fun _ => h) fun _ => ?_
  obtain ⟨hdram, hscr, hchip⟩ := (Memory.wf_iff s).1 h
  have hload : ∀ (t : State) (bytes : List (Nat × Byte)), Memory.wf t = true →
      Memory.wf (bytes.foldl (fun s e => s.writeDram die false (e.1 % (160 * tierLines false)) [e.2]) t) = true :=
    fun t bytes ht => foldl_wf (fun _ _ hs => writeDram_wf _ _ _ _ hs) _ ht
  have hclear : Memory.wf { s with scr := SMap.clear s.scr (die * 243 * scrSize) ((die + 1) * 243 * scrSize),
                                   chip := SMap.clear s.chip (die * chipSize) ((die + 1) * chipSize) } = true :=
    (Memory.wf_iff _).2 ⟨hdram, SMap.clear_wf _ _ _ hscr, SMap.clear_wf _ _ _ hchip⟩
  dsimp only
  split
  next he => exact startSteward_wf _ (structWrite_wf he (hload _ _ hclear))
  · exact dieFatal_wf _ (hload _ _ hclear)

theorem boot_wf {s : State} (h : Memory.wf s = true) :
    Memory.wf ((List.range 4).foldl (fun s die => if s.dieStatus.getD die 0 = 1 then s.bootDie die else s) s) = true :=
  foldl_wf (fun _ _ hs => ite_wf (fun _ => bootDie_wf _ hs) fun _ => hs) _ h

theorem dieLost_mayWf {s : State} (die : Nat) (h : Memory.wf s = true) : MayWf id (if die < 4 then some (s.dieFatal die) else none) :=
  ite_mayWf (fun _ => mayWf_some.2 (dieFatal_wf _ h)) fun _ => mayWf_none

end Sys2Proof.Machine
end

section
/-! The canonical form of memory is kept by every step (Obligations.EveryStepKeepsMemoryForm). -/

namespace Sys2Proof.Machine

/-! ## Every word -/

theorem cvtw_wf {x : Issue} (a : CvtwArgs) (c : Nat → Nat) (hx : x.Wf) : (match a.kind with
    | .widen => x.putAll .w a.d fun l _ => plain (tryteOf (x.reg a.a l).val (c l))
    | .wrap => x.putTryteAll a.d c fun l => plain (wrapInt 9 (x.reg a.a l).val)
    | .sat => x.putTryteAll a.d c fun l => satInt 9 (x.reg a.a l).val).Wf := by
  cases a.kind with
  | widen => exact hx.after
  | wrap => exact hx.after
  | sat => exact hx.after

theorem putS_wf {x : Issue} (n : Nat) (byWord : Bool) (v : Word) (hx : x.Wf) : (x.putS n byWord v).Wf := by
  unfold Issue.putS
  split
  · exact hx.after
  · exact (updGroup_wf ..).trans hx.after

/-- A word that is issued goes on only to states whose memory has its form. -/
theorem exec_word_wf {s : State} {i : Instr} (hi : i.isEvent = false) (h : Memory.wf s = true) : OutWf (exec i s) := by
  cases i
  case lit | mov | lea | add | sub | adds | subs | neg | abs | sgn | mul | mulh | mad | divn | divz | divf | remn | remz | remf | min
      | max | clamp | tmin | tmax | tsum3 | tprd | tcns | shl | shr | rot | ext | ins | cnt | lead | cmp | tst | sel3 | pset | pack3 | unpk3
      | splat | fadd | fsub | fmul | fma | fmin | fmax | fabs | fneg | fcmp | fcls | fscl | fexn | ftrn | fflr | fcel | ftoi | itof
      | fdot | endrun | yield | reform | nop | shfl | shfld | shflt | bcst | vote | redu | scan | rng | sreadPredicate | swrite
      | swritePredicate => exact runWord_wf h fun _ hx => hx.after
  case movi => exact runWord_wf h fun _ hx => putS_wf _ _ _ hx
  case cvtw a => exact runWord_wf h fun x hx => cvtw_wf a _ hx
  case fcvt => exact runWord_wf h fun _ hx => ite_effWf (fun _ => hx.after) fun _ => ite_effWf (fun _ => hx.after) fun _ => hx.after
  case bcvt => exact runWord_wf h fun _ hx => ite_effWf (fun _ => hx.after) fun _ => hx.after
  case tidx | tjoin => exact runWord_wf h fun _ hx => shapes_wf _ hx
  case fdiv | fsqt | frcp | frsq | fex3 | flg3 | fexe | flge | fsin | fcos | ftnh => exact runWord_wf h fun _ hx => longFloat_wf _ _ hx
  case br | brp | call | ret | jmpi | loop => exact runWord_wf h fun x hx => jump_wf x _ _ _ hx.after
  case b3 => exact runWord_wf h fun x hx => transfer_wf x _ _ hx.after
  case calli => exact runWord_wf h fun _ hx => calli_wf _ hx
  case exit => exact execExit_wf _ h
  case xperm => exact execXperm_wf _ h
  case sread => exact runWord_wf h fun _ hx => mayFlags_wf hx
  case ld | ldStrong | ldu => exact runWord_wf h fun _ hx => load_wf _ _ _ _ _ hx
  case st | stStrong | stu => exact runWord_wf h fun _ hx => store_wf _ _ _ _ _ hx
  case atom | atomr | cas => exact runWord_wf h fun _ hx => atomic_wf _ _ hx
  case fence => exact execFence_wf _ h
  case waitm => exact runWord_wf h fun _ hx => waitm_wf _ hx
  case cwb => exact execCwb_wf _ h
  case cwbAll => exact runWord_wf h fun _ hx => cleanL1_wf _ hx.after
  case cinv => exact execCinv_wf _ h
  case cinvAll => exact runWord_wf h fun _ hx => flushL1_wf _ hx.after
  case pref => exact execPref_wf _ h
  case prefLlc => exact execPrefLlc_wf _ h
  case mload | mloadp => exact runTableWord_wf h fun r _ hx => matLoad_wf _ _ _ r hx
  case mact => exact execMact_wf _ h
  case mpass => exact execMpass_wf _ h
  case mzero => exact runWord_wf h fun x hx => queueWord_wf x _ hx.after
  case mrd => exact execMrd_wf _ h
  case mwr => exact execMwr_wf _ h
  case mstoreKeep | mstoreZero => exact runTableWord_wf h fun r _ hx => matStore_wf _ _ r hx
  case mstat => exact execMstat_wf _ h
  case cpy => exact runWord_wf h fun _ hx => copyWord_wf _ fun _ => joinCollective_wf _ hx
  case cpys | cpyf | cpyl | cpylFlush => exact runWord_wf h fun _ hx => copyWord_wf _ fun _ => single_wf _ _ hx
  case spawn | spawnCoresident => exact runWord_wf h fun _ hx => spawn_wf _ hx
  case bari => exact execBari_wf _ h
  case bar => exact execBar_wf _ h
  case bara => exact execBara_wf _ h
  case barw => exact execBarw_wf _ h
  case mbrx => exact execMbrx_wf _ h
  case mbtxReply => exact execMbtxReply_wf _ h
  case mbtxBind => exact execMbtxBind_wf _ h
  case mbtxUnbind => exact execMbtxUnbind_wf _ h
  case evpost => exact execEvpost_wf _ h
  case rwalk => exact execRwalk_wf _ h
  case rstat => exact execRstat_wf _ h
  case trap => exact execTrap_wf _ h
  case resume => exact execResume_wf h
  case rqrd => exact execRqrd_wf _ h
  case rqwr => exact execRqwr_wf _ h
  case rqdrop => exact execRqdrop_wf _ h
  case dfpopRead | dfpopRetry | dfpopSkip => exact runWord_wf h fun _ hx => dfpop_wf _ _ _ hx
  case halt => exact runWord_wf h fun _ hx => hx.before
  case preempt => exact execPreempt_wf _ h
  case ctxsv => exact execCtxsv_wf _ h
  case ctxld => exact execCtxld_wf _ h
  case divsetQuery => exact execDivsetQuery_wf _ h
  case divsetRelease => exact execDivsetRelease_wf _ h
  case fmtset | shpset | xpset => exact runWord_wf h fun _ hx => tableWrite_wf _ _ hx
  case ratset => exact execRatset_wf _ h
  case winset => exact execWinset_wf _ h
  case tlbinv => exact execTlbinv_wf _ _ h
  case tlbinvCtx => exact execTlbinvCtx_wf _ h
  case tlbfl => exact execTlbfl_wf h
  case icinv => exact execIcinv_wf _ h
  case icinvAll => exact execIcinvAll_wf h
  case cntrd => exact execCntrd_wf _ h
  case cntclr => exact execCntclr_wf _ h
  case cntsel => exact execCntsel_wf _ h
  all_goals cases hi

/-! ## Every event -/

theorem l1Eviction_mayWf {s : State} (core ctx : Nat) (line : Int) (h : Memory.wf s = true) :
    MayWf id ((s.l1Index core ctx line).map fun i => s.evictL1 core i) := mayWf_map fun _ _ => evictL1_wf _ _ h

theorem ringTime_mayWf {s : State} (ctx : Nat) (h : Memory.wf s = true) :
    MayWf id ((s.rings.find? fun r => r.ctx.num == ctx).map fun r => s.ringSignal r.ctx.homeDie r.ctx) :=
  mayWf_map fun _ _ => ringSignal_wf _ _ h

theorem execXgRetry_wf {s : State} (link : Nat) (h : Memory.wf s = true) : OutWf (execXgRetry link s) := by
  refine runEvent_wf h fun _ ht => ?_
  exact ite_mayWf (fun _ => mayWf_some.2 ht) fun _ => mayWf_none

theorem execUcieFlitRetry_wf {s : State} (die peer : Nat) (h : Memory.wf s = true) : OutWf (execUcieFlitRetry die peer s) := by
  refine runEvent_wf h fun _ ht => ?_
  exact ite_mayWf (fun _ => mayWf_some.2 ht) fun _ => mayWf_none

theorem execClockThrottle_wf {s : State} (island ninths : Nat) (h : Memory.wf s = true) : OutWf (execClockThrottle island ninths s) := by
  refine runEvent_wf h fun _ ht => ?_
  exact ite_mayWf (fun _ => mayWf_some.2 ht) fun _ => mayWf_none

theorem execDeviceReset_wf {s : State} (h : Memory.wf s = true) : OutWf (execDeviceReset s) :=
  runEvent_wf h fun _ _ _ he => Option.some.inj he ▸ Memory.wf_reset

/-- An event that the machine's schedule brings goes on only to states whose memory has its form. -/
theorem exec_event_wf {s : State} {i : Instr} (hi : i.isEvent = true) (h : Memory.wf s = true) : OutWf (exec i s) := by
  cases i
  case runStart => exact runEvent_wf h fun _ ht => runStart_mayWf _ ht
  case stalledWordIssue => exact runEvent_wf h fun _ ht => stalledWord_mayWf _ ht
  case heldWordCompletion => exact runEvent_wf h fun _ ht => heldWord_mayWf _ ht
  case memoryReadComplete => exact runEvent_wf h fun _ ht => readDone_mayWf _ _ ht
  case memoryWriteComplete => exact runEvent_wf h fun _ ht => writeDone_mayWf _ _ ht
  case longFloatComplete => exact runEvent_wf h fun _ ht => floatDone_mayWf _ _ ht
  case matrixReadComplete => exact runEvent_wf h fun _ ht => matrixRead_mayWf _ _ ht
  case mstatComplete => exact runEvent_wf h fun _ ht => mstatDone_mayWf _ _ ht
  case engineIssueComplete => exact runEvent_wf h fun _ ht => engineDone_mayWf _ _ ht
  case reformFiling => exact runEvent_wf h fun _ ht => reformFile_mayWf _ ht
  case binAgeLimit => exact runEvent_wf h fun _ ht => binAged_mayWf _ _ ht
  case monitorRecheck => exact runEvent_wf h fun _ ht => recheck_mayWf _ ht
  case waitmTimeout | haltWake => exact runEvent_wf h fun _ ht => waitOver_mayWf _ _ ht
  case pageWalk => exact runEvent_wf h fun _ ht => pageWalk_mayWf _ _ ht
  case lineFill | codedBlockFill => exact runEvent_wf h fun _ ht => fillFor_mayWf _ _ _ ht
  case l1Eviction => exact runEvent_wf h fun _ ht => l1Eviction_mayWf _ _ _ ht
  case llcEviction => exact runEvent_wf h fun _ ht _ he => evictLine_wf he ht
  case lastLevelCopyUpdate => exact runEvent_wf h fun _ ht => updateArrives_mayWf _ ht
  case windowStoreRefusal => exact runEvent_wf h fun _ ht => refusalRecord_mayWf _ ht
  case impreciseFaultRecord => exact runEvent_wf h fun _ ht => lateRecord_mayWf _ ht
  case softError => exact runEvent_wf h fun _ ht => strike_mayWf _ ht
  case matrixTurnGrant => exact runEvent_wf h fun _ ht => matrixTurn_mayWf _ _ ht
  case consumedEvent => exact runEvent_wf h fun _ ht => consumedAt_mayWf _ _ ht
  case matrixLoadComplete => exact runEvent_wf h fun _ ht => loadComplete_mayWf _ ht
  case matrixPassComplete => exact runEvent_wf h fun _ ht => passComplete_mayWf _ ht
  case mstoreComplete => exact runEvent_wf h fun _ ht => storeComplete_mayWf _ _ ht
  case copyStart => exact runEvent_wf h fun _ ht => copyStart_mayWf _ ht
  case copySliceFault => exact runEvent_wf h fun _ ht => sliceFault_mayWf _ _ ht
  case copySliceSteal => exact runEvent_wf h fun _ ht => steal_mayWf _ _ _ ht
  case copyComplete => exact runEvent_wf h fun _ ht => copyStep_mayWf _ ht
  case placement => exact runEvent_wf h fun _ ht => placement_mayWf _ _ ht
  case spawnSteal => exact runEvent_wf h fun _ ht => ite_mayWf (fun _ => stealBatch_mayWf _ _ ht) fun _ => mayWf_none
  case workgroupGone => exact runEvent_wf h fun _ ht => workgroupGone_mayWf _ ht
  case walkerNodeStart => exact runEvent_wf h fun _ ht => startWalker_mayWf _ ht
  case kernelNodeEnqueue => exact runEvent_wf h fun _ ht => enqueueNode_mayWf _ ht
  case loopIteration => exact runEvent_wf h fun _ ht => loopTurn_mayWf _ ht
  case waitNodeRead => exact runEvent_wf h fun _ ht => waitTurn_mayWf _ ht
  case nodeCompletion => exact runEvent_wf h fun _ ht => nodeTurn_mayWf _ ht
  case eventRingPost | ringPostRetry => exact runEvent_wf h fun _ ht => postNext_mayWf _ ht
  case ringTimeThreshold => exact runEvent_wf h fun _ ht => ringTime_mayWf _ ht
  case consumerIndexWrite => exact runEvent_wf h fun _ ht => consumerWrite_mayWf _ _ ht
  case mailboxDoorbellWrite => exact runEvent_wf h fun _ ht => doorbell_mayWf _ _ _ ht
  case replyAreaFree => exact runEvent_wf h fun _ ht => ite_mayWf (fun _ => mayWf_none) fun _ => mayWf_some.2 ((setBox_wf ..).trans ht)
  case hostRegisterWrite => exact runEvent_wf h fun _ ht => hostWrite_mayWf _ _ _ ht
  case attestationRequest => exact runEvent_wf h fun _ ht => requestQuote_mayWf ht
  case quoteReady => exact runEvent_wf h fun _ ht => quoteReady_mayWf _ ht
  case hostBinaryWindowAccess => exact runEvent_wf h fun _ ht => mayWf_some.2 (hostWindow_wf _ _ ht)
  case hostRawPackedAccess => exact runEvent_wf h fun _ ht => mayWf_some.2 (hostBytes_wf _ _ _ _ ht)
  case xgLinkTransfer => exact runEvent_wf h fun _ ht => startTransfer_mayWf _ ht
  case xgTransferComplete => exact runEvent_wf h fun _ ht => endTransfer_mayWf _ ht
  case xgRetry => exact execXgRetry_wf _ h
  case ucieFlitRetry => exact execUcieFlitRetry_wf _ _ h
  case clockThrottle => exact execClockThrottle_wf _ _ h
  case preemptMarkArrival => exact runEvent_wf h fun _ ht => markTurn_mayWf _ ht
  case preemptDeadline => exact runEvent_wf h fun _ ht => deadline_mayWf _ ht
  case workgroupSave => exact runEvent_wf h fun _ ht => saveTurn_mayWf _ ht
  case preemptMarkRemoval => exact runEvent_wf h fun _ ht => markRemoval_mayWf _ ht
  case workgroupResume => exact runEvent_wf h fun _ ht => resumeTurn_mayWf _ ht
  case divertedArrival => exact runEvent_wf h fun _ ht => arrivalTurn_mayWf _ ht
  case licenceReview => exact runEvent_wf h fun _ ht => reviewLicence_mayWf _ ht
  case licenceRotation => exact runEvent_wf h fun _ ht => rotateLicence_mayWf _ ht
  case timeCountTick => exact runEvent_wf h fun _ ht => mayWf_some.2 (tick_wf ht)
  case powerOnBoot => exact runEvent_wf h fun _ ht => mayWf_some.2 (boot_wf ht)
  case deviceReset => exact execDeviceReset_wf h
  case dieFatalError | temperatureTrip => exact runEvent_wf h fun _ ht => dieLost_mayWf _ ht
  all_goals cases hi

/-! ## Every step -/

theorem exec_wf {s : State} (i : Instr) (h : Memory.wf s = true) : OutWf (exec i s) := by
  cases hi : i.isEvent with
  | false => exact exec_word_wf hi h
  | true => exact exec_event_wf hi h

theorem takeTurn_wf {s : State} (t : Turn) (h : Memory.wf s = true) : OutWf (takeTurn t s) := by
  cases t with
  | word sl =>
    unfold takeTurn
    dsimp only
    split
    · exact outWf_next.2 h
    next w g _ =>
      have hn := nextWord_wf (s := { s with cur := sl }) w g h
      split
      next he =>
        rw [he] at hn
        exact exec_wf _ hn
      next he =>
        rw [he] at hn
        exact outWf_next.2 hn
  | event i =>
    unfold takeTurn
    dsimp only
    split
    · exact exec_wf i h
    · exact outWf_next.2 h
  | slice c n => exact outWf_next.2 (sliceTurn_wf c n h)

theorem settled_wf {o : Host.Outcome State Fault Refusal} (h : OutWf o) : OutWf (settled o) := by
  unfold settled
  split
  · exact outWf_next.2 (settle_wf (outWf_next.1 h))
  · exact h

theorem step_wf {s : State} (h : Memory.wf s = true) : OutWf (step s) := by
  have hn := nextTurn_wf h
  unfold step
  split
  next he =>
    rw [he] at hn
    exact settled_wf (takeTurn_wf _ hn)
  next he =>
    rw [he] at hn
    exact outWf_next.2 hn

/-- Settles O60: every operation of a step, down to the writes of the scratchpads, of the on-chip memory and of the packed tiers,
keeps each of the three stores in its form. -/
theorem everyStepKeepsMemoryForm : Obligations.EveryStepKeepsMemoryForm := by
  unfold Obligations.EveryStepKeepsMemoryForm
  intro s t h he
  exact step_wf h t he

end Sys2Proof.Machine
end

section
/-! Loads of trytes that begin below the run (10_memories.md R218, 12_memory_instructions.md R271, R272, R275): of a base at -1 with only
tryte 1 active, the one element lies at 0. -/

namespace Sys2Proof.Machine

/-- The load of trytes from g4, under k1. -/
def tryteLoad : MemArgs := ⟨.scr, .t, .weak (Trits.ofInt 4 0), 6, 4, .pos 1, 1⟩

/-- A group of one lane, with tryte 1 of k1 at + and its others at 0, and with -1 in g4. -/
def fromMinusOne : Group :=
  { loadGroup 0 0 0 with
    lanes := [(({ Lane.absent with st := .ready } : Lane).wrK 1 (Trits.ofInt 3 3)).wrG 4 (Word.ofInt (-1))] }

/-- A machine with that group alone, and 5 in the first tryte of its scratchpad. -/
def fiveAtZero : State :=
  { State.reset.scrSet 0 0 (Tryte.ofInt 5) with wgs := [loadWorkgroup 0 ⟨0, 0, 0⟩], groups := [fromMinusOne], dieStatus := [0, 0, 0, 0] }

/-- The result of the first lane of the first word that a group has pending. -/
def firstResult (s : State) : Option Int :=
  (s.groups.head?.bind fun g => g.pend.head?.bind fun p => p.lanes.head?).map (·.r0.val)

/-- R272: element 1 of a load from -1 lies at 0, so that tryte 1 of the result is the 5 there. -/
theorem fiveAtZero_loads :
    (match exec (.ld tryteLoad) fiveAtZero with
      | .next t => firstResult t
      | _ => none) = some (19683 * 5) := by decide +kernel

theorem fiveAtZero_issues : Issues fiveAtZero (loadWorkgroup 0 ⟨0, 0, 0⟩) fromMinusOne (.ld tryteLoad) := by decide +kernel

/-- What the statement's premises ask of the machine itself. -/
theorem fiveAtZero_premises :
    (∀ h ∈ fiveAtZero.groups, h.ref = fromMinusOne.ref → h.pend = []) ∧ fiveAtZero.bad.scr = [] ∧
      (loadWorkgroup 0 ⟨0, 0, 0⟩).grans ≤ 243 ∧ (loadWorkgroup 0 ⟨0, 0, 0⟩).kernel.priv ≤ 531441 := by decide +kernel

/-- Refutes O23: the clause on LD takes tryte j of a result from the place of the base, cut off at 0, and j on, where R272 (and the
statement's own clauses on the places and on ST) add j to the address first. The two differ where the base lies below the run and
only later trytes are active: in fiveAtZero the load of tryte 1 from -1 reads the tryte at 0 (fiveAtZero_loads), not that at 1. -/
theorem not_scratchpadAccesses : ¬ Obligations.ScratchpadAccesses := by
  unfold Obligations.ScratchpadAccesses
  intro h
  obtain ⟨hpend, hbad, hgrans, hpriv⟩ := fiveAtZero_premises
  obtain ⟨hload, -⟩ := h fiveAtZero (loadWorkgroup 0 ⟨0, 0, 0⟩) fromMinusOne tryteLoad _ rfl hpend (.inl rfl) hbad hgrans hpriv
  have hleaves := hload fiveAtZero_issues (by decide +kernel) (by decide +kernel) (by decide +kernel) (by decide +kernel)
  have hloads := fiveAtZero_loads
  rw [hleaves] at hloads
  exact absurd hloads (by decide +kernel)

end Sys2Proof.Machine
end

section
/-! Fences and waits for a monitor (12_memory_instructions.md R281, R282; 11_memory_model.md R248 to R255). -/

namespace Sys2Proof.Machine

/-! ## Releases and acquires of a core (R248 to R255) -/

/-- R250, Table 2: a release within the core leaves every cache as it was. -/
theorem releaseAt_withinCore (s : State) (w : Workgroup) (sc : Scope) (hcore : Scope.beyondCore sc = false)
    (hdie : scopeDies w.region.ctx (coreDie (coreIdx w.core)) sc = [coreDie (coreIdx w.core)]) : s.releaseAt w sc = s := by
  simp [State.releaseAt, State.releaseCore, hcore, hdie]

/-- R250, Table 2: a release within the die writes the L1 back. -/
theorem releaseAt_withinDie (s : State) (w : Workgroup) (sc : Scope) (hcore : Scope.beyondCore sc = true)
    (hdie : scopeDies w.region.ctx (coreDie (coreIdx w.core)) sc = [coreDie (coreIdx w.core)]) :
    s.releaseAt w sc = s.cleanL1 (coreIdx w.core) := by
  simp [State.releaseAt, State.releaseCore, hcore, hdie, State.cleanL1]

/-- R251, Table 2: a wider release also brings the copies of the other dies up to date. -/
theorem releaseAt_dies (s : State) (w : Workgroup) (sc : Scope) (hcore : Scope.beyondCore sc = true) {dies : List Nat}
    (hdies : scopeDies w.region.ctx (coreDie (coreIdx w.core)) sc = dies) :
    s.releaseAt w sc =
      if 1 < dies.length then (s.cleanL1 (coreIdx w.core)).drainFor (coreDie (coreIdx w.core)) dies allLines
      else s.cleanL1 (coreIdx w.core) := by
  simp [State.releaseAt, State.releaseCore, hcore, hdies, State.cleanL1]

/-! ## What a word waits on (R282, R342, R376) -/

/-- R376: the address and the token of a word that waits: those that its replay entry captured, or those read now. -/
def Issue.awaited (x : Issue) (sa sb : Nat) : PendLane :=
  (x.captured x.low).getD { PendLane.new x.low kAll with addr := (x.g.rdS sa).val, d0 := x.g.rdS sb }

/-- A group that waits for a monitor to leave a token. -/
def Issue.waits (x : Issue) (t : State) (addr token : Int) (last : Word) (deadline : Option Nat) : State :=
  t.updGroup x.r fun h => { h with
    phase := .waiting { instr := x.i, pc := x.pc, payload := x.pay, addr := addr, token := token, last := last,
                        deadline := deadline, fault := none } }

section
variable {x : Issue} {a : WaitmArgs} {p : PendLane} {t : State} {v : Int} {c : Nat} (hp : x.awaited a.sa a.sd = p)
include hp

/-- R282: the monitor holds another value, and the run goes on. -/
theorem waitm_differs (hread : x.s0.monitorRead x.w x.r a.space (x.g.lane x.low).thread p.addr = .ok (t, some v))
    (hv : v ≠ p.d0.val) : x.waitm a = .done ((x.next t).updGroup x.r fun h => h.wrS a.sd.val (Word.ofInt v)) := by
  simp only [Issue.awaited] at hp
  simp [Issue.waitm, hp, hread, hv]

/-- R282: the monitor holds the value expected, and the group waits. -/
theorem waitm_equals (hread : x.s0.monitorRead x.w x.r a.space (x.g.lane x.low).thread p.addr = .ok (t, some v))
    (hv : v = p.d0.val) :
    x.waitm a = .done (x.waits t p.addr p.d0.val (Word.ofInt v) (t.deadlineIn x.w (x.imm a.timeout))) := by
  simp only [Issue.awaited] at hp
  simp [Issue.waitm, hp, hread, hv, Issue.waits]

theorem waitm_stalls (hread : x.s0.monitorRead x.w x.r a.space (x.g.lane x.low).thread p.addr = .ok (t, none)) :
    x.waitm a = .stall := by
  simp only [Issue.awaited] at hp
  simp [Issue.waitm, hp, hread]

theorem waitm_fails (hread : x.s0.monitorRead x.w x.r a.space (x.g.lane x.low).thread p.addr = .error c) :
    x.waitm a = .trapIn (if a.space = .virt then x.s0.refusedAccess x.w.who 3 p.addr else x.s0)
      { cause := c, lanes := [(x.low, c)], cap := [p], addr := p.addr, issued := true } := by
  simp only [Issue.awaited] at hp
  simp [Issue.waitm, hp, hread]

end

/-- Settles O28: a fence holds or is a release and an acquire of its core (releaseAt_withinCore, releaseAt_withinDie, releaseAt_dies),
and WAITM is one branch on the read of its monitor (waitm_differs to waitm_fails). -/
theorem fencesAndMonitorWaits : Obligations.FencesAndMonitorWaits := by
  unfold Obligations.FencesAndMonitorWaits
  intro s w g
  refine ⟨fun a hi => ?fence, fun a hi => ?waitm⟩
  case fence =>
    intro x wide core release acquire
    have hrelease : ∀ t, release t = t.releaseAt w a.scope := fun t => by
      obtain ⟨kind, scope⟩ := a
      cases scope with
      | thread | group | wgrp => exact (releaseAt_withinCore t w _ rfl rfl).symm
      | cluster | die => exact (releaseAt_withinDie t w _ rfl rfl).symm
      | pkg => exact (releaseAt_dies t w .pkg rfl rfl).symm
      | sys => exact (releaseAt_dies t w .sys rfl rfl).symm
      | pair =>
        by_cases hmode : w.region.ctx.mode = 4
        · rw [releaseAt_withinDie t w .pair rfl (if_pos hmode)]
          simp [release, wide, hmode, core]
        · rw [releaseAt_dies t w .pair rfl (if_neg hmode)]
          simp [release, wide, hmode, core]
    have hacquire : ∀ t, acquire t = t.acquireAt w a.scope := fun t => by
      obtain ⟨kind, scope⟩ := a
      cases scope <;> rfl
    refine ⟨fun h => runWord_hold hi (if_pos ?_), fun hpend hstores => ?_⟩
    · simpa using h
    · refine runWord_done hi ((if_neg ?_).trans ?_)
      · rw [hpend, hstores]
        decide
      · simp only [hrelease, hacquire]
        cases a.kind <;> rfl
  case waitm =>
    intro x l cap addr old read
    have hcap : x.awaited a.sa a.sd = cap := rfl
    exact ⟨fun t v hread hv => runWord_done hi (waitm_differs hcap hread hv),
      fun t v hread hv => runWord_done hi (waitm_equals hcap hread hv),
      fun t hread => runWord_stall hi (waitm_stalls hcap hread),
      fun c hread => runWord_trapIn hi (waitm_fails hcap hread)⟩

end Sys2Proof.Machine
end

section
/-! Barrier objects (15_async_instructions.md R339, R340, R343). -/

namespace Sys2Proof.Machine

/-- What R340 asks of an object that an arrival is to be counted at: not broken, its reserved fields 0, its counts in range. -/
def SoundBarrier (e left w2 r5 r6 r7 r8 : Int) : Prop :=
  tritAt w2 26 = 0 ∧ 1 ≤ e ∧ e ≤ 797161 ∧ 1 ≤ left ∧ left ≤ e ∧ r5 = 0 ∧ r6 = 0 ∧ r7 = 0 ∧ r8 = 0

/-- R340: the phase of a sound object is its word 2 whole. -/
theorem fld_phase {w2 : Int} (hw : w2.natAbs ≤ maxMag 27) (hsound : tritAt w2 26 = 0) : fld w2 0 25 = w2 := by
  have hhigh : dropInt 26 w2 = 0 := by
    have hrange : (dropInt 26 w2).natAbs ≤ maxMag 1 := natAbs_dropInt_le (n := 1) hw
    rwa [tritAt, wrapInt_of_natAbs_le hrange] at hsound
  have hlow := wrapInt_add_dropInt 26 w2
  rw [hhigh, zero_mul, add_zero] at hlow
  rw [fld, dropInt_zero, hlow]

section
variable {e left w2 a n r5 r6 r7 r8 : Int}

/-- The check that refuses an arrival (barrierStep) is that of R340. -/
theorem refused_iff_not_sound :
    (tritAt w2 26 ≠ 0 ∨ e < 1 ∨ e > 797161 ∨ left < 1 ∨ left > e ∨
      (List.range 4).any (fun i => wordAt [e, left, w2, a, n, r5, r6, r7, r8] (5 + i) != 0) = true) ↔
      ¬SoundBarrier e left w2 r5 r6 r7 r8 := by
  have hreserved : (List.range 4).any (fun i => wordAt [e, left, w2, a, n, r5, r6, r7, r8] (5 + i) != 0) = true ↔
      ¬(r5 = 0 ∧ r6 = 0 ∧ r7 = 0 ∧ r8 = 0) := by
    simp [List.range_succ, wordAt, -not_and, not_and_or]
  rw [hreserved, SoundBarrier]
  omega

theorem barrierStep_refused (h : ¬SoundBarrier e left w2 r5 r6 r7 r8) :
    barrierStep [e, left, w2, a, n, r5, r6, r7, r8] = none := if_pos (refused_iff_not_sound.2 h)

/-- R340: an arrival at a sound object is counted; the last of a phase begins the next. -/
theorem barrierStep_sound (hw : w2.natAbs ≤ maxMag 27) (h : SoundBarrier e left w2 r5 r6 r7 r8) :
    barrierStep [e, left, w2, a, n, r5, r6, r7, r8] =
      some (if left = 1 then ([e, e, wrapInt 26 (w2 + 1), a, n, 0, 0, 0, 0], w2)
        else ([e, left - 1, w2, a, n, 0, 0, 0, 0], w2)) := by
  refine (if_neg fun hr => refused_iff_not_sound.1 hr h).trans ?_
  obtain ⟨hwhole, -, -, -, -, rfl, rfl, rfl, rfl⟩ := h
  simp only [wordAt, List.getD_cons_zero, List.getD_cons_succ, fld_phase hw hwhole]
  rfl

end

end Sys2Proof.Machine
end

section
/-! Barrier words as they issue (15_async_instructions.md R339 to R344; 10_memories.md R261). -/

namespace Sys2Proof.Machine

section
variable {x : Issue} {sp : Space} {addr : Int} {go : State → NamedBuf → Int → Eff} {t u v : State} {ps : List Place} {ts : List Tryte}
  {c : Nat} {ph : Int}

/-! ## Arrivals (R340, R343) -/

theorem arrival_noObject (ho : x.object sp .atomic addr = .error c) : x.arrival sp addr go = .trap { cause := c } := by
  simp [Issue.arrival, ho]

section
variable (ho : x.object sp .atomic addr = .ok (t, ps))
include ho

/-- R261: an arrival waits for the accesses that its release is to come after, and for the diversion unit of its object. -/
theorem arrival_holds (hw : t.waitsAt ps = true ∨ x.releaseWaits = true) : x.arrival sp addr go = .hold x.s0 := by
  simp [Issue.arrival, ho, hw]

variable (hat : t.waitsAt ps = false) (hearlier : x.releaseWaits = false)
include hat hearlier

theorem arrival_unread (hread : t.atomRead x.w.who ps = .error c) : x.arrival sp addr go = .trap { cause := c } := by
  simp [Issue.arrival, ho, hat, hearlier, hread]

variable (hread : t.atomRead x.w.who ps = .ok (u, ts))
include hread

theorem arrival_fails (hmet : (u.releaseBuf x.w x.r (namedBuf sp (wordsOfTrytes ts))).arriveAt x.w.who ps = .error c) :
    x.arrival sp addr go = .trap { cause := c } := by
  simp [Issue.arrival, ho, hat, hearlier, hread, hmet]

theorem arrival_refused
    (hmet : (u.releaseBuf x.w x.r (namedBuf sp (wordsOfTrytes ts))).arriveAt x.w.who ps = .ok (v, none)) :
    x.arrival sp addr go = .trap { cause := 20 } := by
  simp [Issue.arrival, ho, hat, hearlier, hread, hmet]

theorem arrival_counts
    (hmet : (u.releaseBuf x.w x.r (namedBuf sp (wordsOfTrytes ts))).arriveAt x.w.who ps = .ok (v, some ph)) :
    x.arrival sp addr go = go (v.useBarrier x.w sp addr) (namedBuf sp (wordsOfTrytes ts)) ph := by
  simp [Issue.arrival, ho, hat, hearlier, hread, hmet]

end

/-! ## The wait for a phase (R342) -/

variable {token w2 : Int} {fault : Nat → Eff}

theorem awaitPhase_fails (hread : t.monitorRead x.w x.r sp (x.g.lane x.low).thread (addr + 6) = .error c) :
    x.awaitPhase t sp addr token fault = fault c := by simp [Issue.awaitPhase, hread]

theorem awaitPhase_stalls (hread : t.monitorRead x.w x.r sp (x.g.lane x.low).thread (addr + 6) = .ok (u, none)) :
    x.awaitPhase t sp addr token fault = .stall := by simp [Issue.awaitPhase, hread]

section
variable (hread : t.monitorRead x.w x.r sp (x.g.lane x.low).thread (addr + 6) = .ok (u, some w2))
include hread

theorem awaitPhase_broken (hbroken : tritAt w2 26 = -1) : x.awaitPhase t sp addr token fault = fault 20 := by
  simp [Issue.awaitPhase, hread, hbroken]

variable (hwhole : tritAt w2 26 ≠ -1)
include hwhole

theorem awaitPhase_passed (hphase : fld w2 0 25 ≠ token) : x.awaitPhase t sp addr token fault =
    .done (x.next (u.acquireObject x.w x.r sp (x.g.lane x.low).thread addr)) := by
  simp [Issue.awaitPhase, hread, hwhole, hphase]

theorem awaitPhase_waits (hphase : fld w2 0 25 = token) :
    x.awaitPhase t sp addr token fault = .done (x.waits u addr token (Word.ofInt w2) none) := by
  simp [Issue.awaitPhase, hread, hwhole, hphase, Issue.waits]

end

/-- The fault of a word that waits for a phase: what it waits on is captured for the acting lane. -/
def Issue.waitFault (x : Issue) (p : PendLane) (c : Nat) : Fail := { cause := c, lanes := [(x.low, c)], cap := [p], issued := true }

/-- R342, R344: BARW waits for the phase of its object, once the object resolves. -/
def Issue.barw (x : Issue) (a : BarwArgs) : Eff :=
  let p := x.awaited a.sa a.sb
  match x.object a.space .read p.addr with
  | .error c => .trap (x.waitFault p c)
  | .ok _ => x.awaitPhase x.s0 a.space p.addr p.d0.val fun c => .trap (x.waitFault p c)

theorem exec_barw (a : BarwArgs) (s : State) : exec (.barw a) s = runWord (.barw a) s (·.barw a) := rfl

section
variable {a : BarwArgs} {p : PendLane} (hp : x.awaited a.sa a.sb = p)
include hp

theorem barw_noObject (ho : x.object a.space .read p.addr = .error c) : x.barw a = .trap (x.waitFault p c) := by
  simp [Issue.barw, hp, ho]

theorem barw_awaits {o : State × List Place} (ho : x.object a.space .read p.addr = .ok o) :
    x.barw a = x.awaitPhase x.s0 a.space p.addr p.d0.val fun c => .trap (x.waitFault p c) := by simp [Issue.barw, hp, ho]

end

end

/-! ## The words of the statement -/

/-- R341: an object whose count or length is out of range is written broken. -/
theorem bariWords_eq (e bufa bufn : Int) : bariWords e bufa bufn =
    [e, e, if 1 ≤ e ∧ e ≤ 797161 ∧ 0 ≤ bufn then 0 else -(3 ^ 26), bufa, bufn, 0, 0, 0, 0] := by
  have hrange : (e < 1 ∨ e > 797161 ∨ bufn < 0) ↔ ¬(1 ≤ e ∧ e ≤ 797161 ∧ 0 ≤ bufn) := by omega
  rw [bariWords, if_congr hrange rfl rfl, ite_not]

/-- Settles O31: an arrival is counted or refused by barrierStep_sound and barrierStep_refused; BARA and BAR are arrivals
(arrival_noObject to arrival_counts), BARW waits for a phase (awaitPhase_fails to awaitPhase_waits), and BARI stores bariWords. -/
theorem barrierWords : Obligations.BarrierWords := by
  unfold Obligations.BarrierWords
  refine ⟨?step, ?words⟩
  case step =>
    intro e left w2 a n r5 r6 r7 r8 hw sound
    exact ⟨barrierStep_refused, fun h hleft => (barrierStep_sound hw h).trans (by rw [if_neg hleft]),
      fun h hleft => (barrierStep_sound hw h).trans (by rw [if_pos hleft])⟩
  case words =>
    intro s w g object released wait waits arrives
    have hobject : ∀ (i : Instr) (sp : Space) (k : AccKind) (addr : Int),
        (s.issueOf w g i).object sp k addr = object (s.issueOf w g i) sp k addr := fun i sp k addr => by
      simp only [object, Issue.object, issueOf_w, Issue.low]
      cases (s.issueOf w g i).s0.resolve w sp _ k 27 addr <;> rfl
    have harrives : ∀ (i : Instr) (sp : Space) (sa : Fin 27) (go : Issue → Int → NamedBuf → State → Int → State)
        (eff : Issue → Eff), exec i s = runWord i s eff →
        (let x := s.issueOf w g i; let addr := (x.g.rdS sa.val).val
          eff x = x.arrival sp addr fun t b ph => .done (go x addr b t ph)) →
        arrives i sp sa go := by
      intro i sp sa go eff hexec heff hi x addr
      refine ⟨fun c ho => ?_, fun t ps ho => ⟨fun hw => ?_, fun hat hearlier => ⟨fun c hread => ?_, fun u ts hread =>
        ⟨fun c hmet => ?_, fun v hmet => ?_, fun v ph hmet => ?_⟩⟩⟩⟩
      all_goals rw [← hobject] at ho
      · exact hexec.trans (runWord_trap hi (heff.trans (arrival_noObject ho)))
      · exact hexec.trans (runWord_hold hi (heff.trans (arrival_holds ho hw)))
      all_goals have hearlier' := Bool.eq_false_iff.2 hearlier
      · exact hexec.trans (runWord_trap hi (heff.trans (arrival_unread ho hat hearlier' hread)))
      · exact hexec.trans (runWord_trap hi (heff.trans (arrival_fails ho hat hearlier' hread hmet)))
      · exact hexec.trans (runWord_trap hi (heff.trans (arrival_refused ho hat hearlier' hread hmet)))
      · exact hexec.trans (runWord_done hi (heff.trans (arrival_counts ho hat hearlier' hread hmet)))
    refine ⟨fun a hi => ?bari, fun a => ?bara, fun a => ?bar, fun a hi => ?barw⟩
    case bara =>
      clear_value arrives
      exact harrives (.bara a) a.space a.sa _ _ rfl rfl
    case bar =>
      clear_value arrives
      exact harrives (.bar a) a.space a.sa _ _ rfl rfl
    case bari =>
      clear harrives
      intro x v sound words
      have hnote : noNote = fun _ => none := rfl
      have hwords : bariWords (v 0) (v 1) (v 2) = words := bariWords_eq _ _ _
      refine ⟨fun c ho => runWord_trap hi ?_, fun t ps ho => ⟨fun hw => runWord_hold hi ?_, fun hearlier u es hsent =>
        ⟨fun t' hdone => runWord_done hi ?_, fun t' f fs hfails => runWord_trap hi ?_⟩⟩⟩
      all_goals rw [← hobject] at ho
      all_goals simp only [ho, x]
      · exact if_pos hw
      -- The stores sent to diversion units, in the words of the model.
      all_goals
        rw [← hwords] at hsent
        simp only [released, v, x, issueOf_r, Group.ref] at hsent
        refine (if_neg hearlier).trans ?_
        simp only [Issue.released, issueOf_r, issueOf_w, Group.ref, hsent]
      · simp only [hnote, hdone]
      · simp only [hnote, hfails]
    case barw =>
      intro x l cap addr token read trap
      have hexec := exec_barw a s
      have hcap : x.awaited a.sa a.sb = cap := rfl
      refine ⟨fun c ho => ?_, fun p ho => ?_⟩
      all_goals rw [← hobject] at ho
      · exact hexec.trans (runWord_trap hi (barw_noObject hcap ho))
      · have hawaits := barw_awaits hcap ho
        exact ⟨fun c hread => hexec.trans (runWord_trap hi (hawaits.trans (awaitPhase_fails hread))),
          fun t hread => hexec.trans (runWord_stall hi (hawaits.trans (awaitPhase_stalls hread))),
          fun t v hread => ⟨fun hbroken => hexec.trans (runWord_trap hi (hawaits.trans (awaitPhase_broken hread hbroken))),
            fun hwhole hphase => hexec.trans (runWord_done hi (hawaits.trans (awaitPhase_passed hread hwhole hphase))),
            fun hwhole hphase => hexec.trans (runWord_done hi (hawaits.trans (awaitPhase_waits hread hwhole hphase)))⟩⟩

end Sys2Proof.Machine
end
